-- ==== Sys2Proof/Word.lean ====
section
/-!
DEFINITION. The word types of the Jorua (R13, R18).
-/

namespace Sys2Proof

/-- A byte. -/
abbrev Byte := BitVec 8
/-- A 32-bit word: a v register. -/
abbrev Word := BitVec 32
/-- A 64-bit value: a pair of v registers, an m or q register, a host register. -/
abbrev Dword := BitVec 64

end Sys2Proof
end

