-- ==== Sys2Proof/Syntax.lean ====
section
/-!
DEFINITION. The syntax of the Jorua: one constructor of `Instr` per row of the opcode table.
The first part holds the instruction words (R50), the second the steps of the other agents, each with the operands
that say which entity it concerns (and, where the outside world supplies something, what it supplies).
-/

namespace Sys2Proof

/-- A 7-bit operand field (R46). Its register class is named by the instruction. -/
abbrev Reg := BitVec 7

/-- Conditions of `icmp` (R87). -/
inductive ICond where
  | eq | ne | ltS32 | leS32 | ltZ32 | leZ32 | tst
  deriving DecidableEq, Repr

/-- Conditions of `fcmp` (R112). -/
inductive FCond where
  | eq | lt | le | un | neu
  deriving DecidableEq, Repr

/-- Element types of the floating-point instructions (R106). -/
inductive FpTy where
  | f32 | f16x2 | bf16x2
  deriving DecidableEq, Repr

/-- Element formats with a `cvt` code, 0 to 8 (R65, R115). -/
inductive Fmt where
  | f32 | f16 | bf16 | e4m3 | e5m2 | e2m1 | s8 | s32 | e3m5
  deriving DecidableEq, Repr

/-- Source and destination of a `cvt`, CV = 9 SRC + DST (R115). -/
structure CvtPair where
  src : Fmt
  dst : Fmt
  deriving DecidableEq, Repr

/-- Rounding and saturation code RS (R115). -/
inductive Rs where
  | rn | rz | rd | ru | rna | cur | rnSat | sat
  deriving DecidableEq, Repr

/-- Spaces of `ld` and `st` (R154). -/
inductive Space3 where
  | stk | blk | pad
  deriving DecidableEq, Repr

/-- Types of `ld` (R154). -/
inductive LdTy where
  | s8 | z8 | s16 | z16 | b32 | b64 | b128
  deriving DecidableEq, Repr

/-- Types of `st` (R154). -/
inductive StTy where
  | b8 | b16 | b32 | b64 | b128
  deriving DecidableEq, Repr

/-- Operations of `atom` with codes 0 to 14 (R159). -/
inductive AOp where
  | addZ32 | addF32 | addB64 | minS32 | minZ32 | minF32 | maxS32 | maxZ32 | maxF32
  | andB32 | orB32 | xorB32 | exchB32 | exchB64 | incZ32
  deriving DecidableEq, Repr

/-- Scopes of ordering modifiers (R158). -/
inductive Scope where
  | blk | gang | dev | sys
  deriving DecidableEq, Repr

/-- Ordering codes of atomics (R158). -/
inductive Ord where
  | relaxed
  | acq (s : Scope)
  | rel (s : Scope)
  | acqrel (s : Scope)
  deriving DecidableEq, Repr

/-- Operations of `redux` (R168). -/
inductive ROp where
  | add | minS32 | minZ32 | maxS32 | maxZ32 | and | or | xor | addF32 | minF32 | maxF32
  deriving DecidableEq, Repr

/-- Plain formats of a matrix post (R224). -/
inductive MxFmt where
  | bf16 | f16 | e4m3 | e5m2 | e2m1
  deriving DecidableEq, Repr

/-- Operations of `ratom`: those of `atom` 0 to 14, and `cas.b32` (R358). -/
inductive RAOp where
  | op (a : AOp)
  | casB32
  deriving DecidableEq, Repr

/-- The name of a group: the tag of its launch, its block's linear index and its index in the block. -/
structure GKey where
  launch : Nat
  block : Nat
  group : Nat
  deriving DecidableEq, Repr

/-- What a cross-die request belongs to (R327): an engine operation, or sub-access `k` of a group. -/
inductive CrossTarget where
  | engine (op : Nat)
  | access (g : GKey) (k : Nat)
  deriving DecidableEq, Repr

/-- A request that another package sends (R357, R360, R361); `dst`: the first byte of the range at the requester that a copy from here writes,
by whose pages it commits. -/
inductive RemoteKind where
  | put (data : List Byte)
  | get (len dst : Nat)
  | atom (op : RAOp) (ord : BitVec 2) (a b : Word)
  deriving DecidableEq, Repr

/-- A remote request with its arrival link, source package, job and address (R357). -/
structure RemoteReq where
  link : Nat
  src : Nat
  job : Nat
  pad : Bool
  addr : Dword
  kind : RemoteKind
  deriving DecidableEq, Repr

/-- The post of another member of a collective (R364, R365): its descriptor fields and its send elements. -/
structure CollPost where
  rank : Nat
  kind : Nat
  fmt : Nat
  op : Nat
  nmem : Nat
  root : Nat
  count : Nat
  memb : List Nat
  send : List Word
  deriving DecidableEq, Repr

/-- The instructions and steps of the device. -/
inductive Instr where
  /-- `nop` (R94). -/
  | nop
  /-- `brk` (R94). -/
  | brk (k : BitVec 17)
  /-- `trap` (R94). -/
  | trap (k : BitVec 17)
  /-- `br` (R95). -/
  | br (p : Reg) (o : BitVec 17)
  /-- `s.br` (R96). -/
  | sBr (p : Reg) (o : BitVec 17)
  /-- `brx` (R98). -/
  | brx (a : Reg)
  /-- `call` (R98). -/
  | call (o : BitVec 17)
  /-- `callx` (R98). -/
  | callx (a : Reg)
  /-- `ret` (R98). -/
  | ret
  /-- `exit` (R99). -/
  | exit
  /-- `fib.end` (R99). -/
  | fibEnd
  /-- `fib.spawn` (R100). -/
  | fibSpawn (d : Reg) (a : Reg) (b : Reg)
  /-- `div.push` (R101). -/
  | divPush (o : BitVec 17)
  /-- `div.join` (R102). -/
  | divJoin
  /-- `br.rot` (R97). -/
  | brRot (p : Reg) (o : BitVec 17)
  /-- `wait` (R103). -/
  | wait (a : Reg)
  /-- `wait.addr.blk` (R103). -/
  | waitAddrBlk (a : Reg) (i : BitVec 10)
  /-- `wait.addr.pad` (R103). -/
  | waitAddrPad (a : Reg) (i : BitVec 10)
  /-- `yield` (R103). -/
  | yield
  /-- `sys.rd` (R104). -/
  | sysRd (d : Reg) (k : BitVec 8)
  /-- `sys.wr` (R105). -/
  | sysWr (a : Reg) (k : BitVec 8)
  /-- `add` (R80). -/
  | add (s : Bool) (d : Reg) (a : Reg) (b : Reg)
  /-- `sub` (R80). -/
  | sub (s : Bool) (d : Reg) (a : Reg) (b : Reg)
  /-- `add.sat.s32` (R80). -/
  | addSatS32 (s : Bool) (d : Reg) (a : Reg) (b : Reg)
  /-- `sub.sat.s32` (R80). -/
  | subSatS32 (s : Bool) (d : Reg) (a : Reg) (b : Reg)
  /-- `add.sat.z32` (R80). -/
  | addSatZ32 (s : Bool) (d : Reg) (a : Reg) (b : Reg)
  /-- `sub.sat.z32` (R80). -/
  | subSatZ32 (s : Bool) (d : Reg) (a : Reg) (b : Reg)
  /-- `add.b64` (R80). -/
  | addB64 (s : Bool) (d : Reg) (a : Reg) (b : Reg)
  /-- `sub.b64` (R80). -/
  | subB64 (s : Bool) (d : Reg) (a : Reg) (b : Reg)
  /-- `mul` (R81). -/
  | mul (s : Bool) (d : Reg) (a : Reg) (b : Reg)
  /-- `mul.hi.s32` (R81). -/
  | mulHiS32 (s : Bool) (d : Reg) (a : Reg) (b : Reg)
  /-- `mul.hi.z32` (R81). -/
  | mulHiZ32 (s : Bool) (d : Reg) (a : Reg) (b : Reg)
  /-- `mul.wide.s32` (R81). -/
  | mulWideS32 (s : Bool) (d : Reg) (a : Reg) (b : Reg)
  /-- `mul.wide.z32` (R81). -/
  | mulWideZ32 (s : Bool) (d : Reg) (a : Reg) (b : Reg)
  /-- `mad` (R81). -/
  | mad (s : Bool) (d : Reg) (a : Reg) (b : Reg)
  /-- `mad.wide.s32` (R81). -/
  | madWideS32 (s : Bool) (d : Reg) (a : Reg) (b : Reg)
  /-- `mad.wide.z32` (R81). -/
  | madWideZ32 (s : Bool) (d : Reg) (a : Reg) (b : Reg)
  /-- `and` (R82). -/
  | and (s : Bool) (d : Reg) (a : Reg) (b : Reg)
  /-- `or` (R82). -/
  | or (s : Bool) (d : Reg) (a : Reg) (b : Reg)
  /-- `xor` (R82). -/
  | xor (s : Bool) (d : Reg) (a : Reg) (b : Reg)
  /-- `andn` (R82). -/
  | andn (s : Bool) (d : Reg) (a : Reg) (b : Reg)
  /-- `orn` (R82). -/
  | orn (s : Bool) (d : Reg) (a : Reg) (b : Reg)
  /-- `xnor` (R82). -/
  | xnor (s : Bool) (d : Reg) (a : Reg) (b : Reg)
  /-- `not` (R82). -/
  | not (s : Bool) (d : Reg) (a : Reg)
  /-- `shl` (R83). -/
  | shl (s : Bool) (d : Reg) (a : Reg) (b : Reg)
  /-- `shr.z32` (R83). -/
  | shrZ32 (s : Bool) (d : Reg) (a : Reg) (b : Reg)
  /-- `shr.s32` (R83). -/
  | shrS32 (s : Bool) (d : Reg) (a : Reg) (b : Reg)
  /-- `rol` (R83). -/
  | rol (s : Bool) (d : Reg) (a : Reg) (b : Reg)
  /-- `ror` (R83). -/
  | ror (s : Bool) (d : Reg) (a : Reg) (b : Reg)
  /-- `popc` (R84). -/
  | popc (s : Bool) (d : Reg) (a : Reg)
  /-- `clz` (R84). -/
  | clz (s : Bool) (d : Reg) (a : Reg)
  /-- `ctz` (R84). -/
  | ctz (s : Bool) (d : Reg) (a : Reg)
  /-- `brev` (R84). -/
  | brev (s : Bool) (d : Reg) (a : Reg)
  /-- `bswap` (R84). -/
  | bswap (s : Bool) (d : Reg) (a : Reg)
  /-- `bfx.z32` (R85). -/
  | bfxZ32 (s : Bool) (d : Reg) (a : Reg) (b : Reg)
  /-- `bfx.s32` (R85). -/
  | bfxS32 (s : Bool) (d : Reg) (a : Reg) (b : Reg)
  /-- `bfi` (R85). -/
  | bfi (s : Bool) (d : Reg) (a : Reg) (b : Reg)
  /-- `min.s32` (R86). -/
  | minS32 (s : Bool) (d : Reg) (a : Reg) (b : Reg)
  /-- `min.z32` (R86). -/
  | minZ32 (s : Bool) (d : Reg) (a : Reg) (b : Reg)
  /-- `max.s32` (R86). -/
  | maxS32 (s : Bool) (d : Reg) (a : Reg) (b : Reg)
  /-- `max.z32` (R86). -/
  | maxZ32 (s : Bool) (d : Reg) (a : Reg) (b : Reg)
  /-- `abs.s32` (R86). -/
  | absS32 (s : Bool) (d : Reg) (a : Reg)
  /-- `neg.s32` (R86). -/
  | negS32 (s : Bool) (d : Reg) (a : Reg)
  /-- `icmp` (R87). -/
  | icmp (s : Bool) (d : Reg) (a : Reg) (b : Reg) (k : ICond)
  /-- `movi` (R88). -/
  | movi (s : Bool) (d : Reg) (i : BitVec 17)
  /-- `movh` (R88). -/
  | movh (s : Bool) (d : Reg) (i : BitVec 17)
  /-- `iaddi` (R89). -/
  | iaddi (s : Bool) (d : Reg) (a : Reg) (i : BitVec 10)
  /-- `andi` (R89). -/
  | andi (s : Bool) (d : Reg) (a : Reg) (i : BitVec 8)
  /-- `ori` (R89). -/
  | ori (s : Bool) (d : Reg) (a : Reg) (i : BitVec 8)
  /-- `xori` (R89). -/
  | xori (s : Bool) (d : Reg) (a : Reg) (i : BitVec 8)
  /-- `shli` (R89). -/
  | shli (s : Bool) (d : Reg) (a : Reg) (n : BitVec 5)
  /-- `shri.z32` (R89). -/
  | shriZ32 (s : Bool) (d : Reg) (a : Reg) (n : BitVec 5)
  /-- `shri.s32` (R89). -/
  | shriS32 (s : Bool) (d : Reg) (a : Reg) (n : BitVec 5)
  /-- `rori` (R89). -/
  | rori (s : Bool) (d : Reg) (a : Reg) (n : BitVec 5)
  /-- `mov` (R90). -/
  | mov (s : Bool) (d : Reg) (a : Reg)
  /-- `sel` (R90). -/
  | sel (s : Bool) (d : Reg) (a : Reg) (b : Reg)
  /-- `lea` (R91). -/
  | lea (s : Bool) (d : Reg) (a : Reg) (b : Reg) (n : BitVec 3)
  /-- `pand` (R92). -/
  | pand (d : Reg) (a : Reg) (b : Reg)
  /-- `por` (R92). -/
  | por (d : Reg) (a : Reg) (b : Reg)
  /-- `pxor` (R92). -/
  | pxor (d : Reg) (a : Reg) (b : Reg)
  /-- `p.set` (R92). -/
  | pSet (d : Reg) (a : Reg)
  /-- `p.get` (R92). -/
  | pGet (d : Reg) (a : Reg)
  /-- `pw.rd` (R92). -/
  | pwRd (d : Reg)
  /-- `pw.wr` (R92). -/
  | pwWr (a : Reg)
  /-- `fadd.f32` (R110). -/
  | faddF32 (s : Bool) (d : Reg) (a : Reg) (b : Reg)
  /-- `fsub.f32` (R110). -/
  | fsubF32 (s : Bool) (d : Reg) (a : Reg) (b : Reg)
  /-- `fadd.f16x2` (R110). -/
  | faddF16x2 (s : Bool) (d : Reg) (a : Reg) (b : Reg)
  /-- `fsub.f16x2` (R110). -/
  | fsubF16x2 (s : Bool) (d : Reg) (a : Reg) (b : Reg)
  /-- `fadd.bf16x2` (R110). -/
  | faddBf16x2 (s : Bool) (d : Reg) (a : Reg) (b : Reg)
  /-- `fsub.bf16x2` (R110). -/
  | fsubBf16x2 (s : Bool) (d : Reg) (a : Reg) (b : Reg)
  /-- `fadd.sat.f32` (R110). -/
  | faddSatF32 (s : Bool) (d : Reg) (a : Reg) (b : Reg)
  /-- `fsub.sat.f32` (R110). -/
  | fsubSatF32 (s : Bool) (d : Reg) (a : Reg) (b : Reg)
  /-- `fmul.f32` (R110). -/
  | fmulF32 (s : Bool) (d : Reg) (a : Reg) (b : Reg) (t : Bool)
  /-- `fmul.f16x2` (R110). -/
  | fmulF16x2 (s : Bool) (d : Reg) (a : Reg) (b : Reg) (t : Bool)
  /-- `fmul.bf16x2` (R110). -/
  | fmulBf16x2 (s : Bool) (d : Reg) (a : Reg) (b : Reg) (t : Bool)
  /-- `ffma.f32` (R110). -/
  | ffmaF32 (s : Bool) (d : Reg) (a : Reg) (b : Reg) (t : Bool)
  /-- `ffma.f16x2` (R110). -/
  | ffmaF16x2 (s : Bool) (d : Reg) (a : Reg) (b : Reg) (t : Bool)
  /-- `ffma.bf16x2` (R110). -/
  | ffmaBf16x2 (s : Bool) (d : Reg) (a : Reg) (b : Reg) (t : Bool)
  /-- `fmin` (R111). -/
  | fmin (s : Bool) (d : Reg) (a : Reg) (b : Reg) (t : FpTy)
  /-- `fmax` (R111). -/
  | fmax (s : Bool) (d : Reg) (a : Reg) (b : Reg) (t : FpTy)
  /-- `fclass` (R113). -/
  | fclass (s : Bool) (d : Reg) (a : Reg)
  /-- `fcmp` (R112). -/
  | fcmp (s : Bool) (d : Reg) (a : Reg) (b : Reg) (k : FCond)
  /-- `rcp` (R74). -/
  | rcp (s : Bool) (d : Reg) (a : Reg) (t : FpTy)
  /-- `rsq` (R74). -/
  | rsq (s : Bool) (d : Reg) (a : Reg) (t : FpTy)
  /-- `sqrt` (R74). -/
  | sqrt (s : Bool) (d : Reg) (a : Reg) (t : FpTy)
  /-- `exp2` (R74). -/
  | exp2 (s : Bool) (d : Reg) (a : Reg) (t : FpTy)
  /-- `log2` (R74). -/
  | log2 (s : Bool) (d : Reg) (a : Reg) (t : FpTy)
  /-- `sin` (R74). -/
  | sin (s : Bool) (d : Reg) (a : Reg) (t : FpTy)
  /-- `cos` (R74). -/
  | cos (s : Bool) (d : Reg) (a : Reg) (t : FpTy)
  /-- `tanh` (R74). -/
  | tanh (s : Bool) (d : Reg) (a : Reg) (t : FpTy)
  /-- `erf` (R74). -/
  | erf (s : Bool) (d : Reg) (a : Reg) (t : FpTy)
  /-- `ncdf` (R74). -/
  | ncdf (s : Bool) (d : Reg) (a : Reg) (t : FpTy)
  /-- `npdf` (R74). -/
  | npdf (s : Bool) (d : Reg) (a : Reg) (t : FpTy)
  /-- `pack.e4m3.f32` (R117). -/
  | packE4m3F32 (s : Bool) (d : Reg) (a : Reg) (r : Rs)
  /-- `pack.e5m2.f32` (R117). -/
  | packE5m2F32 (s : Bool) (d : Reg) (a : Reg) (r : Rs)
  /-- `pack.e2m1.f32` (R117). -/
  | packE2m1F32 (s : Bool) (d : Reg) (a : Reg) (r : Rs)
  /-- `unpack.f32.e4m3` (R117). -/
  | unpackF32E4m3 (s : Bool) (d : Reg) (a : Reg)
  /-- `unpack.f32.e5m2` (R117). -/
  | unpackF32E5m2 (s : Bool) (d : Reg) (a : Reg)
  /-- `unpack.f32.e2m1` (R117). -/
  | unpackF32E2m1 (s : Bool) (d : Reg) (a : Reg)
  /-- `cvt` (R116). -/
  | cvt (s : Bool) (d : Reg) (a : Reg) (v : CvtPair) (r : Rs)
  /-- `rng.b128` (R119). -/
  | rngB128 (d : Reg) (a : Reg)
  /-- `rng.f32` (R119). -/
  | rngF32 (d : Reg) (a : Reg)
  /-- `cvt.sr.bf16.f32` (R120). -/
  | cvtSrBf16F32 (d : Reg) (a : Reg) (b : Reg)
  /-- `cvt.sr.f16.f32` (R120). -/
  | cvtSrF16F32 (d : Reg) (a : Reg) (b : Reg)
  /-- `cvt.sr.bf16x2.f32` (R120). -/
  | cvtSrBf16x2F32 (d : Reg) (a : Reg) (b : Reg)
  /-- `pack.sr.e4m3.f32` (R120). -/
  | packSrE4m3F32 (d : Reg) (a : Reg) (b : Reg)
  /-- `pack.sr.e5m2.f32` (R120). -/
  | packSrE5m2F32 (d : Reg) (a : Reg) (b : Reg)
  /-- `pack.sr.e2m1.f32` (R120). -/
  | packSrE2m1F32 (d : Reg) (a : Reg) (b : Reg)
  /-- `madd` (R126). -/
  | madd (d : Reg) (a : Reg) (b : Reg)
  /-- `msub` (R126). -/
  | msub (d : Reg) (a : Reg) (b : Reg)
  /-- `mmul` (R126). -/
  | mmul (d : Reg) (a : Reg) (b : Reg)
  /-- `mfma` (R126). -/
  | mfma (d : Reg) (a : Reg) (b : Reg)
  /-- `mscl` (R126). -/
  | mscl (d : Reg) (a : Reg) (b : Reg)
  /-- `mrelu` (R128). -/
  | mrelu (d : Reg) (a : Reg)
  /-- `mexp` (R128). -/
  | mexp (d : Reg) (a : Reg)
  /-- `msigm` (R128). -/
  | msigm (d : Reg) (a : Reg)
  /-- `mtanh` (R128). -/
  | mtanh (d : Reg) (a : Reg)
  /-- `mset` (R129). -/
  | mset (d : Reg) (a : Reg) (b : Reg)
  /-- `mcol.mean` (R129). -/
  | mcolMean (d : Reg) (a : Reg)
  /-- `mcol.var` (R129). -/
  | mcolVar (d : Reg) (a : Reg)
  /-- `mcol.smp` (R130). -/
  | mcolSmp (d : Reg) (a : Reg) (b : Reg)
  /-- `mld.blk` (R132). -/
  | mldBlk (d : Reg) (g : Reg) (o : BitVec 7)
  /-- `mld.pad` (R132). -/
  | mldPad (d : Reg) (g : Reg) (o : BitVec 7)
  /-- `mst.blk` (R131). -/
  | mstBlk (d : Reg) (g : Reg) (o : BitVec 7)
  /-- `mst.pad` (R131). -/
  | mstPad (d : Reg) (g : Reg) (o : BitVec 7)
  /-- `ld` (R155). -/
  | ld (s : Bool) (d : Reg) (g : Reg) (p : Space3) (o : BitVec 5) (t : LdTy)
  /-- `st` (R155). -/
  | st (d : Reg) (g : Reg) (p : Space3) (o : BitVec 5) (t : StTy)
  /-- `atom.acc.z32` (R250). -/
  | atomAccZ32 (d : Reg) (a : Reg) (p : Bool) (r : Ord)
  /-- `atom.acc.f32` (R250). -/
  | atomAccF32 (d : Reg) (a : Reg) (p : Bool) (r : Ord)
  /-- `atom` (R161). -/
  | atom (d : Reg) (a : Reg) (k : AOp) (p : Bool) (r : Ord)
  /-- `atom.cas` (R160). -/
  | atomCas (d : Reg) (a : Reg) (z : Bool) (p : Bool) (r : Ord)
  /-- `ld.vt` (R258). -/
  | ldVt (d : Reg) (a : Reg) (b : Reg) (p : Bool) (z : Bool)
  /-- `ld.vtw` (R258). -/
  | ldVtw (d : Reg) (a : Reg) (b : Reg) (p : Bool) (z : Bool)
  /-- `st.mask` (R162). -/
  | stMask (d : Reg) (g : Reg) (o : BitVec 7) (y : Bool)
  /-- `ld.mask` (R162). -/
  | ldMask (d : Reg) (g : Reg) (o : BitVec 7) (y : Bool)
  /-- `push` (R157). -/
  | push (d : Reg) (z : Bool)
  /-- `pop` (R157). -/
  | pop (d : Reg) (z : Bool)
  /-- `fence.grp` (R163). -/
  | fenceGrp
  /-- `fence.blk` (R163). -/
  | fenceBlk
  /-- `fence.gang` (R163). -/
  | fenceGang
  /-- `fence.dev` (R163). -/
  | fenceDev
  /-- `fence.sys` (R163). -/
  | fenceSys
  /-- `wait.ld` (R163). -/
  | waitLd (n : BitVec 7)
  /-- `qx.h` (R165). -/
  | qxH (d : Reg) (a : Reg)
  /-- `qx.v` (R165). -/
  | qxV (d : Reg) (a : Reg)
  /-- `qx.d` (R165). -/
  | qxD (d : Reg) (a : Reg)
  /-- `qx.bc` (R165). -/
  | qxBc (d : Reg) (a : Reg) (i : BitVec 2)
  /-- `xlane.flip` (R166). -/
  | xlaneFlip (d : Reg) (a : Reg) (b : Reg)
  /-- `xlane.pick` (R166). -/
  | xlanePick (d : Reg) (a : Reg) (b : Reg)
  /-- `xlane.lo` (R166). -/
  | xlaneLo (d : Reg) (a : Reg) (b : Reg)
  /-- `xlane.hi` (R166). -/
  | xlaneHi (d : Reg) (a : Reg) (b : Reg)
  /-- `xlane.rot` (R166). -/
  | xlaneRot (d : Reg) (a : Reg) (b : Reg)
  /-- `ballot` (R167). -/
  | ballot (d : Reg) (a : Reg)
  /-- `agree.all` (R167). -/
  | agreeAll (d : Reg) (a : Reg)
  /-- `agree.any` (R167). -/
  | agreeAny (d : Reg) (a : Reg)
  /-- `agree.same` (R167). -/
  | agreeSame (d : Reg) (a : Reg)
  /-- `redux` (R168). -/
  | redux (d : Reg) (a : Reg) (k : ROp)
  /-- `redux.xscan` (R168). -/
  | reduxXscan (d : Reg) (a : Reg) (k : ROp)
  /-- `redux.iscan` (R168). -/
  | reduxIscan (d : Reg) (a : Reg) (k : ROp)
  /-- `bar.init` (R173). -/
  | barInit (n : BitVec 6) (b : BitVec 4)
  /-- `bar.arrive` (R170). -/
  | barArrive (b : BitVec 4)
  /-- `bar.wait` (R173). -/
  | barWait (b : BitVec 4)
  /-- `bar.sync` (R173). -/
  | barSync (b : BitVec 4)
  /-- `bar.sync.gang` (R174). -/
  | barSyncGang
  /-- `grid.sync` (R174). -/
  | gridSync
  /-- `cst.init` (R279). -/
  | cstInit (a : Reg) (b : Reg)
  /-- `cst.put` (R279). -/
  | cstPut (a : Reg)
  /-- `cst.take` (R279). -/
  | cstTake (d : Reg) (a : Reg)
  /-- `xreg.acq` (R140). -/
  | xregAcq
  /-- `xreg.rel` (R140). -/
  | xregRel
  /-- `vt.new` (R252). -/
  | vtNew (d : Reg) (a : Reg)
  /-- `vt.set` (R253). -/
  | vtSet (a : Reg)
  /-- `vt.get` (R253). -/
  | vtGet (d : Reg)
  /-- `vt.drop` (R254). -/
  | vtDrop (a : Reg)
  /-- `vt.merge` (R255). -/
  | vtMerge (a : Reg)
  /-- `mx.mma.mom` (R226). -/
  | mxMmaMom (a : Reg) (b : Reg) (t : BitVec 5) (p : Bool) (y : Bool)
  /-- `mx.post` (R226). -/
  | mxPost (a : Reg) (b : Reg) (t : BitVec 5) (f : MxFmt) (p : Bool) (y : Bool)
  /-- `mx.zero` (R229). -/
  | mxZero (t : BitVec 5)
  /-- `mx.drain` (R230). -/
  | mxDrain (d : Reg) (a : Reg) (t : BitVec 5)
  /-- `mx.ld` (R231). -/
  | mxLd (d : Reg) (a : Reg) (t : BitVec 5)
  /-- `mx.band` (R232). -/
  | mxBand (a : Reg)
  /-- `mx.stat` (R233). -/
  | mxStat (d : Reg) (t : BitVec 5)
  /-- `cuv.load.blk` (R234). -/
  | cuvLoadBlk (a : Reg) (n : BitVec 7)
  /-- `cuv.load.pad` (R234). -/
  | cuvLoadPad (a : Reg) (n : BitVec 7)
  /-- `cuv.chk` (R207). -/
  | cuvChk (d : Reg) (n : BitVec 7)
  /-- `cuv.rd` (R234). -/
  | cuvRd (d : Reg) (n : BitVec 7)
  /-- `cp.g2s` (R266). -/
  | cpG2s (g : Reg) (x : Bool)
  /-- `cp.s2g` (R266). -/
  | cpS2g (g : Reg) (x : Bool)
  /-- `cp.s2s` (R265). -/
  | cpS2s (g : Reg) (y : Bool) (x : Bool)
  /-- `cp.t.g2s` (R266). -/
  | cpTG2s (g : Reg) (x : Bool)
  /-- `cp.t.s2g` (R266). -/
  | cpTS2g (g : Reg) (x : Bool)
  /-- `mig.post` (R323). -/
  | migPost (g : Reg)
  /-- `gat` (R277). -/
  | gat (d : Reg) (a : Reg) (b : Reg) (p : Bool) (z : BitVec 2)
  /-- `obj.init` (R273). -/
  | objInit (a : Reg) (b : Reg)
  /-- `obj.arrive` (R272). -/
  | objArrive (a : Reg) (b : Reg)
  /-- `obj.wait` (R273). -/
  | objWait (a : Reg) (b : Reg)
  /-- `obj.wait.st` (R273). -/
  | objWaitSt (d : Reg) (a : Reg) (b : Reg)
  /-- `obj.poll` (R273). -/
  | objPoll (d : Reg) (a : Reg)
  /-- `rcp.put` (R360). -/
  | rcpPut (g : Reg)
  /-- `rcp.get` (R360). -/
  | rcpGet (g : Reg)
  /-- `ratom` (R361). -/
  | ratom (g : Reg) (o : BitVec 2) (k : RAOp)
  /-- `coll.post` (R365). -/
  | collPost (g : Reg)
  /-- `q.rd` (R378). -/
  | qRd (d : Reg) (a : Reg)
  /-- `q.st` (R378). -/
  | qSt (a : Reg) (b : Reg)
  /-- `q.sub` (R378). -/
  | qSub (d : Reg) (a : Reg) (b : Reg)
  /-- `wp.set` (R376). -/
  | wpSet (a : Reg)
  /-- `wp.clr` (R376). -/
  | wpClr (a : Reg)
  /-- `trc.mark` (R381). -/
  | trcMark (a : Reg)
  /-- `loc.q.pad` (R238). -/
  | locQPad (d : Reg) (a : Reg)
  /-- `loc.q.va` (R238). -/
  | locQVa (d : Reg) (a : Reg)
  /-- `bist.run` (R350). -/
  | bistRun (a : Reg)
  /-- `bist.rd` (R350). -/
  | bistRd (d : Reg)
  /-- `launch.dev` (R343). -/
  | launchDev (a : Reg)
  /-- R153: sub-access `k` of group `g` lands. -/
  | loadComplete (g : GKey) (k : Nat)
  /-- R194: the engine of cluster `c` grants. -/
  | sluiceGrant (c : Nat)
  /-- R198: the oldest granted pass of cluster `c` starts. -/
  | passStart (c : Nat)
  /-- R214: the oldest started pass of cluster `c` accumulates; `bad` lists the entries whose rows the comparator found different (R200). -/
  | passAccumulate (c : Nat) (bad : List Nat)
  /-- R275: operation `op` commits its next page; `ue`: it met an uncorrectable error (R276). -/
  | copyPageCommit (op : Nat) (ue : Bool)
  /-- R277: the gather `op` finishes; `ue` marks lanes that met an uncorrectable error. -/
  | gatherComplete (op : Nat) (ue : BitVec 64)
  /-- R324: migration `op` moves its next page. -/
  | migrationPageMove (op : Nat)
  /-- R255: the weir applies vintage `tag`. -/
  | mergeApply (tag : Nat)
  /-- R280: staged writes of a launch become visible. -/
  | weirRelease (launch : Nat)
  /-- R175: the watchdog of the batch holding `lane`. -/
  | barTimeout (g : GKey) (lane : Nat)
  /-- R259: the timer of a vintage wait of lane `k`, or of the `ld.vtw` access `k`. -/
  | vtStarve (g : GKey) (access : Bool) (k : Nat)
  /-- R103: the deadline of `wait`. -/
  | waitExpiry (g : GKey) (lane : Nat)
  /-- R103: 4 us after `wait.addr`. -/
  | waitAddrTimeout (g : GKey) (lane : Nat)
  /-- R103: 64 die cycles after `yield`. -/
  | yieldExpiry (g : GKey)
  /-- R299: the quantum timer of a block. -/
  | quantumExpiry (launch block : Nat)
  /-- R145: the sampling interval of a launch. -/
  | sample (launch : Nat)
  /-- R327: a cross-die request unanswered for 50 us. -/
  | crossDieTimeout (t : CrossTarget)
  /-- R363: remote operation `op` without progress; `known`: DETAIL of a `ratom`. -/
  | remoteTimeout (op : Nat) (known : BitVec 2)
  /-- R366: collective member `op`. -/
  | collTimeout (op : Nat)
  /-- R312: the scrubber of a die, with the errors it met. -/
  | patrolScrub (die : Nat) (src : BitVec 8) (ce ue : Nat)
  /-- R326: a frequency change, or a stop and resume. -/
  | clockFrequencyChange (die : Nat) (resumed : Bool)
  /-- R299: the block or gang at the head of the queue is placed on `cores` of `cluster`. -/
  | blockPlace (launch cluster : Nat) (cores : List Nat)
  /-- R302: a request of the host or the headworks. -/
  | preemptRequest (launch block : Nat)
  /-- R302: a halted block is saved. -/
  | preemptSave (launch block : Nat)
  /-- R304: the saved block at the head of the queue is restored. -/
  | blockRestore (launch cluster : Nat) (cores : List Nat)
  /-- R183: the job ends. -/
  | jobTerminate (job : Nat)
  /-- R331: the next fault record of the job is written. -/
  | faultRecordWrite (job : Nat)
  /-- R340: the next completion entry of the queue is written. -/
  | completionEntryWrite (job queue : Nat)
  /-- R338: the next record of the queue starts, a launch. -/
  | launchRecord (job queue : Nat)
  /-- R294: a launch completes. -/
  | launchComplete (launch : Nat)
  /-- R336: the next record of the queue starts, a migration. -/
  | migrateRecord (job queue : Nat)
  /-- R336: the next record of the queue starts, an invalidation. -/
  | invalidateRecord (job queue : Nat)
  /-- R318: an invalidation completes. -/
  | invalidateComplete (job queue seq : Nat)
  /-- R336: the next record of the queue starts, a marker. -/
  | markerRecord (job queue : Nat)
  /-- R341: the headworks gives a ready queue a slot. -/
  | slotGrant
  /-- R341: a queue has held slot `slot` for SL. -/
  | packageSliceExpiry (slot : Nat)
  /-- R330: the host writes JOBADD. -/
  | jobAdd (addr : Dword)
  /-- R332: the host writes JOBDEL. -/
  | jobDel (job : Nat)
  /-- R334: the host writes QADD. -/
  | qAdd (addr : Dword)
  /-- R334: the host writes QDEL. -/
  | qDel (job queue : Nat)
  /-- R337: the host writes TAIL of a doorbell page. -/
  | doorbellTail (page : Nat) (tail : Dword)
  /-- R322: fault control with FAIL 0. -/
  | faultReplay (die : Nat) (all : Bool) (idx job : Nat)
  /-- R322: fault control with FAIL 1. -/
  | faultFail (die : Nat) (all : Bool) (idx job : Nat)
  /-- R346: the host writes the word at 0x0238. -/
  | extend (last : Dword)
  /-- R347: a requester writes a nonce. -/
  | nonce (n : BitVec 256)
  /-- R347: the signed report becomes ready. -/
  | reportSigned
  /-- R348: the host writes the margin register. -/
  | marginWrite (die : Nat) (v : Dword)
  /-- R351: the host writes PCAP. -/
  | pcapWrite (v : Dword)
  /-- R367: the host writes DUMPCTL with GO. -/
  | dumpGo (v : Dword)
  /-- R367: the host writes DUMPCTL with REL. -/
  | dumpRel
  /-- R367: a marker arrives. -/
  | dumpMarker (link vc did job : Nat)
  /-- R367: DUMPW expires. -/
  | dumpHaltTimeout
  /-- R382: DBGCTL with RES. -/
  | debugResume (ident : BitVec 16)
  /-- R384: DBGREQ with STOP. -/
  | debugStop (ident : BitVec 16)
  /-- R384: DBGREQ with STOP and ALL. -/
  | debugStopAll
  /-- R384: DBGREQ with STEP. -/
  | debugStep (ident : BitVec 16)
  /-- R384: DBGREQ with PRE. -/
  | debugPreempt (ident : BitVec 16)
  /-- R384: DBGREQ with REL. -/
  | debugRelease (ident : BitVec 16)
  /-- R329: a host write to a register at BAR0 + `off`, of 4 bytes or of 8. -/
  | registerWrite (off : Nat) (four : Bool) (v : Dword)
  /-- R328: a host read or write at BAR4 + `off`. -/
  | hostWindowAccess (off size : Nat) (data : Option Dword)
  /-- R373: pending imprecise report `k` is written. -/
  | watchReport (k : Nat)
  /-- R357: a request of another package is performed here. -/
  | remoteRequest (r : RemoteReq)
  /-- R361: a reply reaches operation `op`. -/
  | remoteResponse (op : Nat) (data : List Byte)
  /-- R360: the target holds operation `op` on a page fault. -/
  | holdNotice (op : Nat)
  /-- R365: every member of the collective of `op` has posted. -/
  | collMatch (op : Nat) (posts : List CollPost)
  /-- R353: a flit arrives. -/
  | flitReceive (link : Nat) (flit : List Byte)
  /-- R353: the receiver asks for replay. -/
  | replayRequest (link seq : Nat)
  /-- R354: PAUSE of a virtual channel. -/
  | pause (link vc : Nat)
  /-- R354: RESUME of a virtual channel. -/
  | resume (link vc : Nat)
  /-- R355: a lane fails. -/
  | laneFailure (link lane : Nat)
  /-- R355: a link goes down. -/
  | linkDown (link : Nat)
  /-- R346: package reset. -/
  | packageReset
  /-- R11: the package powers down. -/
  | packagePowerDown
  /-- R346: the host reloads the firmware image. -/
  | recoveryLoad (good : Bool)
  /-- R355: a link has retrained. -/
  | linkRetrained (link : Nat)
  /-- R234: a held `cuv.load` finishes. -/
  | cuveeLoadComplete (g : GKey) (lane : Nat)
  /-- R207: a held `cuv.chk` finishes. -/
  | cuveeCheckComplete (g : GKey) (lane : Nat)
  /-- R350: a self-test ends. -/
  | bistComplete (g : GKey) (lane : Nat) (fail : Bool) (row : BitVec 24)
  deriving DecidableEq, Repr

end Sys2Proof
end

