-- ==== Sys2Proof/Config.lean ====
section
/-!
DEFINITION. The configuration: what one device fixes and the spec does not give, and the free values.
Every constant here is opaque: no proof can learn its value, so a statement holds whatever it is.
-/

namespace Sys2Proof

/-- What acts next on the device (log 1). -/
inductive Input where
  /-- One die cycle of a compute die (R11). -/
  | cycle (die : Nat)
  /-- `n` ns of reference time (R11, R12). -/
  | ref (n : Nat)
  /-- An access of a group that was issued earlier is performed (R285). -/
  | perform (g : GKey) (k : Nat)
  /-- The next word of a lane's batch, a load or an atomic, meets an uncorrectable memory error at an address, of a source at a die
  (R276, R313). -/
  | uncorrectable (g : GKey) (lane addr die src : Nat)
  /-- The driver writes a route of the route table (R355). -/
  | route (package primary alternate : Nat)
  /-- An engine operation, of any engine, meets an uncorrectable error of a source at a die (R276, R311 to R313). -/
  | opError (op die src : Nat)
  /-- A request of another package meets an uncorrectable error of a source at a die, at one of its pages (R276, R311). -/
  | requestError (r : RemoteReq) (page die src : Nat)
  /-- The job of another member of the collective of an operation has ended (R366). -/
  | memberEnded (op : Nat)
  /-- The receiver of a link's channel takes a flit out of its input buffer (R354). -/
  | flitTaken (link vc : Nat)
  /-- A sensor of a die reads anew: temperature sensor 0 to 3, or at 4 + c the ageing of cluster c (R348). -/
  | sensor (die n : Nat) (v : BitVec 16)
  /-- The bit errors that a die's margining has seen (R348). -/
  | bitErrors (die : Nat) (v : BitVec 32)
  /-- The host writes host memory (R282, R292). -/
  | hostWrite (addr : Nat) (data : List Byte)
  /-- A step of another agent, one of the rows of the opcode table without a word. -/
  | event (i : Instr)
  deriving DecidableEq, Repr, Inhabited

namespace Config

/-- What acts next where nothing in the machine says so: the `n`-th choice of the world outside (log 1). -/
opaque freeInput : Nat → Input

/-- The `n`-th free choice of one bit (logs 6, 12, 55, 59). -/
opaque freeBit : Nat → Bool

/-- The `n`-th free byte (logs 15, 24, 60). -/
opaque freeByte : Nat → Byte

/-- The `n`-th free word (logs 17, 24). -/
opaque freeWord : Nat → Word

/-- Encoding of a rounding that the enclosures of `Special.lean` did not decide (log 8). -/
opaque undecidedBits : List Nat → Nat

/-- Whether an undecided rounding overflowed or fell below the smallest normal (log 8). -/
opaque undecidedOverflow : List Nat → Bool
opaque undecidedUnderflow : List Nat → Bool

/-- The signature of a report under the device's private key (R347, log 9). -/
opaque signature : List Byte → List Byte

/-- The public key, as fused (R347, log 7). -/
opaque publicKey : List Byte

/-- The SHA-512 of the firmware image and of the fused defect map and configuration, as the boot ROM leaves them in MR0 and MR1,
whether the image passed its format check, the SHA-512 of a reloaded image, and the serial number and firmware version (R346, R347, log 7). -/
opaque imageHash : List Byte
opaque mapHash : List Byte
opaque imageGood : Bool
opaque reloadHash : Nat → List Byte
opaque serial : Dword
opaque version : Dword

/-- The SHA-512 of the defect map alone (R347, log 7). -/
opaque defectHash : List Byte

/-- The defect word of a compute die (R349, log 7). -/
opaque defectWord : Nat → Dword

/-- Flits that the input buffer of a channel of a link holds (R354, log 24). -/
opaque inputBuffer : Nat → Nat

/-- What a flit that this package sends holds beside the fields that the spec places: its type, its payload, and JOB where it is one of
link management (R353, log 24). -/
opaque flitType : Nat → Nat
opaque flitPayload : Nat → List Byte
opaque flitJob : Nat → Nat

/-- Bytes of the memory devices behind a CXL port (R310, R315, log 7). -/
opaque cxlSize : Nat → Nat

end Config
end Sys2Proof
end

