-- ==== Sys2Proof/Machine/Num.lean ====
section
/-!
DEFINITION. Number formats, exact values, rounding, range rules and sticky flags (R59 to R73), and the element
operations that round once: add, multiply, fused multiply-add, minimum, maximum, comparison, conversion.
A format's encodings are natural numbers. A magnitude code is an encoding without its sign bit; magnitude codes are in
the order of their values, so a rounded magnitude with no upper limit on the exponent is still one number (R67).
-/

namespace Sys2Proof.Machine

/-- A floating-point format: its width, fraction width, bias, sign, largest finite magnitude code, whether it has an
infinity, and its canonical NaN (R59, R61). -/
structure FpFmt where
  width : Nat
  frac : Nat
  bias : Nat
  signed : Bool
  hasInf : Bool
  maxMag : Nat
  nan : Nat
  deriving DecidableEq, Repr

def fmtF32 : FpFmt := ⟨32, 23, 127, true, true, 0x7F7FFFFF, 0x7FC00000⟩
def fmtF16 : FpFmt := ⟨16, 10, 15, true, true, 0x7BFF, 0x7E00⟩
def fmtBf16 : FpFmt := ⟨16, 7, 127, true, true, 0x7F7F, 0x7FC0⟩
def fmtE4m3 : FpFmt := ⟨8, 3, 7, true, false, 0x7E, 0x7F⟩
def fmtE5m2 : FpFmt := ⟨8, 2, 15, true, true, 0x7B, 0x7E⟩
/-- E2M1 has no NaN encoding; a NaN converted to it gives +0 (R71). -/
def fmtE2m1 : FpFmt := ⟨4, 1, 1, true, false, 7, 0⟩
def fmtE3m5 : FpFmt := ⟨8, 5, 3, false, false, 0xFE, 0xFF⟩

/-- The exact value of an encoding: a NaN, an infinity, or (−1)^neg · m · 2^e. -/
inductive Val where
  | nan
  | inf (neg : Bool)
  | fin (neg : Bool) (m : Nat) (e : Int)
  deriving DecidableEq, Repr

/-- The sign bit's weight of a signed format. -/
def FpFmt.signBit (f : FpFmt) : Nat := 2 ^ (f.width - 1)

/-- The weight of the last place of a subnormal: 2^(emin − P + 1) (R67). -/
def FpFmt.qmin (f : FpFmt) : Int := 1 - (f.bias : Int) - f.frac

/-- The exact value of an encoding (R60, R61). Bits above the width are ignored. -/
def FpFmt.value (f : FpFmt) (bits : Nat) : Val :=
  let b := bits % 2 ^ f.width
  let neg := f.signed && decide (f.signBit ≤ b)
  let mag := if f.signed then b % f.signBit else b
  if mag ≤ f.maxMag then
    let e := mag / 2 ^ f.frac
    let m := mag % 2 ^ f.frac
    if e = 0 then .fin neg m f.qmin else .fin neg (2 ^ f.frac + m) (f.qmin + e - 1)
  else if f.hasInf ∧ mag = f.maxMag + 1 then .inf neg
  else .nan

/-- An encoding from its sign and magnitude code. -/
def FpFmt.join (f : FpFmt) (neg : Bool) (mag : Nat) : Nat := (if neg then f.signBit else 0) + mag

/-- The infinity of a format that has one. -/
def FpFmt.inf (f : FpFmt) (neg : Bool) : Nat := f.join neg (f.maxMag + 1)

/-- Rounding modes (R66); the stochastic mode carries its random word (R68). -/
inductive Rm where
  | rn | rz | rd | ru | rna
  | sr (w : Nat)
  deriving DecidableEq, Repr

/-- The mode of a GSR.RM value (R34, R66); 5 to 7 are never held by RM. -/
def Rm.ofRM : Nat → Rm
  | 1 => .rz
  | 2 => .rd
  | 3 => .ru
  | 4 => .rna
  | _ => .rn

/-- Sticky flags in the order of GSR.FPF (R73). -/
structure Flags where
  inv : Bool := false
  div : Bool := false
  ovf : Bool := false
  unf : Bool := false
  inx : Bool := false
  deriving DecidableEq, Repr

/-- The flags of several elements or steps are ORed (R106). -/
def Flags.join (a b : Flags) : Flags :=
  ⟨a.inv || b.inv, a.div || b.div, a.ovf || b.ovf, a.unf || b.unf, a.inx || b.inx⟩

/-- The five bits of GSR.FPF (R34, R73). -/
def Flags.bits (a : Flags) : Nat :=
  a.inv.toNat + 2 * a.div.toNat + 4 * a.ovf.toNat + 8 * a.unf.toNat + 16 * a.inx.toNat

def Flags.none : Flags := {}
def Flags.invalid : Flags := { inv := true }
def Flags.divZero : Flags := { div := true }
/-- Overflow and inexact, as a range rule or saturation sets them (R73). -/
def Flags.over : Flags := { ovf := true, inx := true }

/-- A result: its encoding and the flags it sets. -/
structure Res where
  bits : Nat
  fl : Flags := {}
  deriving DecidableEq, Repr

/-- The exponent of the last place of `k`: floor(log2(n / d)) for positive `n` and `d`. -/
def ratLog2 (n d : Nat) : Int :=
  let k : Int := (Nat.log2 n : Int) - Nat.log2 d
  let below : Bool := if 0 ≤ k then decide (n < d * 2 ^ k.toNat) else decide (n * 2 ^ (-k).toNat < d)
  if below then k - 1 else k

/-- Which grid neighbour a mode takes for a magnitude `lo + rem / den` of a last place (R66, R68): whether the larger
magnitude is chosen. `odd` says that the lower neighbour's last significand bit is 1. -/
def takesLarger (mode : Rm) (neg odd : Bool) (rem den : Nat) : Bool :=
  match mode with
  | .rn => decide (den < 2 * rem) || (decide (2 * rem = den) && odd)
  | .rz => false
  | .rd => neg
  | .ru => !neg
  | .rna => decide (den ≤ 2 * rem)
  | .sr w =>
    if neg then !(decide (w < 2 ^ 32 * (den - rem) / den))
    else decide (w < 2 ^ 32 * rem / den)

/-- A magnitude rounded with no upper limit on the exponent: its magnitude code, whether it was inexact, and whether a
choice took the larger neighbour. -/
structure Rounded where
  code : Nat
  inexact : Bool
  larger : Bool
  deriving DecidableEq, Repr

/-- Rounds the positive real `n / d · 2^e` to the grid of `f` (R67, steps 1 and 2). A value far below half of the least
subnormal is replaced by another such value, which every deterministic mode rounds alike. -/
def roundMag (f : FpFmt) (mode : Rm) (neg : Bool) (n d : Nat) (e : Int) : Rounded :=
  let k := ratLog2 n d + e
  if k < f.qmin - 400 then
    let up := takesLarger mode neg false 1 (2 ^ 400)
    ⟨up.toNat, true, up⟩
  else
    let q := max (k - f.frac) f.qmin
    let s := e - q
    let num := if 0 ≤ s then n * 2 ^ s.toNat else n
    let den := if 0 ≤ s then d else d * 2 ^ (-s).toNat
    let m := num / den
    let rem := num % den
    let base := (q - f.qmin).toNat * 2 ^ f.frac
    if rem = 0 then ⟨base + m, false, false⟩
    else
      let up := takesLarger mode neg (m % 2 == 1) rem den
      ⟨base + m + up.toNat, true, up⟩

/-- Whether a rounded magnitude beyond the largest finite value takes the far column of R70 (an infinity or NaN) and not
the largest finite value. -/
def overflowsFar (mode : Rm) (neg : Bool) (r : Rounded) : Bool :=
  match mode with
  | .rn => true
  | .rna => true
  | .rz => false
  | .rd => neg
  | .ru => !neg
  | .sr _ => r.larger || !r.inexact

/-- Whether a format saturates with or without `.sat` (R71). -/
def FpFmt.alwaysSat (f : FpFmt) : Bool := f == fmtE2m1

/-- Rounds (−1)^neg · n/d · 2^e, with n > 0, to a format: rounding, the range rule and the flags (R67 to R71, R73). -/
def roundPos (f : FpFmt) (mode : Rm) (sat neg : Bool) (n d : Nat) (e : Int) : Res :=
  if neg && !f.signed then ⟨f.nan, Flags.invalid⟩
  else
    let r := roundMag f mode neg n d e
    if f.maxMag < r.code then
      if sat || f.alwaysSat || !overflowsFar mode neg r then ⟨f.join neg f.maxMag, Flags.over⟩
      else if f.hasInf then ⟨f.inf neg, Flags.over⟩
      else ⟨f.nan, Flags.over⟩
    else
      ⟨f.join neg r.code, { inx := r.inexact, unf := r.inexact && decide (r.code < 2 ^ f.frac) }⟩

/-- A zero of a format; an unsigned format has one zero (R62). -/
def FpFmt.zero (f : FpFmt) (neg : Bool) : Nat := f.join (neg && f.signed) 0

/-- Rounds the dyadic (−1)^neg · m · 2^e, zeros included. -/
def roundDyadic (f : FpFmt) (mode : Rm) (sat neg : Bool) (m : Nat) (e : Int) : Res :=
  if m = 0 then ⟨f.zero neg, {}⟩ else roundPos f mode sat neg m 1 e

/-- An infinite result of arithmetic (R108, R110). -/
def infResult (f : FpFmt) (sat neg : Bool) : Res :=
  if sat then ⟨f.join neg f.maxMag, Flags.over⟩ else ⟨f.inf neg, {}⟩

/-- A value rounded to a floating-point format, as a conversion does it (R67 to R71, R73). DEDUCED (log 56): an infinity that becomes ±6 in
E2M1 sets overflow and inexact without `.sat` too, since R71 has such a conversion always saturate. -/
def roundVal (f : FpFmt) (mode : Rm) (sat : Bool) : Val → Res
  | .nan => if f.alwaysSat then ⟨0, Flags.invalid⟩ else ⟨f.nan, {}⟩
  | .inf neg =>
    if neg && !f.signed then ⟨f.nan, Flags.invalid⟩
    else if sat || f.alwaysSat then ⟨f.join neg f.maxMag, Flags.over⟩
    else if f.hasInf then ⟨f.inf neg, {}⟩
    else ⟨f.nan, Flags.invalid⟩
  | .fin neg m e => roundDyadic f mode sat neg m e

/-- A value rounded to a two's complement format of `w` bits (R72). -/
def roundInt (w : Nat) (mode : Rm) : Val → Res
  | .nan => ⟨0, Flags.invalid⟩
  | .inf neg => if neg then ⟨2 ^ (w - 1), Flags.invalid⟩ else ⟨2 ^ (w - 1) - 1, Flags.invalid⟩
  | .fin neg m e =>
    let num := if 0 ≤ e then m * 2 ^ e.toNat else m
    let den := if 0 ≤ e then 1 else 2 ^ (-e).toNat
    let lo := num / den
    let rem := num % den
    let mag := if rem = 0 then lo else lo + (takesLarger mode neg (lo % 2 == 1) rem den).toNat
    if neg then
      if 2 ^ (w - 1) < mag then ⟨2 ^ (w - 1), Flags.invalid⟩
      else ⟨(2 ^ w - mag) % 2 ^ w, { inx := rem != 0 }⟩
    else
      if 2 ^ (w - 1) ≤ mag then ⟨2 ^ (w - 1) - 1, Flags.invalid⟩
      else ⟨mag, { inx := rem != 0 }⟩

/-- The exact value of a two's complement number of `w` bits. -/
def intVal (w : Nat) (bits : Nat) : Val :=
  let b := bits % 2 ^ w
  if 2 ^ (w - 1) ≤ b then .fin true (2 ^ w - b) 0 else .fin false b 0

/-! ### Exact arithmetic on dyadic numbers -/

/-- A signed dyadic number m · 2^e. -/
structure Dy where
  m : Int
  e : Int
  deriving DecidableEq, Repr

def Dy.mul (a b : Dy) : Dy := ⟨a.m * b.m, a.e + b.e⟩

def Dy.add (a b : Dy) : Dy :=
  let e := min a.e b.e
  ⟨a.m * 2 ^ (a.e - e).toNat + b.m * 2 ^ (b.e - e).toNat, e⟩

def Dy.neg (a : Dy) : Dy := ⟨-a.m, a.e⟩

/-- The sign of an exact zero sum of operands that do not all carry one sign (R67). -/
def zeroSign (mode : Rm) : Bool := mode == .rd

/-- The signed mantissa of a finite value. -/
def signedMant (neg : Bool) (m : Nat) : Int := if neg then -(m : Int) else m

/-- A product of two values before rounding (R110); 0·∞ is `none`. -/
def mulVal : Val → Val → Option Val
  | .nan, _ => some .nan
  | _, .nan => some .nan
  | .inf a, .inf b => some (.inf (a != b))
  | .inf a, .fin b m _ => if m = 0 then none else some (.inf (a != b))
  | .fin a m _, .inf b => if m = 0 then none else some (.inf (a != b))
  | .fin a m e, .fin b n f => some (.fin (a != b) (m * n) (e + f))

/-- A sum of two values before rounding (R67, R110); ∞ − ∞ is `none`. -/
def addVal (mode : Rm) : Val → Val → Option Val
  | .nan, _ => some .nan
  | _, .nan => some .nan
  | .inf a, .inf b => if a = b then some (.inf a) else none
  | .inf a, .fin _ _ _ => some (.inf a)
  | .fin _ _ _, .inf b => some (.inf b)
  | .fin a m e, .fin b n f =>
    let s := Dy.add ⟨signedMant a m, e⟩ ⟨signedMant b n, f⟩
    if s.m = 0 then
      some (.fin (if m = 0 ∧ n = 0 ∧ a = b then a else zeroSign mode) 0 0)
    else some (.fin (decide (s.m < 0)) s.m.natAbs s.e)

def negVal : Val → Val
  | .nan => .nan
  | .inf a => .inf (!a)
  | .fin a m e => .fin (!a) m e

def Val.isNan : Val → Bool
  | .nan => true
  | _ => false

/-- The rounding of an arithmetic result (R110): NaN operands raise no flag, an undefined result raises invalid. -/
def arithRes (f : FpFmt) (mode : Rm) (sat anyNan : Bool) (x : Option Val) : Res :=
  if anyNan then ⟨f.nan, {}⟩
  else match x with
    | none => ⟨f.nan, Flags.invalid⟩
    | some .nan => ⟨f.nan, {}⟩
    | some (.inf neg) => infResult f sat neg
    | some (.fin neg m e) => roundDyadic f mode sat neg m e

/-- `fadd` (R110). -/
def fpAdd (f : FpFmt) (mode : Rm) (sat : Bool) (a b : Nat) : Res :=
  let x := f.value a
  let y := f.value b
  arithRes f mode sat (x.isNan || y.isNan) (addVal mode x y)

/-- `fsub` (R110). -/
def fpSub (f : FpFmt) (mode : Rm) (sat : Bool) (a b : Nat) : Res :=
  let x := f.value a
  let y := f.value b
  arithRes f mode sat (x.isNan || y.isNan) (addVal mode x (negVal y))

/-- `fmul` (R110). -/
def fpMul (f : FpFmt) (mode : Rm) (sat : Bool) (a b : Nat) : Res :=
  let x := f.value a
  let y := f.value b
  arithRes f mode sat (x.isNan || y.isNan) (mulVal x y)

/-- `ffma`: a · b + c, exact, one rounding (R110). -/
def fpFma (f : FpFmt) (mode : Rm) (sat : Bool) (a b c : Nat) : Res :=
  let x := f.value a
  let y := f.value b
  let z := f.value c
  arithRes f mode sat (x.isNan || y.isNan || z.isNan)
    (match mulVal x y with
      | none => none
      | some p => addVal mode p z)

/-! ### Order -/

/-- Whether x < y for values that are no NaN; zeros of both signs are equal (R60). -/
def valLt : Val → Val → Bool
  | .nan, _ => false
  | _, .nan => false
  | .inf a, .inf b => a && !b
  | .inf a, .fin _ _ _ => a
  | .fin _ _ _, .inf b => !b
  | .fin a m e, .fin b n f => decide ((Dy.add ⟨signedMant a m, e⟩ (Dy.neg ⟨signedMant b n, f⟩)).m < 0)

/-- Whether x = y as numbers; false for a NaN (R112). -/
def valEq (x y : Val) : Bool :=
  !x.isNan && !y.isNan && !valLt x y && !valLt y x

/-- The sign of a value. -/
def valNeg : Val → Bool
  | .nan => false
  | .inf a => a
  | .fin a _ _ => a

/-- Whether `a` is below `b` with −0 below +0 (R111). -/
def totalBelow (x y : Val) : Bool := valLt x y || (valEq x y && valNeg x && !valNeg y)

/-- `fmin` and `fmax` of one element (R111). -/
def fpMinMax (f : FpFmt) (isMax : Bool) (a b : Nat) : Nat :=
  let x := f.value a
  let y := f.value b
  if x.isNan && y.isNan then f.nan
  else if x.isNan then b % 2 ^ f.width
  else if y.isNan then a % 2 ^ f.width
  else if (if isMax then totalBelow x y else totalBelow y x) then b % 2 ^ f.width
  else a % 2 ^ f.width

/-- The class word of `fclass` (R113). -/
def fpClass (bits : Nat) : Nat :=
  match fmtF32.value bits with
  | .nan => 2 ^ 8
  | .inf true => 2 ^ 0
  | .inf false => 2 ^ 7
  | .fin neg m _ =>
    if m = 0 then (if neg then 2 ^ 3 else 2 ^ 4)
    else if m < 2 ^ 23 then (if neg then 2 ^ 2 else 2 ^ 5)
    else (if neg then 2 ^ 1 else 2 ^ 6)

/-! ### Conversion -/

/-- The width in bits of a `cvt` format (R116). -/
def fmtWidth : Fmt → Nat
  | .f32 | .s32 => 32
  | .f16 | .bf16 => 16
  | .e2m1 => 4
  | .e4m3 | .e5m2 | .s8 | .e3m5 => 8

/-- The floating-point format of a `cvt` format; an integer format has none. -/
def fmtFp : Fmt → Option FpFmt
  | .f32 => some fmtF32
  | .f16 => some fmtF16
  | .bf16 => some fmtBf16
  | .e4m3 => some fmtE4m3
  | .e5m2 => some fmtE5m2
  | .e2m1 => some fmtE2m1
  | .e3m5 => some fmtE3m5
  | .s8 | .s32 => none

/-- The value of the low bits of a register, read as a format (R116). -/
def srcVal (t : Fmt) (bits : Nat) : Val :=
  match fmtFp t with
  | some f => f.value bits
  | none => intVal (fmtWidth t) bits

/-- `cvt` of one element (R116): the value of the source, rounded to the destination. -/
def convertElt (src dst : Fmt) (mode : Rm) (sat : Bool) (bits : Nat) : Res :=
  match fmtFp dst with
  | some f => roundVal f mode sat (srcVal src bits)
  | none => roundInt (fmtWidth dst) mode (srcVal src bits)

end Sys2Proof.Machine
end

