-- ==== Sys2Proof/Machine/Special.lean ====
section
/-!
DEFINITION. The special functions (R74, R75) and the real functions of the moment class (R123, R128, R130): each exact real value
rounded once. Algebraic values are found exactly by integer square roots. A transcendental value is enclosed between two
dyadic numbers, at growing precision, until both ends round alike; the enclosures are intervals of integers scaled by 2^n.
-/

namespace Sys2Proof.Machine

/-! ### Intervals of integers scaled by 2^n -/

/-- An interval [lo, hi] in units of 2^−n; `n` is kept by the caller. -/
structure Iv where
  lo : Int
  hi : Int
  deriving DecidableEq, Repr

/-- The floor of a / 2^n, and the ceiling. -/
def fdivPow (a : Int) (n : Nat) : Int := a / (2 ^ n : Int)
def cdivPow (a : Int) (n : Nat) : Int := -((-a) / (2 ^ n : Int))

def Iv.add (a b : Iv) : Iv := ⟨a.lo + b.lo, a.hi + b.hi⟩
def Iv.neg (a : Iv) : Iv := ⟨-a.hi, -a.lo⟩
def Iv.sub (a b : Iv) : Iv := a.add b.neg
/-- An interval widened by `k` units on both sides. -/
def Iv.widen (a : Iv) (k : Int) : Iv := ⟨a.lo - k, a.hi + k⟩
def Iv.mul (n : Nat) (a b : Iv) : Iv :=
  let p := a.lo * b.lo
  let q := a.lo * b.hi
  let r := a.hi * b.lo
  let t := a.hi * b.hi
  ⟨fdivPow (min (min p q) (min r t)) n, cdivPow (max (max p q) (max r t)) n⟩
/-- An interval divided by a positive number. -/
def Iv.divNat (a : Iv) (k : Nat) : Iv := ⟨a.lo / (k : Int), -((-a.hi) / (k : Int))⟩
/-- A quotient by a positive interval. -/
def Iv.div (n : Nat) (a b : Iv) : Iv :=
  let p := 2 ^ n * a.lo
  let q := 2 ^ n * a.hi
  ⟨min (p / b.lo) (p / b.hi), -(min ((-q) / b.lo) ((-q) / b.hi))⟩
/-- The magnitude bound of an interval. -/
def Iv.mag (a : Iv) : Int := max (-a.lo) a.hi
/-- An integer as an interval. -/
def Iv.ofInt (n : Nat) (k : Int) : Iv := ⟨k * 2 ^ n, k * 2 ^ n⟩
/-- A dyadic number as an interval. -/
def Iv.ofDy (n : Nat) (x : Dy) : Iv :=
  let s := x.e + n
  if 0 ≤ s then ⟨x.m * 2 ^ s.toNat, x.m * 2 ^ s.toNat⟩
  else ⟨fdivPow x.m (-s).toNat, cdivPow x.m (-s).toNat⟩

/-- The integer square root, found bit by bit from bit `k - 1` down. -/
def isqrtFrom (a : Nat) : Nat → Nat → Nat
  | 0, r => r
  | k + 1, r =>
    let c := r + 2 ^ k
    isqrtFrom a k (if c * c ≤ a then c else r)

/-- floor(sqrt a). -/
def isqrt (a : Nat) : Nat := isqrtFrom a (Nat.log2 a / 2 + 1) 0

/-- The square root of a nonnegative interval. -/
def Iv.sqrt (n : Nat) (a : Iv) : Iv :=
  ⟨isqrt (a.lo.toNat * 2 ^ n), isqrt (a.hi.toNat * 2 ^ n) + 1⟩

/-- Σ t_k with t_{k+1} = t_k · x / (k + 1), the exponential series, for |x| ≤ 2; the rest is below the last term. -/
def expSeries (n : Nat) (x : Iv) : Nat → Nat → Iv → Iv → Iv
  | 0, _, t, s => s.widen (2 * t.mag + 2)
  | f + 1, k, t, s =>
    if t.mag ≤ 1 ∧ 4 ≤ k then s.widen (2 * t.mag + 2)
    else
      let t' := (t.mul n x).divNat (k + 1)
      expSeries n x f (k + 1) t' (s.add t')

/-- exp of an interval inside [−2, 2]. -/
def expIv (n : Nat) (x : Iv) : Iv := expSeries n x (n + 8) 0 (Iv.ofInt n 1) (Iv.ofInt n 1)

/-- Σ x^(2k+1) / (2k+1), or the alternating sum, for |x| ≤ 1/2: atanh and atan. -/
def oddSeries (n : Nat) (alt : Bool) (x2 : Iv) : Nat → Nat → Iv → Iv → Iv
  | 0, _, p, s => s.widen (2 * p.mag + 2)
  | f + 1, k, p, s =>
    if p.mag ≤ 1 then s.widen (2 * p.mag + 2)
    else
      let p' := p.mul n x2
      let t := p'.divNat (2 * k + 3)
      oddSeries n alt x2 f (k + 1) p' (if alt && k % 2 == 0 then s.sub t else s.add t)

def atanhIv (n : Nat) (x : Iv) : Iv := oddSeries n false (x.mul n x) (n + 8) 0 x x
def atanIv (n : Nat) (x : Iv) : Iv := oddSeries n true (x.mul n x) (n + 8) 0 x x

/-- ln 2 = 2 atanh(1/3). -/
def ln2Iv (n : Nat) : Iv := let a := atanhIv n ((Iv.ofInt n 1).divNat 3); a.add a

/-- π = 16 atan(1/5) − 4 atan(1/239). -/
def piIv (n : Nat) : Iv :=
  let a := atanIv n ((Iv.ofInt n 1).divNat 5)
  let b := atanIv n ((Iv.ofInt n 1).divNat 239)
  ⟨16 * a.lo - 4 * b.hi, 16 * a.hi - 4 * b.lo⟩

/-- ln of a real in [1, 2] given as an interval: 2 atanh((y − 1)/(y + 1)). -/
def lnIv (n : Nat) (y : Iv) : Iv :=
  let one := Iv.ofInt n 1
  let a := atanhIv n ((y.sub one).div n (y.add one))
  a.add a

/-- The series of cos (from t = 1) or sin (from t = x) in x², with signs alternating. -/
def trigSeries (n : Nat) (x2 : Iv) : Nat → Nat → Iv → Iv → Iv
  | 0, _, t, s => s.widen (2 * t.mag + 2)
  | f + 1, k, t, s =>
    if t.mag ≤ 1 then s.widen (2 * t.mag + 2)
    else
      let t' := ((t.mul n x2).divNat ((k + 1) * (k + 2))).neg
      trigSeries n x2 f (k + 2) t' (s.add t')

def cosIv (n : Nat) (x : Iv) : Iv := trigSeries n (x.mul n x) (n + 8) 0 (Iv.ofInt n 1) (Iv.ofInt n 1)
def sinIv (n : Nat) (x : Iv) : Iv := trigSeries n (x.mul n x) (n + 8) 1 x x

/-! ### Enclosures with an exponent -/

/-- A nonzero real between (−1)^neg · lo · 2^exp and (−1)^neg · hi · 2^exp. -/
structure Enc where
  neg : Bool
  lo : Nat
  hi : Nat
  exp : Int
  deriving DecidableEq, Repr

/-- An enclosure of an interval that holds no zero. -/
def Iv.enc (n : Nat) (a : Iv) : Option Enc :=
  if 0 < a.lo then some ⟨false, a.lo.toNat, a.hi.toNat, -(n : Int)⟩
  else if a.hi < 0 then some ⟨true, (-a.hi).toNat, (-a.lo).toNat, -(n : Int)⟩
  else none

/-- A positive interval times 2^k. -/
def Iv.encScaled (n : Nat) (a : Iv) (k : Int) : Option Enc :=
  (a.enc n).map fun c => { c with exp := c.exp + k }

/-- A value known to lie strictly between `m · 2^e` and its neighbours `(m ± 1) · 2^e`, where that already decides every
rounding: the value is replaced by (2m + 1) · 2^(e−1). -/
def Enc.between (neg : Bool) (m : Nat) (e : Int) : Enc := ⟨neg, 2 * m + 1, 2 * m + 1, e - 1⟩

/-- The rounding of an irrational real, where both ends of its enclosure round alike and neither is on the grid. -/
def Enc.round (f : FpFmt) (mode : Rm) (c : Enc) : Option Res :=
  if c.lo = 0 then none
  else
    let r := roundPos f mode false c.neg c.lo 1 c.exp
    let t := roundPos f mode false c.neg c.hi 1 c.exp
    if r = t ∧ r.fl.inx = true then some r else none

/-- The precisions tried. -/
def precisions : List Nat := [96, 192, 384, 768, 1536, 3072]

/-- The first precision at which the enclosure decides the rounding; a free value where none does (log 8). -/
def roundBy (q : List Nat) (f : FpFmt) (mode : Rm) (g : Nat → Option Enc) : Res :=
  match precisions.findSome? fun n => (g n).bind (Enc.round f mode) with
  | some r => r
  | none =>
    ⟨Config.undecidedBits q % 2 ^ f.width,
      { inx := true, ovf := Config.undecidedOverflow q, unf := Config.undecidedUnderflow q }⟩

/-- The number of bits above the point of |x|. -/
def Dy.intBits (x : Dy) : Nat := ((Nat.log2 x.m.natAbs : Int) + x.e + 2).toNat

/-- exp(x) for a dyadic x: 2^k · exp(x − k ln 2). -/
def expEnc (n : Nat) (x : Dy) : Option Enc :=
  let w := n + x.intBits + 10
  let l := ln2Iv w
  let a := Iv.ofDy w x
  let k := a.lo / l.hi
  let r := a.sub ⟨min (k * l.lo) (k * l.hi), max (k * l.lo) (k * l.hi)⟩
  (expIv w r).encScaled w k

/-- The floor of a dyadic number. -/
def Dy.floor (x : Dy) : Int :=
  if 0 ≤ x.e then x.m * 2 ^ x.e.toNat else fdivPow x.m (-x.e).toNat

/-- 2^x for a dyadic x. -/
def exp2Enc (n : Nat) (x : Dy) : Option Enc :=
  let k := x.floor
  let r := Iv.ofDy n (Dy.add x ⟨-k, 0⟩)
  (expIv n (r.mul n (ln2Iv n))).encScaled n k

/-- log2(m · 2^e) for m > 0. -/
def log2Iv (n : Nat) (m : Nat) (e : Int) : Iv :=
  let l := Nat.log2 m
  let y := Iv.ofDy n ⟨m, -(l : Int)⟩
  ((lnIv n y).div n (ln2Iv n)).add (Iv.ofInt n (e + l))

/-- −ln(m / 2^k) for 0 < m < 2^k. -/
def negLnIv (n m k : Nat) : Iv :=
  let l := Nat.log2 m
  let y := Iv.ofDy n ⟨m, -(l : Int)⟩
  let t := ln2Iv n
  let d : Int := (k : Int) - l
  (⟨d * t.lo, d * t.hi⟩ : Iv).sub (lnIv n y)

/-- sin or cos of a quarter number and a remainder: the quarter turns of a circle. -/
def quarterTrig (n : Nat) (cosine : Bool) (j : Int) (r : Iv) : Iv :=
  let q := (j + if cosine then 1 else 0) % 4
  if q = 0 then sinIv n r
  else if q = 1 then cosIv n r
  else if q = 2 then (sinIv n r).neg
  else (cosIv n r).neg

/-- sin or cos of a dyadic x: quarter turns are taken away first. -/
def trigEnc (cosine : Bool) (n : Nat) (x : Dy) : Option Enc :=
  let w := n + x.intBits + 10
  let half : Iv := let p := piIv w; ⟨p.lo / 2, p.hi / 2 + 1⟩
  let a := Iv.ofDy w x
  let j := a.lo / half.hi
  let r := a.sub ⟨min (j * half.lo) (j * half.hi), max (j * half.lo) (j * half.hi)⟩
  (quarterTrig w cosine j r).enc w

/-- cos(2π · u / 2^24), for u no multiple of a quarter turn. -/
def cosTurnEnc (u : Nat) (n : Nat) : Option Enc :=
  let j : Nat := 4 * u / 2 ^ 24
  let rest : Dy := ⟨(u : Int) - j * 2 ^ 22, -24⟩
  let p := piIv n
  let r := (⟨2 * p.lo, 2 * p.hi⟩ : Iv).mul n (Iv.ofDy n rest)
  (quarterTrig n true j r).enc n

/-- tanh(x) for 0 < |x| < 64: (exp(2|x|) − 1)/(exp(2|x|) + 1). -/
def tanhEnc (n : Nat) (x : Dy) : Option Enc :=
  let y : Dy := ⟨x.m.natAbs, x.e + 1⟩
  match expEnc n y with
  | none => none
  | some c =>
    let w := n + 200
    let e : Iv := ⟨(Iv.ofDy w ⟨c.lo, c.exp⟩).lo, (Iv.ofDy w ⟨c.hi, c.exp⟩).hi⟩
    let one := Iv.ofInt w 1
    match ((e.sub one).div w (e.add one)).enc w with
    | none => none
    | some t => some { t with neg := decide (x.m < 0) }

/-- Σ (−1)^k x · y^k / (k! (2k + 1)), with y = x² for erf and x²/2 for Phi. -/
def erfSeries (n : Nat) (y : Iv) : Nat → Nat → Iv → Iv → Iv
  | 0, _, p, s => s.widen (p.mag + 2)
  | f + 1, k, p, s =>
    if p.mag ≤ 1 then s.widen (2 * p.mag + 2)
    else
      let p' := ((p.mul n y).divNat (k + 1)).neg
      erfSeries n y f (k + 1) p' (s.add (p'.divNat (2 * k + 3)))

/-- erf(x) for |x| < 16: 2/√π times the series. -/
def erfEnc (n : Nat) (x : Dy) : Option Enc :=
  let w := n + 420
  let a := Iv.ofDy w x
  let s := erfSeries w (a.mul w a) (2 * w + 800) 0 a a
  let c := (Iv.ofInt w 2).div w (Iv.sqrt w (piIv w))
  (s.mul w c).enc w

/-- Phi(x) for |x| < 24: 1/2 + series/√(2π). -/
def phiCdfEnc (n : Nat) (x : Dy) : Option Enc :=
  let w := n + 460
  let a := Iv.ofDy w x
  let s := erfSeries w ((a.mul w a).divNat 2) (2 * w + 800) 0 a a
  let p := piIv w
  let t := s.div w (Iv.sqrt w ⟨2 * p.lo, 2 * p.hi⟩)
  (t.add ⟨2 ^ (w - 1), 2 ^ (w - 1)⟩).enc w

/-- phi(x) = exp(−x²/2)/√(2π). -/
def phiPdfEnc (n : Nat) (x : Dy) : Option Enc :=
  match expEnc n ⟨-(x.m * x.m), 2 * x.e - 1⟩ with
  | none => none
  | some c =>
    let p := piIv n
    let r := Iv.sqrt n ⟨2 * p.lo, 2 * p.hi⟩
    some ⟨false, c.lo * 2 ^ n / r.hi.toNat, c.hi * 2 ^ n / r.lo.toNat + 1, c.exp⟩

/-- S(x) = 1/(1 + exp(−x)). -/
def logisticEnc (n : Nat) (x : Dy) : Option Enc :=
  match expEnc n ⟨-(x.m.natAbs : Int), x.e⟩ with
  | none => none
  | some c =>
    let w := n + 700
    let e : Iv := ⟨(Iv.ofDy w ⟨c.lo, c.exp⟩).lo, (Iv.ofDy w ⟨c.hi, c.exp⟩).hi⟩
    let one := Iv.ofInt w 1
    let den := one.add e
    if x.m < 0 then (e.div w den).enc w else (one.div w den).enc w

/-- Whether |x| ≥ k for a positive k. -/
def Dy.atLeast (x : Dy) (k : Nat) : Bool := decide (0 ≤ (Dy.add ⟨x.m.natAbs, x.e⟩ ⟨-(k : Int), 0⟩).m)

/-- A real strictly between 1 − 2^−90 and 1. -/
def nearOne (neg : Bool) : Enc := Enc.between neg (2 ^ 90 - 1) (-90)
/-- A real strictly between 0 and 2^−400. -/
def nearZero : Enc := Enc.between false 0 (-400)

/-- The square root of n/d · 2^e, n > 0, rounded once: exact where it is rational, else strictly between two neighbours of a
grid finer than every format's. -/
def roundSqrt (f : FpFmt) (mode : Rm) (n d : Nat) (e : Int) : Res :=
  let n := if e % 2 = 0 then n else 2 * n
  let h := e / 2
  let k := 90 + Nat.log2 d
  let a := n * 2 ^ (2 * k)
  let s := isqrt (a / d)
  if s * s * d = a then roundPos f mode false false s 1 (h - k)
  else roundPos f mode false false (2 * s + 1) 1 (h - k - 1)

/-- A signed dyadic from the fields of a finite value. -/
def dyOf (neg : Bool) (m : Nat) (e : Int) : Dy := ⟨signedMant neg m, e⟩

/-- The SFU functions (R74, R114). -/
inductive Sfu where
  | rcp | rsq | sqrt | exp2 | log2 | sin | cos | tanh | erf | ncdf | npdf
  deriving DecidableEq, Repr

def Sfu.code : Sfu → Nat
  | .rcp => 0
  | .rsq => 1
  | .sqrt => 2
  | .exp2 => 3
  | .log2 => 4
  | .sin => 5
  | .cos => 6
  | .tanh => 7
  | .erf => 8
  | .ncdf => 9
  | .npdf => 10

/-- The value 1 of a format. -/
def FpFmt.one (f : FpFmt) (neg : Bool) : Nat := f.join neg (f.bias * 2 ^ f.frac)

/-- An infinite argument (R75). -/
def sfuInf (f : FpFmt) (fn : Sfu) (neg : Bool) : Res :=
  match fn with
  | .rcp => ⟨f.zero neg, {}⟩
  | .rsq => if neg then ⟨f.nan, Flags.invalid⟩ else ⟨f.zero false, {}⟩
  | .sqrt => if neg then ⟨f.nan, Flags.invalid⟩ else ⟨f.inf false, {}⟩
  | .exp2 => if neg then ⟨f.zero false, {}⟩ else ⟨f.inf false, {}⟩
  | .log2 => if neg then ⟨f.nan, Flags.invalid⟩ else ⟨f.inf false, {}⟩
  | .sin => ⟨f.nan, Flags.invalid⟩
  | .cos => ⟨f.nan, Flags.invalid⟩
  | .tanh => ⟨f.one neg, {}⟩
  | .erf => ⟨f.one neg, {}⟩
  | .ncdf => if neg then ⟨f.zero false, {}⟩ else ⟨f.one false, {}⟩
  | .npdf => ⟨f.zero false, {}⟩

/-- A zero argument (R75). -/
def sfuZero (f : FpFmt) (mode : Rm) (fn : Sfu) (neg : Bool) : Res :=
  match fn with
  | .rcp => ⟨f.inf neg, Flags.divZero⟩
  | .rsq => ⟨f.inf neg, Flags.divZero⟩
  | .sqrt => ⟨f.zero neg, {}⟩
  | .exp2 => ⟨f.one false, {}⟩
  | .log2 => ⟨f.inf true, Flags.divZero⟩
  | .sin => ⟨f.zero neg, {}⟩
  | .cos => ⟨f.one false, {}⟩
  | .tanh => ⟨f.zero neg, {}⟩
  | .erf => ⟨f.zero neg, {}⟩
  | .ncdf => ⟨f.one false - 2 ^ f.frac, {}⟩
  | .npdf => roundBy [fn.code, 0, f.width, f.frac] f mode fun n => phiPdfEnc n ⟨0, 0⟩

/-- A finite nonzero argument (R74, R75): its exact value rounded once. R67 and R75 give no sign for the exact zero log2(1.0): it is +0 in every
mode (log 65). -/
def sfuFin (f : FpFmt) (mode : Rm) (fn : Sfu) (neg : Bool) (m : Nat) (e : Int) : Res :=
  let x := dyOf neg m e
  let q : List Nat := [fn.code, neg.toNat, m, e.natAbs, f.width, f.frac]
  match fn with
  | .rcp => roundPos f mode false neg 1 m (-e)
  | .rsq => if neg then ⟨f.nan, Flags.invalid⟩ else roundSqrt f mode 1 m (-e)
  | .sqrt => if neg then ⟨f.nan, Flags.invalid⟩ else roundSqrt f mode m 1 e
  | .exp2 =>
    if (Dy.add x ⟨-x.floor, 0⟩).m = 0 then roundPos f mode false false 1 1 x.floor
    else roundBy q f mode fun n => exp2Enc n x
  | .log2 =>
    if neg then ⟨f.nan, Flags.invalid⟩
    else
      let l := Nat.log2 m
      if m = 2 ^ l then
        let r : Int := e + l
        roundDyadic f mode false (decide (r < 0)) r.natAbs 0
      else roundBy q f mode fun n => (log2Iv n m e).enc n
  | .sin => roundBy q f mode fun n => trigEnc false n x
  | .cos => roundBy q f mode fun n => trigEnc true n x
  | .tanh => roundBy q f mode fun n => if x.atLeast 64 then some (nearOne neg) else tanhEnc n x
  | .erf => roundBy q f mode fun n => if x.atLeast 16 then some (nearOne neg) else erfEnc n x
  | .ncdf =>
    roundBy q f mode fun n =>
      if x.atLeast 24 then some (if neg then nearZero else nearOne false) else phiCdfEnc n x
  | .npdf => roundBy q f mode fun n => phiPdfEnc n x

/-- One element of an SFU function (R74, R75, R114). -/
def sfu (f : FpFmt) (mode : Rm) (fn : Sfu) (bits : Nat) : Res :=
  match f.value bits with
  | .nan => ⟨f.nan, {}⟩
  | .inf neg => sfuInf f fn neg
  | .fin neg m e => if m = 0 then sfuZero f mode fn neg else sfuFin f mode fn neg m e

end Sys2Proof.Machine
end

