-- ==== Sys2Proof/Machine/Hash.lean ====
section
/-!
DEFINITION. The generator Philox4x32-10 (R76), the CRC-64 of a flit (R353) and SHA-512 (R281, R346).
-/

namespace Sys2Proof.Machine

/-! ### Philox (R76) -/

/-- A counter or a result of the generator: four 32-bit words. -/
structure Quad where
  x0 : Word
  x1 : Word
  x2 : Word
  x3 : Word
  deriving DecidableEq, Repr

/-- Word `j` of a result. -/
def Quad.get (q : Quad) : Nat → Word
  | 0 => q.x0
  | 1 => q.x1
  | 2 => q.x2
  | _ => q.x3

/-- One round with its round key (R76). -/
def philoxRound (q : Quad) (k0 k1 : Word) : Quad :=
  let pa := 0xD2511F53 * q.x0.toNat
  let pb := 0xCD9E8D57 * q.x2.toNat
  ⟨BitVec.ofNat 32 (pb / 2 ^ 32) ^^^ q.x1 ^^^ k0, BitVec.ofNat 32 pb,
    BitVec.ofNat 32 (pa / 2 ^ 32) ^^^ q.x3 ^^^ k1, BitVec.ofNat 32 pa⟩

/-- `n` rounds, the key moving on after each. -/
def philoxRounds : Nat → Quad → Word → Word → Quad
  | 0, q, _, _ => q
  | n + 1, q, k0, k1 => philoxRounds n (philoxRound q k0 k1) (k0 + 0x9E3779B9) (k1 + 0xBB67AE85)

/-- Philox4x32-10 of a counter and a 64-bit key (R76). -/
def philox (c : Quad) (key : Dword) : Quad :=
  philoxRounds 10 c (key.setWidth 32) ((key >>> 32).setWidth 32)

/-- The streams of R77. -/
inductive Stream where
  | rng | cvtSr | mcolSmp
  deriving DecidableEq, Repr

def Stream.code : Stream → Nat
  | .rng => 0
  | .cvtSr => 1
  | .mcolSmp => 2

/-- The draw of a lane (R77): its counter operand, lane, group and block index, the stream and the launch's seed. -/
def draw (st : Stream) (seed : Dword) (c0 : Word) (lane group block : Nat) : Quad :=
  philox ⟨c0, BitVec.ofNat 32 (lane % 64 + group % 16 * 2 ^ 6 + st.code * 2 ^ 10), BitVec.ofNat 32 block, 0⟩ seed

/-! ### CRC-64 with the ECMA-182 polynomial (R353; log 18) -/

/-- `n` shifts of the register. -/
def crcShift : Nat → Dword → Dword
  | 0, r => r
  | n + 1, r => crcShift n (if r.msb then (r <<< 1) ^^^ 0x42F0E1EBA9EA3693 else r <<< 1)

/-- The CRC of bytes in order, most significant bit first, from 0. -/
def crc64 (bs : List Byte) : Dword :=
  bs.foldl (fun (r : Dword) b => crcShift 8 (r ^^^ ((b.setWidth 64 : Dword) <<< 56))) 0

/-! ### SHA-512 -/

/-- The first 80 primes. -/
def shaPrimes : List Nat :=
  [2, 3, 5, 7, 11, 13, 17, 19, 23, 29, 31, 37, 41, 43, 47, 53, 59, 61, 67, 71] ++
  [73, 79, 83, 89, 97, 101, 103, 107, 109, 113, 127, 131, 137, 139, 149, 151, 157, 163, 167, 173] ++
  [179, 181, 191, 193, 197, 199, 211, 223, 227, 229, 233, 239, 241, 251, 257, 263, 269, 271, 277, 281] ++
  [283, 293, 307, 311, 313, 317, 331, 337, 347, 349, 353, 359, 367, 373, 379, 383, 389, 397, 401, 409]

/-- The integer cube root, bit by bit. -/
def icbrtFrom (a : Nat) : Nat → Nat → Nat
  | 0, r => r
  | k + 1, r =>
    let c := r + 2 ^ k
    icbrtFrom a k (if c * c * c ≤ a then c else r)

/-- The round constants: 64 bits of the fractions of the primes' cube roots. -/
def shaK : List Dword := shaPrimes.map fun p => BitVec.ofNat 64 (icbrtFrom (p * 2 ^ 192) 68 0)

/-- The initial hash: 64 bits of the fractions of the first eight primes' square roots. -/
def shaInit : List Dword := (shaPrimes.take 8).map fun p => BitVec.ofNat 64 (isqrt (p * 2 ^ 128))

/-- Sixteen message words extended, newest first. -/
def shaExtend : Nat → List Dword → List Dword
  | 0, ws => ws
  | n + 1, ws =>
    let at_ (k : Nat) : Dword := ws.getD k 0
    let x := at_ 14
    let y := at_ 1
    let s0 := x.rotateRight 1 ^^^ x.rotateRight 8 ^^^ (x >>> 7)
    let s1 := y.rotateRight 19 ^^^ y.rotateRight 61 ^^^ (y >>> 6)
    shaExtend n ((at_ 15 + s0 + at_ 6 + s1) :: ws)

/-- The 80 rounds over the eight working words. -/
def shaRounds : List (Dword × Dword) → List Dword → List Dword
  | (k, w) :: r, [a, b, c, d, e, f, g, h] =>
    let s1 := e.rotateRight 14 ^^^ e.rotateRight 18 ^^^ e.rotateRight 41
    let ch := (e &&& f) ^^^ (~~~e &&& g)
    let t1 := h + s1 + ch + k + w
    let s0 := a.rotateRight 28 ^^^ a.rotateRight 34 ^^^ a.rotateRight 39
    let maj := (a &&& b) ^^^ (a &&& c) ^^^ (b &&& c)
    shaRounds r [t1 + s0 + maj, a, b, c, d + t1, e, f, g]
  | _, s => s

/-- A big-endian 64-bit word of bytes. -/
def beWord (bs : List Byte) : Dword := BitVec.ofNat 64 (bs.foldl (fun a b => a * 256 + b.toNat) 0)

/-- The `k` bytes of a number, most significant first. -/
def beBytes : Nat → Nat → List Byte
  | 0, _ => []
  | k + 1, n => BitVec.ofNat 8 (n / 256 ^ k) :: beBytes k n

/-- The first `n` groups of `k` items. -/
def chunks {α : Type} (k : Nat) : Nat → List α → List (List α)
  | 0, _ => []
  | n + 1, l => if l.isEmpty then [] else l.take k :: chunks k n (l.drop k)

/-- One 128-byte block. -/
def shaBlock (h : List Dword) (blk : List Byte) : List Dword :=
  let ws := (shaExtend 64 ((chunks 8 16 blk).map beWord).reverse).reverse
  List.zipWith (· + ·) h (shaRounds (shaK.zip ws) h)

/-- SHA-512 of a list of bytes: 64 bytes. -/
def sha512 (bs : List Byte) : List Byte :=
  let zeros := (239 - bs.length % 128) % 128
  let msg := bs ++ [0x80#8] ++ List.replicate zeros 0 ++ beBytes 16 (8 * bs.length)
  let h := (chunks 128 (msg.length / 128 + 1) msg).foldl shaBlock shaInit
  h.flatMap fun w => beBytes 8 w.toNat

end Sys2Proof.Machine
end

