-- ==== Sys2Proof/Machine/Cells.lean ====
section
/-!
DEFINITION. Sparse storage: a list of (number, value) pairs in one canonical form, numbers strictly rising and no value 0.
What an unlisted number reads as is 0. Memories (8 bits a cell), register files and counters are held this way.
Below it stand the byte-order helpers (R13) and the keyed lists that hold the records of the machine.
-/

namespace Sys2Proof.Machine

/-- Sparse storage of values of `w` bits. -/
abbrev Cells (w : Nat) := List (Nat × BitVec w)

/-- A memory: cells of one byte. -/
abbrev Memory := List Host.Cell

/-- What a number that is not listed reads as (log 3). -/
def unlisted (w : Nat) : BitVec w := 0

/-- The value at a number. -/
def cellGet {w : Nat} : Cells w → Nat → BitVec w
  | [], _ => unlisted w
  | (k, v) :: r, a => if a = k then v else if a < k then unlisted w else cellGet r a

/-- The cells with the value at `a` set; a value equal to what an unlisted number reads as removes the entry. -/
def cellSet {w : Nat} : Cells w → Nat → BitVec w → Cells w
  | [], a, v => if v = unlisted w then [] else [(a, v)]
  | (k, u) :: r, a, v =>
    if a < k then (if v = unlisted w then (k, u) :: r else (a, v) :: (k, u) :: r)
    else if a = k then (if v = unlisted w then r else (a, v) :: r)
    else (k, u) :: cellSet r a v

/-- The cells with `n` numbers from `lo` on removed. -/
def cellClear {w : Nat} (m : Cells w) (lo n : Nat) : Cells w :=
  m.filter fun c => decide (c.1 < lo) || decide (lo + n ≤ c.1)

/-- Every listed number is at least `lo`, the numbers rise, and no value is the unlisted one. -/
def cellsFrom {w : Nat} (lo : Nat) : Cells w → Bool
  | [] => true
  | (k, v) :: r => decide (lo ≤ k) && decide (v ≠ unlisted w) && cellsFrom (k + 1) r

/-- The canonical form of sparse storage. -/
def cellsWf {w : Nat} (m : Cells w) : Bool := cellsFrom 0 m

/-- The canonical form of a memory. -/
def Memory.wf (m : Memory) : Bool := cellsWf m

/-- `n` bytes from an address on. -/
def bytesAt (m : Memory) (a : Nat) : Nat → List Byte
  | 0 => []
  | n + 1 => cellGet m a :: bytesAt m (a + 1) n

/-- A little-endian number (R13). -/
def leNat : List Byte → Nat
  | [] => 0
  | b :: bs => b.toNat + 256 * leNat bs

/-- The `k` bytes of a number, least significant first (R13). -/
def leBytes : Nat → Nat → List Byte
  | 0, _ => []
  | k + 1, n => BitVec.ofNat 8 n :: leBytes k (n / 256)

/-- `n` bytes at an address as a number. -/
def natAt (m : Memory) (a n : Nat) : Nat := leNat (bytesAt m a n)

/-- `n` bytes of memory at an address as a word. -/
def wordAt (m : Memory) (a n : Nat) : Word := BitVec.ofNat 32 (natAt m a n)

/-- Bit `k` of a number. -/
def bitAt (x k : Nat) : Bool := x / 2 ^ k % 2 == 1

/-- Bits `lo + len - 1 : lo` of a number. -/
def bits (x lo len : Nat) : Nat := x / 2 ^ lo % 2 ^ len

/-- A field of a number replaced. -/
def putBits (x lo len v : Nat) : Nat := x - bits x lo len * 2 ^ lo + v % 2 ^ len * 2 ^ lo

/-! ### Keyed lists -/

/-- The first record for which `p` holds, replaced by `x`; appended where there is none. -/
def upsert {α : Type} (p : α → Bool) (x : α) : List α → List α
  | [] => [x]
  | a :: r => if p a then x :: r else a :: upsert p x r

/-- The list with its `k`-th entry changed. -/
def modAt {α : Type} (f : α → α) : Nat → List α → List α
  | _, [] => []
  | 0, a :: r => f a :: r
  | k + 1, a :: r => a :: modAt f k r

/-- The numbers `k`, `k + 1`, … , `n` of them. -/
def countFrom : Nat → Nat → List Nat
  | _, 0 => []
  | k, n + 1 => k :: countFrom (k + 1) n

/-- A number put into a rising list; one that is there stays alone. -/
def insertNat (a : Nat) : List Nat → List Nat
  | [] => [a]
  | b :: r => if a < b then a :: b :: r else if a = b then b :: r else b :: insertNat a r

/-- Some numbers in rising order, each once. -/
def sortNat (xs : List Nat) : List Nat := xs.foldr insertNat []

/-- The sum of a list of numbers. -/
def natSum : List Nat → Nat
  | [] => 0
  | a :: r => a + natSum r

end Sys2Proof.Machine
end

