-- ==== Sys2Proof/Machine/CoreRecords.lean ====
section
/-!
DEFINITION. The state of fibres, groups, blocks and cores (R18 to R35, R133 to R145, R169 to R180), as plain data.
-/

namespace Sys2Proof.Machine

/-- The state of a lane (R24); a helper names the lane whose fibre it follows (R25). -/
inductive LaneMode where
  | free
  | live
  | helper (of_ : Nat)
  deriving DecidableEq, Repr

/-- A program counter or location: packet address in bits 56:4, slot in bits 1:0 (R18, R182). -/
abbrev Pc := BitVec 57

/-- Where a result goes: a physical base register, an extended register, a moment register, a predicate, the
predicate word, the sticky flags of GSR, or a q register of the group. -/
inductive Dest where
  | v (n : Nat)
  | x (n : Nat)
  | m (n : Nat)
  | p (k : Nat)
  | pw
  | fpf
  | q (n : Nat)
  deriving DecidableEq, Repr

/-- A result of fixed latency on its way: it lands at die cycle `land` (R41, R42). -/
structure Pend where
  lane : Nat
  dst : Dest
  val : Dword
  land : Nat
  deriving DecidableEq, Repr

/-- What a held lane waits for. -/
inductive HoldKind where
  /-- `div.join` (R102). -/
  | join
  /-- `wait`: the reference time of its end (R103). -/
  | wait (until_ : Nat)
  /-- `wait.addr`: the granule, and the reference time of its bound (R103). -/
  | waitAddr (pad : Bool) (block granule until_ : Nat)
  /-- A fibre still pending in an earlier phase, that arrives next; `sync` then waits (R170). -/
  | arrive (n : Nat) (sync : Bool)
  /-- A fibre whose pending bit is set (R173). -/
  | barrier (n : Nat)
  /-- The slot-pair lock (R140). -/
  | xreg
  /-- `vt.new` that waits for a tag: the parent that its child will have (R252). -/
  | newVt (parent : Nat)
  /-- `vt.merge` of a vintage, queued at the weir (R255). -/
  | turn (tag : Nat)
  /-- A load of a return entry from the backing store (R156). -/
  | retEntry
  /-- A held `cuv.load` or `cuv.chk`: the die cycle before which it does not finish (R207, R234). -/
  | cuvee (until_ : Nat)
  /-- A self-test under way (R350): the die cycle before which it does not finish. -/
  | bist (until_ : Nat)
  /-- A barrier object, by its coded address (R225, R273). -/
  | obj (code : Nat)
  /-- A cistern of which a count is put or taken, by its coded address, with the reference time and the die cycle at which the request
  reached it (R279). -/
  | cst (take : Bool) (code time cycle : Nat)
  /-- A word that waits for its tile, with the GSR of its issue (R105, R228). -/
  | tile (gsr : Dword)
  /-- A `cuv.load` that waits under R205 and has not read its image, with the GSR of its issue (R105, R234). -/
  | slot (gsr : Dword)
  /-- A word that acts once its condition holds: it is tried again. -/
  | retry
  deriving DecidableEq, Repr

/-- Which watchdog times a hold: none, that of R175 with its BAR code, or that of R259 with its wait code. `spent`: a timer of R175 that
ran out at the ns at which another one raised the fault. -/
inductive Watchdog where
  | none
  | bar (code : Nat) (state : Nat)
  | vt (code : Nat) (aux : Nat)
  | spent
  deriving DecidableEq, Repr

/-- A hold of a lane: what it waits for, the stall reason it counts as (R143), its watchdog, the reference ns counted, the
issue it belongs to, whether the lane's guard was true, and its source registers as read at issue (R49). -/
structure Hold where
  kind : HoldKind
  reason : Nat
  dog : Watchdog
  timer : Nat
  /-- The reference time at which its timer started (R185). -/
  since : Nat
  batch : Nat
  on : Bool
  snap : List (Nat × Word)
  /-- The accesses its group had made: a fence waits for the stores and atomics before them (R163). -/
  mark : Nat
  /-- The image that a `cuv.load` has read (R234). -/
  bytes : List Byte
  /-- The barrier record as it stood when the timer expired (R176). -/
  expiry : Option (List Byte)
  deriving DecidableEq, Repr

/-- A translation that a lane keeps (R278): its page, its level and its leaf. -/
structure LastPage where
  page : Nat
  level : Nat
  leaf : Dword
  deriving DecidableEq, Repr

/-- The wait of a restored group for the slot-pair lock (R141, R175): the reference ns counted, when the count started, and the
barrier record at its expiry. -/
structure LockWait where
  timer : Nat
  since : Nat
  expiry : Option (List Byte)
  deriving DecidableEq, Repr

/-- A lane of a group (R18, R24, R30, R156, R174). -/
structure Lane where
  mode : LaneMode
  pc : Pc
  pw : BitVec 16
  wb : BitVec 5
  ssp : Word
  rc : Nat
  v : Cells 32
  m : Cells 64
  pending : BitVec 18
  hold : Option Hold
  /-- Issues of its group that its batch has been ready for without issuing (R137). -/
  waited : Nat
  /-- Reference ns for which its batch has waited, not ready, for a cell (R259). -/
  starve : Nat
  lastPage : Option LastPage
  deriving DecidableEq, Repr

/-- The store an access reaches: the pad, or the block memory of a block of a launch. -/
inductive Store where
  | pad
  | blk (launch block : Nat)
  deriving DecidableEq, Repr

/-- Where one word of a value lands: a lane's register, and which word of the value. -/
structure Slot where
  lane : Nat
  dst : Dest
  word : Nat
  deriving DecidableEq, Repr

/-- What an access does when it is performed (R155, R159 to R162, R248 to R250, R258). -/
inductive AccOp where
  | load (ty : LdTy) (dst : List Slot)
  /-- `nvf`: GSR.NVF at issue (R105). `known`: the bytes, once they are read. -/
  | loadMom (nvf : Bool) (known : Option Nat) (dst : List Slot)
  | loadMask (known : Option Nat) (lanes : List (Nat × Nat))
  | store (data : List Byte)
  | storeMask (mask data : Nat)
  | atom (k : AOp) (operand : Nat) (dst : List Slot)
  | acc (f32 : Bool) (operand : Nat) (dst : List Slot)
  | cas (cmp new : Nat) (dst : List Slot)
  | loadVt (tag : Nat) (waits : Bool) (dst : List Slot)
  /-- A value already taken that lands as a counted load (`cst.take`, `mx.drain`, a spill pop that missed). -/
  | value (x : Nat) (dst : List Slot)
  /-- What a held word has still to give: the count of a `cst.take`, or what an `mx.drain` reads of its tile; `store`: it is to be stored. One
  that is not, and gives no register, is a read that an `mx.ld` or a `cuv.load` has still to make. -/
  | due (store : Bool) (dst : List Slot)
  deriving DecidableEq, Repr

/-- One lane's access on its way (R151, R153, R285). -/
structure Access where
  id : Nat
  seq : Nat
  lane : Nat
  helper : Bool
  /-- Whether its address was in the gang-window form (R146). -/
  gang : Bool
  store : Store
  addr : Nat
  size : Nat
  /-- The vintage that `ld.vt` or `ld.vtw` names; 0 for every other access (R246). -/
  vt : Nat
  acq : Bool
  rel : Bool
  /-- The scope of its word: `.grp`, `.blk`, `.gang`, `.dev`, `.sys` are 0 to 4 (R158, R282). -/
  scope : Nat
  op : AccOp
  loc : Pc
  timer : Nat
  deriving DecidableEq, Repr

/-- A counted load that no `wait.ld` or fence has made ready (R41, R152). -/
structure Counted where
  seq : Nat
  dsts : List (Nat × Dest)
  loc : Pc
  /-- The die cycle at which its lanes that need no access on its way get their values, 0 where it has none: it completes with all lanes (R153). -/
  near : Nat
  deriving DecidableEq, Repr

/-- A fault raised later, at the `wait.ld` that retires a load or at the group's ending instruction (R132, R258, R259, R327). -/
structure Deferred where
  seq : Nat
  lane : Nat
  code : Nat
  faddr : Nat
  cause : Nat
  aux : Nat
  /-- Whether it is a store's (R327). -/
  store : Bool
  deriving DecidableEq, Repr

/-- Whether a group runs (R54, R183, R302, R382, R384). -/
inductive Run where
  | running
  /-- Halts for pre-emption at the next instruction boundary. -/
  | halting
  /-- Stopped for a debugger. -/
  | stopped
  /-- Halted at a stop site for a dump (R367). -/
  | dumped
  /-- Halted by a fault that ends its job. -/
  | faulted
  | ended
  deriving DecidableEq, Repr

/-- The A latch of an octet in state HELD: its format, and its unmasked rows with their elements as one number, K index 0 in
the low bits (R190). An octet without one is EMPTY. -/
structure Latch where
  octet : Nat
  fmt : Nat
  rows : List (Nat × Nat)
  deriving DecidableEq, Repr

/-- Where a group is resident (R133). -/
structure Place where
  die : Nat
  core : Nat
  slot : Nat
  deriving DecidableEq, Repr

/-- What a group did in its last die cycle, for sampling (R143, R145): the word it issued, or the reason for which it did not
issue and the next word of the batch with that reason. -/
structure LastIssue where
  cycle : Nat
  loc : Pc
  stall : Option Nat
  deriving DecidableEq, Repr

/-- The matched bytes of a write unit of a core (R372): its word's number and location, and the die, watchpoint and address of each byte. -/
structure WatchHit where
  seq : Nat
  loc : Pc
  hits : List (Nat × Nat × Nat)
  deriving DecidableEq, Repr

/-- A group (R34, R133 to R145, R152, R182, R232). -/
structure Group where
  key : GKey
  place : Option Place
  /-- Where a saved group was, by which a debugger's release names it (R384). -/
  was : Option Place
  width : Nat
  gsr : Dword
  mxs : Word
  sA : BitVec 16
  sB : BitVec 16
  /-- q3 to q7; q0 to q2 are computed (R23). -/
  q : Cells 64
  /-- The stall-reason counters (R143). -/
  stall : Cells 64
  lanes : List Lane
  pend : List Pend
  acc : List Access
  counted : List Counted
  deferred : List Deferred
  /-- Accesses made, as a number of their order. -/
  accesses : Nat
  /-- The die cycle before which the next instruction does not issue (R40). -/
  nextIssue : Nat
  age : Nat
  /-- `yield`: the die cycle of its end and the slots that have issued since (R103); after `wait.addr`, the words left (R138). -/
  yieldUntil : Option Nat
  yieldSlots : List Nat
  yieldWords : Nat
  latches : List Latch
  /-- Sticky bits that landed at a die cycle: they win over a clear in it (R34, R107). -/
  flagCycle : Nat
  flagBits : Nat
  /-- The last self-test result (R350). -/
  bist : Dword
  run : Run
  /-- A debugger's stop request or single step under way: the origin of R94. -/
  stopAt : Option Nat
  /-- The `brk` word that stopped the group: resumption goes past it (R94). -/
  pastBrk : Option Pc
  /-- The stop site at which a single step starts: it is passed once. -/
  skipSite : Option Pc
  /-- Why the group cannot issue in the current die cycle for want of its packet (0) or its operands (2), as R143 numbers them (log 12). -/
  fetch : Option Nat
  last : Option LastIssue
  /-- Writes that watchpoints matched, for each word until all of its accesses are performed (R372, R373). -/
  watch : List WatchHit
  /-- The job whose watchpoint has stopped the group, and the writing word (R371, R373, R382). -/
  trap : Option (Nat × Pc)
  /-- A restored group that has to take the slot-pair lock again (R141), with the words saved. -/
  xsaved : Option (Cells 32)
  xwait : Option LockWait
  /-- Whether its restored block still waits for its cuvée slots to be copied: no group of it issues before (R206, R304). -/
  copying : Bool
  /-- The operations whose staged writes happen before what the group does next: its engine reads see them (R280, R287, R292). -/
  knows : List Nat
  deriving DecidableEq, Repr

/-- A block, gang or grid barrier: EXP, ARR, ARRM, PHASE (R169, R174). -/
structure Barrier where
  exp : Nat
  arr : Nat
  arrm : BitVec 16
  phase : BitVec 16
  deriving DecidableEq, Repr

/-- The race record of a granule of block memory (R179); accessor numbers are 16 · position + group. -/
structure BlkRace where
  granule : Nat
  ph : Nat
  writer : Option Nat
  readers : Nat
  deriving DecidableEq, Repr

/-- Where a block stands (R299 to R305). -/
inductive Residency where
  | resident
  | halting
  | saved
  | parked
  | ended
  deriving DecidableEq, Repr

/-- A block that has been placed (R147, R169, R177, R191, R299). -/
structure Block where
  launch : Nat
  index : Nat
  groups : Nat
  cluster : Option (Nat × Nat)
  core : Nat
  residency : Residency
  /-- Block barriers 0 to 15, and at 16 and 17 the block's part of the gang and the grid barrier. -/
  bars : List Barrier
  phase : BitVec 16
  races : List BlkRace
  /-- Accumulator tiles: element (r, c) of tile t at 4096 t + 64 r + c (R191). -/
  tiles : Cells 32
  /-- Tile status OVF, NANW, INFW, NEGV in bits 0 to 3 (R216, R233). -/
  tileStat : Cells 4
  quantum : Nat
  preemptedAt : Option Nat
  /-- Why the block is halted: whether it goes back to the queue, and whether a debugger holds it (R302, R384). -/
  requeue : Bool
  byDebugger : Bool
  /-- The cluster from which cuvée slots are still to be copied (R206, R304). -/
  copyFrom : Option (Nat × Nat)
  weirSeq : Nat
  deriving DecidableEq, Repr

/-- The extended set of a slot pair (R139 to R141). -/
structure XSet where
  die : Nat
  core : Nat
  pair : Nat
  /-- Register 64 + r of lane k at 64 k + r. -/
  words : Cells 32
  holder : Option GKey
  /-- Released, once every earlier word that names an extended register has read or written it (R140). -/
  releasing : Bool
  /-- Waiting requests with their order of arrival. -/
  queue : List (GKey × Nat)
  lastLaunch : Option Nat
  deriving DecidableEq, Repr

/-- A release that a later acquire may observe (R178, R286, R287): its group, none for an arrival of an engine, its scope, and the operations
whose staged writes happen before it. -/
structure Release where
  who : Option GKey
  scope : Nat
  knows : List Nat
  deriving DecidableEq, Repr

/-- The releases that stand at a location (R178, R283): the heads of the release sequences that its last atomic belongs to. `vt`: the
vintage whose view the location is, 0 for memory (R282); 2^14 for the count of a barrier object or cistern, 2^14 + 1 + p for the arrivals of an
object's phase p; 2^16 + n for the arrivals at barrier n of a block, a gang or a launch, which `addr` numbers; 2^17 for the merges into a parent
of a launch, which `addr` numbers (R286). -/
structure SyncRec where
  store : Store
  vt : Nat
  addr : Nat
  size : Nat
  /-- Whether a plain write has written the location since: a read of it observes no release, and a later atomic does (R283). -/
  plain : Bool
  heads : List Release
  deriving DecidableEq, Repr

/-- The batch that issues a word: what a meaning reads (R28, R39, R51). -/
structure Issue where
  g : GKey
  loc : Pc
  /-- Active lanes, helpers included. -/
  lanes : List Nat
  /-- Active lanes whose guard is true. -/
  on : List Nat
  /-- The reuse bit and the stop bit of the slot (R37). -/
  reuse : Bool
  stop : Bool
  /-- The hold that the batch comes from, when its word is tried again. -/
  resume : Option Hold
  /-- The guard of the slot (R37). -/
  guard : Nat
  /-- Whether it acts in a chain whose words have all been checked (R49). -/
  checked : Bool
  deriving DecidableEq, Repr

/-- What the machine does next, in order (log 1). -/
inductive Move where
  | input (i : Input)
  /-- An issue opportunity of a core (R135, R137). -/
  | opportunity (die core : Nat)
  /-- The batch of a group that holds a lane issues its next word. -/
  | word (g : GKey) (lane : Nat)
  /-- The end of a die cycle: counters, landings, ages. -/
  | endCycle (die : Nat)
  deriving DecidableEq, Repr

end Sys2Proof.Machine
end

