-- ==== Sys2Proof/Machine/DieRecords.lean ====
section
/-!
DEFINITION. The state of a die's agents: vintages and the cellar (R244 to R260), the pad's race records (R240), engine
operations, the headgate table, barrier objects and cisterns (R261 to R279), the weir (R280, R281) and the launches that
own all of it (R56, R242, R299, R338).
-/

namespace Sys2Proof.Machine

/-- A vintage (R245, R255). -/
structure Vintage where
  tag : Nat
  parent : Nat
  depth : Nat
  ordinal : Nat
  launch : Nat
  live : Bool
  /-- The group whose merge has closed it, and the location of that word. -/
  closing : Option GKey
  /-- The group's count of accesses at that word: the merge waits for the earlier ones (R255). -/
  mark : Nat
  /-- Whether the weir has found a fault in it: it is never applied (R309). -/
  failed : Bool
  next : Nat
  /-- Ordinals at or above NEXT whose child is done. -/
  done : List Nat
  deriving DecidableEq, Repr

/-- A data cell of the cellar (R247): bytes, the mask WM, and the kind of each word. -/
structure DataCell where
  launch : Nat
  tag : Nat
  pad : Bool
  block : Nat
  granule : Nat
  data : Cells 8
  wm : BitVec 32
  kinds : Cells 2
  deriving DecidableEq, Repr

/-- A merge-record cell (R247): for each byte the tag of the sibling that wrote it. -/
structure MergeRec where
  launch : Nat
  parent : Nat
  pad : Bool
  block : Nat
  granule : Nat
  tags : Cells 14
  deriving DecidableEq, Repr

/-- An accessor of the pad's race records: block and group (R240). -/
structure PadAccessor where
  block : Nat
  group : Nat
  deriving DecidableEq, Repr

/-- The race record of a granule of the pad (R240). -/
structure PadRace where
  granule : Nat
  ls : Nat
  ph : Nat
  writer : Option (PadAccessor × Nat)
  reader : Option (PadAccessor × Nat)
  /-- RM: the block of all readers and its phase; `none` as the block stands for several blocks. -/
  many : Option (Option Nat × Nat)
  deriving DecidableEq, Repr

/-- A barrier object's or cistern's place (R225, R272, R279). -/
structure ObjRef where
  store : Store
  addr : Nat
  deriving DecidableEq, Repr

/-- A range of the headgate table (R269): its operation, kind, store and bounds, its engine code (R270), whether an uncorrectable error
keeps it locked (R276), and the bytes that it was registered for. -/
structure GateRange where
  op : Nat
  job : Nat
  dst : Bool
  store : Store
  lo : Nat
  hi : Nat
  engine : Nat
  ue : Bool
  first : Nat
  bytes : Nat
  /-- The batch whose held word has still to read it, by its group and leader: a layout record or a descriptor (R269, R359). -/
  holder : Option (GKey × Nat)
  deriving DecidableEq, Repr

/-- A layout record as an engine has read it (R261). -/
structure Layout where
  base : Nat
  sax : Nat
  fmt : Nat
  scale : Nat
  band : Nat
  rows : Nat
  cols : Nat
  stride : Nat
  deriving DecidableEq, Repr

/-- One lane of a gather (R277): whether its bytes are written, at what reference time, and whether it failed. -/
structure GatLane where
  lane : Nat
  va : Nat
  store : Store
  dst : Nat
  got : Bool
  failed : Bool
  time : Nat
  deriving DecidableEq, Repr

/-- What an engine operation is (R264, R277, R323, R343, R350, R358 to R365). -/
inductive OpKind where
  | g2s (transposed : Bool)
  | s2g (transposed : Bool)
  | s2s
  | gat (size : Nat)
  | mig
  | put
  | get
  | ratom (op : RAOp) (ord : Nat)
  | coll
  deriving DecidableEq, Repr

/-- A page fault that holds an operation (R319): the first byte that could not be translated. -/
structure HeldFault where
  va : Nat
  write : Bool
  deriving DecidableEq, Repr

/-- How far the page that a migration moves is (R324): between pages, with MIG set in its leaf and its new frame taken, or moved with its
old frame still to be returned to a pool. -/
inductive MigStep where
  | ready
  | moving (frame : Nat)
  | returning (pool frame units : Nat)
  deriving DecidableEq, Repr

/-- An engine operation in flight (R265 to R277, R319 to R324, R359 to R366): its operands as read, what it has done, and
the failure that stopped it. -/
structure EngineOp where
  id : Nat
  /-- Its entry in the operand log of its die (R320). -/
  index : Nat
  kind : OpKind
  die : Nat
  job : Nat
  launch : Nat
  g : GKey
  lane : Nat
  loc : Pc
  /-- The operand registers, as read from the leader. -/
  regs : List Nat
  layout : Option Layout
  /-- The store of the on-chip array, or of the source and the destination of a copy on chip. -/
  storeA : Store
  storeB : Store
  object : Option ObjRef
  /-- The key of the weir (R280): grid phase, block, issue sequence. -/
  phase : Nat
  seq : Nat
  det : Bool
  lanes : List GatLane
  /-- Pages committed, or bytes of a remote operation done. -/
  done : Nat
  /-- Whether the operation has started. -/
  started : Bool
  held : Option HeldFault
  /-- The code, CAUSE and DETAIL of a failure (R275). -/
  failed : Option (Nat × Nat × Nat)
  /-- Whether a lane of a gather met an uncorrectable error (R276). -/
  metUe : Bool
  move : MigStep
  /-- Reference ns without progress since the operation started (R363, R366). -/
  timer : Nat
  /-- Reference ns for which a request of it to another die has had no response (R327). -/
  ask : Nat
  remoteHeld : Bool
  /-- The link of a remote operation's requests (R355), and the links that a collective's data has crossed (R366). -/
  link : Option Nat
  links : List Nat
  /-- Whether a remote operation has started, and its request to another package is sent: earlier ones come first (R362). -/
  sent : Bool
  /-- The operations whose staged writes happen before it: its reads see them (R280, R291, R292). -/
  knows : List Nat
  deriving DecidableEq, Repr

/-- A staged write of the weir, one page of an operation (R280): its key, the die and the word of its operation, and its runs of bytes with
their virtual and device addresses. -/
structure Staged where
  /-- The operation that has made it. -/
  op : Nat
  launch : Nat
  die : Nat
  engine : Nat
  g : GKey
  loc : Pc
  phase : Nat
  block : Nat
  seq : Nat
  runs : List (Nat × Nat × List Byte)
  deriving DecidableEq, Repr

/-- A gang's barrier (R174). -/
structure GangBar where
  gang : Nat
  bar : Barrier
  deriving DecidableEq, Repr

/-- A tagged window (R242). -/
structure Window where
  pad : Bool
  base : Nat
  size : Nat
  deriving DecidableEq, Repr

/-- An entry of the safe-point table (R57). -/
structure SafePoint where
  pkt : Nat
  slot : Nat
  liveV : Dword
  liveX : Dword
  liveM : BitVec 16
  deriving DecidableEq, Repr

/-- Who started a launch: a queue's record with its sequence, or a fibre with its object (R338, R343). -/
inductive Origin where
  | queue (job queue seq : Nat)
  | child (parent : Nat) (object : Option ObjRef)
  deriving DecidableEq, Repr

/-- A launch that has not completed (R56 to R58, R239 to R242, R280, R281, R299, R307, R338). -/
structure Launch where
  tag : Nat
  id : Dword
  job : Nat
  origin : Origin
  det : Bool
  persistent : Bool
  sampling : Bool
  priority : Nat
  acct : Nat
  gang : Nat
  dogUs : Nat
  image : Nat
  param : Nat
  seed : Dword
  gx : Nat
  gy : Nat
  gz : Nat
  resLimit : Nat
  quantumUs : Nat
  sampleNs : Nat
  -- the kernel header (R56)
  width : Nat
  divDepth : Nat
  blkMem : Nat
  xregs : Bool
  groups : Nat
  spill : Nat
  codeOff : Nat
  codeSize : Nat
  entry : Nat
  /-- The code on chip: word k of the image at k. -/
  code : Cells 32
  spt : List SafePoint
  windows : List Window
  cells : Nat
  /-- Bytes of the job's save and cellar reservations that the launch holds (R247, R303). -/
  saveHeld : Nat
  cellHeld : Nat
  gridBar : Barrier
  gangBars : List GangBar
  /-- The grid pad phase GP (R239). -/
  gp : Nat
  gridPhase : Nat
  /-- Blocks waiting for placement, by the first block of their gangs: never placed from `fresh` on, then requeued (R299). -/
  fresh : Nat
  back : List Nat
  /-- Blocks that have ended. -/
  ended : Nat
  rootNext : Nat
  rootDone : List Nat
  /-- The bytes fed to the result digest, in order (R281). -/
  digest : List Byte
  sampleTimer : Nat
  /-- The reference time of its start (R340). -/
  started : Nat
  /-- The operations whose staged writes happen before its first instruction (R294). -/
  knows : List Nat
  deriving DecidableEq, Repr

/-- The number of blocks of a launch. -/
def Launch.nblocks (l : Launch) : Nat := l.gx * l.gy * l.gz

end Sys2Proof.Machine
end

