-- ==== Sys2Proof/Decode.lean ====
section
/-!
DEFINITION. The decoder of instruction words and of control words, and after it the encoder.
A word is read as a number, and a field as a quotient and a remainder of it (R44). The decoder is total: a word that
R45 or R50 calls ILLEGAL_OPCODE is rejected with the reason and the field of R53. Operand classes (R46) are no matter of
the decoder: `Instr.wellFormed` checks them.
-/

namespace Sys2Proof

/-- Bits `lo + len - 1 : lo` of a word. -/
def fld (w lo len : Nat) : Nat := w / 2 ^ lo % 2 ^ len

/-- Why a word is no instruction: the reason and the field of the ILLEGAL_OPCODE cause detail (R53), and the instruction that its opcode and
sub-operation name, where they name one. -/
structure Reject where
  reason : Nat
  field : Nat
  names : Option Instr
  deriving DecidableEq, Repr

/-- ILLEGAL_OPCODE, reason 4: unassigned opcode or sub-operation (R45, R50). -/
def Reject.unassigned : Reject := ⟨4, 0, none⟩
/-- ILLEGAL_OPCODE, reason 5: S set without a scalar form (R50). -/
def Reject.noScalar (i : Instr) : Reject := ⟨5, 0, some i⟩

/-- A field an instruction does not use: its low bit, its width and its field number in the cause detail (R45, R53). -/
structure Unused where
  lo : Nat
  len : Nat
  field : Nat
  deriving DecidableEq, Repr

/-- The lowest field number among the unused fields that are not 0. -/
def firstNonzero (w : Nat) : List Unused → Option Nat
  | [] => none
  | u :: us =>
    if fld w u.lo u.len = 0 then firstNonzero w us
    else match firstNonzero w us with
      | none => some u.field
      | some f => some (min u.field f)

/-- An assigned word: the checks of S and of the unused fields, in the order of R53. -/
def accept (w : Nat) (scalar : Bool) (unused : List Unused) (i : Instr) : Except Reject Instr :=
  if scalar = false ∧ fld w 30 1 = 1 then .error (Reject.noScalar i)
  else match firstNonzero w unused with
    | some f => .error ⟨3, f, some i⟩
    | none => .ok i

/-- The mod field of `icmp` (R87). -/
def ICond.code : ICond → Nat
  | .eq => 0
  | .ne => 1
  | .ltS32 => 2
  | .leS32 => 3
  | .ltZ32 => 4
  | .leZ32 => 5
  | .tst => 6

/-- The value with a given mod field of `icmp` (R87), where one is assigned. -/
def ICond.ofCode : Nat → Option ICond
  | 0 => some .eq
  | 1 => some .ne
  | 2 => some .ltS32
  | 3 => some .leS32
  | 4 => some .ltZ32
  | 5 => some .leZ32
  | 6 => some .tst
  | _ => none

/-- The mod field of `fcmp` (R112). -/
def FCond.code : FCond → Nat
  | .eq => 0
  | .lt => 1
  | .le => 2
  | .un => 3
  | .neu => 4

/-- The value with a given mod field of `fcmp` (R112), where one is assigned. -/
def FCond.ofCode : Nat → Option FCond
  | 0 => some .eq
  | 1 => some .lt
  | 2 => some .le
  | 3 => some .un
  | 4 => some .neu
  | _ => none

/-- The type code of R114. -/
def FpTy.code : FpTy → Nat
  | .f32 => 0
  | .f16x2 => 1
  | .bf16x2 => 2

/-- The value with a given type code of R114, where one is assigned. -/
def FpTy.ofCode : Nat → Option FpTy
  | 0 => some .f32
  | 1 => some .f16x2
  | 2 => some .bf16x2
  | _ => none

/-- The format code (R65). -/
def Fmt.code : Fmt → Nat
  | .f32 => 0
  | .f16 => 1
  | .bf16 => 2
  | .e4m3 => 3
  | .e5m2 => 4
  | .e2m1 => 5
  | .s8 => 6
  | .s32 => 7
  | .e3m5 => 8

/-- The value with a given format code (R65), where one is assigned. -/
def Fmt.ofCode : Nat → Option Fmt
  | 0 => some .f32
  | 1 => some .f16
  | 2 => some .bf16
  | 3 => some .e4m3
  | 4 => some .e5m2
  | 5 => some .e2m1
  | 6 => some .s8
  | 7 => some .s32
  | 8 => some .e3m5
  | _ => none

/-- The RS code (R115). -/
def Rs.code : Rs → Nat
  | .rn => 0
  | .rz => 1
  | .rd => 2
  | .ru => 3
  | .rna => 4
  | .cur => 5
  | .rnSat => 6
  | .sat => 7

/-- The value with a given RS code (R115), where one is assigned. -/
def Rs.ofCode : Nat → Option Rs
  | 0 => some .rn
  | 1 => some .rz
  | 2 => some .rd
  | 3 => some .ru
  | 4 => some .rna
  | 5 => some .cur
  | 6 => some .rnSat
  | 7 => some .sat
  | _ => none

/-- The SP code (R154). -/
def Space3.code : Space3 → Nat
  | .stk => 0
  | .blk => 1
  | .pad => 2

/-- The value with a given SP code (R154), where one is assigned. -/
def Space3.ofCode : Nat → Option Space3
  | 0 => some .stk
  | 1 => some .blk
  | 2 => some .pad
  | _ => none

/-- The TY code of `ld` (R154). -/
def LdTy.code : LdTy → Nat
  | .s8 => 0
  | .z8 => 1
  | .s16 => 2
  | .z16 => 3
  | .b32 => 4
  | .b64 => 5
  | .b128 => 6

/-- The value with a given TY code of `ld` (R154), where one is assigned. -/
def LdTy.ofCode : Nat → Option LdTy
  | 0 => some .s8
  | 1 => some .z8
  | 2 => some .s16
  | 3 => some .z16
  | 4 => some .b32
  | 5 => some .b64
  | 6 => some .b128
  | _ => none

/-- The TY code of `st` (R154). -/
def StTy.code : StTy → Nat
  | .b8 => 0
  | .b16 => 2
  | .b32 => 4
  | .b64 => 5
  | .b128 => 6

/-- The value with a given TY code of `st` (R154), where one is assigned. -/
def StTy.ofCode : Nat → Option StTy
  | 0 => some .b8
  | 2 => some .b16
  | 4 => some .b32
  | 5 => some .b64
  | 6 => some .b128
  | _ => none

/-- The AOP code (R159). -/
def AOp.code : AOp → Nat
  | .addZ32 => 0
  | .addF32 => 1
  | .addB64 => 2
  | .minS32 => 3
  | .minZ32 => 4
  | .minF32 => 5
  | .maxS32 => 6
  | .maxZ32 => 7
  | .maxF32 => 8
  | .andB32 => 9
  | .orB32 => 10
  | .xorB32 => 11
  | .exchB32 => 12
  | .exchB64 => 13
  | .incZ32 => 14

/-- The value with a given AOP code (R159), where one is assigned. -/
def AOp.ofCode : Nat → Option AOp
  | 0 => some .addZ32
  | 1 => some .addF32
  | 2 => some .addB64
  | 3 => some .minS32
  | 4 => some .minZ32
  | 5 => some .minF32
  | 6 => some .maxS32
  | 7 => some .maxZ32
  | 8 => some .maxF32
  | 9 => some .andB32
  | 10 => some .orB32
  | 11 => some .xorB32
  | 12 => some .exchB32
  | 13 => some .exchB64
  | 14 => some .incZ32
  | _ => none

/-- The ORD code (R158). -/
def Ord.code : Ord → Nat
  | .relaxed => 0
  | .acq .blk => 1
  | .acq .gang => 2
  | .acq .dev => 3
  | .acq .sys => 4
  | .rel .blk => 5
  | .rel .gang => 6
  | .rel .dev => 7
  | .rel .sys => 8
  | .acqrel .blk => 9
  | .acqrel .gang => 10
  | .acqrel .dev => 11
  | .acqrel .sys => 12

/-- The value with a given ORD code (R158), where one is assigned. -/
def Ord.ofCode : Nat → Option Ord
  | 0 => some .relaxed
  | 1 => some (.acq .blk)
  | 2 => some (.acq .gang)
  | 3 => some (.acq .dev)
  | 4 => some (.acq .sys)
  | 5 => some (.rel .blk)
  | 6 => some (.rel .gang)
  | 7 => some (.rel .dev)
  | 8 => some (.rel .sys)
  | 9 => some (.acqrel .blk)
  | 10 => some (.acqrel .gang)
  | 11 => some (.acqrel .dev)
  | 12 => some (.acqrel .sys)
  | _ => none

/-- The OPR code (R168). -/
def ROp.code : ROp → Nat
  | .add => 0
  | .minS32 => 1
  | .minZ32 => 2
  | .maxS32 => 3
  | .maxZ32 => 4
  | .and => 5
  | .or => 6
  | .xor => 7
  | .addF32 => 8
  | .minF32 => 9
  | .maxF32 => 10

/-- The value with a given OPR code (R168), where one is assigned. -/
def ROp.ofCode : Nat → Option ROp
  | 0 => some .add
  | 1 => some .minS32
  | 2 => some .minZ32
  | 3 => some .maxS32
  | 4 => some .maxZ32
  | 5 => some .and
  | 6 => some .or
  | 7 => some .xor
  | 8 => some .addF32
  | 9 => some .minF32
  | 10 => some .maxF32
  | _ => none

/-- The FMT code (R224). -/
def MxFmt.code : MxFmt → Nat
  | .bf16 => 0
  | .f16 => 1
  | .e4m3 => 2
  | .e5m2 => 3
  | .e2m1 => 4

/-- The value with a given FMT code (R224), where one is assigned. -/
def MxFmt.ofCode : Nat → Option MxFmt
  | 0 => some .bf16
  | 1 => some .f16
  | 2 => some .e4m3
  | 3 => some .e5m2
  | 4 => some .e2m1
  | _ => none

/-- The AOP code of `ratom` (R358). -/
def RAOp.code : RAOp → Nat
  | .op a => a.code
  | .casB32 => 17

/-- The `ratom` operation with a given AOP code (R358). -/
def RAOp.ofCode (n : Nat) : Option RAOp :=
  if n = 17 then some .casB32 else (AOp.ofCode n).map .op

/-- The conversion code CV = 9 SRC + DST (R115). -/
def CvtPair.code (p : CvtPair) : Nat := 9 * p.src.code + p.dst.code

/-- The conversion with a given CV, 0 to 80 (R115). -/
def CvtPair.ofCode (n : Nat) : Option CvtPair :=
  match Fmt.ofCode (n / 9), Fmt.ofCode (n % 9) with
  | some s, some d => some ⟨s, d⟩
  | _, _ => none

/-- Words with OP 0x00 (R50). -/
def decodeOp00 (w : Nat) : Except Reject Instr :=
  if fld w 17 7 = 0 then
    accept w false [⟨0, 17, 3⟩] .nop
  else
  if fld w 17 7 = 1 then
    accept w false [] (.brk (BitVec.ofNat 17 (fld w 0 17)))
  else
  if fld w 17 7 = 2 then
    accept w false [] (.trap (BitVec.ofNat 17 (fld w 0 17)))
  else
  .error Reject.unassigned

/-- Words with OP 0x01 (R50). -/
def decodeOp01 (w : Nat) : Except Reject Instr :=
  if fld w 30 1 = 0 then
    accept w true [] (.br (BitVec.ofNat 7 (fld w 17 7)) (BitVec.ofNat 17 (fld w 0 17)))
  else
  if fld w 30 1 = 1 then
    accept w true [] (.sBr (BitVec.ofNat 7 (fld w 17 7)) (BitVec.ofNat 17 (fld w 0 17)))
  else
  .error Reject.unassigned

/-- Words with OP 0x02 (R50). -/
def decodeOp02 (w : Nat) : Except Reject Instr :=
  if fld w 17 7 = 0 then
    accept w false [⟨0, 10, 3⟩] (.brx (BitVec.ofNat 7 (fld w 10 7)))
  else
  if fld w 17 7 = 1 then
    accept w false [] (.call (BitVec.ofNat 17 (fld w 0 17)))
  else
  if fld w 17 7 = 2 then
    accept w false [⟨0, 10, 3⟩] (.callx (BitVec.ofNat 7 (fld w 10 7)))
  else
  if fld w 17 7 = 3 then
    accept w false [⟨10, 7, 2⟩, ⟨0, 10, 3⟩] .ret
  else
  .error Reject.unassigned

/-- Words with OP 0x03 (R50). -/
def decodeOp03 (w : Nat) : Except Reject Instr :=
  if fld w 0 3 = 0 then
    accept w false [⟨17, 7, 1⟩, ⟨10, 7, 2⟩, ⟨3, 7, 3⟩] .exit
  else
  if fld w 0 3 = 1 then
    accept w false [⟨17, 7, 1⟩, ⟨10, 7, 2⟩, ⟨3, 7, 3⟩] .fibEnd
  else
  if fld w 0 3 = 2 then
    accept w false [] (.fibSpawn (BitVec.ofNat 7 (fld w 17 7)) (BitVec.ofNat 7 (fld w 10 7)) (BitVec.ofNat 7 (fld w 3 7)))
  else
  .error Reject.unassigned

/-- Words with OP 0x04 (R50). -/
def decodeOp04 (w : Nat) : Except Reject Instr :=
  if fld w 17 7 = 0 then
    accept w false [] (.divPush (BitVec.ofNat 17 (fld w 0 17)))
  else
  if fld w 17 7 = 1 then
    accept w false [⟨0, 17, 3⟩] .divJoin
  else
  .error Reject.unassigned

/-- Words with OP 0x05 (R50). -/
def decodeOp05 (w : Nat) : Except Reject Instr :=
  accept w false [] (.brRot (BitVec.ofNat 7 (fld w 17 7)) (BitVec.ofNat 17 (fld w 0 17)))

/-- Words with OP 0x06 (R50). -/
def decodeOp06 (w : Nat) : Except Reject Instr :=
  if fld w 17 7 = 0 then
    accept w false [⟨0, 10, 3⟩] (.wait (BitVec.ofNat 7 (fld w 10 7)))
  else
  if fld w 17 7 = 1 then
    accept w false [] (.waitAddrBlk (BitVec.ofNat 7 (fld w 10 7)) (BitVec.ofNat 10 (fld w 0 10)))
  else
  if fld w 17 7 = 2 then
    accept w false [] (.waitAddrPad (BitVec.ofNat 7 (fld w 10 7)) (BitVec.ofNat 10 (fld w 0 10)))
  else
  if fld w 17 7 = 3 then
    accept w false [⟨10, 7, 2⟩, ⟨0, 10, 3⟩] .yield
  else
  .error Reject.unassigned

/-- Words with OP 0x07 (R50). -/
def decodeOp07 (w : Nat) : Except Reject Instr :=
  if fld w 8 2 = 0 then
    accept w false [⟨10, 7, 2⟩] (.sysRd (BitVec.ofNat 7 (fld w 17 7)) (BitVec.ofNat 8 (fld w 0 8)))
  else
  if fld w 8 2 = 1 then
    accept w false [⟨17, 7, 1⟩] (.sysWr (BitVec.ofNat 7 (fld w 10 7)) (BitVec.ofNat 8 (fld w 0 8)))
  else
  .error Reject.unassigned

/-- Words with OP 0x08 (R50). -/
def decodeOp08 (w : Nat) : Except Reject Instr :=
  if fld w 0 3 = 0 then
    accept w true [] (.add (fld w 30 1 == 1) (BitVec.ofNat 7 (fld w 17 7)) (BitVec.ofNat 7 (fld w 10 7)) (BitVec.ofNat 7 (fld w 3 7)))
  else
  if fld w 0 3 = 1 then
    accept w true [] (.sub (fld w 30 1 == 1) (BitVec.ofNat 7 (fld w 17 7)) (BitVec.ofNat 7 (fld w 10 7)) (BitVec.ofNat 7 (fld w 3 7)))
  else
  if fld w 0 3 = 2 then
    accept w true [] (.addSatS32 (fld w 30 1 == 1) (BitVec.ofNat 7 (fld w 17 7)) (BitVec.ofNat 7 (fld w 10 7)) (BitVec.ofNat 7 (fld w 3 7)))
  else
  if fld w 0 3 = 3 then
    accept w true [] (.subSatS32 (fld w 30 1 == 1) (BitVec.ofNat 7 (fld w 17 7)) (BitVec.ofNat 7 (fld w 10 7)) (BitVec.ofNat 7 (fld w 3 7)))
  else
  if fld w 0 3 = 4 then
    accept w true [] (.addSatZ32 (fld w 30 1 == 1) (BitVec.ofNat 7 (fld w 17 7)) (BitVec.ofNat 7 (fld w 10 7)) (BitVec.ofNat 7 (fld w 3 7)))
  else
  if fld w 0 3 = 5 then
    accept w true [] (.subSatZ32 (fld w 30 1 == 1) (BitVec.ofNat 7 (fld w 17 7)) (BitVec.ofNat 7 (fld w 10 7)) (BitVec.ofNat 7 (fld w 3 7)))
  else
  if fld w 0 3 = 6 then
    accept w true [] (.addB64 (fld w 30 1 == 1) (BitVec.ofNat 7 (fld w 17 7)) (BitVec.ofNat 7 (fld w 10 7)) (BitVec.ofNat 7 (fld w 3 7)))
  else
  if fld w 0 3 = 7 then
    accept w true [] (.subB64 (fld w 30 1 == 1) (BitVec.ofNat 7 (fld w 17 7)) (BitVec.ofNat 7 (fld w 10 7)) (BitVec.ofNat 7 (fld w 3 7)))
  else
  .error Reject.unassigned

/-- Words with OP 0x09 (R50). -/
def decodeOp09 (w : Nat) : Except Reject Instr :=
  if fld w 0 3 = 0 then
    accept w true [] (.mul (fld w 30 1 == 1) (BitVec.ofNat 7 (fld w 17 7)) (BitVec.ofNat 7 (fld w 10 7)) (BitVec.ofNat 7 (fld w 3 7)))
  else
  if fld w 0 3 = 1 then
    accept w true [] (.mulHiS32 (fld w 30 1 == 1) (BitVec.ofNat 7 (fld w 17 7)) (BitVec.ofNat 7 (fld w 10 7)) (BitVec.ofNat 7 (fld w 3 7)))
  else
  if fld w 0 3 = 2 then
    accept w true [] (.mulHiZ32 (fld w 30 1 == 1) (BitVec.ofNat 7 (fld w 17 7)) (BitVec.ofNat 7 (fld w 10 7)) (BitVec.ofNat 7 (fld w 3 7)))
  else
  if fld w 0 3 = 3 then
    accept w true [] (.mulWideS32 (fld w 30 1 == 1) (BitVec.ofNat 7 (fld w 17 7)) (BitVec.ofNat 7 (fld w 10 7)) (BitVec.ofNat 7 (fld w 3 7)))
  else
  if fld w 0 3 = 4 then
    accept w true [] (.mulWideZ32 (fld w 30 1 == 1) (BitVec.ofNat 7 (fld w 17 7)) (BitVec.ofNat 7 (fld w 10 7)) (BitVec.ofNat 7 (fld w 3 7)))
  else
  if fld w 0 3 = 5 then
    accept w true [] (.mad (fld w 30 1 == 1) (BitVec.ofNat 7 (fld w 17 7)) (BitVec.ofNat 7 (fld w 10 7)) (BitVec.ofNat 7 (fld w 3 7)))
  else
  if fld w 0 3 = 6 then
    accept w true [] (.madWideS32 (fld w 30 1 == 1) (BitVec.ofNat 7 (fld w 17 7)) (BitVec.ofNat 7 (fld w 10 7)) (BitVec.ofNat 7 (fld w 3 7)))
  else
  if fld w 0 3 = 7 then
    accept w true [] (.madWideZ32 (fld w 30 1 == 1) (BitVec.ofNat 7 (fld w 17 7)) (BitVec.ofNat 7 (fld w 10 7)) (BitVec.ofNat 7 (fld w 3 7)))
  else
  .error Reject.unassigned

/-- Words with OP 0x0A (R50). -/
def decodeOp0A (w : Nat) : Except Reject Instr :=
  if fld w 0 3 = 0 then
    accept w true [] (.and (fld w 30 1 == 1) (BitVec.ofNat 7 (fld w 17 7)) (BitVec.ofNat 7 (fld w 10 7)) (BitVec.ofNat 7 (fld w 3 7)))
  else
  if fld w 0 3 = 1 then
    accept w true [] (.or (fld w 30 1 == 1) (BitVec.ofNat 7 (fld w 17 7)) (BitVec.ofNat 7 (fld w 10 7)) (BitVec.ofNat 7 (fld w 3 7)))
  else
  if fld w 0 3 = 2 then
    accept w true [] (.xor (fld w 30 1 == 1) (BitVec.ofNat 7 (fld w 17 7)) (BitVec.ofNat 7 (fld w 10 7)) (BitVec.ofNat 7 (fld w 3 7)))
  else
  if fld w 0 3 = 3 then
    accept w true [] (.andn (fld w 30 1 == 1) (BitVec.ofNat 7 (fld w 17 7)) (BitVec.ofNat 7 (fld w 10 7)) (BitVec.ofNat 7 (fld w 3 7)))
  else
  if fld w 0 3 = 4 then
    accept w true [] (.orn (fld w 30 1 == 1) (BitVec.ofNat 7 (fld w 17 7)) (BitVec.ofNat 7 (fld w 10 7)) (BitVec.ofNat 7 (fld w 3 7)))
  else
  if fld w 0 3 = 5 then
    accept w true [] (.xnor (fld w 30 1 == 1) (BitVec.ofNat 7 (fld w 17 7)) (BitVec.ofNat 7 (fld w 10 7)) (BitVec.ofNat 7 (fld w 3 7)))
  else
  if fld w 0 3 = 6 then
    accept w true [⟨3, 7, 3⟩] (.not (fld w 30 1 == 1) (BitVec.ofNat 7 (fld w 17 7)) (BitVec.ofNat 7 (fld w 10 7)))
  else
  .error Reject.unassigned

/-- Words with OP 0x0B (R50). -/
def decodeOp0B (w : Nat) : Except Reject Instr :=
  if fld w 0 3 = 0 then
    accept w true [] (.shl (fld w 30 1 == 1) (BitVec.ofNat 7 (fld w 17 7)) (BitVec.ofNat 7 (fld w 10 7)) (BitVec.ofNat 7 (fld w 3 7)))
  else
  if fld w 0 3 = 1 then
    accept w true [] (.shrZ32 (fld w 30 1 == 1) (BitVec.ofNat 7 (fld w 17 7)) (BitVec.ofNat 7 (fld w 10 7)) (BitVec.ofNat 7 (fld w 3 7)))
  else
  if fld w 0 3 = 2 then
    accept w true [] (.shrS32 (fld w 30 1 == 1) (BitVec.ofNat 7 (fld w 17 7)) (BitVec.ofNat 7 (fld w 10 7)) (BitVec.ofNat 7 (fld w 3 7)))
  else
  if fld w 0 3 = 3 then
    accept w true [] (.rol (fld w 30 1 == 1) (BitVec.ofNat 7 (fld w 17 7)) (BitVec.ofNat 7 (fld w 10 7)) (BitVec.ofNat 7 (fld w 3 7)))
  else
  if fld w 0 3 = 4 then
    accept w true [] (.ror (fld w 30 1 == 1) (BitVec.ofNat 7 (fld w 17 7)) (BitVec.ofNat 7 (fld w 10 7)) (BitVec.ofNat 7 (fld w 3 7)))
  else
  .error Reject.unassigned

/-- Words with OP 0x0C (R50). -/
def decodeOp0C (w : Nat) : Except Reject Instr :=
  if fld w 0 3 = 0 then
    accept w true [⟨3, 7, 3⟩] (.popc (fld w 30 1 == 1) (BitVec.ofNat 7 (fld w 17 7)) (BitVec.ofNat 7 (fld w 10 7)))
  else
  if fld w 0 3 = 1 then
    accept w true [⟨3, 7, 3⟩] (.clz (fld w 30 1 == 1) (BitVec.ofNat 7 (fld w 17 7)) (BitVec.ofNat 7 (fld w 10 7)))
  else
  if fld w 0 3 = 2 then
    accept w true [⟨3, 7, 3⟩] (.ctz (fld w 30 1 == 1) (BitVec.ofNat 7 (fld w 17 7)) (BitVec.ofNat 7 (fld w 10 7)))
  else
  if fld w 0 3 = 3 then
    accept w true [⟨3, 7, 3⟩] (.brev (fld w 30 1 == 1) (BitVec.ofNat 7 (fld w 17 7)) (BitVec.ofNat 7 (fld w 10 7)))
  else
  if fld w 0 3 = 4 then
    accept w true [⟨3, 7, 3⟩] (.bswap (fld w 30 1 == 1) (BitVec.ofNat 7 (fld w 17 7)) (BitVec.ofNat 7 (fld w 10 7)))
  else
  .error Reject.unassigned

/-- Words with OP 0x0D (R50). -/
def decodeOp0D (w : Nat) : Except Reject Instr :=
  if fld w 0 3 = 0 then
    accept w true [] (.bfxZ32 (fld w 30 1 == 1) (BitVec.ofNat 7 (fld w 17 7)) (BitVec.ofNat 7 (fld w 10 7)) (BitVec.ofNat 7 (fld w 3 7)))
  else
  if fld w 0 3 = 1 then
    accept w true [] (.bfxS32 (fld w 30 1 == 1) (BitVec.ofNat 7 (fld w 17 7)) (BitVec.ofNat 7 (fld w 10 7)) (BitVec.ofNat 7 (fld w 3 7)))
  else
  if fld w 0 3 = 2 then
    accept w true [] (.bfi (fld w 30 1 == 1) (BitVec.ofNat 7 (fld w 17 7)) (BitVec.ofNat 7 (fld w 10 7)) (BitVec.ofNat 7 (fld w 3 7)))
  else
  .error Reject.unassigned

/-- Words with OP 0x0E (R50). -/
def decodeOp0E (w : Nat) : Except Reject Instr :=
  if fld w 0 3 = 0 then
    accept w true [] (.minS32 (fld w 30 1 == 1) (BitVec.ofNat 7 (fld w 17 7)) (BitVec.ofNat 7 (fld w 10 7)) (BitVec.ofNat 7 (fld w 3 7)))
  else
  if fld w 0 3 = 1 then
    accept w true [] (.minZ32 (fld w 30 1 == 1) (BitVec.ofNat 7 (fld w 17 7)) (BitVec.ofNat 7 (fld w 10 7)) (BitVec.ofNat 7 (fld w 3 7)))
  else
  if fld w 0 3 = 2 then
    accept w true [] (.maxS32 (fld w 30 1 == 1) (BitVec.ofNat 7 (fld w 17 7)) (BitVec.ofNat 7 (fld w 10 7)) (BitVec.ofNat 7 (fld w 3 7)))
  else
  if fld w 0 3 = 3 then
    accept w true [] (.maxZ32 (fld w 30 1 == 1) (BitVec.ofNat 7 (fld w 17 7)) (BitVec.ofNat 7 (fld w 10 7)) (BitVec.ofNat 7 (fld w 3 7)))
  else
  if fld w 0 3 = 4 then
    accept w true [⟨3, 7, 3⟩] (.absS32 (fld w 30 1 == 1) (BitVec.ofNat 7 (fld w 17 7)) (BitVec.ofNat 7 (fld w 10 7)))
  else
  if fld w 0 3 = 5 then
    accept w true [⟨3, 7, 3⟩] (.negS32 (fld w 30 1 == 1) (BitVec.ofNat 7 (fld w 17 7)) (BitVec.ofNat 7 (fld w 10 7)))
  else
  .error Reject.unassigned

/-- Words with OP 0x0F (R50). -/
def decodeOp0F (w : Nat) : Except Reject Instr :=
  match ICond.ofCode (fld w 0 3) with
  | some k => accept w true [] (.icmp (fld w 30 1 == 1) (BitVec.ofNat 7 (fld w 17 7)) (BitVec.ofNat 7 (fld w 10 7)) (BitVec.ofNat 7 (fld w 3 7)) k)
  | _ => .error Reject.unassigned

/-- Words with OP 0x10 (R50). -/
def decodeOp10 (w : Nat) : Except Reject Instr :=
  accept w true [] (.movi (fld w 30 1 == 1) (BitVec.ofNat 7 (fld w 17 7)) (BitVec.ofNat 17 (fld w 0 17)))

/-- Words with OP 0x11 (R50). -/
def decodeOp11 (w : Nat) : Except Reject Instr :=
  accept w true [] (.movh (fld w 30 1 == 1) (BitVec.ofNat 7 (fld w 17 7)) (BitVec.ofNat 17 (fld w 0 17)))

/-- Words with OP 0x12 (R50). -/
def decodeOp12 (w : Nat) : Except Reject Instr :=
  accept w true [] (.iaddi (fld w 30 1 == 1) (BitVec.ofNat 7 (fld w 17 7)) (BitVec.ofNat 7 (fld w 10 7)) (BitVec.ofNat 10 (fld w 0 10)))

/-- Words with OP 0x13 (R50). -/
def decodeOp13 (w : Nat) : Except Reject Instr :=
  if fld w 8 2 = 0 then
    accept w true [] (.andi (fld w 30 1 == 1) (BitVec.ofNat 7 (fld w 17 7)) (BitVec.ofNat 7 (fld w 10 7)) (BitVec.ofNat 8 (fld w 0 8)))
  else
  if fld w 8 2 = 1 then
    accept w true [] (.ori (fld w 30 1 == 1) (BitVec.ofNat 7 (fld w 17 7)) (BitVec.ofNat 7 (fld w 10 7)) (BitVec.ofNat 8 (fld w 0 8)))
  else
  if fld w 8 2 = 2 then
    accept w true [] (.xori (fld w 30 1 == 1) (BitVec.ofNat 7 (fld w 17 7)) (BitVec.ofNat 7 (fld w 10 7)) (BitVec.ofNat 8 (fld w 0 8)))
  else
  .error Reject.unassigned

/-- Words with OP 0x14 (R50). -/
def decodeOp14 (w : Nat) : Except Reject Instr :=
  if fld w 8 2 = 0 then
    accept w true [⟨5, 3, 3⟩] (.shli (fld w 30 1 == 1) (BitVec.ofNat 7 (fld w 17 7)) (BitVec.ofNat 7 (fld w 10 7)) (BitVec.ofNat 5 (fld w 0 5)))
  else
  if fld w 8 2 = 1 then
    accept w true [⟨5, 3, 3⟩] (.shriZ32 (fld w 30 1 == 1) (BitVec.ofNat 7 (fld w 17 7)) (BitVec.ofNat 7 (fld w 10 7)) (BitVec.ofNat 5 (fld w 0 5)))
  else
  if fld w 8 2 = 2 then
    accept w true [⟨5, 3, 3⟩] (.shriS32 (fld w 30 1 == 1) (BitVec.ofNat 7 (fld w 17 7)) (BitVec.ofNat 7 (fld w 10 7)) (BitVec.ofNat 5 (fld w 0 5)))
  else
  if fld w 8 2 = 3 then
    accept w true [⟨5, 3, 3⟩] (.rori (fld w 30 1 == 1) (BitVec.ofNat 7 (fld w 17 7)) (BitVec.ofNat 7 (fld w 10 7)) (BitVec.ofNat 5 (fld w 0 5)))
  else
  .error Reject.unassigned

/-- Words with OP 0x15 (R50). -/
def decodeOp15 (w : Nat) : Except Reject Instr :=
  if fld w 0 3 = 0 then
    accept w true [⟨3, 7, 3⟩] (.mov (fld w 30 1 == 1) (BitVec.ofNat 7 (fld w 17 7)) (BitVec.ofNat 7 (fld w 10 7)))
  else
  if fld w 0 3 = 1 then
    accept w true [] (.sel (fld w 30 1 == 1) (BitVec.ofNat 7 (fld w 17 7)) (BitVec.ofNat 7 (fld w 10 7)) (BitVec.ofNat 7 (fld w 3 7)))
  else
  .error Reject.unassigned

/-- Words with OP 0x16 (R50). -/
def decodeOp16 (w : Nat) : Except Reject Instr :=
  accept w true [] (.lea (fld w 30 1 == 1) (BitVec.ofNat 7 (fld w 17 7)) (BitVec.ofNat 7 (fld w 10 7)) (BitVec.ofNat 7 (fld w 3 7)) (BitVec.ofNat 3 (fld w 0 3)))

/-- Words with OP 0x17 (R50). -/
def decodeOp17 (w : Nat) : Except Reject Instr :=
  if fld w 0 3 = 0 then
    accept w false [] (.pand (BitVec.ofNat 7 (fld w 17 7)) (BitVec.ofNat 7 (fld w 10 7)) (BitVec.ofNat 7 (fld w 3 7)))
  else
  if fld w 0 3 = 1 then
    accept w false [] (.por (BitVec.ofNat 7 (fld w 17 7)) (BitVec.ofNat 7 (fld w 10 7)) (BitVec.ofNat 7 (fld w 3 7)))
  else
  if fld w 0 3 = 2 then
    accept w false [] (.pxor (BitVec.ofNat 7 (fld w 17 7)) (BitVec.ofNat 7 (fld w 10 7)) (BitVec.ofNat 7 (fld w 3 7)))
  else
  if fld w 0 3 = 3 then
    accept w false [⟨3, 7, 3⟩] (.pSet (BitVec.ofNat 7 (fld w 17 7)) (BitVec.ofNat 7 (fld w 10 7)))
  else
  if fld w 0 3 = 4 then
    accept w false [⟨3, 7, 3⟩] (.pGet (BitVec.ofNat 7 (fld w 17 7)) (BitVec.ofNat 7 (fld w 10 7)))
  else
  if fld w 0 3 = 5 then
    accept w false [⟨10, 7, 2⟩, ⟨3, 7, 3⟩] (.pwRd (BitVec.ofNat 7 (fld w 17 7)))
  else
  if fld w 0 3 = 6 then
    accept w false [⟨17, 7, 1⟩, ⟨3, 7, 3⟩] (.pwWr (BitVec.ofNat 7 (fld w 10 7)))
  else
  .error Reject.unassigned

/-- Words with OP 0x18 (R50). -/
def decodeOp18 (w : Nat) : Except Reject Instr :=
  if fld w 0 3 = 0 then
    accept w true [] (.faddF32 (fld w 30 1 == 1) (BitVec.ofNat 7 (fld w 17 7)) (BitVec.ofNat 7 (fld w 10 7)) (BitVec.ofNat 7 (fld w 3 7)))
  else
  if fld w 0 3 = 1 then
    accept w true [] (.fsubF32 (fld w 30 1 == 1) (BitVec.ofNat 7 (fld w 17 7)) (BitVec.ofNat 7 (fld w 10 7)) (BitVec.ofNat 7 (fld w 3 7)))
  else
  if fld w 0 3 = 2 then
    accept w true [] (.faddF16x2 (fld w 30 1 == 1) (BitVec.ofNat 7 (fld w 17 7)) (BitVec.ofNat 7 (fld w 10 7)) (BitVec.ofNat 7 (fld w 3 7)))
  else
  if fld w 0 3 = 3 then
    accept w true [] (.fsubF16x2 (fld w 30 1 == 1) (BitVec.ofNat 7 (fld w 17 7)) (BitVec.ofNat 7 (fld w 10 7)) (BitVec.ofNat 7 (fld w 3 7)))
  else
  if fld w 0 3 = 4 then
    accept w true [] (.faddBf16x2 (fld w 30 1 == 1) (BitVec.ofNat 7 (fld w 17 7)) (BitVec.ofNat 7 (fld w 10 7)) (BitVec.ofNat 7 (fld w 3 7)))
  else
  if fld w 0 3 = 5 then
    accept w true [] (.fsubBf16x2 (fld w 30 1 == 1) (BitVec.ofNat 7 (fld w 17 7)) (BitVec.ofNat 7 (fld w 10 7)) (BitVec.ofNat 7 (fld w 3 7)))
  else
  if fld w 0 3 = 6 then
    accept w true [] (.faddSatF32 (fld w 30 1 == 1) (BitVec.ofNat 7 (fld w 17 7)) (BitVec.ofNat 7 (fld w 10 7)) (BitVec.ofNat 7 (fld w 3 7)))
  else
  if fld w 0 3 = 7 then
    accept w true [] (.fsubSatF32 (fld w 30 1 == 1) (BitVec.ofNat 7 (fld w 17 7)) (BitVec.ofNat 7 (fld w 10 7)) (BitVec.ofNat 7 (fld w 3 7)))
  else
  .error Reject.unassigned

/-- Words with OP 0x19 (R50). -/
def decodeOp19 (w : Nat) : Except Reject Instr :=
  if fld w 0 2 = 0 then
    accept w true [] (.fmulF32 (fld w 30 1 == 1) (BitVec.ofNat 7 (fld w 17 7)) (BitVec.ofNat 7 (fld w 10 7)) (BitVec.ofNat 7 (fld w 3 7)) (fld w 2 1 == 1))
  else
  if fld w 0 2 = 1 then
    accept w true [] (.fmulF16x2 (fld w 30 1 == 1) (BitVec.ofNat 7 (fld w 17 7)) (BitVec.ofNat 7 (fld w 10 7)) (BitVec.ofNat 7 (fld w 3 7)) (fld w 2 1 == 1))
  else
  if fld w 0 2 = 2 then
    accept w true [] (.fmulBf16x2 (fld w 30 1 == 1) (BitVec.ofNat 7 (fld w 17 7)) (BitVec.ofNat 7 (fld w 10 7)) (BitVec.ofNat 7 (fld w 3 7)) (fld w 2 1 == 1))
  else
  .error Reject.unassigned

/-- Words with OP 0x1A (R50). -/
def decodeOp1A (w : Nat) : Except Reject Instr :=
  if fld w 0 2 = 0 then
    accept w true [] (.ffmaF32 (fld w 30 1 == 1) (BitVec.ofNat 7 (fld w 17 7)) (BitVec.ofNat 7 (fld w 10 7)) (BitVec.ofNat 7 (fld w 3 7)) (fld w 2 1 == 1))
  else
  if fld w 0 2 = 1 then
    accept w true [] (.ffmaF16x2 (fld w 30 1 == 1) (BitVec.ofNat 7 (fld w 17 7)) (BitVec.ofNat 7 (fld w 10 7)) (BitVec.ofNat 7 (fld w 3 7)) (fld w 2 1 == 1))
  else
  if fld w 0 2 = 2 then
    accept w true [] (.ffmaBf16x2 (fld w 30 1 == 1) (BitVec.ofNat 7 (fld w 17 7)) (BitVec.ofNat 7 (fld w 10 7)) (BitVec.ofNat 7 (fld w 3 7)) (fld w 2 1 == 1))
  else
  .error Reject.unassigned

/-- Words with OP 0x1B (R50). -/
def decodeOp1B (w : Nat) : Except Reject Instr :=
  if fld w 0 1 = 0 then
    match FpTy.ofCode (fld w 1 2) with
    | some t => accept w true [] (.fmin (fld w 30 1 == 1) (BitVec.ofNat 7 (fld w 17 7)) (BitVec.ofNat 7 (fld w 10 7)) (BitVec.ofNat 7 (fld w 3 7)) t)
    | _ => .error Reject.unassigned
  else
  if fld w 0 1 = 1 then
    match FpTy.ofCode (fld w 1 2) with
    | some t => accept w true [] (.fmax (fld w 30 1 == 1) (BitVec.ofNat 7 (fld w 17 7)) (BitVec.ofNat 7 (fld w 10 7)) (BitVec.ofNat 7 (fld w 3 7)) t)
    | _ => .error Reject.unassigned
  else
  .error Reject.unassigned

/-- Words with OP 0x1C (R50). -/
def decodeOp1C (w : Nat) : Except Reject Instr :=
  if fld w 0 3 = 5 then
    accept w true [⟨3, 7, 3⟩] (.fclass (fld w 30 1 == 1) (BitVec.ofNat 7 (fld w 17 7)) (BitVec.ofNat 7 (fld w 10 7)))
  else
  match FCond.ofCode (fld w 0 3) with
  | some k => accept w true [] (.fcmp (fld w 30 1 == 1) (BitVec.ofNat 7 (fld w 17 7)) (BitVec.ofNat 7 (fld w 10 7)) (BitVec.ofNat 7 (fld w 3 7)) k)
  | _ => .error Reject.unassigned

/-- Words with OP 0x1D (R50). -/
def decodeOp1D (w : Nat) : Except Reject Instr :=
  if fld w 3 7 = 0 ∧ fld w 2 1 = 0 then
    match FpTy.ofCode (fld w 0 2) with
    | some t => accept w true [] (.rcp (fld w 30 1 == 1) (BitVec.ofNat 7 (fld w 17 7)) (BitVec.ofNat 7 (fld w 10 7)) t)
    | _ => .error Reject.unassigned
  else
  if fld w 3 7 = 1 ∧ fld w 2 1 = 0 then
    match FpTy.ofCode (fld w 0 2) with
    | some t => accept w true [] (.rsq (fld w 30 1 == 1) (BitVec.ofNat 7 (fld w 17 7)) (BitVec.ofNat 7 (fld w 10 7)) t)
    | _ => .error Reject.unassigned
  else
  if fld w 3 7 = 2 ∧ fld w 2 1 = 0 then
    match FpTy.ofCode (fld w 0 2) with
    | some t => accept w true [] (.sqrt (fld w 30 1 == 1) (BitVec.ofNat 7 (fld w 17 7)) (BitVec.ofNat 7 (fld w 10 7)) t)
    | _ => .error Reject.unassigned
  else
  if fld w 3 7 = 3 ∧ fld w 2 1 = 0 then
    match FpTy.ofCode (fld w 0 2) with
    | some t => accept w true [] (.exp2 (fld w 30 1 == 1) (BitVec.ofNat 7 (fld w 17 7)) (BitVec.ofNat 7 (fld w 10 7)) t)
    | _ => .error Reject.unassigned
  else
  if fld w 3 7 = 4 ∧ fld w 2 1 = 0 then
    match FpTy.ofCode (fld w 0 2) with
    | some t => accept w true [] (.log2 (fld w 30 1 == 1) (BitVec.ofNat 7 (fld w 17 7)) (BitVec.ofNat 7 (fld w 10 7)) t)
    | _ => .error Reject.unassigned
  else
  if fld w 3 7 = 5 ∧ fld w 2 1 = 0 then
    match FpTy.ofCode (fld w 0 2) with
    | some t => accept w true [] (.sin (fld w 30 1 == 1) (BitVec.ofNat 7 (fld w 17 7)) (BitVec.ofNat 7 (fld w 10 7)) t)
    | _ => .error Reject.unassigned
  else
  if fld w 3 7 = 6 ∧ fld w 2 1 = 0 then
    match FpTy.ofCode (fld w 0 2) with
    | some t => accept w true [] (.cos (fld w 30 1 == 1) (BitVec.ofNat 7 (fld w 17 7)) (BitVec.ofNat 7 (fld w 10 7)) t)
    | _ => .error Reject.unassigned
  else
  if fld w 3 7 = 7 ∧ fld w 2 1 = 0 then
    match FpTy.ofCode (fld w 0 2) with
    | some t => accept w true [] (.tanh (fld w 30 1 == 1) (BitVec.ofNat 7 (fld w 17 7)) (BitVec.ofNat 7 (fld w 10 7)) t)
    | _ => .error Reject.unassigned
  else
  if fld w 3 7 = 8 ∧ fld w 2 1 = 0 then
    match FpTy.ofCode (fld w 0 2) with
    | some t => accept w true [] (.erf (fld w 30 1 == 1) (BitVec.ofNat 7 (fld w 17 7)) (BitVec.ofNat 7 (fld w 10 7)) t)
    | _ => .error Reject.unassigned
  else
  if fld w 3 7 = 9 ∧ fld w 2 1 = 0 then
    match FpTy.ofCode (fld w 0 2) with
    | some t => accept w true [] (.ncdf (fld w 30 1 == 1) (BitVec.ofNat 7 (fld w 17 7)) (BitVec.ofNat 7 (fld w 10 7)) t)
    | _ => .error Reject.unassigned
  else
  if fld w 3 7 = 10 ∧ fld w 2 1 = 0 then
    match FpTy.ofCode (fld w 0 2) with
    | some t => accept w true [] (.npdf (fld w 30 1 == 1) (BitVec.ofNat 7 (fld w 17 7)) (BitVec.ofNat 7 (fld w 10 7)) t)
    | _ => .error Reject.unassigned
  else
  .error Reject.unassigned

/-- Words with OP 0x1E (R50). -/
def decodeOp1E (w : Nat) : Except Reject Instr :=
  if fld w 3 7 = 81 then
    match Rs.ofCode (fld w 0 3) with
    | some r => accept w true [] (.packE4m3F32 (fld w 30 1 == 1) (BitVec.ofNat 7 (fld w 17 7)) (BitVec.ofNat 7 (fld w 10 7)) r)
    | _ => .error Reject.unassigned
  else
  if fld w 3 7 = 82 then
    match Rs.ofCode (fld w 0 3) with
    | some r => accept w true [] (.packE5m2F32 (fld w 30 1 == 1) (BitVec.ofNat 7 (fld w 17 7)) (BitVec.ofNat 7 (fld w 10 7)) r)
    | _ => .error Reject.unassigned
  else
  if fld w 3 7 = 83 then
    match Rs.ofCode (fld w 0 3) with
    | some r => accept w true [] (.packE2m1F32 (fld w 30 1 == 1) (BitVec.ofNat 7 (fld w 17 7)) (BitVec.ofNat 7 (fld w 10 7)) r)
    | _ => .error Reject.unassigned
  else
  if fld w 3 7 = 84 ∧ fld w 0 3 = 5 then
    accept w true [] (.unpackF32E4m3 (fld w 30 1 == 1) (BitVec.ofNat 7 (fld w 17 7)) (BitVec.ofNat 7 (fld w 10 7)))
  else
  if fld w 3 7 = 85 ∧ fld w 0 3 = 5 then
    accept w true [] (.unpackF32E5m2 (fld w 30 1 == 1) (BitVec.ofNat 7 (fld w 17 7)) (BitVec.ofNat 7 (fld w 10 7)))
  else
  if fld w 3 7 = 86 ∧ fld w 0 3 = 5 then
    accept w true [] (.unpackF32E2m1 (fld w 30 1 == 1) (BitVec.ofNat 7 (fld w 17 7)) (BitVec.ofNat 7 (fld w 10 7)))
  else
  match CvtPair.ofCode (fld w 3 7), Rs.ofCode (fld w 0 3) with
  | some v, some r => accept w true [] (.cvt (fld w 30 1 == 1) (BitVec.ofNat 7 (fld w 17 7)) (BitVec.ofNat 7 (fld w 10 7)) v r)
  | _, _ => .error Reject.unassigned

/-- Words with OP 0x1F (R50). -/
def decodeOp1F (w : Nat) : Except Reject Instr :=
  if fld w 0 3 = 0 then
    accept w false [⟨3, 7, 3⟩] (.rngB128 (BitVec.ofNat 7 (fld w 17 7)) (BitVec.ofNat 7 (fld w 10 7)))
  else
  if fld w 0 3 = 1 then
    accept w false [⟨3, 7, 3⟩] (.rngF32 (BitVec.ofNat 7 (fld w 17 7)) (BitVec.ofNat 7 (fld w 10 7)))
  else
  if fld w 0 3 = 2 then
    accept w false [] (.cvtSrBf16F32 (BitVec.ofNat 7 (fld w 17 7)) (BitVec.ofNat 7 (fld w 10 7)) (BitVec.ofNat 7 (fld w 3 7)))
  else
  if fld w 0 3 = 3 then
    accept w false [] (.cvtSrF16F32 (BitVec.ofNat 7 (fld w 17 7)) (BitVec.ofNat 7 (fld w 10 7)) (BitVec.ofNat 7 (fld w 3 7)))
  else
  if fld w 0 3 = 4 then
    accept w false [] (.cvtSrBf16x2F32 (BitVec.ofNat 7 (fld w 17 7)) (BitVec.ofNat 7 (fld w 10 7)) (BitVec.ofNat 7 (fld w 3 7)))
  else
  if fld w 0 3 = 5 then
    accept w false [] (.packSrE4m3F32 (BitVec.ofNat 7 (fld w 17 7)) (BitVec.ofNat 7 (fld w 10 7)) (BitVec.ofNat 7 (fld w 3 7)))
  else
  if fld w 0 3 = 6 then
    accept w false [] (.packSrE5m2F32 (BitVec.ofNat 7 (fld w 17 7)) (BitVec.ofNat 7 (fld w 10 7)) (BitVec.ofNat 7 (fld w 3 7)))
  else
  if fld w 0 3 = 7 then
    accept w false [] (.packSrE2m1F32 (BitVec.ofNat 7 (fld w 17 7)) (BitVec.ofNat 7 (fld w 10 7)) (BitVec.ofNat 7 (fld w 3 7)))
  else
  .error Reject.unassigned

/-- Words with OP 0x20 (R50). -/
def decodeOp20 (w : Nat) : Except Reject Instr :=
  if fld w 0 3 = 0 then
    accept w false [] (.madd (BitVec.ofNat 7 (fld w 17 7)) (BitVec.ofNat 7 (fld w 10 7)) (BitVec.ofNat 7 (fld w 3 7)))
  else
  if fld w 0 3 = 1 then
    accept w false [] (.msub (BitVec.ofNat 7 (fld w 17 7)) (BitVec.ofNat 7 (fld w 10 7)) (BitVec.ofNat 7 (fld w 3 7)))
  else
  if fld w 0 3 = 2 then
    accept w false [] (.mmul (BitVec.ofNat 7 (fld w 17 7)) (BitVec.ofNat 7 (fld w 10 7)) (BitVec.ofNat 7 (fld w 3 7)))
  else
  if fld w 0 3 = 3 then
    accept w false [] (.mfma (BitVec.ofNat 7 (fld w 17 7)) (BitVec.ofNat 7 (fld w 10 7)) (BitVec.ofNat 7 (fld w 3 7)))
  else
  if fld w 0 3 = 4 then
    accept w false [] (.mscl (BitVec.ofNat 7 (fld w 17 7)) (BitVec.ofNat 7 (fld w 10 7)) (BitVec.ofNat 7 (fld w 3 7)))
  else
  .error Reject.unassigned

/-- Words with OP 0x21 (R50). -/
def decodeOp21 (w : Nat) : Except Reject Instr :=
  if fld w 0 3 = 0 then
    accept w false [⟨3, 7, 3⟩] (.mrelu (BitVec.ofNat 7 (fld w 17 7)) (BitVec.ofNat 7 (fld w 10 7)))
  else
  if fld w 0 3 = 1 then
    accept w false [⟨3, 7, 3⟩] (.mexp (BitVec.ofNat 7 (fld w 17 7)) (BitVec.ofNat 7 (fld w 10 7)))
  else
  if fld w 0 3 = 2 then
    accept w false [⟨3, 7, 3⟩] (.msigm (BitVec.ofNat 7 (fld w 17 7)) (BitVec.ofNat 7 (fld w 10 7)))
  else
  if fld w 0 3 = 3 then
    accept w false [⟨3, 7, 3⟩] (.mtanh (BitVec.ofNat 7 (fld w 17 7)) (BitVec.ofNat 7 (fld w 10 7)))
  else
  .error Reject.unassigned

/-- Words with OP 0x22 (R50). -/
def decodeOp22 (w : Nat) : Except Reject Instr :=
  if fld w 0 3 = 0 then
    accept w false [] (.mset (BitVec.ofNat 7 (fld w 17 7)) (BitVec.ofNat 7 (fld w 10 7)) (BitVec.ofNat 7 (fld w 3 7)))
  else
  if fld w 0 3 = 1 then
    accept w false [⟨3, 7, 3⟩] (.mcolMean (BitVec.ofNat 7 (fld w 17 7)) (BitVec.ofNat 7 (fld w 10 7)))
  else
  if fld w 0 3 = 2 then
    accept w false [⟨3, 7, 3⟩] (.mcolVar (BitVec.ofNat 7 (fld w 17 7)) (BitVec.ofNat 7 (fld w 10 7)))
  else
  if fld w 0 3 = 4 then
    accept w false [] (.mcolSmp (BitVec.ofNat 7 (fld w 17 7)) (BitVec.ofNat 7 (fld w 10 7)) (BitVec.ofNat 7 (fld w 3 7)))
  else
  .error Reject.unassigned

/-- Words with OP 0x23 (R50). -/
def decodeOp23 (w : Nat) : Except Reject Instr :=
  if fld w 0 3 = 0 then
    accept w false [] (.mldBlk (BitVec.ofNat 7 (fld w 17 7)) (BitVec.ofNat 7 (fld w 10 7)) (BitVec.ofNat 7 (fld w 3 7)))
  else
  if fld w 0 3 = 1 then
    accept w false [] (.mldPad (BitVec.ofNat 7 (fld w 17 7)) (BitVec.ofNat 7 (fld w 10 7)) (BitVec.ofNat 7 (fld w 3 7)))
  else
  if fld w 0 3 = 2 then
    accept w false [] (.mstBlk (BitVec.ofNat 7 (fld w 17 7)) (BitVec.ofNat 7 (fld w 10 7)) (BitVec.ofNat 7 (fld w 3 7)))
  else
  if fld w 0 3 = 3 then
    accept w false [] (.mstPad (BitVec.ofNat 7 (fld w 17 7)) (BitVec.ofNat 7 (fld w 10 7)) (BitVec.ofNat 7 (fld w 3 7)))
  else
  .error Reject.unassigned

/-- Words with OP 0x28 (R50). -/
def decodeOp28 (w : Nat) : Except Reject Instr :=
  match Space3.ofCode (fld w 8 2), LdTy.ofCode (fld w 0 3) with
  | some p, some t => accept w true [] (.ld (fld w 30 1 == 1) (BitVec.ofNat 7 (fld w 17 7)) (BitVec.ofNat 7 (fld w 10 7)) p (BitVec.ofNat 5 (fld w 3 5)) t)
  | _, _ => .error Reject.unassigned

/-- Words with OP 0x29 (R50). -/
def decodeOp29 (w : Nat) : Except Reject Instr :=
  match Space3.ofCode (fld w 8 2), StTy.ofCode (fld w 0 3) with
  | some p, some t => accept w false [] (.st (BitVec.ofNat 7 (fld w 17 7)) (BitVec.ofNat 7 (fld w 10 7)) p (BitVec.ofNat 5 (fld w 3 5)) t)
  | _, _ => .error Reject.unassigned

/-- Words with OP 0x2A (R50). -/
def decodeOp2A (w : Nat) : Except Reject Instr :=
  if fld w 5 5 = 15 then
    match Ord.ofCode (fld w 0 4) with
    | some r => accept w false [] (.atomAccZ32 (BitVec.ofNat 7 (fld w 17 7)) (BitVec.ofNat 7 (fld w 10 7)) (fld w 4 1 == 1) r)
    | _ => .error Reject.unassigned
  else
  if fld w 5 5 = 16 then
    match Ord.ofCode (fld w 0 4) with
    | some r => accept w false [] (.atomAccF32 (BitVec.ofNat 7 (fld w 17 7)) (BitVec.ofNat 7 (fld w 10 7)) (fld w 4 1 == 1) r)
    | _ => .error Reject.unassigned
  else
  match AOp.ofCode (fld w 5 5), Ord.ofCode (fld w 0 4) with
  | some k, some r => accept w false [] (.atom (BitVec.ofNat 7 (fld w 17 7)) (BitVec.ofNat 7 (fld w 10 7)) k (fld w 4 1 == 1) r)
  | _, _ => .error Reject.unassigned

/-- Words with OP 0x2B (R50). -/
def decodeOp2B (w : Nat) : Except Reject Instr :=
  if fld w 6 4 = 0 then
    match Ord.ofCode (fld w 0 4) with
    | some r => accept w false [] (.atomCas (BitVec.ofNat 7 (fld w 17 7)) (BitVec.ofNat 7 (fld w 10 7)) (fld w 5 1 == 1) (fld w 4 1 == 1) r)
    | _ => .error Reject.unassigned
  else
  .error Reject.unassigned

/-- Words with OP 0x2C (R50). -/
def decodeOp2C (w : Nat) : Except Reject Instr :=
  if fld w 2 1 = 0 then
    accept w false [] (.ldVt (BitVec.ofNat 7 (fld w 17 7)) (BitVec.ofNat 7 (fld w 10 7)) (BitVec.ofNat 7 (fld w 3 7)) (fld w 1 1 == 1) (fld w 0 1 == 1))
  else
  if fld w 2 1 = 1 then
    accept w false [] (.ldVtw (BitVec.ofNat 7 (fld w 17 7)) (BitVec.ofNat 7 (fld w 10 7)) (BitVec.ofNat 7 (fld w 3 7)) (fld w 1 1 == 1) (fld w 0 1 == 1))
  else
  .error Reject.unassigned

/-- Words with OP 0x2D (R50). -/
def decodeOp2D (w : Nat) : Except Reject Instr :=
  if fld w 1 2 = 0 then
    accept w false [] (.stMask (BitVec.ofNat 7 (fld w 17 7)) (BitVec.ofNat 7 (fld w 10 7)) (BitVec.ofNat 7 (fld w 3 7)) (fld w 0 1 == 1))
  else
  if fld w 1 2 = 1 then
    accept w false [] (.ldMask (BitVec.ofNat 7 (fld w 17 7)) (BitVec.ofNat 7 (fld w 10 7)) (BitVec.ofNat 7 (fld w 3 7)) (fld w 0 1 == 1))
  else
  .error Reject.unassigned

/-- Words with OP 0x2E (R50). -/
def decodeOp2E (w : Nat) : Except Reject Instr :=
  if fld w 1 2 = 0 then
    accept w false [⟨10, 7, 2⟩, ⟨3, 7, 3⟩] (.push (BitVec.ofNat 7 (fld w 17 7)) (fld w 0 1 == 1))
  else
  if fld w 1 2 = 1 then
    accept w false [⟨10, 7, 2⟩, ⟨3, 7, 3⟩] (.pop (BitVec.ofNat 7 (fld w 17 7)) (fld w 0 1 == 1))
  else
  .error Reject.unassigned

/-- Words with OP 0x2F (R50). -/
def decodeOp2F (w : Nat) : Except Reject Instr :=
  if fld w 0 3 = 0 then
    accept w false [⟨17, 7, 1⟩, ⟨10, 7, 2⟩, ⟨3, 7, 3⟩] .fenceGrp
  else
  if fld w 0 3 = 1 then
    accept w false [⟨17, 7, 1⟩, ⟨10, 7, 2⟩, ⟨3, 7, 3⟩] .fenceBlk
  else
  if fld w 0 3 = 2 then
    accept w false [⟨17, 7, 1⟩, ⟨10, 7, 2⟩, ⟨3, 7, 3⟩] .fenceGang
  else
  if fld w 0 3 = 3 then
    accept w false [⟨17, 7, 1⟩, ⟨10, 7, 2⟩, ⟨3, 7, 3⟩] .fenceDev
  else
  if fld w 0 3 = 4 then
    accept w false [⟨17, 7, 1⟩, ⟨10, 7, 2⟩, ⟨3, 7, 3⟩] .fenceSys
  else
  if fld w 0 3 = 5 then
    accept w false [⟨17, 7, 1⟩, ⟨10, 7, 2⟩] (.waitLd (BitVec.ofNat 7 (fld w 3 7)))
  else
  .error Reject.unassigned

/-- Words with OP 0x30 (R50). -/
def decodeOp30 (w : Nat) : Except Reject Instr :=
  if fld w 0 3 = 0 then
    accept w false [⟨3, 7, 3⟩] (.qxH (BitVec.ofNat 7 (fld w 17 7)) (BitVec.ofNat 7 (fld w 10 7)))
  else
  if fld w 0 3 = 1 then
    accept w false [⟨3, 7, 3⟩] (.qxV (BitVec.ofNat 7 (fld w 17 7)) (BitVec.ofNat 7 (fld w 10 7)))
  else
  if fld w 0 3 = 2 then
    accept w false [⟨3, 7, 3⟩] (.qxD (BitVec.ofNat 7 (fld w 17 7)) (BitVec.ofNat 7 (fld w 10 7)))
  else
  if fld w 2 1 = 1 then
    accept w false [⟨3, 7, 3⟩] (.qxBc (BitVec.ofNat 7 (fld w 17 7)) (BitVec.ofNat 7 (fld w 10 7)) (BitVec.ofNat 2 (fld w 0 2)))
  else
  .error Reject.unassigned

/-- Words with OP 0x31 (R50). -/
def decodeOp31 (w : Nat) : Except Reject Instr :=
  if fld w 0 3 = 0 then
    accept w false [] (.xlaneFlip (BitVec.ofNat 7 (fld w 17 7)) (BitVec.ofNat 7 (fld w 10 7)) (BitVec.ofNat 7 (fld w 3 7)))
  else
  if fld w 0 3 = 1 then
    accept w false [] (.xlanePick (BitVec.ofNat 7 (fld w 17 7)) (BitVec.ofNat 7 (fld w 10 7)) (BitVec.ofNat 7 (fld w 3 7)))
  else
  if fld w 0 3 = 2 then
    accept w false [] (.xlaneLo (BitVec.ofNat 7 (fld w 17 7)) (BitVec.ofNat 7 (fld w 10 7)) (BitVec.ofNat 7 (fld w 3 7)))
  else
  if fld w 0 3 = 3 then
    accept w false [] (.xlaneHi (BitVec.ofNat 7 (fld w 17 7)) (BitVec.ofNat 7 (fld w 10 7)) (BitVec.ofNat 7 (fld w 3 7)))
  else
  if fld w 0 3 = 4 then
    accept w false [] (.xlaneRot (BitVec.ofNat 7 (fld w 17 7)) (BitVec.ofNat 7 (fld w 10 7)) (BitVec.ofNat 7 (fld w 3 7)))
  else
  .error Reject.unassigned

/-- Words with OP 0x32 (R50). -/
def decodeOp32 (w : Nat) : Except Reject Instr :=
  if fld w 0 3 = 0 then
    accept w false [⟨3, 7, 3⟩] (.ballot (BitVec.ofNat 7 (fld w 17 7)) (BitVec.ofNat 7 (fld w 10 7)))
  else
  if fld w 0 3 = 1 then
    accept w false [⟨3, 7, 3⟩] (.agreeAll (BitVec.ofNat 7 (fld w 17 7)) (BitVec.ofNat 7 (fld w 10 7)))
  else
  if fld w 0 3 = 2 then
    accept w false [⟨3, 7, 3⟩] (.agreeAny (BitVec.ofNat 7 (fld w 17 7)) (BitVec.ofNat 7 (fld w 10 7)))
  else
  if fld w 0 3 = 3 then
    accept w false [⟨3, 7, 3⟩] (.agreeSame (BitVec.ofNat 7 (fld w 17 7)) (BitVec.ofNat 7 (fld w 10 7)))
  else
  .error Reject.unassigned

/-- Words with OP 0x33 (R50). -/
def decodeOp33 (w : Nat) : Except Reject Instr :=
  if fld w 0 3 = 0 then
    match ROp.ofCode (fld w 3 7) with
    | some k => accept w false [] (.redux (BitVec.ofNat 7 (fld w 17 7)) (BitVec.ofNat 7 (fld w 10 7)) k)
    | _ => .error Reject.unassigned
  else
  if fld w 0 3 = 1 then
    match ROp.ofCode (fld w 3 7) with
    | some k => accept w false [] (.reduxXscan (BitVec.ofNat 7 (fld w 17 7)) (BitVec.ofNat 7 (fld w 10 7)) k)
    | _ => .error Reject.unassigned
  else
  if fld w 0 3 = 2 then
    match ROp.ofCode (fld w 3 7) with
    | some k => accept w false [] (.reduxIscan (BitVec.ofNat 7 (fld w 17 7)) (BitVec.ofNat 7 (fld w 10 7)) k)
    | _ => .error Reject.unassigned
  else
  .error Reject.unassigned

/-- Words with OP 0x34 (R50). -/
def decodeOp34 (w : Nat) : Except Reject Instr :=
  if fld w 17 7 = 0 then
    accept w false [⟨10, 7, 2⟩] (.barInit (BitVec.ofNat 6 (fld w 4 6)) (BitVec.ofNat 4 (fld w 0 4)))
  else
  if fld w 17 7 = 1 then
    accept w false [⟨10, 7, 2⟩, ⟨4, 6, 3⟩] (.barArrive (BitVec.ofNat 4 (fld w 0 4)))
  else
  if fld w 17 7 = 2 then
    accept w false [⟨10, 7, 2⟩, ⟨4, 6, 3⟩] (.barWait (BitVec.ofNat 4 (fld w 0 4)))
  else
  if fld w 17 7 = 3 then
    accept w false [⟨10, 7, 2⟩, ⟨4, 6, 3⟩] (.barSync (BitVec.ofNat 4 (fld w 0 4)))
  else
  if fld w 17 7 = 4 then
    accept w false [⟨10, 7, 2⟩, ⟨0, 10, 3⟩] .barSyncGang
  else
  if fld w 17 7 = 5 then
    accept w false [⟨10, 7, 2⟩, ⟨0, 10, 3⟩] .gridSync
  else
  .error Reject.unassigned

/-- Words with OP 0x35 (R50). -/
def decodeOp35 (w : Nat) : Except Reject Instr :=
  if fld w 0 3 = 0 then
    accept w false [⟨17, 7, 1⟩] (.cstInit (BitVec.ofNat 7 (fld w 10 7)) (BitVec.ofNat 7 (fld w 3 7)))
  else
  if fld w 0 3 = 1 then
    accept w false [⟨17, 7, 1⟩, ⟨3, 7, 3⟩] (.cstPut (BitVec.ofNat 7 (fld w 10 7)))
  else
  if fld w 0 3 = 2 then
    accept w false [⟨3, 7, 3⟩] (.cstTake (BitVec.ofNat 7 (fld w 17 7)) (BitVec.ofNat 7 (fld w 10 7)))
  else
  .error Reject.unassigned

/-- Words with OP 0x36 (R50). -/
def decodeOp36 (w : Nat) : Except Reject Instr :=
  if fld w 0 3 = 0 then
    accept w false [⟨17, 7, 1⟩, ⟨10, 7, 2⟩, ⟨3, 7, 3⟩] .xregAcq
  else
  if fld w 0 3 = 1 then
    accept w false [⟨17, 7, 1⟩, ⟨10, 7, 2⟩, ⟨3, 7, 3⟩] .xregRel
  else
  .error Reject.unassigned

/-- Words with OP 0x37 (R50). -/
def decodeOp37 (w : Nat) : Except Reject Instr :=
  if fld w 0 3 = 0 then
    accept w false [⟨3, 7, 3⟩] (.vtNew (BitVec.ofNat 7 (fld w 17 7)) (BitVec.ofNat 7 (fld w 10 7)))
  else
  if fld w 0 3 = 1 then
    accept w false [⟨17, 7, 1⟩, ⟨3, 7, 3⟩] (.vtSet (BitVec.ofNat 7 (fld w 10 7)))
  else
  if fld w 0 3 = 2 then
    accept w false [⟨10, 7, 2⟩, ⟨3, 7, 3⟩] (.vtGet (BitVec.ofNat 7 (fld w 17 7)))
  else
  if fld w 0 3 = 3 then
    accept w false [⟨17, 7, 1⟩, ⟨3, 7, 3⟩] (.vtDrop (BitVec.ofNat 7 (fld w 10 7)))
  else
  if fld w 0 3 = 4 then
    accept w false [⟨17, 7, 1⟩, ⟨3, 7, 3⟩] (.vtMerge (BitVec.ofNat 7 (fld w 10 7)))
  else
  .error Reject.unassigned

/-- Words with OP 0x38 (R50). -/
def decodeOp38 (w : Nat) : Except Reject Instr :=
  if fld w 2 3 = 5 then
    accept w false [] (.mxMmaMom (BitVec.ofNat 7 (fld w 17 7)) (BitVec.ofNat 7 (fld w 10 7)) (BitVec.ofNat 5 (fld w 5 5)) (fld w 1 1 == 1) (fld w 0 1 == 1))
  else
  match MxFmt.ofCode (fld w 2 3) with
  | some f => accept w false [] (.mxPost (BitVec.ofNat 7 (fld w 17 7)) (BitVec.ofNat 7 (fld w 10 7)) (BitVec.ofNat 5 (fld w 5 5)) f (fld w 1 1 == 1) (fld w 0 1 == 1))
  | _ => .error Reject.unassigned

/-- Words with OP 0x39 (R50). -/
def decodeOp39 (w : Nat) : Except Reject Instr :=
  if fld w 0 3 = 0 then
    accept w false [⟨17, 7, 1⟩, ⟨10, 7, 2⟩, ⟨3, 2, 3⟩] (.mxZero (BitVec.ofNat 5 (fld w 5 5)))
  else
  if fld w 0 3 = 1 then
    accept w false [⟨3, 2, 3⟩] (.mxDrain (BitVec.ofNat 7 (fld w 17 7)) (BitVec.ofNat 7 (fld w 10 7)) (BitVec.ofNat 5 (fld w 5 5)))
  else
  if fld w 0 3 = 2 then
    accept w false [⟨3, 2, 3⟩] (.mxLd (BitVec.ofNat 7 (fld w 17 7)) (BitVec.ofNat 7 (fld w 10 7)) (BitVec.ofNat 5 (fld w 5 5)))
  else
  if fld w 0 3 = 3 then
    accept w false [⟨17, 7, 1⟩, ⟨3, 7, 3⟩] (.mxBand (BitVec.ofNat 7 (fld w 10 7)))
  else
  if fld w 0 3 = 4 then
    accept w false [⟨10, 7, 2⟩, ⟨3, 2, 3⟩] (.mxStat (BitVec.ofNat 7 (fld w 17 7)) (BitVec.ofNat 5 (fld w 5 5)))
  else
  .error Reject.unassigned

/-- Words with OP 0x3A (R50). -/
def decodeOp3A (w : Nat) : Except Reject Instr :=
  if fld w 0 3 = 0 then
    accept w false [⟨17, 7, 1⟩] (.cuvLoadBlk (BitVec.ofNat 7 (fld w 10 7)) (BitVec.ofNat 7 (fld w 3 7)))
  else
  if fld w 0 3 = 1 then
    accept w false [⟨17, 7, 1⟩] (.cuvLoadPad (BitVec.ofNat 7 (fld w 10 7)) (BitVec.ofNat 7 (fld w 3 7)))
  else
  if fld w 0 3 = 2 then
    accept w false [⟨10, 7, 2⟩] (.cuvChk (BitVec.ofNat 7 (fld w 17 7)) (BitVec.ofNat 7 (fld w 3 7)))
  else
  if fld w 0 3 = 3 then
    accept w false [⟨10, 7, 2⟩] (.cuvRd (BitVec.ofNat 7 (fld w 17 7)) (BitVec.ofNat 7 (fld w 3 7)))
  else
  .error Reject.unassigned

/-- Words with OP 0x3B (R50). -/
def decodeOp3B (w : Nat) : Except Reject Instr :=
  if fld w 0 3 = 0 then
    accept w false [⟨10, 7, 2⟩, ⟨4, 6, 3⟩] (.cpG2s (BitVec.ofNat 7 (fld w 17 7)) (fld w 3 1 == 1))
  else
  if fld w 0 3 = 1 then
    accept w false [⟨10, 7, 2⟩, ⟨4, 6, 3⟩] (.cpS2g (BitVec.ofNat 7 (fld w 17 7)) (fld w 3 1 == 1))
  else
  if fld w 0 3 = 2 then
    accept w false [⟨10, 7, 2⟩, ⟨5, 5, 3⟩] (.cpS2s (BitVec.ofNat 7 (fld w 17 7)) (fld w 4 1 == 1) (fld w 3 1 == 1))
  else
  if fld w 0 3 = 3 then
    accept w false [⟨10, 7, 2⟩, ⟨4, 6, 3⟩] (.cpTG2s (BitVec.ofNat 7 (fld w 17 7)) (fld w 3 1 == 1))
  else
  if fld w 0 3 = 4 then
    accept w false [⟨10, 7, 2⟩, ⟨4, 6, 3⟩] (.cpTS2g (BitVec.ofNat 7 (fld w 17 7)) (fld w 3 1 == 1))
  else
  if fld w 0 3 = 5 then
    accept w false [⟨10, 7, 2⟩, ⟨3, 7, 3⟩] (.migPost (BitVec.ofNat 7 (fld w 17 7)))
  else
  .error Reject.unassigned

/-- Words with OP 0x3C (R50). -/
def decodeOp3C (w : Nat) : Except Reject Instr :=
  accept w false [] (.gat (BitVec.ofNat 7 (fld w 17 7)) (BitVec.ofNat 7 (fld w 10 7)) (BitVec.ofNat 7 (fld w 3 7)) (fld w 2 1 == 1) (BitVec.ofNat 2 (fld w 0 2)))

/-- Words with OP 0x3D (R50). -/
def decodeOp3D (w : Nat) : Except Reject Instr :=
  if fld w 0 3 = 0 then
    accept w false [⟨17, 7, 1⟩] (.objInit (BitVec.ofNat 7 (fld w 10 7)) (BitVec.ofNat 7 (fld w 3 7)))
  else
  if fld w 0 3 = 1 then
    accept w false [⟨17, 7, 1⟩] (.objArrive (BitVec.ofNat 7 (fld w 10 7)) (BitVec.ofNat 7 (fld w 3 7)))
  else
  if fld w 0 3 = 2 then
    accept w false [⟨17, 7, 1⟩] (.objWait (BitVec.ofNat 7 (fld w 10 7)) (BitVec.ofNat 7 (fld w 3 7)))
  else
  if fld w 0 3 = 3 then
    accept w false [] (.objWaitSt (BitVec.ofNat 7 (fld w 17 7)) (BitVec.ofNat 7 (fld w 10 7)) (BitVec.ofNat 7 (fld w 3 7)))
  else
  if fld w 0 3 = 4 then
    accept w false [⟨3, 7, 3⟩] (.objPoll (BitVec.ofNat 7 (fld w 17 7)) (BitVec.ofNat 7 (fld w 10 7)))
  else
  .error Reject.unassigned

/-- Words with OP 0x3E (R50). A nonzero ORD or AOP of `rcp.put`, `rcp.get` or `coll.post`, for which R358 gives no reason, is reason 4 with field 0
(log 67). -/
def decodeOp3E (w : Nat) : Except Reject Instr :=
  if fld w 0 3 = 0 ∧ fld w 3 7 = 0 then
    accept w false [⟨17, 7, 1⟩] (.rcpPut (BitVec.ofNat 7 (fld w 10 7)))
  else
  if fld w 0 3 = 1 ∧ fld w 3 7 = 0 then
    accept w false [⟨17, 7, 1⟩] (.rcpGet (BitVec.ofNat 7 (fld w 10 7)))
  else
  if fld w 0 3 = 2 then
    match RAOp.ofCode (fld w 3 5) with
    | some k => accept w false [⟨17, 7, 1⟩] (.ratom (BitVec.ofNat 7 (fld w 10 7)) (BitVec.ofNat 2 (fld w 8 2)) k)
    | _ => .error Reject.unassigned
  else
  if fld w 0 3 = 3 ∧ fld w 3 7 = 0 then
    accept w false [⟨17, 7, 1⟩] (.collPost (BitVec.ofNat 7 (fld w 10 7)))
  else
  .error Reject.unassigned

/-- Words with OP 0x3F (R50). -/
def decodeOp3F (w : Nat) : Except Reject Instr :=
  if fld w 0 3 = 0 then
    accept w false [⟨3, 7, 3⟩] (.qRd (BitVec.ofNat 7 (fld w 17 7)) (BitVec.ofNat 7 (fld w 10 7)))
  else
  if fld w 0 3 = 1 then
    accept w false [⟨17, 7, 1⟩] (.qSt (BitVec.ofNat 7 (fld w 10 7)) (BitVec.ofNat 7 (fld w 3 7)))
  else
  if fld w 0 3 = 2 then
    accept w false [] (.qSub (BitVec.ofNat 7 (fld w 17 7)) (BitVec.ofNat 7 (fld w 10 7)) (BitVec.ofNat 7 (fld w 3 7)))
  else
  if fld w 0 3 = 3 ∧ fld w 3 7 = 0 then
    accept w false [⟨17, 7, 1⟩] (.wpSet (BitVec.ofNat 7 (fld w 10 7)))
  else
  if fld w 0 3 = 3 ∧ fld w 3 7 = 1 then
    accept w false [⟨17, 7, 1⟩] (.wpClr (BitVec.ofNat 7 (fld w 10 7)))
  else
  if fld w 0 3 = 4 then
    accept w false [⟨17, 7, 1⟩, ⟨3, 7, 3⟩] (.trcMark (BitVec.ofNat 7 (fld w 10 7)))
  else
  if fld w 0 3 = 5 ∧ fld w 3 7 = 0 then
    accept w false [] (.locQPad (BitVec.ofNat 7 (fld w 17 7)) (BitVec.ofNat 7 (fld w 10 7)))
  else
  if fld w 0 3 = 5 ∧ fld w 3 7 = 1 then
    accept w false [] (.locQVa (BitVec.ofNat 7 (fld w 17 7)) (BitVec.ofNat 7 (fld w 10 7)))
  else
  if fld w 0 3 = 6 ∧ fld w 3 7 = 0 then
    accept w false [⟨17, 7, 1⟩] (.bistRun (BitVec.ofNat 7 (fld w 10 7)))
  else
  if fld w 0 3 = 6 ∧ fld w 3 7 = 1 then
    accept w false [⟨10, 7, 2⟩] (.bistRd (BitVec.ofNat 7 (fld w 17 7)))
  else
  if fld w 0 3 = 7 ∧ fld w 3 7 = 0 then
    accept w false [⟨17, 7, 1⟩] (.launchDev (BitVec.ofNat 7 (fld w 10 7)))
  else
  .error Reject.unassigned

/-- The decoder of an instruction word, by its primary opcode (R44, R50). 0x24 to 0x27 are reserved. -/
def decodeNat (w : Nat) : Except Reject Instr :=
  match fld w 24 6 with
  | 0x00 => decodeOp00 w
  | 0x01 => decodeOp01 w
  | 0x02 => decodeOp02 w
  | 0x03 => decodeOp03 w
  | 0x04 => decodeOp04 w
  | 0x05 => decodeOp05 w
  | 0x06 => decodeOp06 w
  | 0x07 => decodeOp07 w
  | 0x08 => decodeOp08 w
  | 0x09 => decodeOp09 w
  | 0x0A => decodeOp0A w
  | 0x0B => decodeOp0B w
  | 0x0C => decodeOp0C w
  | 0x0D => decodeOp0D w
  | 0x0E => decodeOp0E w
  | 0x0F => decodeOp0F w
  | 0x10 => decodeOp10 w
  | 0x11 => decodeOp11 w
  | 0x12 => decodeOp12 w
  | 0x13 => decodeOp13 w
  | 0x14 => decodeOp14 w
  | 0x15 => decodeOp15 w
  | 0x16 => decodeOp16 w
  | 0x17 => decodeOp17 w
  | 0x18 => decodeOp18 w
  | 0x19 => decodeOp19 w
  | 0x1A => decodeOp1A w
  | 0x1B => decodeOp1B w
  | 0x1C => decodeOp1C w
  | 0x1D => decodeOp1D w
  | 0x1E => decodeOp1E w
  | 0x1F => decodeOp1F w
  | 0x20 => decodeOp20 w
  | 0x21 => decodeOp21 w
  | 0x22 => decodeOp22 w
  | 0x23 => decodeOp23 w
  | 0x28 => decodeOp28 w
  | 0x29 => decodeOp29 w
  | 0x2A => decodeOp2A w
  | 0x2B => decodeOp2B w
  | 0x2C => decodeOp2C w
  | 0x2D => decodeOp2D w
  | 0x2E => decodeOp2E w
  | 0x2F => decodeOp2F w
  | 0x30 => decodeOp30 w
  | 0x31 => decodeOp31 w
  | 0x32 => decodeOp32 w
  | 0x33 => decodeOp33 w
  | 0x34 => decodeOp34 w
  | 0x35 => decodeOp35 w
  | 0x36 => decodeOp36 w
  | 0x37 => decodeOp37 w
  | 0x38 => decodeOp38 w
  | 0x39 => decodeOp39 w
  | 0x3A => decodeOp3A w
  | 0x3B => decodeOp3B w
  | 0x3C => decodeOp3C w
  | 0x3D => decodeOp3D w
  | 0x3E => decodeOp3E w
  | 0x3F => decodeOp3F w
  | _ => .error Reject.unassigned

/-- The chain bit C (R44). -/
def chainBit (w : Word) : Bool := fld w.toNat 31 1 == 1

/-- The instruction that a word holds. -/
def decode (w : Word) : Except Reject Instr := decodeNat w.toNat

/-- One slot control field of a control word (R37). -/
structure SlotCtl where
  hold : Bool
  safe : Bool
  grd : BitVec 5
  dly : Nat
  deriving DecidableEq, Repr

/-- The slot control field of slot `k` (R37). -/
def slotCtl (ctl : Word) (k : Nat) : SlotCtl :=
  let sc := fld ctl.toNat (10 * k) 10
  ⟨fld sc 9 1 == 1, fld sc 8 1 == 1, BitVec.ofNat 5 (fld sc 3 5), fld sc 0 3⟩

/-- MARK of a control word (R37). -/
def ctlMark (ctl : Word) : Nat := fld ctl.toNat 30 2

/-- The control word with the three slot control fields (R37). -/
def encodeCtl (c0 c1 c2 : SlotCtl) : Word :=
  let f (c : SlotCtl) : Nat := c.hold.toNat * 2 ^ 9 + c.safe.toNat * 2 ^ 8 + c.grd.toNat * 2 ^ 3 + c.dly % 8
  BitVec.ofNat 32 (2 ^ 31 + f c2 * 2 ^ 20 + f c1 * 2 ^ 10 + f c0)

/-- The instruction that a word's opcode and sub-operation name, its S bit and its unused fields aside. -/
def namesOf : Except Reject Instr → Option Instr
  | .ok i => some i
  | .error r => r.names

/-- The primary opcode of a word (R44). -/
def opOf (w : Word) : Nat := fld w.toNat 24 6

/-- A word: its fixed bits and the fields, each with its value and its low bit. -/
def placed (base : Nat) : List (Nat × Nat) → Nat
  | [] => base
  | (v, lo) :: fs => v * 2 ^ lo + placed base fs

/-- Bits 30:0 of the word of an instruction, from the same tables; 0 for a step that has no word. -/
def encodeNat : Instr → Nat
  | .nop => 0x00000000
  | .brk k => placed 0x00020000 [(k.toNat, 0)]
  | .trap k => placed 0x00040000 [(k.toNat, 0)]
  | .br p o => placed 0x01000000 [(p.toNat, 17), (o.toNat, 0)]
  | .sBr p o => placed 0x41000000 [(p.toNat, 17), (o.toNat, 0)]
  | .brx a => placed 0x02000000 [(a.toNat, 10)]
  | .call o => placed 0x02020000 [(o.toNat, 0)]
  | .callx a => placed 0x02040000 [(a.toNat, 10)]
  | .ret => 0x02060000
  | .exit => 0x03000000
  | .fibEnd => 0x03000001
  | .fibSpawn d a b => placed 0x03000002 [(d.toNat, 17), (a.toNat, 10), (b.toNat, 3)]
  | .divPush o => placed 0x04000000 [(o.toNat, 0)]
  | .divJoin => 0x04020000
  | .brRot p o => placed 0x05000000 [(p.toNat, 17), (o.toNat, 0)]
  | .wait a => placed 0x06000000 [(a.toNat, 10)]
  | .waitAddrBlk a i => placed 0x06020000 [(a.toNat, 10), (i.toNat, 0)]
  | .waitAddrPad a i => placed 0x06040000 [(a.toNat, 10), (i.toNat, 0)]
  | .yield => 0x06060000
  | .sysRd d k => placed 0x07000000 [(d.toNat, 17), (k.toNat, 0)]
  | .sysWr a k => placed 0x07000100 [(a.toNat, 10), (k.toNat, 0)]
  | .add s d a b => placed 0x08000000 [(s.toNat, 30), (d.toNat, 17), (a.toNat, 10), (b.toNat, 3)]
  | .sub s d a b => placed 0x08000001 [(s.toNat, 30), (d.toNat, 17), (a.toNat, 10), (b.toNat, 3)]
  | .addSatS32 s d a b => placed 0x08000002 [(s.toNat, 30), (d.toNat, 17), (a.toNat, 10), (b.toNat, 3)]
  | .subSatS32 s d a b => placed 0x08000003 [(s.toNat, 30), (d.toNat, 17), (a.toNat, 10), (b.toNat, 3)]
  | .addSatZ32 s d a b => placed 0x08000004 [(s.toNat, 30), (d.toNat, 17), (a.toNat, 10), (b.toNat, 3)]
  | .subSatZ32 s d a b => placed 0x08000005 [(s.toNat, 30), (d.toNat, 17), (a.toNat, 10), (b.toNat, 3)]
  | .addB64 s d a b => placed 0x08000006 [(s.toNat, 30), (d.toNat, 17), (a.toNat, 10), (b.toNat, 3)]
  | .subB64 s d a b => placed 0x08000007 [(s.toNat, 30), (d.toNat, 17), (a.toNat, 10), (b.toNat, 3)]
  | .mul s d a b => placed 0x09000000 [(s.toNat, 30), (d.toNat, 17), (a.toNat, 10), (b.toNat, 3)]
  | .mulHiS32 s d a b => placed 0x09000001 [(s.toNat, 30), (d.toNat, 17), (a.toNat, 10), (b.toNat, 3)]
  | .mulHiZ32 s d a b => placed 0x09000002 [(s.toNat, 30), (d.toNat, 17), (a.toNat, 10), (b.toNat, 3)]
  | .mulWideS32 s d a b => placed 0x09000003 [(s.toNat, 30), (d.toNat, 17), (a.toNat, 10), (b.toNat, 3)]
  | .mulWideZ32 s d a b => placed 0x09000004 [(s.toNat, 30), (d.toNat, 17), (a.toNat, 10), (b.toNat, 3)]
  | .mad s d a b => placed 0x09000005 [(s.toNat, 30), (d.toNat, 17), (a.toNat, 10), (b.toNat, 3)]
  | .madWideS32 s d a b => placed 0x09000006 [(s.toNat, 30), (d.toNat, 17), (a.toNat, 10), (b.toNat, 3)]
  | .madWideZ32 s d a b => placed 0x09000007 [(s.toNat, 30), (d.toNat, 17), (a.toNat, 10), (b.toNat, 3)]
  | .and s d a b => placed 0x0A000000 [(s.toNat, 30), (d.toNat, 17), (a.toNat, 10), (b.toNat, 3)]
  | .or s d a b => placed 0x0A000001 [(s.toNat, 30), (d.toNat, 17), (a.toNat, 10), (b.toNat, 3)]
  | .xor s d a b => placed 0x0A000002 [(s.toNat, 30), (d.toNat, 17), (a.toNat, 10), (b.toNat, 3)]
  | .andn s d a b => placed 0x0A000003 [(s.toNat, 30), (d.toNat, 17), (a.toNat, 10), (b.toNat, 3)]
  | .orn s d a b => placed 0x0A000004 [(s.toNat, 30), (d.toNat, 17), (a.toNat, 10), (b.toNat, 3)]
  | .xnor s d a b => placed 0x0A000005 [(s.toNat, 30), (d.toNat, 17), (a.toNat, 10), (b.toNat, 3)]
  | .not s d a => placed 0x0A000006 [(s.toNat, 30), (d.toNat, 17), (a.toNat, 10)]
  | .shl s d a b => placed 0x0B000000 [(s.toNat, 30), (d.toNat, 17), (a.toNat, 10), (b.toNat, 3)]
  | .shrZ32 s d a b => placed 0x0B000001 [(s.toNat, 30), (d.toNat, 17), (a.toNat, 10), (b.toNat, 3)]
  | .shrS32 s d a b => placed 0x0B000002 [(s.toNat, 30), (d.toNat, 17), (a.toNat, 10), (b.toNat, 3)]
  | .rol s d a b => placed 0x0B000003 [(s.toNat, 30), (d.toNat, 17), (a.toNat, 10), (b.toNat, 3)]
  | .ror s d a b => placed 0x0B000004 [(s.toNat, 30), (d.toNat, 17), (a.toNat, 10), (b.toNat, 3)]
  | .popc s d a => placed 0x0C000000 [(s.toNat, 30), (d.toNat, 17), (a.toNat, 10)]
  | .clz s d a => placed 0x0C000001 [(s.toNat, 30), (d.toNat, 17), (a.toNat, 10)]
  | .ctz s d a => placed 0x0C000002 [(s.toNat, 30), (d.toNat, 17), (a.toNat, 10)]
  | .brev s d a => placed 0x0C000003 [(s.toNat, 30), (d.toNat, 17), (a.toNat, 10)]
  | .bswap s d a => placed 0x0C000004 [(s.toNat, 30), (d.toNat, 17), (a.toNat, 10)]
  | .bfxZ32 s d a b => placed 0x0D000000 [(s.toNat, 30), (d.toNat, 17), (a.toNat, 10), (b.toNat, 3)]
  | .bfxS32 s d a b => placed 0x0D000001 [(s.toNat, 30), (d.toNat, 17), (a.toNat, 10), (b.toNat, 3)]
  | .bfi s d a b => placed 0x0D000002 [(s.toNat, 30), (d.toNat, 17), (a.toNat, 10), (b.toNat, 3)]
  | .minS32 s d a b => placed 0x0E000000 [(s.toNat, 30), (d.toNat, 17), (a.toNat, 10), (b.toNat, 3)]
  | .minZ32 s d a b => placed 0x0E000001 [(s.toNat, 30), (d.toNat, 17), (a.toNat, 10), (b.toNat, 3)]
  | .maxS32 s d a b => placed 0x0E000002 [(s.toNat, 30), (d.toNat, 17), (a.toNat, 10), (b.toNat, 3)]
  | .maxZ32 s d a b => placed 0x0E000003 [(s.toNat, 30), (d.toNat, 17), (a.toNat, 10), (b.toNat, 3)]
  | .absS32 s d a => placed 0x0E000004 [(s.toNat, 30), (d.toNat, 17), (a.toNat, 10)]
  | .negS32 s d a => placed 0x0E000005 [(s.toNat, 30), (d.toNat, 17), (a.toNat, 10)]
  | .icmp s d a b k => placed 0x0F000000 [(s.toNat, 30), (d.toNat, 17), (a.toNat, 10), (b.toNat, 3), (k.code, 0)]
  | .movi s d i => placed 0x10000000 [(s.toNat, 30), (d.toNat, 17), (i.toNat, 0)]
  | .movh s d i => placed 0x11000000 [(s.toNat, 30), (d.toNat, 17), (i.toNat, 0)]
  | .iaddi s d a i => placed 0x12000000 [(s.toNat, 30), (d.toNat, 17), (a.toNat, 10), (i.toNat, 0)]
  | .andi s d a i => placed 0x13000000 [(s.toNat, 30), (d.toNat, 17), (a.toNat, 10), (i.toNat, 0)]
  | .ori s d a i => placed 0x13000100 [(s.toNat, 30), (d.toNat, 17), (a.toNat, 10), (i.toNat, 0)]
  | .xori s d a i => placed 0x13000200 [(s.toNat, 30), (d.toNat, 17), (a.toNat, 10), (i.toNat, 0)]
  | .shli s d a n => placed 0x14000000 [(s.toNat, 30), (d.toNat, 17), (a.toNat, 10), (n.toNat, 0)]
  | .shriZ32 s d a n => placed 0x14000100 [(s.toNat, 30), (d.toNat, 17), (a.toNat, 10), (n.toNat, 0)]
  | .shriS32 s d a n => placed 0x14000200 [(s.toNat, 30), (d.toNat, 17), (a.toNat, 10), (n.toNat, 0)]
  | .rori s d a n => placed 0x14000300 [(s.toNat, 30), (d.toNat, 17), (a.toNat, 10), (n.toNat, 0)]
  | .mov s d a => placed 0x15000000 [(s.toNat, 30), (d.toNat, 17), (a.toNat, 10)]
  | .sel s d a b => placed 0x15000001 [(s.toNat, 30), (d.toNat, 17), (a.toNat, 10), (b.toNat, 3)]
  | .lea s d a b n => placed 0x16000000 [(s.toNat, 30), (d.toNat, 17), (a.toNat, 10), (b.toNat, 3), (n.toNat, 0)]
  | .pand d a b => placed 0x17000000 [(d.toNat, 17), (a.toNat, 10), (b.toNat, 3)]
  | .por d a b => placed 0x17000001 [(d.toNat, 17), (a.toNat, 10), (b.toNat, 3)]
  | .pxor d a b => placed 0x17000002 [(d.toNat, 17), (a.toNat, 10), (b.toNat, 3)]
  | .pSet d a => placed 0x17000003 [(d.toNat, 17), (a.toNat, 10)]
  | .pGet d a => placed 0x17000004 [(d.toNat, 17), (a.toNat, 10)]
  | .pwRd d => placed 0x17000005 [(d.toNat, 17)]
  | .pwWr a => placed 0x17000006 [(a.toNat, 10)]
  | .faddF32 s d a b => placed 0x18000000 [(s.toNat, 30), (d.toNat, 17), (a.toNat, 10), (b.toNat, 3)]
  | .fsubF32 s d a b => placed 0x18000001 [(s.toNat, 30), (d.toNat, 17), (a.toNat, 10), (b.toNat, 3)]
  | .faddF16x2 s d a b => placed 0x18000002 [(s.toNat, 30), (d.toNat, 17), (a.toNat, 10), (b.toNat, 3)]
  | .fsubF16x2 s d a b => placed 0x18000003 [(s.toNat, 30), (d.toNat, 17), (a.toNat, 10), (b.toNat, 3)]
  | .faddBf16x2 s d a b => placed 0x18000004 [(s.toNat, 30), (d.toNat, 17), (a.toNat, 10), (b.toNat, 3)]
  | .fsubBf16x2 s d a b => placed 0x18000005 [(s.toNat, 30), (d.toNat, 17), (a.toNat, 10), (b.toNat, 3)]
  | .faddSatF32 s d a b => placed 0x18000006 [(s.toNat, 30), (d.toNat, 17), (a.toNat, 10), (b.toNat, 3)]
  | .fsubSatF32 s d a b => placed 0x18000007 [(s.toNat, 30), (d.toNat, 17), (a.toNat, 10), (b.toNat, 3)]
  | .fmulF32 s d a b t => placed 0x19000000 [(s.toNat, 30), (d.toNat, 17), (a.toNat, 10), (b.toNat, 3), (t.toNat, 2)]
  | .fmulF16x2 s d a b t => placed 0x19000001 [(s.toNat, 30), (d.toNat, 17), (a.toNat, 10), (b.toNat, 3), (t.toNat, 2)]
  | .fmulBf16x2 s d a b t => placed 0x19000002 [(s.toNat, 30), (d.toNat, 17), (a.toNat, 10), (b.toNat, 3), (t.toNat, 2)]
  | .ffmaF32 s d a b t => placed 0x1A000000 [(s.toNat, 30), (d.toNat, 17), (a.toNat, 10), (b.toNat, 3), (t.toNat, 2)]
  | .ffmaF16x2 s d a b t => placed 0x1A000001 [(s.toNat, 30), (d.toNat, 17), (a.toNat, 10), (b.toNat, 3), (t.toNat, 2)]
  | .ffmaBf16x2 s d a b t => placed 0x1A000002 [(s.toNat, 30), (d.toNat, 17), (a.toNat, 10), (b.toNat, 3), (t.toNat, 2)]
  | .fmin s d a b t => placed 0x1B000000 [(s.toNat, 30), (d.toNat, 17), (a.toNat, 10), (b.toNat, 3), (t.code, 1)]
  | .fmax s d a b t => placed 0x1B000001 [(s.toNat, 30), (d.toNat, 17), (a.toNat, 10), (b.toNat, 3), (t.code, 1)]
  | .fclass s d a => placed 0x1C000005 [(s.toNat, 30), (d.toNat, 17), (a.toNat, 10)]
  | .fcmp s d a b k => placed 0x1C000000 [(s.toNat, 30), (d.toNat, 17), (a.toNat, 10), (b.toNat, 3), (k.code, 0)]
  | .rcp s d a t => placed 0x1D000000 [(s.toNat, 30), (d.toNat, 17), (a.toNat, 10), (t.code, 0)]
  | .rsq s d a t => placed 0x1D000008 [(s.toNat, 30), (d.toNat, 17), (a.toNat, 10), (t.code, 0)]
  | .sqrt s d a t => placed 0x1D000010 [(s.toNat, 30), (d.toNat, 17), (a.toNat, 10), (t.code, 0)]
  | .exp2 s d a t => placed 0x1D000018 [(s.toNat, 30), (d.toNat, 17), (a.toNat, 10), (t.code, 0)]
  | .log2 s d a t => placed 0x1D000020 [(s.toNat, 30), (d.toNat, 17), (a.toNat, 10), (t.code, 0)]
  | .sin s d a t => placed 0x1D000028 [(s.toNat, 30), (d.toNat, 17), (a.toNat, 10), (t.code, 0)]
  | .cos s d a t => placed 0x1D000030 [(s.toNat, 30), (d.toNat, 17), (a.toNat, 10), (t.code, 0)]
  | .tanh s d a t => placed 0x1D000038 [(s.toNat, 30), (d.toNat, 17), (a.toNat, 10), (t.code, 0)]
  | .erf s d a t => placed 0x1D000040 [(s.toNat, 30), (d.toNat, 17), (a.toNat, 10), (t.code, 0)]
  | .ncdf s d a t => placed 0x1D000048 [(s.toNat, 30), (d.toNat, 17), (a.toNat, 10), (t.code, 0)]
  | .npdf s d a t => placed 0x1D000050 [(s.toNat, 30), (d.toNat, 17), (a.toNat, 10), (t.code, 0)]
  | .packE4m3F32 s d a r => placed 0x1E000288 [(s.toNat, 30), (d.toNat, 17), (a.toNat, 10), (r.code, 0)]
  | .packE5m2F32 s d a r => placed 0x1E000290 [(s.toNat, 30), (d.toNat, 17), (a.toNat, 10), (r.code, 0)]
  | .packE2m1F32 s d a r => placed 0x1E000298 [(s.toNat, 30), (d.toNat, 17), (a.toNat, 10), (r.code, 0)]
  | .unpackF32E4m3 s d a => placed 0x1E0002A5 [(s.toNat, 30), (d.toNat, 17), (a.toNat, 10)]
  | .unpackF32E5m2 s d a => placed 0x1E0002AD [(s.toNat, 30), (d.toNat, 17), (a.toNat, 10)]
  | .unpackF32E2m1 s d a => placed 0x1E0002B5 [(s.toNat, 30), (d.toNat, 17), (a.toNat, 10)]
  | .cvt s d a v r => placed 0x1E000000 [(s.toNat, 30), (d.toNat, 17), (a.toNat, 10), (v.code, 3), (r.code, 0)]
  | .rngB128 d a => placed 0x1F000000 [(d.toNat, 17), (a.toNat, 10)]
  | .rngF32 d a => placed 0x1F000001 [(d.toNat, 17), (a.toNat, 10)]
  | .cvtSrBf16F32 d a b => placed 0x1F000002 [(d.toNat, 17), (a.toNat, 10), (b.toNat, 3)]
  | .cvtSrF16F32 d a b => placed 0x1F000003 [(d.toNat, 17), (a.toNat, 10), (b.toNat, 3)]
  | .cvtSrBf16x2F32 d a b => placed 0x1F000004 [(d.toNat, 17), (a.toNat, 10), (b.toNat, 3)]
  | .packSrE4m3F32 d a b => placed 0x1F000005 [(d.toNat, 17), (a.toNat, 10), (b.toNat, 3)]
  | .packSrE5m2F32 d a b => placed 0x1F000006 [(d.toNat, 17), (a.toNat, 10), (b.toNat, 3)]
  | .packSrE2m1F32 d a b => placed 0x1F000007 [(d.toNat, 17), (a.toNat, 10), (b.toNat, 3)]
  | .madd d a b => placed 0x20000000 [(d.toNat, 17), (a.toNat, 10), (b.toNat, 3)]
  | .msub d a b => placed 0x20000001 [(d.toNat, 17), (a.toNat, 10), (b.toNat, 3)]
  | .mmul d a b => placed 0x20000002 [(d.toNat, 17), (a.toNat, 10), (b.toNat, 3)]
  | .mfma d a b => placed 0x20000003 [(d.toNat, 17), (a.toNat, 10), (b.toNat, 3)]
  | .mscl d a b => placed 0x20000004 [(d.toNat, 17), (a.toNat, 10), (b.toNat, 3)]
  | .mrelu d a => placed 0x21000000 [(d.toNat, 17), (a.toNat, 10)]
  | .mexp d a => placed 0x21000001 [(d.toNat, 17), (a.toNat, 10)]
  | .msigm d a => placed 0x21000002 [(d.toNat, 17), (a.toNat, 10)]
  | .mtanh d a => placed 0x21000003 [(d.toNat, 17), (a.toNat, 10)]
  | .mset d a b => placed 0x22000000 [(d.toNat, 17), (a.toNat, 10), (b.toNat, 3)]
  | .mcolMean d a => placed 0x22000001 [(d.toNat, 17), (a.toNat, 10)]
  | .mcolVar d a => placed 0x22000002 [(d.toNat, 17), (a.toNat, 10)]
  | .mcolSmp d a b => placed 0x22000004 [(d.toNat, 17), (a.toNat, 10), (b.toNat, 3)]
  | .mldBlk d g o => placed 0x23000000 [(d.toNat, 17), (g.toNat, 10), (o.toNat, 3)]
  | .mldPad d g o => placed 0x23000001 [(d.toNat, 17), (g.toNat, 10), (o.toNat, 3)]
  | .mstBlk d g o => placed 0x23000002 [(d.toNat, 17), (g.toNat, 10), (o.toNat, 3)]
  | .mstPad d g o => placed 0x23000003 [(d.toNat, 17), (g.toNat, 10), (o.toNat, 3)]
  | .ld s d g p o t => placed 0x28000000 [(s.toNat, 30), (d.toNat, 17), (g.toNat, 10), (p.code, 8), (o.toNat, 3), (t.code, 0)]
  | .st d g p o t => placed 0x29000000 [(d.toNat, 17), (g.toNat, 10), (p.code, 8), (o.toNat, 3), (t.code, 0)]
  | .atomAccZ32 d a p r => placed 0x2A0001E0 [(d.toNat, 17), (a.toNat, 10), (p.toNat, 4), (r.code, 0)]
  | .atomAccF32 d a p r => placed 0x2A000200 [(d.toNat, 17), (a.toNat, 10), (p.toNat, 4), (r.code, 0)]
  | .atom d a k p r => placed 0x2A000000 [(d.toNat, 17), (a.toNat, 10), (k.code, 5), (p.toNat, 4), (r.code, 0)]
  | .atomCas d a z p r => placed 0x2B000000 [(d.toNat, 17), (a.toNat, 10), (z.toNat, 5), (p.toNat, 4), (r.code, 0)]
  | .ldVt d a b p z => placed 0x2C000000 [(d.toNat, 17), (a.toNat, 10), (b.toNat, 3), (p.toNat, 1), (z.toNat, 0)]
  | .ldVtw d a b p z => placed 0x2C000004 [(d.toNat, 17), (a.toNat, 10), (b.toNat, 3), (p.toNat, 1), (z.toNat, 0)]
  | .stMask d g o y => placed 0x2D000000 [(d.toNat, 17), (g.toNat, 10), (o.toNat, 3), (y.toNat, 0)]
  | .ldMask d g o y => placed 0x2D000002 [(d.toNat, 17), (g.toNat, 10), (o.toNat, 3), (y.toNat, 0)]
  | .push d z => placed 0x2E000000 [(d.toNat, 17), (z.toNat, 0)]
  | .pop d z => placed 0x2E000002 [(d.toNat, 17), (z.toNat, 0)]
  | .fenceGrp => 0x2F000000
  | .fenceBlk => 0x2F000001
  | .fenceGang => 0x2F000002
  | .fenceDev => 0x2F000003
  | .fenceSys => 0x2F000004
  | .waitLd n => placed 0x2F000005 [(n.toNat, 3)]
  | .qxH d a => placed 0x30000000 [(d.toNat, 17), (a.toNat, 10)]
  | .qxV d a => placed 0x30000001 [(d.toNat, 17), (a.toNat, 10)]
  | .qxD d a => placed 0x30000002 [(d.toNat, 17), (a.toNat, 10)]
  | .qxBc d a i => placed 0x30000004 [(d.toNat, 17), (a.toNat, 10), (i.toNat, 0)]
  | .xlaneFlip d a b => placed 0x31000000 [(d.toNat, 17), (a.toNat, 10), (b.toNat, 3)]
  | .xlanePick d a b => placed 0x31000001 [(d.toNat, 17), (a.toNat, 10), (b.toNat, 3)]
  | .xlaneLo d a b => placed 0x31000002 [(d.toNat, 17), (a.toNat, 10), (b.toNat, 3)]
  | .xlaneHi d a b => placed 0x31000003 [(d.toNat, 17), (a.toNat, 10), (b.toNat, 3)]
  | .xlaneRot d a b => placed 0x31000004 [(d.toNat, 17), (a.toNat, 10), (b.toNat, 3)]
  | .ballot d a => placed 0x32000000 [(d.toNat, 17), (a.toNat, 10)]
  | .agreeAll d a => placed 0x32000001 [(d.toNat, 17), (a.toNat, 10)]
  | .agreeAny d a => placed 0x32000002 [(d.toNat, 17), (a.toNat, 10)]
  | .agreeSame d a => placed 0x32000003 [(d.toNat, 17), (a.toNat, 10)]
  | .redux d a k => placed 0x33000000 [(d.toNat, 17), (a.toNat, 10), (k.code, 3)]
  | .reduxXscan d a k => placed 0x33000001 [(d.toNat, 17), (a.toNat, 10), (k.code, 3)]
  | .reduxIscan d a k => placed 0x33000002 [(d.toNat, 17), (a.toNat, 10), (k.code, 3)]
  | .barInit n b => placed 0x34000000 [(n.toNat, 4), (b.toNat, 0)]
  | .barArrive b => placed 0x34020000 [(b.toNat, 0)]
  | .barWait b => placed 0x34040000 [(b.toNat, 0)]
  | .barSync b => placed 0x34060000 [(b.toNat, 0)]
  | .barSyncGang => 0x34080000
  | .gridSync => 0x340A0000
  | .cstInit a b => placed 0x35000000 [(a.toNat, 10), (b.toNat, 3)]
  | .cstPut a => placed 0x35000001 [(a.toNat, 10)]
  | .cstTake d a => placed 0x35000002 [(d.toNat, 17), (a.toNat, 10)]
  | .xregAcq => 0x36000000
  | .xregRel => 0x36000001
  | .vtNew d a => placed 0x37000000 [(d.toNat, 17), (a.toNat, 10)]
  | .vtSet a => placed 0x37000001 [(a.toNat, 10)]
  | .vtGet d => placed 0x37000002 [(d.toNat, 17)]
  | .vtDrop a => placed 0x37000003 [(a.toNat, 10)]
  | .vtMerge a => placed 0x37000004 [(a.toNat, 10)]
  | .mxMmaMom a b t p y => placed 0x38000014 [(a.toNat, 17), (b.toNat, 10), (t.toNat, 5), (p.toNat, 1), (y.toNat, 0)]
  | .mxPost a b t f p y => placed 0x38000000 [(a.toNat, 17), (b.toNat, 10), (t.toNat, 5), (f.code, 2), (p.toNat, 1), (y.toNat, 0)]
  | .mxZero t => placed 0x39000000 [(t.toNat, 5)]
  | .mxDrain d a t => placed 0x39000001 [(d.toNat, 17), (a.toNat, 10), (t.toNat, 5)]
  | .mxLd d a t => placed 0x39000002 [(d.toNat, 17), (a.toNat, 10), (t.toNat, 5)]
  | .mxBand a => placed 0x39000003 [(a.toNat, 10)]
  | .mxStat d t => placed 0x39000004 [(d.toNat, 17), (t.toNat, 5)]
  | .cuvLoadBlk a n => placed 0x3A000000 [(a.toNat, 10), (n.toNat, 3)]
  | .cuvLoadPad a n => placed 0x3A000001 [(a.toNat, 10), (n.toNat, 3)]
  | .cuvChk d n => placed 0x3A000002 [(d.toNat, 17), (n.toNat, 3)]
  | .cuvRd d n => placed 0x3A000003 [(d.toNat, 17), (n.toNat, 3)]
  | .cpG2s g x => placed 0x3B000000 [(g.toNat, 17), (x.toNat, 3)]
  | .cpS2g g x => placed 0x3B000001 [(g.toNat, 17), (x.toNat, 3)]
  | .cpS2s g y x => placed 0x3B000002 [(g.toNat, 17), (y.toNat, 4), (x.toNat, 3)]
  | .cpTG2s g x => placed 0x3B000003 [(g.toNat, 17), (x.toNat, 3)]
  | .cpTS2g g x => placed 0x3B000004 [(g.toNat, 17), (x.toNat, 3)]
  | .migPost g => placed 0x3B000005 [(g.toNat, 17)]
  | .gat d a b p z => placed 0x3C000000 [(d.toNat, 17), (a.toNat, 10), (b.toNat, 3), (p.toNat, 2), (z.toNat, 0)]
  | .objInit a b => placed 0x3D000000 [(a.toNat, 10), (b.toNat, 3)]
  | .objArrive a b => placed 0x3D000001 [(a.toNat, 10), (b.toNat, 3)]
  | .objWait a b => placed 0x3D000002 [(a.toNat, 10), (b.toNat, 3)]
  | .objWaitSt d a b => placed 0x3D000003 [(d.toNat, 17), (a.toNat, 10), (b.toNat, 3)]
  | .objPoll d a => placed 0x3D000004 [(d.toNat, 17), (a.toNat, 10)]
  | .rcpPut g => placed 0x3E000000 [(g.toNat, 10)]
  | .rcpGet g => placed 0x3E000001 [(g.toNat, 10)]
  | .ratom g o k => placed 0x3E000002 [(g.toNat, 10), (o.toNat, 8), (k.code, 3)]
  | .collPost g => placed 0x3E000003 [(g.toNat, 10)]
  | .qRd d a => placed 0x3F000000 [(d.toNat, 17), (a.toNat, 10)]
  | .qSt a b => placed 0x3F000001 [(a.toNat, 10), (b.toNat, 3)]
  | .qSub d a b => placed 0x3F000002 [(d.toNat, 17), (a.toNat, 10), (b.toNat, 3)]
  | .wpSet a => placed 0x3F000003 [(a.toNat, 10)]
  | .wpClr a => placed 0x3F00000B [(a.toNat, 10)]
  | .trcMark a => placed 0x3F000004 [(a.toNat, 10)]
  | .locQPad d a => placed 0x3F000005 [(d.toNat, 17), (a.toNat, 10)]
  | .locQVa d a => placed 0x3F00000D [(d.toNat, 17), (a.toNat, 10)]
  | .bistRun a => placed 0x3F000006 [(a.toNat, 10)]
  | .bistRd d => placed 0x3F00000E [(d.toNat, 17)]
  | .launchDev a => placed 0x3F000007 [(a.toNat, 10)]
  | .loadComplete _ _ => 0
  | .sluiceGrant _ => 0
  | .passStart _ => 0
  | .passAccumulate _ _ => 0
  | .copyPageCommit _ _ => 0
  | .gatherComplete _ _ => 0
  | .migrationPageMove _ => 0
  | .mergeApply _ => 0
  | .weirRelease _ => 0
  | .barTimeout _ _ => 0
  | .vtStarve _ _ _ => 0
  | .waitExpiry _ _ => 0
  | .waitAddrTimeout _ _ => 0
  | .yieldExpiry _ => 0
  | .quantumExpiry _ _ => 0
  | .sample _ => 0
  | .crossDieTimeout _ => 0
  | .remoteTimeout _ _ => 0
  | .collTimeout _ => 0
  | .patrolScrub _ _ _ _ => 0
  | .clockFrequencyChange _ _ => 0
  | .blockPlace _ _ _ => 0
  | .preemptRequest _ _ => 0
  | .preemptSave _ _ => 0
  | .blockRestore _ _ _ => 0
  | .jobTerminate _ => 0
  | .faultRecordWrite _ => 0
  | .completionEntryWrite _ _ => 0
  | .launchRecord _ _ => 0
  | .launchComplete _ => 0
  | .migrateRecord _ _ => 0
  | .invalidateRecord _ _ => 0
  | .invalidateComplete _ _ _ => 0
  | .markerRecord _ _ => 0
  | .slotGrant => 0
  | .packageSliceExpiry _ => 0
  | .jobAdd _ => 0
  | .jobDel _ => 0
  | .qAdd _ => 0
  | .qDel _ _ => 0
  | .doorbellTail _ _ => 0
  | .faultReplay _ _ _ _ => 0
  | .faultFail _ _ _ _ => 0
  | .extend _ => 0
  | .nonce _ => 0
  | .reportSigned => 0
  | .marginWrite _ _ => 0
  | .pcapWrite _ => 0
  | .dumpGo _ => 0
  | .dumpRel => 0
  | .dumpMarker _ _ _ _ => 0
  | .dumpHaltTimeout => 0
  | .debugResume _ => 0
  | .debugStop _ => 0
  | .debugStopAll => 0
  | .debugStep _ => 0
  | .debugPreempt _ => 0
  | .debugRelease _ => 0
  | .registerWrite _ _ _ => 0
  | .hostWindowAccess _ _ _ => 0
  | .watchReport _ => 0
  | .remoteRequest _ => 0
  | .remoteResponse _ _ => 0
  | .holdNotice _ => 0
  | .collMatch _ _ => 0
  | .flitReceive _ _ => 0
  | .replayRequest _ _ => 0
  | .pause _ _ => 0
  | .resume _ _ => 0
  | .laneFailure _ _ => 0
  | .linkDown _ => 0
  | .packageReset => 0
  | .packagePowerDown => 0
  | .recoveryLoad _ => 0
  | .linkRetrained _ => 0
  | .cuveeLoadComplete _ _ => 0
  | .cuveeCheckComplete _ _ => 0
  | .bistComplete _ _ _ _ => 0

/-- The word of an instruction with chain bit `c` (R44). -/
def encode (c : Bool) (i : Instr) : Word := BitVec.ofNat 32 (encodeNat i + c.toNat * 2 ^ 31)

/-- Whether an instruction is a word that a group issues (and not a step of another agent). -/
def Instr.isWord : Instr → Bool
  | .nop => true
  | .brk _ => true
  | .trap _ => true
  | .br _ _ => true
  | .sBr _ _ => true
  | .brx _ => true
  | .call _ => true
  | .callx _ => true
  | .ret => true
  | .exit => true
  | .fibEnd => true
  | .fibSpawn _ _ _ => true
  | .divPush _ => true
  | .divJoin => true
  | .brRot _ _ => true
  | .wait _ => true
  | .waitAddrBlk _ _ => true
  | .waitAddrPad _ _ => true
  | .yield => true
  | .sysRd _ _ => true
  | .sysWr _ _ => true
  | .add _ _ _ _ => true
  | .sub _ _ _ _ => true
  | .addSatS32 _ _ _ _ => true
  | .subSatS32 _ _ _ _ => true
  | .addSatZ32 _ _ _ _ => true
  | .subSatZ32 _ _ _ _ => true
  | .addB64 _ _ _ _ => true
  | .subB64 _ _ _ _ => true
  | .mul _ _ _ _ => true
  | .mulHiS32 _ _ _ _ => true
  | .mulHiZ32 _ _ _ _ => true
  | .mulWideS32 _ _ _ _ => true
  | .mulWideZ32 _ _ _ _ => true
  | .mad _ _ _ _ => true
  | .madWideS32 _ _ _ _ => true
  | .madWideZ32 _ _ _ _ => true
  | .and _ _ _ _ => true
  | .or _ _ _ _ => true
  | .xor _ _ _ _ => true
  | .andn _ _ _ _ => true
  | .orn _ _ _ _ => true
  | .xnor _ _ _ _ => true
  | .not _ _ _ => true
  | .shl _ _ _ _ => true
  | .shrZ32 _ _ _ _ => true
  | .shrS32 _ _ _ _ => true
  | .rol _ _ _ _ => true
  | .ror _ _ _ _ => true
  | .popc _ _ _ => true
  | .clz _ _ _ => true
  | .ctz _ _ _ => true
  | .brev _ _ _ => true
  | .bswap _ _ _ => true
  | .bfxZ32 _ _ _ _ => true
  | .bfxS32 _ _ _ _ => true
  | .bfi _ _ _ _ => true
  | .minS32 _ _ _ _ => true
  | .minZ32 _ _ _ _ => true
  | .maxS32 _ _ _ _ => true
  | .maxZ32 _ _ _ _ => true
  | .absS32 _ _ _ => true
  | .negS32 _ _ _ => true
  | .icmp _ _ _ _ _ => true
  | .movi _ _ _ => true
  | .movh _ _ _ => true
  | .iaddi _ _ _ _ => true
  | .andi _ _ _ _ => true
  | .ori _ _ _ _ => true
  | .xori _ _ _ _ => true
  | .shli _ _ _ _ => true
  | .shriZ32 _ _ _ _ => true
  | .shriS32 _ _ _ _ => true
  | .rori _ _ _ _ => true
  | .mov _ _ _ => true
  | .sel _ _ _ _ => true
  | .lea _ _ _ _ _ => true
  | .pand _ _ _ => true
  | .por _ _ _ => true
  | .pxor _ _ _ => true
  | .pSet _ _ => true
  | .pGet _ _ => true
  | .pwRd _ => true
  | .pwWr _ => true
  | .faddF32 _ _ _ _ => true
  | .fsubF32 _ _ _ _ => true
  | .faddF16x2 _ _ _ _ => true
  | .fsubF16x2 _ _ _ _ => true
  | .faddBf16x2 _ _ _ _ => true
  | .fsubBf16x2 _ _ _ _ => true
  | .faddSatF32 _ _ _ _ => true
  | .fsubSatF32 _ _ _ _ => true
  | .fmulF32 _ _ _ _ _ => true
  | .fmulF16x2 _ _ _ _ _ => true
  | .fmulBf16x2 _ _ _ _ _ => true
  | .ffmaF32 _ _ _ _ _ => true
  | .ffmaF16x2 _ _ _ _ _ => true
  | .ffmaBf16x2 _ _ _ _ _ => true
  | .fmin _ _ _ _ _ => true
  | .fmax _ _ _ _ _ => true
  | .fclass _ _ _ => true
  | .fcmp _ _ _ _ _ => true
  | .rcp _ _ _ _ => true
  | .rsq _ _ _ _ => true
  | .sqrt _ _ _ _ => true
  | .exp2 _ _ _ _ => true
  | .log2 _ _ _ _ => true
  | .sin _ _ _ _ => true
  | .cos _ _ _ _ => true
  | .tanh _ _ _ _ => true
  | .erf _ _ _ _ => true
  | .ncdf _ _ _ _ => true
  | .npdf _ _ _ _ => true
  | .packE4m3F32 _ _ _ _ => true
  | .packE5m2F32 _ _ _ _ => true
  | .packE2m1F32 _ _ _ _ => true
  | .unpackF32E4m3 _ _ _ => true
  | .unpackF32E5m2 _ _ _ => true
  | .unpackF32E2m1 _ _ _ => true
  | .cvt _ _ _ _ _ => true
  | .rngB128 _ _ => true
  | .rngF32 _ _ => true
  | .cvtSrBf16F32 _ _ _ => true
  | .cvtSrF16F32 _ _ _ => true
  | .cvtSrBf16x2F32 _ _ _ => true
  | .packSrE4m3F32 _ _ _ => true
  | .packSrE5m2F32 _ _ _ => true
  | .packSrE2m1F32 _ _ _ => true
  | .madd _ _ _ => true
  | .msub _ _ _ => true
  | .mmul _ _ _ => true
  | .mfma _ _ _ => true
  | .mscl _ _ _ => true
  | .mrelu _ _ => true
  | .mexp _ _ => true
  | .msigm _ _ => true
  | .mtanh _ _ => true
  | .mset _ _ _ => true
  | .mcolMean _ _ => true
  | .mcolVar _ _ => true
  | .mcolSmp _ _ _ => true
  | .mldBlk _ _ _ => true
  | .mldPad _ _ _ => true
  | .mstBlk _ _ _ => true
  | .mstPad _ _ _ => true
  | .ld _ _ _ _ _ _ => true
  | .st _ _ _ _ _ => true
  | .atomAccZ32 _ _ _ _ => true
  | .atomAccF32 _ _ _ _ => true
  | .atom _ _ _ _ _ => true
  | .atomCas _ _ _ _ _ => true
  | .ldVt _ _ _ _ _ => true
  | .ldVtw _ _ _ _ _ => true
  | .stMask _ _ _ _ => true
  | .ldMask _ _ _ _ => true
  | .push _ _ => true
  | .pop _ _ => true
  | .fenceGrp => true
  | .fenceBlk => true
  | .fenceGang => true
  | .fenceDev => true
  | .fenceSys => true
  | .waitLd _ => true
  | .qxH _ _ => true
  | .qxV _ _ => true
  | .qxD _ _ => true
  | .qxBc _ _ _ => true
  | .xlaneFlip _ _ _ => true
  | .xlanePick _ _ _ => true
  | .xlaneLo _ _ _ => true
  | .xlaneHi _ _ _ => true
  | .xlaneRot _ _ _ => true
  | .ballot _ _ => true
  | .agreeAll _ _ => true
  | .agreeAny _ _ => true
  | .agreeSame _ _ => true
  | .redux _ _ _ => true
  | .reduxXscan _ _ _ => true
  | .reduxIscan _ _ _ => true
  | .barInit _ _ => true
  | .barArrive _ => true
  | .barWait _ => true
  | .barSync _ => true
  | .barSyncGang => true
  | .gridSync => true
  | .cstInit _ _ => true
  | .cstPut _ => true
  | .cstTake _ _ => true
  | .xregAcq => true
  | .xregRel => true
  | .vtNew _ _ => true
  | .vtSet _ => true
  | .vtGet _ => true
  | .vtDrop _ => true
  | .vtMerge _ => true
  | .mxMmaMom _ _ _ _ _ => true
  | .mxPost _ _ _ _ _ _ => true
  | .mxZero _ => true
  | .mxDrain _ _ _ => true
  | .mxLd _ _ _ => true
  | .mxBand _ => true
  | .mxStat _ _ => true
  | .cuvLoadBlk _ _ => true
  | .cuvLoadPad _ _ => true
  | .cuvChk _ _ => true
  | .cuvRd _ _ => true
  | .cpG2s _ _ => true
  | .cpS2g _ _ => true
  | .cpS2s _ _ _ => true
  | .cpTG2s _ _ => true
  | .cpTS2g _ _ => true
  | .migPost _ => true
  | .gat _ _ _ _ _ => true
  | .objInit _ _ => true
  | .objArrive _ _ => true
  | .objWait _ _ => true
  | .objWaitSt _ _ _ => true
  | .objPoll _ _ => true
  | .rcpPut _ => true
  | .rcpGet _ => true
  | .ratom _ _ _ => true
  | .collPost _ => true
  | .qRd _ _ => true
  | .qSt _ _ => true
  | .qSub _ _ _ => true
  | .wpSet _ => true
  | .wpClr _ => true
  | .trcMark _ => true
  | .locQPad _ _ => true
  | .locQVa _ _ => true
  | .bistRun _ => true
  | .bistRd _ => true
  | .launchDev _ => true
  | .loadComplete _ _ => false
  | .sluiceGrant _ => false
  | .passStart _ => false
  | .passAccumulate _ _ => false
  | .copyPageCommit _ _ => false
  | .gatherComplete _ _ => false
  | .migrationPageMove _ => false
  | .mergeApply _ => false
  | .weirRelease _ => false
  | .barTimeout _ _ => false
  | .vtStarve _ _ _ => false
  | .waitExpiry _ _ => false
  | .waitAddrTimeout _ _ => false
  | .yieldExpiry _ => false
  | .quantumExpiry _ _ => false
  | .sample _ => false
  | .crossDieTimeout _ => false
  | .remoteTimeout _ _ => false
  | .collTimeout _ => false
  | .patrolScrub _ _ _ _ => false
  | .clockFrequencyChange _ _ => false
  | .blockPlace _ _ _ => false
  | .preemptRequest _ _ => false
  | .preemptSave _ _ => false
  | .blockRestore _ _ _ => false
  | .jobTerminate _ => false
  | .faultRecordWrite _ => false
  | .completionEntryWrite _ _ => false
  | .launchRecord _ _ => false
  | .launchComplete _ => false
  | .migrateRecord _ _ => false
  | .invalidateRecord _ _ => false
  | .invalidateComplete _ _ _ => false
  | .markerRecord _ _ => false
  | .slotGrant => false
  | .packageSliceExpiry _ => false
  | .jobAdd _ => false
  | .jobDel _ => false
  | .qAdd _ => false
  | .qDel _ _ => false
  | .doorbellTail _ _ => false
  | .faultReplay _ _ _ _ => false
  | .faultFail _ _ _ _ => false
  | .extend _ => false
  | .nonce _ => false
  | .reportSigned => false
  | .marginWrite _ _ => false
  | .pcapWrite _ => false
  | .dumpGo _ => false
  | .dumpRel => false
  | .dumpMarker _ _ _ _ => false
  | .dumpHaltTimeout => false
  | .debugResume _ => false
  | .debugStop _ => false
  | .debugStopAll => false
  | .debugStep _ => false
  | .debugPreempt _ => false
  | .debugRelease _ => false
  | .registerWrite _ _ _ => false
  | .hostWindowAccess _ _ _ => false
  | .watchReport _ => false
  | .remoteRequest _ => false
  | .remoteResponse _ _ => false
  | .holdNotice _ => false
  | .collMatch _ _ => false
  | .flitReceive _ _ => false
  | .replayRequest _ _ => false
  | .pause _ _ => false
  | .resume _ _ => false
  | .laneFailure _ _ => false
  | .linkDown _ => false
  | .packageReset => false
  | .packagePowerDown => false
  | .recoveryLoad _ => false
  | .linkRetrained _ => false
  | .cuveeLoadComplete _ _ => false
  | .cuveeCheckComplete _ _ => false
  | .bistComplete _ _ _ _ => false

/-- The instruction this decoder reads from an instruction of `nbits` bits with the value `w`: its bytes are laid out
little-endian (R13, R36), bits above `nbits` being 0. An instruction is one 32-bit word. -/
def decodeTableWord (nbits w : Nat) : Option Instr :=
  match decode (BitVec.ofNat 32 (w % 2 ^ nbits)) with
  | .ok i => some i
  | .error _ => none

end Sys2Proof
end

