-- ==== Sys2Proof/Machine/Operands.lean ====
section
/-!
DEFINITION. The operands of every instruction word: the register class each field names, and whether it is read or written
(R46, and the tables of each instruction). The checks that depend on a word's fields alone (R53), the registers a chain's
words write (R47) and the sources and destinations of the scoreboard (R43) all read this one table.
-/

namespace Sys2Proof

open Machine (countFrom)

/-- A register class of R46: a run of v registers with its alignment, a moment, a predicate (with or without negation), the
predicate word (named by no field), a quarantined register. -/
inductive Cls where
  | v (len align : Nat)
  | m
  | p (neg : Bool)
  | pw
  | q
  deriving DecidableEq, Repr

/-- An operand: its field number of R53, the field's value, its class, and whether it is read and written. -/
structure Opnd where
  field : Nat
  n : Nat
  cls : Cls
  rd : Bool
  wr : Bool
  deriving DecidableEq, Repr

namespace Opnd
def rd_ (f : Nat) (r : Reg) (len align : Nat) : Opnd := ⟨f, r.toNat, .v len align, true, false⟩
def wr_ (f : Nat) (r : Reg) (len align : Nat) : Opnd := ⟨f, r.toNat, .v len align, false, true⟩
def rw_ (f : Nat) (r : Reg) (len align : Nat) : Opnd := ⟨f, r.toNat, .v len align, true, true⟩
def w1 (r : Reg) : Opnd := wr_ 1 r 1 1
def r2 (r : Reg) : Opnd := rd_ 2 r 1 1
def r3 (r : Reg) : Opnd := rd_ 3 r 1 1
/-- A predicate source; negation is accepted. -/
def pr (f : Nat) (r : Reg) : Opnd := ⟨f, r.toNat, .p true, true, false⟩
/-- A predicate destination; negation is not accepted. -/
def pd (f : Nat) (r : Reg) : Opnd := ⟨f, r.toNat, .p false, false, true⟩
def mr (f : Nat) (r : Reg) : Opnd := ⟨f, r.toNat, .m, true, false⟩
def mw (f : Nat) (r : Reg) : Opnd := ⟨f, r.toNat, .m, false, true⟩
def mrw (f : Nat) (r : Reg) : Opnd := ⟨f, r.toNat, .m, true, true⟩
def pwr : Opnd := ⟨0, 0, .pw, true, false⟩
def pww : Opnd := ⟨0, 0, .pw, false, true⟩
def qr (f : Nat) (r : Reg) : Opnd := ⟨f, r.toNat, .q, true, false⟩
def qw (f : Nat) (r : Reg) : Opnd := ⟨f, r.toNat, .q, false, true⟩
/-- A register that the word reads or writes as a value it reads first says. -/
def named (f : Nat) (r : Reg) : Opnd := ⟨f, r.toNat, .v 1 1, false, false⟩
end Opnd

open Opnd

/-- Registers of an `ld` type (R154). -/
def LdTy.regs : LdTy → Nat
  | .b64 => 2
  | .b128 => 4
  | _ => 1

/-- Registers of an `st` type (R154). -/
def StTy.regs : StTy → Nat
  | .b64 => 2
  | .b128 => 4
  | _ => 1

/-- Registers of an `atom` operation (R159). -/
def AOp.regs : AOp → Nat
  | .addB64 => 2
  | .exchB64 => 2
  | _ => 1

/-- Registers of the A run of a post (R188). -/
def MxFmt.regs : MxFmt → Nat
  | .bf16 | .f16 => 32
  | .e4m3 | .e5m2 => 16
  | .e2m1 => 10

/-- One register for `.b32`, a pair for `.b64`. -/
def regs64 (z : Bool) : Nat := if z then 2 else 1

/-- Registers of a system-register selector (R104): GSR is a pair. -/
def sysRegs (k : BitVec 8) : Nat := if k.toNat = 0x10 then 2 else 1

/-- The operands of an instruction word. -/
def Instr.operands : Instr → List Opnd
  | .nop => []
  | .brk _ => []
  | .trap _ => []
  | .br p _ => [pr 1 p]
  | .sBr p _ => [pr 1 p]
  | .brx a => [r2 a]
  | .call _ => []
  | .callx a => [r2 a]
  | .ret => []
  | .exit => []
  | .fibEnd => []
  | .fibSpawn d a b => [w1 d, r2 a, pd 3 b]
  | .divPush _ => []
  | .divJoin => []
  | .brRot p _ => [pr 1 p]
  | .wait a => [r2 a]
  | .waitAddrBlk a _ => [r2 a]
  | .waitAddrPad a _ => [r2 a]
  | .yield => []
  | .sysRd d k => [wr_ 1 d (sysRegs k) (sysRegs k)]
  | .sysWr a k => [rd_ 2 a (sysRegs k) (sysRegs k)]
  | .add _ d a b => [w1 d, r2 a, r3 b]
  | .sub _ d a b => [w1 d, r2 a, r3 b]
  | .addSatS32 _ d a b => [w1 d, r2 a, r3 b]
  | .subSatS32 _ d a b => [w1 d, r2 a, r3 b]
  | .addSatZ32 _ d a b => [w1 d, r2 a, r3 b]
  | .subSatZ32 _ d a b => [w1 d, r2 a, r3 b]
  | .addB64 _ d a b => [wr_ 1 d 2 2, rd_ 2 a 2 2, rd_ 3 b 2 2]
  | .subB64 _ d a b => [wr_ 1 d 2 2, rd_ 2 a 2 2, rd_ 3 b 2 2]
  | .mul _ d a b => [w1 d, r2 a, r3 b]
  | .mulHiS32 _ d a b => [w1 d, r2 a, r3 b]
  | .mulHiZ32 _ d a b => [w1 d, r2 a, r3 b]
  | .mulWideS32 _ d a b => [wr_ 1 d 2 2, r2 a, r3 b]
  | .mulWideZ32 _ d a b => [wr_ 1 d 2 2, r2 a, r3 b]
  | .mad _ d a b => [rw_ 1 d 1 1, r2 a, r3 b]
  | .madWideS32 _ d a b => [rw_ 1 d 2 2, r2 a, r3 b]
  | .madWideZ32 _ d a b => [rw_ 1 d 2 2, r2 a, r3 b]
  | .and _ d a b => [w1 d, r2 a, r3 b]
  | .or _ d a b => [w1 d, r2 a, r3 b]
  | .xor _ d a b => [w1 d, r2 a, r3 b]
  | .andn _ d a b => [w1 d, r2 a, r3 b]
  | .orn _ d a b => [w1 d, r2 a, r3 b]
  | .xnor _ d a b => [w1 d, r2 a, r3 b]
  | .not _ d a => [w1 d, r2 a]
  | .shl _ d a b => [w1 d, r2 a, r3 b]
  | .shrZ32 _ d a b => [w1 d, r2 a, r3 b]
  | .shrS32 _ d a b => [w1 d, r2 a, r3 b]
  | .rol _ d a b => [w1 d, r2 a, r3 b]
  | .ror _ d a b => [w1 d, r2 a, r3 b]
  | .popc _ d a => [w1 d, r2 a]
  | .clz _ d a => [w1 d, r2 a]
  | .ctz _ d a => [w1 d, r2 a]
  | .brev _ d a => [w1 d, r2 a]
  | .bswap _ d a => [w1 d, r2 a]
  | .bfxZ32 _ d a b => [w1 d, r2 a, r3 b]
  | .bfxS32 _ d a b => [w1 d, r2 a, r3 b]
  | .bfi _ d a b => [rw_ 1 d 1 1, r2 a, r3 b]
  | .minS32 _ d a b => [w1 d, r2 a, r3 b]
  | .minZ32 _ d a b => [w1 d, r2 a, r3 b]
  | .maxS32 _ d a b => [w1 d, r2 a, r3 b]
  | .maxZ32 _ d a b => [w1 d, r2 a, r3 b]
  | .absS32 _ d a => [w1 d, r2 a]
  | .negS32 _ d a => [w1 d, r2 a]
  | .icmp _ d a b _ => [pd 1 d, r2 a, r3 b]
  | .movi _ d _ => [w1 d]
  | .movh _ d _ => [rw_ 1 d 1 1]
  | .iaddi _ d a _ => [w1 d, r2 a]
  | .andi _ d a _ => [w1 d, r2 a]
  | .ori _ d a _ => [w1 d, r2 a]
  | .xori _ d a _ => [w1 d, r2 a]
  | .shli _ d a _ => [w1 d, r2 a]
  | .shriZ32 _ d a _ => [w1 d, r2 a]
  | .shriS32 _ d a _ => [w1 d, r2 a]
  | .rori _ d a _ => [w1 d, r2 a]
  | .mov _ d a => [w1 d, r2 a]
  | .sel _ d a b => [rw_ 1 d 1 1, r2 a, r3 b]
  | .lea _ d a b _ => [w1 d, r2 a, r3 b]
  | .pand d a b => [pd 1 d, pr 2 a, pr 3 b]
  | .por d a b => [pd 1 d, pr 2 a, pr 3 b]
  | .pxor d a b => [pd 1 d, pr 2 a, pr 3 b]
  | .pSet d a => [pd 1 d, r2 a]
  | .pGet d a => [w1 d, pr 2 a]
  | .pwRd d => [w1 d, pwr]
  | .pwWr a => [r2 a, pww]
  | .faddF32 _ d a b => [w1 d, r2 a, r3 b]
  | .fsubF32 _ d a b => [w1 d, r2 a, r3 b]
  | .faddF16x2 _ d a b => [w1 d, r2 a, r3 b]
  | .fsubF16x2 _ d a b => [w1 d, r2 a, r3 b]
  | .faddBf16x2 _ d a b => [w1 d, r2 a, r3 b]
  | .fsubBf16x2 _ d a b => [w1 d, r2 a, r3 b]
  | .faddSatF32 _ d a b => [w1 d, r2 a, r3 b]
  | .fsubSatF32 _ d a b => [w1 d, r2 a, r3 b]
  | .fmulF32 _ d a b _ => [w1 d, r2 a, r3 b]
  | .fmulF16x2 _ d a b _ => [w1 d, r2 a, r3 b]
  | .fmulBf16x2 _ d a b _ => [w1 d, r2 a, r3 b]
  | .ffmaF32 _ d a b _ => [rw_ 1 d 1 1, r2 a, r3 b]
  | .ffmaF16x2 _ d a b _ => [rw_ 1 d 1 1, r2 a, r3 b]
  | .ffmaBf16x2 _ d a b _ => [rw_ 1 d 1 1, r2 a, r3 b]
  | .fmin _ d a b _ => [w1 d, r2 a, r3 b]
  | .fmax _ d a b _ => [w1 d, r2 a, r3 b]
  | .fclass _ d a => [w1 d, r2 a]
  | .fcmp _ d a b _ => [pd 1 d, r2 a, r3 b]
  | .rcp _ d a _ => [w1 d, r2 a]
  | .rsq _ d a _ => [w1 d, r2 a]
  | .sqrt _ d a _ => [w1 d, r2 a]
  | .exp2 _ d a _ => [w1 d, r2 a]
  | .log2 _ d a _ => [w1 d, r2 a]
  | .sin _ d a _ => [w1 d, r2 a]
  | .cos _ d a _ => [w1 d, r2 a]
  | .tanh _ d a _ => [w1 d, r2 a]
  | .erf _ d a _ => [w1 d, r2 a]
  | .ncdf _ d a _ => [w1 d, r2 a]
  | .npdf _ d a _ => [w1 d, r2 a]
  | .packE4m3F32 _ d a _ => [w1 d, rd_ 2 a 4 4]
  | .packE5m2F32 _ d a _ => [w1 d, rd_ 2 a 4 4]
  | .packE2m1F32 _ d a _ => [w1 d, rd_ 2 a 8 8]
  | .unpackF32E4m3 _ d a => [wr_ 1 d 4 4, r2 a]
  | .unpackF32E5m2 _ d a => [wr_ 1 d 4 4, r2 a]
  | .unpackF32E2m1 _ d a => [wr_ 1 d 8 8, r2 a]
  | .cvt _ d a _ _ => [w1 d, r2 a]
  | .rngB128 d a => [wr_ 1 d 4 4, r2 a]
  | .rngF32 d a => [w1 d, r2 a]
  | .cvtSrBf16F32 d a b => [w1 d, r2 a, r3 b]
  | .cvtSrF16F32 d a b => [w1 d, r2 a, r3 b]
  | .cvtSrBf16x2F32 d a b => [w1 d, rd_ 2 a 2 2, r3 b]
  | .packSrE4m3F32 d a b => [w1 d, rd_ 2 a 4 4, r3 b]
  | .packSrE5m2F32 d a b => [w1 d, rd_ 2 a 4 4, r3 b]
  | .packSrE2m1F32 d a b => [w1 d, rd_ 2 a 8 8, r3 b]
  | .madd d a b => [mw 1 d, mr 2 a, mr 3 b]
  | .msub d a b => [mw 1 d, mr 2 a, mr 3 b]
  | .mmul d a b => [mw 1 d, mr 2 a, mr 3 b]
  | .mfma d a b => [mrw 1 d, mr 2 a, mr 3 b]
  | .mscl d a b => [mw 1 d, mr 2 a, r3 b]
  | .mrelu d a => [mw 1 d, mr 2 a]
  | .mexp d a => [mw 1 d, mr 2 a]
  | .msigm d a => [mw 1 d, mr 2 a]
  | .mtanh d a => [mw 1 d, mr 2 a]
  | .mset d a b => [mw 1 d, r2 a, r3 b]
  | .mcolMean d a => [w1 d, mr 2 a]
  | .mcolVar d a => [w1 d, mr 2 a]
  | .mcolSmp d a b => [w1 d, mr 2 a, r3 b]
  | .mldBlk d g _ => [mw 1 d, r2 g]
  | .mldPad d g _ => [mw 1 d, r2 g]
  | .mstBlk d g _ => [mr 1 d, r2 g]
  | .mstPad d g _ => [mr 1 d, r2 g]
  | .ld _ d g _ _ t => [wr_ 1 d t.regs t.regs, r2 g]
  | .st d g _ _ t => [rd_ 1 d t.regs t.regs, r2 g]
  | .atomAccZ32 d a _ _ => [rw_ 1 d 1 1, r2 a]
  | .atomAccF32 d a _ _ => [rw_ 1 d 1 1, r2 a]
  | .atom d a k _ _ => [rw_ 1 d k.regs k.regs, r2 a]
  | .atomCas d a z _ _ => [rd_ 1 d (if z then 4 else 2) (if z then 4 else 2), wr_ 1 d (if z then 2 else 1) 1, r2 a]
  | .ldVt d a b _ z => [wr_ 1 d (regs64 z) (regs64 z), r2 a, r3 b]
  | .ldVtw d a b _ z => [wr_ 1 d (regs64 z) (regs64 z), r2 a, r3 b]
  | .stMask d g _ _ => [pr 1 d, r2 g]
  | .ldMask d g _ _ => [pd 1 d, r2 g]
  | .push d z => [rd_ 1 d (regs64 z) (regs64 z)]
  | .pop d z => [wr_ 1 d (regs64 z) (regs64 z)]
  | .fenceGrp => []
  | .fenceBlk => []
  | .fenceGang => []
  | .fenceDev => []
  | .fenceSys => []
  | .waitLd _ => []
  | .qxH d a => [w1 d, r2 a]
  | .qxV d a => [w1 d, r2 a]
  | .qxD d a => [w1 d, r2 a]
  | .qxBc d a _ => [w1 d, r2 a]
  | .xlaneFlip d a b => [w1 d, r2 a, r3 b]
  | .xlanePick d a b => [w1 d, r2 a, r3 b]
  | .xlaneLo d a b => [w1 d, r2 a, r3 b]
  | .xlaneHi d a b => [w1 d, r2 a, r3 b]
  | .xlaneRot d a b => [w1 d, r2 a, r3 b]
  | .ballot d a => [wr_ 1 d 2 2, pr 2 a]
  | .agreeAll d a => [pd 1 d, pr 2 a]
  | .agreeAny d a => [pd 1 d, pr 2 a]
  | .agreeSame d a => [pd 1 d, pr 2 a]
  | .redux d a _ => [w1 d, r2 a]
  | .reduxXscan d a _ => [w1 d, r2 a]
  | .reduxIscan d a _ => [w1 d, r2 a]
  | .barInit _ _ => []
  | .barArrive _ => []
  | .barWait _ => []
  | .barSync _ => []
  | .barSyncGang => []
  | .gridSync => []
  | .cstInit a b => [r2 a, r3 b]
  | .cstPut a => [r2 a]
  | .cstTake d a => [w1 d, r2 a]
  | .xregAcq => []
  | .xregRel => []
  | .vtNew d a => [w1 d, r2 a]
  | .vtSet a => [r2 a]
  | .vtGet d => [w1 d]
  | .vtDrop a => [r2 a]
  | .vtMerge a => [r2 a]
  | .mxMmaMom _ b _ _ y => rd_ 3 b (if y then 3 else 2) (if y then 4 else 2) :: (countFrom 0 16).map fun k => ⟨2, k, .m, true, false⟩
  | .mxPost a b _ f _ y => [rd_ 2 a f.regs 1, rd_ 3 b (if y then 3 else 2) (if y then 4 else 2)]
  | .mxZero _ => []
  | .mxDrain d a _ => [named 1 d, r2 a]
  | .mxLd d a _ => [rd_ 1 d 1 1, r2 a]
  | .mxBand a => [r2 a]
  | .mxStat d _ => [w1 d]
  | .cuvLoadBlk a _ => [r2 a]
  | .cuvLoadPad a _ => [r2 a]
  | .cuvChk d _ => [wr_ 1 d 2 2]
  | .cuvRd d _ => [wr_ 1 d 2 2]
  | .cpG2s g _ => [rd_ 1 g 6 8]
  | .cpS2g g _ => [rd_ 1 g 6 8]
  | .cpS2s g _ _ => [rd_ 1 g 6 8]
  | .cpTG2s g _ => [rd_ 1 g 6 8]
  | .cpTS2g g _ => [rd_ 1 g 6 8]
  | .migPost g => [rd_ 1 g 6 8]
  | .gat d a b _ _ => [rd_ 1 d 2 2, r2 a, r3 b]
  | .objInit a b => [r2 a, r3 b]
  | .objArrive a b => [r2 a, r3 b]
  | .objWait a b => [r2 a, r3 b]
  | .objWaitSt d a b => [wr_ 1 d 2 2, r2 a, r3 b]
  | .objPoll d a => [wr_ 1 d 2 2, r2 a]
  | .rcpPut g => [rd_ 2 g 8 8]
  | .rcpGet g => [rd_ 2 g 8 8]
  | .ratom g _ _ => [rd_ 2 g 8 8]
  | .collPost g => [rd_ 2 g 8 8]
  | .qRd d a => [qw 1 d, qr 2 a]
  | .qSt a b => [qr 2 a, r3 b]
  | .qSub d a b => [qw 1 d, qr 2 a, qr 3 b]
  | .wpSet a => [rd_ 2 a 2 2]
  | .wpClr a => [rd_ 2 a 2 2]
  | .trcMark a => [r2 a]
  | .locQPad d a => [w1 d, r2 a]
  | .locQVa d a => [w1 d, rd_ 2 a 2 2]
  | .bistRun a => [r2 a]
  | .bistRd d => [w1 d]
  | .launchDev a => [rd_ 2 a 2 2]
  | .loadComplete _ _ => []
  | .sluiceGrant _ => []
  | .passStart _ => []
  | .passAccumulate _ _ => []
  | .copyPageCommit _ _ => []
  | .gatherComplete _ _ => []
  | .migrationPageMove _ => []
  | .mergeApply _ => []
  | .weirRelease _ => []
  | .barTimeout _ _ => []
  | .vtStarve _ _ _ => []
  | .waitExpiry _ _ => []
  | .waitAddrTimeout _ _ => []
  | .yieldExpiry _ => []
  | .quantumExpiry _ _ => []
  | .sample _ => []
  | .crossDieTimeout _ => []
  | .remoteTimeout _ _ => []
  | .collTimeout _ => []
  | .patrolScrub _ _ _ _ => []
  | .clockFrequencyChange _ _ => []
  | .blockPlace _ _ _ => []
  | .preemptRequest _ _ => []
  | .preemptSave _ _ => []
  | .blockRestore _ _ _ => []
  | .jobTerminate _ => []
  | .faultRecordWrite _ => []
  | .completionEntryWrite _ _ => []
  | .launchRecord _ _ => []
  | .launchComplete _ => []
  | .migrateRecord _ _ => []
  | .invalidateRecord _ _ => []
  | .invalidateComplete _ _ _ => []
  | .markerRecord _ _ => []
  | .slotGrant => []
  | .packageSliceExpiry _ => []
  | .jobAdd _ => []
  | .jobDel _ => []
  | .qAdd _ => []
  | .qDel _ _ => []
  | .doorbellTail _ _ => []
  | .faultReplay _ _ _ _ => []
  | .faultFail _ _ _ _ => []
  | .extend _ => []
  | .nonce _ => []
  | .reportSigned => []
  | .marginWrite _ _ => []
  | .pcapWrite _ => []
  | .dumpGo _ => []
  | .dumpRel => []
  | .dumpMarker _ _ _ _ => []
  | .dumpHaltTimeout => []
  | .debugResume _ => []
  | .debugStop _ => []
  | .debugStopAll => []
  | .debugStep _ => []
  | .debugPreempt _ => []
  | .debugRelease _ => []
  | .registerWrite _ _ _ => []
  | .hostWindowAccess _ _ _ => []
  | .watchReport _ => []
  | .remoteRequest _ => []
  | .remoteResponse _ _ => []
  | .holdNotice _ => []
  | .collMatch _ _ => []
  | .flitReceive _ _ => []
  | .replayRequest _ _ => []
  | .pause _ _ => []
  | .resume _ _ => []
  | .laneFailure _ _ => []
  | .linkDown _ => []
  | .packageReset => []
  | .packagePowerDown => []
  | .recoveryLoad _ => []
  | .linkRetrained _ => []
  | .cuveeLoadComplete _ _ => []
  | .cuveeCheckComplete _ _ => []
  | .bistComplete _ _ _ _ => []

/-! ### Uses of the table -/

/-- Whether `sys.rd` lists a selector (R104). -/
def sysListed (k : Nat) : Bool :=
  [0, 1, 2, 3, 4, 5, 6, 8, 9, 0xA, 0xB, 0xC, 0xE, 0xF, 0x10, 0x18, 0x20, 0x21, 0x22].contains k

/-- Whether `sys.wr` may write a selector (R104). -/
def sysWritable (k : Nat) : Bool := [0x10, 0x18, 0x20].contains k

/-- The reason of R53 for which an operand's field is refused, from the field alone (R46): 11 class range and odd pair,
12 a run's base (log 14). -/
def Opnd.bad (o : Opnd) : Option Nat :=
  match o.cls with
  | .v len align =>
    if o.n % align ≠ 0 then some (if align = 2 ∧ len = 2 then 11 else 12)
    else if 128 < o.n + len then some 12
    else none
  | .m => if 15 < o.n then some 11 else none
  | .p neg => if 31 < o.n ∨ (neg = false ∧ 15 < o.n) then some 11 else none
  | .pw => none
  | .q => if 7 < o.n then some 11 else none

/-- The lowest reason, and within it the lowest field, of a list of causes (R53). -/
def lowestCause : List (Nat × Nat) → Option (Nat × Nat)
  | [] => none
  | (r, f) :: cs =>
    match lowestCause cs with
    | none => some (r, f)
    | some (r', f') => if r < r' ∨ (r = r' ∧ f ≤ f') then some (r, f) else some (r', f')

/-- Causes of ILLEGAL_OPERAND in a field that is no register: (reason, field). -/
def Instr.fieldCauses : Instr → List (Nat × Nat)
  | .sysRd _ k => if sysListed k.toNat then [] else [(12, 3)]
  | .sysWr _ k => if sysWritable k.toNat then [] else [(12, 3)]
  | .waitLd n => if 63 < n.toNat then [(12, 3)] else []
  | .barInit n _ => if n.toNat = 0 ∨ 16 < n.toNat then [(12, 3)] else []
  | .cuvLoadBlk _ n => if n.toNat = 0 ∨ 15 < n.toNat then [(12, 3)] else []
  | .cuvLoadPad _ n => if n.toNat = 0 ∨ 15 < n.toNat then [(12, 3)] else []
  | .cuvChk _ n => if n.toNat = 0 ∨ 15 < n.toNat then [(12, 3)] else []
  | .cuvRd _ n => if 15 < n.toNat then [(12, 3)] else []
  | .mxMmaMom a _ t _ _ => (if a.toNat / 4 ≠ 0 then [(12, 2)] else []) ++ (if 15 < t.toNat then [(12, 3)] else [])
  | .qRd d _ => if d.toNat < 5 ∨ 7 < d.toNat then [(12, 1)] else []
  | .qSub d _ _ => if d.toNat < 5 ∨ 7 < d.toNat then [(12, 1)] else []
  | _ => []

/-- The ILLEGAL_OPERAND that an instruction's fields alone cause: reason and field (R46, R53). -/
def Instr.fieldFault (i : Instr) : Option (Nat × Nat) :=
  lowestCause ((i.operands.filterMap fun o => o.bad.map fun r => (r, o.field)) ++ i.fieldCauses)

/-- The v registers an operand names. -/
def Opnd.vregs (o : Opnd) : List Nat :=
  match o.cls with
  | .v len _ => countFrom o.n len
  | _ => []

/-- The lowest field among some operands. -/
def lowestField : List Opnd → Option Nat
  | [] => none
  | o :: os =>
    match lowestField os with
    | none => some o.field
    | some f => some (min o.field f)

/-- The field of an operand that names v64 to v127 (R46). -/
def extendedField (os : List Opnd) : Option Nat :=
  lowestField (os.filter fun o => o.vregs.any fun n => decide (64 ≤ n))

/-- The field of a destination that names a reserved divergence register, for a declared depth `dd` (R32). -/
def divRegField (dd : Nat) (os : List Opnd) : Option Nat :=
  lowestField (os.filter fun o => o.wr && o.vregs.any fun n => decide (32 - dd ≤ n) && decide (n < 32))

/-- The registers, predicates and predicate word that an instruction writes, numbered apart, for the chain rule (R47). p15 counts as any other
predicate, though a write to it has no effect, and the registers of `mx.drain`, which its control word names, count as none (log 55). -/
def Opnd.targets (o : Opnd) : List Nat :=
  if o.wr then
    match o.cls with
    | .v len _ => countFrom o.n len
    | .m => [128 + o.n]
    | .p _ => [256 + o.n % 16]
    | .pw => countFrom 256 17
    | .q => [512 + o.n]
  else []

def Instr.targets (i : Instr) : List Nat := i.operands.flatMap Opnd.targets

/-- The pipes (R50, R134). -/
inductive Pipe where
  | alu | fpu | sfu | mem | ctl | mx
  deriving DecidableEq, Repr

/-- The pipe of a primary opcode (R50); a reserved one has none. -/
def pipeOf (op : Nat) : Option Pipe :=
  if op < 0x08 then some .ctl
  else if op < 0x18 then some .alu
  else if op = 0x1D ∨ op = 0x21 then some .sfu
  else if op = 0x23 then some .mem
  else if op < 0x24 then some .fpu
  else if op < 0x28 then none
  else if op < 0x34 then some .mem
  else if op = 0x34 ∨ op = 0x36 ∨ op = 0x37 ∨ op = 0x3F then some .ctl
  else if op = 0x38 ∨ op = 0x39 ∨ op = 0x3A then some .mx
  else some .mem

/-- The order in which the words of a chain take effect; no order can be observed (R49), but the control word is last. -/
def Pipe.order : Pipe → Nat
  | .alu => 0
  | .fpu => 1
  | .sfu => 2
  | .mem => 3
  | .mx => 4
  | .ctl => 5

/-- Issues a pipe accepts in a die cycle (R134). -/
def Pipe.width : Pipe → Nat
  | .alu => 2
  | .fpu => 2
  | .ctl => 2
  | .sfu => 1
  | .mem => 1
  | .mx => 1

/-- The latency of a result by its primary opcode, where it is fixed (R41). -/
def latencyOf (op : Nat) : Nat :=
  if op < 0x08 then 3
  else if op < 0x18 then 2
  else if op = 0x1D ∨ op = 0x21 then 10
  else if op = 0x20 ∨ op = 0x22 then 6
  else if op < 0x20 then 4
  else if op = 0x33 then 8
  else if op = 0x30 ∨ op = 0x31 ∨ op = 0x32 then 4
  else if op = 0x3F ∨ op = 0x37 then 3
  else if op = 0x39 ∨ op = 0x3A then 4
  else if op = 0x3D then 4
  else 12

/-- The latency of an instruction's results (R41). -/
def Instr.latency (i : Instr) : Nat := latencyOf (encodeNat i / 2 ^ 24 % 64)

/-- Words that can change the program counter or hold their batch, and so stand last in a chain (R47, R48). -/
def Instr.standsLast : Instr → Bool
  | .br _ _ | .sBr _ _ | .brx _ | .call _ | .callx _ | .ret | .brRot _ _ | .exit | .fibEnd | .divJoin | .wait _ | .yield => true
  | .waitAddrBlk _ _ | .waitAddrPad _ _ | .xregAcq | .waitLd _ => true
  | .fenceGrp | .fenceBlk | .fenceGang | .fenceDev | .fenceSys => true
  | .barArrive _ | .barWait _ | .barSync _ | .barSyncGang | .gridSync => true
  | .cstPut _ | .cstTake _ _ | .objWait _ _ | .objWaitSt _ _ _ => true
  | .vtNew _ _ | .vtDrop _ | .vtMerge _ => true
  | .mxZero _ | .mxDrain _ _ _ | .mxLd _ _ _ | .cuvLoadBlk _ _ | .cuvLoadPad _ _ | .cuvChk _ _ => true
  | .cpG2s _ _ | .cpS2g _ _ | .cpS2s _ _ _ | .cpTG2s _ _ | .cpTS2g _ _ | .migPost _ => true
  | .rcpPut _ | .rcpGet _ | .ratom _ _ _ | .collPost _ => true
  | .launchDev _ | .wpSet _ | .wpClr _ | .bistRun _ => true
  | _ => false

/-- Whether the uniformity check compares a source: in `st.mask` the base alone is the leader's (R52, R162). -/
def Instr.compares (i : Instr) (o : Opnd) : Bool :=
  match i with
  | .stMask _ _ _ _ => decide (o.field = 2)
  | _ => true

/-- A load or an atomic of a fibre: the words that an uncorrectable error stops precisely (R276). -/
def Instr.isFibreRead : Instr → Bool
  | .mldBlk _ _ _ | .mldPad _ _ _ | .ld _ _ _ _ _ _ | .atomAccZ32 _ _ _ _ | .atomAccF32 _ _ _ _ | .atom _ _ _ _ _ | .atomCas _ _ _ _ _
  | .ldVt _ _ _ _ _ | .ldVtw _ _ _ _ _ | .ldMask _ _ _ _ | .pop _ _ | .mxLd _ _ _ | .cuvLoadBlk _ _ | .cuvLoadPad _ _ => true
  | _ => false

/-- Whether a word has its S bit set: it executes once, with its leader's sources (R51). `s.br` is the form of `br` with S set (R96). -/
def Instr.scalar : Instr → Bool
  | .sBr _ _ => true
  | .add s _ _ _ | .sub s _ _ _ | .addSatS32 s _ _ _ | .subSatS32 s _ _ _ | .addSatZ32 s _ _ _ | .subSatZ32 s _ _ _
  | .addB64 s _ _ _ | .subB64 s _ _ _ | .mul s _ _ _ | .mulHiS32 s _ _ _ | .mulHiZ32 s _ _ _ | .mulWideS32 s _ _ _
  | .mulWideZ32 s _ _ _ | .mad s _ _ _ | .madWideS32 s _ _ _ | .madWideZ32 s _ _ _ | .and s _ _ _ | .or s _ _ _ | .xor s _ _ _
  | .andn s _ _ _ | .orn s _ _ _ | .xnor s _ _ _ | .not s _ _ | .shl s _ _ _ | .shrZ32 s _ _ _ | .shrS32 s _ _ _ | .rol s _ _ _
  | .ror s _ _ _ | .popc s _ _ | .clz s _ _ | .ctz s _ _ | .brev s _ _ | .bswap s _ _ | .bfxZ32 s _ _ _ | .bfxS32 s _ _ _
  | .bfi s _ _ _ | .minS32 s _ _ _ | .minZ32 s _ _ _ | .maxS32 s _ _ _ | .maxZ32 s _ _ _ | .absS32 s _ _ | .negS32 s _ _
  | .icmp s _ _ _ _ | .movi s _ _ | .movh s _ _ | .iaddi s _ _ _ | .andi s _ _ _ | .ori s _ _ _ | .xori s _ _ _ | .shli s _ _ _
  | .shriZ32 s _ _ _ | .shriS32 s _ _ _ | .rori s _ _ _ | .mov s _ _ | .sel s _ _ _ | .lea s _ _ _ _ | .faddF32 s _ _ _
  | .fsubF32 s _ _ _ | .faddF16x2 s _ _ _ | .fsubF16x2 s _ _ _ | .faddBf16x2 s _ _ _ | .fsubBf16x2 s _ _ _ | .faddSatF32 s _ _ _
  | .fsubSatF32 s _ _ _ | .fmulF32 s _ _ _ _ | .fmulF16x2 s _ _ _ _ | .fmulBf16x2 s _ _ _ _ | .ffmaF32 s _ _ _ _
  | .ffmaF16x2 s _ _ _ _ | .ffmaBf16x2 s _ _ _ _ | .fmin s _ _ _ _ | .fmax s _ _ _ _ | .fclass s _ _ | .fcmp s _ _ _ _
  | .rcp s _ _ _ | .rsq s _ _ _ | .sqrt s _ _ _ | .exp2 s _ _ _ | .log2 s _ _ _ | .sin s _ _ _ | .cos s _ _ _ | .tanh s _ _ _
  | .erf s _ _ _ | .ncdf s _ _ _ | .npdf s _ _ _ | .packE4m3F32 s _ _ _ | .packE5m2F32 s _ _ _ | .packE2m1F32 s _ _ _
  | .unpackF32E4m3 s _ _ | .unpackF32E5m2 s _ _ | .unpackF32E2m1 s _ _ | .cvt s _ _ _ _ | .ld s _ _ _ _ _ => s
  | _ => false

/-- Whether a word's sources are compared under UCHK: those of an S word and the condition of `s.br` (R52), and those that the rules of a
word that acts once for its group say are compared (R162, R223, R251, R265, R323, R359). A post compares its own by octet (R223). -/
def Instr.uni (i : Instr) : Bool :=
  i.scalar ||
  match i with
  | .stMask _ _ _ _ | .ldMask _ _ _ _ => true
  | .mxZero _ | .mxDrain _ _ _ | .mxLd _ _ _ | .mxBand _ | .mxStat _ _ | .cuvLoadBlk _ _ | .cuvLoadPad _ _ => true
  | .vtNew _ _ | .vtSet _ | .vtDrop _ | .vtMerge _ => true
  | .cpG2s _ _ | .cpS2g _ _ | .cpS2s _ _ _ | .cpTG2s _ _ | .cpTS2g _ _ | .migPost _ => true
  | .rcpPut _ | .rcpGet _ | .ratom _ _ _ | .collPost _ => true
  | _ => false

/-- Whether a source of a word that acts once for its group is read in the leader's lane alone (R51, R105, R162, R277). -/
def Instr.fromLeader (i : Instr) (o : Opnd) : Bool :=
  i.scalar ||
  match i with
  | .sysWr _ k => decide (k ≠ 0x20)
  | .stMask _ _ _ _ | .ldMask _ _ _ _ => decide (o.field = 2)
  | .gat _ _ _ _ _ => decide (o.field = 3)
  | .vtNew _ _ | .vtSet _ | .vtDrop _ | .vtMerge _ | .mxDrain _ _ _ | .mxLd _ _ _ | .mxBand _ | .cuvLoadBlk _ _ | .cuvLoadPad _ _ => true
  | .cpG2s _ _ | .cpS2g _ _ | .cpS2s _ _ _ | .cpTG2s _ _ | .cpTS2g _ _ | .migPost _ => true
  | .objInit _ _ | .objArrive _ _ | .objWait _ _ | .objWaitSt _ _ _ | .objPoll _ _ | .cstInit _ _ | .cstPut _ | .cstTake _ _ => true
  | .rcpPut _ | .rcpGet _ | .ratom _ _ _ | .collPost _ | .qSt _ _ | .wpSet _ | .wpClr _ | .trcMark _ | .bistRun _ | .launchDev _ => true
  | _ => false

/-- Whether a word is a matrix post, which the reuse bit may mark (R38). -/
def Instr.isPost : Instr → Bool
  | .mxPost _ _ _ _ _ _ | .mxMmaMom _ _ _ _ _ => true
  | _ => false

end Sys2Proof
end

