-- ==== Sys2Proof/Machine/PkgRecords.lean ====
section
/-!
DEFINITION. The state of clusters, dies and the package (R187 to R235, R310 to R384), as plain data.
-/

namespace Sys2Proof.Machine

/-! ### Clusters -/

/-- An entry of the sluice (R193): one octet's operation. -/
structure Entry where
  /-- Its number, which its range of the headgate table bears, and the accesses its group had made (R196). -/
  id : Nat
  mark : Nat
  /-- The die cycle of its entering, and the grants made since (R194). -/
  entered : Nat
  waited : Nat
  /-- Core in the cluster, 0 to 3, group slot and octet. -/
  core : Nat
  slot : Nat
  octet : Nat
  g : GKey
  job : Nat
  loc : Pc
  /-- Unmasked rows with their elements as one number. -/
  rows : List (Nat × Nat)
  store : Store
  addr : Nat
  obj : Option ObjRef
  fmt : Nat
  cuv : Nat
  depth : Nat
  narrow : Bool
  red : Bool
  ot : Bool
  tile : Nat
  sA : BitVec 16
  sB : BitVec 16
  prio : Nat
  deriving DecidableEq, Repr

/-- A granted pass (R194 to R198): its number, its entries oldest first, the die cycle of its grant, and once it has
started that die cycle, its interval and the bytes of B. -/
structure Pass where
  number : Nat
  entries : List Entry
  granted : Nat
  start : Option Nat
  b : List Byte
  deriving DecidableEq, Repr

/-- States of a cuvée slot (R205). -/
inductive CuvState where
  | empty
  | loaded
  | valid
  | invalid
  deriving DecidableEq, Repr

/-- A cuvée slot of a cluster that is not EMPTY (R203, R205, R208). -/
structure CuvSlot where
  n : Nat
  image : List Byte
  state : CuvState
  word : Dword
  deriving DecidableEq, Repr

/-- A cluster's engine, sluice and cuvée store (R193 to R200, R205, R350). -/
structure Cluster where
  die : Nat
  index : Nat
  entries : List Entry
  passes : List Pass
  grants : Nat
  lastGrant : Option Nat
  /-- Whether the pass granted last takes its B from the pad (R194). -/
  lastPad : Bool
  /-- The die cycle from which the engine is free of the passes started (R194, R198). -/
  freeAt : Nat
  slots : List CuvSlot
  bist : Bool
  deriving DecidableEq, Repr

/-! ### Jobs and queues -/

/-- A fault record of 64 bytes, with any record that follows it directly (R176, R182, R240), waiting to be written. -/
structure FaultRec where
  data : List Byte
  time : Nat
  order : Nat
  deriving DecidableEq, Repr

/-- A profiling or trace ring (R377). -/
structure Ring where
  base : Dword
  size : Nat
  prod : Nat
  cons : Nat
  drop : Nat
  deriving DecidableEq, Repr

/-- What a die's next trace record of a ring needs (R379, R380). -/
structure TraceDie where
  die : Nat
  lastCycle : Nat
  lastSync : Nat
  changed : Bool
  resumed : Bool
  dropped : Bool
  deriving DecidableEq, Repr

/-- A job (R330 to R332, R343, R377). -/
structure Job where
  id : Nat
  /-- Its descriptor, as first accepted. -/
  desc : List Byte
  /-- Granted pad units of 2 MiB (R237). -/
  grants : List Nat
  fbprod : Nat
  fbcons : Nat
  /-- Set from the first terminating fault until the job has ended: the reference time of that fault, and its code (R183). -/
  ending : Option Nat
  code : Nat
  /-- Set once its groups and operations are gone and only records and completion entries are left to write (R183, R332). -/
  closing : Bool
  records : List FaultRec
  recordsMade : Nat
  /-- Whether the first record of its termination is written (R183). -/
  flagged : Bool
  /-- Records of the device queue accepted (R343). -/
  devSeq : Nat
  prof : Ring
  trc : Ring
  tren : BitVec 16
  dies : List TraceDie
  deriving DecidableEq, Repr

/-- A started record of a queue that has not completed (R333 to R340). -/
structure Started where
  seq : Nat
  raw : List Byte
  deriving DecidableEq, Repr

/-- A completion entry to be written (R340). -/
structure Completion where
  seq : Nat
  status : Nat
  detail : Nat
  digest : List Byte
  deriving DecidableEq, Repr

/-- A child of `launch.dev` that has not started (R343): its sequence, its record, the launch that started it, the
record's coded address, and the object it arrives on. -/
structure Child where
  seq : Nat
  raw : List Byte
  parent : Nat
  code : Nat
  object : Option ObjRef
  /-- The operations whose staged writes happen before the launch word (R294). -/
  knows : List Nat
  deriving DecidableEq, Repr

/-- A user queue (R333 to R337, R341), or the device queue of a job (R343). -/
structure Queue where
  job : Nat
  num : Nat
  ring : Nat
  rsize : Nat
  csize : Nat
  cring : Nat
  page : Nat
  tail : Nat
  head : Nat
  cprod : Nat
  ccons : Nat
  started : List Started
  /-- The device queue's children that have not started. -/
  children : List Child
  /-- Entries in the order in which they are due. -/
  due : List Completion
  /-- Sequences whose entry is written. -/
  done : List Nat
  /-- Removed by QDEL (R334). -/
  removed : Bool
  /-- Its hardware slot and the reference time it was given, or the reference time since which it is ready without one (R341). -/
  slot : Option Nat
  since : Nat
  deriving DecidableEq, Repr

/-- A job that has ended, for JSTAT (R332). -/
structure EndedJob where
  id : Nat
  code : Nat
  deriving DecidableEq, Repr

/-! ### Translation and remote work -/

/-- A cached translation: a page of a job with the leaf and its level (R318). -/
structure TlbEntry where
  job : Nat
  page : Nat
  level : Nat
  leaf : Dword
  deriving DecidableEq, Repr

/-- A migration that a queue's record posted completes on that record (R336). -/
structure RecordOp where
  op : Nat
  queue : Nat
  seq : Nat
  deriving DecidableEq, Repr

/-- A report of a watchpoint to be written (R373, R374): the job that owns it, the record, and the reference time by
which it is written. -/
structure WatchReport where
  job : Nat
  die : Nat
  data : List Byte
  time : Nat
  bound : Nat
  deriving DecidableEq, Repr

/-- What a flit that this package sends carries; the last three are link management (R352 to R354). -/
inductive Message where
  | request (op : Nat)
  | reply (op : Nat) (data : List Byte)
  | holdNotice
  | collective (op : Nat)
  | memberEnded (op : Nat)
  | marker (did : Nat)
  | pause (vc : Nat)
  | resume (vc : Nat)
  | replay (seq : Nat)
  deriving DecidableEq, Repr

/-- A flit on its way out, with its sequence and its bytes once it is sent, and how often it has been replayed (R353, R355). -/
structure OutFlit where
  seq : Nat
  vc : Nat
  job : Nat
  msg : Message
  bytes : List Byte
  tries : Nat
  deriving DecidableEq, Repr

/-- A link (R352 to R356); its status register stands with the registers. -/
structure Link where
  n : Nat
  /-- Flits sent: a number of their order. -/
  made : Nat
  sendSeq : Nat
  recvSeq : Nat
  /-- Flits sent and not acknowledged, oldest first (R353). -/
  retry : List OutFlit
  /-- Flits that wait for a paused channel (R354). -/
  waiting : List OutFlit
  /-- Channels that the far end has paused, and those that this end has (R354). -/
  paused : BitVec 4
  pausing : BitVec 4
  /-- Flits in the input buffers of channels 0 to 3. -/
  input : List Nat
  failedLanes : List Nat
  /-- Whether it has gone down and not been trained since (R355). -/
  gone : Bool
  /-- The reference time since which the link retrains. -/
  training : Option Nat
  deriving DecidableEq, Repr

/-- A route of the route table (R355). -/
structure Route where
  package : Nat
  primary : Nat
  alternate : Nat
  deriving DecidableEq, Repr

/-- A remote request that waits here: held by a page fault or a dump (R360, R367). -/
structure HeldRequest where
  req : RemoteReq
  /-- Pages that are done. -/
  done : Nat
  /-- Its entry in the operand log of its link's die, where a page fault holds it. -/
  index : Option Nat
  deriving DecidableEq, Repr

/-- A dump under way (R367 to R370). -/
structure Dump where
  did : Nat
  job : Nat
  /-- The reference time of its start. -/
  started : Nat
  /-- Set once the package record is written and the markers are sent: the reference time of the cut. -/
  cut : Option Nat
  /-- Channels whose marker has arrived, and channels lost. -/
  marked : List (Nat × Nat)
  lost : List (Nat × Nat)
  /-- Flits held unapplied, in order of arrival (R367). -/
  held : List (Nat × Nat × List Byte)
  part : Bool
  /-- Once the cut is made: its group entries, and the offset in the area after the saves. -/
  entries : Nat
  saved : Nat
  /-- Whether this package's part is complete. -/
  complete : Bool
  deriving DecidableEq, Repr

/-! ### Registers -/

/-- The package's and the dies' registers (R329). Sparse ones are numbered by what follows each. -/
structure Regs where
  jobadd : Dword
  qadd : Dword
  obssel : Word
  dumpctl : Dword
  dumpb : Dword
  dumpw : Word
  /-- DBGCTL.JOB (R382). -/
  dbgJob : Word
  sl : Dword
  pcap : Dword
  hwin : Dword
  /-- EXTEND: word k at k. -/
  extend : Cells 64
  /-- NONCE: word k at k. -/
  nonce : Cells 64
  /-- POOLB, POOLCAP, POOLTOP, POOLCTL of pool i at 4 i, 4 i + 1, 4 i + 2, 4 i + 3 (R325). -/
  pools : Cells 64
  /-- TOFF, TMUL, HIDE of virtual function f at 4 f, 4 f + 1, 4 f + 2, as written, and as in effect since the function's last slot
  (R344); at 4 f + 3 its time without a slot (R345). -/
  vf : Cells 64
  vfNow : Cells 64
  /-- By die: memory error status, margin. -/
  err : Cells 64
  margin : Cells 64
  /-- Temperature sensor t of die d at 4 d + t; ageing of cluster c of die d at 32 d + c, as bits that differ from 0xFFFF (R348). -/
  temp : Cells 16
  ageing : Cells 16
  /-- Link status of link n, as bits that differ from its reset value 0x3C (R356). -/
  link : Cells 64
  /-- WPCTL and WPADDR of watchpoint n of die d at 4 d + n (R371). -/
  wpctl : Cells 64
  wpaddr : Cells 64
  deriving DecidableEq, Repr

/-- Firmware and trust (R346, R347). -/
structure Trust where
  mr0 : List Byte
  mr1 : List Byte
  mr2 : List Byte
  /-- Whether the firmware image passed its check; else the port offers a recovery load alone. -/
  good : Bool
  /-- The nonce of the report being signed, and nonces that wait. -/
  signing : Option (BitVec 256)
  waiting : List (BitVec 256)
  report : List Byte
  deriving DecidableEq, Repr

end Sys2Proof.Machine
end

