-- ==== Sys2Proof/Machine/State.lean ====
section
/-!
DEFINITION. The state of the package as plain data, its reset, and the reasons a step can stop.
Memories stand apart from the records, so that a meaning that stores nothing is seen to store nothing.
-/

namespace Sys2Proof.Machine

/-- Everything but memories. -/
structure Dev where
  /-- Reference time in ns (R11). -/
  time : Nat
  /-- Die cycle counters (R11, q0 of R23), by die. -/
  cycles : Cells 64
  groups : List Group
  blocks : List Block
  launches : List Launch
  jobs : List Job
  xsets : List XSet
  syncs : List SyncRec
  padRaces : List PadRace
  vintages : List Vintage
  dataCells : List DataCell
  mergeRecs : List MergeRec
  gate : List GateRange
  ops : List EngineOp
  staged : List Staged
  clusters : List Cluster
  /-- Owners of cuvée slot numbers: number and job (R205). -/
  cuvOwner : List (Nat × Nat)
  queues : List Queue
  ended : List EndedJob
  tlb : List TlbEntry
  recordOps : List RecordOp
  reports : List WatchReport
  links : List Link
  routes : List Route
  heldReqs : List HeldRequest
  dump : Option Dump
  /-- Dumps abandoned by their job's end, by DID and job: their later markers start none (R370). -/
  abandoned : List (Nat × Nat)
  regs : Regs
  trust : Trust
  /-- Whether the package has power (R11). -/
  power : Bool
  /-- This package's number in the fabric (log 4). -/
  package : Nat
  /-- The package's counter of launch tags (R241). -/
  tagCounter : Nat
  /-- The model's own fields (logs 1, 2, 6): the next operation number, the issue being made, what happens next, the issues a
  core has made in the die cycle, the number of the next hold, and the number of the next free value. -/
  opSeq : Nat
  cur : Option Issue
  moves : List Move
  used : List (Nat × Nat × Pipe)
  batchSeq : Nat
  free : Nat
  deriving DecidableEq, Repr

/-- The machine: its memories in canonical form, and the rest. `blk` and `stk` hold the block memories and the spill regions, each
block and lane at an address of its own. -/
structure State where
  pad : Memory
  main : Memory
  host : Memory
  blk : Memory
  stk : Memory
  dev : Dev
  deriving DecidableEq, Repr

/-- Reasons to stop with a fault. -/
inductive Fault where
  /-- Raised by no meaning: every fault of this device is taken as its spec says (R181 to R183). Safe. -/
  | machineCheck
  deriving DecidableEq, Repr

/-- Reasons to refuse. -/
inductive Refusal where
  /-- Raised by the dispatch for an instruction without a meaning. Safe. -/
  | notModelled (mnemonic : String)
  deriving DecidableEq, Repr

/-- 64 bytes of 0: MR2 at reset (R346). -/
def zero64 : List Byte := List.replicate 64 0

/-- The registers right after reset (R348, R356, R368, R371, R377; log 4 for those without a reset value). -/
def Regs.reset : Regs where
  jobadd := 0
  qadd := 0
  obssel := 0
  dumpctl := 0
  dumpb := 0
  dumpw := 100000
  dbgJob := 0
  sl := 0
  pcap := 2800
  hwin := 0
  extend := []
  nonce := []
  pools := []
  vf := vfReset
  vfNow := vfReset
  err := []
  margin := []
  temp := []
  ageing := []
  link := []
  wpctl := []
  wpaddr := []
where
  /-- TMUL of every virtual function is 0x8000_0000 (R344). -/
  vfReset : Cells 64 := (countFrom 1 63).map fun f => (4 * f + 1, 0x80000000)

/-- The trust unit after reset: measurements as the boot ROM leaves them (R346, log 7). -/
def Trust.reset : Trust where
  mr0 := Config.imageHash
  mr1 := Config.mapHash
  mr2 := zero64
  good := Config.imageGood
  signing := none
  waiting := []
  report := []

/-- The records right after reset. -/
def Dev.reset : Dev where
  time := 0
  cycles := []
  groups := []
  blocks := []
  launches := []
  jobs := []
  xsets := []
  syncs := []
  padRaces := []
  vintages := []
  dataCells := []
  mergeRecs := []
  gate := []
  ops := []
  staged := []
  clusters := []
  cuvOwner := []
  queues := []
  ended := []
  tlb := []
  recordOps := []
  reports := []
  links := []
  routes := []
  heldReqs := []
  dump := none
  abandoned := []
  regs := Regs.reset
  trust := Trust.reset
  power := true
  package := 0
  tagCounter := 0
  opSeq := 0
  cur := none
  moves := []
  used := []
  batchSeq := 0
  free := 0

/-- The machine right after reset (R11, R346; logs 3, 4). -/
def State.reset : State where
  pad := []
  main := []
  host := []
  blk := []
  stk := []
  dev := Dev.reset

end Sys2Proof.Machine
end

