-- ==== Sys2Proof/Machine/Ops.lean ====
section
/-!
DEFINITION. The operations over the state. A meaning reads the state and answers a list of acts; `commit` runs them. An act
stores one byte, clears a range of a memory, or replaces the records, so what holds of every act holds of every meaning.
Below: look-ups, registers, results on their way, holds, faults (R53, R181 to R183).
-/

namespace Sys2Proof.Machine

/-- The memories. -/
inductive Bank where
  | pad | main | host | blk | stk
  deriving DecidableEq, Repr

/-- One act on the state. -/
inductive Act where
  | store (b : Bank) (a : Nat) (v : Byte)
  | clear (b : Bank) (lo n : Nat)
  | dev (d : Dev)
  deriving DecidableEq, Repr

/-- The memory of a bank. -/
def State.bank (s : State) : Bank → Memory
  | .pad => s.pad
  | .main => s.main
  | .host => s.host
  | .blk => s.blk
  | .stk => s.stk

/-- The state with the memory of a bank replaced. -/
def State.setBank (s : State) (m : Memory) : Bank → State
  | .pad => { s with pad := m }
  | .main => { s with main := m }
  | .host => { s with host := m }
  | .blk => { s with blk := m }
  | .stk => { s with stk := m }

/-- One act. -/
def State.act (s : State) : Act → State
  | .store b a v => s.setBank (cellSet (s.bank b) a v) b
  | .clear b lo n => s.setBank (cellClear (s.bank b) lo n) b
  | .dev d => { s with dev := d }

/-- A list of acts, in order. -/
def State.run (s : State) : List Act → State
  | [] => s
  | a :: as => (s.act a).run as

/-- The outcome of a meaning: the state after its acts. -/
def commit (s : State) (as : List Act) : Host.Outcome State Fault Refusal := .next (s.run as)

/-- A part of a meaning: what it does, read from the state it meets. -/
abbrev Part := State → List Act

/-- One part after another; the later one meets the state the earlier one leaves. -/
def Part.andThen (f g : Part) : Part := fun s =>
  let as := f s
  as ++ g (s.run as)

/-- Parts in order. -/
def Part.seq : List Part → Part
  | [] => fun _ => []
  | p :: ps => p.andThen (Part.seq ps)

/-- A part for each item, in order. -/
def Part.each {α : Type} (xs : List α) (f : α → Part) : Part := Part.seq (xs.map f)

/-- A change of the records alone. -/
def Part.mod (f : Dev → Dev) : Part := fun s => [.dev (f s.dev)]

/-- No effect. -/
def Part.none : Part := fun _ => []

/-- The bytes of a list stored from an address on. -/
def storeBytes (b : Bank) : Nat → List Byte → List Act
  | _, [] => []
  | a, v :: vs => .store b a v :: storeBytes b (a + 1) vs

/-! ### Look-ups -/

def Dev.group? (d : Dev) (k : GKey) : Option Group := d.groups.find? fun g => decide (g.key = k)
def Dev.block? (d : Dev) (launch index : Nat) : Option Block :=
  d.blocks.find? fun b => decide (b.launch = launch) && decide (b.index = index)
def Dev.launch? (d : Dev) (tag : Nat) : Option Launch := d.launches.find? fun l => decide (l.tag = tag)
def Dev.job? (d : Dev) (id : Nat) : Option Job := d.jobs.find? fun j => decide (j.id = id)

def Dev.setGroup (d : Dev) (g : Group) : Dev :=
  { d with groups := upsert (fun x => decide (x.key = g.key)) g d.groups }
def Dev.setBlock (d : Dev) (b : Block) : Dev :=
  { d with blocks := upsert (fun x => decide (x.launch = b.launch) && decide (x.index = b.index)) b d.blocks }
def Dev.setLaunch (d : Dev) (l : Launch) : Dev :=
  { d with launches := upsert (fun x => decide (x.tag = l.tag)) l d.launches }
def Dev.setJob (d : Dev) (j : Job) : Dev :=
  { d with jobs := upsert (fun x => decide (x.id = j.id)) j d.jobs }

/-- A group changed, where it exists. -/
def Dev.modGroup (d : Dev) (k : GKey) (f : Group → Group) : Dev :=
  match d.group? k with
  | some g => d.setGroup (f g)
  | none => d
def Dev.modBlock (d : Dev) (launch index : Nat) (f : Block → Block) : Dev :=
  match d.block? launch index with
  | some b => d.setBlock (f b)
  | none => d
def Dev.modLaunch (d : Dev) (tag : Nat) (f : Launch → Launch) : Dev :=
  match d.launch? tag with
  | some l => d.setLaunch (f l)
  | none => d
def Dev.modJob (d : Dev) (id : Nat) (f : Job → Job) : Dev :=
  match d.job? id with
  | some j => d.setJob (f j)
  | none => d

/-- A lane without a fibre. -/
def Lane.empty : Lane where
  mode := .free
  pc := 0
  pw := 0x8000
  wb := 0
  ssp := 0
  rc := 0
  v := []
  m := []
  pending := 0
  hold := none
  waited := 0
  starve := 0
  lastPage := none

/-- A lane of a group. -/
def Group.lane (g : Group) (l : Nat) : Lane := g.lanes.getD l Lane.empty
def Group.setLane (g : Group) (l : Nat) (x : Lane) : Group := { g with lanes := g.lanes.set l x }
def Group.modLane (g : Group) (l : Nat) (f : Lane → Lane) : Group := g.setLane l (f (g.lane l))
/-- Several lanes changed. -/
def Group.modLanes (g : Group) (ls : List Nat) (f : Nat → Lane → Lane) : Group :=
  ls.foldl (fun g l => g.modLane l (f l)) g
def Group.laneNos (g : Group) : List Nat := countFrom 0 g.lanes.length
def Group.isLive (g : Group) (l : Nat) : Bool := (g.lane l).mode == .live
def Group.isHelper (g : Group) (l : Nat) : Bool :=
  match (g.lane l).mode with
  | .helper _ => true
  | _ => false
/-- Lanes that run a fibre (R24). -/
def Group.liveLanes (g : Group) : List Nat := g.laneNos.filter g.isLive

/-- The die cycle counter of a group's die (q0 of R23). -/
def Dev.cycle (d : Dev) (die : Nat) : Nat := (cellGet d.cycles die).toNat
def Dev.now (d : Dev) (g : Group) : Nat :=
  match g.place with
  | some p => d.cycle p.die
  | none => 0

/-- Bits `lo + len - 1 : lo` of a doubleword. -/
def dfld (x : Dword) (lo len : Nat) : Nat := x.toNat / 2 ^ lo % 2 ^ len
/-- A doubleword with a field replaced. -/
def dput (x : Dword) (lo len v : Nat) : Dword :=
  BitVec.ofNat 64 (x.toNat - x.toNat / 2 ^ lo % 2 ^ len * 2 ^ lo + v % 2 ^ len * 2 ^ lo)

-- fields of GSR (R34)
def Group.uchk (g : Group) : Bool := dfld g.gsr 2 1 == 1
def Group.sbchk (g : Group) : Bool := dfld g.gsr 3 1 == 1
def Group.rm (g : Group) : Rm := Rm.ofRM (dfld g.gsr 4 3)
def Group.nvf (g : Group) : Bool := dfld g.gsr 7 1 == 1
def Group.cvm (g : Group) : Nat := dfld g.gsr 8 2
def Group.det (g : Group) : Bool := dfld g.gsr 10 1 == 1
def Group.rho (g : Group) : Nat := dfld g.gsr 16 16
def Group.vt (g : Group) : Nat := dfld g.gsr 32 14
/-- Sticky bits set: the five of FPF, VCL and MOVF, from bit 48 on. -/
def orSticky (gsr : Dword) (b : Nat) : Dword := gsr ||| BitVec.ofNat 64 (b % 2 ^ 7 * 2 ^ 48)
/-- Sticky flags set in a die cycle: they win over a clear in it (R34). -/
def Group.stick (g : Group) (now b : Nat) : Group :=
  { g with gsr := orSticky g.gsr b, flagCycle := now, flagBits := (if g.flagCycle = now then g.flagBits else 0) ||| b }

/-! ### Locations (R19, R36, R55, R182) -/

/-- A location from a packet address and a slot. -/
def mkPc (pkt slot : Nat) : Pc := BitVec.ofNat 57 (pkt / 16 * 16 + slot)
/-- The packet address of a location. -/
def pcPkt (p : Pc) : Nat := p.toNat / 16 * 16
/-- The slot of a location. -/
def pcSlot (p : Pc) : Nat := p.toNat % 4
/-- The location after a word in sequence (R19). -/
def pcNext (p : Pc) : Pc := if pcSlot p < 2 then mkPc (pcPkt p) (pcSlot p + 1) else mkPc (pcPkt p + 16) 0
/-- The location of a packet index from an image base, slot 0. -/
def pcOfIndex (image idx : Nat) : Pc := mkPc (image + 16 * idx) 0
/-- The packet index of a location from the image base. -/
def pcIndex (image : Nat) (p : Pc) : Nat := (pcPkt p - image) / 16
/-- The target of a branch offset: 17 bits, two's complement, in packets (R44). -/
def pcBranch (p : Pc) (o : BitVec 17) : Pc :=
  mkPc ((((pcPkt p : Int) + 16 * o.toInt) % (2 ^ 57 : Int)).toNat) 0
/-- Whether a packet index lies inside the code (R38, R56). -/
def Launch.hasIndex (l : Launch) (idx : Nat) : Bool :=
  decide (l.codeOff / 16 ≤ idx) && decide (16 * idx + 16 ≤ l.codeOff + l.codeSize)
/-- Whether a packet address lies inside the code. -/
def Launch.hasPkt (l : Launch) (a : Nat) : Bool :=
  decide (l.image + l.codeOff ≤ a) && decide (a + 16 ≤ l.image + l.codeOff + l.codeSize)
/-- A word of the code, by its address. -/
def Launch.codeWord (l : Launch) (a : Nat) : Word := cellGet l.code ((a - l.image) / 4)
/-- The word at a location. -/
def Launch.wordAt (l : Launch) (p : Pc) : Word := l.codeWord (pcPkt p + 4 + 4 * pcSlot p)
/-- The control word of a location's packet. -/
def Launch.ctlAt (l : Launch) (p : Pc) : Word := l.codeWord (pcPkt p)

/-- The place of a location in words from the start of the image, control words not counted. -/
def wordIndex (idx slot : Nat) : Nat := 3 * idx + slot
/-- Safe-point ordinal and offset of a location (R55): the last safe point at or before it. -/
def spLocate (w : Nat) : List SafePoint → Nat → Nat × Nat → Nat × Nat
  | [], _, best => best
  | p :: ps, k, best =>
    let a := wordIndex p.pkt p.slot
    if a ≤ w then spLocate w ps (k + 1) (k, w - a) else best
def Launch.locate (l : Launch) (p : Pc) : Nat × Nat :=
  spLocate (wordIndex (pcIndex l.image p) (pcSlot p)) l.spt 0 (0, 0)

/-! ### Registers (R20 to R22, R31, R139) -/

/-- The physical base register of a name (R22). -/
def physV (wb : BitVec 5) (n : Nat) : Nat := if n < 32 then n else 32 + (n - 32 + wb.toNat) % 32

def Dev.xset? (d : Dev) (p : Place) : Option XSet :=
  d.xsets.find? fun x => decide (x.die = p.die) && decide (x.core = p.core) && decide (x.pair = p.slot / 2)

/-- Whether a group holds its pair's lock (R140). -/
def Dev.holdsX (d : Dev) (g : Group) : Bool :=
  match g.place with
  | none => false
  | some p =>
    match d.xset? p with
    | some x => decide (x.holder = some g.key) && !x.releasing
    | none => false

/-- The extended set of a slot pair put in place. -/
def Dev.setXset (d : Dev) (x : XSet) : Dev :=
  { d with xsets := upsert (fun z => decide (z.die = x.die) && decide (z.core = x.core) && decide (z.pair = x.pair)) x d.xsets }

/-- The extended set of a place; one that no group has requested is clear and free. -/
def Dev.xsetAt (d : Dev) (p : Place) : XSet :=
  match d.xset? p with
  | some x => x
  | none => ⟨p.die, p.core, p.slot / 2, [], none, false, [], none⟩

/-- A word of the extended set (R139). -/
def Dev.readX (d : Dev) (g : Group) (l n : Nat) : Word :=
  match g.place with
  | none => 0
  | some p =>
    match d.xset? p with
    | some x => cellGet x.words (64 * l + (n - 64))
    | none => 0

/-- The value of v register `n` of a lane. -/
def Dev.readV (d : Dev) (g : Group) (l n : Nat) : Word :=
  if n < 64 then cellGet (g.lane l).v (physV (g.lane l).wb n) else d.readX g l n

/-- The predicate word; p15 reads 1 (R20). -/
def Lane.preds (x : Lane) : BitVec 16 := x.pw ||| 0x8000

/-- The value of a predicate source field, negated where its bit 4 is set (R46). -/
def Lane.predF (x : Lane) (f : Nat) : Bool := bitAt x.preds.toNat (f % 16) != decide (16 ≤ f % 32)

/-- Where a v register name of a lane goes. -/
def Group.destV (g : Group) (l n : Nat) : Dest :=
  if n < 64 then .v (physV (g.lane l).wb n) else .x n

/-- Where a run of names goes. -/
def Group.destRun (g : Group) (l n k : Nat) : List Dest := (countFrom n k).map (g.destV l)

/-- A pair of words as one number, the low word first (R21). -/
def pair64 (lo hi : Word) : Nat := lo.toNat + 2 ^ 32 * hi.toNat

/-- The registers of slots. -/
def slotRegs (ss : List Slot) : List (Nat × Dest) := ss.map fun e => (e.lane, e.dst)

/-- The registers that an access gives, by lane. -/
def AccOp.regs : AccOp → List (Nat × Dest)
  | .load _ ss | .loadMom _ _ ss | .atom _ _ ss | .acc _ _ ss | .cas _ _ ss | .loadVt _ _ ss | .value _ ss | .due _ ss => slotRegs ss
  | .loadMask _ ls => ls.map fun e => (e.1, .p e.2)
  | .store _ | .storeMask _ _ => []

/-- A result written to a lane or to the group. -/
def Group.land (g : Group) (l : Nat) (dst : Dest) (v : Dword) : Group :=
  match dst with
  | .v n => g.modLane l fun x => { x with v := cellSet x.v n (v.setWidth 32) }
  | .m n => g.modLane l fun x => { x with m := cellSet x.m n v }
  | .p k => g.modLane l fun x =>
      { x with pw := BitVec.ofNat 16 (x.pw.toNat - x.pw.toNat / 2 ^ k % 2 * 2 ^ k + v.toNat % 2 * 2 ^ k) }
  | .pw => g.modLane l fun x => { x with pw := v.setWidth 16 ||| 0x8000 }
  | .fpf => { g with gsr := orSticky g.gsr v.toNat }
  | .q n => { g with q := cellSet g.q n v }
  | .x _ => g

/-- A word of an extended set written. -/
def Dev.writeX (d : Dev) (p : Place) (l n : Nat) (v : Word) : Dev :=
  match d.xset? p with
  | some x =>
    let y := { x with words := cellSet x.words (64 * l + (n - 64)) v }
    { d with xsets := upsert (fun z => decide (z.die = x.die) && decide (z.core = x.core) && decide (z.pair = x.pair)) y d.xsets }
  | none => d

/-- A result written, extended registers included; those of a group that is saved, or waits for the lock again, stand with its saved words (R141). -/
def Dev.landIn (d : Dev) (k : GKey) (l : Nat) (dst : Dest) (v : Dword) : Dev :=
  match d.group? k with
  | none => d
  | some g =>
    match dst with
    | .x n =>
      match g.xsaved, g.place with
      | some w, _ => d.setGroup { g with xsaved := some (cellSet w (64 * l + (n - 64)) (v.setWidth 32)) }
      | none, some p => d.writeX p l n (v.setWidth 32)
      | none, none => d
    | _ => d.setGroup (g.land l dst v)

/-- Results on their way that are due at a die cycle are written, in order (R41, R42). -/
def Dev.landDue (d : Dev) (k : GKey) (cyc : Nat) : Dev :=
  match d.group? k with
  | none => d
  | some g =>
    let due := g.pend.filter fun p => decide (p.land ≤ cyc)
    let bits := (due.filter fun p => decide (p.dst = .fpf)).foldl (fun a p => a ||| p.val.toNat) 0
    let d1 := d.setGroup
      { g with pend := g.pend.filter fun p => decide (cyc < p.land), flagCycle := cyc, flagBits := bits }
    due.foldl (fun d p => d.landIn k p.lane p.dst p.val) d1

/-- Whether two destinations of a lane share a register: the same one, or a predicate and the predicate word. -/
def Dest.meets : Dest → Dest → Bool
  | .p _, .pw => true
  | .pw, .p _ => true
  | a, b => decide (a = b)

/-- A result put on its way. Where another result of the same register, or of a predicate and the word that holds it, lands in the same
die cycle, the spec names none that stays: a free choice decides (log 6). -/
def pushPend (ps : List Pend) (free : Nat) (p : Pend) : List Pend × Nat :=
  if p.dst ≠ .fpf ∧ ps.any (fun q => decide (q.lane = p.lane) && q.dst.meets p.dst && decide (q.land = p.land)) then
    (if Config.freeBit free then ps ++ [p] else p :: ps, free + 1)
  else (ps ++ [p], free)

/-- A result of a lane: where it goes and its value. -/
structure Out where
  lane : Nat
  dst : Dest
  val : Dword
  deriving DecidableEq, Repr

/-- Results of a group put on their way with a latency (R41). -/
def Dev.retire (d : Dev) (k : GKey) (lat : Nat) (outs : List Out) : Dev :=
  match d.group? k with
  | none => d
  | some g =>
    let t := d.now g + lat
    let r := outs.foldl (fun (a : List Pend × Nat) o => pushPend a.1 a.2 ⟨o.lane, o.dst, o.val, t⟩) (g.pend, d.free)
    { d.setGroup { g with pend := r.1 } with free := r.2 }

/-! ### Faults (R53, R181 to R183) -/

/-- Fault codes (R181). -/
inductive FaultCode where
  | illegalPacket | illegalOpcode | illegalOperand | illegalChain | stallShort | nonuniform | divDepth | divReg
  | xregNotHeld | misaligned | bounds | stackOverflow | negvar | mxRedundant | mxOverflow | cuveeInvalid | accRange
  | mmRace | rangeLock | barTimeout | vtOrphan | vtMergeConflict | vtStarve | vtDepth | detViolation
  | pageFault | access | uncorrectable | linkDown | remoteTimeout | watch | brk | trap | priv
  /-- A code read from a barrier object (R273). -/
  | raw (n : Nat)
  deriving DecidableEq, Repr

def FaultCode.num : FaultCode → Nat
  | .illegalPacket => 0x01 | .illegalOpcode => 0x02 | .illegalOperand => 0x03 | .illegalChain => 0x04
  | .stallShort => 0x05 | .nonuniform => 0x06 | .divDepth => 0x07 | .divReg => 0x08 | .xregNotHeld => 0x09
  | .misaligned => 0x0A | .bounds => 0x0B | .stackOverflow => 0x0C | .negvar => 0x10 | .mxRedundant => 0x12
  | .mxOverflow => 0x13 | .cuveeInvalid => 0x14 | .accRange => 0x15 | .mmRace => 0x20 | .rangeLock => 0x21
  | .barTimeout => 0x22 | .vtOrphan => 0x23 | .vtMergeConflict => 0x24 | .vtStarve => 0x25 | .vtDepth => 0x26
  | .detViolation => 0x27 | .pageFault => 0x30 | .access => 0x31 | .uncorrectable => 0x32 | .linkDown => 0x33
  | .remoteTimeout => 0x34 | .watch => 0x38 | .brk => 0x39 | .trap => 0x3A | .priv => 0x3F
  | .raw n => n

/-- A fault to be taken: its code, FADDR, CAUSE, AUX, and what follows the record. -/
structure FaultInfo where
  code : FaultCode
  faddr : Nat := 0
  cause : Nat := 0
  aux : Nat := 0
  /-- The 128-byte barrier record (R176). -/
  extra : List Byte := []
  /-- BLOCK and GROUP of the second record of a pad race (R240). -/
  second : Option (Nat × Nat) := none
  deriving DecidableEq, Repr

/-- The cause detail of the checks of R53. -/
def checkCause (slot field reason : Nat) : Nat := slot % 4 + field % 4 * 4 + reason % 16 * 16

/-- q2 of a group (R23). -/
def identOf (g : Group) : Nat :=
  match g.place with
  | some p => p.die % 8 + p.core % 128 * 8 + p.slot % 16 * 1024
  | none => 0

/-! ### Guest time, and the rings in host memory (R345, R377 to R380) -/

/-- The virtual function of a job; 0 is the physical function (R330). -/
def Job.vf (j : Job) : Nat := bits (leNat ((j.desc.drop 4).take 4)) 1 6

/-- A reference time as the records of a job give it (R345). -/
def Dev.timeFor (d : Dev) (job t : Nat) : Nat :=
  match d.job? job with
  | none => t
  | some j =>
    if j.vf = 0 then t
    else
      let r (k : Nat) : Nat := (cellGet d.regs.vfNow (4 * j.vf + k)).toNat
      let stolen := if r 2 % 2 = 1 then (cellGet d.regs.vfNow (4 * j.vf + 3)).toNat else 0
      (r 0 + r 1 % 2 ^ 32 * (t - stolen) / 2 ^ 31) % 2 ^ 64

/-- Whether `n` units of 16 bytes fit in a ring (R377). -/
def Ring.fits (r : Ring) (n : Nat) : Bool := decide ((r.prod + 2 ^ 32 - r.cons) % 2 ^ 32 + n ≤ r.size)

/-- Units of 16 bytes written into a ring in host memory. -/
def Ring.stores (r : Ring) : Nat → List (List Byte) → List Act
  | _, [] => []
  | k, u :: us => storeBytes .host (r.base.toNat + 16 * ((r.prod + k) % r.size)) u ++ r.stores (k + 1) us

/-- The ring after an entry of `n` units, or with the entry counted as dropped. -/
def Ring.push (r : Ring) (n : Nat) : Ring :=
  if r.fits n then { r with prod := (r.prod + n) % 2 ^ 32 } else { r with drop := min (r.drop + 1) (2 ^ 32 - 1) }

/-- A list of bytes padded with 0 to a multiple of 16, in units. -/
def units16 (bs : List Byte) : List (List Byte) :=
  let n := (bs.length + 15) / 16
  (countFrom 0 n).map fun k => let u := (bs.drop (16 * k)).take 16; u ++ List.replicate (16 - u.length) 0

/-- A profiling entry of a launch: a header and its payload, dropped where it does not fit (R377). -/
def profEntry (job : Nat) (id : Dword) (type : Nat) (payload : List Byte) : Part := fun s =>
  match s.dev.job? job with
  | none => []
  | some j =>
    if j.prof.size = 0 then []
    else
      let us := units16 (leBytes 1 type ++ leBytes 1 payload.length ++ leBytes 6 0 ++ leBytes 8 id.toNat ++ payload)
      (if j.prof.fits us.length then j.prof.stores 0 us else []) ++
        [.dev (s.dev.setJob { j with prof := j.prof.push us.length })]

/-- What a die's next record of a trace ring needs; a die that has written none starts one. -/
def Job.traceDie (j : Job) (die : Nat) : Option TraceDie := j.dies.find? fun t => decide (t.die = die)

/-- The reason of the SYNC record that stands before a record, where one does (R380; the first that holds, log 23). -/
def syncReason (t : Option TraceDie) (cyc now : Nat) : Option Nat :=
  match t with
  | none => some 0
  | some t =>
    if t.changed then some 2
    else if t.resumed then some 3
    else if 65535 < cyc - t.lastCycle then some 4
    else if t.dropped then some 5
    else if t.lastSync + 100000 ≤ now then some 1
    else none

/-- One trace record of a die, with the SYNC record before it where R380 asks for one (R379, R380). -/
def traceRec (job die type arg0 arg1 : Nat) : Part := fun s =>
  match s.dev.job? job with
  | none => []
  | some j =>
    if j.trc.size = 0 ∨ bitAt j.tren.toNat type = false then []
    else
      let cyc := (cellGet s.dev.cycles die).toNat
      let t := j.traceDie die
      let rec16 (ty delta a0 a1 : Nat) : List Byte :=
        leBytes 1 ty ++ leBytes 1 (die % 8) ++ leBytes 2 delta ++ leBytes 4 a0 ++ leBytes 8 a1
      let sync := syncReason t cyc s.dev.time
      let us := match sync with
        | some r => [rec16 0 0 r s.dev.time, rec16 type 0 arg0 arg1]
        | none => [rec16 type (match t with | some t => cyc - t.lastCycle | none => 0) arg0 arg1]
      let ok := j.trc.fits us.length
      let dies := if ok then
          upsert (fun x => decide (x.die = die))
            ⟨die, cyc, (match sync, t with | none, some t => t.lastSync | _, _ => s.dev.time), false, false, false⟩ j.dies
        else j.dies.map fun x => if x.die = die then { x with dropped := true } else x
      (if ok then j.trc.stores 0 us else []) ++
        [.dev (s.dev.setJob { j with
          trc := if ok then j.trc.push us.length else { j.trc with drop := min (j.trc.drop + us.length) (2 ^ 32 - 1) }
          dies := dies })]

/-- A field of `n` bytes at an offset. -/
def fieldAt (bs : List Byte) (off n : Nat) : Nat := leNat ((bs.drop off).take n)

/-- The 64 bytes of a record (R182): code, FLAGS, IDENT, JOB, GRID, BLOCK, GROUP, OFFSET, ORDINAL, PC, FADDR, CAUSE, AUX, TIME. -/
def rawRecord (code flags ident job grid block group off ord pc faddr cause aux time : Nat) : List Byte :=
  leBytes 1 code ++ leBytes 1 flags ++ leBytes 2 ident ++ leBytes 4 job ++ leBytes 8 grid ++ leBytes 4 block ++
  leBytes 1 group ++ leBytes 1 0 ++ leBytes 2 off ++ leBytes 4 ord ++ leBytes 4 0 ++ leBytes 8 pc ++
  leBytes 8 faddr ++ leBytes 4 cause ++ leBytes 4 aux ++ leBytes 8 time

/-- The fault record of a group's fault (R182). -/
def faultBytes (d : Dev) (g : Group) (l : Launch) (loc : Pc) (f : FaultInfo) (first precise : Bool) (block group : Nat) :
    List Byte :=
  let at_ := l.locate loc
  rawRecord f.code.num (precise.toNat + first.toNat * 4 + (if f.extra.isEmpty then 0 else 8)) (identOf g) l.job l.id.toNat
    block group at_.2 at_.1 loc.toNat f.faddr f.cause f.aux (d.timeFor l.job d.time)

/-- Whether a debugger is attached to a job (R382). -/
def Dev.debugged (d : Dev) (job : Nat) : Bool := decide (d.regs.dbgJob.toNat = job) && decide (job ≠ 0)

/-- Whether a fault stops its group for a debugger and does not end the job (R181). -/
def FaultCode.forDebugger : FaultCode → Bool
  | .watch => true
  | .brk => true
  | _ => false

/-- The record of a fault with a 128-byte record that follows it; records stand by die, core and slot within one ns (R183). FLAGS bit 2 is
set in the record of any fault that ends the job: the writing clears it in all but the first. -/
def faultRecord (d : Dev) (g : Group) (l : Launch) (loc : Pc) (f : FaultInfo) (ends precise : Bool) : FaultRec :=
  let ord := match g.place with | some p => p.die * 2 ^ 12 + p.core * 16 + p.slot | none => 0
  ⟨faultBytes d g l loc f ends precise g.key.block g.key.group ++ f.extra, d.time, ord⟩

/-- The second record of a fault that names another accessor, which follows the first directly (R240). -/
def secondRecord (d : Dev) (g : Group) (l : Launch) (loc : Pc) (f : FaultInfo) (precise : Bool) : List Byte :=
  match f.second with
  | none => []
  | some (b, n) => faultBytes d g l loc f false precise b n

/-- Whether the host has ended a job: then its fault buffer receives nothing more (R332). -/
def Job.deleted (j : Job) : Bool := j.ending.isSome && decide (j.code = 0xFE)

/-- A record with the one that follows it directly. -/
def FaultRec.with_ (r : FaultRec) (second : List Byte) : FaultRec := { r with data := r.data ++ second }

/-- A record of a termination queued for the job's fault buffer, with a second one that follows it: at most 16 in all (R183, R240). -/
def Job.queue (j : Job) (r : FaultRec) (second : List Byte) : Job :=
  let room := if j.deleted then 0 else 16 - j.recordsMade
  let more := if room < 2 then [] else second
  if room = 0 then j
  else { j with records := j.records ++ [r.with_ more], recordsMade := j.recordsMade + (if more.isEmpty then 1 else 2) }

/-- A job whose termination begins now, with the code that ends it, unless one is under way (R183, R332). -/
def Job.endBy (j : Job) (code now : Nat) : Job :=
  match j.ending with
  | some _ => j
  | none => { j with ending := some now, code := code }

/-- Records that are no part of a termination: page faults and reports for a debugger (R321, R382). -/
def Job.report (j : Job) (r : FaultRec) : Job := if j.deleted then j else { j with records := j.records ++ [r] }

/-- The location of a batch's word restored, holds dropped: a precise fault takes no effect (R49, R181). -/
def Group.backTo (g : Group) (ls : List Nat) (loc : Pc) : Group :=
  g.modLanes ls fun _ x => { x with pc := loc }

/-- TAKING A FAULT (R181 to R183), the one shared operation: a group faults at a location. Its lanes go back to the word, its record is queued,
and the group halts: for good where the job ends, for the debugger where it is a debugger fault and one is attached. -/
def takeFault (k : GKey) (ls : List Nat) (loc : Pc) (precise : Bool) (f : FaultInfo) : Part := fun s =>
  match s.dev.group? k, s.dev.launch? k.launch with
  | some g, some l =>
    match s.dev.job? l.job with
    | none => []
    | some j =>
      let stop : Bool := f.code.forDebugger && s.dev.debugged j.id
      let r := faultRecord s.dev g l loc f (!stop) precise
      let second := secondRecord s.dev g l loc f precise
      let j2 := if stop then j.report (r.with_ second) else (j.queue r second).endBy f.code.num s.dev.time
      let g1 := { g.backTo ls loc with run := if stop then .stopped else .faulted }
      Part.andThen (fun s => [.dev ((s.dev.setJob j2).setGroup g1)])
        (traceRec l.job (match g.place with | some p => p.die | none => 0) 5 f.code.num l.id.toNat) s
  | _, _ => []

/-- A precise fault of the batch that issues (R53). -/
def raise (c : Issue) (f : FaultInfo) : Part := takeFault c.g c.lanes c.loc true f

/-! ### The batch -/

/-- The leader of a batch (R51). -/
def Group.leader (g : Group) (on : List Nat) : Option Nat := on.find? g.isLive

/-- The value of a v register of a lane of the issuing batch; a word that was held reads what it read at issue (R49). -/
def srcV (d : Dev) (g : Group) (c : Issue) (l n : Nat) : Word :=
  if c.resume.isSome then
    match (g.lane l).hold with
    | some h =>
      match h.snap.find? fun e => decide (e.1 = n) with
      | some e => e.2
      | none => d.readV g l n
    | none => d.readV g l n
  else d.readV g l n

/-- The value of a pair. -/
def srcV64 (d : Dev) (g : Group) (c : Issue) (l n : Nat) : Nat := pair64 (srcV d g c l n) (srcV d g c l (n + 1))

/-- The registers that an instruction's operands name, as a lane reads them now. -/
def snapOf (d : Dev) (g : Group) (c : Issue) (i : Instr) (l : Nat) : List (Nat × Word) :=
  (i.operands.flatMap Opnd.vregs).map fun n => (n, srcV d g c l n)

/-- The timer a lane keeps when its hold goes on as another timed wait of the same word. -/
def Lane.heldFor (x : Lane) : Nat :=
  match x.hold with
  | some h => if h.dog = .none then 0 else h.timer
  | none => 0

/-- The start of that timer. -/
def Lane.heldSince (x : Lane) (now : Nat) : Nat :=
  match x.hold with
  | some h => if h.dog = .none then now else h.since
  | none => now

/-- The barrier record of that timer, where it has expired (R176). -/
def Lane.heldExpiry (x : Lane) : Option (List Byte) :=
  match x.hold with
  | some h => if h.dog = .none then none else h.expiry
  | none => none

/-- Lanes, and the helper lanes that follow a fibre in one of them (R25). -/
def Group.withHelpers (g : Group) (ls : List Nat) : List Nat :=
  ls ++ g.laneNos.filter fun h =>
    match (g.lane h).mode with
    | .helper l => ls.contains l && !ls.contains h
    | _ => false

/-- The watchdog of a lane's hold that goes on: a spent one stays spent (R175). -/
def Lane.heldDog (x : Lane) (dog : Watchdog) : Watchdog :=
  match x.hold with
  | some h => if h.dog = .spent then .spent else dog
  | none => dog

/-- Lanes of the batch that hold at its word, with the helper lanes that follow them (R25, R48); `bytes`: what the word has read. -/
def holdTaking (c : Issue) (i : Instr) (ls : List Nat) (kind : HoldKind) (reason : Nat) (dog : Watchdog) (bytes : List Byte) : Part := fun s =>
  match s.dev.group? c.g with
  | none => []
  | some g =>
    let g1 := g.modLanes (g.withHelpers ls) fun l x =>
      { x with
        pc := c.loc
        hold := some {
          kind := kind
          reason := reason
          dog := x.heldDog dog
          timer := x.heldFor
          since := x.heldSince s.dev.time
          batch := s.dev.batchSeq
          on := c.on.contains l
          snap := snapOf s.dev g c i l
          mark := (c.resume.map Hold.mark).getD g.accesses
          bytes := bytes
          expiry := x.heldExpiry } }
    [.dev { s.dev.setGroup g1 with batchSeq := s.dev.batchSeq + 1 }]

/-- Lanes of the batch that hold at its word and have read nothing. -/
def holdLanes (c : Issue) (i : Instr) (ls : List Nat) (kind : HoldKind) (reason : Nat) (dog : Watchdog) : Part :=
  holdTaking c i ls kind reason dog []

/-- A held batch that now waits for something else: the timer of a timed wait goes on where that one is timed too. -/
def reholdLanes (c : Issue) (reason : Nat) (dog : Watchdog) : Part := fun s =>
  [.dev (s.dev.modGroup c.g fun g => g.modLanes (g.withHelpers c.lanes) fun _ x =>
    { x with hold := x.hold.map fun h =>
        { h with reason := reason, dog := x.heldDog dog, timer := x.heldFor, since := x.heldSince s.dev.time, expiry := x.heldExpiry } })]

/-- Lanes that a hold lets go: they continue after the word. -/
def releaseLanes (k : GKey) (ls : List Nat) (pc : Pc) : Part :=
  Part.mod fun d => d.modGroup k fun g => g.modLanes (g.withHelpers ls) fun _ x => { x with hold := none, pc := pc }

/-! ### The checks of R53, 4 to 8 -/

/-- Whether a destination belongs to the group and not to one lane. -/
def Dest.ofGroup : Dest → Bool
  | .q _ | .fpf => true
  | _ => false

/-- Whether a name of a lane has a result on its way that lands after a die cycle. -/
def Group.pendingAfter (g : Group) (l : Nat) (dst : Dest) (t : Nat) : Bool :=
  g.pend.any fun p => (decide (p.lane = l) || dst.ofGroup) && decide (p.dst = dst) && decide (t < p.land)

/-- Whether a name of a lane is the destination of a counted load that no wait has made ready (R153). -/
def Group.unready (g : Group) (l : Nat) (dst : Dest) : Bool :=
  g.counted.any fun q => q.dsts.any fun e => decide (e.1 = l) && decide (e.2 = dst)

/-- The destinations that an operand names in a lane; p15 is none, since it reads 1 at all times (R20). -/
def Group.opndDests (g : Group) (l : Nat) (o : Opnd) : List Dest :=
  match o.cls with
  | .v len _ => g.destRun l o.n len
  | .m => [.m o.n]
  | .p _ => if o.n % 16 = 15 then [] else [.p (o.n % 16)]
  | .pw => (countFrom 0 15).map Dest.p
  | .q => [.q o.n]

/-- A predicate's own result, or one of the whole word, that lands after a die cycle. -/
def Group.lateAfter (g : Group) (l : Nat) (dst : Dest) (t : Nat) : Bool :=
  g.pendingAfter l dst t ||
  match dst with
  | .p _ => g.pendingAfter l .pw t
  | _ => false

/-- Whether a source is not ready: a result on its way, or a counted load that no wait has made ready (R43, R153). -/
def Group.lateRead (g : Group) (l : Nat) (dst : Dest) (now : Nat) : Bool := g.lateAfter l dst now || g.unready l dst

/-- Whether a name of a lane is the destination of an access that is still on its way. -/
def Group.coming (g : Group) (l : Nat) (dst : Dest) : Bool :=
  g.acc.any fun a => a.op.regs.any fun e => decide (e.1 = l) && decide (e.2 = dst)

/-- Whether a destination's pending write lands after die cycle `t` (R43); one of variable latency counts as later while it is on its
way (log 55). -/
def Group.lateWrite (g : Group) (l : Nat) (dst : Dest) (t : Nat) : Bool := g.lateAfter l dst t || g.coming l dst

/-- The lanes in which a word reads a source: the leader's alone (R51), for a post's B operand the lowest of each octet (R190), or all. -/
def Group.readLanes (g : Group) (c : Issue) (i : Instr) (o : Opnd) : List Nat :=
  if i.fromLeader o then (g.leader c.on).toList
  else if i.isPost then
    let live := c.on.filter g.isLive
    if o.field = 3 then live.filter fun l => !live.any fun k => decide (k < l) && decide (k / 8 = l / 8) else live
  else c.on

/-- The field for which a word is STALL_SHORT (R43): a source that is not ready in a lane of `rl`, where the word reads it, or a destination
whose pending write would land after this one. -/
def shortField (g : Group) (os : List Opnd) (now lat : Nat) (rl : Opnd → List Nat) (ls : List Nat) : Option Nat :=
  lowestField (os.filter fun o =>
    (o.rd && (rl o).any fun l => (g.opndDests l o).any fun dst => g.lateRead l dst now) ||
    (o.wr && ls.any fun l => (g.opndDests l o).any fun dst => g.lateWrite l dst (now + lat)))

/-- Whether an operand is the A run of a post that takes its latched rows, and so is not read (R190). -/
def latchedRun (g : Group) (c : Issue) (i : Instr) (o : Opnd) : Bool :=
  i.isPost && c.reuse && decide (o.field = 2) &&
    (c.on.filter g.isLive).all fun l => g.latches.any fun x => decide (x.octet = l / 8)

/-- The words that an operand reads in a lane. -/
def opndWords (d : Dev) (g : Group) (c : Issue) (l : Nat) (o : Opnd) : List Nat :=
  if o.rd then
    match o.cls with
    | .v len _ => (countFrom o.n len).map fun n => (srcV d g c l n).toNat
    | .m => [(cellGet (g.lane l).m o.n).toNat]
    | .p _ => [((g.lane l).predF o.n).toNat]
    | .pw => [(g.lane l).preds.toNat]
    | .q => []
  else []

/-- The field in which the sources of live lanes differ (R52). -/
def nonuniformField (d : Dev) (g : Group) (c : Issue) (os : List Opnd) : Option Nat :=
  match c.on.filter g.isLive with
  | [] => none
  | l :: ls => lowestField (os.filter fun o => ls.any fun k => decide (opndWords d g c k o ≠ opndWords d g c l o))

/-- Whether the guard of the issuing word reads a predicate that is not ready (R43): in any lane of the batch, whatever the guard
reads there (log 55). -/
def guardLate (g : Group) (c : Issue) (now : Nat) : Bool :=
  !c.on.isEmpty && decide (c.guard % 16 ≠ 15) && c.lanes.any fun l => g.lateRead l (.p (c.guard % 16)) now

/-- Whether a word's scoreboard, uniformity and lock checks are made now: those of a held word and of a chain have been made. -/
def Issue.fresh (c : Issue) : Bool := c.resume.isNone && !c.checked

/-- Checks 4 to 8 of R53 in their order, with their cause details: faults `bad` of the fields and of values, the extended lock, reserved
divergence registers, sources `short`, read in the lanes `rl`, that are not ready, and sources `cmp` that are not uniform. -/
def operandFault (d : Dev) (g : Group) (la : Launch) (c : Issue) (bad : Option (Nat × Nat)) (os short cmp : List Opnd)
    (rl : Opnd → List Nat) (lat : Nat) : Option FaultInfo :=
  let slot := pcSlot c.loc
  match bad with
  | some (r, f) => some { code := .illegalOperand, cause := checkCause slot f r }
  | none =>
    match (if d.holdsX g || !c.fresh then none else extendedField os) with
    | some f => some { code := .xregNotHeld, cause := checkCause slot f 13 }
    | none =>
      match divRegField la.divDepth os with
      | some f => some { code := .divReg, cause := checkCause slot f 13 }
      | none =>
        match (if g.sbchk && c.fresh then
            (if guardLate g c (d.now g) then some 0 else shortField g short (d.now g) lat rl c.on) else none) with
        | some f => some { code := .stallShort, cause := checkCause slot f 14 }
        | none =>
          match (if g.uchk && c.fresh then nonuniformField d g c cmp else none) with
          | some f => some { code := .nonuniform, cause := checkCause slot f 15 }
          | none => none

/-- Those checks of a word's own operands. -/
def commonFault (d : Dev) (g : Group) (la : Launch) (c : Issue) (i : Instr) (lat : Nat) : Option FaultInfo :=
  operandFault d g la c i.fieldFault i.operands (i.operands.filter fun o => !latchedRun g c i o)
    (if i.uni then i.operands.filter i.compares else []) (g.readLanes c i) lat

/-- Those checks with the ILLEGAL_OPERANDs, reason and field, that values, structures and states cause (R53). -/
def valuedFault (d : Dev) (g : Group) (la : Launch) (c : Issue) (i : Instr) (vals : List (Nat × Nat)) : Option FaultInfo :=
  match lowestCause vals with
  | none => commonFault d g la c i i.latency
  | some v => operandFault d g la c (lowestCause (v :: i.fieldFault.toList)) [] [] [] (fun _ => []) 0

/-- A word: the checks common to all, then what it does in its group and launch (R53). -/
def word (i : Instr) (body : Issue → Group → Launch → Part) (s : State) : List Act :=
  match s.dev.cur with
  | none => []
  | some c =>
    match s.dev.group? c.g, s.dev.launch? c.g.launch with
    | some g, some la =>
      match commonFault s.dev g la c i i.latency with
      | some f => raise c f s
      | none => body c g la s
    | _, _ => []

/-- A word with checks of its own, and then what it does in its group and launch. -/
def checkedWord (check : State → Issue → Group → Launch → Option FaultInfo) (body : Issue → Group → Launch → Part) (s : State) : List Act :=
  match s.dev.cur with
  | none => []
  | some c =>
    match s.dev.group? c.g, s.dev.launch? c.g.launch with
    | some g, some la =>
      match check s c g la with
      | some f => raise c f s
      | none => body c g la s
    | _, _ => []

/-- A cause of ILLEGAL_OPERAND that is a register value, a structure or a state, in a field, where it holds (R53, item 4). -/
def causeIf (field : Nat) (bad : Bool) : List (Nat × Nat) := if bad then [(12, field)] else []

/-- A word whose values can make it ILLEGAL_OPERAND: `vals` gives those causes, and the rest is as for any word (R53). -/
def wordWith (i : Instr) (vals : State → Issue → Group → Launch → List (Nat × Nat)) (body : Issue → Group → Launch → Part)
    (s : State) : List Act :=
  match s.dev.cur with
  | none => []
  | some c =>
    match s.dev.group? c.g, s.dev.launch? c.g.launch with
    | some g, some la =>
      match valuedFault s.dev g la c i (vals s c g la) with
      | some f => raise c f s
      | none => body c g la s
    | _, _ => []

/-- An ILLEGAL_OPERAND whose cause is a register value, a structure or a state (reason 12). -/
def valueFault (c : Issue) (field : Nat) : FaultInfo :=
  { code := .illegalOperand, cause := checkCause (pcSlot c.loc) field 12 }

end Sys2Proof.Machine
end

