-- ==== Sys2Proof/Machine/Flags.lean ====
section
/-!
DEFINITION. The forms in which results and sticky flags leave a computing word: one value a lane, or one value of the leader for
every lane (R51), with the flags of live lanes ORed (R106, R107).
-/

namespace Sys2Proof.Machine

/-- The results of a run of `k` v registers from the low words of a number up (R21). -/
def outRun (g : Group) (l n : Nat) (k : Nat) (v : Nat) : List Out :=
  (countFrom 0 k).map fun j => ⟨l, g.destV l (n + j), BitVec.ofNat 64 (v / 2 ^ (32 * j) % 2 ^ 32)⟩

/-- A predicate result; a write to p15 takes no effect (R20). -/
def outPred (l k : Nat) (b : Bool) : List Out :=
  if k = 15 then [] else [⟨l, .p k, BitVec.ofNat 64 b.toNat⟩]

/-- A moment result (R64). -/
def outMom (l n : Nat) (m v : Nat) : List Out := [⟨l, .m n, BitVec.ofNat 64 (m % 2 ^ 32 + v % 2 ^ 32 * 2 ^ 32)⟩]

/-- Sticky bits on their way to GSR (R107); none where no bit is set. -/
def outFlags (b : Nat) : List Out := if b = 0 then [] else [⟨0, .fpf, BitVec.ofNat 64 b⟩]

/-- Results put on their way; a word without a result leaves the records as they are. -/
def retire (k : GKey) (lat : Nat) (outs : List Out) : Part := fun s =>
  if outs.isEmpty then [] else [.dev (s.dev.retire k lat outs)]

/-- The lane whose sources a lane's result comes from: the leader under S, the lane itself otherwise (R51). -/
def sourceLane (g : Group) (c : Issue) (sc : Bool) (l : Nat) : Option Nat := if sc then g.leader c.on else some l

/-- A word whose result in each lane whose guard is true is a run of `k` registers, computed from the v registers. -/
def laneWord (i : Instr) (sc : Bool) (d : Reg) (k : Nat) (f : (Nat → Word) → Nat) (s : State) : List Act :=
  word i (fun c g _ s =>
    retire c.g i.latency (c.on.flatMap fun l =>
      match sourceLane g c sc l with
      | some m => outRun g l d.toNat k (f (srcV s.dev g c m))
      | none => []) s) s

/-- A word whose result is a predicate, computed from the v registers. -/
def predWord (i : Instr) (sc : Bool) (d : Reg) (f : (Nat → Word) → Bool) (s : State) : List Act :=
  word i (fun c g _ s =>
    retire c.g i.latency (c.on.flatMap fun l =>
      match sourceLane g c sc l with
      | some m => outPred l d.toNat (f (srcV s.dev g c m))
      | none => []) s) s

/-- The lanes whose flags count: live lanes, and under S the leader alone (R51, R73). -/
def flagLanes (g : Group) (c : Issue) (sc : Bool) : List Nat :=
  if sc then (match g.leader c.on with | some l => [l] | none => []) else c.on.filter g.isLive

/-- The sticky bits of several results. -/
def joinBits (fs : List Flags) : Nat := (fs.foldl Flags.join {}).bits

/-- A floating-point word: a number for a run of `k` registers, with the flags of its elements. -/
def fpWord (i : Instr) (sc : Bool) (d : Reg) (k : Nat) (f : Rm → (Nat → Word) → Nat × Flags) (s : State) : List Act :=
  word i (fun c g _ s =>
    retire c.g i.latency ((c.on.flatMap fun l =>
      match sourceLane g c sc l with
      | some m => outRun g l d.toNat k (f g.rm (srcV s.dev g c m)).1
      | none => []) ++
      outFlags (joinBits ((flagLanes g c sc).map fun l => (f g.rm (srcV s.dev g c l)).2))) s) s

end Sys2Proof.Machine
end

