-- ==== Sys2Proof/Machine/Alu.lean ====
section
/-!
DEFINITION. The integer ALU: opcodes 0x08 to 0x17 (R79 to R92). Each meaning gives the value of its destination from its sources.
-/

namespace Sys2Proof.Machine

/-- The signed value of a word clamped to an interval. -/
def clampInt (lo hi x : Int) : Nat := ((max lo (min hi x)) % (2 ^ 32 : Int)).toNat

/-- Two's complement of 64 bits. -/
def wrap64 (x : Int) : Nat := (x % (2 ^ 64 : Int)).toNat

/-- Shift left by an unbounded amount (R83). -/
def shlW (a : Word) (n : Nat) : Word := if 32 ≤ n then 0 else a <<< n
def shrZ (a : Word) (n : Nat) : Word := if 32 ≤ n then 0 else a >>> n
def shrS (a : Word) (n : Nat) : Word := if 32 ≤ n then (if a.msb then BitVec.allOnes 32 else 0) else a.sshiftRight n
def rotl (a : Word) (n : Nat) : Word := a.rotateLeft (n % 32)
def rotr (a : Word) (n : Nat) : Word := a.rotateRight (n % 32)

/-- The number of 1 bits among the low `n` bits. -/
def popcount (x : Nat) : Nat → Nat
  | 0 => 0
  | n + 1 => (bitAt x n).toNat + popcount x n

/-- The number of leading 0 bits among the low `n` bits. -/
def leadingZeros (x : Nat) : Nat → Nat
  | 0 => 0
  | n + 1 => if bitAt x n then 0 else 1 + leadingZeros x n

/-- The number of trailing 0 bits of the `n` bits from `k` on. -/
def trailingZeros (x k : Nat) : Nat → Nat
  | 0 => 0
  | n + 1 => if bitAt x k then 0 else 1 + trailingZeros x (k + 1) n

/-- The low `n` bits in reverse order. -/
def reverseBits (x : Nat) : Nat → Nat
  | 0 => 0
  | n + 1 => (bitAt x n).toNat * 2 ^ (31 - n) + reverseBits x n

/-- The four bytes of a word in reverse order. -/
def swapBytes (x : Nat) : Nat :=
  x % 256 * 2 ^ 24 + x / 2 ^ 8 % 256 * 2 ^ 16 + x / 2 ^ 16 % 256 * 2 ^ 8 + x / 2 ^ 24 % 256

/-- Position and number of bits of the field that a word names (R85). -/
def fieldPos (b : Word) : Nat := bits b.toNat 0 5
def fieldLen (b : Word) : Nat := min (fieldPos b + min (bits b.toNat 8 6) 32) 32 - fieldPos b

/-- `bfx` (R85). -/
def extractField (signed : Bool) (a b : Word) : Nat :=
  let m := fieldLen b
  let x := bits a.toNat (fieldPos b) m
  if signed && decide (0 < m) && bitAt x (m - 1) then x + (2 ^ 32 - 2 ^ m) else x

/-- `bfi` (R85). -/
def insertField (d a b : Word) : Nat :=
  let m := fieldLen b
  let p := fieldPos b
  d.toNat - bits d.toNat p m * 2 ^ p + bits a.toNat 0 m * 2 ^ p

/-- The condition of `icmp` (R87). -/
def icondHolds (k : ICond) (a b : Word) : Bool :=
  match k with
  | .eq => a == b
  | .ne => a != b
  | .ltS32 => decide (a.toInt < b.toInt)
  | .leS32 => decide (a.toInt ≤ b.toInt)
  | .ltZ32 => decide (a.toNat < b.toNat)
  | .leZ32 => decide (a.toNat ≤ b.toNat)
  | .tst => a &&& b != 0

/-- A pair of registers as read. -/
def rd64 (r : Nat → Word) (n : Nat) : Nat := pair64 (r n) (r (n + 1))

/-- `add` (R80). -/
def execAdd (sc : Bool) (d : Reg) (a : Reg) (b : Reg) (s : State) : Host.Outcome State Fault Refusal :=
  commit s (laneWord (.add sc d a b) sc d 1 (fun r => (r a.toNat + r b.toNat).toNat) s)

/-- `sub` (R80). -/
def execSub (sc : Bool) (d : Reg) (a : Reg) (b : Reg) (s : State) : Host.Outcome State Fault Refusal :=
  commit s (laneWord (.sub sc d a b) sc d 1 (fun r => (r a.toNat - r b.toNat).toNat) s)

/-- `add.sat.s32` (R80). -/
def execAddSatS32 (sc : Bool) (d : Reg) (a : Reg) (b : Reg) (s : State) : Host.Outcome State Fault Refusal :=
  commit s (laneWord (.addSatS32 sc d a b) sc d 1 (fun r => clampInt (-2 ^ 31) (2 ^ 31 - 1) ((r a.toNat).toInt + (r b.toNat).toInt)) s)

/-- `sub.sat.s32` (R80). -/
def execSubSatS32 (sc : Bool) (d : Reg) (a : Reg) (b : Reg) (s : State) : Host.Outcome State Fault Refusal :=
  commit s (laneWord (.subSatS32 sc d a b) sc d 1 (fun r => clampInt (-2 ^ 31) (2 ^ 31 - 1) ((r a.toNat).toInt - (r b.toNat).toInt)) s)

/-- `add.sat.z32` (R80). -/
def execAddSatZ32 (sc : Bool) (d : Reg) (a : Reg) (b : Reg) (s : State) : Host.Outcome State Fault Refusal :=
  commit s (laneWord (.addSatZ32 sc d a b) sc d 1 (fun r => clampInt 0 (2 ^ 32 - 1) (((r a.toNat).toNat : Int) + (r b.toNat).toNat)) s)

/-- `sub.sat.z32` (R80). -/
def execSubSatZ32 (sc : Bool) (d : Reg) (a : Reg) (b : Reg) (s : State) : Host.Outcome State Fault Refusal :=
  commit s (laneWord (.subSatZ32 sc d a b) sc d 1 (fun r => clampInt 0 (2 ^ 32 - 1) (((r a.toNat).toNat : Int) - (r b.toNat).toNat)) s)

/-- `add.b64` (R80). -/
def execAddB64 (sc : Bool) (d : Reg) (a : Reg) (b : Reg) (s : State) : Host.Outcome State Fault Refusal :=
  commit s (laneWord (.addB64 sc d a b) sc d 2 (fun r => (rd64 r a.toNat + rd64 r b.toNat) % 2 ^ 64) s)

/-- `sub.b64` (R80). -/
def execSubB64 (sc : Bool) (d : Reg) (a : Reg) (b : Reg) (s : State) : Host.Outcome State Fault Refusal :=
  commit s (laneWord (.subB64 sc d a b) sc d 2 (fun r => (rd64 r a.toNat + (2 ^ 64 - rd64 r b.toNat)) % 2 ^ 64) s)

/-- `mul` (R81). -/
def execMul (sc : Bool) (d : Reg) (a : Reg) (b : Reg) (s : State) : Host.Outcome State Fault Refusal :=
  commit s (laneWord (.mul sc d a b) sc d 1 (fun r => (r a.toNat * r b.toNat).toNat) s)

/-- `mul.hi.s32` (R81). -/
def execMulHiS32 (sc : Bool) (d : Reg) (a : Reg) (b : Reg) (s : State) : Host.Outcome State Fault Refusal :=
  commit s (laneWord (.mulHiS32 sc d a b) sc d 1 (fun r => wrap64 ((r a.toNat).toInt * (r b.toNat).toInt) / 2 ^ 32) s)

/-- `mul.hi.z32` (R81). -/
def execMulHiZ32 (sc : Bool) (d : Reg) (a : Reg) (b : Reg) (s : State) : Host.Outcome State Fault Refusal :=
  commit s (laneWord (.mulHiZ32 sc d a b) sc d 1 (fun r => (r a.toNat).toNat * (r b.toNat).toNat / 2 ^ 32) s)

/-- `mul.wide.s32` (R81). -/
def execMulWideS32 (sc : Bool) (d : Reg) (a : Reg) (b : Reg) (s : State) : Host.Outcome State Fault Refusal :=
  commit s (laneWord (.mulWideS32 sc d a b) sc d 2 (fun r => wrap64 ((r a.toNat).toInt * (r b.toNat).toInt)) s)

/-- `mul.wide.z32` (R81). -/
def execMulWideZ32 (sc : Bool) (d : Reg) (a : Reg) (b : Reg) (s : State) : Host.Outcome State Fault Refusal :=
  commit s (laneWord (.mulWideZ32 sc d a b) sc d 2 (fun r => (r a.toNat).toNat * (r b.toNat).toNat) s)

/-- `mad` (R81). -/
def execMad (sc : Bool) (d : Reg) (a : Reg) (b : Reg) (s : State) : Host.Outcome State Fault Refusal :=
  commit s (laneWord (.mad sc d a b) sc d 1 (fun r => (r a.toNat * r b.toNat + r d.toNat).toNat) s)

/-- `mad.wide.s32` (R81). -/
def execMadWideS32 (sc : Bool) (d : Reg) (a : Reg) (b : Reg) (s : State) : Host.Outcome State Fault Refusal :=
  commit s (laneWord (.madWideS32 sc d a b) sc d 2 (fun r => wrap64 ((r a.toNat).toInt * (r b.toNat).toInt + rd64 r d.toNat)) s)

/-- `mad.wide.z32` (R81). -/
def execMadWideZ32 (sc : Bool) (d : Reg) (a : Reg) (b : Reg) (s : State) : Host.Outcome State Fault Refusal :=
  commit s (laneWord (.madWideZ32 sc d a b) sc d 2 (fun r => ((r a.toNat).toNat * (r b.toNat).toNat + rd64 r d.toNat) % 2 ^ 64) s)

/-- `and` (R82). -/
def execAnd (sc : Bool) (d : Reg) (a : Reg) (b : Reg) (s : State) : Host.Outcome State Fault Refusal :=
  commit s (laneWord (.and sc d a b) sc d 1 (fun r => (r a.toNat &&& r b.toNat).toNat) s)

/-- `or` (R82). -/
def execOr (sc : Bool) (d : Reg) (a : Reg) (b : Reg) (s : State) : Host.Outcome State Fault Refusal :=
  commit s (laneWord (.or sc d a b) sc d 1 (fun r => (r a.toNat ||| r b.toNat).toNat) s)

/-- `xor` (R82). -/
def execXor (sc : Bool) (d : Reg) (a : Reg) (b : Reg) (s : State) : Host.Outcome State Fault Refusal :=
  commit s (laneWord (.xor sc d a b) sc d 1 (fun r => (r a.toNat ^^^ r b.toNat).toNat) s)

/-- `andn` (R82). -/
def execAndn (sc : Bool) (d : Reg) (a : Reg) (b : Reg) (s : State) : Host.Outcome State Fault Refusal :=
  commit s (laneWord (.andn sc d a b) sc d 1 (fun r => (r a.toNat &&& ~~~(r b.toNat)).toNat) s)

/-- `orn` (R82). -/
def execOrn (sc : Bool) (d : Reg) (a : Reg) (b : Reg) (s : State) : Host.Outcome State Fault Refusal :=
  commit s (laneWord (.orn sc d a b) sc d 1 (fun r => (r a.toNat ||| ~~~(r b.toNat)).toNat) s)

/-- `xnor` (R82). -/
def execXnor (sc : Bool) (d : Reg) (a : Reg) (b : Reg) (s : State) : Host.Outcome State Fault Refusal :=
  commit s (laneWord (.xnor sc d a b) sc d 1 (fun r => (~~~(r a.toNat ^^^ r b.toNat)).toNat) s)

/-- `not` (R82). -/
def execNot (sc : Bool) (d : Reg) (a : Reg) (s : State) : Host.Outcome State Fault Refusal :=
  commit s (laneWord (.not sc d a) sc d 1 (fun r => (~~~(r a.toNat)).toNat) s)

/-- `shl` (R83). -/
def execShl (sc : Bool) (d : Reg) (a : Reg) (b : Reg) (s : State) : Host.Outcome State Fault Refusal :=
  commit s (laneWord (.shl sc d a b) sc d 1 (fun r => (shlW (r a.toNat) (r b.toNat).toNat).toNat) s)

/-- `shr.z32` (R83). -/
def execShrZ32 (sc : Bool) (d : Reg) (a : Reg) (b : Reg) (s : State) : Host.Outcome State Fault Refusal :=
  commit s (laneWord (.shrZ32 sc d a b) sc d 1 (fun r => (shrZ (r a.toNat) (r b.toNat).toNat).toNat) s)

/-- `shr.s32` (R83). -/
def execShrS32 (sc : Bool) (d : Reg) (a : Reg) (b : Reg) (s : State) : Host.Outcome State Fault Refusal :=
  commit s (laneWord (.shrS32 sc d a b) sc d 1 (fun r => (shrS (r a.toNat) (r b.toNat).toNat).toNat) s)

/-- `rol` (R83). -/
def execRol (sc : Bool) (d : Reg) (a : Reg) (b : Reg) (s : State) : Host.Outcome State Fault Refusal :=
  commit s (laneWord (.rol sc d a b) sc d 1 (fun r => (rotl (r a.toNat) (r b.toNat).toNat).toNat) s)

/-- `ror` (R83). -/
def execRor (sc : Bool) (d : Reg) (a : Reg) (b : Reg) (s : State) : Host.Outcome State Fault Refusal :=
  commit s (laneWord (.ror sc d a b) sc d 1 (fun r => (rotr (r a.toNat) (r b.toNat).toNat).toNat) s)

/-- `popc` (R84). -/
def execPopc (sc : Bool) (d : Reg) (a : Reg) (s : State) : Host.Outcome State Fault Refusal :=
  commit s (laneWord (.popc sc d a) sc d 1 (fun r => popcount (r a.toNat).toNat 32) s)

/-- `clz` (R84). -/
def execClz (sc : Bool) (d : Reg) (a : Reg) (s : State) : Host.Outcome State Fault Refusal :=
  commit s (laneWord (.clz sc d a) sc d 1 (fun r => leadingZeros (r a.toNat).toNat 32) s)

/-- `ctz` (R84). -/
def execCtz (sc : Bool) (d : Reg) (a : Reg) (s : State) : Host.Outcome State Fault Refusal :=
  commit s (laneWord (.ctz sc d a) sc d 1 (fun r => trailingZeros (r a.toNat).toNat 0 32) s)

/-- `brev` (R84). -/
def execBrev (sc : Bool) (d : Reg) (a : Reg) (s : State) : Host.Outcome State Fault Refusal :=
  commit s (laneWord (.brev sc d a) sc d 1 (fun r => reverseBits (r a.toNat).toNat 32) s)

/-- `bswap` (R84). -/
def execBswap (sc : Bool) (d : Reg) (a : Reg) (s : State) : Host.Outcome State Fault Refusal :=
  commit s (laneWord (.bswap sc d a) sc d 1 (fun r => swapBytes (r a.toNat).toNat) s)

/-- `bfx.z32` (R85). -/
def execBfxZ32 (sc : Bool) (d : Reg) (a : Reg) (b : Reg) (s : State) : Host.Outcome State Fault Refusal :=
  commit s (laneWord (.bfxZ32 sc d a b) sc d 1 (fun r => extractField false (r a.toNat) (r b.toNat)) s)

/-- `bfx.s32` (R85). -/
def execBfxS32 (sc : Bool) (d : Reg) (a : Reg) (b : Reg) (s : State) : Host.Outcome State Fault Refusal :=
  commit s (laneWord (.bfxS32 sc d a b) sc d 1 (fun r => extractField true (r a.toNat) (r b.toNat)) s)

/-- `bfi` (R85). -/
def execBfi (sc : Bool) (d : Reg) (a : Reg) (b : Reg) (s : State) : Host.Outcome State Fault Refusal :=
  commit s (laneWord (.bfi sc d a b) sc d 1 (fun r => insertField (r d.toNat) (r a.toNat) (r b.toNat)) s)

/-- `min.s32` (R86). -/
def execMinS32 (sc : Bool) (d : Reg) (a : Reg) (b : Reg) (s : State) : Host.Outcome State Fault Refusal :=
  commit s (laneWord (.minS32 sc d a b) sc d 1 (fun r => if (r a.toNat).toInt ≤ (r b.toNat).toInt then (r a.toNat).toNat else (r b.toNat).toNat) s)

/-- `min.z32` (R86). -/
def execMinZ32 (sc : Bool) (d : Reg) (a : Reg) (b : Reg) (s : State) : Host.Outcome State Fault Refusal :=
  commit s (laneWord (.minZ32 sc d a b) sc d 1 (fun r => min (r a.toNat).toNat (r b.toNat).toNat) s)

/-- `max.s32` (R86). -/
def execMaxS32 (sc : Bool) (d : Reg) (a : Reg) (b : Reg) (s : State) : Host.Outcome State Fault Refusal :=
  commit s (laneWord (.maxS32 sc d a b) sc d 1 (fun r => if (r a.toNat).toInt ≤ (r b.toNat).toInt then (r b.toNat).toNat else (r a.toNat).toNat) s)

/-- `max.z32` (R86). -/
def execMaxZ32 (sc : Bool) (d : Reg) (a : Reg) (b : Reg) (s : State) : Host.Outcome State Fault Refusal :=
  commit s (laneWord (.maxZ32 sc d a b) sc d 1 (fun r => max (r a.toNat).toNat (r b.toNat).toNat) s)

/-- `abs.s32` (R86). -/
def execAbsS32 (sc : Bool) (d : Reg) (a : Reg) (s : State) : Host.Outcome State Fault Refusal :=
  commit s (laneWord (.absS32 sc d a) sc d 1 (fun r => if (r a.toNat).toInt < 0 then (-(r a.toNat)).toNat else (r a.toNat).toNat) s)

/-- `neg.s32` (R86). -/
def execNegS32 (sc : Bool) (d : Reg) (a : Reg) (s : State) : Host.Outcome State Fault Refusal :=
  commit s (laneWord (.negS32 sc d a) sc d 1 (fun r => (-(r a.toNat)).toNat) s)

/-- `icmp` (R87). -/
def execIcmp (sc : Bool) (d : Reg) (a : Reg) (b : Reg) (k : ICond) (s : State) : Host.Outcome State Fault Refusal :=
  commit s (predWord (.icmp sc d a b k) sc d (fun r => icondHolds k (r a.toNat) (r b.toNat)) s)

/-- `movi` (R88). -/
def execMovi (sc : Bool) (d : Reg) (i : BitVec 17) (s : State) : Host.Outcome State Fault Refusal :=
  commit s (laneWord (.movi sc d i) sc d 1 (fun _ => (i.signExtend 32).toNat) s)

/-- `movh` (R88). -/
def execMovh (sc : Bool) (d : Reg) (i : BitVec 17) (s : State) : Host.Outcome State Fault Refusal :=
  commit s (laneWord (.movh sc d i) sc d 1 (fun r => i.toNat * 2 ^ 15 + (r d.toNat).toNat % 2 ^ 15) s)

/-- `iaddi` (R89). -/
def execIaddi (sc : Bool) (d : Reg) (a : Reg) (i : BitVec 10) (s : State) : Host.Outcome State Fault Refusal :=
  commit s (laneWord (.iaddi sc d a i) sc d 1 (fun r => (r a.toNat + i.signExtend 32).toNat) s)

/-- `andi` (R89). -/
def execAndi (sc : Bool) (d : Reg) (a : Reg) (i : BitVec 8) (s : State) : Host.Outcome State Fault Refusal :=
  commit s (laneWord (.andi sc d a i) sc d 1 (fun r => (r a.toNat &&& i.signExtend 32).toNat) s)

/-- `ori` (R89). -/
def execOri (sc : Bool) (d : Reg) (a : Reg) (i : BitVec 8) (s : State) : Host.Outcome State Fault Refusal :=
  commit s (laneWord (.ori sc d a i) sc d 1 (fun r => (r a.toNat ||| i.signExtend 32).toNat) s)

/-- `xori` (R89). -/
def execXori (sc : Bool) (d : Reg) (a : Reg) (i : BitVec 8) (s : State) : Host.Outcome State Fault Refusal :=
  commit s (laneWord (.xori sc d a i) sc d 1 (fun r => (r a.toNat ^^^ i.signExtend 32).toNat) s)

/-- `shli` (R89). -/
def execShli (sc : Bool) (d : Reg) (a : Reg) (n : BitVec 5) (s : State) : Host.Outcome State Fault Refusal :=
  commit s (laneWord (.shli sc d a n) sc d 1 (fun r => (shlW (r a.toNat) n.toNat).toNat) s)

/-- `shri.z32` (R89). -/
def execShriZ32 (sc : Bool) (d : Reg) (a : Reg) (n : BitVec 5) (s : State) : Host.Outcome State Fault Refusal :=
  commit s (laneWord (.shriZ32 sc d a n) sc d 1 (fun r => (shrZ (r a.toNat) n.toNat).toNat) s)

/-- `shri.s32` (R89). -/
def execShriS32 (sc : Bool) (d : Reg) (a : Reg) (n : BitVec 5) (s : State) : Host.Outcome State Fault Refusal :=
  commit s (laneWord (.shriS32 sc d a n) sc d 1 (fun r => (shrS (r a.toNat) n.toNat).toNat) s)

/-- `rori` (R89). -/
def execRori (sc : Bool) (d : Reg) (a : Reg) (n : BitVec 5) (s : State) : Host.Outcome State Fault Refusal :=
  commit s (laneWord (.rori sc d a n) sc d 1 (fun r => (rotr (r a.toNat) n.toNat).toNat) s)

/-- `mov` (R90). -/
def execMov (sc : Bool) (d : Reg) (a : Reg) (s : State) : Host.Outcome State Fault Refusal :=
  commit s (laneWord (.mov sc d a) sc d 1 (fun r => (r a.toNat).toNat) s)

/-- `sel` (R90). -/
def execSel (sc : Bool) (d : Reg) (a : Reg) (b : Reg) (s : State) : Host.Outcome State Fault Refusal :=
  commit s (laneWord (.sel sc d a b) sc d 1 (fun r => if r d.toNat = 0 then (r b.toNat).toNat else (r a.toNat).toNat) s)

/-- `lea` (R91). -/
def execLea (sc : Bool) (d : Reg) (a : Reg) (b : Reg) (n : BitVec 3) (s : State) : Host.Outcome State Fault Refusal :=
  commit s (laneWord (.lea sc d a b n) sc d 1 (fun r => ((r a.toNat).toNat + (r b.toNat).toNat * 2 ^ n.toNat) % 2 ^ 32) s)

/-- The predicates of a lane combined (R92). -/
def predOp (i : Instr) (d : Reg) (f : Lane → Bool) (s : State) : List Act :=
  word i (fun c g _ s => retire c.g i.latency (c.on.flatMap fun l => outPred l d.toNat (f (g.lane l))) s) s

/-- `pand` (R92). -/
def execPand (d : Reg) (a : Reg) (b : Reg) (s : State) : Host.Outcome State Fault Refusal :=
  commit s (predOp (.pand d a b) d (fun x => (x.predF a.toNat && x.predF b.toNat)) s)

/-- `por` (R92). -/
def execPor (d : Reg) (a : Reg) (b : Reg) (s : State) : Host.Outcome State Fault Refusal :=
  commit s (predOp (.por d a b) d (fun x => (x.predF a.toNat || x.predF b.toNat)) s)

/-- `pxor` (R92). -/
def execPxor (d : Reg) (a : Reg) (b : Reg) (s : State) : Host.Outcome State Fault Refusal :=
  commit s (predOp (.pxor d a b) d (fun x => (x.predF a.toNat != x.predF b.toNat)) s)

/-- `p.set` (R92). -/
def execPSet (d : Reg) (a : Reg) (s : State) : Host.Outcome State Fault Refusal :=
  commit s (predWord (.pSet d a) false d (fun r => r a.toNat != 0) s)

/-- `p.get` (R92). -/
def execPGet (d : Reg) (a : Reg) (s : State) : Host.Outcome State Fault Refusal :=
  commit s (word (.pGet d a) (fun c g _ s =>
    retire c.g (Instr.pGet d a).latency
      (c.on.flatMap fun l => outRun g l d.toNat 1 ((g.lane l).predF a.toNat).toNat) s) s)

/-- `pw.rd` (R92). -/
def execPwRd (d : Reg) (s : State) : Host.Outcome State Fault Refusal :=
  commit s (word (.pwRd d) (fun c g _ s =>
    retire c.g (Instr.pwRd d).latency (c.on.flatMap fun l => outRun g l d.toNat 1 (g.lane l).preds.toNat) s) s)

/-- `pw.wr` (R92); p15 stays 1 (R20). -/
def execPwWr (a : Reg) (s : State) : Host.Outcome State Fault Refusal :=
  commit s (word (.pwWr a) (fun c g _ s =>
    retire c.g (Instr.pwWr a).latency
      (c.on.map fun l => ⟨l, .pw, ((srcV s.dev g c l a.toNat).setWidth 16).setWidth 64⟩) s) s)

end Sys2Proof.Machine
end

