-- ==== Sys2Proof/Machine/MomentMath.lean ====
section
/-!
DEFINITION. The steps of the moment class (R122 to R130) on pairs of FP32 encodings: every step marked RN in the spec is one
rounding to nearest of an exact expression.
-/

namespace Sys2Proof.Machine

/-- A mean and a variance, as FP32 encodings (R64). -/
structure Moment where
  mean : Nat
  var : Nat
  deriving DecidableEq, Repr

/-- A product of factors (R123): NaN with a NaN factor, else a zero with a zero factor, else infinite or exact. -/
def prodVal (fs : List Val) : Val :=
  let neg := (fs.filter valNeg).length % 2 == 1
  if fs.any Val.isNan then .nan
  else if fs.any (fun v => match v with | .fin _ 0 _ => true | _ => false) then .fin neg 0 0
  else if fs.any (fun v => match v with | .inf _ => true | _ => false) then .inf neg
  else
    let p := fs.foldl (fun a v => match v with | .fin _ m e => Dy.mul a ⟨m, e⟩ | _ => a) ⟨1, 0⟩
    .fin neg p.m.natAbs p.e

/-- A sum of terms (R123); `none` where infinite terms of both signs occur. -/
def sumVal : List Val → Option Val
  | [] => some (.fin false 0 0)
  | t :: ts =>
    if (t :: ts).any Val.isNan then some .nan
    else ts.foldl (fun a v => a.bind fun x => addVal .rn x v) (some t)

/-- A sum of products (R123). -/
def sumOfProducts (ts : List (List Val)) : Option Val := sumVal (ts.map prodVal)

/-- RN of an exact value (R123). -/
def rnVal : Option Val → Res
  | none => ⟨fmtF32.nan, Flags.invalid⟩
  | some v => roundVal fmtF32 .rn false v

/-- RN of a sum of products. -/
def rnSum (ts : List (List Val)) : Res := rnVal (sumOfProducts ts)

def f32 (b : Nat) : Val := fmtF32.value b

/-- The integer `k` as a value. -/
def intV (k : Int) : Val := .fin (decide (k < 0)) k.natAbs 0

/-- Twice, four times, half of a value, exactly. -/
def scaleVal (k : Int) : Val → Val
  | .fin a m e => .fin a m (e + k)
  | v => v

/-- RN(sqrt(x)). A valid variance is never negative (R122). -/
def rnSqrt (x : Val) : Res :=
  match x with
  | .nan => ⟨fmtF32.nan, {}⟩
  | .inf neg => if neg then ⟨fmtF32.nan, Flags.invalid⟩ else ⟨fmtF32.inf false, {}⟩
  | .fin neg m e =>
    if m = 0 then ⟨fmtF32.zero neg, {}⟩
    else if neg then ⟨fmtF32.nan, Flags.invalid⟩
    else roundSqrt fmtF32 .rn m 1 e

/-- RN(exp(x)). -/
def rnExp (x : Option Val) : Res :=
  match x with
  | none => ⟨fmtF32.nan, Flags.invalid⟩
  | some .nan => ⟨fmtF32.nan, {}⟩
  | some (.inf neg) => if neg then ⟨fmtF32.zero false, {}⟩ else ⟨fmtF32.inf false, {}⟩
  | some (.fin neg m e) =>
    if m = 0 then ⟨fmtF32.one false, {}⟩
    else roundBy [16, neg.toNat, m, e.natAbs] fmtF32 .rn fun n => expEnc n (dyOf neg m e)

/-- The enclosure of exp(v) − 1 for v > 0. -/
def expm1Enc (n : Nat) (v : Dy) : Option Enc :=
  match expEnc n v with
  | none => none
  | some c =>
    if 0 ≤ c.exp then some { c with lo := c.lo - 1 }
    else
      let one := 2 ^ (-c.exp).toNat
      if one < c.lo then some { c with lo := c.lo - one, hi := c.hi - one } else none

/-- The product of two enclosures. -/
def Enc.mul (a b : Enc) : Enc := ⟨a.neg != b.neg, a.lo * b.lo, a.hi * b.hi, a.exp + b.exp⟩

/-- RN((exp(v) − 1) · exp(a)), with v ≥ 0 (R128, `mexp`). -/
def rnExpm1Exp (v : Val) (a : Option Val) : Res :=
  match v, a with
  | _, none => ⟨fmtF32.nan, Flags.invalid⟩
  | .nan, _ => ⟨fmtF32.nan, {}⟩
  | _, some .nan => ⟨fmtF32.nan, {}⟩
  | .fin _ 0 _, some _ => ⟨fmtF32.zero false, {}⟩
  | _, some (.inf true) => ⟨fmtF32.zero false, {}⟩
  | .inf _, some _ => ⟨fmtF32.inf false, {}⟩
  | _, some (.inf false) => ⟨fmtF32.inf false, {}⟩
  | .fin _ m e, some (.fin neg am ae) =>
    roundBy [17, m, e.natAbs, neg.toNat, am, ae.natAbs] fmtF32 .rn fun n =>
      match expm1Enc n ⟨m, e⟩, expEnc n (dyOf neg am ae) with
      | some x, some y => some (x.mul y)
      | _, _ => none

/-- RN(Phi(x)) of an FP32 value. -/
def rnPhiCdf (b : Nat) : Res := sfu fmtF32 .rn .ncdf b
/-- RN(phi(x)) of an FP32 value. -/
def rnPhiPdf (b : Nat) : Res := sfu fmtF32 .rn .npdf b

/-- RN(S(x)), S(x) = 1/(1 + exp(−x)). -/
def rnLogistic (b : Nat) : Res :=
  match f32 b with
  | .nan => ⟨fmtF32.nan, {}⟩
  | .inf neg => if neg then ⟨fmtF32.zero false, {}⟩ else ⟨fmtF32.one false, {}⟩
  | .fin neg m e =>
    if m = 0 then ⟨fmtF32.one false - 2 ^ 23, {}⟩
    else
      let x := dyOf neg m e
      roundBy [18, neg.toNat, m, e.natAbs] fmtF32 .rn fun n =>
        if x.atLeast 400 then some (if neg then nearZero else nearOne false) else logisticEnc n x

/-- RN(a / b) of a finite a and a positive finite b, with the rules for infinite and NaN operands (R123). -/
def rnQuot (a b : Val) : Res :=
  match a, b with
  | .nan, _ => ⟨fmtF32.nan, {}⟩
  | _, .nan => ⟨fmtF32.nan, {}⟩
  | .inf _, .inf _ => ⟨fmtF32.nan, Flags.invalid⟩
  | .inf x, .fin y _ _ => ⟨fmtF32.inf (x != y), {}⟩
  | .fin x _ _, .inf y => ⟨fmtF32.zero (x != y), {}⟩
  | .fin x m e, .fin y n f =>
    if m = 0 then ⟨fmtF32.zero (x != y), {}⟩
    else if n = 0 then ⟨fmtF32.inf (x != y), Flags.divZero⟩
    else roundPos fmtF32 .rn false (x != y) m n (e - f)

/-- 4 − 2√2, the α of R128, as an interval. -/
def alphaIv (n : Nat) : Iv :=
  let r := Iv.sqrt n (Iv.ofInt n 2)
  (Iv.ofInt n 4).sub ⟨2 * r.lo, 2 * r.hi⟩

/-- −ln(√2 + 1) = −2 atanh(√2 − 1), the β of R128, as an interval. -/
def betaIv (n : Nat) : Iv :=
  let r := Iv.sqrt n (Iv.ofInt n 2)
  let a := atanhIv n (r.sub (Iv.ofInt n 1))
  (a.add a).neg

/-- An enclosure of (x lo..hi) / sqrt(1 + c · v / 8) for a signed interval numerator at scale 2^w. -/
def overRoot (w : Nat) (num c : Iv) (v : Dy) : Option Enc :=
  let d := (Iv.ofInt w 1).add ((c.mul w (Iv.ofDy w v)).divNat 8)
  (num.div w (Iv.sqrt w d)).enc w

/-- k1 of Sig: RN(m / sqrt(1 + π v / 8)) (R128). -/
def sigK1 (m v : Val) : Res :=
  match m, v with
  | .nan, _ => ⟨fmtF32.nan, {}⟩
  | _, .nan => ⟨fmtF32.nan, {}⟩
  | .inf _, .inf _ => ⟨fmtF32.nan, Flags.invalid⟩
  | .inf a, .fin _ _ _ => ⟨fmtF32.inf a, {}⟩
  | .fin a _ _, .inf _ => ⟨fmtF32.zero a, {}⟩
  | .fin a mm me, .fin _ vm ve =>
    if mm = 0 then ⟨fmtF32.zero a, {}⟩
    else if vm = 0 then roundDyadic fmtF32 .rn false a mm me
    else
      let x := dyOf a mm me
      let y : Dy := ⟨vm, ve⟩
      roundBy [19, a.toNat, mm, me.natAbs, vm, ve.natAbs] fmtF32 .rn fun n =>
        let w := n + 200 + 2 * y.intBits
        overRoot w (Iv.ofDy w x) (piIv w) y

/-- k2 of Sig: RN(α (m + β) / sqrt(1 + π α² v / 8)) (R128). -/
def sigK2 (m v : Val) : Res :=
  match m, v with
  | .nan, _ => ⟨fmtF32.nan, {}⟩
  | _, .nan => ⟨fmtF32.nan, {}⟩
  | .inf _, .inf _ => ⟨fmtF32.nan, Flags.invalid⟩
  | .inf a, .fin _ _ _ => ⟨fmtF32.inf a, {}⟩
  | .fin a mm me, .inf _ =>
    let t := (Iv.ofDy 200 (dyOf a mm me)).add (betaIv 200)
    ⟨fmtF32.zero (decide (t.lo < 0)), {}⟩
  | .fin a mm me, .fin _ vm ve =>
    let x := dyOf a mm me
    let y : Dy := ⟨vm, ve⟩
    roundBy [20, a.toNat, mm, me.natAbs, vm, ve.natAbs] fmtF32 .rn fun n =>
      let w := n + 200 + 2 * y.intBits
      let al := alphaIv w
      overRoot w (al.mul w ((Iv.ofDy w x).add (betaIv w))) ((piIv w).mul w (al.mul w al)) y

/-- A mean and a variance before the variance check, with the flags of all steps. -/
structure MomRes where
  mean : Nat
  var : Nat
  fl : Flags
  deriving DecidableEq, Repr

/-- Sig(m, v) (R128). -/
def sigStep (m v : Val) : MomRes :=
  let k1 := sigK1 m v
  let mu := rnLogistic k1.bits
  let k2 := sigK2 m v
  let t := rnLogistic k2.bits
  let d := rnSum [[f32 t.bits], [intV (-1), f32 mu.bits, f32 mu.bits]]
  ⟨mu.bits, d.bits, ((k1.fl.join mu.fl).join (k2.fl.join t.fl)).join d.fl⟩

/-- `mrelu` (R128). -/
def mreluStep (a : Moment) : MomRes :=
  let m := f32 a.mean
  let v := f32 a.var
  let s := rnSqrt v
  match f32 s.bits with
  | .fin _ 0 _ =>
    let mu := if m.isNan then fmtF32.nan
      else match m with
        | .inf false => a.mean
        | .fin false (_ + 1) _ => a.mean
        | _ => 0
    ⟨mu, 0, s.fl⟩
  | sv =>
    let al := rnQuot m sv
    let p := rnPhiCdf al.bits
    let q := rnPhiPdf al.bits
    let pv := f32 p.bits
    let qv := f32 q.bits
    let mu := rnSum [[m, pv], [sv, qv]]
    let muv := f32 mu.bits
    let var := rnVal (match sumOfProducts [[m, m], [v]] with
      | none => none
      | some w => sumOfProducts [[w, pv], [m, sv, qv], [intV (-1), muv, muv]])
    ⟨mu.bits, var.bits, ((s.fl.join al.fl).join (p.fl.join q.fl)).join (mu.fl.join var.fl)⟩

/-- `mexp` (R128). -/
def mexpStep (a : Moment) : MomRes :=
  let m := f32 a.mean
  let v := f32 a.var
  let mu := rnExp (sumVal [m, scaleVal (-1) v])
  let var := rnExpm1Exp v (sumVal [scaleVal 1 m, v])
  ⟨mu.bits, var.bits, mu.fl.join var.fl⟩

/-- `msigm` (R128). -/
def msigmStep (a : Moment) : MomRes := sigStep (f32 a.mean) (f32 a.var)

/-- `mtanh` (R128). -/
def mtanhStep (a : Moment) : MomRes :=
  let r := sigStep (scaleVal 1 (f32 a.mean)) (scaleVal 2 (f32 a.var))
  let mu := rnSum [[intV 2, f32 r.mean], [intV (-1)]]
  let var := rnSum [[intV 4, f32 r.var]]
  ⟨mu.bits, var.bits, r.fl.join (mu.fl.join var.fl)⟩

/-- The correlation ρ of two sources (R124). -/
def rhoVal (cvm rho : Nat) : Val :=
  match cvm with
  | 0 => intV 0
  | 1 => intV 1
  | 2 => intV (-1)
  | _ => fmtF16.value rho

/-- Whether ρ is 0, so that every term with it is left out (R124). -/
def rhoZero (r : Val) : Bool :=
  match r with
  | .fin _ 0 _ => true
  | _ => false

/-- The two rounded deviations, where a ρ term is kept (R126). -/
def sigmas (r : Val) (a b : Moment) : Option (Val × Val) × Flags :=
  if rhoZero r then (none, {})
  else
    let x := rnSqrt (f32 a.var)
    let y := rnSqrt (f32 b.var)
    (some (f32 x.bits, f32 y.bits), x.fl.join y.fl)

/-- `madd` and `msub` (R126); `sg` is 1 or −1. -/
def maddStep (sg : Int) (r : Val) (a b : Moment) : MomRes :=
  let s := sigmas r a b
  let mu := rnSum [[f32 a.mean], [intV sg, f32 b.mean]]
  let kept := match s.1 with
    | none => []
    | some (x, y) => [[intV (2 * sg), r, x, y]]
  let var := rnSum ([[f32 a.var], [f32 b.var]] ++ kept)
  ⟨mu.bits, var.bits, s.2.join (mu.fl.join var.fl)⟩

/-- The factor 1 + ρ². -/
def onePlusRho2 (r : Val) : Val :=
  match sumOfProducts [[intV 1], [r, r]] with
  | some v => v
  | none => .nan

/-- `mmul`, and `mfma` with its addend (R126). -/
def mmulStep (r : Val) (a b : Moment) (d : Option Moment) : MomRes :=
  let s := sigmas r a b
  let ma := f32 a.mean
  let mb := f32 b.mean
  let va := f32 a.var
  let vb := f32 b.var
  let k1 := match s.1 with
    | none => []
    | some (x, y) => [[r, x, y]]
  let k2 := match s.1 with
    | none => []
    | some (x, y) => [[intV 2, r, ma, mb, x, y]]
  let f := if rhoZero r then [va, vb] else [onePlusRho2 r, va, vb]
  let dm := match d with
    | none => []
    | some m => [[f32 m.mean]]
  let dv := match d with
    | none => []
    | some m => [[f32 m.var]]
  let mu := rnSum ([[ma, mb]] ++ k1 ++ dm)
  let var := rnSum ([[ma, ma, vb], [mb, mb, va], f] ++ k2 ++ dv)
  ⟨mu.bits, var.bits, s.2.join (mu.fl.join var.fl)⟩

/-- `mscl` (R126). -/
def msclStep (a : Moment) (c : Nat) : MomRes :=
  let k := f32 c
  let mu := rnSum [[k, f32 a.mean]]
  let var := rnSum [[k, k, f32 a.var]]
  ⟨mu.bits, var.bits, mu.fl.join var.fl⟩

/-- The value of RN(sqrt(−2 ln(u1))), u1 = (j + 1)/2^24 (R130). -/
def smpRadius (w0 : Nat) : Res :=
  let j := w0 / 2 ^ 8 + 1
  if j = 2 ^ 24 then ⟨0, {}⟩
  else roundBy [21, j] fmtF32 .rn fun n =>
    let t := negLnIv n j 24
    (Iv.sqrt n ⟨2 * t.lo, 2 * t.hi⟩).enc n

/-- RN(cos(2π u2)), u2 = j/2^24 (R130): exact at the quarter turns. R130 gives no sign for the zeros at 1/4 and
3/4: they are +0 (log 65). -/
def smpCos (w1 : Nat) : Res :=
  let j := w1 / 2 ^ 8
  if j = 0 then ⟨fmtF32.one false, {}⟩
  else if j = 2 ^ 23 then ⟨fmtF32.one true, {}⟩
  else if j = 2 ^ 22 ∨ j = 3 * 2 ^ 22 then ⟨0, {}⟩
  else roundBy [22, j] fmtF32 .rn fun n => cosTurnEnc j n

/-- `mcol.smp` from the two words drawn (R130). -/
def mcolSmpStep (a : Moment) (w0 w1 : Nat) : Res :=
  let r := smpRadius w0
  let k := smpCos w1
  let z := rnSum [[f32 r.bits, f32 k.bits]]
  let s := rnSqrt (f32 a.var)
  let d := rnSum [[f32 a.mean], [f32 s.bits, f32 z.bits]]
  ⟨d.bits, ((r.fl.join k.fl).join (z.fl.join s.fl)).join d.fl⟩

/-- A variance that CheckVar refuses: NaN, or below zero; −0 passes (R122). -/
def badVar (b : Nat) : Bool :=
  match f32 b with
  | .nan => true
  | .inf neg => neg
  | .fin neg m _ => neg && decide (m ≠ 0)

end Sys2Proof.Machine
end

