-- ==== Sys2Proof/Machine/Access.lean ====
section
/-!
DEFINITION. Accesses of fibres to memory: addresses and their faults (R146 to R149), race records (R179, R240), views of
vintages (R248 to R250), and the performing of an access (R155, R161, R178, R285).
-/

namespace Sys2Proof.Machine

/-! ### Where bytes lie -/

/-- The byte of a block memory. -/
def blkAddr (launch block off : Nat) : Nat := (launch * 2 ^ 32 + block) * 2 ^ 18 + off

/-- The byte of a lane's spill region. -/
def stkAddr (k : GKey) (lane off : Nat) : Nat :=
  (((k.launch * 2 ^ 32 + k.block) * 16 + k.group) * 64 + lane) * 2 ^ 16 + off

/-- The bank of a store, and the address in it. -/
def Store.bank : Store → Bank
  | .pad => .pad
  | .blk _ _ => .blk
def Store.at_ (st : Store) (a : Nat) : Nat :=
  match st with
  | .pad => a
  | .blk l b => blkAddr l b a

def State.bytes (s : State) (st : Store) (a n : Nat) : List Byte := bytesAt (s.bank st.bank) (st.at_ a) n
def State.nat (s : State) (st : Store) (a n : Nat) : Nat := leNat (s.bytes st a n)

/-- The size of the pad: 576 MiB (R236). -/
def padSize : Nat := 0x24000000

/-- Spaces of an access, by their code in the cause detail (R149). -/
inductive Space where
  | stk | blk | pad | gang
  deriving DecidableEq, Repr

def Space.code : Space → Nat
  | .stk => 0
  | .blk => 1
  | .pad => 2
  | .gang => 3

/-- The gang of a block, and its position in it (R104, R338). -/
def Launch.gangOf (l : Launch) (block : Nat) : Nat := block / max l.gang 1
def Launch.posOf (l : Launch) (block : Nat) : Nat := block % max l.gang 1

/-- Whether `n` bytes from `a` on touch a tagged window of a space (R242). -/
def Launch.inWindow (l : Launch) (pad : Bool) (a n : Nat) : Bool :=
  l.windows.any fun w => decide (w.pad = pad) && decide (w.base < a + n) && decide (a < w.base + w.size)

/-- A field of a job's descriptor (R330). -/
def Job.field (j : Job) (off n : Nat) : Nat := leNat ((j.desc.drop off).take n)

/-- The cellar and the save reservation of a job: base and bytes (R247, R303, R330). -/
def Job.reservations (j : Job) : List (Nat × Nat) := [(j.field 0x1C 4, 64 * j.field 0x20 4), (j.field 0x24 4, j.field 0x28 4)]

/-- Whether the units of some pad bytes are granted to a job (R237). -/
def Job.holds (j : Job) (a n : Nat) : Bool :=
  (countFrom (a / 2 ^ 21) ((a + n - 1) / 2 ^ 21 + 1 - a / 2 ^ 21)).all j.grants.contains

/-- Whether a job's fibres and engines may address some pad bytes: granted, and in no reservation (R237, R247, R330). -/
def Job.granted (j : Job) (a n : Nat) : Bool :=
  j.holds a n && j.reservations.all fun r => decide (r.2 = 0) || decide (a + n ≤ r.1) || decide (r.1 + r.2 ≤ a)

/-- The target of an access: its space, store and offset; `none` where the address is out of bounds (R146). -/
structure Target where
  space : Space
  store : Store
  off : Nat
  deriving DecidableEq, Repr

/-- The target of a block-memory address (R146). -/
def blkTarget (l : Launch) (block addr n : Nat) : Space × Option Target :=
  let g := bitAt addr 20
  let pos := bits addr 18 2
  let off := bits addr 0 18
  let sp : Space := if g then .gang else .blk
  if addr / 2 ^ 21 ≠ 0 ∨ l.blkMem < off + n then (sp, none)
  else if g then
    (if pos < l.gang then (sp, some ⟨.gang, .blk l.tag (l.gangOf block * l.gang + pos), off⟩) else (sp, none))
  else if pos ≠ 0 then (sp, none)
  else (sp, some ⟨.blk, .blk l.tag block, off⟩)

/-- The target of a pad address. -/
def padTarget (addr n : Nat) : Space × Option Target :=
  if padSize < addr + n then (.pad, none) else (.pad, some ⟨.pad, .pad, addr⟩)

/-- The target of an address in the pad or in block memory. -/
def memTarget (l : Launch) (block : Nat) (pad : Bool) (addr n : Nat) : Space × Option Target :=
  if pad then padTarget addr n else blkTarget l block addr n

/-! ### The headgate (R269, R270) -/

/-- The range of the headgate table that a fibre access meets: a write meets SRC and DST ranges, a read DST ranges. -/
def Dev.gateHit (d : Dev) (st : Store) (a n : Nat) (write : Bool) : Option GateRange :=
  d.gate.find? fun r => decide (r.store = st) && decide (r.lo < a + n) && decide (a < r.hi) && (write || r.dst)

/-- AUX of RANGE_LOCK (R270). -/
def gateAux (r : GateRange) : Nat := r.dst.toNat + 2 * r.ue.toNat + 16 * r.engine

/-! ### Race records -/

/-- What an access is to the race records: a plain write, or a read or an atomic. -/
inductive RaceKind where
  | plainWrite
  | other
  deriving DecidableEq, Repr

/-- The record of a granule of block memory in phase `p` (R179). -/
def Block.raceRec (b : Block) (granule : Nat) : BlkRace :=
  match b.races.find? fun r => decide (r.granule = granule) with
  | some r => if r.ph = b.phase.toNat then r else ⟨granule, b.phase.toNat, none, 0⟩
  | none => ⟨granule, b.phase.toNat, none, 0⟩

/-- Bits of a set of accessors other than one. -/
def othersOf (am x : Nat) : Nat := if bitAt am x then am - 2 ^ x else am

/-- The accessor that a block-memory access conflicts with: its number, and whether it made a plain write (R179, R180). -/
def BlkRace.conflict (r : BlkRace) (x : Nat) (k : RaceKind) : Option (Nat × Bool) :=
  match (match r.writer with | some w => if w = x then none else some w | none => none) with
  | some w => some (w, true)
  | none =>
    if k = .plainWrite ∧ othersOf r.readers x ≠ 0 then some (trailing (othersOf r.readers x) 64 0, false) else none
where
  /-- The number of the lowest set bit. -/
  trailing (m : Nat) : Nat → Nat → Nat
    | 0, k => k
    | f + 1, k => if bitAt m k then k else trailing m f (k + 1)

/-- The record after an access (R179). -/
def BlkRace.touch (r : BlkRace) (x : Nat) (k : RaceKind) : BlkRace :=
  match k with
  | .plainWrite => { r with writer := some x }
  | .other => { r with readers := if bitAt r.readers x then r.readers else r.readers + 2 ^ x }

/-- AUX of MM_RACE in block memory (R180). -/
def blkRaceAux (other : Nat × Bool) (k : RaceKind) (ph : Nat) : Nat :=
  other.1 % 64 + 64 * other.2.toNat + 128 * (decide (k = .plainWrite)).toNat + 256 * (ph % 2 ^ 16)

/-- The phase of a block of a launch; a block never placed is in phase 0. -/
def Dev.blockPhase (d : Dev) (tag block : Nat) : Nat :=
  match d.block? tag block with
  | some b => b.phase.toNat
  | none => 0

/-- The record of a granule of the pad as a launch meets it, stale entries dropped (R240). -/
def Dev.padRec (d : Dev) (l : Launch) (granule : Nat) : PadRace :=
  let fresh : PadRace := ⟨granule, l.tag, l.gp, none, none, none⟩
  match d.padRaces.find? fun r => decide (r.granule = granule) with
  | none => fresh
  | some r =>
    if r.ls ≠ l.tag ∨ r.ph ≠ l.gp then fresh
    else
      { r with
        writer := r.writer.filter fun e => decide (d.blockPhase l.tag e.1.block = e.2)
        reader := r.reader.filter fun e => decide (d.blockPhase l.tag e.1.block = e.2)
        many := r.many.filter fun e =>
          match e.1 with
          | some b => decide (d.blockPhase l.tag b = e.2)
          | none => true }

/-- A conflict in the pad: the accessor named and whether it wrote, or the block of the readers (R240). -/
inductive PadConflict where
  | named (x : PadAccessor) (write : Bool)
  | readers (block : Option Nat)
  deriving DecidableEq, Repr

def PadRace.conflict (r : PadRace) (x : PadAccessor) (k : RaceKind) : Option PadConflict :=
  match r.writer.filter fun e => decide (e.1 ≠ x) with
  | some e => some (.named e.1 true)
  | none =>
    match k with
    | .other => none
    | .plainWrite =>
      match r.reader.filter fun e => decide (e.1 ≠ x) with
      | some e => some (.named e.1 false)
      | none => r.many.map fun e => .readers e.1

/-- The record after an access at the accessor's block phase (R240). -/
def PadRace.touch (r : PadRace) (x : PadAccessor) (ph : Nat) (k : RaceKind) : PadRace :=
  match k with
  | .plainWrite => { r with writer := some (x, ph) }
  | .other =>
    match r.reader with
    | none => { r with reader := some (x, ph) }
    | some e =>
      if e.1 = x then r
      else
        match r.many with
        | some (some b, p) => if b ≠ x.block then { r with many := some (none, p) } else r
        | some (none, _) => r
        | none => { r with many := some (if e.1.block = x.block then some x.block else none, ph) }

/-- AUX and the second record of MM_RACE in the pad (R240). -/
def padRaceAux (cf : PadConflict) (k : RaceKind) (ph : Nat) : Nat × (Nat × Nat) :=
  let base := 128 * (decide (k = .plainWrite)).toNat + 256 * (ph % 2 ^ 16)
  match cf with
  | .named x w => (base + x.group % 16 + 64 * w.toNat, (x.block, x.group))
  | .readers b => (base + 16, (b.getD 0xFFFFFFFF, 0xFF))

/-- The faults of an access, in the order of R149; VT_ORPHAN (R253) stands after RANGE_LOCK (log 14). -/
inductive AccFault where
  | misaligned
  | bounds
  | access
  | rangeLock (aux : Nat)
  | vtOrphan (tag : Nat)
  | stack (under : Bool)
  | race (aux : Nat) (second : Option (Nat × Nat))
  | det
  deriving DecidableEq, Repr

def AccFault.rank : AccFault → Nat
  | .misaligned => 0
  | .bounds => 1
  | .access => 2
  | .rangeLock _ => 3
  | .vtOrphan _ => 4
  | .stack _ => 5
  | .race _ _ => 6
  | .det => 7

def AccFault.code : AccFault → FaultCode
  | .misaligned => .misaligned
  | .bounds => .bounds
  | .access => .access
  | .rangeLock _ => .rangeLock
  | .vtOrphan _ => .vtOrphan
  | .stack _ => .stackOverflow
  | .race _ _ => .mmRace
  | .det => .detViolation

/-- How an access uses its bytes. -/
inductive Use where
  | read
  | write
  /-- `order` says that the result depends on the order of accesses: a floating-point sum (R161). -/
  | atomic (order : Bool)
  /-- `wait.addr`: faults as a read of one byte, and leaves no record. -/
  | watch
  deriving DecidableEq, Repr

def Use.raceKind : Use → RaceKind
  | .write => .plainWrite
  | _ => .other
def Use.writes : Use → Bool
  | .write => true
  | .atomic _ => true
  | _ => false

/-- One lane's access: the target and whether it lies in a window at a nonzero current vintage (R244). -/
structure LaneAccess where
  lane : Nat
  addr : Nat
  space : Space
  store : Store
  off : Nat
  size : Nat
  tagged : Bool
  deriving DecidableEq, Repr

/-- Whether a vintage is live in a launch. -/
def Dev.vintage? (d : Dev) (tag : Nat) : Option Vintage := d.vintages.find? fun v => decide (v.tag = tag)
def Dev.liveVt (d : Dev) (launch tag : Nat) : Bool :=
  match d.vintage? tag with
  | some v => v.live && decide (v.launch = launch)
  | none => false

/-- Where an address of an access lies, and its first fault in the order of R149. -/
def accessOf (d : Dev) (g : Group) (l : Launch) (j : Job) (lane : Nat) (pad : Bool) (addr n align : Nat) (u : Use) :
    Except (AccFault × Space) LaneAccess :=
  let t := memTarget l g.key.block pad addr n
  if addr % align ≠ 0 then .error (.misaligned, t.1)
  else match t.2 with
    | none => .error (.bounds, t.1)
    | some t =>
      let win := l.inWindow pad t.off n
      let tagged := win && decide (g.vt ≠ 0)
      if (pad && !j.granted addr n) || (win && decide (t.space = .gang)) then .error (.access, t.space)
      else match d.gateHit t.store t.off n u.writes with
        | some r => .error (.rangeLock (gateAux r), t.space)
        | none =>
          if tagged && !d.liveVt l.tag g.vt then .error (.vtOrphan g.vt, t.space)
          else
            let bad : Option AccFault :=
              if tagged || g.isHelper lane then none
              else match t.store with
                | .pad =>
                  let r := d.padRec l (t.off / 32)
                  match r.conflict ⟨g.key.block, g.key.group⟩ u.raceKind with
                  | some cf => let a := padRaceAux cf u.raceKind r.ph; some (.race a.1 (some a.2))
                  | none => none
                | .blk _ b =>
                  match d.block? l.tag b with
                  | none => none
                  | some bl =>
                    let r := bl.raceRec (t.off / 32)
                    match r.conflict (16 * l.posOf g.key.block + g.key.group) u.raceKind with
                    | some o => some (.race (blkRaceAux o u.raceKind r.ph) none)
                    | none => none
            match bad with
            | some f => .error (f, t.space)
            | none =>
              if pad && g.det && !tagged && (match u with | .atomic o => o | _ => false) then .error (.det, t.space)
              else .ok ⟨lane, addr, t.space, t.store, t.off, n, tagged⟩

/-- The records after an access of a live lane (R179, R240). -/
def Dev.touchRace (d : Dev) (g : Group) (l : Launch) (a : LaneAccess) (k : RaceKind) : Dev :=
  if a.tagged || g.isHelper a.lane then d
  else match a.store with
    | .pad =>
      let r := (d.padRec l (a.off / 32)).touch ⟨g.key.block, g.key.group⟩ (d.blockPhase l.tag g.key.block) k
      { d with padRaces := upsert (fun x => decide (x.granule = r.granule)) r d.padRaces }
    | .blk _ b =>
      d.modBlock l.tag b fun bl =>
        let r := (bl.raceRec (a.off / 32)).touch (16 * l.posOf g.key.block + g.key.group) k
        { bl with races := upsert (fun x => decide (x.granule = r.granule)) r bl.races }

/-- The cause detail of an access fault (R149). -/
def accessCause (lane : Nat) (sp : Space) (sizeCode : Nat) (under : Bool) : Nat :=
  lane % 64 + 64 * sp.code + 256 * sizeCode + 2048 * under.toNat

/-- The fault that a list of lanes raises: the first code in the order of R149 that any meets, at the lowest lane that meets
it. -/
def worstFault : List (Nat × Nat × AccFault × Space) → Option (Nat × Nat × AccFault × Space)
  | [] => none
  | f :: fs =>
    match worstFault fs with
    | none => some f
    | some h => if f.2.2.1.rank ≤ h.2.2.1.rank then some f else some h

/-- The record fields of an access fault. -/
def accessFault (sizeCode : Nat) (x : Nat × Nat × AccFault × Space) : FaultInfo :=
  let f := x.2.2.1
  { code := f.code
    faddr := x.2.1
    cause := accessCause x.1 x.2.2.2 sizeCode (match f with | .stack u => u | _ => false)
    aux := match f with
      | .rangeLock a => a
      | .vtOrphan t => t
      | .race a _ => a
      | _ => 0
    second := match f with
      | .race _ o => o
      | _ => none }

/-- A fault of a fibre's access at a slot. CAUSE of VT_ORPHAN is the slot alone: it is no fault of R149 (R182, R253, R258). -/
def fibreFault (slot sizeCode : Nat) (x : Nat × Nat × AccFault × Space) : FaultInfo :=
  match x.2.2.1 with
  | .vtOrphan _ => { accessFault sizeCode x with cause := slot }
  | _ => accessFault sizeCode x

/-- The accesses of the lanes that make one, or the fault that a live lane raises; a helper lane that would fault is left out
(R26, R149, R150). -/
def accessLanes (d : Dev) (g : Group) (l : Launch) (j : Job) (slot : Nat) (ls : List Nat) (pad : Bool) (addr : Nat → Nat)
    (n align sizeCode : Nat) (u : Use) : Except FaultInfo (List LaneAccess) :=
  let rs := ls.map fun k => (k, accessOf d g l j k pad (addr k) n align u)
  let bad := rs.filterMap fun r =>
    match r.2 with
    | .error f => if g.isHelper r.1 then none else some (r.1, addr r.1, f.1, f.2)
    | .ok _ => none
  match worstFault bad with
  | some f => .error (fibreFault slot sizeCode f)
  | none => .ok (rs.filterMap fun r => match r.2 with | .ok a => some a | .error _ => none)

/-! ### Views of vintages (R247 to R250) -/

def Dev.cell? (d : Dev) (tag : Nat) (pad : Bool) (block granule : Nat) : Option DataCell :=
  d.dataCells.find? fun c =>
    decide (c.tag = tag) && decide (c.pad = pad) && decide (c.granule = granule) && (pad || decide (c.block = block))

/-- A word of 32 bits in a cell's bytes. -/
def DataCell.word (c : DataCell) (w : Nat) : Nat :=
  natSum ((countFrom 0 4).map fun k => (cellGet c.data (4 * w + k)).toNat * 256 ^ k)
def DataCell.kind (c : DataCell) (w : Nat) : Nat := (cellGet c.kinds w).toNat
def DataCell.setByte (c : DataCell) (y : Nat) (v : Byte) : DataCell := { c with data := cellSet c.data y v }
def DataCell.setWord (c : DataCell) (w v : Nat) : DataCell :=
  (countFrom 0 4).foldl (fun c k => c.setByte (4 * w + k) (BitVec.ofNat 8 (v / 256 ^ k))) c
def DataCell.mark (c : DataCell) (y : Nat) : DataCell := { c with wm := c.wm ||| BitVec.ofNat 32 (2 ^ y) }
def DataCell.setKind (c : DataCell) (w k : Nat) : DataCell := { c with kinds := cellSet c.kinds w (BitVec.ofNat 2 k) }

/-- A delta applied to a word: kind 1 wraps, kind 2 is an FP32 sum (R248). -/
def applyDelta (kind a b : Nat) : Nat :=
  if kind = 2 then (fpAdd fmtF32 .rn false a b).bits else (a + b) % 2 ^ 32

/-- The word that holds the bytes `4 w … 4 w + 3` of a granule, in the view of a vintage; the chain has at most `f` links. -/
def State.viewWord (s : State) (st : Store) (granule w : Nat) : Nat → Nat → Nat
  | 0, _ => s.nat st (32 * granule + 4 * w) 4
  | f + 1, tag =>
    if tag = 0 then s.nat st (32 * granule + 4 * w) 4
    else
      let blk := match st with | .pad => 0 | .blk _ b => b
      let parent := match s.dev.vintage? tag with | some v => v.parent | none => 0
      match s.dev.cell? tag (decide (st = .pad)) blk granule with
      | none => s.viewWord st granule w f parent
      | some c =>
        if c.kind w = 0 then c.word w
        else applyDelta (c.kind w) (s.viewWord st granule w f parent) (c.word w)

/-- `n` bytes at an offset in the view of a vintage, as a number (R248). -/
def State.view (s : State) (st : Store) (tag off n : Nat) : Nat :=
  natSum ((countFrom 0 n).map fun k =>
    let a := off + k
    s.viewWord st (a / 32) (a % 32 / 4) 4 tag / 256 ^ (a % 4) % 256 * 256 ^ k)

/-- The cell of a vintage for a granule, made from its parent's view where there is none (R249). -/
def State.cellFor (s : State) (st : Store) (tag launch granule : Nat) : DataCell :=
  let blk := match st with | .pad => 0 | .blk _ b => b
  match s.dev.cell? tag (decide (st = .pad)) blk granule with
  | some c => c
  | none =>
    let parent := match s.dev.vintage? tag with | some v => v.parent | none => 0
    let c : DataCell := ⟨launch, tag, decide (st = .pad), blk, granule, [], 0, []⟩
    (countFrom 0 8).foldl (fun c w => c.setWord w (s.viewWord st granule w 4 parent)) c

def Dev.setCell (d : Dev) (c : DataCell) : Dev :=
  { d with dataCells := upsert (fun x => decide (x.tag = c.tag) && decide (x.pad = c.pad) && decide (x.block = c.block) &&
      decide (x.granule = c.granule)) c d.dataCells }

/-- Bytes stored in a vintage's cell: a delta word is replaced by its read first, then bytes are written and marked (R249). -/
def cellStore (st : Store) (tag launch off : Nat) (data : List Byte) : Part := fun s =>
  let gr := off / 32
  let c0 := s.cellFor st tag launch gr
  let ws := (data.zipIdx.map fun e => (off % 32 + e.2) / 4).eraseDups
  let c1 := ws.foldl (fun c w => if c.kind w = 0 then c else (c.setWord w (s.viewWord st gr w 4 tag)).setKind w 0) c0
  let c2 := data.zipIdx.foldl (fun c e => (c.setByte (off % 32 + e.2) e.1).mark (off % 32 + e.2)) c1
  [.dev (s.dev.setCell c2)]

/-- `atom.acc` in a vintage (R250): the new cell, or none where the word holds a delta of the other type. -/
def cellAcc (c : DataCell) (w ty op : Nat) : Option DataCell :=
  let marked := (countFrom 0 4).any fun k => bitAt c.wm.toNat (4 * w + k)
  if c.kind w = 0 ∧ marked = false then some ((c.setWord w op).setKind w ty)
  else if c.kind w = ty then some (c.setWord w (applyDelta ty (c.word w) op))
  else if c.kind w = 0 then
    some ((countFrom 0 4).foldl (fun c k => c.mark (4 * w + k)) (c.setWord w (applyDelta ty (c.word w) op)))
  else none

/-- Cells of a launch in use: one a data cell, two a merge record (R247). -/
def Dev.cellsUsed (d : Dev) (launch : Nat) : Nat :=
  (d.dataCells.filter fun c => decide (c.launch = launch)).length +
  2 * (d.mergeRecs.filter fun c => decide (c.launch = launch)).length
def Dev.cellsFree (d : Dev) (l : Launch) : Nat := l.cells - d.cellsUsed l.tag

/-! ### Atomics (R159) -/

/-- Bytes of an atomic's location. -/
def aopSize : AOp → Nat
  | .addB64 => 8
  | .exchB64 => 8
  | _ => 4

/-- The new value of an atomic from the old value and the operand (R159). -/
def aopNew (k : AOp) (old op : Nat) : Nat :=
  let x : Word := BitVec.ofNat 32 old
  let y : Word := BitVec.ofNat 32 op
  match k with
  | .addZ32 => (old + op) % 2 ^ 32
  | .addF32 => (fpAdd fmtF32 .rn false old op).bits
  | .addB64 => (old + op) % 2 ^ 64
  | .minS32 => if x.toInt ≤ y.toInt then old else op
  | .minZ32 => min old op
  | .minF32 => fpMinMax fmtF32 false old op
  | .maxS32 => if x.toInt ≤ y.toInt then op else old
  | .maxZ32 => max old op
  | .maxF32 => fpMinMax fmtF32 true old op
  | .andB32 => (x &&& y).toNat
  | .orB32 => (x ||| y).toNat
  | .xorB32 => (x ^^^ y).toNat
  | .exchB32 => op
  | .exchB64 => op
  | .incZ32 => if op ≤ old then 0 else old + 1

/-! ### Agents and scopes (R282) -/

/-- The agents of the memory model. -/
inductive Agent where
  | group (k : GKey)
  | engine
  | weir
  | host
  | remote (package : Nat)
  deriving DecidableEq, Repr

/-- Whether an agent is within a scope of a group's word: `.grp`, `.blk`, `.gang`, `.dev`, `.sys` are 0 to 4. -/
def Dev.within (d : Dev) (k : GKey) (scope : Nat) : Agent → Bool
  | .group y =>
    decide (3 ≤ scope) || decide (y = k) ||
      (decide (y.launch = k.launch) &&
        ((decide (1 ≤ scope) && decide (y.block = k.block)) ||
         (decide (2 ≤ scope) && (d.launch? k.launch).any fun l => decide (l.gangOf y.block = l.gangOf k.block))))
  | .engine | .weir => decide (3 ≤ scope)
  | .host | .remote _ => decide (4 ≤ scope)

/-! ### Handoffs, synchronisation and waking (R103, R178, R239, R287) -/

/-- One handoff from a group to another (R178, R239). -/
def Dev.handoff (d : Dev) (x y : GKey) : Dev :=
  if x = y ∨ x.launch ≠ y.launch then d
  else match d.launch? y.launch with
    | none => d
    | some l =>
      if x.block = y.block then d.modBlock l.tag y.block fun b => { b with phase := b.phase + 1 }
      else if l.gangOf x.block = l.gangOf y.block then
        { d with blocks := d.blocks.map fun b =>
            if b.launch = l.tag ∧ l.gangOf b.index = l.gangOf y.block then { b with phase := b.phase + 1 } else b }
      else d.setLaunch { l with gp := (l.gp + 1) % 2 ^ 16 }

/-- Whether a record of release sequences is of some bytes of a view. -/
def SyncRec.covers (r : SyncRec) (st : Store) (vt off n : Nat) : Bool :=
  decide (r.store = st) && decide (r.vt = vt) && decide (off < r.addr + r.size) && decide (r.addr < off + n)

/-- The releases whose sequences an atomic on some bytes of a view meets: those of every location that shares a byte with them. `read`: those
alone that a read of the location observes, where no plain write stands between (R283). -/
def Dev.heads (d : Dev) (st : Store) (vt off n : Nat) (read : Bool) : List Release :=
  ((d.syncs.filter fun r => r.covers st vt off n && !(read && r.plain)).flatMap SyncRec.heads).eraseDups

/-- A group has some operations' staged writes before it. -/
def Group.learn (g : Group) (ks : List Nat) : Group := { g with knows := (g.knows ++ ks).eraseDups }

/-- Whether a release synchronises with an acquire of a group: the scope of each holds both (R287). -/
def Dev.pairs (d : Dev) (r : Release) (y : GKey) (scope : Nat) : Bool :=
  match r.who with
  | some x => d.within x r.scope (.group y) && d.within y scope (.group x)
  | none => decide (3 ≤ r.scope) && d.within y scope (if 4 ≤ r.scope then .remote 0 else .engine)

/-- What happens before some releases that an acquire observes happens before what follows the acquire, where their scopes hold both (R287). -/
def Dev.syncWith (d : Dev) (y : GKey) (scope : Nat) (hs : List Release) : Dev :=
  let ks := (hs.filter fun r => d.pairs r y scope).flatMap Release.knows
  if ks.isEmpty then d else d.modGroup y fun g => g.learn ks

/-- An acquire of a group observes some releases: a handoff from each group among them, whatever the scopes, and what synchronises
(R178, R287). -/
def Dev.acquire (d : Dev) (y : GKey) (scope : Nat) (hs : List Release) : Dev :=
  ((hs.filterMap Release.who).eraseDups.foldl (fun d x => d.handoff x y) d).syncWith y scope hs

/-- A release of a group as it makes it now. -/
def Dev.releaseOf (d : Dev) (k : GKey) (scope : Nat) : Release :=
  ⟨some k, scope, match d.group? k with | some g => g.knows | none => []⟩

/-- A release put with others: an earlier one of the same group and scope is part of what it carries. -/
def addRelease (hs : List Release) (r : Release) : List Release :=
  (hs.filter fun h => !(decide (h.who = r.who) && decide (h.scope = r.scope))) ++ [r]

/-- The place of a gathering of releases that is no location: the arrivals at a barrier, or the merges into a parent. -/
def Dev.meeting (d : Dev) (st : Store) (vt addr : Nat) : List Release :=
  match d.syncs.find? fun r => decide (r.store = st) && decide (r.vt = vt) && decide (r.addr = addr) with
  | some r => r.heads
  | none => []

/-- The releases of such a place replaced; a place without any is none. -/
def Dev.setMeeting (d : Dev) (st : Store) (vt addr : Nat) (hs : List Release) : Dev :=
  let same (r : SyncRec) : Bool := decide (r.store = st) && decide (r.vt = vt) && decide (r.addr = addr)
  { d with syncs := if hs.isEmpty then d.syncs.filter fun r => !same r else upsert same ⟨st, vt, addr, 0, false, hs⟩ d.syncs }

/-- The vintage whose view gives a granule its bytes in the view of `tag`: the nearest that has a cell, or 0, the memory (R248, R282). -/
def Dev.viewOf (d : Dev) (st : Store) (granule : Nat) : Nat → Nat → Nat
  | 0, _ => 0
  | f + 1, tag =>
    if tag = 0 then 0
    else if (d.cell? tag (decide (st = .pad)) (match st with | .pad => 0 | .blk _ b => b) granule).isSome then tag
    else d.viewOf st granule f (match d.vintage? tag with | some v => v.parent | none => 0)

/-- An atomic that writes carries on the release sequences that it meets, and heads one where it is a release (R283). `seen`: the vintage that
gave the bytes it read. -/
def Dev.carryOn (d : Dev) (st : Store) (seen vt off n : Nat) (rel : Option Release) : Dev :=
  let hs := d.heads st seen off n false
  let hs1 := match rel with | some r => addRelease hs r | none => hs
  if hs1 = [] then d
  else
    let same (r : SyncRec) : Bool := decide (r.store = st) && decide (r.vt = vt) && decide (r.addr = off) && decide (r.size = n)
    { d with syncs := upsert same ⟨st, vt, off, n, false, hs1⟩ d.syncs }

/-- An atomic of a group on a location of a vintage's view: it acquires from what it reads, and carries the sequences on (R178, R282, R283,
R287). -/
def Dev.syncAtomic (d : Dev) (k : GKey) (st : Store) (seen vt off n : Nat) (acq rel : Bool) (scope : Nat) (writes : Bool) : Dev :=
  let d1 := if acq then d.acquire k scope (d.heads st seen off n true) else d
  if writes then d1.carryOn st seen vt off n (if rel then some (d1.releaseOf k scope) else none) else d1

/-- A plain write of bytes of a view: a read of a location that it writes observes no release (R283). -/
def Dev.plainOver (d : Dev) (st : Store) (vt off n : Nat) : Dev :=
  { d with syncs := d.syncs.map fun r => if r.covers st vt off n then { r with plain := true } else r }

/-- Lanes of other groups that wait on a granule resume (R103), and their groups yield for 8 words (R138). -/
def Dev.wake (d : Dev) (by_ : Option GKey) (st : Store) (off n : Nat) : Dev :=
  let hit (g : Group) (x : Lane) : Bool :=
    decide (some g.key ≠ by_) &&
    match x.hold with
    | some h =>
      match h.kind with
      | .waitAddr pad block gr _ =>
        (match st with
          | .pad => pad
          | .blk l b => !pad && decide (g.key.launch = l) && decide (block = b)) &&
        decide (off / 32 ≤ gr) && decide (gr ≤ (off + n - 1) / 32)
      | _ => false
    | none => false
  { d with groups := d.groups.map fun g =>
      if g.lanes.any (hit g) then
        { g with
          lanes := g.lanes.map fun x => if hit g x then { x with hold := none, pc := pcNext x.pc } else x
          yieldWords := 8 }
      else g }

/-- Bytes written to memory by an agent: stored, locations noted as plainly written, waiters woken (R103, R178, R283). -/
def plainWrite (by_ : Option GKey) (st : Store) (off : Nat) (data : List Byte) : Part := fun s =>
  storeBytes st.bank (st.at_ off) data ++
    [.dev ((s.dev.plainOver st 0 off data.length).wake by_ st off data.length)]

/-- Bytes written by an atomic: stored, waiters woken. -/
def atomicWrite (k : GKey) (st : Store) (off : Nat) (data : List Byte) : Part := fun s =>
  storeBytes st.bank (st.at_ off) data ++ [.dev (s.dev.wake (some k) st off data.length)]

/-! ### Watchpoints (R371 to R374) -/

/-- The slice of a pad byte, and its home die (R236). -/
def padHome (a : Nat) : Nat := a / 0x6000000

/-- Watchpoint `n` of a die: armed, space (1 virtual), mask, job, base (R371). -/
structure WatchPoint where
  en : Bool
  virt : Bool
  mask : Nat
  job : Nat
  base : Nat
  deriving DecidableEq, Repr

def Dev.watchPoint (d : Dev) (die n : Nat) : WatchPoint :=
  let c := (cellGet d.regs.wpctl (4 * die + n)).toNat
  let a := (cellGet d.regs.wpaddr (4 * die + n)).toNat
  ⟨bitAt c 0, bitAt c 1, bits c 4 16, c / 2 ^ 32, a / 16 % 2 ^ 53 * 16⟩

/-- The watchpoints of its home die that match a written byte: die, watchpoint and address of each (R371, R372). -/
def Dev.watchByte (d : Dev) (virt : Bool) (job home a : Nat) : List (Nat × Nat × Nat) :=
  ((countFrom 0 4).filter fun n =>
    let w := d.watchPoint home n
    w.en && (w.virt == virt) && (!virt || decide (w.job = job)) && decide (w.base ≤ a) && decide (a < w.base + 16) &&
      bitAt w.mask (a - w.base)).map fun n => (home, n, a)

/-- The watchpoint a write unit's report names, with its matched mask and lowest address (R372). -/
def pickWatch (hits : List (Nat × Nat × Nat)) : Option (Nat × Nat × Nat × Nat) :=
  match hits with
  | [] => none
  | h :: hs =>
    let low := hs.foldl (fun (m : Nat × Nat) e => if e.1 < m.1 ∨ (e.1 = m.1 ∧ e.2.1 < m.2) then (e.1, e.2.1) else m) (h.1, h.2.1)
    let as := ((hits.filter fun e => decide (e.1 = low.1) && decide (e.2.1 = low.2)).map fun e => e.2.2).eraseDups
    some (low.1, low.2, natSum (as.map fun a => 2 ^ (a % 16)), as.foldl min (as.headD 0))

/-- CAUSE of a WATCH record (R374). -/
def watchCause (die n mask writer : Nat) : Nat := n + 4 * writer + 16 * die + 256 * mask

/-- The WATCH report of a write unit whose writer is no core, performed at the reference time `now`, put among those to be written (R373,
R374). `word` names the writing word of the owning job, where there is one: IDENT, GRID, BLOCK, GROUP, OFFSET, ORDINAL, PC. -/
def watchReport (hits : List (Nat × Nat × Nat)) (writer aux skid job now : Nat)
    (word : Option (Nat × Nat × Nat × Nat × Nat × Nat × Nat)) : Part := fun s =>
  match pickWatch hits with
  | none => []
  | some (die, n, mask, lo) =>
    let own := (s.dev.watchPoint die n).job
    let w := match word with
      | some w => if own = job then w else (0, 0, 0xFFFFFFFF, 0xFF, 0, 0, 0)
      | none => (0, 0, 0xFFFFFFFF, 0xFF, 0, 0, 0)
    let data := rawRecord 0x38 0 w.1 own w.2.1 w.2.2.1 w.2.2.2.1 w.2.2.2.2.1 w.2.2.2.2.2.1 w.2.2.2.2.2.2 lo
      (watchCause die n mask writer) aux (s.dev.timeFor own now)
    [.dev { s.dev with reports := s.dev.reports ++ [⟨own, die, data, now, now + skid⟩] }]

/-- The precise WATCH report of a core's write, trap-after (R371, R373, R374): its record goes to the job that owns the watchpoint. The group stops
before its next word where a debugger is attached to that job; else that job ends, and a group of another job goes on (R183, log 72). -/
def takeWatch (k : GKey) (loc : Pc) (hit : Nat × Nat × Nat × Nat) : Part := fun s =>
  match s.dev.group? k, s.dev.launch? k.launch with
  | some g, some l =>
    let own := (s.dev.watchPoint hit.1 hit.2.1).job
    let stop : Bool := s.dev.debugged own
    let f : FaultInfo := { code := .watch, faddr := hit.2.2.2, cause := watchCause hit.1 hit.2.1 hit.2.2.1 0 }
    let r := faultRecord s.dev g { l with job := own } loc f (!stop) true
    Part.seq [
      (if own = l.job then takeFault k [] loc true f
      else Part.andThen
        (Part.mod fun d => d.modJob own fun j => if stop then j.report r else (j.queue r []).endBy f.code.num d.time)
        (traceRec own (match g.place with | some p => p.die | none => 0) 5 f.code.num l.id.toNat)),
      (if stop then Part.mod fun d => d.modGroup k fun g => { g with run := .stopped, trap := some (own, loc) } else Part.none)] s
  | _, _ => []

/-- The fields of a report that name a word of a group (R374). -/
def Dev.wordNames (d : Dev) (k : GKey) (loc : Pc) : Option (Nat × Nat × Nat × Nat × Nat × Nat × Nat) :=
  match d.group? k, d.launch? k.launch with
  | some g, some l =>
    let at_ := l.locate loc
    some (identOf g, l.id.toNat, k.block, k.group, at_.2, at_.1, loc.toNat)
  | _, _ => none

/-! ### Performing an access -/

/-- The values that a load type gives its registers, from the bytes read (R155). -/
def loadWords (ty : LdTy) (x : Nat) : Nat :=
  match ty with
  | .s8 => ((BitVec.ofNat 8 x).signExtend 32).toNat
  | .z8 => x % 2 ^ 8
  | .s16 => ((BitVec.ofNat 16 x).signExtend 32).toNat
  | .z16 => x % 2 ^ 16
  | .b32 => x % 2 ^ 32
  | .b64 => x % 2 ^ 64
  | .b128 => x % 2 ^ 128

/-- Bytes of a load type. -/
def ldSize : LdTy → Nat
  | .s8 | .z8 => 1
  | .s16 | .z16 => 2
  | .b32 => 4
  | .b64 => 8
  | .b128 => 16
def stSize : StTy → Nat
  | .b8 => 1
  | .b16 => 2
  | .b32 => 4
  | .b64 => 8
  | .b128 => 16

/-- log2 of a size (R149). -/
def sizeCode (n : Nat) : Nat := Nat.log2 n

/-- The part of a number that a slot takes: one word, or for a moment register two. -/
def Slot.part (e : Slot) (x : Nat) : Dword :=
  BitVec.ofNat 64 (x / 2 ^ (32 * e.word) % match e.dst with | .m _ => 2 ^ 64 | _ => 2 ^ 32)

/-- The words of a number written to their registers. -/
def landSlots (k : GKey) (ss : List Slot) (x : Nat) : Part :=
  Part.mod fun d => ss.foldl (fun d e => d.landIn k e.lane e.dst (e.part x)) d

/-- The slots of a run of registers of a lane. -/
def Group.slots (g : Group) (l n k : Nat) : List Slot := (countFrom 0 k).map fun j => ⟨l, g.destV l (n + j), j⟩

/-- Results of slots of a value on their way with a latency. -/
def slotOuts (ss : List Slot) (x : Nat) : List Out :=
  ss.map fun e => ⟨e.lane, e.dst, e.part x⟩

/-- The mask bytes with the bits of `mask` replaced by those of `data` (R162). -/
def mergeMask (old mask data bytes : Nat) : Nat :=
  natSum ((countFrom 0 (8 * bytes)).map fun k => (if bitAt mask k then bitAt data k else bitAt old k).toNat * 2 ^ k)

/-- The value an access reads, in its vintage where it is tagged. -/
def State.accRead (s : State) (a : LaneAccess) (vt : Nat) : Nat :=
  if a.tagged then s.view a.store vt a.off a.size else s.nat a.store a.off a.size

/-- A plain store of an access: into its vintage's view, or the memory. -/
def accStore (k : GKey) (a : LaneAccess) (vt launch : Nat) (data : List Byte) : Part :=
  if a.tagged then Part.seq [
    cellStore a.store vt launch a.off data,
    Part.mod fun d => d.plainOver a.store vt a.off data.length]
  else plainWrite (some k) a.store a.off data

/-- What an atomic at an access acquires, and the sequences it carries on (R178, R282). -/
def accSync (k : GKey) (a : LaneAccess) (vt : Nat) (acq rel : Bool) (scope : Nat) (writes : Bool) : Part :=
  Part.mod fun d =>
    if a.tagged then d.syncAtomic k a.store (d.viewOf a.store (a.off / 32) 4 vt) vt a.off a.size acq rel scope writes
    else d.syncAtomic k a.store 0 0 a.off a.size acq rel scope writes

/-- An atomic at an access: the location's new value is written and the sequences carried on (R161, R178, R249). -/
def accAtomic (k : GKey) (a : LaneAccess) (vt launch : Nat) (acq rel : Bool) (scope : Nat) (new : Option Nat) : Part :=
  Part.seq [
    accSync k a vt acq rel scope new.isSome,
    (match new with
      | none => Part.none
      | some v =>
        if a.tagged then cellStore a.store vt launch a.off (leBytes a.size v)
        else atomicWrite k a.store a.off (leBytes a.size v))]

/-- A word of a cell receives a delta (R250), where its type allows. -/
def accDelta (k : GKey) (a : LaneAccess) (vt launch : Nat) (acq rel : Bool) (scope : Nat) (f32 : Bool) (op : Nat) : Part := fun s =>
  match cellAcc (s.cellFor a.store vt launch (a.off / 32)) (a.off % 32 / 4) (if f32 then 2 else 1) op with
  | some c => Part.seq [accSync k a vt acq rel scope true, Part.mod fun d => d.setCell c] s
  | none => []

end Sys2Proof.Machine
end

