-- ==== Sys2Proof/Machine/Memory.lean ====
section
/-!
DEFINITION. The memory words of a group: loads, stores, atomics, masks, the spill stack, fences (opcodes 0x23, 0x28 to 0x2B, 0x2D to 0x2F;
R131, R132, R150 to R163), and the performing of the accesses they leave on their way.
-/

namespace Sys2Proof.Machine

/-! ### The outstanding-load counter (R152) -/

/-- Whether every lane of a counted load has landed (R153): those whose accesses are performed, and those of a fixed latency. -/
def Group.complete (g : Group) (q : Counted) : Bool :=
  !(g.acc.any fun a => decide (a.seq = q.seq)) && !(g.pend.any fun p => decide (p.land = q.near))

/-- Counted loads from the first incomplete one on: they retire in issue order. -/
def Group.unretired (g : Group) : List Counted := g.counted.dropWhile g.complete

/-- The outstanding-load counter. -/
def Group.outstanding (g : Group) : Nat := g.unretired.length

/-- Accesses of a word put on their way, with its counted destinations where it is a counted load (R152); `near`: the die cycle at which its
other lanes land (R153). -/
def Dev.issueAccesses (d : Dev) (c : Issue) (counted : Bool) (near : Nat) (acq rel : Bool) (scope : Nat)
    (xs : List (LaneAccess × AccOp)) (dsts : List (Nat × Dest)) : Dev :=
  d.modGroup c.g fun g =>
    let seq := g.accesses
    let new := xs.zipIdx.map fun e =>
      ({ id := seq + e.2, seq := seq, lane := e.1.1.lane, helper := g.isHelper e.1.1.lane,
         gang := decide (e.1.1.space = .gang), store := e.1.1.store, addr := e.1.1.off, size := e.1.1.size,
         vt := (match e.1.2 with | .loadVt t _ _ => t | _ => 0), acq := acq, rel := rel, scope := scope, op := e.1.2,
         loc := c.loc, timer := 0 } : Access)
    { g with
      acc := g.acc ++ new
      accesses := seq + xs.length + 1
      counted := if counted then g.counted ++ [⟨seq, dsts, c.loc, near⟩] else g.counted }

/-- The die cycle at which a word's results of 12 die cycles land; 0 where it has none. -/
def Dev.nearOf (d : Dev) (g : Group) (outs : List Out) : Nat := if outs.isEmpty then 0 else d.now g + 12

/-! ### Performing (R153, R285) -/

/-- Whether two accesses of one group are ordered by their place (R285). -/
def Access.samePlace (a b : Access) : Bool :=
  match a.store, b.store with
  | .pad, .pad => decide (a.addr / 32 = b.addr / 32)
  | .blk l x, .blk m y => decide (l = m) && decide (x = y)
  | _, _ => false

/-- Whether an access has nothing left to do in memory: what it reads is taken, or is no memory of its order, and it writes nothing. -/
def Access.taken (a : Access) : Bool :=
  match a.op with
  | .due false ss => !ss.isEmpty
  | .value _ _ | .loadMom _ (some _) _ | .loadMask (some _) _ => true
  | _ => false

/-- Whether an access may be performed after some earlier ones of its group that are not (R285): none to its place that has still to act in
memory, no such acquire, and, for a release, none at all. -/
def Access.mayFollow (a : Access) (before : List Access) : Bool :=
  a.taken || before.all fun b => b.taken || !(a.samePlace b || b.acq || a.rel)

/-- Whether an access may be performed now (R285). -/
def Group.mayPerform (g : Group) (a : Access) : Bool := a.mayFollow (g.acc.filter fun b => decide (b.id < a.id))

/-- Whether an access stands for what a held word has still to give. -/
def Access.isDue (a : Access) : Bool := match a.op with | .due _ _ => true | _ => false

/-- The accesses that a held word put on its way when it issued, with what it gives now (R151, R152). -/
def Group.giveDue (g : Group) (seq : Nat) (f : Access → AccOp) : Group :=
  { g with acc := g.acc.map fun a => if a.seq = seq ∧ a.isDue then { a with op := f a } else a }

/-- Accesses that a held word has still to make, put on their way at its issue (R151, R231, R234). -/
def putDue (c : Issue) (store : Bool) (xs : List LaneAccess) : Part :=
  Part.mod fun d => d.issueAccesses c false 0 false false 0 (xs.map fun x => (x, AccOp.due store [])) []

/-- What a held word has put on its way and makes now is taken from the queue. -/
def dropDue (c : Issue) : Part :=
  match c.resume with
  | none => Part.none
  | some h => Part.mod fun d => d.modGroup c.g fun g => { g with acc := g.acc.filter fun a => !(decide (a.seq = h.mark) && a.isDue) }

/-- The access without its entry in the queue. -/
def Group.dropAccess (g : Group) (id : Nat) : Group := { g with acc := g.acc.filter fun a => decide (a.id ≠ id) }

/-- A fault kept for the word that retires the load (R132, R258). -/
def Group.defer (g : Group) (x : Deferred) : Group := { g with deferred := g.deferred ++ [x] }

/-- The access as a lane's access of memory. -/
def Access.lane_ (a : Access) : LaneAccess :=
  ⟨a.lane, a.addr, (match a.store with | .pad => .pad | .blk _ _ => if a.gang then .gang else .blk), a.store, a.addr, a.size, false⟩

/-- Whether a data cell holds every byte of an access in WM or in a delta word (R258). -/
def DataCell.holds (c : DataCell) (off n : Nat) : Bool :=
  (countFrom 0 n).all fun k =>
    let y := off % 32 + k
    bitAt c.wm.toNat y || c.kind (y / 4) != 0

/-- The address a fault record of a deferred fault names: that of the access, in the form in which the group gave it (R132). -/
def Access.faddr (l : Launch) (a : Access) : Nat :=
  match a.store with
  | .pad => a.addr
  | .blk _ b => if a.gang then 2 ^ 20 + l.posOf b * 2 ^ 18 + a.addr else a.addr

/-- The accesses that a held word has still to make, as accesses of its lanes under the group's GSR (R151). -/
def Group.dues (g : Group) (l : Launch) (seq : Nat) : List LaneAccess :=
  (g.acc.filter fun a => decide (a.seq = seq) && a.isDue).map fun a =>
    { a.lane_ with addr := a.faddr l, tagged := decide (g.vt ≠ 0) && l.inWindow (decide (a.store = .pad)) a.addr a.size }

/-- VT_ORPHAN of such accesses, whose vintage has retired (R253). -/
def Dev.duesOrphan (d : Dev) (g : Group) (l : Launch) (slot size : Nat) (xs : List LaneAccess) : Option FaultInfo :=
  if d.liveVt l.tag g.vt then none
  else (xs.find? LaneAccess.tagged).map fun x => fibreFault slot size (x.lane, x.addr, .vtOrphan g.vt, x.space)

/-- A moment pair lands from its 8 bytes. An invalid variance lands as +0 with VCL, or, with NVF set when the load issued, leaves the
register and a fault for the word that retires the load (R105, R122, R132). -/
def momLoad (k : GKey) (l : Launch) (a : Access) (nvf : Bool) (m : Nat) (ss : List Slot) : Part := fun s =>
  let bad := badVar (m / 2 ^ 32)
  let put (d : Dev) : Dev :=
    ss.foldl (fun d e => d.landIn k e.lane e.dst (BitVec.ofNat 64 (m % 2 ^ 32 + 2 ^ 32 * (if bad then 0 else m / 2 ^ 32)))) d
  if !bad || a.helper then [.dev (put s.dev)]
  else if nvf then [.dev (s.dev.modGroup k fun g => g.defer ⟨a.seq, a.lane, 0x10, a.faddr l, a.lane % 64 + 128, 0, false⟩)]
  else [.dev ((put s.dev).modGroup k fun g => g.stick (s.dev.now g) 32)]

/-- What an access does in memory and in its registers. -/
def performOp (k : GKey) (l : Launch) (a : Access) : Part := fun s =>
  let x := a.lane_
  match a.op with
  | .value v ss => landSlots k ss v s
  | .load ty ss => landSlots k ss (loadWords ty (s.nat a.store a.addr a.size)) s
  | .loadMask known lanes =>
    let m := known.getD (s.nat a.store a.addr a.size)
    [.dev (lanes.foldl (fun d e => d.landIn k e.1 (.p e.2) (BitVec.ofNat 64 (bitAt m e.1).toNat)) s.dev)]
  | .loadMom nvf known ss => momLoad k l a nvf (known.getD (s.nat a.store a.addr 8)) ss s
  | .store bs => plainWrite (some k) a.store a.addr bs s
  | .storeMask mask data =>
    plainWrite (some k) a.store a.addr
      (leBytes a.size (mergeMask (s.nat a.store a.addr a.size) mask data a.size)) s
  | .atom op v ss =>
    let old := s.nat a.store a.addr a.size
    Part.seq [accAtomic k x 0 l.tag a.acq a.rel a.scope (some (aopNew op old v)), landSlots k ss old] s
  | .acc f32 v ss =>
    let old := s.nat a.store a.addr 4
    Part.seq [accAtomic k x 0 l.tag a.acq a.rel a.scope (some (aopNew (if f32 then .addF32 else .addZ32) old v)),
      landSlots k ss old] s
  | .cas cmp new ss =>
    let old := s.nat a.store a.addr a.size
    Part.seq [accAtomic k x 0 l.tag a.acq a.rel a.scope (if old = cmp then some new else none), landSlots k ss old] s
  | .loadVt tag _ ss => landSlots k ss (s.view a.store tag a.addr a.size) s
  | .due _ _ => []

/-- The operation of a helper's access that faults: it reads 0 and writes nothing (R26). -/
def AccOp.void : AccOp → AccOp
  | .value _ ss | .load _ ss | .loadMom _ _ ss | .atom _ _ ss | .acc _ _ ss | .cas _ _ ss | .loadVt _ _ ss | .due _ ss => .value 0 ss
  | .loadMask _ lanes => .loadMask (some 0) lanes
  | .store _ | .storeMask _ _ => .value 0 []

/-- Whether `ld.vtw` still waits (R258): its tag is live and the tag's cell does not hold every byte. -/
def Dev.vtWaits (d : Dev) (launch : Nat) (a : Access) : Bool :=
  match a.op with
  | .loadVt tag true _ =>
    !a.helper && tag != 0 && d.liveVt launch tag &&
    (match d.cell? tag (decide (a.store = .pad)) (match a.store with | .pad => 0 | .blk _ b => b) (a.addr / 32) with
      | some c => !c.holds a.addr a.size
      | none => true)
  | _ => false
def State.vtWaits (s : State) (launch : Nat) (a : Access) : Bool := s.dev.vtWaits launch a

/-- The tag whose retirement makes an `ld.vtw` fail (R258). -/
def State.vtOrphaned (s : State) (launch : Nat) (a : Access) : Option Nat :=
  match a.op with
  | .loadVt tag true _ => if tag ≠ 0 ∧ a.helper = false ∧ s.dev.liveVt launch tag = false then some tag else none
  | _ => none

/-- Whether an access writes memory, or may. -/
def AccOp.writes : AccOp → Bool
  | .store _ | .storeMask _ _ | .atom _ _ _ | .acc _ _ _ | .cas _ _ _ | .due true _ => true
  | _ => false

/-- The pad bytes that an access writes. -/
def State.written (s : State) (a : Access) : List Nat :=
  if a.store ≠ .pad then []
  else match a.op with
    | .store _ | .atom _ _ _ | .acc _ _ _ => countFrom a.addr a.size
    | .storeMask mask _ => (countFrom 0 a.size).filterMap fun k => if mask / 2 ^ (8 * k) % 256 = 0 then none else some (a.addr + k)
    | .cas cmp _ _ => if s.nat a.store a.addr a.size = cmp then countFrom a.addr a.size else []
    | _ => []

/-- The matched bytes of a core's write, kept with the group until its word's accesses are performed: each word is one write unit (R372). -/
def noteWatch (k : GKey) (job : Nat) (a : Access) (bytes : List Nat) : Part := fun s =>
  let hits := bytes.flatMap fun x => s.dev.watchByte false job (padHome x) x
  if hits.isEmpty then []
  else [.dev (s.dev.modGroup k fun g =>
    { g with watch :=
        if g.watch.any fun w => decide (w.seq = a.seq) then
          g.watch.map fun w => if w.seq = a.seq then { w with hits := w.hits ++ hits } else w
        else g.watch ++ [⟨a.seq, a.loc, hits⟩] })]

/-- The precise WATCH reports of the words all of whose accesses are performed: the group stops before its next word (R373, R374). -/
def settleWatch (k : GKey) : Part := fun s =>
  match s.dev.group? k with
  | none => []
  | some g =>
    let settled (w : WatchHit) : Bool := !(g.acc.any fun a => decide (a.seq = w.seq))
    let ws := g.watch.filter settled
    if ws.isEmpty then []
    else Part.seq [
      Part.mod (fun d => d.modGroup k fun g => { g with watch := g.watch.filter fun w => !settled w }),
      Part.each ws (fun w => match pickWatch w.hits with
        | some h => takeWatch k w.loc h
        | none => Part.none)] s

/-- Whether an access reads memory and gives registers alone. -/
def Access.reads (a : Access) : Bool := !a.op.writes

/-- Whether an access that is not taken yet would read the destination of an operation under way: a read of any, an atomic of one of another
group, waits, and so sees no partial result (R270, R291). Its own group's operation waits for an atomic before it (R265). -/
def Dev.readGated (d : Dev) (k : GKey) (a : Access) : Bool :=
  !a.taken &&
  match a.op with
  | .store _ | .storeMask _ _ | .due _ _ => false
  | .atom _ _ _ | .acc _ _ _ | .cas _ _ _ =>
    d.gate.any fun r => r.dst && decide (r.store = a.store) && decide (r.lo < a.addr + a.size) && decide (a.addr < r.hi) &&
      d.ops.any fun p => decide (p.id = r.op) && decide (p.g ≠ k)
  | _ => (d.gateHit a.store a.addr a.size false).isSome

/-- The accesses that are performed together: the reads of one word in one 32-byte sector of the pad, which land with it (R153). -/
def Group.sector (g : Group) (a : Access) : List Access :=
  if a.store = .pad ∧ a.reads then
    g.acc.filter fun b => decide (b.seq = a.seq) && decide (b.store = .pad) && b.reads && decide (b.addr / 32 = a.addr / 32)
  else [a]

/-- One access of a group on its way is performed (R258, R285). -/
def performOne (k : GKey) (l : Launch) (a : Access) : Part := fun s =>
  match s.vtOrphaned l.tag a with
  | some t =>
    [.dev (s.dev.modGroup k fun g => (g.dropAccess a.id).defer ⟨a.seq, a.lane, 0x23, a.faddr l, pcSlot a.loc, t, false⟩)]
  | none =>
    Part.seq [
      noteWatch k l.job a (s.written a),
      Part.mod (fun d => d.modGroup k fun g => g.dropAccess a.id),
      performOp k l a,
      settleWatch k] s

/-- An access of a group on its way is performed, where its order allows, with those of its word that share its sector (R153, R285). -/
def performAccess (k : GKey) (id : Nat) : Part := fun s =>
  match s.dev.group? k, s.dev.launch? k.launch with
  | some g, some l =>
    match g.acc.find? fun a => decide (a.id = id) with
    | none => []
    | some a =>
      let xs := g.sector a
      if g.run = .faulted ∨ xs.any Access.isDue ∨ !(xs.head?.any g.mayPerform) ∨ xs.any (s.vtWaits l.tag) ∨ xs.any (s.dev.readGated k) then []
      else Part.each xs (performOne k l) s
  | _, _ => []

/-- A read on its way takes what it reads now, and lands later: what its performing does in memory (R285). -/
def State.take (s : State) (launch : Nat) (a : Access) : Access :=
  { a with op := match a.op with
    | .load ty ss => .value (loadWords ty (s.nat a.store a.addr a.size)) ss
    | .loadMom f none ss => .loadMom f (some (s.nat a.store a.addr 8)) ss
    | .loadMask none ls => .loadMask (some (s.nat a.store a.addr a.size)) ls
    | .loadVt t w ss =>
      if s.vtWaits launch a ∨ (s.vtOrphaned launch a).isSome then .loadVt t w ss else .value (s.view a.store t a.addr a.size) ss
    | op => op }

/-- Reads of a group taken in their order, where `p` holds and their order allows; `before`: the earlier accesses (R285). -/
def State.takeList (s : State) (launch : Nat) (p : Access → Bool) : List Access → List Access → List Access
  | before, [] => before
  | before, a :: as =>
    s.takeList launch p (before ++ [if a.reads && p a && a.mayFollow before then s.take launch a else a]) as

/-- The reads of a group that come before a release take what they read before it: an arrival does not wait for them to land (R172, R285,
R286). An `ld.vtw` that still waits is none of them (log 58). -/
def State.takeReads (s : State) (g : Group) : Group := { g with acc := s.takeList g.key.launch (fun _ => true) [] g.acc }

/-- A release of a group that has made its writes: what it has left to read is read (R286). -/
def releaseReads (k : GKey) : Part := fun s => [.dev (s.dev.modGroup k s.takeReads)]

/-- The reads in a vintage's view that stand when it retires: an `ld.vt` reads what the view gives, and so does an `ld.vtw` whose cell holds
every byte; one that still waits will find the tag retired (R258). -/
def State.takeView (s : State) (tag : Nat) : Dev :=
  let named (a : Access) : Bool := match a.op with | .loadVt t _ _ => decide (t = tag) | _ => false
  { s.dev with groups := s.dev.groups.map fun g =>
      { g with acc := g.acc.map fun a => if named a then s.take g.key.launch a else a } }

/-- The reads of every group that meet a range which an operation now registers as its destination, made before it (R291). -/
def State.takeAt (s : State) (st : Store) (lo hi : Nat) : Dev :=
  let meets (a : Access) : Bool := decide (a.store = st) && decide (lo < a.addr + a.size) && decide (a.addr < hi)
  { s.dev with groups := s.dev.groups.map fun g => { g with acc := s.takeList g.key.launch meets [] g.acc } }

/-! ### When a memory word cannot issue (R136, R152, R249, R285) -/

/-- Whether an acquire of the group is still to be performed. -/
def Group.acquiring (g : Group) : Bool := g.acc.any fun a => a.acq && !a.taken

/-- Whether a load or an atomic at a target is counted (R152). -/
def countedTarget (a : LaneAccess) : Bool := decide (a.store = .pad) || decide (a.space = .gang)

/-- The granules of a vintage for which a word has to make a cell (R249). -/
def missingCells (d : Dev) (vt : Nat) (xs : List LaneAccess) : Nat :=
  let gs := (xs.filter LaneAccess.tagged).map fun a => (a.store, a.off / 32)
  (gs.eraseDups.filter fun e =>
    (d.cell? vt (decide (e.1 = .pad)) (match e.1 with | .pad => 0 | .blk _ b => b) e.2).isNone).length

/-- Whether an access is performed at issue, in its own block's memory or in a vintage. -/
def LaneAccess.atOnce (a : LaneAccess) : Bool := a.tagged || !countedTarget a

/-- Whether an access of a word is performed at issue: also one through the gang window to the group's own block, where another lane of the
word names that block's memory directly, since the lanes of a word act in order (R151, R161). -/
def atOnceIn (xs : List LaneAccess) (a : LaneAccess) : Bool := a.atOnce || xs.any fun b => !countedTarget b && decide (b.store = a.store)

/-- Whether an access on its way is ordered before one made now by its place (R285). -/
def Access.meets (a : Access) (x : LaneAccess) : Bool :=
  match a.store, x.store with
  | .pad, .pad => decide (a.addr / 32 = x.off / 32)
  | .blk l b, .blk m c => decide (l = m) && decide (b = c)
  | _, _ => false

/-- Whether an earlier access of the group to the place of one that is performed at issue is still to be performed (R151). -/
def Group.behind (g : Group) (xs : List LaneAccess) (x : LaneAccess) : Bool :=
  atOnceIn xs x && g.acc.any fun a => !a.taken && a.meets x

/-- The group as its accesses were before its count of them was `mark`. -/
def Group.upTo (g : Group) (mark : Nat) : Group := { g with acc := g.acc.filter fun a => decide (a.seq < mark) }

/-- Whether reads may be made now by a word that issued at count `mark`: no earlier acquire and no earlier access to their places is still to
be performed, and no operation under way has a destination there (R151, R285, R291). -/
def Dev.readsReady (d : Dev) (g : Group) (mark : Nat) (xs : List LaneAccess) : Bool :=
  (g.upTo mark).acc.all (fun a => a.taken || !(a.acq || xs.any a.meets)) &&
  xs.all fun x => (d.gateHit x.store x.off x.size false).isNone

/-- The accesses on their way that keep a word with some accesses from issue: acquires, and earlier ones to a place of its own. -/
def Group.keepers (g : Group) (xs : List LaneAccess) : List Access :=
  g.acc.filter fun a => !a.taken && (a.acq || xs.any fun x => atOnceIn xs x && a.meets x)

/-- Why a word with these accesses cannot issue: the stall reason and the watchdog. `make`: those that may make a cell. R143 names reason 4
for `wait.ld` alone: a word that an acquire or an earlier access keeps counts there as well (log 63), or, where an `ld.vtw` that waits does, as 10. -/
def blockedBy (d : Dev) (g : Group) (l : Launch) (xs make : List LaneAccess) (counted : Bool) : Option (Nat × Watchdog) :=
  if decide (d.cellsFree l < missingCells d g.vt make) then some (10, .vt 1 0)
  else if g.acquiring || xs.any (g.behind xs) then some (if (g.keepers xs).any (d.vtWaits l.tag) then 10 else 4, .none)
  else if counted && xs.any countedTarget && decide (63 ≤ g.outstanding) then some (4, .none)
  else none

/-! ### The words -/

/-- A job without grants. -/
def Job.blank (id : Nat) : Job :=
  ⟨id, [], [], 0, 0, none, 0, false, [], 0, false, 0, ⟨0, 0, 0, 0, 0⟩, ⟨0, 0, 0, 0, 0⟩, 0, []⟩

/-- The job of a launch, or one without grants. -/
def Dev.jobOf (d : Dev) (l : Launch) : Job :=
  match d.job? l.job with
  | some j => j
  | none => Job.blank l.job

/-- A scaled signed offset added to a base (R44, R155). -/
def offAddr {w : Nat} (base : Word) (o : BitVec w) (size : Nat) : Nat :=
  (base + BitVec.ofInt 32 (o.toInt * size)).toNat

/-- The lanes that a load reads for: the leader alone under S (R51, R155). -/
def loadLanes (g : Group) (c : Issue) (sc : Bool) : List Nat :=
  if sc then (match g.leader c.on with | some l => [l] | none => []) else c.on

/-- The slots that a lane's loaded value goes to: under S those of every lane whose guard is true. -/
def loadSlots (g : Group) (c : Issue) (sc : Bool) (l n k : Nat) : List Slot :=
  if sc then c.on.flatMap fun m => g.slots m n k else g.slots l n k

/-- Loads of a run of registers at checked accesses: block memory and cells at once, the rest on their way; helper lanes that would
fault receive 0 (R150, R152, R155). -/
def doLoads (c : Issue) (sc : Bool) (n k : Nat) (ty : LdTy) (want : List Nat) (xs : List LaneAccess) : Part := fun s =>
  match s.dev.group? c.g, s.dev.launch? c.g.launch with
  | some g, some l =>
    let zero := (want.filter fun m => !xs.any fun a => decide (a.lane = m)).flatMap fun m =>
      slotOuts (loadSlots g c sc m n k) 0
    let now := xs.filter fun a => !countedTarget a
    let val (a : LaneAccess) : Nat := loadWords ty (s.accRead a g.vt)
    let outs := zero ++ now.flatMap fun a => slotOuts (loadSlots g c sc a.lane n k) (val a)
    let later := xs.filter countedTarget
    let ops := later.map fun a =>
      let ss := loadSlots g c sc a.lane n k
      (a, if a.tagged then AccOp.value (val a) ss else AccOp.load ty ss)
    let d1 := xs.foldl (fun d a => d.touchRace g l a .other) s.dev
    let d2 := if ops.isEmpty then d1
      else d1.issueAccesses c true (s.dev.nearOf g outs) false false 0 ops
        (later.flatMap fun a => slotRegs (loadSlots g c sc a.lane n k))
    [.dev (d2.retire c.g 12 outs)]
  | _, _ => []

/-- Whether a stack access hits: its bytes lie within the RC entries below the pointer (R156). -/
def Lane.stackHit (x : Lane) (off n : Nat) : Bool :=
  decide (x.ssp.toNat - 8 * x.rc ≤ off) && decide (off + n ≤ x.ssp.toNat)

/-- The fault of a stack access (R146, R148). -/
def stackFault (l : Launch) (off n : Nat) : Option AccFault :=
  if off % n ≠ 0 then some .misaligned else if l.spill < off + n then some .bounds else none

/-- The fault that live lanes' stack accesses raise. -/
def stackFaults (g : Group) (l : Launch) (ls : List Nat) (addr : Nat → Nat) (n : Nat) : Option FaultInfo :=
  (worstFault ((ls.filter g.isLive).filterMap fun k =>
    (stackFault l (addr k) n).map fun f => (k, addr k, f, .stk))).map (accessFault (sizeCode n))

/-- `ld.stk` (R155, R156). -/
def loadStack (c : Issue) (g : Group) (l : Launch) (sc : Bool) (n k : Nat) (ty : LdTy) (addr : Nat → Nat) : Part := fun s =>
  let ls := loadLanes g c sc
  match stackFaults g l ls addr (ldSize ty) with
  | some f => raise c f s
  | none =>
    let ok (m : Nat) : Bool := (stackFault l (addr m) (ldSize ty)).isNone
    let val (m : Nat) : Nat :=
      if ok m then loadWords ty (natAt s.stk (stkAddr c.g m (addr m)) (ldSize ty)) else 0
    let hit (m : Nat) : Bool := !ok m || (g.lane m).stackHit (addr m) (ldSize ty)
    let outs := (ls.filter hit).flatMap fun m => slotOuts (loadSlots g c sc m n k) (val m)
    let miss := ls.filter fun m => !hit m
    let ops := miss.map fun m =>
      ((⟨m, addr m, .stk, .blk 0 0, addr m, ldSize ty, false⟩ : LaneAccess), AccOp.value (val m) (loadSlots g c sc m n k))
    let d1 := if ops.isEmpty then s.dev
      else s.dev.issueAccesses c true (s.dev.nearOf g outs) false false 0 ops (miss.flatMap fun m => slotRegs (loadSlots g c sc m n k))
    [.dev (d1.retire c.g 12 outs)]

/-- `ld` (R154 to R156). -/
def execLd (sc : Bool) (d : Reg) (g : Reg) (p : Space3) (o : BitVec 5) (t : LdTy) (s : State) :
    Host.Outcome State Fault Refusal :=
  commit s (word (.ld sc d g p o t) (fun c gr l s =>
    let addr (m : Nat) : Nat := offAddr (srcV s.dev gr c m g.toNat) o (ldSize t)
    let ls := loadLanes gr c sc
    match p with
    | .stk => loadStack c gr l sc d.toNat t.regs t addr s
    | _ =>
      match accessLanes s.dev gr l (s.dev.jobOf l) (pcSlot c.loc) ls (decide (p = .pad)) addr (ldSize t) (ldSize t) (sizeCode (ldSize t)) .read with
      | .error f => raise c f s
      | .ok xs => if ls.isEmpty then [] else doLoads c sc d.toNat t.regs t ls xs s) s)

/-- Stores at checked accesses: block memory and cells at once in ascending lane order, the rest on their way (R151, R155). -/
def doStores (c : Issue) (xs : List (LaneAccess × List Byte)) : Part := fun s =>
  match s.dev.group? c.g, s.dev.launch? c.g.launch with
  | some g, some l =>
    let now := xs.filter fun e => atOnceIn (xs.map Prod.fst) e.1
    let later := xs.filter fun e => !atOnceIn (xs.map Prod.fst) e.1
    Part.seq [
      Part.mod (fun d => xs.foldl (fun d e => d.touchRace g l e.1 .plainWrite) d),
      Part.each now (fun e => accStore c.g e.1 g.vt l.tag e.2),
      Part.mod (fun d => if later.isEmpty then d
        else d.issueAccesses c false 0 false false 0 (later.map fun e => (e.1, AccOp.store e.2)) [])] s
  | _, _ => []

/-- What a held word stores at last, at the accesses that it put on their way: those to its own block's memory and in a vintage at once, the
others when they are performed (R151, R230). -/
def giveStores (c : Issue) (vt launch seq : Nat) (xs : List (LaneAccess × List Byte)) : Part :=
  let at_ (a : Access) : Option (LaneAccess × List Byte) := if a.seq = seq ∧ a.isDue then xs[a.id - seq]? else none
  let now (e : LaneAccess × List Byte) : Bool := atOnceIn (xs.map Prod.fst) e.1
  Part.seq [
    Part.each (xs.filter now) (fun e => accStore c.g e.1 vt launch e.2),
    Part.mod fun d => d.modGroup c.g fun g => { g with
      acc := (g.acc.filter fun a => !(at_ a).any now).map fun a =>
        match at_ a with
        | some e => { a with op := .store e.2 }
        | none => a }]

/-- The low bytes of a run of registers (R155). -/
def regBytes (r : Nat → Word) (n k size : Nat) : List Byte :=
  leBytes size (natSum ((countFrom 0 k).map fun j => (r (n + j)).toNat * 2 ^ (32 * j)))

/-- `st` (R154, R155). -/
def execSt (d : Reg) (g : Reg) (p : Space3) (o : BitVec 5) (t : StTy) (s : State) : Host.Outcome State Fault Refusal :=
  commit s (word (.st d g p o t) (fun c gr l s =>
    let addr (m : Nat) : Nat := offAddr (srcV s.dev gr c m g.toNat) o (stSize t)
    let data (m : Nat) : List Byte := regBytes (srcV s.dev gr c m) d.toNat t.regs (stSize t)
    match p with
    | .stk =>
      match stackFaults gr l c.on addr (stSize t) with
      | some f => raise c f s
      | none =>
        (c.on.filter fun m => (stackFault l (addr m) (stSize t)).isNone).flatMap fun m =>
          storeBytes .stk (stkAddr c.g m (addr m)) (data m)
    | _ =>
      match accessLanes s.dev gr l (s.dev.jobOf l) (pcSlot c.loc) (c.on.filter gr.isLive) (decide (p = .pad)) addr (stSize t) (stSize t)
          (sizeCode (stSize t)) .write with
      | .error f => raise c f s
      | .ok xs => if xs.isEmpty then [] else doStores c (xs.map fun a => (a, data a.lane)) s) s)

/-! ### Atomics -/

/-- The acquire and release of an ORD code (R158). -/
def ordAcq : Ord → Bool
  | .acq _ => true
  | .acqrel _ => true
  | _ => false
def ordRel : Ord → Bool
  | .rel _ => true
  | .acqrel _ => true
  | _ => false
def scopeNo : Scope → Nat
  | .blk => 1
  | .gang => 2
  | .dev => 3
  | .sys => 4
def ordScope : Ord → Nat
  | .relaxed => 0
  | .acq s => scopeNo s
  | .rel s => scopeNo s
  | .acqrel s => scopeNo s

/-- One lane's atomic, done at once: its old value comes after 12 die cycles, or as a counted load. -/
structure AtomLane where
  acc : LaneAccess
  op : AccOp
  slots : List Slot
  deriving DecidableEq, Repr

/-- The new value of an atomic access from the old one; `none` writes nothing. -/
def AccOp.newValue (o : AccOp) (old : Nat) : Option Nat :=
  match o with
  | .atom k v _ => some (aopNew k old v)
  | .acc f v _ => some (aopNew (if f then .addF32 else .addZ32) old v)
  | .cas cmp new _ => if old = cmp then some new else none
  | _ => none

/-- What an atomic at the group's own block memory, or in a vintage, writes (R161, R249, R250). -/
def atomNow (c : Issue) (vt launch : Nat) (acq rel : Bool) (scope : Nat) (x : AtomLane) : Part := fun s =>
  let plain := accAtomic c.g x.acc vt launch acq rel scope (x.op.newValue (s.accRead x.acc vt))
  match x.op with
  | .acc f v _ => if x.acc.tagged then accDelta c.g x.acc vt launch acq rel scope f v s else plain s
  | _ => plain s

/-- The values that such atomics read, one after another. -/
def atomOlds (c : Issue) (vt launch : Nat) (acq rel : Bool) (scope : Nat) : List AtomLane → State → List (AtomLane × Nat)
  | [], _ => []
  | x :: xs, s => (x, s.accRead x.acc vt) :: atomOlds c vt launch acq rel scope xs (s.run (atomNow c vt launch acq rel scope x s))

/-- The zeros of a word's helper lanes, whose atomics are suppressed (R150). The spec gives them no moment: they land after 12 die cycles, and
the counted load completes no earlier (log 69). -/
def helperZeros (c : Issue) (g : Group) (n k : Nat) : List Out :=
  (c.on.filter g.isHelper).flatMap fun m => slotOuts (g.slots m n k) 0

/-- Atomics at checked accesses, in ascending lane order (R151, R161): those at once first; the counted ones are one counted load of the
word (R152). `zero`: what its helper lanes get. -/
def doAtomics (c : Issue) (acq rel : Bool) (scope : Nat) (zero : List Out) (xs : List AtomLane) : Part := fun s =>
  match s.dev.group? c.g, s.dev.launch? c.g.launch with
  | some g, some l =>
    let all := xs.map AtomLane.acc
    let now := xs.filter fun x => atOnceIn all x.acc
    let olds := atomOlds c g.vt l.tag acq rel scope now s
    let ops := (olds.filter fun e => countedTarget e.1.acc).map (fun e => (e.1.acc, AccOp.value e.2 e.1.slots)) ++
      (xs.filter fun x => !atOnceIn all x.acc).map fun x => (x.acc, x.op)
    let outs := zero ++ (olds.filter fun e => !countedTarget e.1.acc).flatMap fun e => slotOuts e.1.slots e.2
    Part.seq [
      Part.mod (fun d => xs.foldl (fun d x => d.touchRace g l x.acc .other) d),
      Part.each now (atomNow c g.vt l.tag acq rel scope),
      retire c.g 12 outs,
      Part.mod (fun d => if ops.isEmpty then d
        else d.issueAccesses c true (s.dev.nearOf g outs) acq rel scope ops
          ((xs.filter fun x => countedTarget x.acc).flatMap fun x => slotRegs x.slots))] s
  | _, _ => []

/-- An atomic of a batch: checked, then done in each live lane. -/
def atomBody (d : Reg) (a : Reg) (p : Bool) (r : Ord) (size ndst : Nat) (order : Bool) (op : (Nat → Word) → List Slot → AccOp)
    (c : Issue) (g : Group) (l : Launch) : Part := fun s =>
  let addr (m : Nat) : Nat := (srcV s.dev g c m a.toNat).toNat
  match accessLanes s.dev g l (s.dev.jobOf l) (pcSlot c.loc) (c.on.filter g.isLive) p addr size size (sizeCode size) (.atomic order) with
  | .error f => raise c f s
  | .ok xs =>
    let zero := helperZeros c g d.toNat ndst
    if xs.isEmpty then retire c.g 12 zero s
    else doAtomics c (ordAcq r) (ordRel r) (ordScope r) zero (xs.map fun x =>
      let ss := g.slots x.lane d.toNat ndst
      ⟨x, op (srcV s.dev g c x.lane) ss, ss⟩) s

/-- An atomic word. -/
def atomWord (i : Instr) (d : Reg) (a : Reg) (p : Bool) (r : Ord) (size ndst : Nat) (order : Bool)
    (op : (Nat → Word) → List Slot → AccOp) : State → List Act :=
  word i (atomBody d a p r size ndst order op)

/-- Whether an operation's result depends on the order of accesses (R161). -/
def aopOrder : AOp → Bool
  | .addF32 => true
  | _ => false

/-- `atom` (R159, R161). Under DET, AOP 5 and 8 fault as AOP 1 and 16 do (R161). -/
def execAtom (d : Reg) (a : Reg) (k : AOp) (p : Bool) (r : Ord) (s : State) : Host.Outcome State Fault Refusal :=
  commit s (atomWord (.atom d a k p r) d a p r (aopSize k) k.regs
    (aopOrder k || decide (k = .minF32) || decide (k = .maxF32))
    (fun rd ss => .atom k (if k.regs = 2 then pair64 (rd d.toNat) (rd (d.toNat + 1)) else (rd d.toNat).toNat) ss) s)

/-- `atom.cas` (R160, R161). -/
def execAtomCas (d : Reg) (a : Reg) (z : Bool) (p : Bool) (r : Ord) (s : State) : Host.Outcome State Fault Refusal :=
  commit s (atomWord (.atomCas d a z p r) d a p r (if z then 8 else 4) (if z then 2 else 1) false
    (fun rd ss =>
      if z then .cas (pair64 (rd d.toNat) (rd (d.toNat + 1))) (pair64 (rd (d.toNat + 2)) (rd (d.toNat + 3))) ss
      else .cas (rd d.toNat).toNat (rd (d.toNat + 1)).toNat ss) s)

/-- Whether a lane's `atom.acc` meets a delta of the other type (R250). -/
def State.accClash (s : State) (vt : Nat) (f32 : Bool) (a : LaneAccess) : Bool :=
  a.tagged &&
  match s.dev.cell? vt (decide (a.store = .pad)) (match a.store with | .pad => 0 | .blk _ b => b) (a.off / 32) with
  | some c => c.kind (a.off % 32 / 4) != 0 && c.kind (a.off % 32 / 4) != (if f32 then 2 else 1)
  | none => false

/-- The clashes of delta types that an `atom.acc` meets in lanes whose access has no fault of R149. -/
def accClashes (f32 : Bool) (a : Reg) (p : Bool) (s : State) (c : Issue) (g : Group) (l : Launch) : List (Nat × Nat) :=
  causeIf 1 ((c.on.filter g.isLive).any fun m =>
    match accessLanes s.dev g l (s.dev.jobOf l) (pcSlot c.loc) [m] p (fun m => (srcV s.dev g c m a.toNat).toNat) 4 4 2 (.atomic f32) with
    | .ok xs => xs.any (s.accClash g.vt f32)
    | .error _ => false)

/-- `atom.acc` (R159, R250). -/
def accWord (i : Instr) (f32 : Bool) (d : Reg) (a : Reg) (p : Bool) (r : Ord) : State → List Act :=
  wordWith i (accClashes f32 a p)
    (atomBody d a p r 4 1 f32 fun rd ss => .acc f32 (rd d.toNat).toNat ss)

/-- `atom.acc.z32` (R250). -/
def execAtomAccZ32 (d : Reg) (a : Reg) (p : Bool) (r : Ord) (s : State) : Host.Outcome State Fault Refusal :=
  commit s (accWord (.atomAccZ32 d a p r) false d a p r s)

/-- `atom.acc.f32` (R250). -/
def execAtomAccF32 (d : Reg) (a : Reg) (p : Bool) (r : Ord) (s : State) : Host.Outcome State Fault Refusal :=
  commit s (accWord (.atomAccF32 d a p r) true d a p r s)

/-! ### Moments in memory (R131, R132) -/

/-- `mld` in block memory or the pad (R132). -/
def mldWord (i : Instr) (d : Reg) (gr : Reg) (o : BitVec 7) (pad : Bool) (s : State) : List Act :=
  word i (fun c g l s =>
    let addr (m : Nat) : Nat := offAddr (srcV s.dev g c m gr.toNat) o 8
    match accessLanes s.dev g l (s.dev.jobOf l) (pcSlot c.loc) c.on pad addr 8 8 3 .read with
    | .error f => raise c f s
    | .ok xs =>
      let val (a : LaneAccess) : Nat := s.accRead a g.vt
      let now := xs.filter fun a => !countedTarget a
      let bad (a : LaneAccess) : Bool := badVar (val a / 2 ^ 32)
      match (if g.nvf then now.find? fun a => g.isLive a.lane && bad a else none) with
      | some a => raise c { code := .negvar, faddr := a.addr, cause := a.lane % 64 + 128 } s
      | none =>
        let zero := (c.on.filter fun m => !xs.any fun a => decide (a.lane = m)).flatMap fun m => outMom m d.toNat 0 0
        let outs := zero ++ now.flatMap fun a =>
          outMom a.lane d.toNat (val a) (if bad a then 0 else val a / 2 ^ 32)
        let vcl := now.any fun a => g.isLive a.lane && bad a
        let later := xs.filter countedTarget
        let ops := later.map fun a => (a, AccOp.loadMom g.nvf (if a.tagged then some (val a) else none) [⟨a.lane, .m d.toNat, 0⟩])
        let d1 := xs.foldl (fun d a => d.touchRace g l a .other) s.dev
        let d2 := if ops.isEmpty then d1
          else d1.issueAccesses c true (s.dev.nearOf g outs) false false 0 ops (later.map fun a => (a.lane, .m d.toNat))
        [.dev (d2.retire c.g 12 (outs ++ outFlags (if vcl then 32 else 0)))]) s

/-- `mld.blk` (R131, R132). -/
def execMldBlk (d : Reg) (g : Reg) (o : BitVec 7) (s : State) : Host.Outcome State Fault Refusal :=
  commit s (mldWord (.mldBlk d g o) d g o false s)

/-- `mld.pad` (R131, R132). -/
def execMldPad (d : Reg) (g : Reg) (o : BitVec 7) (s : State) : Host.Outcome State Fault Refusal :=
  commit s (mldWord (.mldPad d g o) d g o true s)

/-- `mst` (R131). -/
def mstWord (i : Instr) (d : Reg) (gr : Reg) (o : BitVec 7) (pad : Bool) (s : State) : List Act :=
  word i (fun c g l s =>
    let addr (m : Nat) : Nat := offAddr (srcV s.dev g c m gr.toNat) o 8
    match accessLanes s.dev g l (s.dev.jobOf l) (pcSlot c.loc) (c.on.filter g.isLive) pad addr 8 8 3 .write with
    | .error f => raise c f s
    | .ok xs =>
      if xs.isEmpty then []
      else doStores c (xs.map fun a => (a, leBytes 8 (cellGet (g.lane a.lane).m d.toNat).toNat)) s) s

/-- `mst.blk` (R131). -/
def execMstBlk (d : Reg) (g : Reg) (o : BitVec 7) (s : State) : Host.Outcome State Fault Refusal :=
  commit s (mstWord (.mstBlk d g o) d g o false s)

/-- `mst.pad` (R131). -/
def execMstPad (d : Reg) (g : Reg) (o : BitVec 7) (s : State) : Host.Outcome State Fault Refusal :=
  commit s (mstWord (.mstPad d g o) d g o true s)

/-! ### Masks (R162) -/

/-- The number whose bit `k` says whether `k` is in a list. -/
def maskOf (ls : List Nat) : Nat := natSum (ls.map fun k => 2 ^ k)

/-- `st.mask` (R162). -/
def execStMask (d : Reg) (g : Reg) (o : BitVec 7) (y : Bool) (s : State) : Host.Outcome State Fault Refusal :=
  commit s (word (.stMask d g o y) (fun c gr l s =>
    match gr.leader c.on with
    | none => []
    | some ld =>
      let m := gr.width / 8
      let addr := offAddr (srcV s.dev gr c ld g.toNat) o m
      match accessLanes s.dev gr l (s.dev.jobOf l) (pcSlot c.loc) [ld] y (fun _ => addr) m m 7 .write with
      | .error f => raise c f s
      | .ok xs =>
        let ls := c.on.filter gr.isLive
        let mask := maskOf ls
        let data := maskOf (ls.filter fun k => (gr.lane k).predF d.toNat)
        Part.each xs (fun a => fun s =>
          if a.atOnce then
            let old := s.accRead a gr.vt
            Part.seq [Part.mod (fun dv => dv.touchRace gr l a .plainWrite),
              maskNow c gr l a mask data old] s
          else
            [.dev ((s.dev.touchRace gr l a .plainWrite).issueAccesses c false 0 false false 0
              [(a, AccOp.storeMask mask data)] [])]) s) s)
where
  /-- The mask's bytes written at once; in a cell only the bytes that hold a written bit are marked. -/
  maskNow (c : Issue) (gr : Group) (l : Launch) (a : LaneAccess) (mask data old : Nat) : Part :=
    Part.each (countFrom 0 a.size) fun k =>
      if mask / 2 ^ (8 * k) % 2 ^ 8 = 0 then Part.none
      else accStore c.g { a with off := a.off + k, size := 1 } gr.vt l.tag
        [BitVec.ofNat 8 (mergeMask old mask data a.size / 2 ^ (8 * k))]

/-- `ld.mask` (R162). -/
def execLdMask (d : Reg) (g : Reg) (o : BitVec 7) (y : Bool) (s : State) : Host.Outcome State Fault Refusal :=
  commit s (word (.ldMask d g o y) (fun c gr l s =>
    match gr.leader c.on with
    | none => []
    | some ld =>
      let m := gr.width / 8
      let addr := offAddr (srcV s.dev gr c ld g.toNat) o m
      match accessLanes s.dev gr l (s.dev.jobOf l) (pcSlot c.loc) [ld] y (fun _ => addr) m m 7 .read with
      | .error f => raise c f s
      | .ok xs =>
        Part.each xs (fun a => fun s =>
          let d1 := s.dev.touchRace gr l a .other
          if countedTarget a then
            let ps := if d.toNat % 16 = 15 then [] else c.on.map fun k => (k, d.toNat)
            let known := if a.tagged then some (s.accRead a gr.vt) else none
            [.dev (d1.issueAccesses c true 0 false false 0 [(a, AccOp.loadMask known ps)] (ps.map fun e => (e.1, .p e.2)))]
          else
            let v := s.accRead a gr.vt
            [.dev (d1.retire c.g 12 (c.on.flatMap fun k => outPred k d.toNat (bitAt v k)))]) s) s)

/-! ### The spill stack (R30, R156, R157) -/

/-- The overflow or underflow that a live lane meets: code STACK_OVERFLOW, space 0, size code 3 (R30). -/
def spillFault (g : Group) (l : Launch) (ls : List Nat) (pop : Bool) : Option FaultInfo :=
  ((ls.filter g.isLive).find? fun k =>
      if pop then decide ((g.lane k).ssp = 0) else decide (l.spill < (g.lane k).ssp.toNat + 8)).map fun k =>
    { code := .stackOverflow, faddr := (g.lane k).ssp.toNat, cause := accessCause k .stk 3 pop }

/-- Whether a lane's push or pop is possible. -/
def spillOk (g : Group) (l : Launch) (pop : Bool) (k : Nat) : Bool :=
  if pop then decide ((g.lane k).ssp ≠ 0) else decide ((g.lane k).ssp.toNat + 8 ≤ l.spill)

/-- An 8-byte entry pushed in a lane (R157). -/
def pushEntry (key : GKey) (k x : Nat) : Part := fun s =>
  match s.dev.group? key with
  | none => []
  | some g =>
    let ln := g.lane k
    storeBytes .stk (stkAddr key k ln.ssp.toNat) (leBytes 8 x) ++
      [.dev (s.dev.setGroup (g.setLane k { ln with ssp := ln.ssp + 8, rc := min (ln.rc + 1) 4 }))]

/-- The entry on top of a lane's stack. -/
def State.topEntry (s : State) (key : GKey) (ln : Lane) (k : Nat) : Nat :=
  natAt s.stk (stkAddr key k (ln.ssp.toNat - 8)) 8

/-- A lane's pointer after a pop (R156). -/
def Lane.popped (x : Lane) : Lane := { x with ssp := x.ssp - 8, rc := x.rc - 1 }

/-- `push` (R157). -/
def execPush (d : Reg) (z : Bool) (s : State) : Host.Outcome State Fault Refusal :=
  commit s (word (.push d z) (fun c g l s =>
    match spillFault g l c.on false with
    | some f => raise c f s
    | none =>
      Part.each (c.on.filter (spillOk g l false)) (fun k =>
        pushEntry c.g k (if z then srcV64 s.dev g c k d.toNat else (srcV s.dev g c k d.toNat).toNat)) s) s)

/-- `pop` (R157): a hit is ready after 12 die cycles, a miss is counted (R156). -/
def execPop (d : Reg) (z : Bool) (s : State) : Host.Outcome State Fault Refusal :=
  commit s (word (.pop d z) (fun c g l s =>
    match spillFault g l c.on true with
    | some f => raise c f s
    | none =>
      let n := regs64 z
      let ok := c.on.filter (spillOk g l true)
      let val (k : Nat) : Nat := s.topEntry c.g (g.lane k) k % 2 ^ (32 * n)
      let hit := ok.filter fun k => decide (0 < (g.lane k).rc)
      let miss := ok.filter fun k => decide ((g.lane k).rc = 0)
      let zero := (c.on.filter fun k => !ok.contains k).flatMap fun k => slotOuts (g.slots k d.toNat n) 0
      let outs := zero ++ hit.flatMap fun k => slotOuts (g.slots k d.toNat n) (val k)
      let ops := miss.map fun k =>
        ((⟨k, 0, .stk, .blk 0 0, 0, 8, false⟩ : LaneAccess), AccOp.value (val k) (g.slots k d.toNat n))
      let d1 := s.dev.setGroup (g.modLanes ok fun _ x => x.popped)
      let d2 := if ops.isEmpty then d1
        else d1.issueAccesses c true (s.dev.nearOf g outs) false false 0 ops (miss.flatMap fun k => slotRegs (g.slots k d.toNat n))
      [.dev (d2.retire c.g 12 outs)]) s)

/-! ### Fences and waiting (R163) -/

/-- Whether every store and atomic that a group issued before its count of accesses was `mark` has been performed, and every read made that a
held word could not make at its issue (R163, R172, R231). -/
def Group.storesBefore (g : Group) (mark : Nat) : Bool :=
  g.acc.all fun a => !((a.op.writes || (a.isDue && !a.taken)) && decide (a.seq < mark))

/-- The count of accesses of a word's group when it issued. -/
def Issue.mark (c : Issue) (g : Group) : Nat := (c.resume.map Hold.mark).getD g.accesses

/-- Whether every store and atomic that a group issued before its word has been performed. -/
def Group.storesDone (g : Group) (c : Issue) : Bool := g.storesBefore (c.mark g)

/-- The fault record fields of a deferred fault. -/
def Deferred.info (x : Deferred) : FaultInfo := { code := .raw x.code, faddr := x.faddr, cause := x.cause, aux := x.aux }

/-- The earliest deferred fault among those that hold, at its lowest lane (R122, R182). -/
def firstDeferred (xs : List Deferred) : Option Deferred :=
  match xs with
  | [] => none
  | x :: r =>
    match firstDeferred r with
    | none => some x
    | some y => if y.seq < x.seq ∨ (y.seq = x.seq ∧ y.lane < x.lane) then some y else some x

/-- A deferred fault raised at a word; a REMOTE_TIMEOUT is not precise, and its cause detail is the slot (R182, R327). -/
def raiseDeferred (c : Issue) (x : Deferred) : Part :=
  if x.code = 0x34 then takeFault c.g c.lanes c.loc false { x.info with cause := pcSlot c.loc }
  else raise c x.info

/-- The timed-out accesses that a fence meets, and those that a word waiting for stores alone meets (R327). -/
def Group.timedOut (g : Group) (storesOnly : Bool) : Option Deferred :=
  firstDeferred (g.deferred.filter fun x => decide (x.code = 0x34) && (x.store || !storesOnly))

/-- Whether every load has landed and every store and atomic of a group has been performed. -/
def Group.drained (g : Group) : Bool := g.acc.isEmpty

/-- Whether a fence that issued at count `mark` is over: the counter is 0, and the stores and atomics before it are performed (R163). -/
def Group.fenceOver (g : Group) (mark : Nat) : Bool :=
  decide (g.outstanding = 0) && g.storesBefore mark

/-- `fence` (R163): the batch holds until the counter is 0 and every earlier store and atomic has been performed. -/
def fenceWord (i : Instr) (s : State) : List Act :=
  word i (fun c g _ s =>
    if c.on.isEmpty then []
    else if g.fenceOver (c.mark g) then
      match g.timedOut false with
      | some x => raiseDeferred c x s
      | none => Part.seq [
        Part.mod fun d => d.modGroup c.g fun g => { g with counted := [] },
        (if c.resume.isSome then releaseLanes c.g c.lanes (pcNext c.loc) else Part.none)] s
    else if c.resume.isSome then []
    else holdLanes c i c.lanes .retry 4 .none s) s

/-- `fence.grp` (R163). -/
def execFenceGrp (s : State) : Host.Outcome State Fault Refusal := commit s (fenceWord .fenceGrp s)
/-- `fence.blk` (R163). -/
def execFenceBlk (s : State) : Host.Outcome State Fault Refusal := commit s (fenceWord .fenceBlk s)
/-- `fence.gang` (R163). -/
def execFenceGang (s : State) : Host.Outcome State Fault Refusal := commit s (fenceWord .fenceGang s)
/-- `fence.dev` (R163). -/
def execFenceDev (s : State) : Host.Outcome State Fault Refusal := commit s (fenceWord .fenceDev s)
/-- `fence.sys` (R163). -/
def execFenceSys (s : State) : Host.Outcome State Fault Refusal := commit s (fenceWord .fenceSys s)

/-- `wait.ld` (R163): holds until the counter is at most n; a fault that a retired load left is raised here (R132, R258). -/
def execWaitLd (n : BitVec 7) (s : State) : Host.Outcome State Fault Refusal :=
  commit s (word (.waitLd n) (fun c g _ s =>
    if c.on.isEmpty then []
    else if g.outstanding ≤ n.toNat then
      let retired := g.counted.takeWhile g.complete
      match firstDeferred (g.deferred.filter fun x => !x.store && retired.any fun q => decide (q.seq = x.seq)) with
      | some x => raiseDeferred c x s
      | none =>
        Part.seq [
          Part.mod fun d => d.modGroup c.g fun g => { g with counted := g.unretired },
          (if c.resume.isSome then releaseLanes c.g c.lanes (pcNext c.loc) else Part.none)] s
    else if c.resume.isSome then []
    else holdLanes c (.waitLd n) c.lanes .retry 4 .none s) s)

/-! ### Why a memory word is not ready -/

/-- The lanes of an `atom.cas` whose compare succeeds in the view as it stands: the others make no cell (R249). -/
def casMakes (s : State) (c : Issue) (g : Group) (d : Reg) (z : Bool) (a : LaneAccess) : Bool :=
  decide (s.accRead a g.vt = if z then srcV64 s.dev g c a.lane d.toNat else (srcV s.dev g c a.lane d.toNat).toNat)

/-- Whether a stack load of a batch misses in some lane, and so is counted (R152, R156). -/
def stackMisses (g : Group) (l : Launch) (ls : List Nat) (addr : Nat → Nat) (n : Nat) : Bool :=
  ls.any fun m => (stackFault l (addr m) n).isNone && !(g.lane m).stackHit (addr m) n

/-- Why a memory word cannot issue: the accesses that it would make, those that may make a cell, and whether it is counted. -/
def memBlocked (s : State) (c : Issue) (g : Group) (l : Launch) (i : Instr) : Option (Nat × Watchdog) :=
  let j := s.dev.jobOf l
  let go (ls : List Nat) (pad : Bool) (addr : Nat → Nat) (n al : Nat) (u : Use) (makes : LaneAccess → Bool) (counted : Bool) :=
    match accessLanes s.dev g l j (pcSlot c.loc) ls pad addr n al 0 u with
    | .error _ => none
    | .ok xs => if xs.isEmpty then none else blockedBy s.dev g l xs (xs.filter makes) counted
  let live := c.on.filter g.isLive
  let off {w : Nat} (r : Reg) (o : BitVec w) (sz : Nat) (m : Nat) : Nat := offAddr (srcV s.dev g c m r.toNat) o sz
  let full : Option (Nat × Watchdog) := if 63 ≤ g.outstanding then some (4, .none) else none
  let all (_ : LaneAccess) : Bool := true
  let no (_ : LaneAccess) : Bool := false
  let atom (a : Reg) (p : Bool) (r : Ord) (n : Nat) (makes : LaneAccess → Bool) :=
    firstAtom (go live p (fun m => (srcV s.dev g c m a.toNat).toNat) n n (.atomic false) makes true)
      (if ordRel r && !g.drained then some (if g.acc.any (s.vtWaits l.tag) then 10 else 4, .none) else none)
  match i with
  | .ld sc _ b p o t =>
    if p = .stk then (if stackMisses g l (loadLanes g c sc) (off b o (ldSize t)) (ldSize t) then full else none)
    else go (loadLanes g c sc) (decide (p = .pad)) (off b o (ldSize t)) (ldSize t) (ldSize t) .read no true
  | .st _ b p o t =>
    if p = .stk then none
    else go live (decide (p = .pad)) (off b o (stSize t)) (stSize t) (stSize t) .write all false
  | .atom _ a k p r => atom a p r (aopSize k) all
  | .atomAccZ32 _ a p r => atom a p r 4 all
  | .atomAccF32 _ a p r => atom a p r 4 all
  | .atomCas d a z p r => atom a p r (if z then 8 else 4) (casMakes s c g d z)
  | .mldBlk _ b o => go c.on false (off b o 8) 8 8 .read no true
  | .mldPad _ b o => go c.on true (off b o 8) 8 8 .read no true
  | .mstBlk _ b o => go live false (off b o 8) 8 8 .write all false
  | .mstPad _ b o => go live true (off b o 8) 8 8 .write all false
  | .stMask _ b o y => go (loadLanes g c true) y (off b o (g.width / 8)) (g.width / 8) (g.width / 8) .write all false
  | .ldMask _ b o y => go (loadLanes g c true) y (off b o (g.width / 8)) (g.width / 8) (g.width / 8) .read no true
  | .pop _ _ => if (c.on.filter (spillOk g l true)).any fun k => decide ((g.lane k).rc = 0) then full else none
  | .ldVt _ _ _ _ _ | .ldVtw _ _ _ _ _ => if c.on.isEmpty then none else if g.acquiring then some (4, .none) else full
  | _ => none
where
  /-- A cell or an `ld.vtw` that a word waits for stands before the accesses that a release waits for (R143). -/
  firstAtom (b early : Option (Nat × Watchdog)) : Option (Nat × Watchdog) :=
    match b, early with
    | some (10, w), _ => some (10, w)
    | _, some e => some e
    | b, none => b

end Sys2Proof.Machine
end

