-- ==== Sys2Proof/Machine/Barriers.lean ====
section
/-!
DEFINITION. Block, gang and grid barriers (R169 to R174), the slot-pair lock (R139 to R141), and the opcodes 0x34 and 0x36.
A barrier's number is 0 to 15 in the block, 16 for the gang and 17 for the grid.
-/

namespace Sys2Proof.Machine

/-- Whether a lane's fibre is pending at a barrier. -/
def Lane.isPending (x : Lane) (n : Nat) : Bool := bitAt x.pending.toNat n
def Lane.setPending (x : Lane) (n : Nat) (b : Bool) : Lane :=
  { x with pending := if b then x.pending ||| BitVec.ofNat 18 (2 ^ n) else x.pending &&& ~~~ BitVec.ofNat 18 (2 ^ n) }

/-- An idle barrier with an expected count. -/
def Barrier.fresh (exp : Nat) : Barrier := ⟨exp, 0, 0, 0⟩

/-- The counts of a barrier that a group arrives at (R169, R174). -/
def Dev.barrier (d : Dev) (k : GKey) (n : Nat) : Barrier :=
  match d.launch? k.launch with
  | none => .fresh 0
  | some l =>
    if n < 16 then (match d.block? k.launch k.block with | some b => b.bars.getD n (.fresh l.groups) | none => .fresh l.groups)
    else if n = 16 then
      (match l.gangBars.find? fun e => decide (e.gang = l.gangOf k.block) with
        | some e => e.bar
        | none => .fresh (l.gang * l.groups))
    else l.gridBar

/-- The counts of a barrier replaced. -/
def Dev.setBarrier (d : Dev) (k : GKey) (n : Nat) (x : Barrier) : Dev :=
  if n < 16 then d.modBlock k.launch k.block fun b => { b with bars := b.bars.set n x }
  else d.modLaunch k.launch fun l =>
    if n = 16 then { l with gangBars := upsert (fun e => decide (e.gang = l.gangOf k.block)) ⟨l.gangOf k.block, x⟩ l.gangBars }
    else { l with gridBar := x }

/-- ARRM of a barrier in the block of a group (R169, R174). -/
def Dev.arrm (d : Dev) (k : GKey) (n : Nat) : BitVec 16 :=
  match d.block? k.launch k.block with
  | some b => (b.bars.getD n (.fresh 0)).arrm
  | none => 0

/-- Whether a block's fibres meet at a barrier with those of another block. -/
def Launch.meets (l : Launch) (block n index : Nat) : Bool :=
  if n < 16 then decide (index = block)
  else if n = 16 then decide (l.gangOf index = l.gangOf block)
  else true

/-- The block that stands for a block's gang in its launch's queue: the gang's first (R298). -/
def Launch.unit (l : Launch) (block : Nat) : Nat := l.gangOf block * max l.gang 1

/-- Whether a block is parked: saved, or still on its way out for no other reason (R300). -/
def Block.parks (b : Block) : Bool :=
  decide (b.residency = .parked) || (decide (b.residency = .halting) && !b.requeue && !b.byDebugger)

/-- Parked blocks enter the tail of the queue in ascending index; one that is still halting has its place as well (R300). -/
def Dev.unpark (d : Dev) (tag : Nat) : Dev :=
  let parked (b : Block) : Bool := decide (b.launch = tag) && b.parks
  let ps := sortNat ((d.blocks.filter parked).map Block.index)
  let join (b : Block) : Block :=
    if parked b = false then b
    else if b.residency = .parked then { b with residency := .saved }
    else { b with requeue := true }
  let d1 := { d with blocks := d.blocks.map join }
  d1.modLaunch tag fun l => { l with back := l.back ++ sortNat (ps.map l.unit) }

/-- Where the arrivals at a barrier gather: among the records of its launch (R286). -/
def Dev.barPlace (d : Dev) (k : GKey) (n : Nat) : Store × Nat × Nat :=
  (.blk k.launch 0, 2 ^ 16 + n,
    if n < 16 then k.block else if n = 16 then (match d.launch? k.launch with | some l => l.gangOf k.block | none => 0) else 0)

/-- The scope at which an arrival at a barrier is a release, and its completion an acquire (R172, R174, R286). -/
def barScope (n : Nat) : Nat := if n < 16 then 1 else if n = 16 then 2 else 3

/-- A group's arrival is a release: the staged writes that it knows of happen before it (R172, R286). -/
def Dev.barRelease (d : Dev) (k : GKey) (n : Nat) : Dev :=
  let r := d.releaseOf k (barScope n)
  let p := d.barPlace k n
  if r.knows.isEmpty then d else d.setMeeting p.1 p.2.1 p.2.2 (addRelease (d.meeting p.1 p.2.1 p.2.2) r)

/-- The completion of a phase is an acquire for the groups that meet there (R172, R286). -/
def Dev.barAcquire (d : Dev) (k : GKey) (n : Nat) (meets : GKey → Bool) : Dev :=
  let p := d.barPlace k n
  match d.meeting p.1 p.2.1 p.2.2 with
  | [] => d
  | hs => ((d.groups.map Group.key).filter meets).foldl (fun d y => d.syncWith y (barScope n) hs) (d.setMeeting p.1 p.2.1 p.2.2 [])

/-- A phase of a barrier completes: no fibre is pending, the phases advance; after a grid phase the pad's phase advances, parked
blocks queue and the grid's merge records go (R170, R174, R177, R239, R256, R300). -/
def Dev.completePhase (d : Dev) (k : GKey) (n : Nat) : Dev :=
  match d.launch? k.launch with
  | none => d
  | some l =>
    let meets (launch index : Nat) : Bool := decide (launch = l.tag) && l.meets k.block n index
    let bar := d.barrier k n
    let d1 := (d.barAcquire k n fun y => meets y.launch y.block).setBarrier k n { bar with arr := 0, arrm := 0, phase := bar.phase + 1 }
    let d2 := { d1 with
      groups := d1.groups.map fun g =>
        if meets g.key.launch g.key.block then { g with lanes := g.lanes.map fun x => x.setPending n false } else g
      blocks := d1.blocks.map fun b =>
        if meets b.launch b.index then
          { b with
            phase := b.phase + 1
            bars := modAt (fun x => { x with arrm := 0 }) n b.bars }
        else b }
    if n = 17 then
      let d3 := d2.modLaunch l.tag fun l => { l with gp := (l.gp + 1) % 2 ^ 16, gridPhase := l.gridPhase + 1 }
      { d3 with mergeRecs := d3.mergeRecs.filter fun r => decide (r.launch ≠ l.tag) }.unpark l.tag
    else d2

/-- Whether a staged write of a launch is not visible yet: then the grid barrier's phase does not complete (R280). -/
def Dev.stagedIn (d : Dev) (launch : Nat) : Bool := d.staged.any fun w => decide (w.launch = launch)

/-- TryComplete (R170): a group's arrival is complete once each of its live fibres is pending. -/
def Dev.tryComplete (d : Dev) (k : GKey) (n : Nat) : Dev :=
  match d.group? k with
  | none => d
  | some g =>
    let live := g.liveLanes
    if bitAt (d.arrm k n).toNat k.group = false ∧ live.isEmpty = false ∧ live.all (fun f => (g.lane f).isPending n) then
      let bar := d.barrier k n
      let mark (b : Block) : Block :=
        { b with bars := modAt (fun x => { x with arrm := x.arrm ||| BitVec.ofNat 16 (2 ^ k.group) }) n b.bars }
      let d1 := d.setBarrier k n { bar with arr := bar.arr + 1 }
      let d2 := d1.modBlock k.launch k.block mark
      if bar.arr + 1 = bar.exp ∧ !(decide (n = 17) && d.stagedIn k.launch) then d2.completePhase k n else d2
    else d

/-- Fibres of a group arrive at a barrier (R170). -/
def Dev.arrive (d : Dev) (k : GKey) (n : Nat) (ls : List Nat) : Dev :=
  if ls.isEmpty then d
  else ((d.barRelease k n).modGroup k fun g => g.modLanes ls fun _ x => x.setPending n true).tryComplete k n

/-- The lanes of a list that are pending at a barrier. -/
def Dev.pendingLanes (d : Dev) (k : GKey) (n : Nat) (ls : List Nat) : List Nat :=
  match d.group? k with
  | some g => ls.filter fun f => (g.lane f).isPending n
  | none => []

/-- What a lane's `bar.wait` does after an arrival: it waits while it is pending (R173). -/
def waitBarrier (c : Issue) (i : Instr) (n : Nat) (ls : List Nat) : Part := fun s =>
  let stay := s.dev.pendingLanes c.g n ls
  let go := ls.filter fun f => !stay.contains f
  Part.seq [
    (if stay.isEmpty then Part.none else holdLanes c i stay (.barrier n) 5 (.bar n 0)),
    (if c.resume.isSome ∧ go.isEmpty = false then releaseLanes c.g go (pcNext c.loc) else Part.none)] s

/-- Arrival of the qualifying fibres, and for `sync` their wait (R170, R172, R173). -/
def barWord (i : Instr) (n : Nat) (sync : Bool) (s : State) : List Act :=
  word i (fun c g _ s =>
    let q := c.on.filter g.isLive
    if q.isEmpty then []
    else match c.resume.map Hold.kind with
      | some (.barrier _) =>
        let go := q.filter fun f => !(g.lane f).isPending n
        if go.isEmpty then [] else releaseLanes c.g go (pcNext c.loc) s
      | _ =>
        if !g.storesDone c then (if c.resume.isSome then [] else holdLanes c i q .retry 5 .none s)
        else match g.timedOut true with
          | some x => raiseDeferred c x s
          | none =>
            let again := q.filter fun f => (g.lane f).isPending n
            let now := q.filter fun f => !(g.lane f).isPending n
            Part.seq [
              releaseReads c.g,
              Part.mod (fun d => d.arrive c.g n now),
              (if again.isEmpty then Part.none else holdLanes c i again (.arrive n sync) 5 (.bar n 0)),
              (if now.isEmpty then Part.none
              else if sync then waitBarrier c i n now
              else if c.resume.isSome then releaseLanes c.g now (pcNext c.loc) else Part.none)] s) s

/-- Whether a barrier of a block is in use: arrivals, or a fibre of the block pending at it (R173). -/
def Dev.barBusy (d : Dev) (k : GKey) (b : Nat) : Bool :=
  decide ((d.barrier k b).arr ≠ 0) || d.groups.any fun h =>
    decide (h.key.launch = k.launch) && decide (h.key.block = k.block) && h.lanes.any fun x => x.isPending b

/-- `bar.init` (R173). -/
def execBarInit (n : BitVec 6) (b : BitVec 4) (s : State) : Host.Outcome State Fault Refusal :=
  commit s (wordWith (.barInit n b)
    (fun s c g l => causeIf 3 ((g.leader c.on).isSome && (decide (l.groups < n.toNat) || s.dev.barBusy c.g b.toNat)))
    (fun c g _ s =>
    if (g.leader c.on).isNone then []
    else [.dev (s.dev.setBarrier c.g b.toNat { s.dev.barrier c.g b.toNat with exp := n.toNat })]) s)

/-- `bar.arrive` (R170, R173). -/
def execBarArrive (b : BitVec 4) (s : State) : Host.Outcome State Fault Refusal :=
  commit s (barWord (.barArrive b) b.toNat false s)

/-- `bar.wait` (R173). -/
def execBarWait (b : BitVec 4) (s : State) : Host.Outcome State Fault Refusal :=
  commit s (word (.barWait b) (fun c g _ s =>
    let q := c.on.filter g.isLive
    if q.isEmpty then []
    else if c.resume.isSome then
      let go := q.filter fun f => !(g.lane f).isPending b.toNat
      if go.isEmpty then [] else releaseLanes c.g go (pcNext c.loc) s
    else
      let stay := q.filter fun f => (g.lane f).isPending b.toNat
      if stay.isEmpty then [] else holdLanes c (.barWait b) stay (.barrier b.toNat) 5 (.bar b.toNat 0) s) s)

/-- `bar.sync` (R173). -/
def execBarSync (b : BitVec 4) (s : State) : Host.Outcome State Fault Refusal :=
  commit s (barWord (.barSync b) b.toNat true s)

/-- `bar.sync.gang` (R173, R174). -/
def execBarSyncGang (s : State) : Host.Outcome State Fault Refusal :=
  commit s (barWord .barSyncGang 16 true s)

/-- `grid.sync` (R173, R174). -/
def execGridSync (s : State) : Host.Outcome State Fault Refusal :=
  commit s (barWord .gridSync 17 true s)

/-! ### The slot-pair lock (R139 to R141) -/

/-- A group's request for its pair's lock, with the die cycle of its order (R140). -/
def Dev.requestX (d : Dev) (g : Group) : Dev :=
  match g.place with
  | none => d
  | some p =>
    let x := d.xsetAt p
    if x.queue.any fun e => decide (e.1 = g.key) then d
    else d.setXset { x with queue := x.queue ++ [(g.key, d.now g)] }

/-- The earliest waiting request; ties go to the lower slot (R140). -/
def firstRequest (d : Dev) : List (GKey × Nat) → Option (GKey × Nat)
  | [] => none
  | e :: es =>
    match firstRequest d es with
    | none => some e
    | some f =>
      let slot (k : GKey) : Nat := match d.group? k with | some g => (match g.place with | some p => p.slot | none => 16) | none => 16
      if e.2 < f.2 ∨ (e.2 = f.2 ∧ slot e.1 ≤ slot f.1) then some e else some f

/-- The words of the extended set that a group finds on its grant: its own, where it was saved holding the lock; the last
holder's within one launch; else 0 (R139, R141). -/
def grantWords (x : XSet) (k : GKey) (saved : Option (Cells 32)) : Cells 32 :=
  match saved with
  | some w => w
  | none => if x.lastLaunch = some k.launch then x.words else []

/-- The lock of a slot pair goes to the first request where it is free (R140). -/
def Dev.grantX (d : Dev) (x : XSet) : Dev :=
  match x.holder, firstRequest d x.queue with
  | none, some (k, _) =>
    let saved := match d.group? k with | some g => g.xsaved | none => none
    let d1 := d.setXset { x with
      holder := some k
      releasing := false
      queue := x.queue.filter fun e => decide (e.1 ≠ k)
      words := grantWords x k saved
      lastLaunch := some k.launch }
    d1.modGroup k fun g => { g with xsaved := none }
  | _, _ => d

/-- The word at which a lane stands. -/
def heldWord (l : Launch) (x : Lane) : Option Instr :=
  match decode (l.wordAt x.pc) with
  | .ok i => some i
  | .error _ => none

/-- Whether a word of a group that names an extended register has still to write it: a result on its way, a counted load, or a held word that has a
destination there. What a held word reads it has read at its issue (R49, R140). -/
def Group.xBusy (g : Group) (l : Launch) : Bool :=
  let isX (t : Dest) : Bool := match t with | .x _ => true | _ => false
  (g.pend.any fun p => isX p.dst) || (g.unretired.any fun q => q.dsts.any fun e => isX e.2) ||
    g.lanes.any fun x => x.hold.isSome && (heldWord l x).any fun i =>
      i.operands.any fun o => o.wr && o.vregs.any fun n => decide (64 ≤ n)

/-- Whether the holder of an extended set has still to write it. -/
def Dev.xBusy (d : Dev) (g : Group) : Bool :=
  match d.launch? g.key.launch with
  | some l => g.xBusy l
  | none => false

/-- The locks of a die after a die cycle: releases that are due, then grants. -/
def Dev.settleX (d : Dev) (die : Nat) : Dev :=
  let xs := d.xsets.filter fun x => decide (x.die = die)
  xs.foldl (fun d x =>
    let busy := match x.holder with
      | some k => (d.group? k).any d.xBusy
      | none => false
    let y := if x.releasing ∧ busy = false then { x with holder := none, releasing := false } else x
    (d.setXset y).grantX y) d

/-- A group gives up its hold on the lock and its request (R141): the set is free at once where its group is saved, and else once what is on its
way to it has been written. -/
def Dev.dropX (d : Dev) (g : Group) (saved : Bool) : Dev :=
  match g.place with
  | none => d
  | some p =>
    match d.xset? p with
    | none => d
    | some x =>
      let y := { x with queue := x.queue.filter fun e => decide (e.1 ≠ g.key) }
      d.setXset (if y.holder = some g.key then
          (if !saved && d.xBusy g then { y with releasing := true } else { y with holder := none, releasing := false })
        else y)

/-- ILLEGAL_OPERAND where the kernel has no extended registers (R140). -/
def noXregs (_ : State) (c : Issue) (g : Group) (l : Launch) : List (Nat × Nat) := causeIf 0 ((g.leader c.on).isSome && !l.xregs)

/-- `xreg.acq` (R140). -/
def execXregAcq (s : State) : Host.Outcome State Fault Refusal :=
  commit s (wordWith .xregAcq noXregs (fun c g _ s =>
    if (g.leader c.on).isNone then []
    else if s.dev.holdsX g then (if c.resume.isSome then releaseLanes c.g c.lanes (pcNext c.loc) s else [])
    else if c.resume.isSome then []
    else Part.seq [Part.mod (fun d => d.requestX g), holdLanes c .xregAcq c.lanes .xreg 12 (.bar 0xFE 0)] s) s)

/-- `xreg.rel` (R140). -/
def execXregRel (s : State) : Host.Outcome State Fault Refusal :=
  commit s (wordWith .xregRel noXregs (fun c g _ s =>
    if (g.leader c.on).isNone then []
    else if !s.dev.holdsX g then raise c { code := .xregNotHeld, cause := checkCause (pcSlot c.loc) 0 13 } s
    else match g.place with
      | none => []
      | some p => [.dev (s.dev.setXset { s.dev.xsetAt p with releasing := true })]) s)

end Sys2Proof.Machine
end

