-- ==== Sys2Proof/Machine/Fibres.lean ====
section
/-!
DEFINITION. Helper lanes, divergence entries, the creation and the end of fibres, groups and blocks (R24 to R33, R99, R100, R144).
-/

namespace Sys2Proof.Machine

/-! ### Divergence entries (R31 to R33) -/

/-- The level-k word of a lane (R31). -/
def Lane.level (x : Lane) (k : Nat) : Nat := (cellGet x.v (32 - k)).toNat

/-- A lane's divergence depth, for a declared depth `dd`. -/
def Lane.depth (x : Lane) (dd : Nat) : Nat := ((countFrom 1 dd).filter fun k => bitAt (x.level k) 31).length

/-- The level-k word of a lane written. -/
def Lane.setLevel (x : Lane) (k w : Nat) : Lane := { x with v := cellSet x.v (32 - k) (BitVec.ofNat 32 w) }

/-! ### Helper lanes (R24, R25) -/

/-- The lowest live lane of a lane's quad. -/
def Group.quadLive (g : Group) (l : Nat) : Option Nat := (countFrom (4 * (l / 4)) 4).find? g.isLive

/-- A lane made to follow a fibre: it takes a copy of the fibre's registers (R25); its spill stack stays its own. -/
def Lane.follow (x y : Lane) (n : Nat) : Lane :=
  { x with mode := .helper n, pc := y.pc, pw := y.pw, wb := y.wb, v := y.v, m := y.m, pending := 0, hold := y.hold }

/-- Whether a destination stays with the group or the slot pair when a lane's fibre ends (R139). -/
def Dest.outlives : Dest → Bool
  | .q _ | .fpf | .x _ => true
  | _ => false

/-- Slots without those of a lane's own registers. -/
def dropSlots (l : Nat) (ss : List Slot) : List Slot := ss.filter fun e => decide (e.lane ≠ l) || e.dst.outlives

/-- The registers of a lane taken out of what an access gives (log 13). -/
def AccOp.dropLane (l : Nat) : AccOp → AccOp
  | .load ty ss => .load ty (dropSlots l ss)
  | .loadMom f k ss => .loadMom f k (dropSlots l ss)
  | .loadMask k ls => .loadMask k (ls.filter fun e => decide (e.1 ≠ l))
  | .store d => .store d
  | .storeMask m d => .storeMask m d
  | .atom k v ss => .atom k v (dropSlots l ss)
  | .acc f v ss => .acc f v (dropSlots l ss)
  | .cas a b ss => .cas a b (dropSlots l ss)
  | .loadVt t w ss => .loadVt t w (dropSlots l ss)
  | .value x ss => .value x (dropSlots l ss)
  | .due b ss => .due b (dropSlots l ss)

/-- Results on their way to a lane's own registers dropped, counted loads among them (log 13); those for the slot pair's extended set
stay (R139). -/
def Group.dropComing (g : Group) (l : Nat) : Group :=
  { g with
    pend := g.pend.filter fun p => decide (p.lane ≠ l) || p.dst.outlives
    acc := g.acc.map fun a => { a with op := a.op.dropLane l }
    counted := g.counted.map fun q => { q with dsts := q.dsts.filter fun e => decide (e.1 ≠ l) || e.2.outlives } }

/-- The state under R24 of a lane that runs no fibre; what was on its way to a helper that follows another fibre is dropped (log 13). -/
def Group.rehelpLane (g : Group) (l : Nat) : Group :=
  if g.isLive l then g
  else match g.quadLive l with
    | none => g.modLane l fun x => { x with mode := .free, hold := none }
    | some n => if (g.lane l).mode = .helper n then g else (g.dropComing l).modLane l fun x => x.follow (g.lane n) n

/-- Every lane's state under R24. -/
def Group.rehelp (g : Group) : Group := g.laneNos.foldl Group.rehelpLane g

/-- Every helper takes the program counter of the fibre it follows (R25). -/
def Group.syncHelpers (g : Group) : Group :=
  { g with lanes := g.lanes.map fun x =>
      match x.mode with
      | .helper n => { x with pc := (g.lane n).pc }
      | _ => x }

/-! ### The end of fibres (R29) -/

/-- A lane whose fibre has ended: divergence words and pending bits cleared, results on their way dropped (R29, R170, log 13). Its spill
stack is left empty, for a helper that may follow (log 13). -/
def Group.endLane (dd : Nat) (g : Group) (l : Nat) : Group :=
  (g.dropComing l).modLane l fun x =>
    (countFrom 1 dd).foldl (fun x k => x.setLevel k 0)
      { x with mode := .free, pending := 0, hold := none, ssp := 0, rc := 0 }

/-- The group record of R144. -/
def groupRecord (g : Group) : List Byte :=
  leBytes 4 g.key.block ++ leBytes 1 g.key.group ++ leBytes 1 (dfld g.gsr 0 2) ++ leBytes 2 0 ++
  leBytes 8 (cellGet g.q 3).toNat ++ (countFrom 0 16).flatMap fun k => leBytes 8 (cellGet g.stall k).toNat

/-- A block all of whose groups have ended: its resources are free (R297, R299). -/
def endBlock (tag index : Nat) : Part := fun s =>
  match s.dev.block? tag index, s.dev.launch? tag with
  | some b, some l =>
    let gs := s.dev.groups.filter fun g => decide (g.key.launch = tag) && decide (g.key.block = index)
    if b.residency = .ended ∨ gs.any (fun g => decide (g.run ≠ .ended)) then []
    else
      let die := match b.cluster with | some c => c.1 | none => 0
      Part.seq [
        Part.mod (fun d => (d.setBlock { b with residency := .ended, cluster := none }).modLaunch tag fun l => { l with ended := l.ended + 1 }),
        traceRec l.job die 4 index l.id.toNat] s
  | _, _ => []

/-- A group ends (R29, R133, R141, R144, R190). -/
def endGroup (k : GKey) : Part := fun s =>
  match s.dev.group? k, s.dev.launch? k.launch with
  | some g, some l =>
    Part.seq [
      Part.mod (fun d => (d.dropX g false).setGroup { g with run := .ended, latches := [] }),
      profEntry l.job l.id 1 (groupRecord g),
      endBlock k.launch k.block] s
  | _, _ => []

/-- Fibres of a group end (R29): arrivals may complete, helpers change, and the group ends with its last fibre. -/
def endFibres (k : GKey) (ls : List Nat) : Part := fun s =>
  match s.dev.group? k, s.dev.launch? k.launch with
  | some g, some l =>
    let g1 := (ls.foldl (Group.endLane l.divDepth) g).rehelp
    let d1 := s.dev.setGroup g1
    if g1.liveLanes.isEmpty then Part.andThen (fun _ => [.dev d1]) (endGroup k) s
    else [.dev ((countFrom 0 18).foldl (fun d n => d.tryComplete k n) d1)]
  | _, _ => []

/-- An ending word (R29): it holds its batch until every counted load has completed; then a deferred fault is raised, or the
fibres end. -/
def endingWord (c : Issue) (i : Instr) (ls : List Nat) : Part := fun s =>
  match s.dev.group? c.g with
  | none => []
  | some g =>
    if g.counted.all g.complete && g.storesDone c then
      match firstDeferred g.deferred with
      | some x => raiseDeferred c x s
      | none => endFibres c.g ls s
    else if c.resume.isSome then []
    else holdLanes c i c.lanes .retry 4 .none s

/-! ### Creation (R27, R100) -/

/-- The lane that takes a new fibre: the lowest that is free or helper. -/
def Group.spawnLane (g : Group) : Option Nat := g.laneNos.find? fun l => !g.isLive l

/-- A new fibre in a lane, from its parent as it stood before the spawn issued (R27, R171); what was on its way to the lane is dropped
(log 13). -/
def Group.spawn (g : Group) (k : Nat) (parent now : Lane) (pc : Pc) : Group :=
  let g1 := (g.dropComing k).modLane k fun x =>
    { Lane.empty with
      mode := .live
      pc := pc
      pw := parent.pw
      v := parent.v.filter fun e => decide (e.1 < 16)
      pending := now.pending
      lastPage := x.lastPage }
  g1.rehelp

end Sys2Proof.Machine
end

