-- ==== Sys2Proof/Machine/Control.lean ====
section
/-!
DEFINITION. The control words: opcodes 0x00 to 0x07 (R94 to R105). The batch's lanes stand after the word when a meaning runs; a
meaning that branches, holds or faults puts their program counters where they belong.
-/

namespace Sys2Proof.Machine

/-! ### Opcode 0x00 (R94) -/

/-- `nop` (R94). -/
def execNop (s : State) : Host.Outcome State Fault Refusal := commit s (word .nop (fun _ _ _ _ => []) s)

/-- Whether the batch has a live lane with a true guard. -/
def hasLeader (g : Group) (c : Issue) : Bool := (g.leader c.on).isSome

/-- A `brk` word whose stop bit is clear: ILLEGAL_OPCODE, reason 4, before every check of operands (R53, R94). -/
def brkUnstopped (s : State) : Option Issue := s.dev.cur.filter fun c => !c.stop

/-- `brk` (R94). -/
def execBrk (k : BitVec 17) (s : State) : Host.Outcome State Fault Refusal :=
  match brkUnstopped s with
  | some c => commit s (raise c { code := .illegalOpcode, cause := checkCause (pcSlot c.loc) 0 4 } s)
  | none => commit s (word (.brk k) (fun c g _ s =>
      if hasLeader g c then
        Part.seq [raise c { code := .brk, cause := k.toNat }, Part.mod (fun d => d.modGroup c.g fun g => { g with pastBrk := some c.loc })] s
      else []) s)

/-- `trap` (R94). -/
def execTrap (k : BitVec 17) (s : State) : Host.Outcome State Fault Refusal :=
  commit s (word (.trap k) (fun c g _ s =>
    if hasLeader g c then raise c { code := .trap, cause := k.toNat } s else []) s)

/-! ### Branches (R95 to R98) -/

/-- The program counters of lanes set. -/
def setPcs (k : GKey) (ls : List Nat) (f : Nat → Pc) : Part := fun s =>
  if ls.isEmpty then [] else [.dev (s.dev.modGroup k fun g => g.modLanes ls fun l x => { x with pc := f l })]

/-- `br` (R95). -/
def execBr (p : Reg) (o : BitVec 17) (s : State) : Host.Outcome State Fault Refusal :=
  commit s (word (.br p o) (fun c g _ =>
    setPcs c.g (c.on.filter fun l => (g.lane l).predF p.toNat) fun _ => pcBranch c.loc o) s)

/-- `s.br` (R96). -/
def execSBr (p : Reg) (o : BitVec 17) (s : State) : Host.Outcome State Fault Refusal :=
  commit s (word (.sBr p o) (fun c g _ =>
    match g.leader c.on with
    | none => Part.none
    | some ld => if (g.lane ld).predF p.toNat then setPcs c.g c.on fun _ => pcBranch c.loc o else Part.none) s)

/-- `br.rot` (R97). -/
def execBrRot (p : Reg) (o : BitVec 17) (s : State) : Host.Outcome State Fault Refusal :=
  commit s (word (.brRot p o) (fun c g _ =>
    Part.seq [
      Part.mod (fun d => d.modGroup c.g fun g => g.modLanes c.on fun _ x => { x with wb := x.wb - 1 }),
      setPcs c.g (c.on.filter fun l => (g.lane l).predF p.toNat) fun _ => pcBranch c.loc o]) s)

/-- `brx` (R98). -/
def execBrx (a : Reg) (s : State) : Host.Outcome State Fault Refusal :=
  commit s (word (.brx a) (fun c g la s =>
    setPcs c.g c.on (fun l => pcOfIndex la.image (srcV s.dev g c l a.toNat).toNat) s) s)

/-- A call (R30, R98): the location after the word is pushed, and the lanes go to their targets; a helper's push that would overflow
is left out. -/
def callWord (i : Instr) (target : State → Issue → Group → Launch → Nat → Pc) (s : State) : List Act :=
  word i (fun c g la s =>
    match spillFault g la c.on false with
    | some f => raise c f s
    | none =>
      Part.seq [
        Part.each (c.on.filter (spillOk g la false)) (fun l => pushEntry c.g l (pcNext c.loc).toNat),
        setPcs c.g c.on (target s c g la)] s) s

/-- `call` (R98). -/
def execCall (o : BitVec 17) (s : State) : Host.Outcome State Fault Refusal :=
  commit s (callWord (.call o) (fun _ c _ _ _ => pcBranch c.loc o) s)

/-- `callx` (R98). -/
def execCallx (a : Reg) (s : State) : Host.Outcome State Fault Refusal :=
  commit s (callWord (.callx a) (fun s c g la l => pcOfIndex la.image (srcV s.dev g c l a.toNat).toNat) s)

/-- The check of a return entry: bits 63:57 and 3:2 are 0 and the slot is not 3 (R98). -/
def entryOk (x : Nat) : Bool := decide (x / 2 ^ 57 = 0) && decide (x / 4 % 4 = 0) && decide (x % 4 ≠ 3)

/-- Whether a lane's pop of a return entry waits (R156). A helper's waits with its fibre's, and not otherwise (R25). -/
def retWaits (g : Group) (ok : List Nat) (l : Nat) : Bool :=
  match (g.lane l).mode with
  | .helper n => ok.contains n && g.isLive n && (g.lane n).rc == 0
  | _ => (g.lane l).rc == 0

/-- `ret` (R30, R98). A pop that finds no entry in the stack cache waits for it (R156). -/
def execRet (s : State) : Host.Outcome State Fault Refusal :=
  commit s (wordWith .ret
    (fun s c g _ => causeIf 0 ((c.on.filter g.isLive).any fun l =>
      decide ((g.lane l).ssp ≠ 0) && !entryOk (s.topEntry c.g (g.lane l) l)))
    (fun c g _ s =>
    let entry (l : Nat) : Nat := s.topEntry c.g (g.lane l) l
    let some? (l : Nat) : Bool := decide ((g.lane l).ssp ≠ 0)
    match (c.on.filter g.isLive).find? fun l => !some? l with
      | some l => raise c { code := .stackOverflow, faddr := 0, cause := accessCause l .stk 3 true } s
      | none =>
        let ok := c.on.filter fun l => some? l && entryOk (entry l)
        let now := ok.filter fun l => c.resume.isSome || !retWaits g ok l
        let miss := (ok.filter g.isLive).filter fun l => !now.contains l
        Part.seq [
          Part.mod (fun d => d.modGroup c.g fun g => g.modLanes now fun l x =>
            { x.popped with hold := none, pc := BitVec.ofNat 57 (entry l) }),
          (if miss.isEmpty then Part.none else holdLanes c .ret miss .retEntry 0 .none)] s) s)

/-! ### Fibres (R99, R100) -/

/-- `exit` (R29, R99). -/
def execExit (s : State) : Host.Outcome State Fault Refusal :=
  commit s (word .exit (fun c g _ =>
    if hasLeader g c then endingWord c .exit g.liveLanes else Part.none) s)

/-- `fib.end` (R29, R99): the word that ends the group's last fibre is an ending word. -/
def execFibEnd (s : State) : Host.Outcome State Fault Refusal :=
  commit s (word .fibEnd (fun c g _ =>
    let ls := c.on.filter g.isLive
    if ls.isEmpty then Part.none
    else if g.liveLanes.all ls.contains then endingWord c .fibEnd ls
    else Part.seq [
      (if c.resume.isSome then releaseLanes c.g c.lanes (pcNext c.loc) else Part.none),
      endFibres c.g ls]) s)

/-- One lane's spawn (R100): its lane index and predicate are results. A helper lane that this word has already given to a child
writes nothing. -/
def spawnLane (c : Issue) (old : Group) (la : Launch) (d b : Nat) (target : Nat → Nat) (l : Nat) : Part := fun s =>
  match s.dev.group? c.g with
  | none => []
  | some g =>
    if old.isLive l = false ∧ g.isLive l then [] else
    match (if g.isLive l then g.spawnLane else none) with
    | some k =>
      [.dev ((s.dev.setGroup (g.spawn k (old.lane l) (g.lane l) (pcOfIndex la.image (target l)))).retire c.g 3
        (outRun old l d 1 k ++ outPred l b true))]
    | none => [.dev (s.dev.retire c.g 3 (outRun old l d 1 (2 ^ 32 - 1) ++ outPred l b false))]

/-- `fib.spawn` (R27, R100). -/
def execFibSpawn (d : Reg) (a : Reg) (b : Reg) (s : State) : Host.Outcome State Fault Refusal :=
  commit s (wordWith (.fibSpawn d a b)
    (fun s c g la => causeIf 2 ((c.on.filter g.isLive).any fun l => !la.hasIndex (srcV s.dev g c l a.toNat).toNat))
    (fun c g la s => Part.each c.on (spawnLane c g la d.toNat b.toNat fun l => (srcV s.dev g c l a.toNat).toNat) s) s)

/-! ### Divergence (R101, R102) -/

/-- LEAD of an entry (R31). -/
def leadOf (g : Group) (on : List Nat) : Nat :=
  match g.leader on with
  | some l => l
  | none => on.headD 0

/-- The packet index of a join: that of the word and an offset (R101). -/
def joinIndex (c : Issue) (la : Launch) (o : BitVec 17) : Int := (pcIndex la.image c.loc : Int) + o.toInt

/-- `div.push` (R101): it faults in every active lane with a true guard whose depth is D, a helper lane among them (log 57). -/
def execDivPush (o : BitVec 17) (s : State) : Host.Outcome State Fault Refusal :=
  commit s (wordWith (.divPush o)
    (fun _ c _ la =>
      let j := joinIndex c la o
      causeIf 3 (decide (j < 0 ∨ la.hasIndex j.toNat = false ∨ 2 ^ 24 ≤ j)))
    (fun c g la s =>
    if c.on.any fun l => (g.lane l).depth la.divDepth == la.divDepth then
      raise c { code := .divDepth, cause := pcSlot c.loc } s
    else
      let w := 2 ^ 31 + leadOf g c.on * 2 ^ 24 + (joinIndex c la o).toNat
      [.dev (s.dev.modGroup c.g fun g => g.modLanes c.on fun _ x => x.setLevel (x.depth la.divDepth + 1) w)]) s)

/-- The live fibres whose level-k word is that of a waiting lane at its top level k, where each of them waits at the same join (R33). -/
def joinSet (g : Group) (dd : Nat) (loc : Pc) (l : Nat) : List Nat :=
  let k := (g.lane l).depth dd
  let same := g.liveLanes.filter fun m => decide ((g.lane m).level k = (g.lane l).level k)
  let waits (m : Nat) : Bool :=
    decide ((g.lane m).pc = loc) && match (g.lane m).hold with | some h => decide (h.kind = .join) | none => false
  if same.all waits then same else []

/-- The fibres that a join releases with a waiting lane: those of its set that wait at its level (R33). -/
def joinFree (g : Group) (dd : Nat) (loc : Pc) (l : Nat) : List Nat :=
  (joinSet g dd loc l).filter fun m => decide ((g.lane m).depth dd = (g.lane l).depth dd)

/-- A lane after its fibre's release from level `k`, whose word was `w`; a helper that waits with the fibre is released with it, and clears its
own copy (R33, R102, log 57). -/
def Lane.leaveJoin (x : Lane) (k w : Nat) (pc : Pc) : Lane :=
  { (if x.level k = w then x.setLevel k 0 else x) with hold := none, pc := pc }

/-- Waiting fibres whose join is complete continue as one batch, their words cleared (R33). -/
def releaseJoins (c : Issue) (dd : Nat) (ls : List Nat) : Part := fun s =>
  match s.dev.group? c.g with
  | none => []
  | some g =>
    let all := (ls.flatMap (joinFree g dd c.loc)).eraseDups
    if all.isEmpty then []
    else
      let k (m : Nat) : Nat := (g.lane m).depth dd
      [.dev (s.dev.setGroup (all.foldl (fun x m =>
        x.modLanes (x.withHelpers [m]) fun _ y => y.leaveJoin (k m) ((g.lane m).level (k m)) (pcNext c.loc)) g))]

/-- `div.join` (R33, R102). -/
def execDivJoin (s : State) : Host.Outcome State Fault Refusal :=
  commit s (wordWith .divJoin
    (fun _ c g la =>
      let top (l : Nat) : Nat := (g.lane l).level ((g.lane l).depth la.divDepth)
      causeIf 0 (c.resume.isNone && (c.on.filter g.isLive).any fun l =>
        decide (0 < (g.lane l).depth la.divDepth) && decide (top l % 2 ^ 24 ≠ pcIndex la.image c.loc)))
    (fun c g la s =>
    let q := c.on.filter g.isLive
    if q.isEmpty then []
    else if c.resume.isSome then releaseJoins c la.divDepth q s
    else if q.any fun l => (g.lane l).depth la.divDepth == 0 then
      raise c { code := .divDepth, cause := pcSlot c.loc } s
    else Part.seq [holdLanes c .divJoin q .join 13 (.bar 0xFF 0), releaseJoins c la.divDepth q] s) s)

/-! ### Waiting and yielding (R103) -/

/-- `wait` (R103): each lane holds until its own time. -/
def execWait (a : Reg) (s : State) : Host.Outcome State Fault Refusal :=
  commit s (word (.wait a) (fun c g _ s =>
    let q := c.on.filter g.isLive
    let ns (l : Nat) : Nat := (srcV s.dev g c l a.toNat).toNat % 2 ^ 24
    Part.each (q.filter fun l => decide (ns l ≠ 0)) (fun l =>
      holdLanes c (.wait a) [l] (.wait (s.dev.time + ns l)) 1 .none) s) s)

/-- `wait.addr` (R103): the lanes wait on their granules; an address faults as a read of one byte. -/
def waitAddrWord (i : Instr) (a : Reg) (imm : BitVec 10) (pad : Bool) (s : State) : List Act :=
  word i (fun c g l s =>
    let addr (m : Nat) : Nat := offAddr (srcV s.dev g c m a.toNat) imm 1
    match accessLanes s.dev g l (s.dev.jobOf l) (pcSlot c.loc) (c.on.filter g.isLive) pad addr 1 1 0 .watch with
    | .error f => raise c f s
    | .ok xs =>
      Part.each xs (fun x =>
        holdLanes c i [x.lane]
          (.waitAddr pad (match x.store with | .pad => 0 | .blk _ b => b) (x.off / 32) (s.dev.time + 4000)) 1 .none) s) s

/-- `wait.addr.blk` (R103). -/
def execWaitAddrBlk (a : Reg) (i : BitVec 10) (s : State) : Host.Outcome State Fault Refusal :=
  commit s (waitAddrWord (.waitAddrBlk a i) a i false s)

/-- `wait.addr.pad` (R103). -/
def execWaitAddrPad (a : Reg) (i : BitVec 10) (s : State) : Host.Outcome State Fault Refusal :=
  commit s (waitAddrWord (.waitAddrPad a i) a i true s)

/-- A group that yields no longer. -/
def Group.endYield (g : Group) : Group := { g with yieldUntil := none, yieldSlots := [] }

/-- `yield` (R103, R138): the group is least favoured until each other ready group has issued, or for 64 die cycles. -/
def execYield (s : State) : Host.Outcome State Fault Refusal :=
  commit s (word .yield (fun c g _ s =>
    if hasLeader g c then
      [.dev (s.dev.setGroup { g with yieldUntil := some (s.dev.now g + 64), yieldSlots := [] })]
    else []) s)

/-! ### System registers (R104, R105) -/

/-- Sticky bits on their way to GSR. -/
def Group.flagsComing (g : Group) : Nat :=
  (g.pend.filter fun p => decide (p.dst = .fpf)).foldl (fun a p => a ||| p.val.toNat % 128) 0

/-- GSR as a read finds it: of the sticky bits on their way, a free choice is seen (R107). -/
def gsrSeen (d : Dev) (g : Group) : Nat :=
  (orSticky g.gsr (g.flagsComing &&& (Config.freeWord d.free).toNat)).toNat

/-- The value of a system register in a lane (R104). -/
def sysValue (d : Dev) (g : Group) (la : Launch) (l k : Nat) : Nat :=
  match k with
  | 0x00 => l
  | 0x01 => g.key.group
  | 0x02 => g.key.block
  | 0x03 => la.nblocks
  | 0x04 => la.groups
  | 0x05 => la.posOf g.key.block + 4 * (la.gang - 1)
  | 0x06 => g.liveLanes.length
  | 0x08 => la.param % 2 ^ 32
  | 0x09 => la.param / 2 ^ 32 % 2 ^ 25
  | 0x0A => g.key.block % la.gx
  | 0x0B => g.key.block / la.gx % la.gy
  | 0x0C => g.key.block / (la.gx * la.gy)
  | 0x0E => la.image % 2 ^ 32
  | 0x0F => la.image / 2 ^ 32 % 2 ^ 25
  | 0x10 => gsrSeen d g
  | 0x18 => g.mxs.toNat
  | 0x20 => (g.lane l).wb.toNat
  | 0x21 => (g.lane l).ssp.toNat
  | 0x22 => (g.lane l).depth la.divDepth
  | _ => 0

/-- `sys.rd` (R104). -/
def execSysRd (d : Reg) (k : BitVec 8) (s : State) : Host.Outcome State Fault Refusal :=
  commit s (word (.sysRd d k) (fun c g la s =>
    Part.seq [
      retire c.g 3 (c.on.flatMap fun l => outRun g l d.toNat (sysRegs k) (sysValue s.dev g la l k.toNat)),
      (if k = 0x10 ∧ g.flagsComing ≠ 0 then Part.mod (fun d => { d with free := d.free + 1 }) else Part.none)] s) s)

/-- Whether a value may be written to GSR: RM at most 4, RHO no NaN and of magnitude at most 1 (R34). -/
def gsrOk (v : Nat) : Bool := decide (bits v 4 3 ≤ 4) && decide (bits v 16 15 ≤ 0x3C00)

/-- GSR after a write: RW fields taken, RW1C bits cleared but for those that landed in the same die cycle (R34). -/
def gsrWrite (g : Group) (now v : Nat) : Dword :=
  let rw : Dword := 0xFFFF03FC
  let val : Dword := BitVec.ofNat 64 v
  let kept : Nat := if g.flagCycle = now then g.flagBits % 128 else 0
  let clr : Dword := (val &&& 0x007F000000000000) &&& ~~~ BitVec.ofNat 64 (kept * 2 ^ 48)
  (g.gsr &&& ~~~ rw &&& ~~~ clr) ||| (val &&& rw)

/-- `sys.wr` (R105). -/
def execSysWr (a : Reg) (k : BitVec 8) (s : State) : Host.Outcome State Fault Refusal :=
  commit s (wordWith (.sysWr a k)
    (fun s c g _ => causeIf 2 (decide (k = 0x10) && (g.leader c.on).any fun ld => !gsrOk (srcV64 s.dev g c ld a.toNat)))
    (fun c g _ s =>
    if k = 0x20 then
      [.dev (s.dev.modGroup c.g fun g' => g'.modLanes c.on fun l x => { x with wb := (srcV s.dev g c l a.toNat).setWidth 5 })]
    else match g.leader c.on with
      | none => []
      | some ld =>
        if k = 0x10 then
          [.dev (s.dev.setGroup { g with gsr := gsrWrite g (s.dev.now g) (srcV64 s.dev g c ld a.toNat) })]
        else [.dev (s.dev.setGroup { g with mxs := srcV s.dev g c ld a.toNat &&& 0x1FF })]) s)

end Sys2Proof.Machine
end

