-- ==== Sys2Proof/Machine/Fpu.lean ====
section
/-!
DEFINITION. The FPU and the SFU: opcodes 0x18 to 0x1F (R106 to R121). Each element of a result is rounded once.
-/

namespace Sys2Proof.Machine

/-- The format and the number of elements of a type (R106). -/
def fpFmt : FpTy → FpFmt
  | .f32 => fmtF32
  | .f16x2 => fmtF16
  | .bf16x2 => fmtBf16
def fpElts : FpTy → Nat
  | .f32 => 1
  | _ => 2

/-- Element `j` of a register (R106). -/
def elt (f : FpFmt) (w : Word) (j : Nat) : Nat := w.toNat / 2 ^ (f.width * j) % 2 ^ f.width

/-- Results of elements, of a width, side by side. -/
def joinElts (w : Nat) : List Res → Nat × Flags
  | [] => (0, {})
  | r :: rs =>
    let t := joinElts w rs
    (r.bits % 2 ^ w + 2 ^ w * t.1, r.fl.join t.2)

/-- An operation on each element of a type. -/
def eltwise (t : FpTy) (f : Nat → Res) : Nat × Flags := joinElts (fpFmt t).width ((countFrom 0 (fpElts t)).map f)

/-- `fadd.f32` (R110). -/
def execFaddF32 (sc : Bool) (d : Reg) (a : Reg) (b : Reg) (s : State) : Host.Outcome State Fault Refusal :=
  commit s (fpWord (.faddF32 sc d a b) sc d 1 (fun m r => eltwise .f32 fun j => fpAdd (fpFmt .f32) m false (elt (fpFmt .f32) (r a.toNat) j) (elt (fpFmt .f32) (r b.toNat) j)) s)

/-- `fadd.f16x2` (R110). -/
def execFaddF16x2 (sc : Bool) (d : Reg) (a : Reg) (b : Reg) (s : State) : Host.Outcome State Fault Refusal :=
  commit s (fpWord (.faddF16x2 sc d a b) sc d 1 (fun m r => eltwise .f16x2 fun j => fpAdd (fpFmt .f16x2) m false (elt (fpFmt .f16x2) (r a.toNat) j) (elt (fpFmt .f16x2) (r b.toNat) j)) s)

/-- `fadd.bf16x2` (R110). -/
def execFaddBf16x2 (sc : Bool) (d : Reg) (a : Reg) (b : Reg) (s : State) : Host.Outcome State Fault Refusal :=
  commit s (fpWord (.faddBf16x2 sc d a b) sc d 1 (fun m r => eltwise .bf16x2 fun j => fpAdd (fpFmt .bf16x2) m false (elt (fpFmt .bf16x2) (r a.toNat) j) (elt (fpFmt .bf16x2) (r b.toNat) j)) s)

/-- `fadd.sat.f32` (R110). -/
def execFaddSatF32 (sc : Bool) (d : Reg) (a : Reg) (b : Reg) (s : State) : Host.Outcome State Fault Refusal :=
  commit s (fpWord (.faddSatF32 sc d a b) sc d 1 (fun m r => eltwise .f32 fun j => fpAdd fmtF32 m true (elt (fpFmt .f32) (r a.toNat) j) (elt (fpFmt .f32) (r b.toNat) j)) s)

/-- `fsub.f32` (R110). -/
def execFsubF32 (sc : Bool) (d : Reg) (a : Reg) (b : Reg) (s : State) : Host.Outcome State Fault Refusal :=
  commit s (fpWord (.fsubF32 sc d a b) sc d 1 (fun m r => eltwise .f32 fun j => fpSub (fpFmt .f32) m false (elt (fpFmt .f32) (r a.toNat) j) (elt (fpFmt .f32) (r b.toNat) j)) s)

/-- `fsub.f16x2` (R110). -/
def execFsubF16x2 (sc : Bool) (d : Reg) (a : Reg) (b : Reg) (s : State) : Host.Outcome State Fault Refusal :=
  commit s (fpWord (.fsubF16x2 sc d a b) sc d 1 (fun m r => eltwise .f16x2 fun j => fpSub (fpFmt .f16x2) m false (elt (fpFmt .f16x2) (r a.toNat) j) (elt (fpFmt .f16x2) (r b.toNat) j)) s)

/-- `fsub.bf16x2` (R110). -/
def execFsubBf16x2 (sc : Bool) (d : Reg) (a : Reg) (b : Reg) (s : State) : Host.Outcome State Fault Refusal :=
  commit s (fpWord (.fsubBf16x2 sc d a b) sc d 1 (fun m r => eltwise .bf16x2 fun j => fpSub (fpFmt .bf16x2) m false (elt (fpFmt .bf16x2) (r a.toNat) j) (elt (fpFmt .bf16x2) (r b.toNat) j)) s)

/-- `fsub.sat.f32` (R110). -/
def execFsubSatF32 (sc : Bool) (d : Reg) (a : Reg) (b : Reg) (s : State) : Host.Outcome State Fault Refusal :=
  commit s (fpWord (.fsubSatF32 sc d a b) sc d 1 (fun m r => eltwise .f32 fun j => fpSub fmtF32 m true (elt (fpFmt .f32) (r a.toNat) j) (elt (fpFmt .f32) (r b.toNat) j)) s)

/-- `fmul.f32` (R110); `t` is `.sat`. -/
def execFmulF32 (sc : Bool) (d : Reg) (a : Reg) (b : Reg) (t : Bool) (s : State) : Host.Outcome State Fault Refusal :=
  commit s (fpWord (.fmulF32 sc d a b t) sc d 1 (fun m r => eltwise .f32 fun j => fpMul (fpFmt .f32) m t (elt (fpFmt .f32) (r a.toNat) j) (elt (fpFmt .f32) (r b.toNat) j)) s)

/-- `fmul.f16x2` (R110); `t` is `.sat`. -/
def execFmulF16x2 (sc : Bool) (d : Reg) (a : Reg) (b : Reg) (t : Bool) (s : State) : Host.Outcome State Fault Refusal :=
  commit s (fpWord (.fmulF16x2 sc d a b t) sc d 1 (fun m r => eltwise .f16x2 fun j => fpMul (fpFmt .f16x2) m t (elt (fpFmt .f16x2) (r a.toNat) j) (elt (fpFmt .f16x2) (r b.toNat) j)) s)

/-- `fmul.bf16x2` (R110); `t` is `.sat`. -/
def execFmulBf16x2 (sc : Bool) (d : Reg) (a : Reg) (b : Reg) (t : Bool) (s : State) : Host.Outcome State Fault Refusal :=
  commit s (fpWord (.fmulBf16x2 sc d a b t) sc d 1 (fun m r => eltwise .bf16x2 fun j => fpMul (fpFmt .bf16x2) m t (elt (fpFmt .bf16x2) (r a.toNat) j) (elt (fpFmt .bf16x2) (r b.toNat) j)) s)

/-- `ffma.f32` (R110); `t` is `.sat`. -/
def execFfmaF32 (sc : Bool) (d : Reg) (a : Reg) (b : Reg) (t : Bool) (s : State) : Host.Outcome State Fault Refusal :=
  commit s (fpWord (.ffmaF32 sc d a b t) sc d 1 (fun m r => eltwise .f32 fun j => fpFma (fpFmt .f32) m t (elt (fpFmt .f32) (r a.toNat) j) (elt (fpFmt .f32) (r b.toNat) j) (elt (fpFmt .f32) (r d.toNat) j)) s)

/-- `ffma.f16x2` (R110); `t` is `.sat`. -/
def execFfmaF16x2 (sc : Bool) (d : Reg) (a : Reg) (b : Reg) (t : Bool) (s : State) : Host.Outcome State Fault Refusal :=
  commit s (fpWord (.ffmaF16x2 sc d a b t) sc d 1 (fun m r => eltwise .f16x2 fun j => fpFma (fpFmt .f16x2) m t (elt (fpFmt .f16x2) (r a.toNat) j) (elt (fpFmt .f16x2) (r b.toNat) j) (elt (fpFmt .f16x2) (r d.toNat) j)) s)

/-- `ffma.bf16x2` (R110); `t` is `.sat`. -/
def execFfmaBf16x2 (sc : Bool) (d : Reg) (a : Reg) (b : Reg) (t : Bool) (s : State) : Host.Outcome State Fault Refusal :=
  commit s (fpWord (.ffmaBf16x2 sc d a b t) sc d 1 (fun m r => eltwise .bf16x2 fun j => fpFma (fpFmt .bf16x2) m t (elt (fpFmt .bf16x2) (r a.toNat) j) (elt (fpFmt .bf16x2) (r b.toNat) j) (elt (fpFmt .bf16x2) (r d.toNat) j)) s)

/-- `fmin` (R111). -/
def execFmin (sc : Bool) (d : Reg) (a : Reg) (b : Reg) (t : FpTy) (s : State) : Host.Outcome State Fault Refusal :=
  commit s (fpWord (.fmin sc d a b t) sc d 1 (fun _ r => eltwise t fun j => ⟨fpMinMax (fpFmt t) false (elt (fpFmt t) (r a.toNat) j) (elt (fpFmt t) (r b.toNat) j), {}⟩) s)

/-- `fmax` (R111). -/
def execFmax (sc : Bool) (d : Reg) (a : Reg) (b : Reg) (t : FpTy) (s : State) : Host.Outcome State Fault Refusal :=
  commit s (fpWord (.fmax sc d a b t) sc d 1 (fun _ r => eltwise t fun j => ⟨fpMinMax (fpFmt t) true (elt (fpFmt t) (r a.toNat) j) (elt (fpFmt t) (r b.toNat) j), {}⟩) s)

/-- `fclass` (R113). -/
def execFclass (sc : Bool) (d : Reg) (a : Reg) (s : State) : Host.Outcome State Fault Refusal :=
  commit s (fpWord (.fclass sc d a) sc d 1 (fun _ r => (fpClass (r a.toNat).toNat, {})) s)

/-- The result of `fcmp` and whether it raises invalid (R112). -/
def fcondEval (k : FCond) (a b : Word) : Bool × Bool :=
  let x := f32 a.toNat
  let y := f32 b.toNat
  let un := x.isNan || y.isNan
  match k with
  | .eq => (valEq x y, false)
  | .lt => (valLt x y, un)
  | .le => (valLt x y || valEq x y, un)
  | .un => (un, false)
  | .neu => (!valEq x y, false)

/-- `fcmp` (R112). -/
def execFcmp (sc : Bool) (d : Reg) (a : Reg) (b : Reg) (k : FCond) (s : State) : Host.Outcome State Fault Refusal :=
  commit s (word (.fcmp sc d a b k) (fun c g _ s =>
    let ev (l : Nat) : Bool × Bool := fcondEval k (srcV s.dev g c l a.toNat) (srcV s.dev g c l b.toNat)
    retire c.g (Instr.fcmp sc d a b k).latency ((c.on.flatMap fun l =>
      match sourceLane g c sc l with
      | some m => outPred l d.toNat (ev m).1
      | none => []) ++
      outFlags (joinBits ((flagLanes g c sc).map fun l => if (ev l).2 then Flags.invalid else {}))) s) s)

/-- `rcp` (R74, R75, R114). -/
def execRcp (sc : Bool) (d : Reg) (a : Reg) (t : FpTy) (s : State) : Host.Outcome State Fault Refusal :=
  commit s (fpWord (.rcp sc d a t) sc d 1 (fun m r => eltwise t fun j => sfu (fpFmt t) m .rcp (elt (fpFmt t) (r a.toNat) j)) s)

/-- `rsq` (R74, R75, R114). -/
def execRsq (sc : Bool) (d : Reg) (a : Reg) (t : FpTy) (s : State) : Host.Outcome State Fault Refusal :=
  commit s (fpWord (.rsq sc d a t) sc d 1 (fun m r => eltwise t fun j => sfu (fpFmt t) m .rsq (elt (fpFmt t) (r a.toNat) j)) s)

/-- `sqrt` (R74, R75, R114). -/
def execSqrt (sc : Bool) (d : Reg) (a : Reg) (t : FpTy) (s : State) : Host.Outcome State Fault Refusal :=
  commit s (fpWord (.sqrt sc d a t) sc d 1 (fun m r => eltwise t fun j => sfu (fpFmt t) m .sqrt (elt (fpFmt t) (r a.toNat) j)) s)

/-- `exp2` (R74, R75, R114). -/
def execExp2 (sc : Bool) (d : Reg) (a : Reg) (t : FpTy) (s : State) : Host.Outcome State Fault Refusal :=
  commit s (fpWord (.exp2 sc d a t) sc d 1 (fun m r => eltwise t fun j => sfu (fpFmt t) m .exp2 (elt (fpFmt t) (r a.toNat) j)) s)

/-- `log2` (R74, R75, R114). -/
def execLog2 (sc : Bool) (d : Reg) (a : Reg) (t : FpTy) (s : State) : Host.Outcome State Fault Refusal :=
  commit s (fpWord (.log2 sc d a t) sc d 1 (fun m r => eltwise t fun j => sfu (fpFmt t) m .log2 (elt (fpFmt t) (r a.toNat) j)) s)

/-- `sin` (R74, R75, R114). -/
def execSin (sc : Bool) (d : Reg) (a : Reg) (t : FpTy) (s : State) : Host.Outcome State Fault Refusal :=
  commit s (fpWord (.sin sc d a t) sc d 1 (fun m r => eltwise t fun j => sfu (fpFmt t) m .sin (elt (fpFmt t) (r a.toNat) j)) s)

/-- `cos` (R74, R75, R114). -/
def execCos (sc : Bool) (d : Reg) (a : Reg) (t : FpTy) (s : State) : Host.Outcome State Fault Refusal :=
  commit s (fpWord (.cos sc d a t) sc d 1 (fun m r => eltwise t fun j => sfu (fpFmt t) m .cos (elt (fpFmt t) (r a.toNat) j)) s)

/-- `tanh` (R74, R75, R114). -/
def execTanh (sc : Bool) (d : Reg) (a : Reg) (t : FpTy) (s : State) : Host.Outcome State Fault Refusal :=
  commit s (fpWord (.tanh sc d a t) sc d 1 (fun m r => eltwise t fun j => sfu (fpFmt t) m .tanh (elt (fpFmt t) (r a.toNat) j)) s)

/-- `erf` (R74, R75, R114). -/
def execErf (sc : Bool) (d : Reg) (a : Reg) (t : FpTy) (s : State) : Host.Outcome State Fault Refusal :=
  commit s (fpWord (.erf sc d a t) sc d 1 (fun m r => eltwise t fun j => sfu (fpFmt t) m .erf (elt (fpFmt t) (r a.toNat) j)) s)

/-- `ncdf` (R74, R75, R114). -/
def execNcdf (sc : Bool) (d : Reg) (a : Reg) (t : FpTy) (s : State) : Host.Outcome State Fault Refusal :=
  commit s (fpWord (.ncdf sc d a t) sc d 1 (fun m r => eltwise t fun j => sfu (fpFmt t) m .ncdf (elt (fpFmt t) (r a.toNat) j)) s)

/-- `npdf` (R74, R75, R114). -/
def execNpdf (sc : Bool) (d : Reg) (a : Reg) (t : FpTy) (s : State) : Host.Outcome State Fault Refusal :=
  commit s (fpWord (.npdf sc d a t) sc d 1 (fun m r => eltwise t fun j => sfu (fpFmt t) m .npdf (elt (fpFmt t) (r a.toNat) j)) s)

/-- The rounding mode of an RS code, and whether it saturates (R115). -/
def rsMode (r : Rs) (rm : Rm) : Rm × Bool :=
  match r with
  | .rn => (.rn, false)
  | .rz => (.rz, false)
  | .rd => (.rd, false)
  | .ru => (.ru, false)
  | .rna => (.rna, false)
  | .cur => (rm, false)
  | .rnSat => (.rn, true)
  | .sat => (rm, true)

/-- The elements of a run of registers converted and packed (R117). -/
def packRun (dst : Fmt) (n : Nat) (mode : Nat → Rm) (sat : Bool) (x : Nat → Word) : Nat × Flags :=
  joinElts (fmtWidth dst) ((countFrom 0 n).map fun j => convertElt .f32 dst (mode j) sat (x j).toNat)

/-- The narrow elements of a register converted to FP32 registers (R117). -/
def unpackRun (src : Fmt) (n : Nat) (w : Word) : Nat :=
  (joinElts 32 ((countFrom 0 n).map fun j => convertElt src .f32 .rn false (w.toNat / 2 ^ (fmtWidth src * j)))).1

/-- `pack.e4m3.f32` (R117). -/
def execPackE4m3F32 (sc : Bool) (d : Reg) (a : Reg) (r : Rs) (s : State) : Host.Outcome State Fault Refusal :=
  commit s (fpWord (.packE4m3F32 sc d a r) sc d 1 (fun m v => packRun .e4m3 4 (fun _ => (rsMode r m).1) (rsMode r m).2 fun j => v (a.toNat + j)) s)

/-- `pack.e5m2.f32` (R117). -/
def execPackE5m2F32 (sc : Bool) (d : Reg) (a : Reg) (r : Rs) (s : State) : Host.Outcome State Fault Refusal :=
  commit s (fpWord (.packE5m2F32 sc d a r) sc d 1 (fun m v => packRun .e5m2 4 (fun _ => (rsMode r m).1) (rsMode r m).2 fun j => v (a.toNat + j)) s)

/-- `pack.e2m1.f32` (R117). -/
def execPackE2m1F32 (sc : Bool) (d : Reg) (a : Reg) (r : Rs) (s : State) : Host.Outcome State Fault Refusal :=
  commit s (fpWord (.packE2m1F32 sc d a r) sc d 1 (fun m v => packRun .e2m1 8 (fun _ => (rsMode r m).1) (rsMode r m).2 fun j => v (a.toNat + j)) s)

/-- `unpack.f32.e4m3` (R117). -/
def execUnpackF32E4m3 (sc : Bool) (d : Reg) (a : Reg) (s : State) : Host.Outcome State Fault Refusal :=
  commit s (laneWord (.unpackF32E4m3 sc d a) sc d 4 (fun r => unpackRun .e4m3 4 (r a.toNat)) s)

/-- `unpack.f32.e5m2` (R117). -/
def execUnpackF32E5m2 (sc : Bool) (d : Reg) (a : Reg) (s : State) : Host.Outcome State Fault Refusal :=
  commit s (laneWord (.unpackF32E5m2 sc d a) sc d 4 (fun r => unpackRun .e5m2 4 (r a.toNat)) s)

/-- `unpack.f32.e2m1` (R117). -/
def execUnpackF32E2m1 (sc : Bool) (d : Reg) (a : Reg) (s : State) : Host.Outcome State Fault Refusal :=
  commit s (laneWord (.unpackF32E2m1 sc d a) sc d 8 (fun r => unpackRun .e2m1 8 (r a.toNat)) s)

/-- `cvt` (R116). -/
def execCvt (sc : Bool) (d : Reg) (a : Reg) (v : CvtPair) (r : Rs) (s : State) : Host.Outcome State Fault Refusal :=
  commit s (fpWord (.cvt sc d a v r) sc d 1 (fun m w => (fun x => (x.bits, x.fl)) (convertElt v.src v.dst (rsMode r m).1 (rsMode r m).2 (w a.toNat).toNat)) s)

/-- The draw of a lane of the issuing group (R77). -/
def laneDraw (la : Launch) (c : Issue) (st : Stream) (ctr : Word) (l : Nat) : Quad :=
  draw st la.seed ctr l c.g.group c.g.block

/-- `rng.b128` (R119). -/
def execRngB128 (d : Reg) (a : Reg) (s : State) : Host.Outcome State Fault Refusal :=
  commit s (word (.rngB128 d a) (fun c g la s =>
    retire c.g (Instr.rngB128 d a).latency (c.on.flatMap fun l =>
      let q := laneDraw la c .rng (srcV s.dev g c l a.toNat) l
      outRun g l d.toNat 4 (q.x0.toNat + 2 ^ 32 * q.x1.toNat + 2 ^ 64 * q.x2.toNat + 2 ^ 96 * q.x3.toNat)) s) s)

/-- `rng.f32`: W[0] >> 8 times 2^−24, exactly (R119). -/
def execRngF32 (d : Reg) (a : Reg) (s : State) : Host.Outcome State Fault Refusal :=
  commit s (word (.rngF32 d a) (fun c g la s =>
    retire c.g (Instr.rngF32 d a).latency (c.on.flatMap fun l =>
      let q := laneDraw la c .rng (srcV s.dev g c l a.toNat) l
      outRun g l d.toNat 1 (roundDyadic fmtF32 .rn false false (q.x0.toNat / 2 ^ 8) (-24)).bits) s) s)

/-- A word of the `.sr` forms: `n` elements from the registers from `a` on, each with its own random word (R68, R120). -/
def srWord (i : Instr) (d : Reg) (a : Reg) (b : Reg) (dst : Fmt) (n : Nat) (s : State) : List Act :=
  word i (fun c g la s =>
    let res (l : Nat) : Nat × Flags :=
      let ctr := srcV s.dev g c l b.toNat
      let q0 := laneDraw la c .cvtSr ctr l
      let q1 := laneDraw la c .cvtSr (ctr + 1) l
      packRun dst n (fun j => .sr (if j < 4 then q0.get j else q1.get (j - 4)).toNat) false
        fun j => srcV s.dev g c l (a.toNat + j)
    retire c.g i.latency ((c.on.flatMap fun l => outRun g l d.toNat 1 (res l).1) ++
      outFlags (joinBits ((flagLanes g c false).map fun l => (res l).2))) s) s

/-- `cvt.sr.bf16.f32` (R120). -/
def execCvtSrBf16F32 (d : Reg) (a : Reg) (b : Reg) (s : State) : Host.Outcome State Fault Refusal :=
  commit s (srWord (.cvtSrBf16F32 d a b) d a b .bf16 1 s)

/-- `cvt.sr.f16.f32` (R120). -/
def execCvtSrF16F32 (d : Reg) (a : Reg) (b : Reg) (s : State) : Host.Outcome State Fault Refusal :=
  commit s (srWord (.cvtSrF16F32 d a b) d a b .f16 1 s)

/-- `cvt.sr.bf16x2.f32` (R120). -/
def execCvtSrBf16x2F32 (d : Reg) (a : Reg) (b : Reg) (s : State) : Host.Outcome State Fault Refusal :=
  commit s (srWord (.cvtSrBf16x2F32 d a b) d a b .bf16 2 s)

/-- `pack.sr.e4m3.f32` (R120). -/
def execPackSrE4m3F32 (d : Reg) (a : Reg) (b : Reg) (s : State) : Host.Outcome State Fault Refusal :=
  commit s (srWord (.packSrE4m3F32 d a b) d a b .e4m3 4 s)

/-- `pack.sr.e5m2.f32` (R120). -/
def execPackSrE5m2F32 (d : Reg) (a : Reg) (b : Reg) (s : State) : Host.Outcome State Fault Refusal :=
  commit s (srWord (.packSrE5m2F32 d a b) d a b .e5m2 4 s)

/-- `pack.sr.e2m1.f32` (R120). -/
def execPackSrE2m1F32 (d : Reg) (a : Reg) (b : Reg) (s : State) : Host.Outcome State Fault Refusal :=
  commit s (srWord (.packSrE2m1F32 d a b) d a b .e2m1 8 s)

end Sys2Proof.Machine
end

