-- ==== Sys2Proof/Machine/Contract.lean ====
section
/-!
DEFINITION. Cuvée images, their checks and figures (R203 to R211), and the exact product contract: alignment, depth, the two paths,
special values and moment mode (R201, R202, R212 to R221), as functions of numbers.
-/

namespace Sys2Proof.Machine

/-! ### Images (R203, R204) -/

/-- A table: base, rank and the coefficients of U, V and W, by product and position. -/
structure Table where
  b : Nat
  r : Nat
  u : List (List Int)
  v : List (List Int)
  w : List (List Int)
  deriving DecidableEq, Repr

/-- Bytes of an image as a number. -/
def imgNat (img : List Byte) (off n : Nat) : Nat := leNat ((img.drop off).take n)

/-- The three masks of a record. -/
def imgMasks (img : List Byte) (base p : Nat) : Nat × Nat × Nat :=
  (imgNat img (base + 6 * p) 2, imgNat img (base + 6 * p + 2) 2, imgNat img (base + 6 * p + 4) 2)

/-- A coefficient (R204). -/
def coefOf (m : Nat × Nat × Nat) (a : Nat) : Int :=
  if bitAt m.1 a then (1 + ((bitAt m.2.2 a).toNat : Int)) * (if bitAt m.2.1 a then -1 else 1) else 0

/-- The table of an image. -/
def tableOf (img : List Byte) : Table :=
  let b := imgNat img 6 1
  let r := imgNat img 7 1
  let side (base : Nat) : List (List Int) :=
    (countFrom 0 r).map fun p => (countFrom 0 (b * b)).map (coefOf (imgMasks img base p))
  ⟨b, r, side 0x40, side 0x1C0, side 0x340⟩

/-- The classical table of slot 0 (R209). -/
def classical : Table :=
  let one (f : Nat → Nat) : List (List Int) :=
    (countFrom 0 8).map fun p => (countFrom 0 4).map fun a => if a = f p then 1 else 0
  ⟨2, 8, one fun p => 2 * (p / 4) + p % 2, one fun p => 2 * (p % 2) + p / 2 % 2, one fun p => 2 * (p / 4) + p / 2 % 2⟩

def Table.at_ (xs : List (List Int)) (p a : Nat) : Int := (xs.getD p []).getD a 0

def intSum (xs : List Int) : Int := xs.foldl (· + ·) 0
def absSum (xs : List Int) : Nat := natSum (xs.map Int.natAbs)
def listMax (xs : List Nat) : Nat := xs.foldl max 0

/-! ### Checks and figures (R207, R208) -/

/-- Check 1: header ranges and reserved bytes. -/
def imgHeaderOk (img : List Byte) : Bool :=
  let b := imgNat img 6 1
  let r := imgNat img 7 1
  decide (imgNat img 0 4 = 0x43555645) && decide (imgNat img 4 2 = 1) &&
  ((decide (b = 2) && decide (1 ≤ r) && decide (r ≤ 8)) || (decide (b = 4) && decide (1 ≤ r) && decide (r ≤ 64))) &&
  decide (imgNat img 0x18 40 = 0) && decide (imgNat img 0x4C0 320 = 0)

/-- The starts of U, V and W. -/
def imgSides : List Nat := [0x40, 0x1C0, 0x340]

/-- Check 2: NEG and TWO inside NZ, and no bit beyond the positions. -/
def imgMasksOk (img : List Byte) : Bool :=
  let n := imgNat img 6 1 * imgNat img 6 1
  imgSides.all fun base => (countFrom 0 64).all fun p =>
    let m := imgMasks img base p
    decide (m.2.1 &&& m.1 = m.2.1) && decide (m.2.2 &&& m.1 = m.2.2) && decide (m.1 < 2 ^ n) && decide (m.2.1 < 2 ^ n) &&
    decide (m.2.2 < 2 ^ n)

/-- Check 3: records beyond the rank are 0. -/
def imgRankOk (img : List Byte) : Bool :=
  imgSides.all fun base => (countFrom 0 64).all fun p =>
    decide (p < imgNat img 7 1) || decide (imgMasks img base p = (0, 0, 0))

/-- Check 4: the Brent equations. -/
def brentOk (t : Table) : Bool :=
  let ix := countFrom 0 t.b
  ix.all fun i => ix.all fun k => ix.all fun k' => ix.all fun j => ix.all fun i' => ix.all fun j' =>
    decide (intSum ((countFrom 0 t.r).map fun p =>
        Table.at_ t.u p (i * t.b + k) * Table.at_ t.v p (k' * t.b + j) * Table.at_ t.w p (i' * t.b + j')) =
      (if i = i' ∧ k = k' ∧ j = j' then 1 else 0))

/-- The reason code of `cuv.chk` (R207). -/
def imgReason (img : List Byte) : Nat :=
  if !imgHeaderOk img then 1
  else if !imgMasksOk img then 2
  else if !imgRankOk img then 3
  else if !brentOk (tableOf img) then 4
  else 0

/-- L_A, L_B, L_C and EW (R208). -/
def Table.la (t : Table) : Nat := listMax (t.u.map absSum)
def Table.lb (t : Table) : Nat := listMax (t.v.map absSum)
def Table.lc (t : Table) : Nat :=
  listMax ((countFrom 0 (t.b * t.b)).map fun a => absSum ((countFrom 0 t.r).map fun p => Table.at_ t.w p a))
def Table.ew (t : Table) : Nat :=
  listMax ((countFrom 0 (t.b * t.b)).map fun a => natSum ((countFrom 0 t.r).map fun p =>
    (Table.at_ t.w p a).natAbs * absSum (t.u.getD p []) * absSum (t.v.getD p [])))

/-- ceil(log2(L^d)); 0 for L = 0. -/
def growth (l d : Nat) : Nat := if l ^ d ≤ 1 then 0 else Nat.log2 (l ^ d - 1) + 1

/-- DMAX, and the greatest depth that the exact path admits (R208). -/
def Table.dmax (t : Table) : Nat := if t.b = 2 then 2 else 1
def Table.dmaxe (t : Table) : Nat :=
  listMax ((countFrom 0 (t.dmax + 1)).filter fun d =>
    decide (growth t.la d ≤ 6) && decide (growth t.lb d ≤ 6) && decide (growth t.lc d ≤ 6))

/-- The check word (R208). -/
def checkWord (img : List Byte) : Nat :=
  let r := imgReason img
  if r = 1 ∨ r = 2 ∨ r = 3 then 2 * r
  else
    let t := tableOf img
    (decide (r = 0)).toNat + 2 * r + 2 ^ 4 * t.dmaxe + 2 ^ 6 * t.dmax + 2 ^ 8 * t.la + 2 ^ 16 * t.lb + 2 ^ 24 * t.lc + 2 ^ 32 * t.ew

/-- The check word of slot 0 (R209). -/
def classicalWord : Nat := 0x00000002020101A1

/-! ### Depth (R212) -/

/-- The Kronecker product of a side's coefficients over the levels: product p, first and second index. -/
def kron (t : Table) (xs : List (List Int)) (p i k : Nat) : Nat → Int
  | 0 => 1
  | d + 1 => Table.at_ xs (p % t.r) (i % t.b * t.b + k % t.b) * kron t xs (p / t.r) (i / t.b) (k / t.b) d

/-! ### Elements (R189, R201) -/

/-- Formats of a post's operands (R224). -/
def mxFp (fmt : Nat) : FpFmt :=
  match fmt with
  | 1 => fmtF16
  | 2 => fmtE4m3
  | 3 => fmtE5m2
  | 4 => fmtE2m1
  | _ => fmtBf16

/-- A product of two values, where 0 · ∞ is NaN. -/
def mulN (x y : Val) : Val :=
  match mulVal x y with
  | some z => z
  | none => .nan

/-- An element as the detector and the array take it: its factor f, and its effective value, 0 where f is not finite (R201, R213). -/
structure Elt where
  f : Val
  x : Dy
  deriving DecidableEq, Repr

def Val.dy : Val → Dy
  | .fin neg m e => dyOf neg m e
  | _ => ⟨0, 0⟩

/-- An element with its block and band scale: the array takes it as 0 where its class is not finite, zero included (R201, R213). -/
def eltOf (x scale band : Val) : Elt :=
  let f := mulN (mulN x scale) band
  match f with
  | .fin _ m _ => ⟨f, if m = 0 then ⟨0, 0⟩ else (mulN x scale).dy⟩
  | _ => ⟨f, ⟨0, 0⟩⟩

def oneVal : Val := .fin false 1 0

/-- An element that no scale covers. -/
def plainElt (x : Val) : Elt := eltOf x oneVal oneVal

/-- The square of an element (R220). -/
def Elt.square (a : Elt) : Elt := ⟨mulN a.f a.f, a.x.mul a.x⟩

/-- floor(log2 |x|) of a nonzero dyadic. -/
def Dy.exponent (x : Dy) : Int := (Nat.log2 x.m.natAbs : Int) + x.e

/-- The largest exponent of some elements; 0 where all are 0 (R213). -/
def maxExp (xs : List Elt) : Int :=
  match (xs.filter fun a => decide (a.x.m ≠ 0)).map fun a => a.x.exponent with
  | [] => 0
  | e :: es => es.foldl max e

/-- m / 2^k rounded to nearest, ties to even. -/
def rneShift (m : Int) (k : Nat) : Int :=
  let q := m / (2 ^ k : Int)
  let r := 2 * (m % (2 ^ k : Int))
  if r < 2 ^ k ∨ (r = 2 ^ k ∧ q % 2 = 0) then q else q + 1

/-- Align(x, e, 26), in units of 2^(e − 26) (R14, R213). -/
def alignInt (x : Dy) (e : Int) : Int :=
  let s := x.e - (e - 26)
  if 0 ≤ s then x.m * 2 ^ s.toNat else rneShift x.m (-s).toNat

/-! ### The pass (R214, R216) -/

/-- The narrow precision of a format. -/
def narrowBits (fmt : Nat) : Nat :=
  match fmt with
  | 1 => 11
  | 2 => 4
  | 3 => 3
  | _ => 8

/-- Narrow of an aligned sum: rounded to Pf + 1 bits and held within the headroom; whether it saturates (R214). -/
def narrow (pf : Nat) (s : Int) : Int × Bool :=
  let n := Nat.log2 s.natAbs + 1
  let h := if n ≤ pf + 1 then s else rneShift s (n - (pf + 1)) * 2 ^ (n - (pf + 1))
  let top : Int := (2 ^ (pf + 1) - 1) * 2 ^ (28 - pf)
  if top < h then (top, true) else if h < -top then (-top, true) else (h, false)

/-- A matrix of numbers, by row. -/
abbrev Mat := Array (Array Int)
def Mat.at_ (m : Mat) (i j : Nat) : Int := (m.getD i #[]).getD j 0
def matOf (rows cols : Nat) (f : Nat → Nat → Int) : Mat :=
  ((countFrom 0 rows).map fun i => ((countFrom 0 cols).map fun j => f i j).toArray).toArray

/-- The block sums of one product of one side, with whether one saturates: `rows` by `cols` sums of a matrix under coefficients
`c` by row digit and column digit. -/
def blockSums (m : Mat) (q rows cols : Nat) (c : Nat → Nat → Int) (nar : Option Nat) : Mat × Bool :=
  let raw := matOf rows cols fun x t =>
    intSum ((countFrom 0 q).flatMap fun i => (countFrom 0 q).map fun k =>
      let z := c i k
      if z = 0 then 0 else z * m.at_ (q * x + i) (q * t + k))
  match nar with
  | none => (raw, false)
  | some pf =>
    (raw.map fun r => r.map fun s => (narrow pf s).1, raw.any fun r => r.any fun s => (narrow pf s).2)

/-- What a contraction gives: the values by row and column, and for the first saturating sum its side, 0 A or 1 B. -/
structure Contraction where
  val : Nat → Nat → Int
  sat : Option Nat

/-- val of an aligned 8 by 64 slab and a 64 by 64 tile (R214). -/
def contract (t : Table) (d fmt : Nat) (nrw : Bool) (a b : Mat) : Contraction :=
  let q := t.b ^ d
  let nar := if nrw ∧ 0 < d then some (narrowBits fmt) else none
  let ps := (countFrom 0 (t.r ^ d)).map fun p =>
    (p, blockSums a q (8 / q) (64 / q) (fun i k => kron t t.u p i k d) nar,
      blockSums b q (64 / q) (64 / q) (fun k j => kron t t.v p k j d) nar)
  { val := fun m n =>
      intSum (ps.map fun e =>
        let w := kron t t.w e.1 (m % q) (n % q) d
        if w = 0 then 0
        else w * intSum ((countFrom 0 (64 / q)).map fun z => e.2.1.1.at_ (m / q) z * e.2.2.1.at_ z (n / q)))
    sat := (ps.find? fun e => e.2.1.2 || e.2.2.2).map fun e => if e.2.1.2 then 0 else 1 }

/-- Special terms of a C element: NaN, or an infinity, or none (R202). -/
inductive Special where
  | none
  | inf (neg : Bool)
  | nan
  deriving DecidableEq, Repr

def Special.join (s : Special) (t : Val) : Special :=
  match s, t with
  | .nan, _ => .nan
  | _, .nan => .nan
  | .none, .inf n => .inf n
  | .inf m, .inf n => if m = n then .inf m else .nan
  | s, .fin _ _ _ => s

/-- The special term that a row of A and a column of B form. -/
def specialOf (s : Special) (a b : List Elt) : Special :=
  (a.zip b).foldl (fun s e => s.join (mulN e.1.f e.2.f)) s

/-- Whether a value is neither a NaN nor an infinity. -/
def Val.isFin : Val → Bool
  | .fin _ _ _ => true
  | _ => false

/-- A finished C element: its bits, and whether NANW and INFW are set (R202, R214). -/
def finishC (c : Nat) (s : Special) (v : Dy) : Nat × Bool × Bool :=
  match fmtF32.value c, s with
  | .nan, _ => (0x7FC00000, true, false)
  | _, .nan => (0x7FC00000, true, false)
  | .inf m, .inf n => if m = n then (fmtF32.inf n, false, true) else (0x7FC00000, true, false)
  | .fin _ _ _, .inf n => (fmtF32.inf n, false, true)
  | .inf m, .none => (fmtF32.inf m, false, false)
  | .fin neg m e, .none =>
    let x := (dyOf neg m e).add v
    if x.m = 0 then (0, false, false)
    else
      let r := roundPos fmtF32 .rn false (decide (x.m < 0)) x.m.natAbs 1 x.e
      (r.bits, false, r.fl.ovf)

/-! ### Planes -/

/-- Rows of A of an entry: row in the octet with its 64 elements; and B: 64 rows of 64 elements. -/
abbrev Slab := List (Nat × List Elt)

/-- Bits `k` of a packed row of elements of `w` bits. -/
def rowElt (row w k : Nat) : Nat := row / 2 ^ (w * k) % 2 ^ w

/-- A row of A in a plain format (R188); blocked rows carry their eight block scales from bit 256 on. -/
def slabRow (fmt : Nat) (band : Val) (row : Nat) : List Elt :=
  let f := mxFp fmt
  (countFrom 0 64).map fun k =>
    let x := f.value (rowElt row f.width k)
    if fmt = 4 then eltOf x (fmtE3m5.value (row / 2 ^ (256 + 8 * (k / 8)) % 256)) band else plainElt x

/-- Element (k, n) of B in the bytes of its tile (R189). -/
def tileElt (fmt : Nat) (band : Val) (b : Array Byte) (k n : Nat) : Elt :=
  let f := mxFp fmt
  let at_ (a : Nat) : Nat := (b.getD a 0).toNat
  let i := 64 * k + n
  if fmt = 4 then
    eltOf (f.value (at_ (i / 2) / 16 ^ (i % 2) % 16)) (fmtE3m5.value (at_ (2048 + 64 * (k / 8) + n))) band
  else if f.width = 16 then plainElt (f.value (at_ (2 * i) + 256 * at_ (2 * i + 1)))
  else plainElt (f.value (at_ i))

/-- B's rows. -/
def tileRows (fmt : Nat) (band : Val) (b : Array Byte) : List (List Elt) :=
  (countFrom 0 64).map fun k => (countFrom 0 64).map fun n => tileElt fmt band b k n

def column (rows : List (List Elt)) (n : Nat) : List Elt := rows.map fun r => r.getD n ⟨.fin false 0 0, ⟨0, 0⟩⟩

/-- The aligned slab of some rows, masked rows 0, with its exponent. -/
def alignSlab (s : Slab) : Mat × Int :=
  let e := maxExp (s.flatMap Prod.snd)
  (matOf 8 64 fun m k =>
    match s.find? fun r => decide (r.1 = m) with
    | some r => alignInt (r.2.getD k ⟨.nan, ⟨0, 0⟩⟩).x e
    | none => 0, e)

/-- The aligned tile with its exponent. -/
def alignTile (rows : List (List Elt)) : Mat × Int :=
  let e := maxExp (rows.flatMap id)
  ((rows.map fun r => (r.map fun x => alignInt x.x e).toArray).toArray, e)

/-- One term of a plane: a slab and a tile under a table, with the value of every row and column, the special terms, and the
saturating side. -/
structure Term where
  val : Nat → Nat → Dy
  special : Special → Nat → Nat → Special
  sat : Option Nat

def termOf (t : Table) (d fmt : Nat) (nrw : Bool) (s : Slab) (rows : List (List Elt)) (scale : Dy) : Term :=
  let a := alignSlab s
  let b := alignTile rows
  let c := contract t d fmt nrw a.1 b.1
  let badCols := (countFrom 0 64).filter fun n => (column rows n).any fun x => !x.f.isFin
  { val := fun m n => scale.mul ⟨c.val m n, (a.2 - 26) + (b.2 - 26)⟩
    special := fun sp m n =>
      match s.find? fun r => decide (r.1 = m) with
      | none => sp
      | some r =>
        if badCols.contains n || r.2.any (fun x => !x.f.isFin) then specialOf sp r.2 (column rows n) else sp
    sat := c.sat }

/-- The value and the special terms of a plane's element over its terms. -/
def planeAt (ts : List Term) (m n : Nat) : Dy × Special :=
  (ts.foldl (fun v t => v.add (t.val m n)) ⟨0, 0⟩, ts.foldl (fun s t => t.special s m n) .none)

/-- A BF16 value as exact bits (R226): mean or variance of a moment, rounded. -/
def bf16Of (b : Nat) : Nat := (roundVal fmtBf16 .rn false (fmtF32.value b)).bits

/-- B's variance plane: a NaN or a negative element is taken as +0; whether one was (R221). -/
def cleanVar (rows : List (List Nat)) : List (List Nat) × Bool :=
  let bad (x : Nat) : Bool :=
    match fmtBf16.value x with
    | .nan => true
    | .inf neg => neg
    | .fin neg m _ => neg && m != 0
  (rows.map fun r => r.map fun x => if bad x then 0 else x, rows.any fun r => r.any bad)

end Sys2Proof.Machine
end

