-- ==== Sys2Proof/Machine/Translate.lean ====
section
/-!
DEFINITION. Device physical memory and the translation of engines (R310 to R318): page tables, leaves and their tiers, cached
translations, and the bytes of a job's virtual space.
-/

namespace Sys2Proof.Machine

/-! ### Device physical addresses (R315) -/

/-- The bank of a device physical address, and the address in it: tier 3 is host memory. -/
def paBank (pa : Nat) : Bank × Nat := if pa / 2 ^ 48 = 3 then (.host, pa % 2 ^ 48) else (.main, pa)

/-- A byte at a device physical address. -/
def State.paByte (s : State) (pa : Nat) : Byte := cellGet (s.bank (paBank pa).1) (paBank pa).2

/-- A byte stored at a device physical address. -/
def paStore (pa : Nat) (v : Byte) : Act := .store (paBank pa).1 (paBank pa).2 v

/-- The bytes of a device physical address from there on. -/
def State.paNat (s : State) (pa n : Nat) : Nat := natAt (s.bank (paBank pa).1) (paBank pa).2 n

/-- 1 GB and 1 TB, in bytes: decimal (conventions of the scope chapter). -/
def gigaByte : Nat := 10 ^ 9
def teraByte : Nat := 10 ^ 12

/-! ### Page-table entries (R314) -/

/-- A page-table entry: its value, where it lies and its level. -/
structure Pte where
  e : Nat
  at_ : Nat
  level : Nat
  deriving DecidableEq, Repr

def Pte.valid (p : Pte) : Bool := bitAt p.e 0
def Pte.writable (p : Pte) : Bool := bitAt p.e 1
def Pte.isLeaf (p : Pte) : Bool := bitAt p.e 2
def Pte.c64 (p : Pte) : Bool := bitAt p.e 3
def Pte.tier (p : Pte) : Nat := bits p.e 4 2
def Pte.ilv (p : Pte) : Nat := bits p.e 6 2
def Pte.home (p : Pte) : Nat := bits p.e 8 3
def Pte.mig (p : Pte) : Bool := bitAt p.e 11
def Pte.frame (p : Pte) : Nat := bits p.e 12 40
def Pte.reserved (p : Pte) : Nat := bits p.e 52 10

/-- Bytes of a page at a level. -/
def pageSize (level : Nat) : Nat := 2 ^ (12 + 9 * level)

/-- The offsets of a tier that TIER, ILV and HOME select: first byte and bytes; `none` where no range is (R315, R316). -/
def frameRange (tier ilv home : Nat) : Option (List (Nat × Nat)) :=
  match tier with
  | 0 =>
    if ilv = 0 then (if home < 6 then some [(96 * gigaByte * home, 96 * gigaByte)] else none)
    else if 6 ≤ home then none
    else if ilv = 1 then some [(576 * gigaByte, 96 * gigaByte)]
    else if ilv = 2 then some [(672 * gigaByte, 96 * gigaByte)]
    else none
  | 1 => if ilv = 0 ∧ (home = 6 ∨ home = 7) then some [(teraByte * (home - 6), teraByte)] else none
  | 2 =>
    if ilv = 0 ∧ (home = 6 ∨ home = 7) then
      some ((countFrom (2 * (home - 6)) 2).map fun p => (16 * teraByte * p, min (16 * teraByte) (Config.cxlSize p)))
    else none
  | _ => if ilv = 0 ∧ home = 6 then some [(0, 2 ^ 48)] else none

/-- Whether a leaf is well formed in itself: its TIER, ILV and HOME select a range that holds its frames. -/
def Pte.leafOk (p : Pte) : Bool :=
  p.reserved == 0 &&
  match frameRange p.tier p.ilv p.home with
  | none => false
  | some rs => rs.any fun r => decide (r.1 ≤ 4096 * p.frame) && decide (4096 * p.frame + pageSize p.level ≤ r.1 + r.2)

/-- An entry without FRAME, A and D. -/
def Pte.alike (p : Pte) : Nat := p.e % 2 ^ 12 + bits p.e 52 10 * 2 ^ 52

/-- Whether the 16 entries of a 64 KiB page agree (R314; A and D, which hardware sets one by one, aside: log 20). -/
def State.c64Ok (s : State) (p : Pte) : Bool :=
  let base := p.at_ - p.at_ % 128
  let one (k : Nat) : Pte := ⟨s.paNat (base + 8 * k) 8, base + 8 * k, 0⟩
  (countFrom 0 16).all fun k => decide ((one k).alike = (one 0).alike) && decide ((one k).frame = (one 0).frame + k)

/-- The result of a walk (R317). -/
inductive Walk where
  | leaf (p : Pte)
  | invalid
  | malformed
  deriving DecidableEq, Repr

/-- A leaf that a walk has reached. -/
def State.leafOf (s : State) (p : Pte) : Walk :=
  if p.leafOk && (p.level != 0 || !p.c64 || s.c64Ok p) then .leaf p else .malformed

/-- A walk from a table of a level on: the five levels of R314. -/
def State.walkAt (s : State) (va : Nat) : Nat → Nat → Walk
  | 0, t =>
    let a := t + 8 * (va / 2 ^ 12 % 512)
    let p : Pte := ⟨s.paNat a 8, a, 0⟩
    if !p.valid then .invalid else if !p.isLeaf then .malformed else s.leafOf p
  | k + 1, t =>
    let a := t + 8 * (va / 2 ^ (12 + 9 * (k + 1)) % 512)
    let p : Pte := ⟨s.paNat a 8, a, k + 1⟩
    if !p.valid then .invalid
    else if p.isLeaf then (if 3 ≤ k + 1 then .malformed else s.leafOf p)
    else if p.reserved ≠ 0 ∨ p.tier ≠ 0 ∨ 2 ≤ p.frame / 2 ^ 36 then .malformed
    else s.walkAt va k (4096 * p.frame)

/-- The root table of a job (R330). -/
def Job.root (j : Job) : Nat := j.field 0x08 8

/-- The walk of a job's virtual address. -/
def State.walk (s : State) (j : Job) (va : Nat) : Walk :=
  if 2 ≤ j.root / 2 ^ 48 then .malformed else s.walkAt va 4 j.root

/-! ### Translation (R316 to R318) -/

/-- The outcome of a translation: the device physical address, the entry, and the home die of a near-tier byte. -/
inductive Tr where
  | ok (pa : Nat) (p : Pte)
  | fault
  | access
  | wait
  deriving DecidableEq, Repr

/-- The home die of a byte (R316). -/
def homeDie (p : Pte) (va : Nat) : Nat :=
  if p.ilv = 1 then va / 4096 % 6
  else if p.ilv = 2 then
    let g := va / 256
    (((g % 2 ^ 16) ^^^ (g / 2 ^ 16 % 2 ^ 16)) ^^^ ((g / 2 ^ 32 % 2 ^ 16) ^^^ (g / 2 ^ 48 % 2))) % 6
  else p.home

/-- What a leaf gives an access. -/
def trLeaf (p : Pte) (va : Nat) (write : Bool) : Tr :=
  if p.mig then .wait
  else if write && !p.writable then .access
  else .ok (p.tier * 2 ^ 48 + 4096 * p.frame + va % pageSize p.level) p

/-- What a walk gives an access. -/
def trWalk (w : Walk) (va : Nat) (write : Bool) : Tr :=
  match w with
  | .leaf p => trLeaf p va write
  | .invalid => .fault
  | .malformed => .access

/-- The cached translations of an address. -/
def Dev.tlbOf (d : Dev) (job va : Nat) : List TlbEntry :=
  d.tlb.filter fun t => decide (t.job = job) && decide (t.page = va / pageSize t.level)

/-- The translations that an access may use: cached ones that differ from the table, and the table's (R318). -/
def State.outcomes (s : State) (j : Job) (va : Nat) (write : Bool) : List Tr :=
  let w := s.walk j va
  let old (t : TlbEntry) : Option Tr :=
    let p : Pte := ⟨t.leaf.toNat, 0, t.level⟩
    match w with
    | .leaf q => if q.level = t.level ∧ q.alike = p.alike ∧ q.frame = p.frame then none else some (trLeaf p va write)
    | _ => some (trLeaf p va write)
  trWalk w va write :: (s.dev.tlbOf j.id va).filterMap old

/-- The translation of an address: the table's, or where a cached one differs, a free choice for each 32-byte sector (R318, log 17). -/
def State.translate (s : State) (j : Job) (va : Nat) (write : Bool) : Tr :=
  if 2 ^ 57 ≤ va then .access
  else
    match s.outcomes j va write with
    | [] => .fault
    | [t] => t
    | t :: ts =>
      let n := ts.length + 1
      (t :: ts).getD ((Config.freeWord (s.dev.free + va / 32)).toNat % n) t

/-- The record of a translation: A, and D for a write, set in the entry, and the translation cached (R314, R318). -/
def noteTranslation (job va : Nat) (write : Bool) : Part := fun s =>
  match s.dev.job? job with
  | none => []
  | some j =>
    match s.walk j va with
    | .leaf p =>
      let b := (s.paByte (p.at_ + 7)).toNat
      let b1 := if b / 128 % 2 = 0 then b + 128 else b
      let b2 := if write && decide (b1 / 64 % 2 = 0) then b1 + 64 else b1
      let t : TlbEntry := ⟨job, va / pageSize p.level, p.level, BitVec.ofNat 64 (p.e % 2 ^ 62)⟩
      (if b2 = b then [] else [paStore (p.at_ + 7) (BitVec.ofNat 8 b2)]) ++
        (if s.dev.tlb.contains t then [] else [.dev { s.dev with tlb := s.dev.tlb ++ [t] }])
    | _ => []

/-- The device addresses of the entries that a walk reads, from a table of a level on. -/
def State.walkReads (s : State) (va : Nat) : Nat → Nat → List Nat
  | 0, t => [t + 8 * (va / 2 ^ 12 % 512)]
  | k + 1, t =>
    let a := t + 8 * (va / 2 ^ (12 + 9 * (k + 1)) % 512)
    let p : Pte := ⟨s.paNat a 8, a, k + 1⟩
    if !p.valid || p.isLeaf then [a] else a :: s.walkReads va k (4096 * p.frame)

/-- The compute die whose memory a device address is in, where one alone can be named: ILV 0 of tier 0 (R315). -/
def paDie (pa : Nat) : Option Nat := if pa < 576 * gigaByte then some (pa / (96 * gigaByte)) else none

/-- Whether a die's engine that uses an address asks another die: in the walk, or for the data (R316, R327). -/
def State.asksDie (s : State) (j : Job) (die va : Nat) : Bool :=
  ((s.walkReads va 4 j.root).any fun a => decide (paDie a ≠ some die)) ||
  (match s.translate j va false with
    | .ok _ p => decide (p.tier ≠ 0) || decide (homeDie p va ≠ die)
    | _ => false)

/-! ### The leaves of a page that moves (R314, R324) -/

/-- Where the leaves of a page lie, and how many there are: a page of 64 KiB has 16. -/
def Pte.leaves (p : Pte) : Nat × Nat := if p.level = 0 ∧ p.c64 then (p.at_ - p.at_ % 128, 16) else (p.at_, 1)

/-- MIG set or cleared in every leaf of a page. -/
def setMig (p : Pte) (on : Bool) : Part := fun s =>
  (countFrom 0 p.leaves.2).map fun k =>
    let a := p.leaves.1 + 8 * k + 1
    paStore a (BitVec.ofNat 8 (putBits (s.paByte a).toNat 3 1 on.toNat))

/-! ### Frame pools (R325) -/

/-- The pool that supplies the frames of a target. -/
def poolOf (tier ilv home : Nat) : Nat :=
  match tier with
  | 0 => if ilv = 0 then home else 5 + ilv
  | 1 => 2 + home
  | _ => 4 + home

def Regs.pool (r : Regs) (p k : Nat) : Nat := (cellGet r.pools (4 * p + k)).toNat
def Regs.setPool (r : Regs) (p k v : Nat) : Regs := { r with pools := cellSet r.pools (4 * p + k) (BitVec.ofNat 64 v) }

/-- Whether migration engines may touch a pool, and whether they may return a frame to it. -/
def Regs.poolOpen (r : Regs) (p : Nat) : Bool := !bitAt (r.pool p 3) 0
def Regs.poolRoom (r : Regs) (p : Nat) : Bool := r.poolOpen p && decide (r.pool p 2 < r.pool p 1)

/-- The frame number on top of a pool. -/
def State.poolTop (s : State) (p : Nat) : Nat := natAt s.host (s.dev.regs.pool p 0 + 8 * (s.dev.regs.pool p 2 - 1)) 8

/-- The pool's top entry taken. -/
def takeFrame (p : Nat) : Part := Part.mod fun d => { d with regs := d.regs.setPool p 2 (d.regs.pool p 2 - 1) }

/-- A frame number put on a pool. -/
def returnFrame (p f : Nat) : Part := fun s =>
  storeBytes .host (s.dev.regs.pool p 0 + 8 * s.dev.regs.pool p 2) (leBytes 8 f) ++
    [.dev { s.dev with regs := s.dev.regs.setPool p 2 (s.dev.regs.pool p 2 + 1) }]

/-- TIER, ILV and HOME of a target (R323). -/
def targetOf (t : Nat) : Nat × Nat × Nat := (t % 4, bits t 2 2, bits t 4 3)

/-! ### Bytes of a virtual space -/

/-- The order of keys (R280). -/
def keyLt (a b : Nat × Nat × Nat) : Bool :=
  decide (a.1 < b.1) || (decide (a.1 = b.1) && (decide (a.2.1 < b.2.1) || (decide (a.2.1 = b.2.1) && decide (a.2.2 < b.2.2))))

def Staged.key (w : Staged) : Nat × Nat × Nat := (w.phase, w.block, w.seq)

/-- Whose staged writes a read of an engine sees: those of its own block, and those of operations that happen before it (R280, R291, R292). -/
structure Seer where
  launch : Nat
  block : Nat
  knows : List Nat
  deriving DecidableEq, Repr

def Seer.sees (e : Seer) (w : Staged) : Bool :=
  (decide (w.launch = e.launch) && decide (w.block = e.block)) || e.knows.contains w.op

/-- The byte that the staged writes which a read sees give an address: that of the latest key, and of the last write of one key (R280). -/
def Dev.stagedByte (d : Dev) (e : Seer) (va : Nat) : Option Byte :=
  let runs := (d.staged.filter e.sees).flatMap fun w => w.runs.map fun r => (w.key, r)
  let hits := runs.filter fun r => decide (r.2.1 ≤ va) && decide (va < r.2.1 + r.2.2.2.length)
  let later (a : Option ((Nat × Nat × Nat) × Byte)) (r : (Nat × Nat × Nat) × Nat × Nat × List Byte) :=
    match a with
    | some b => if keyLt r.1 b.1 then some b else some (r.1, r.2.2.2.getD (va - r.2.1) 0)
    | none => some (r.1, r.2.2.2.getD (va - r.2.1) 0)
  (hits.foldl later none).map Prod.snd

/-- A byte that translates; 0 where it does not. -/
def State.vaByte (s : State) (j : Job) (own : Option Seer) (va : Nat) : Byte :=
  match own.bind fun e => s.dev.stagedByte e va with
  | some b => b
  | none =>
    match s.translate j va false with
    | .ok pa _ => s.paByte pa
    | _ => 0

/-- Bytes of a virtual space. -/
def State.vaBytes (s : State) (j : Job) (own : Option Seer) (va : Nat) : Nat → List Byte
  | 0 => []
  | n + 1 => s.vaByte j own va :: s.vaBytes j own (va + 1) n

/-- The first of some addresses that does not translate, and why. -/
def State.firstBad (s : State) (j : Job) (write : Bool) : List Nat → Option (Nat × Tr)
  | [] => none
  | va :: r =>
    match s.translate j va write with
    | .ok _ _ => s.firstBad j write r
    | t => some (va, t)

/-- The first byte of each page of 4 KiB that some bytes touch. -/
def pagesOf (va n : Nat) : List Nat :=
  if n = 0 then [] else (countFrom (va / 4096) ((va + n - 1) / 4096 + 1 - va / 4096)).map fun p => max va (4096 * p)

end Sys2Proof.Machine
end

