-- ==== Sys2Proof/Machine/Objects.lean ====
section
/-!
DEFINITION. Barrier objects and cisterns (R225, R270 to R274, R279): arrivals, and the opcodes 0x3D and 0x35.
-/

namespace Sys2Proof.Machine

/-! ### Coded addresses and their faults (R149, R225, R265, R273) -/

/-- Whether a coded address names the pad, and the address. -/
def codePad (code : Nat) : Bool := bitAt code 31
def codeAddr (code : Nat) : Nat := code % 2 ^ 31

/-- The code that names no object. -/
def noObject : Nat := 0xFFFFFFFF

/-- The object that a code names in a block, where its address exists. -/
def objRefOf (l : Launch) (block code : Nat) : Option ObjRef :=
  (memTarget l block (codePad code) (codeAddr code) 16).2.map fun t => ⟨t.store, t.off⟩

/-- Whether an engine of a job that writes the bytes `writes` of a store writes a whole range that an uncorrectable error keeps locked:
it is admitted, and completing without error it releases the range (R271, R276). -/
def GateRange.rewritten (r : GateRange) (job : Nat) (writes : Nat → Bool) : Bool :=
  r.ue && decide (r.job = job) && (countFrom r.first r.bytes).all writes

/-- A range locked by an uncorrectable error that an engine's range meets. Any other range of the table keeps the engine waiting, and
does not fault its word (R271, R276). -/
def Dev.lockHit (d : Dev) (job : Nat) (st : Store) (a n : Nat) (writes : Nat → Bool) : Option GateRange :=
  d.gate.find? fun r => r.ue && decide (r.store = st) && decide (r.lo < a + n) && decide (a < r.hi) && !r.rewritten job writes

/-- A range that an engine word, a post or `launch.dev` names: MISALIGNED, BOUNDS, ACCESS, RANGE_LOCK in this order (R149, R265); `hit`
gives the range of the headgate table that locks it. -/
def rangeOf (l : Launch) (j : Job) (block : Nat) (pad : Bool) (addr n align : Nat) (hit : Target → Option GateRange) :
    Except (AccFault × Space) Target :=
  let t := memTarget l block pad addr n
  if addr % align ≠ 0 then .error (.misaligned, t.1)
  else match t.2 with
    | none => .error (.bounds, t.1)
    | some t =>
      if pad && !j.granted addr n then .error (.access, t.space)
      else match hit t with
        | some r => .error (.rangeLock (gateAux r), t.space)
        | none => .ok t

/-- A coded range that the word itself reads: a layout record, a descriptor or a launch record. -/
def readRange (d : Dev) (l : Launch) (j : Job) (block code n align : Nat) : Except (AccFault × Space) Target :=
  rangeOf l j block (codePad code) (codeAddr code) n align fun t => d.gateHit t.store t.off n false

/-- An array that the operation reads or writes later: `writes` gives the bytes that it writes, from the array's start on. -/
def arrayRange (d : Dev) (l : Launch) (j : Job) (block : Nat) (pad : Bool) (addr n align : Nat) (writes : Nat → Bool) :
    Except (AccFault × Space) Target :=
  rangeOf l j block pad addr n align fun t =>
    d.lockHit j.id t.store t.off n fun a => decide (t.off ≤ a) && writes (a - t.off)

/-- The bytes written of an array that is only read, and of one that is written whole. -/
def noBytes : Nat → Bool := fun _ => false
def wholeOf (n : Nat) : Nat → Bool := fun k => decide (k < n)

/-- A barrier object that such a word names; ACCESS inside a tagged window (R244). -/
def objRange (d : Dev) (l : Launch) (j : Job) (block code : Nat) : Except (AccFault × Space) Target :=
  match rangeOf l j block (codePad code) (codeAddr code) 16 16 (fun t => d.gateHit t.store t.off 16 true) with
  | .error f => if f.1.rank ≤ 2 then .error f else if inWin then .error (.access, f.2) else .error f
  | .ok t => if inWin then .error (.access, t.space) else .ok t
where
  inWin : Bool :=
    match (memTarget l block (codePad code) (codeAddr code) 16).2 with
    | some t => l.inWindow (codePad code) t.off 16
    | none => false

/-- The record fields of a fault of a range: size code 6 (R149). -/
def rangeFault (lane addr : Nat) (f : AccFault × Space) : FaultInfo := accessFault 6 (lane, addr, f.1, f.2)

/-- The first code in the order of R149 that some ranges meet, and within it the first range (R265). -/
def worstRange (lane : Nat) (rs : List (Nat × Except (AccFault × Space) Target)) : Option FaultInfo :=
  (worstFault (rs.filterMap fun r =>
    match r.2 with
    | .error f => some (lane, r.1, f.1, f.2)
    | .ok _ => none)).map (accessFault 6)

/-- The access of a group to an object or cistern, as an atomic (R272). `write`: it may store. -/
def objAccess (d : Dev) (g : Group) (l : Launch) (lane code : Nat) (write : Bool) : Except FaultInfo LaneAccess :=
  let pad := codePad code
  let addr := codeAddr code
  let f (x : AccFault × Space) : FaultInfo := accessFault 4 (lane, addr, x.1, x.2)
  let win : Bool := match (memTarget l g.key.block pad addr 16).2 with | some t => l.inWindow pad t.off 16 | none => false
  match accessOf d g l (d.jobOf l) lane pad addr 16 16 (if write then .atomic false else .read) with
  | .error x => if 2 < x.1.rank ∧ win then .error (f (.access, x.2)) else .error (f x)
  | .ok a => if win then .error (f (.access, a.space)) else .ok a

/-! ### The object in memory (R272) -/

def State.objExp (s : State) (o : ObjRef) : Nat := s.nat o.store o.addr 4
def State.objArr (s : State) (o : ObjRef) : Nat := s.nat o.store (o.addr + 4) 4
def State.objPhase (s : State) (o : ObjRef) : Nat := s.nat o.store (o.addr + 8) 2
def State.objErr (s : State) (o : ObjRef) : Nat := s.nat o.store (o.addr + 10) 1
def State.objCause (s : State) (o : ObjRef) : Nat := s.nat o.store (o.addr + 11) 1
def State.objDetail (s : State) (o : ObjRef) : Nat := s.nat o.store (o.addr + 12) 4

/-- Bytes written to an object or cistern by a group or an engine, as an atomic. -/
def objStore (by_ : Option GKey) (o : ObjRef) (off : Nat) (data : List Byte) : Part := fun s =>
  storeBytes o.store.bank (o.store.at_ (o.addr + off)) data ++
    [.dev (s.dev.wake by_ o.store (o.addr + off) data.length)]

/-- The releases that stand at an object or a cistern: in its count, oldest first, or with phase `p` in an object's phase. -/
def Dev.objHeads (d : Dev) (o : ObjRef) (key : Nat) : List Release := d.meeting o.store (2 ^ 14 + key) o.addr
def Dev.setObjHeads (d : Dev) (o : ObjRef) (key : Nat) (hs : List Release) : Dev := d.setMeeting o.store (2 ^ 14 + key) o.addr hs

/-- The scope at which a word releases and acquires at an object or cistern: by its space (R273, R279). -/
def Space.scope : Space → Nat
  | .stk => 0
  | .blk => 1
  | .gang => 2
  | .pad => 3

/-- That scope, from a coded address. -/
def codeScope (l : Launch) (block code : Nat) : Nat := (memTarget l block (codePad code) (codeAddr code) 16).1.scope

/-- An object or cistern made anew: no release stands at it. -/
def Dev.clearObjHeads (d : Dev) (o : ObjRef) : Dev :=
  { d with syncs := d.syncs.filter fun r => !(decide (r.store = o.store) && decide (r.addr = o.addr) && decide (2 ^ 14 ≤ r.vt) && decide (r.vt < 2 ^ 16)) }

/-- Phase `p` of an object completes: a wait on it acquires from the arrivals in it (R178, R272). -/
def Dev.endPhase (d : Dev) (o : ObjRef) (p : Nat) : Dev := (d.setObjHeads o (1 + p) (d.objHeads o 0)).setObjHeads o 0 []

/-- The arrivals in the phases of an object from `v` up to the current one. -/
def Dev.arrivers (d : Dev) (o : ObjRef) (v phase : Nat) : List Release :=
  ((countFrom 0 ((phase + 2 ^ 16 - v) % 2 ^ 16)).flatMap fun k => d.objHeads o (1 + (v + k) % 2 ^ 16)).eraseDups

/-- The bytes from ARR on after a phase completes, with an error or without (R272, R275; log 21). -/
def phaseBytes (phase err cause detail : Nat) : List Byte :=
  leBytes 4 0 ++ leBytes 2 (phase + 1) ++ leBytes 1 err ++ leBytes 1 cause ++ leBytes 4 detail

/-- An arrival put among those of the phase: a group's, or an engine's that staged writes happen before. -/
def Dev.addArrival (d : Dev) (o : ObjRef) (r : Release) : Dev :=
  if r.who.isNone && r.knows.isEmpty then d else d.setObjHeads o 0 (addRelease (d.objHeads o 0) r)

/-- An arrival of `n` (R272). -/
def objArriveN (r : Release) (o : ObjRef) (n : Nat) : Part := fun s =>
  let t := s.objArr o + n
  if t < s.objExp o then Part.seq [objStore r.who o 4 (leBytes 4 t), Part.mod fun d => d.addArrival o r] s
  else
    let isOver : Bool := decide (s.objExp o < t)
    Part.seq [
      objStore r.who o 4 (phaseBytes (s.objPhase o) (if isOver then 3 else 0) (if isOver then 3 else 0) (if isOver then t else 0)),
      Part.mod fun d => (d.addArrival o r).endPhase o (s.objPhase o)] s

/-- An arrival of an engine at `.dev`: the staged writes of some operations happen before it (R272, R286). -/
def engineRelease (knows : List Nat) : Release := ⟨none, 3, knows⟩

/-- A failure completes an object's phase (R275). -/
def objFail (knows : List Nat) (o : ObjRef) (err cause detail : Nat) : Part := fun s =>
  Part.seq [
    objStore none o 4 (phaseBytes (s.objPhase o) err cause detail),
    Part.mod fun d => (d.addArrival o (engineRelease knows)).endPhase o (s.objPhase o)] s

/-- The pad bytes that a write to an object makes. -/
def ObjRef.padBytes (o : ObjRef) (off n : Nat) : List Nat := if o.store = .pad then countFrom (o.addr + off) n else []

/-- Whether an arrival of `n` completes the phase. -/
def State.completes (s : State) (o : ObjRef) (n : Nat) : Bool := decide (s.objExp o ≤ s.objArr o + n)

/-- A watchpoint that a group's write at its word matches: the word is a write unit of its own, and its report comes once the issue is over (R372,
R373). -/
def watchWord (c : Issue) (job : Nat) (bytes : List Nat) : Part := fun s =>
  let hits := bytes.flatMap fun x => s.dev.watchByte false job (padHome x) x
  if hits.isEmpty then []
  else [.dev (s.dev.modGroup c.g fun g => { g with watch := g.watch ++ [⟨g.accesses, c.loc, hits⟩], accesses := g.accesses + 1 })]

/-! ### Operations that name an object (R273, R274) -/

/-- Whether an operation in flight names an object: an engine's, a post's, or a child launch's. -/
def Dev.objNamed (d : Dev) (o : ObjRef) : Bool :=
  d.ops.any (fun p => decide (p.object = some o)) ||
  d.clusters.any (fun c => (c.entries ++ c.passes.flatMap Pass.entries).any fun e => decide (e.obj = some o)) ||
  d.queues.any (fun q => q.children.any fun x => decide (x.object = some o)) ||
  d.launches.any fun l =>
    match l.origin with
    | .child _ x => decide (x = some o)
    | .queue _ _ _ => false

/-- Whether an engine operation that names an object is held on a page fault (R274). -/
def Dev.objHeld (d : Dev) (o : ObjRef) : Bool := d.ops.any fun p => decide (p.object = some o) && (p.held.isSome || p.remoteHeld)

/-- Whether an earlier access of a group to the place of an object is still to be performed (R285). -/
def Group.objBusy (g : Group) (o : ObjRef) : Bool :=
  g.acquiring || g.acc.any fun a => !a.taken &&
    match a.store, o.store with
    | .pad, .pad => decide (a.addr / 32 = o.addr / 32)
    | .blk l x, .blk m y => decide (l = m) && decide (x = y)
    | _, _ => false

/-! ### Opcode 0x3D (R273) -/

/-- The value of a register of the leader. -/
def leadV (s : State) (g : Group) (c : Issue) (ld : Nat) (r : Reg) : Nat := (srcV s.dev g c ld r.toNat).toNat

/-- Causes of ILLEGAL_OPERAND that the values of a word's leader give (R53). -/
def leadVals (f : State → Group → Launch → Issue → Nat → List (Nat × Nat)) (s : State) (c : Issue) (g : Group) (l : Launch) :
    List (Nat × Nat) :=
  match g.leader c.on with
  | none => []
  | some ld => f s g l c ld

/-- Those causes of a word that can be held: they are looked for before it is. -/
def leadCauses (f : State → Group → Launch → Issue → Nat → List (Nat × Nat)) (s : State) (c : Issue) (g : Group) (l : Launch) :
    List (Nat × Nat) :=
  if c.resume.isSome then [] else leadVals f s c g l

/-- ILLEGAL_OPERAND of `obj.init`: a count of 0, or an object that an operation names (R273). -/
def objInitCauses (a b : Reg) : State → Issue → Group → Launch → List (Nat × Nat) :=
  leadVals fun s g l c ld =>
    causeIf 2 ((objRefOf l g.key.block (leadV s g c ld a)).any s.dev.objNamed) ++ causeIf 3 (decide (leadV s g c ld b = 0))

/-- `obj.init` (R273). -/
def execObjInit (a : Reg) (b : Reg) (s : State) : Host.Outcome State Fault Refusal :=
  commit s (wordWith (.objInit a b) (objInitCauses a b) (fun c g l s =>
    match g.leader c.on with
    | none => []
    | some ld =>
      let code := leadV s g c ld a
      let exp := leadV s g c ld b
      match objAccess s.dev g l ld code true with
        | .error f => raise c f s
        | .ok x =>
          let o : ObjRef := ⟨x.store, x.off⟩
          Part.seq [
            Part.mod (fun d => ((d.touchRace g l x .other).plainOver o.store 0 o.addr 16).clearObjHeads o),
            objStore (some c.g) o 0 (leBytes 4 exp ++ List.replicate 12 0),
            watchWord c l.job (o.padBytes 0 16)] s) s)

/-- `obj.arrive` (R273): a release. -/
def execObjArrive (a : Reg) (b : Reg) (s : State) : Host.Outcome State Fault Refusal :=
  commit s (wordWith (.objArrive a b) (leadVals fun s g _ c ld => causeIf 3 (decide (leadV s g c ld b = 0))) (fun c g l s =>
    match g.leader c.on with
    | none => []
    | some ld =>
      let code := leadV s g c ld a
      let n := leadV s g c ld b
      match objAccess s.dev g l ld code true with
        | .error f => raise c f s
        | .ok x =>
          match g.timedOut true with
          | some t => raiseDeferred c t s
          | none =>
            let o : ObjRef := ⟨x.store, x.off⟩
            Part.seq [
              releaseReads c.g,
              Part.mod (fun d => d.touchRace g l x .other),
              (fun s => objArriveN (s.dev.releaseOf c.g x.space.scope) o n s),
              watchWord c l.job (o.padBytes 4 (if s.completes o n then 12 else 4))] s) s)

/-- The status pair of an object (R273). -/
def State.objStatus (s : State) (o : ObjRef) : Nat :=
  s.objPhase o + 2 ^ 16 * s.objErr o + 2 ^ 24 * s.objCause o +
    2 ^ 32 * (if s.objErr o = 0 then s.objArr o else s.objDetail o)

/-- A wait on an object: the fault that its completion raises, or what it acquires and then `done` (R178, R273, R286). -/
def objWaitWord (i : Instr) (a b : Reg) (fails : State → Issue → ObjRef → Nat → Option FaultInfo) (done : Issue → Group → ObjRef → Part)
    (s : State) : List Act :=
  word i (fun c g l s =>
    match g.leader c.on with
    | none => []
    | some ld =>
      let code := leadV s g c ld a
      let go (o : ObjRef) : Part := fun s =>
        let v := leadV s g c ld b % 2 ^ 16
        if s.objPhase o ≠ v ∧ g.objBusy o = false then
          match fails s c o code with
          | some f => raise c f s
          | none =>
            Part.seq [
              Part.mod (fun d => d.acquire c.g (codeScope l g.key.block code) (d.arrivers o v (s.objPhase o))),
              done c g o] s
        else match c.resume.map Hold.kind with
          | some (.obj _) => []
          | _ => holdLanes c i c.lanes (.obj code) 6 (.bar 0xFD (codeAddr code)) s
      if c.resume.isSome then
        match objRefOf l g.key.block code with
        | some o => go o s
        | none => []
      else match objAccess s.dev g l ld code false with
        | .error f => raise c f s
        | .ok x => Part.seq [Part.mod (fun d => d.touchRace g l x .other), go ⟨x.store, x.off⟩] s) s

/-- The batch goes on after a wait that held it. -/
def goOn (c : Issue) : Part := if c.resume.isSome then releaseLanes c.g c.lanes (pcNext c.loc) else Part.none

/-- Whether R181 lists a fault code. -/
def codeListed (n : Nat) : Bool :=
  (decide (1 ≤ n) && decide (n ≤ 0x0C)) || [0x10, 0x12, 0x13, 0x14, 0x15, 0x38, 0x39, 0x3A, 0x3F].contains n ||
  (decide (0x20 ≤ n) && decide (n ≤ 0x27)) || (decide (0x30 ≤ n) && decide (n ≤ 0x34))

/-- The fault of a phase that ended in an error: its code, or, where no code is listed as the object's byte, ILLEGAL_OPERAND of the object
(R16, R181, R273). -/
def objError (s : State) (c : Issue) (o : ObjRef) (code : Nat) : Option FaultInfo :=
  if s.objErr o = 0 then none
  else if codeListed (s.objErr o) then
    some { code := .raw (s.objErr o), faddr := codeAddr code, cause := pcSlot c.loc, aux := s.objDetail o }
  else some (valueFault c 2)

/-- `obj.wait` (R273): a phase that ended in an error is a precise fault. -/
def execObjWait (a : Reg) (b : Reg) (s : State) : Host.Outcome State Fault Refusal :=
  commit s (objWaitWord (.objWait a b) a b objError (fun c _ _ => goOn c) s)

/-- `obj.wait.st` (R273). -/
def execObjWaitSt (d : Reg) (a : Reg) (b : Reg) (s : State) : Host.Outcome State Fault Refusal :=
  commit s (objWaitWord (.objWaitSt d a b) a b (fun _ _ _ _ => none) (fun c g o s =>
    Part.seq [
      landSlots c.g (c.on.flatMap fun l => g.slots l d.toNat 2) (s.objStatus o),
      goOn c] s) s)

/-- `obj.poll` (R273). -/
def execObjPoll (d : Reg) (a : Reg) (s : State) : Host.Outcome State Fault Refusal :=
  commit s (word (.objPoll d a) (fun c g l s =>
    match g.leader c.on with
    | none => []
    | some ld =>
      match objAccess s.dev g l ld (leadV s g c ld a) false with
      | .error f => raise c f s
      | .ok x =>
        Part.seq [
          Part.mod (fun dv => dv.touchRace g l x .other),
          retire c.g (Instr.objPoll d a).latency
            (c.on.flatMap fun m => outRun g m d.toNat 2 (s.objStatus ⟨x.store, x.off⟩))] s) s)

/-! ### Opcode 0x35 (R279) -/

/-- When a request reached a cistern, and where from: reference time, die, die cycle, core, slot, and the number of its hold (R279). -/
structure Request where
  time : Nat
  die : Nat
  cycle : Nat
  core : Nat
  slot : Nat
  batch : Nat
  deriving DecidableEq, Repr

/-- The request of a group. -/
def Group.request (g : Group) (time cycle batch : Nat) : Request :=
  match g.place with
  | some p => ⟨time, p.die, cycle, p.core, p.slot, batch⟩
  | none => ⟨time, 0, cycle, 0, 0, batch⟩

/-- Whether a request comes before another: by its time, on one die by its die cycle, and then by die, core and slot (R279). -/
def Request.before (a b : Request) : Bool :=
  decide (a.time < b.time) || (decide (a.time = b.time) &&
    (decide (a.die < b.die) || (decide (a.die = b.die) &&
      (decide (a.cycle < b.cycle) || (decide (a.cycle = b.cycle) &&
        (decide (a.core < b.core) || (decide (a.core = b.core) &&
          (decide (a.slot < b.slot) || (decide (a.slot = b.slot) && decide (a.batch < b.batch))))))))))

/-- The batches that wait at a cistern: their requests, and whether they take. -/
def Dev.cstWaiters (d : Dev) (o : ObjRef) : List (Request × Bool) :=
  d.groups.flatMap fun g =>
    g.lanes.filterMap fun x =>
      match x.hold with
      | some h =>
        match h.kind, d.launch? g.key.launch with
        | .cst take code t cyc, some l => if objRefOf l g.key.block code = some o then some (g.request t cyc h.batch, take) else none
        | _, _ => none
      | none => none

/-- Whether a request is the first of its kind at a cistern: a new one comes after all that wait (R279). -/
def cstFirst (d : Dev) (g : Group) (o : ObjRef) (take : Bool) (c : Issue) : Bool :=
  (d.cstWaiters o).all fun w =>
    decide (w.2 ≠ take) ||
    match c.resume with
    | some h =>
      match h.kind with
      | .cst _ _ t cyc => !w.1.before (g.request t cyc h.batch)
      | _ => false
    | none => false

/-- Whether a cistern's reserved bytes are 0. -/
def State.cstOk (s : State) (o : ObjRef) : Bool := s.nat o.store (o.addr + 8) 8 == 0

/-- ILLEGAL_OPERAND of `cst.init`: a capacity out of its range, a reserved byte that is not 0, or a waiter (R279). -/
def cstInitCauses (a b : Reg) : State → Issue → Group → Launch → List (Nat × Nat) :=
  leadVals fun s g l c ld =>
    causeIf 2 ((objRefOf l g.key.block (leadV s g c ld a)).any fun o => !s.cstOk o || !(s.dev.cstWaiters o).isEmpty) ++
    causeIf 3 (decide (leadV s g c ld b = 0 ∨ 2 ^ 31 < leadV s g c ld b))

/-- `cst.init` (R279). -/
def execCstInit (a : Reg) (b : Reg) (s : State) : Host.Outcome State Fault Refusal :=
  commit s (wordWith (.cstInit a b) (cstInitCauses a b) (fun c g l s =>
    match g.leader c.on with
    | none => []
    | some ld =>
      let code := leadV s g c ld a
      let cap := leadV s g c ld b
      match objAccess s.dev g l ld code true with
        | .error f => raise c f s
        | .ok x =>
          let o : ObjRef := ⟨x.store, x.off⟩
          Part.seq [
            Part.mod (fun d => (d.touchRace g l x .other).clearObjHeads o),
            objStore (some c.g) o 0 (leBytes 4 0 ++ leBytes 4 cap),
            watchWord c l.job (o.padBytes 0 8)] s) s)

/-- A put or a take: checked, then held until its turn (R279). `first` is what a word that is held does at once, `act` what it does in its turn,
given the count. -/
def cstWord (i : Instr) (a : Reg) (take : Bool) (first : Issue → Group → ObjRef → Part)
    (act : Issue → Group → Launch → ObjRef → Nat → Nat → Part) (s : State) : List Act :=
  wordWith i
    (leadCauses fun s g l c ld => causeIf 2 ((objRefOf l g.key.block (leadV s g c ld a)).any fun o => !s.cstOk o))
    (fun c g l s =>
    match g.leader c.on with
    | none => []
    | some ld =>
      let code := leadV s g c ld a
      let go (o : ObjRef) : Part := fun s =>
        let count := s.nat o.store o.addr 4
        let ready : Bool :=
          (if take then decide (0 < count) else decide (count < s.nat o.store (o.addr + 4) 4)) &&
          !g.objBusy o && cstFirst s.dev g o take c
        if !take && !g.storesDone c then
          (if c.resume.isSome then [] else holdLanes c i c.lanes .retry 9 (.bar 0xFC (codeAddr code)) s)
        else match (if take then none else g.timedOut true) with
          | some t => raiseDeferred c t s
          | none =>
            if ready then Part.seq [act c g l o (codeScope l g.key.block code) count, goOn c] s
            else match c.resume.map Hold.kind with
              | some (.cst _ _ _ _) => []
              | _ => Part.seq [
                  holdLanes c i c.lanes (.cst take code s.dev.time (s.dev.now g)) 9 (.bar 0xFC (codeAddr code)),
                  first c g o] s
      if c.resume.isSome then
        match objRefOf l g.key.block code with
        | some o => go o s
        | none => []
      else match objAccess s.dev g l ld code true with
        | .error f => raise c f s
        | .ok x => Part.seq [Part.mod (fun d => d.touchRace g l x .other), go ⟨x.store, x.off⟩] s) s

/-- `cst.put` (R279): a release. -/
def execCstPut (a : Reg) (s : State) : Host.Outcome State Fault Refusal :=
  commit s (cstWord (.cstPut a) a false (fun _ _ _ => Part.none) (fun c _ l o scope n =>
    Part.seq [
      releaseReads c.g,
      Part.mod (fun d => d.setObjHeads o 0 (d.objHeads o 0 ++ [d.releaseOf c.g scope])),
      objStore (some c.g) o 0 (leBytes 4 (n + 1)),
      watchWord c l.job (o.padBytes 0 4)]) s)

/-- A take counts as a load from its issue on (R152, R279). -/
def countTake (c : Issue) (g : Group) (o : ObjRef) (ss : List Slot) (op : AccOp) : Part :=
  Part.mod fun d => d.issueAccesses c true 0 false false 0
    [((⟨(g.leader c.on).getD 0, 0, .pad, o.store, o.addr, 4, false⟩ : LaneAccess), op)] (slotRegs ss)

/-- `cst.take` (R279): an acquire; the count before it lands as a counted load. Which put's count it takes the spec does not say: that of the
oldest put whose count stands there (log 70). -/
def execCstTake (d : Reg) (a : Reg) (s : State) : Host.Outcome State Fault Refusal :=
  let slots (c : Issue) (g : Group) : List Slot := c.on.flatMap fun m => g.slots m d.toNat 1
  commit s (cstWord (.cstTake d a) a true
    (fun c g o => countTake c g o (slots c g) (.due false (slots c g)))
    (fun c g l o scope n => Part.seq [
      Part.mod (fun dv =>
        match dv.objHeads o 0 with
        | [] => dv
        | h :: hs => (dv.setObjHeads o 0 hs).acquire c.g scope [h]),
      objStore (some c.g) o 0 (leBytes 4 (n - 1)),
      (match c.resume with
        | some h => Part.mod fun dv => dv.modGroup c.g fun x => x.giveDue h.mark fun e => .value n (match e.op with | .due _ ss => ss | _ => [])
        | none => countTake c g o (slots c g) (.value n (slots c g))),
      watchWord c l.job (o.padBytes 0 4)]) s)

/-! ### Why such a word is not ready -/

/-- R136, R152, R285: an earlier access of the group to the place is on its way, a release waits for its stores, or a take would pass the
counter. -/
def objBlocked (s : State) (c : Issue) (g : Group) (l : Launch) (i : Instr) : Option (Nat × Watchdog) :=
  let busy (a : Reg) : Bool :=
    match g.leader c.on with
    | none => false
    | some ld =>
      match objRefOf l g.key.block (leadV s g c ld a) with
      | some o => g.objBusy o
      | none => false
  match i with
  | .objInit a _ => if busy a then some (4, .none) else none
  | .objArrive a _ => if busy a || !g.storesDone c then some (4, .none) else none
  | .objPoll _ a => if busy a then some (4, .none) else none
  | .cstInit a _ => if busy a then some (4, .none) else none
  | .cstTake _ _ => if (g.leader c.on).isSome && decide (63 ≤ g.outstanding) then some (4, .none) else none
  | _ => none

end Sys2Proof.Machine
end

