-- ==== Sys2Proof/Machine/Copies.lean ====
section
/-!
DEFINITION. What a copy moves (R261 to R267): layout records, and for each destination byte where it comes from.
-/

namespace Sys2Proof.Machine

/-! ### Layout records (R261, R263) -/

/-- Half bytes of an element of a format (R65, R261). -/
def fmtNibbles (fmt : Nat) : Nat :=
  match fmt with
  | 0 => 8
  | 1 => 4
  | 2 => 4
  | 5 => 1
  | 7 => 8
  | 9 => 16
  | _ => 2

/-- The record in 32 bytes. -/
def layoutOf (bs : List Byte) : Layout :=
  let f (off n : Nat) : Nat := leNat ((bs.drop off).take n)
  { base := f 0 8 % 2 ^ 57, sax := bits (f 0 8) 57 1, fmt := bits (f 0 8) 60 4, scale := f 8 8, band := f 0x10 8
    rows := f 0x18 2, cols := f 0x1A 2, stride := f 0x1C 4 }

/-- Bytes of `n` elements side by side. -/
def Layout.span (y : Layout) (n : Nat) : Nat := (n * fmtNibbles y.fmt + 1) / 2

/-- Whether a record passes R263; `bs` are its bytes. -/
def layoutOk (bs : List Byte) : Bool :=
  let y := layoutOf bs
  let unit := max 1 (fmtNibbles y.fmt / 2)
  decide (y.fmt ≤ 9) && decide (y.rows ≠ 0) && decide (y.cols ≠ 0) && decide (y.base % unit = 0) &&
  decide (y.stride % unit = 0) && decide (y.span y.cols ≤ y.stride) &&
  decide (bits (leNat (bs.take 8)) 58 2 = 0) &&
  (if y.fmt = 5 then decide (y.scale ≠ 0) && decide (y.scale < 2 ^ 57) && decide (y.band < 2 ^ 57)
    else decide (y.scale = 0) && decide (y.band = 0))

/-! ### The window and the array (R265 to R267) -/

/-- A tensor copy: its record, whether it transposes, the pitch register and the window. -/
structure Geom where
  y : Layout
  t : Bool
  p : Nat
  row0 : Nat
  col0 : Nat
  nr : Nat
  nc : Nat
  deriving DecidableEq, Repr

/-- The copy that operand registers name. -/
def geomOf (y : Layout) (t : Bool) (regs : List Nat) : Geom :=
  ⟨y, t, regs.getD 1 0, regs.getD 3 0 % 2 ^ 16, regs.getD 3 0 / 2 ^ 16, regs.getD 4 0 % 2 ^ 16, regs.getD 4 0 / 2 ^ 16⟩

def Geom.ro (g : Geom) : Nat := if g.t then g.nc else g.nr
def Geom.co (g : Geom) : Nat := if g.t then g.nr else g.nc
def Geom.rb (g : Geom) : Nat := g.y.span g.co
def Geom.pitch (g : Geom) : Nat := if g.p = 0 then g.rb else g.p
def Geom.blocked (g : Geom) : Bool := decide (g.y.fmt = 5)
/-- The on-chip scale axis (R267). -/
def Geom.axis (g : Geom) : Nat := if g.t then 1 - g.y.sax else g.y.sax
/-- Bytes of the on-chip block scales. -/
def Geom.scaleBytes (g : Geom) : Nat :=
  if g.blocked then (if g.axis = 0 then g.ro * (g.co / 8) else g.ro / 8 * g.co) else 0
/-- The first 64-band that the window touches, and how many. -/
def Geom.band0 (g : Geom) : Nat := (if g.y.sax = 0 then g.row0 else g.col0) / 64
def Geom.bands (g : Geom) : Nat :=
  if g.blocked then
    (if g.y.sax = 0 then (g.row0 + g.nr - 1) / 64 else (g.col0 + g.nc - 1) / 64) + 1 - g.band0
  else 0
/-- Bytes from the start of the on-chip array to the end of its scales. -/
def Geom.extent (g : Geom) : Nat :=
  if g.blocked then g.ro * g.pitch + g.scaleBytes + 2 * g.bands else (g.ro - 1) * g.pitch + g.rb

/-- The faults of R266 and R267 that the record brings. -/
def Geom.bad (g : Geom) : Bool :=
  (decide (g.p ≠ 0) && decide (g.p < g.rb)) ||
  (g.blocked && (if g.y.sax = 0 then decide (g.col0 % 8 ≠ 0) || decide (g.nc % 8 ≠ 0)
    else decide (g.row0 % 8 ≠ 0) || decide (g.nr % 8 ≠ 0)))

/-- Row and column of the tensor of on-chip element (i, j), where it lies inside. -/
def Geom.tensor (g : Geom) (i j : Nat) : Option (Nat × Nat) :=
  let r := g.row0 + if g.t then j else i
  let c := g.col0 + if g.t then i else j
  if r < g.y.rows ∧ c < g.y.cols then some (r, c) else none

/-- The block scale of a tensor element (R262). -/
def Layout.scaleVa (y : Layout) (r c : Nat) : Nat :=
  if y.sax = 0 then y.scale + r * ((y.cols + 7) / 8) + c / 8 else y.scale + r / 8 * y.cols + c

/-! ### Tensor to on-chip -/

/-- A half byte in a byte: its address, and whether it is the high one. -/
abbrev Nib := Nat × Bool

/-- Where a byte comes from: a value, a byte, or two half bytes each of which may be 0. -/
inductive Src where
  | const (b : Nat)
  | byte (a : Nat)
  | nibs (lo hi : Option Nib)
  deriving DecidableEq, Repr

/-- The source of the on-chip byte `x` bytes after the array's start; `none` where nothing is written (R266, R267). -/
def Geom.chipSrc (g : Geom) (x : Nat) : Option Src :=
  let arr := g.ro * g.pitch
  if x < arr then
    let i := x / g.pitch
    let w := x % g.pitch
    if g.rb ≤ w then none
    else if g.blocked then
      let nib (j : Nat) : Option Nib :=
        if g.co ≤ j then none
        else (g.tensor i j).map fun e => (g.y.base + e.1 * g.y.stride + e.2 / 2, decide (e.2 % 2 = 1))
      some (.nibs (nib (2 * w)) (nib (2 * w + 1)))
    else
      let sz := fmtNibbles g.y.fmt / 2
      match g.tensor i (w / sz) with
      | some e => some (.byte (g.y.base + e.1 * g.y.stride + e.2 * sz + w % sz))
      | none => some (.const 0)
  else if !g.blocked then none
  else if x - arr < g.scaleBytes then
    let z := x - arr
    let e := if g.axis = 0 then g.tensor (z / (g.co / 8)) (8 * (z % (g.co / 8))) else g.tensor (8 * (z / g.co)) (z % g.co)
    match e with
    | some e => some (.byte (g.y.scaleVa e.1 e.2))
    | none => some (.const 0x60)
  else
    let z := x - arr - g.scaleBytes
    if 2 * g.bands ≤ z then none
    else
      let h := g.band0 + z / 2
      if g.y.band = 0 ∨ (if g.y.sax = 0 then g.y.rows else g.y.cols) ≤ 64 * h then some (.const (if z % 2 = 0 then 0x80 else 0x3F))
      else some (.byte (g.y.band + 2 * h + z % 2))

/-- The virtual addresses that a source reads. -/
def Src.reads : Src → List Nat
  | .const _ => []
  | .byte a => [a]
  | .nibs lo hi => (lo.map Prod.fst).toList ++ (hi.map Prod.fst).toList

/-- The byte that a source gives. -/
def Src.value (rd : Nat → Byte) : Src → Byte
  | .const b => BitVec.ofNat 8 b
  | .byte a => rd a
  | .nibs lo hi =>
    let nib (n : Option Nib) : Nat :=
      match n with
      | some e => if e.2 then (rd e.1).toNat / 16 else (rd e.1).toNat % 16
      | none => 0
    BitVec.ofNat 8 (nib lo + 16 * nib hi)

/-! ### On-chip to tensor -/

/-- What an on-chip array gives a byte of main memory: a byte, or half bytes, of which one may stay as it was. -/
inductive Back where
  | byte (off : Nat)
  | nibs (lo hi : Option Nib)
  deriving DecidableEq, Repr

/-- The on-chip offset of a half byte of element (i, j). -/
def Geom.chipNib (g : Geom) (i j : Nat) : Nib := (i * g.pitch + j / 2, decide (j % 2 = 1))

/-- On-chip row and column of a tensor element in the window. -/
def Geom.inWindow (g : Geom) (r c : Nat) : Option (Nat × Nat) :=
  if g.row0 ≤ r ∧ r < g.row0 + g.nr ∧ r < g.y.rows ∧ g.col0 ≤ c ∧ c < g.col0 + g.nc ∧ c < g.y.cols then
    some (if g.t then (c - g.col0, r - g.row0) else (r - g.row0, c - g.col0))
  else none

/-- What the elements give the byte at a virtual address. -/
def Geom.backElt (g : Geom) (va : Nat) : Option Back :=
  if va < g.y.base then none
  else
    let r := (va - g.y.base) / g.y.stride
    let w := (va - g.y.base) % g.y.stride
    if g.blocked then
      let lo := (g.inWindow r (2 * w)).map fun e => g.chipNib e.1 e.2
      let hi := (g.inWindow r (2 * w + 1)).map fun e => g.chipNib e.1 e.2
      if lo.isNone ∧ hi.isNone then none else some (.nibs lo hi)
    else
      let sz := fmtNibbles g.y.fmt / 2
      (g.inWindow r (w / sz)).map fun e => .byte (e.1 * g.pitch + e.2 * sz + w % sz)

/-- What the block scales give the byte at a virtual address (R267). -/
def Geom.backScale (g : Geom) (va : Nat) : Option Back :=
  if !g.blocked ∨ va < g.y.scale then none
  else
    let z := va - g.y.scale
    let cw := (g.y.cols + 7) / 8
    let e := if g.y.sax = 0 then g.inWindow (z / cw) (8 * (z % cw)) else g.inWindow (8 * (z / g.y.cols)) (z % g.y.cols)
    e.map fun e =>
      .byte (g.ro * g.pitch + (if g.axis = 0 then e.1 * (g.co / 8) + e.2 / 8 else e.1 / 8 * g.co + e.2))

def Geom.back (g : Geom) (va : Nat) : Option Back :=
  match g.backElt va with
  | some b => some b
  | none => g.backScale va

/-- The byte written, from the array's bytes and the byte before. -/
def Back.value (rd : Nat → Byte) (old : Byte) : Back → Byte
  | .byte off => rd off
  | .nibs lo hi =>
    let nib (n : Option Nib) (k : Nat) : Nat :=
      match n with
      | some e => if e.2 then (rd e.1).toNat / 16 else (rd e.1).toNat % 16
      | none => old.toNat / 16 ^ k % 16
    BitVec.ofNat 8 (nib lo 0 + 16 * nib hi 1)

/-- Runs of virtual addresses that the window's elements and scales lie in, inside the tensor: first address and bytes. -/
def Geom.runs (g : Geom) : List (Nat × Nat) :=
  let r1 := min (g.row0 + g.nr) g.y.rows
  let c1 := min (g.col0 + g.nc) g.y.cols
  if r1 ≤ g.row0 ∨ c1 ≤ g.col0 then []
  else
    let nib := fmtNibbles g.y.fmt
    let lo := g.col0 * nib / 2
    let elts := (countFrom g.row0 (r1 - g.row0)).map fun r => (g.y.base + r * g.y.stride + lo, (c1 * nib + 1) / 2 - lo)
    let scales :=
      if !g.blocked then []
      else if g.y.sax = 0 then
        (countFrom g.row0 (r1 - g.row0)).map fun r => (g.y.scaleVa r g.col0, (c1 + 7) / 8 - g.col0 / 8)
      else (countFrom (g.row0 / 8) ((r1 + 7) / 8 - g.row0 / 8)).map fun k => (g.y.scaleVa (8 * k) g.col0, c1 - g.col0)
    elts ++ scales

/-- The bytes that the band scales of a window take in main memory. -/
def Geom.bandRun (g : Geom) : List (Nat × Nat) :=
  if g.blocked ∧ g.y.band ≠ 0 then [(g.y.band + 2 * g.band0, 2 * g.bands)] else []

/-- The destination pages of an on-chip range, and of the runs of a window (R275). -/
def chipPages (off n : Nat) : List Nat := if n = 0 then [] else countFrom (off / 4096) ((off + n - 1) / 4096 + 1 - off / 4096)
def Geom.vaPages (g : Geom) : List Nat := sortNat (g.runs.flatMap fun r => chipPages r.1 r.2)

/-- Bytes that a tensor copy writes: what it arrives with (R272). -/
def Geom.bytesIn (g : Geom) : Nat := g.ro * g.rb + g.scaleBytes + 2 * g.bands
def Geom.bytesOut (g : Geom) : Nat := natSum (g.runs.map Prod.snd)

end Sys2Proof.Machine
end

