-- ==== Sys2Proof/Machine/Engines.lean ====
section
/-!
DEFINITION. The copy and gather engines (R264 to R278, R319 to R321): acceptance, the headgate table, commits, page faults, failures,
and the opcodes 0x3B but for `mig.post`, and 0x3C.
-/

namespace Sys2Proof.Machine

/-! ### Operations in flight -/

def Dev.op? (d : Dev) (id : Nat) : Option EngineOp := d.ops.find? fun p => decide (p.id = id)
def Dev.setOp (d : Dev) (p : EngineOp) : Dev := { d with ops := upsert (fun x => decide (x.id = p.id)) p d.ops }

/-- The engine's code (R270). -/
def OpKind.engine : OpKind → Nat
  | .g2s _ | .s2g _ | .s2s => 0
  | .gat _ => 1
  | .mig => 2
  | .put | .get | .ratom _ _ | .coll => 4

/-- Whether an operation is a remote copy or atomic. -/
def OpKind.isRemote : OpKind → Bool
  | .put | .get | .ratom _ _ => true
  | _ => false

/-- Whether the copy engine does an operation. -/
def OpKind.isCopy : OpKind → Bool
  | .g2s _ | .s2g _ | .s2s => true
  | _ => false

/-- Whether an operation writes this package's main memory in the weir's order (R280). -/
def OpKind.writesMain : OpKind → Bool
  | .s2g _ | .coll => true
  | _ => false

/-- Whether an operation changes main memory or its frames, for the order between operations of a group (R268, R292). -/
def OpKind.altersMain : OpKind → Bool
  | .s2g _ | .mig => true
  | _ => false

/-- The tensor copy that an operation is. -/
def EngineOp.geom (p : EngineOp) : Option Geom :=
  match p.kind, p.layout with
  | .g2s t, some y => some (geomOf y t p.regs)
  | .s2g t, some y => some (geomOf y t p.regs)
  | _, _ => none

/-- The offset in its store of an on-chip address. -/
def Store.off (st : Store) (addr : Nat) : Nat :=
  match st with
  | .pad => addr
  | .blk _ _ => addr % 2 ^ 18

def EngineOp.reg (p : EngineOp) (k : Nat) : Nat := p.regs.getD k 0

/-- An on-chip range: its store, first byte, bytes, and whether it is written. -/
structure ChipRange where
  store : Store
  lo : Nat
  n : Nat
  dst : Bool
  deriving DecidableEq, Repr

/-- The lowest and the end of some lanes' destinations in one store (R269). -/
def gatRange (size : Nat) (ls : List GatLane) (st : Store) : ChipRange :=
  let xs := ls.filter fun x => decide (x.store = st)
  let lo := xs.foldl (fun a x => min a x.dst) ((xs.map GatLane.dst).headD 0)
  let hi := xs.foldl (fun a x => max a (x.dst + size)) 0
  ⟨st, lo, hi - lo, true⟩

/-- The on-chip ranges of an operation (R269, R359). -/
def EngineOp.ranges (p : EngineOp) : List ChipRange :=
  match p.kind with
  | .g2s _ | .s2g _ =>
    match p.geom with
    | some g => [⟨p.storeA, p.storeA.off (p.reg 0), g.extent, match p.kind with | .g2s _ => true | _ => false⟩]
    | none => []
  | .s2s => [⟨p.storeA, p.storeA.off (p.reg 0), p.reg 2, false⟩, ⟨p.storeB, p.storeB.off (p.reg 1), p.reg 2, true⟩]
  | .gat size => ((p.lanes.map GatLane.store).eraseDups).map (gatRange size p.lanes)
  | .put => [⟨p.storeA, p.storeA.off (codeAddr (p.reg 0)), p.reg 4, false⟩]
  | .get => [⟨p.storeA, p.storeA.off (codeAddr (p.reg 0)), p.reg 4, true⟩]
  | .ratom op _ =>
    [⟨p.storeA, p.storeA.off (codeAddr (p.reg 0)), (match op with | .op a => aopSize a | .casB32 => 4), true⟩]
  | .mig | .coll => []

/-- The dies whose headgate tables hold a range (R269). -/
def Dev.rangeDies (d : Dev) (st : Store) (lo n : Nat) : List Nat :=
  match st with
  | .pad => countFrom (padHome lo) (padHome (lo + n - 1) + 1 - padHome lo)
  | .blk l b =>
    match d.block? l b with
    | some x => (match x.cluster with | some c => [c.1] | none => [])
    | none => []

/-- Entries of a die's headgate table (R269). -/
def Dev.gateUsed (d : Dev) (die : Nat) : Nat :=
  (d.gate.filter fun r => (d.rangeDies r.store r.lo (r.hi - r.lo)).contains die).length

/-- Whether some ranges find room in the headgate tables. -/
def Dev.gateRoom (d : Dev) (rs : List ChipRange) : Bool :=
  (countFrom 0 6).all fun die =>
    let k := (rs.filter fun r => (d.rangeDies r.store r.lo r.n).contains die).length
    k == 0 || decide (d.gateUsed die + k ≤ 4096)

/-- The lowest free entry of a die's operand log (R320; log 22). -/
def Dev.logIndex (d : Dev) (die : Nat) : Option Nat :=
  (countFrom 0 256).find? fun k =>
    !(d.ops.any fun p => decide (p.die = die) && decide (p.index = k)) &&
    !(d.heldReqs.any fun h => decide (h.req.link / 3 = die) && decide (h.index = some k))

/-- A range registered, rounded outward to granules (R269). -/
def ChipRange.entry (r : ChipRange) (op job engine : Nat) : GateRange :=
  ⟨op, job, r.dst, r.store, r.lo / 32 * 32, (r.lo + r.n + 31) / 32 * 32, engine, false, r.lo, r.n, none⟩

/-- Whether an operation writes a byte of a store. -/
def EngineOp.writesAt (p : EngineOp) (st : Store) (a : Nat) : Bool :=
  match p.kind with
  | .g2s _ =>
    decide (p.storeA = st) && decide (p.storeA.off (p.reg 0) ≤ a) &&
    (match p.geom with | some g => (g.chipSrc (a - p.storeA.off (p.reg 0))).isSome | none => false)
  | .gat size => p.lanes.any fun x => decide (x.store = st) && decide (x.dst ≤ a) && decide (a < x.dst + size)
  | _ => p.ranges.any fun r => r.dst && decide (r.store = st) && decide (r.lo ≤ a) && decide (a < r.lo + r.n)

/-- Records and descriptors that a batch holds in the headgate tables, released as they are read (R269, R359). -/
def Dev.unheld (d : Dev) (k : GKey) (lane : Nat) : Dev := { d with gate := d.gate.filter fun r => decide (r.holder ≠ some (k, lane)) }

/-- The number under which a batch's held word has registered its ranges: its operation keeps it (R269, R271). -/
def Dev.heldId (d : Dev) (k : GKey) (lane : Nat) : Option Nat := (d.gate.find? fun r => decide (r.holder = some (k, lane))).map GateRange.op

/-- The job of a group's launch. -/
def Dev.jobFor (d : Dev) (k : GKey) : Nat := match d.launch? k.launch with | some l => l.job | none => 0

/-- An operation that a group's word posts, with its place in the weir's order (R265, R280, R320). -/
def newOp (s : State) (c : Issue) (g : Group) (ld : Nat) (kind : OpKind) (regs : List Nat) (index : Nat)
    (layout : Option Layout) (a b : Store) (obj : Option ObjRef) (lanes : List GatLane) : EngineOp where
  id := (s.dev.heldId c.g ld).getD s.dev.opSeq
  index := index
  kind := kind
  die := match g.place with | some p => p.die | none => 0
  job := s.dev.jobFor c.g
  launch := c.g.launch
  g := c.g
  lane := ld
  loc := c.loc
  regs := regs
  layout := layout
  storeA := a
  storeB := b
  object := obj
  phase := match s.dev.launch? c.g.launch with | some l => l.gridPhase | none => 0
  seq := match s.dev.block? c.g.launch c.g.block with | some x => x.weirSeq | none => 0
  det := g.det
  lanes := lanes
  done := 0
  started := false
  held := none
  failed := none
  metUe := false
  move := .ready
  timer := 0
  ask := 0
  remoteHeld := false
  link := none
  links := []
  sent := false
  knows := g.knows

/-- The trace record of an operation: 6 at its issue, 7 at its arrival (R379). -/
def traceOp (p : EngineOp) (type : Nat) : Part :=
  traceRec p.job p.die type (p.index + 256 * p.kind.engine)
    (match p.object with
      | some o => o.addr + if o.store = .pad then 2 ^ 31 else 0
      | none => noObject)

/-- The engine takes an operation: what is left to read before it is read (R291), it gets an entry of the operand log, and its ranges are
registered (R269, R320). -/
def acceptOp (p : EngineOp) : Part :=
  Part.seq [
    releaseReads p.g,
    Part.each (p.ranges.filter ChipRange.dst) (fun r s => [.dev (s.takeAt r.store r.lo (r.lo + r.n))]),
    Part.mod fun d =>
      let d1 := (d.unheld p.g p.lane).modBlock p.launch p.g.block fun x => { x with weirSeq := x.weirSeq + 1 }
      { d1 with
        ops := d1.ops ++ [p]
        opSeq := max d1.opSeq (p.id + 1)
        gate := d1.gate ++ p.ranges.map fun r => r.entry p.id p.job p.kind.engine },
    traceOp p 6]

/-- The die of a group. -/
def Group.die (g : Group) : Nat := match g.place with | some p => p.die | none => 0

/-- An engine word that its engine accepts, where there is room; else the batch waits as reason 3 (R265, R269, R320). -/
def acceptWith (c : Issue) (g : Group) (i : Instr) (mk : Nat → EngineOp) (more : EngineOp → Part) : Part := fun s =>
  match s.dev.logIndex g.die with
  | some k =>
    let p := mk k
    if (s.dev.unheld p.g p.lane).gateRoom p.ranges then Part.seq [acceptOp p, more p, goOn c] s
    else if c.resume.isSome then [] else holdLanes c i c.lanes .retry 3 .none s
  | none => if c.resume.isSome then [] else holdLanes c i c.lanes .retry 3 .none s

/-- A batch whose engine word has to wait: the ranges that it names are registered at its issue, under the number that its operation will have,
where there is room; reads made before see no write of it (R265, R269, R291, R359). -/
def holdRanges (c : Issue) (i : Instr) (ld : Nat) (rs : List ChipRange) (engine : Nat) : Part := fun s =>
  Part.seq [
    (if (s.dev.heldId c.g ld).isSome || !s.dev.gateRoom rs then Part.none
      else Part.seq [
        Part.each (rs.filter ChipRange.dst) (fun r s => [.dev (s.takeAt r.store r.lo (r.lo + r.n))]),
        Part.mod fun d => { d with
          opSeq := d.opSeq + 1
          gate := d.gate ++ rs.map fun r => { r.entry d.opSeq (d.jobFor c.g) engine with holder := some (c.g, ld) } }]),
    if c.resume.isSome then Part.none else holdLanes c i c.lanes .retry 3 .none] s

/-- An engine word with nothing to do beyond its acceptance. -/
def acceptWord (c : Issue) (g : Group) (i : Instr) (mk : Nat → EngineOp) : Part := acceptWith c g i mk fun _ => Part.none

/-! ### Opcode 0x3B: the copies (R264 to R267) -/

/-- The operand group of the leader. -/
def opGroup (s : State) (g : Group) (c : Issue) (ld : Nat) (r : Reg) (n : Nat) : List Nat :=
  (countFrom r.toNat n).map fun k => (srcV s.dev g c ld k).toNat

/-- Step 1 of a copy between main memory and the chip (R265). -/
def copyStep1 (v : List Nat) : Bool :=
  decide (v.getD 4 0 % 2 ^ 16 = 0) || decide (v.getD 4 0 / 2 ^ 16 = 0) || decide (v.getD 1 0 % 16 ≠ 0)

/-- The object that a word names, for its operation. -/
def objOf (l : Launch) (block code : Nat) : Option ObjRef := if code = noObject then none else objRefOf l block code

/-- The check of the object a word names, where it names one. -/
def objChecks (d : Dev) (l : Launch) (j : Job) (block code : Nat) : List (Nat × Except (AccFault × Space) Target) :=
  if code = noObject then [] else [(codeAddr code, objRange d l j block code)]

/-- A copy between main memory and the chip, after its operand group is read: steps 2 to 4 of R265. -/
def copyBody (i : Instr) (kind : OpKind) (t toChip pad : Bool) (c : Issue) (g : Group) (l : Launch) (ld : Nat) (v : List Nat) : Part :=
  fun s =>
    let j := s.dev.jobOf l
    let rc := v.getD 2 0
    match readRange s.dev l j g.key.block rc 32 32 with
    | .error f => raise c (rangeFault ld (codeAddr rc) f) s
    | .ok rt =>
      if !g.storesDone c then holdRanges c i ld [⟨rt.store, rt.off, 32, false⟩] 0 s
      else
        let bs := s.bytes rt.store rt.off 32
        let y := layoutOf bs
        let ge := geomOf y t v
        if !layoutOk bs ∨ ge.bad then raise c (valueFault c 1) s
        else
          let arr := arrayRange s.dev l j g.key.block pad (v.getD 0 0) ge.extent 16 fun k => toChip && (ge.chipSrc k).isSome
          match worstRange ld ((v.getD 0 0, arr) :: objChecks s.dev l j g.key.block (v.getD 5 0)), arr with
          | some f, _ => raise c f s
          | none, .ok at_ =>
            acceptWord c g i (fun k => newOp s c g ld kind v k (some y) at_.store at_.store (objOf l g.key.block (v.getD 5 0)) []) s
          | none, .error _ => []

/-- The cause of ILLEGAL_OPERAND that the values of a leader's operand group of `n` registers bring, named with the word's field (R53, R265). -/
def groupCauses (field : Nat) (r : Reg) (n : Nat) (bad : State → List Nat → Bool) : State → Issue → Group → Launch → List (Nat × Nat) :=
  leadCauses fun s g _ c ld => causeIf field (bad s (opGroup s g c ld r n))

/-- A copy word (R265). -/
def copyWord (i : Instr) (r : Reg) (kind : OpKind) (t toChip pad : Bool) (s : State) : List Act :=
  wordWith i (groupCauses 1 r 6 fun _ v => copyStep1 v) (fun c g l s =>
    match g.leader c.on with
    | none => []
    | some ld => copyBody i kind t toChip pad c g l ld (opGroup s g c ld r 6) s) s

/-- `cp.g2s` (R265, R266). -/
def execCpG2s (g : Reg) (x : Bool) (s : State) : Host.Outcome State Fault Refusal :=
  commit s (copyWord (.cpG2s g x) g (.g2s false) false true x s)
/-- `cp.s2g` (R265, R266). -/
def execCpS2g (g : Reg) (x : Bool) (s : State) : Host.Outcome State Fault Refusal :=
  commit s (copyWord (.cpS2g g x) g (.s2g false) false false x s)
/-- `cp.t.g2s` (R265, R266). -/
def execCpTG2s (g : Reg) (x : Bool) (s : State) : Host.Outcome State Fault Refusal :=
  commit s (copyWord (.cpTG2s g x) g (.g2s true) true true x s)
/-- `cp.t.s2g` (R265, R266). -/
def execCpTS2g (g : Reg) (x : Bool) (s : State) : Host.Outcome State Fault Refusal :=
  commit s (copyWord (.cpTS2g g x) g (.s2g true) true false x s)

/-- Where an address lies, existing or not: the pad, a block's memory, or one of the windows of 256 KiB beyond those that name a block. -/
def addrPlace (l : Launch) (block : Nat) (pad : Bool) (a : Nat) : Nat × Nat :=
  if pad then (0, a)
  else if 2 ^ 21 ≤ a then (2 ^ 40 + a / 2 ^ 18, a % 2 ^ 18)
  else if bitAt a 20 then (1 + l.gangOf block * l.gang + bits a 18 2, a % 2 ^ 18)
  else (if bits a 18 2 = 0 then 1 + block else 2 ^ 40 + a / 2 ^ 18, a % 2 ^ 18)

/-- Whether the source and the destination of `cp.s2s` overlap: a check of their values, made before either's bounds (R265). -/
def s2sOverlap (l : Launch) (block : Nat) (sp dp : Bool) (a b n : Nat) : Bool :=
  let x := addrPlace l block sp a
  let y := addrPlace l block dp b
  decide (x.1 = y.1) && decide (x.2 < y.2 + n) && decide (y.2 < x.2 + n)

/-- Step 1 of `cp.s2s` (R265). -/
def s2sStep1 (l : Launch) (block : Nat) (sp dp : Bool) (v : List Nat) : Bool :=
  let n := v.getD 2 0
  decide (v.getD 3 0 ≠ 0) || decide (v.getD 4 0 ≠ 0) || decide (n % 16 ≠ 0) || decide (n < 16) || decide (2 ^ 24 < n) ||
  s2sOverlap l block sp dp (v.getD 0 0) (v.getD 1 0) n

/-- `cp.s2s` (R265). -/
def execCpS2s (g : Reg) (y : Bool) (x : Bool) (s : State) : Host.Outcome State Fault Refusal :=
  commit s (wordWith (.cpS2s g y x)
    (fun s c gr l => groupCauses 1 g 6 (fun _ v => s2sStep1 l gr.key.block x y v) s c gr l)
    (fun c gr l s =>
      match gr.leader c.on with
      | none => []
      | some ld =>
        let v := opGroup s gr c ld g 6
        let j := s.dev.jobOf l
        let n := v.getD 2 0
        let src := arrayRange s.dev l j gr.key.block x (v.getD 0 0) n 16 noBytes
        let dst := arrayRange s.dev l j gr.key.block y (v.getD 1 0) n 16 (wholeOf n)
        match (if c.resume.isSome then none
            else worstRange ld ([(v.getD 0 0, src), (v.getD 1 0, dst)] ++ objChecks s.dev l j gr.key.block (v.getD 5 0))), src, dst with
        | some f, _, _ => raise c f s
        | none, .ok a, .ok b =>
          if !gr.storesDone c then holdRanges c (.cpS2s g y x) ld [⟨a.store, a.off, n, false⟩, ⟨b.store, b.off, n, true⟩] 0 s
          else acceptWord c gr (.cpS2s g y x)
            (fun k => newOp s c gr ld .s2s v k none a.store b.store (objOf l gr.key.block (v.getD 5 0)) []) s
        | none, _, _ => []) s)

/-! ### Opcode 0x3C: the gather (R277) -/

/-- `gat` (R277). -/
def execGat (d : Reg) (a : Reg) (b : Reg) (p : Bool) (z : BitVec 2) (s : State) : Host.Outcome State Fault Refusal :=
  commit s (word (.gat d a b p z) (fun c g l s =>
    match g.leader c.on with
    | none => []
    | some ld =>
      let size := 4 * 2 ^ z.toNat
      let j := s.dev.jobOf l
      let code := leadV s g c ld b
      let ms := (c.on.filter g.isLive).map fun m => (m, (srcV s.dev g c m a.toNat).toNat)
      let ts := ms.filterMap fun m => (memTarget l g.key.block p m.2 size).2
      let rs := ms.map fun m => (m.1, m.2, rangeOf l j g.key.block p m.2 size size fun t =>
        s.dev.lockHit j.id t.store t.off size fun a => ts.any fun x => decide (x.store = t.store) && decide (x.off ≤ a) && decide (a < x.off + size))
      let laneBad := rs.filterMap fun r => match r.2.2 with | .error f => some (r.1, r.2.1, f.1, f.2) | .ok _ => none
      let objBad := (objChecks s.dev l j g.key.block code).filterMap fun r =>
        match r.2 with | .error f => some (ld, r.1, f.1, f.2) | .ok _ => none
      match worstFault (laneBad ++ objBad) with
      | some f =>
        raise c (accessFault (if laneBad.contains f then sizeCode size else 6) f) s
      | none =>
        let lanes := rs.filterMap fun r =>
          match r.2.2 with
          | .ok t => some (⟨r.1, srcV64 s.dev g c r.1 d.toNat, t.store, t.off, false, false, 0⟩ : GatLane)
          | .error _ => none
        acceptWord c g (.gat d a b p z) (fun k =>
          newOp s c g ld (.gat size) [] k none .pad .pad (objOf l g.key.block code) lanes) s) s)

/-! ### Order between operations (R268, R271) -/

/-- Whether a dump under way holds a job's operations (R367). -/
def Dev.dumpHolds (d : Dev) (job : Nat) : Bool :=
  match d.dump with
  | some x => decide (x.job = job)
  | none => false

/-- Runs of virtual addresses that an operation reads or writes in main memory, or whose frames it changes. -/
def EngineOp.mainRuns (p : EngineOp) : List (Nat × Nat) :=
  match p.kind with
  | .mig => [(p.reg 0 + 2 ^ 32 * p.reg 1, 4096 * p.reg 2)]
  | .gat size => p.lanes.map fun x => (x.va, size)
  | k =>
    match p.geom with
    | some g => g.runs ++ (match k with | .g2s _ => g.bandRun | _ => [])
    | none => []

/-- Whether some runs of addresses meet. -/
def runsMeet (a b : List (Nat × Nat)) : Bool := a.any fun x => b.any fun y => decide (x.1 < y.1 + y.2) && decide (y.1 < x.1 + x.2)

/-- Whether two operations' ranges meet with one of them writing (R268). -/
def EngineOp.clashes (p q : EngineOp) : Bool :=
  (p.ranges.any fun x => q.ranges.any fun y =>
    decide (x.store = y.store) && decide (x.lo < y.lo + y.n) && decide (y.lo < x.lo + x.n) && (x.dst || y.dst)) ||
  ((p.kind.altersMain || q.kind.altersMain) && runsMeet p.mainRuns q.mainRuns)

/-- Whether a range registered by an earlier operation keeps an engine waiting that writes the bytes `writes` (R271, R276). -/
def Dev.gated (d : Dev) (id job : Nat) (writes : Store → Nat → Bool) (r : ChipRange) : Bool :=
  d.gate.any fun e =>
    decide (e.op < id) && decide (e.store = r.store) && decide (e.lo < r.lo + r.n) && decide (r.lo < e.hi) && (r.dst || e.dst) &&
    !e.rewritten job (writes r.store)

/-- Whether an earlier operation of the same group on the same one of the die's own engines comes first: it has not started, or it
overlaps (R268, R292). -/
def Dev.behindOwn (d : Dev) (p : EngineOp) : Bool :=
  decide (p.launch < 2 ^ 16) && decide (p.kind.engine < 3) && d.ops.any fun q =>
    decide (q.id < p.id) && decide (q.g = p.g) && decide (q.kind.engine = p.kind.engine) && ((!p.started && !q.started) || p.clashes q)

/-- Whether an operation has to wait for an earlier one (R268, R271, R292). -/
def Dev.opWaits (d : Dev) (p : EngineOp) : Bool := d.behindOwn p || p.ranges.any (d.gated p.id p.job p.writesAt)

/-! ### The end of an operation (R272, R275, R276) -/

/-- Ranges of an operation released; ranges locked by an error that it has written whole go too (R269, R276). -/
def Dev.releaseRanges (d : Dev) (p : EngineOp) : Dev :=
  { d with gate := d.gate.filter fun e =>
      !(decide (e.op = p.id)) && !e.rewritten p.job (p.writesAt e.store) }

/-- Ranges of a failed operation: released, but for destinations that an uncorrectable error leaves locked (R276). -/
def Dev.failRanges (d : Dev) (p : EngineOp) (ue : Bool) : Dev :=
  { d with gate := (d.gate.filter fun e => !(decide (e.op = p.id)) || (ue && e.dst)).map fun e =>
      if e.op = p.id then { e with ue := true } else e }

/-- The completion of a record that has posted an operation (R336, R340). -/
def Dev.recordDone (d : Dev) (p : EngineOp) (status detail : Nat) : Dev :=
  match d.recordOps.find? fun r => decide (r.op = p.id) with
  | none => d
  | some r =>
    { d with
      recordOps := d.recordOps.filter fun x => decide (x.op ≠ p.id)
      queues := d.queues.map fun q =>
        if q.job = p.job ∧ q.num = r.queue then { q with due := q.due ++ [⟨r.seq, status, detail, []⟩] } else q }

def Dev.dropOp (d : Dev) (p : EngineOp) : Dev := { d with ops := d.ops.filter fun x => decide (x.id ≠ p.id) }

/-- The watched bytes that a write of some bytes touches, at the die that is home to each (R371). -/
def Dev.watchHits (d : Dev) (job : Nat) (virt : Bool) (home : Nat → Nat) (written : Nat → Bool) : List (Nat × Nat × Nat) :=
  (countFrom 0 6).flatMap fun x => (countFrom 0 4).flatMap fun n =>
    let w := d.watchPoint x n
    if w.en ∧ w.virt = virt ∧ (virt = false ∨ w.job = job) then
      (countFrom w.base 16).filterMap fun a =>
        if bitAt w.mask (a - w.base) ∧ written a ∧ home a = x then some (x, n, a) else none
    else []

/-- The report of an engine's writes, of each aligned block of 64 bytes at its time: each is one write unit (R372 to R374). -/
def engineWatchAt (die eng job : Nat) (k : GKey) (loc : Pc) (virt : Bool) (home : Nat → Nat) (written : Nat → Bool) (at_ : Nat → Nat) : Part :=
  fun s =>
    let hits := s.dev.watchHits job virt home written
    Part.each (sortNat (hits.map fun h => h.2.2 / 64)) (fun blk =>
      watchReport (hits.filter fun h => decide (h.2.2 / 64 = blk)) 1 (die % 8 + 16 * eng) 1000 job (at_ blk)
        (s.dev.wordNames k loc)) s

/-- The report of an engine's writes, made now. -/
def engineWatch (die eng job : Nat) (k : GKey) (loc : Pc) (virt : Bool) (home : Nat → Nat) (written : Nat → Bool) : Part := fun s =>
  engineWatchAt die eng job k loc virt home written (fun _ => s.dev.time) s

/-- The die that an address's translation names as home. -/
def State.homeOf (s : State) (job va : Nat) : Nat :=
  match s.dev.job? job with
  | none => 8
  | some j =>
    match s.walk j va with
    | .leaf p => if p.tier = 0 then homeDie p va else 8
    | _ => 8

/-- The watchpoints of a fabric write: a remote atomic is one write unit, a copy one for each 64 bytes (R372 to R374). -/
def fabricWatch (link src job : Nat) (pad : Bool) (written : Nat → Bool) (whole : Bool) : Part := fun s =>
  let hits := s.dev.watchHits job (!pad) (if pad then padHome else s.homeOf job) written
  let unit (a : Nat) : Nat := if whole then 0 else a / 64
  Part.each (sortNat (hits.map fun h => unit h.2.2)) (fun u =>
    watchReport (hits.filter fun h => decide (unit h.2.2 = u)) 2 (link % 32 + 2 ^ 16 * (src % 2 ^ 15)) 2000 job s.dev.time none) s

/-- The watchpoints of an operation's writes to the pad: those of a remote operation are fabric writes, from its target (R373). -/
def padWatch (p : EngineOp) (st : Store) (written : Nat → Bool) : Part :=
  if st = .pad then
    if p.kind.isRemote then
      fabricWatch (p.link.getD 0) (p.reg 1) p.job true written (match p.kind with | .ratom _ _ => true | _ => false)
    else engineWatch p.die p.kind.engine p.job p.g p.loc false padHome written
  else Part.none

/-- The operations whose staged writes an arrival brings to those that acquire it: its own, and those before it (R286, R291, R292). -/
def Dev.opKnows (d : Dev) (p : EngineOp) : List Nat :=
  let still (n : Nat) : Bool := d.staged.any fun w => decide (w.op = n)
  (p.id :: p.knows).filter still

/-- An operation completes: it arrives with its bytes, and its ranges are released (R269, R272). -/
def finishOp (p : EngineOp) (n : Nat) : Part :=
  Part.seq [
    (match p.object with
      | some o => fun s =>
        Part.seq [padWatch p o.store (fun a => decide (o.addr + 4 ≤ a) && decide (a < o.addr + (if s.completes o n then 16 else 8))),
          objArriveN (engineRelease (s.dev.opKnows p)) o n] s
      | none => Part.none),
    traceOp p 7,
    Part.mod fun d => ((d.releaseRanges p).dropOp p).recordDone p 0 0]

/-- A page that a failing migration has not moved is untouched: MIG is cleared, and the frame that was taken goes back, where its pool is
open and has room (R275, R324, log 45). -/
def undoMove (p : EngineOp) : Part := fun s =>
  match p.move, (s.dev.job? p.job).map fun j => s.walk j (p.reg 0 + 2 ^ 32 * p.reg 1 + 4096 * p.done) with
  | .moving f, some (.leaf e) =>
    let t := targetOf (p.reg 3)
    let pool := poolOf t.1 t.2.1 t.2.2
    Part.seq [setMig e false, if s.dev.regs.poolRoom pool then returnFrame pool f else Part.none] s
  | _, _ => []

/-- An operation fails: its object's phase completes with the code; without an object or record the job ends (R275). -/
def failOp (p : EngineOp) (code cause detail faddr : Nat) : Part := fun s =>
  let rec_ : Bool := s.dev.recordOps.any fun r => decide (r.op = p.id)
  Part.seq [
    undoMove p,
    traceOp p 7,
    Part.mod (fun d => ((d.failRanges p (decide (code = 0x32) || p.metUe)).dropOp p).recordDone p code detail),
    (match p.object with
      | some o => Part.seq [padWatch p o.store (fun a => decide (o.addr + 4 ≤ a) && decide (a < o.addr + 16)), objFail (s.dev.opKnows p) o code cause detail]
      | none =>
        if rec_ then Part.none
        else takeFault p.g [] p.loc false { code := .raw code, faddr := faddr, cause := pcSlot p.loc, aux := detail })] s

/-! ### Page faults in flight (R319 to R321) -/

/-- The record of a page fault (R321); that of a migrate record has the record's launch identifier as GRID (R337). -/
def Dev.pageRecord (d : Dev) (p : EngineOp) (va : Nat) (write : Bool) : List Byte :=
  let grid := match d.recordOps.find? fun r => decide (r.op = p.id) with
    | some r => r.queue * 2 ^ 48 + r.seq
    | none => 0
  let w := match d.wordNames p.g p.loc with
    | some w => w
    | none => (0, grid, 0xFFFFFFFF, 0xFF, 0, 0, 0)
  rawRecord 0x30 2 w.1 p.job w.2.1 w.2.2.1 w.2.2.2.1 w.2.2.2.2.1 w.2.2.2.2.2.1 w.2.2.2.2.2.2 va
    (p.kind.engine + 16 * write.toNat + 256 * p.die) p.index (d.timeFor p.job d.time)

/-- An operation holds at a byte that cannot be translated; its record waits for the fault buffer (R319, R321). -/
def holdOp (p : EngineOp) (va : Nat) (write : Bool) : Part := fun s =>
  let r := s.dev.pageRecord p va write
  Part.seq [
    Part.mod (fun d => (d.setOp { p with held := some ⟨va, write⟩ }).modJob p.job fun j => j.report ⟨r, d.time, p.die * 2 ^ 12⟩),
    traceRec p.job p.die 5 0x30 (fieldAt r 8 8)] s

/-- What follows an address that does not translate: a hold, a failure, or a wait for a page that moves (R317, R319). -/
def badOutcome (p : EngineOp) (detail : Nat) (va : Nat) (write : Bool) (t : Tr) : Part :=
  match t with
  | .fault => holdOp p va write
  | .access => failOp p 0x31 2 detail va
  | _ => Part.none

/-- An operation meets an address, of some rising ones, that does not translate: those before it did (R314, R317). -/
def badAddress (p : EngineOp) (detail : Nat) (addrs : List Nat) (va : Nat) (write : Bool) (t : Tr) : Part :=
  Part.seq [
    Part.each (addrs.filter fun a => decide (a < va)) (fun a => noteTranslation p.job a false),
    badOutcome p detail va write t]

/-- One address for each sector of 32 bytes that some rising addresses touch, the first. -/
def sectors : List Nat → List Nat
  | [] => []
  | a :: r =>
    match sectors r with
    | [] => [a]
    | b :: t => if a / 32 = b / 32 then a :: t else a :: b :: t

/-! ### Writes of main memory and the weir (R280, R281) -/

/-- The head of a launch under DET: the lowest block that has neither ended nor arrived at the grid barrier (R280). -/
def Dev.weirHead (d : Dev) (l : Launch) : Option Nat :=
  (countFrom 0 l.nblocks).find? fun b =>
    match d.block? l.tag b with
    | none => true
    | some x =>
      let arrived := ((countFrom 0 l.groups).filter fun g => bitAt (x.bars.getD 17 (.fresh 0)).arrm.toNat g).length
      !(decide (x.residency = .ended) || decide (l.groups ≤ arrived))

def EngineOp.key (p : EngineOp) : Nat × Nat × Nat := (p.phase, p.g.block, p.seq)

/-- Whether the writes of a key may become visible: their block is the head or has been passed, and no write of an earlier key is
still to come. -/
def Dev.weirOpen (d : Dev) (l : Launch) (key : Nat × Nat × Nat) : Bool :=
  (match d.weirHead l with | some h => decide (key.2.1 ≤ h) | none => true) &&
  !(d.staged.any fun w => decide (w.launch = l.tag) && keyLt w.key key) &&
  !(d.ops.any fun q => decide (q.launch = l.tag) && q.det && q.kind.writesMain && keyLt q.key key)

/-- Runs of bytes with rising addresses, cut where an address is missing and at the multiples of `m`; at none where `m` is 0. -/
def runsCut (m : Nat) : List (Nat × Byte) → List (Nat × List Byte)
  | [] => []
  | (a, v) :: r =>
    match runsCut m r with
    | [] => [(a, [v])]
    | (b, vs) :: t => if b = a + 1 ∧ (m = 0 ∨ b % m ≠ 0) then (a, v :: vs) :: t else (a, [v]) :: (b, vs) :: t

/-- Runs of bytes with rising addresses, cut where an address is missing. -/
def runsOf (bs : List (Nat × Byte)) : List (Nat × List Byte) := runsCut 0 bs

/-- Runs of virtual addresses joined where one follows another in one page of 4 KiB: the records of the digest (R281). -/
def joinRuns : List (Nat × Nat × List Byte) → List (Nat × List Byte)
  | [] => []
  | (va, _, bs) :: r =>
    match joinRuns r with
    | [] => [(va, bs)]
    | (b, vs) :: t => if b = va + bs.length ∧ b % 4096 ≠ 0 then (va, bs ++ vs) :: t else (va, bs) :: (b, vs) :: t

/-- A record of the digest (R281). -/
def digestRecord (block : Nat) (r : Nat × List Byte) : List Byte := leBytes 8 r.1 ++ leBytes 4 r.2.length ++ leBytes 4 block ++ r.2

/-- Runs of bytes in main memory, each at most a sector, become visible, and enter the digest under DET (R281). -/
def runsVisible (launch : Nat) (det : Bool) (block : Nat) (runs : List (Nat × Nat × List Byte)) : Part := fun s =>
  (runs.flatMap fun r => r.2.2.zipIdx.map fun e => paStore (r.2.1 + e.2) e.1) ++
    (if det then
      [.dev (s.dev.modLaunch launch fun l => { l with digest := l.digest ++ (joinRuns runs).flatMap (digestRecord block) })]
    else [])

/-- The watchpoints of an engine's writes to main memory: near-tier bytes, at their home die (R371). -/
def mainWatch (die eng job : Nat) (k : GKey) (loc : Pc) (runs : List (Nat × List Byte)) : Part := fun s =>
  engineWatch die eng job k loc true (s.homeOf job) (fun a => runs.any fun r => decide (r.1 ≤ a) && decide (a < r.1 + r.2.length)) s

/-- Whether the writes of an operation have to be staged behind the weir (R280). -/
def Dev.stages (d : Dev) (p : EngineOp) : Bool :=
  p.det && p.kind.writesMain && (match d.launch? p.launch with | some l => !d.weirOpen l p.key | none => false)

/-- Whether an operation waits before writing because staging is full: the spec gives no size of it, so this is a free choice (R280,
log 59). -/
def Dev.stagingFull (d : Dev) (p : EngineOp) : Bool := d.stages p && Config.freeBit d.free

/-- An operation waits for room in staging: no request of it is on its way. -/
def awaitStaging (p : EngineOp) : Part := Part.mod fun d => { d.setOp { p with timer := 0, ask := 0 } with free := d.free + 1 }

/-- The bytes that a page of an operation writes, each sector where its translation says: at once, or staged behind the weir (R280,
R318). -/
def mainWrite (p : EngineOp) (j : Job) (bytes : List (Nat × Byte)) : Part := fun s =>
  let rs := (runsCut 32 bytes).filterMap fun r =>
    match s.translate j r.1 true with
    | .ok pa _ => some (r.1, pa, r.2)
    | _ => none
  if s.dev.stages p then [.dev { s.dev with staged := s.dev.staged ++ [⟨p.id, p.launch, p.die, p.kind.engine, p.g, p.loc, p.phase, p.g.block, p.seq, rs⟩] }]
  else Part.seq [runsVisible p.launch p.det p.g.block rs, mainWatch p.die p.kind.engine p.job p.g p.loc (runsOf bytes)] s

/-- R280: the staged writes with the lowest key of a launch become visible, where their turn has come; a grid phase that waited for the
last of them completes. Else there is no effect. -/
def execWeirRelease (launch : Nat) (s : State) : Host.Outcome State Fault Refusal :=
  commit s <|
    match s.dev.launch? launch with
    | none => []
    | some l =>
      let ws := s.dev.staged.filter fun w => decide (w.launch = launch)
      match ws.find? fun w => ws.all fun x => !keyLt x.key w.key with
      | none => []
      | some w =>
        if !s.dev.weirOpen l w.key || s.dev.dumpHolds l.job then []
        else
          Part.seq [
            Part.mod (fun d => { d with staged := d.staged.erase w }),
            runsVisible launch true w.block w.runs,
            mainWatch w.die w.engine l.job w.g w.loc (w.runs.map fun r => (r.1, r.2.2)),
            Part.mod fun d =>
              let k : GKey := ⟨launch, w.block, 0⟩
              let bar := d.barrier k 17
              if !d.stagedIn launch && decide (0 < bar.arr) && decide (bar.arr = bar.exp) then d.completePhase k 17 else d] s

/-! ### The copy engine's commits (R268, R275) -/

/-- What the commit of a page needs and does: the addresses it reads and writes in main memory, rising, and its bytes. -/
structure PageWork where
  reads : List Nat
  writes : List Nat
  /-- Bytes of the chip, or of main memory, with the bytes of each run in rising order. -/
  chip : List (Nat × Byte)
  main : List (Nat × Byte)
  deriving DecidableEq, Repr

/-- The destination pages of a copy. -/
def EngineOp.pages (p : EngineOp) : List Nat :=
  match p.kind, p.geom with
  | .g2s _, some g => chipPages (p.storeA.off (p.reg 0)) g.extent
  | .s2g _, some g => g.vaPages
  | .s2s, _ => chipPages (p.storeB.off (p.reg 1)) (p.reg 2)
  | _, _ => []

/-- Whose staged writes an operation's reads see: those of its own block, and those that happen before it (R280, R292). -/
def EngineOp.own (p : EngineOp) : Option Seer := some ⟨p.launch, p.g.block, p.knows⟩

/-- The work of one destination page of a copy. -/
def pageWork (s : State) (p : EngineOp) (j : Job) (page : Nat) : PageWork :=
  let addrs := countFrom (4096 * page) 4096
  match p.kind, p.geom with
  | .g2s _, some g =>
    let base := p.storeA.off (p.reg 0)
    let xs := addrs.filterMap fun a => if a < base then none else (g.chipSrc (a - base)).map fun x => (a, x)
    { reads := sortNat (xs.flatMap fun x => x.2.reads), writes := []
      chip := xs.map fun x => (x.1, x.2.value (s.vaByte j p.own)), main := [] }
  | .s2g _, some g =>
    let base := p.storeA.off (p.reg 0)
    let xs := addrs.filterMap fun a => (g.back a).map fun x => (a, x)
    let rd (off : Nat) : Byte := cellGet (s.bank p.storeA.bank) (p.storeA.at_ (base + off))
    { reads := [], writes := xs.map Prod.fst, chip := []
      main := xs.map fun x => (x.1, x.2.value rd (s.vaByte j p.own x.1)) }
  | .s2s, _ =>
    let src := p.storeA.off (p.reg 0)
    let dst := p.storeB.off (p.reg 1)
    { reads := [], writes := []
      chip := (addrs.filter fun a => decide (dst ≤ a) && decide (a < dst + p.reg 2)).map fun a =>
        (a, cellGet (s.bank p.storeA.bank) (p.storeA.at_ (src + (a - dst))))
      main := [] }
  | _, _ => ⟨[], [], [], []⟩

/-- The store that a copy's bytes on the chip go to. -/
def EngineOp.chipStore (p : EngineOp) : Store := match p.kind with | .s2s => p.storeB | _ => p.storeA

/-- Bytes written on the chip by an engine, waiters woken (R103). -/
def chipWrite (st : Store) (bs : List (Nat × Byte)) : Part := fun s =>
  (bs.map fun e => Act.store st.bank (st.at_ e.1) e.2) ++
    [.dev ((runsOf bs).foldl (fun d r => (d.plainOver st 0 r.1 r.2.length).wake none st r.1 r.2.length) s.dev)]

/-- The bytes that a copy writes in all (R272). -/
def EngineOp.total (p : EngineOp) : Nat :=
  match p.kind, p.geom with
  | .g2s _, some g => g.bytesIn
  | .s2g _, some g => g.bytesOut
  | .s2s, _ => p.reg 2
  | _, _ => 0

/-- One page committed, and the completion after the last. -/
def commitPage (p : EngineOp) (j : Job) (w : PageWork) (left : Nat) : Part :=
  let q := { p with done := p.done + 1, started := true, timer := 0, ask := 0 }
  Part.seq [
    Part.each (sectors w.reads) (fun a => noteTranslation p.job a false),
    Part.each (sectors w.writes) (fun a => noteTranslation p.job a true),
    (if w.chip.isEmpty then Part.none else Part.seq [
      chipWrite p.chipStore w.chip,
      padWatch p p.chipStore fun a => w.chip.any fun e => decide (e.1 = a)]),
    (if w.main.isEmpty then Part.none else mainWrite p j w.main),
    Part.mod (fun d => { d.setOp q with free := d.free + 2 ^ 52 }),
    if left ≤ 1 then finishOp q p.total else Part.none]

/-! ### Uncorrectable errors of engines (R276, R313) -/

/-- A die's memory error status after errors of a source (R313). -/
def errAfter (x src ce ue : Nat) : Nat :=
  let y := if ce = 0 then x else putBits (putBits x 0 24 (min (2 ^ 24 - 1) (bits x 0 24 + ce))) 24 8 src
  if ue = 0 then y else putBits (putBits y 32 16 (min (2 ^ 16 - 1) (bits y 32 16 + ue))) 48 8 src

/-- Errors of a source counted at a die. -/
def Dev.countErr (d : Dev) (die src ce ue : Nat) : Dev :=
  { d with regs := { d.regs with
      err := cellSet d.regs.err die (BitVec.ofNat 64 (errAfter (cellGet d.regs.err die).toNat src ce ue)) } }

/-- The die and the source of an error at a byte of a store on chip (R313). -/
def Dev.chipSource (d : Dev) (st : Store) (a : Nat) : Nat × Nat :=
  match st with
  | .pad => (padHome a, 5)
  | .blk l b => ((match (d.block? l b).bind Block.cluster with | some c => c.1 | none => 0), 4)

/-- The die and the source of an error at a byte of main memory; none for host memory (R310, R313). -/
def State.mainSource (s : State) (j : Job) (va : Nat) : Option (Nat × Nat) :=
  match s.translate j va false with
  | .ok _ p => if p.tier = 0 then some (homeDie p va, 0) else if p.tier < 3 then some (p.home, p.tier) else none
  | _ => none

/-- An uncorrectable error counted at one of the memories read: which, the spec leaves to the error (R313, log 60). -/
def countUe (at_ : List (Nat × Nat)) : Part := Part.mod fun d =>
  match at_ with
  | [] => d
  | e :: r =>
    let x := (e :: r).getD ((Config.freeByte d.free).toNat % (r.length + 1)) e
    d.countErr x.1 x.2 0 1

/-- The memories that a page of a copy reads. -/
def copySources (s : State) (p : EngineOp) (j : Job) (w : PageWork) : List (Nat × Nat) :=
  let xs : List (Nat × Nat) :=
    match p.kind with
    | .g2s _ => (sectors w.reads).filterMap (s.mainSource j)
    | .s2s => w.chip.map fun e => s.dev.chipSource p.storeA (p.storeA.off (p.reg 0) + (e.1 - p.storeB.off (p.reg 1)))
    | _ => (p.ranges.flatMap fun r => [r.lo, r.lo + r.n - 1]).map (s.dev.chipSource p.storeA)
  xs.eraseDups

/-- R275: a copy commits its next destination page, holds, or fails; a copy that must wait, or is no copy, does nothing. `ue`: the page met
an uncorrectable error (R276). -/
def execCopyPageCommit (op : Nat) (ue : Bool) (s : State) : Host.Outcome State Fault Refusal :=
  commit s <|
    match s.dev.op? op with
    | none => []
    | some p =>
      match s.dev.job? p.job with
      | none => []
      | some j =>
        if p.kind.isCopy = false ∨ p.held.isSome ∨ s.dev.opWaits p ∨ s.dev.dumpHolds p.job then []
        else match p.pages.drop p.done with
          | [] => finishOp p p.total s
          | page :: rest =>
            let w := pageWork s p j page
            let q := { p with started := true }
            if ue then Part.seq [
              (if (s.firstBad j false (sectors w.reads)).isSome then Part.none
                else Part.each (sectors w.reads) fun a => noteTranslation p.job a false),
              countUe (copySources s p j w),
              Part.mod fun d => { d with free := d.free + 1 },
              failOp q 0x32 0 p.done 0] s
            else match s.firstBad j false (sectors w.reads), s.firstBad j true (sectors w.writes) with
              | some (va, t), _ => badAddress q p.done (sectors w.reads) va false t s
              | none, some (va, t) => badAddress q p.done (sectors w.writes) va true t s
              | none, none => if s.dev.stagingFull p then awaitStaging q s else commitPage p j w (rest.length + 1) s

/-! ### The gather (R277, R278) -/

/-- What a lane of a gather meets. -/
inductive GatOutcome where
  | ok
  | wait
  | held
  | bad (code cause : Nat)
  deriving DecidableEq, Repr

/-- The last-page register of a gather's lane, where its page matches (R278). -/
def gatLast (s : State) (p : EngineOp) (x : GatLane) : Option LastPage :=
  match (s.dev.group? p.g).bind fun g => (g.lane x.lane).lastPage with
  | some q => if q.page = x.va / pageSize q.level then some q else none
  | none => none

/-- The translation that a lane of a gather uses: its last-page register's, or one of the TLB or the tables (R278). -/
def gatTr (s : State) (p : EngineOp) (j : Job) (x : GatLane) : Tr :=
  match gatLast s p x with
  | some q => trLeaf ⟨q.leaf.toNat, 0, q.level⟩ x.va false
  | none => s.translate j x.va false

def gatOutcome (s : State) (p : EngineOp) (j : Job) (size : Nat) (ue : BitVec 64) (x : GatLane) : GatOutcome :=
  if 2 ^ 57 ≤ x.va then .bad 0x31 2
  else if x.va % size ≠ 0 then .bad 0x0A 0
  else if bitAt ue.toNat x.lane then .bad 0x32 0
  else match gatTr s p j x with
    | .ok _ _ => .ok
    | .fault => .held
    | .access => .bad 0x31 2
    | .wait => .wait

/-- The bytes that a lane reads at a device address; the staged writes that it sees stand before them (R280). -/
def gatRead (s : State) (p : EngineOp) (va pa size : Nat) : List Byte :=
  (countFrom 0 size).map fun k =>
    match p.own.bind fun e => s.dev.stagedByte e (va + k) with
    | some b => b
    | none => s.paByte (pa + k)

/-- The bytes that a lane writes: where a higher lane that is done writes too, that lane's stay (R151, R277). -/
def gatBytes (s : State) (p : EngineOp) (size : Nat) (x : GatLane) (pa : Nat) : List (Nat × Byte) :=
  ((gatRead s p x.va pa size).zipIdx.map fun e => (x.dst + e.2, e.1)).filter fun e =>
    !(p.lanes.any fun y => y.got && decide (x.lane < y.lane) && decide (y.store = x.store) && decide (y.dst ≤ e.1) &&
      decide (e.1 < y.dst + size))

/-- The failure of the lowest failing lane. -/
def lowerFail (a : Option (Nat × Nat × Nat)) (code cause lane : Nat) : Option (Nat × Nat × Nat) :=
  match a with
  | some f => if f.2.2 ≤ lane then some f else some (code, cause, lane)
  | none => some (code, cause, lane)

/-- One lane of a gather done. -/
def gatLane (op : Nat) (j : Job) (size : Nat) (o : GatOutcome) (x : GatLane) : Part := fun s =>
  match s.dev.op? op with
  | none => []
  | some p =>
    let set (y : GatLane) : List GatLane := p.lanes.map fun z => if z.lane = x.lane then y else z
    match o, gatTr s p j x with
    | .ok, .ok pa e =>
      Part.seq [
        (if (gatLast s p x).isSome then Part.none else noteTranslation p.job x.va false),
        chipWrite x.store (gatBytes s p size x pa),
        Part.mod fun d => (d.setOp { p with lanes := set { x with got := true, time := d.time }, started := true, ask := 0 }).modGroup p.g fun g =>
          g.modLane x.lane fun ln =>
            { ln with lastPage := some ⟨x.va / pageSize e.level, e.level, BitVec.ofNat 64 (e.e % 2 ^ 62)⟩ }] s
    | .bad code cause, _ =>
      Part.seq [
        (if code = 0x32 then countUe (s.mainSource j x.va).toList else Part.none),
        Part.mod fun d => d.setOp { p with
          lanes := set { x with failed := true }
          failed := lowerFail p.failed code cause x.lane
          started := true
          metUe := p.metUe || decide (code = 0x32) }] s
    | _, _ => []

/-- The end of a gather whose lanes are all done or failed. -/
def gatEnd (op size : Nat) : Part := fun s =>
  match s.dev.op? op with
  | none => []
  | some p =>
    match p.failed with
    | none => finishOp p (size * p.lanes.length) s
    | some f => failOp p f.1 f.2.1 f.2.2 0 s

/-- Whether a lane of a gather writes a byte of an aligned block of 64 bytes of the pad. -/
def GatLane.inBlock (x : GatLane) (size blk : Nat) : Bool :=
  decide (x.store = .pad) && decide (x.dst < 64 * blk + 64) && decide (64 * blk < x.dst + size)

/-- The reports of the aligned blocks of 64 bytes that a gather, which stood at `p`, has now written for the last time: no lane is left that
writes one of them. TIME is that of the last write (R372 to R374). -/
def gatReports (p : EngineOp) (size : Nat) : Part := fun s =>
  match s.dev.op? p.id with
  | none => []
  | some q =>
    let left (o : EngineOp) (blk : Nat) : Bool := o.lanes.any fun x => !x.got && !x.failed && x.inBlock size blk
    let new (blk : Nat) : Bool := left p blk && !left q blk
    let got := q.lanes.filter GatLane.got
    engineWatchAt q.die q.kind.engine q.job q.g q.loc false padHome
      (fun a => new (a / 64) && got.any fun x => decide (x.store = .pad) && decide (x.dst ≤ a) && decide (a < x.dst + size))
      (fun blk => (got.filter fun x => x.inBlock size blk).foldl (fun t x => max t x.time) 0) s

/-- R277: a gather does every lane that is left; lanes that meet a page fault hold it. Else there is no effect. -/
def execGatherComplete (op : Nat) (ue : BitVec 64) (s : State) : Host.Outcome State Fault Refusal :=
  commit s <|
    match s.dev.op? op with
    | none => []
    | some p =>
      match s.dev.job? p.job, p.kind with
      | some j, .gat size =>
        let left := p.lanes.filter fun x => !x.got && !x.failed
        let os := left.map fun x => (x, gatOutcome s p j size ue x)
        if p.held.isSome ∨ s.dev.opWaits p ∨ s.dev.dumpHolds p.job ∨ os.any (fun o => decide (o.2 = .wait)) then []
        else
          Part.seq [
            Part.each os (fun o => gatLane op j size o.2 o.1),
            gatReports p size,
            Part.mod (fun d => { d with free := d.free + 2 ^ 52 }),
            (match os.find? fun o => decide (o.2 = .held) with
              | some o => fun s => (match s.dev.op? op with | some q => holdOp { q with started := true } o.1.va false s | none => [])
              | none => gatEnd op size)] s
      | _, _ => []

/-- Lanes of a gather that have still to be done fail with a code: the others complete, and DETAIL names the lowest failing lane (R275). -/
def failLanes (p : EngineOp) (size code cause : Nat) (ls : List Nat) : Part := fun s =>
  let hit (x : GatLane) : Bool := !x.got && !x.failed && ls.contains x.lane
  let q : EngineOp := { p with
    lanes := p.lanes.map fun x => if hit x then { x with failed := true } else x
    failed := (p.lanes.filter hit).foldl (fun a x => lowerFail a code cause x.lane) p.failed
    started := true
    timer := 0
    ask := 0
    metUe := p.metUe || decide (code = 0x32) }
  Part.seq [
    (fun s => [.dev (s.dev.setOp q)]),
    gatReports p size,
    if q.lanes.all fun x => x.got || x.failed then gatEnd p.id size else Part.none] s

/-- R276, R311, R312: an operation in flight meets an uncorrectable error of a source at a die, and fails; a gather's lanes that read there
fail, and its others complete (R275). -/
def opMeetsError (op die src : Nat) : Part := fun s =>
  match s.dev.op? op with
  | none => []
  | some p =>
    match s.dev.job? p.job with
    | none => []
    | some j =>
      if p.held.isSome ∨ s.dev.opWaits p ∨ s.dev.dumpHolds p.job ∨ 8 ≤ die ∨ 8 ≤ src then []
      else match p.kind with
        | .gat size =>
          let ls := (p.lanes.filter fun x => !x.got && !x.failed && decide (s.mainSource j x.va = some (die, src))).map GatLane.lane
          if ls.isEmpty then []
          else Part.seq [Part.mod fun d => d.countErr die src 0 1, failLanes p size 0x32 0 ls] s
        | k => Part.seq [
            Part.mod fun d => d.countErr die src 0 1,
            failOp { p with started := true } 0x32 0 (match k with | .ratom _ _ => 0 | _ => p.done) 0] s

end Sys2Proof.Machine
end

