-- ==== Sys2Proof/Machine/Migration.lean ====
section
/-!
DEFINITION. The migration engine (R323 to R325): `mig.post`, the frame pools, and the move of a page.
-/

namespace Sys2Proof.Machine

/-! ### `mig.post` (R323) -/

/-- Whether the operands of a migration are refused (R323). -/
def migBad (v : List Nat) : Bool :=
  let t := targetOf (v.getD 3 0)
  decide (v.getD 2 0 = 0) || decide (2 ^ 20 < v.getD 2 0) || decide (2 ^ 25 ≤ v.getD 1 0) || decide (2 ^ 7 ≤ v.getD 3 0) ||
  decide (v.getD 4 0 ≠ 0) || decide (t.1 = 3) || (frameRange t.1 t.2.1 t.2.2).isNone

/-- `mig.post` (R323). -/
def execMigPost (g : Reg) (s : State) : Host.Outcome State Fault Refusal :=
  commit s (wordWith (.migPost g) (groupCauses 1 g 6 fun _ v => migBad v) (fun c gr l s =>
    match gr.leader c.on with
    | none => []
    | some ld =>
      let v := opGroup s gr c ld g 6
      if !gr.storesDone c then (if c.resume.isSome then [] else holdLanes c (.migPost g) c.lanes .retry 3 .none s)
      else match worstRange ld (objChecks s.dev l (s.dev.jobOf l) gr.key.block (v.getD 5 0)) with
        | some f => raise c f s
        | none =>
          acceptWord c gr (.migPost g)
            (fun k => newOp s c gr ld .mig v k none .pad .pad (objOf l gr.key.block (v.getD 5 0)) []) s) s)

/-! ### The move of a page (R324) -/

/-- Bytes of the page that a leaf maps: a leaf with C64 maps 64 KiB. -/
def Pte.bytes (p : Pte) : Nat := if p.level = 0 ∧ p.c64 then 65536 else pageSize p.level

/-- A leaf with a new frame and target; MIG 0, D unchanged. -/
def Pte.moved (p : Pte) (tier ilv home frame : Nat) : Nat :=
  p.e - bits p.e 4 8 * 2 ^ 4 - p.frame * 2 ^ 12 + tier * 2 ^ 4 + ilv * 2 ^ 6 + home * 2 ^ 8 + frame * 2 ^ 12

/-- Bytes of device memory copied to another place of it. -/
def copyFrames (src dst n : Nat) : Part := fun s =>
  let a := paBank src
  let b := paBank dst
  let cells := (s.bank a.1).filter fun c => decide (a.2 ≤ c.1) && decide (c.1 < a.2 + n)
  .clear b.1 b.2 n :: cells.map fun c => .store b.1 (b.2 + (c.1 - a.2)) c.2

/-- Translations and last-page registers of some addresses of a job dropped (R278, R318). -/
def Dev.dropTranslations (d : Dev) (job va n : Nat) : Dev :=
  { d with
    tlb := d.tlb.filter fun t =>
      !(decide (t.job = job) && decide (t.page * pageSize t.level < va + n) && decide (va < (t.page + 1) * pageSize t.level))
    groups := d.groups.map fun g =>
      if d.jobFor g.key ≠ job then g
      else { g with lanes := g.lanes.map fun x =>
        match x.lastPage with
        | some q =>
          if q.page * pageSize q.level < va + n ∧ va < (q.page + 1) * pageSize q.level then { x with lastPage := none } else x
        | none => x } }

/-- Whether staged writes of a job have still to land in some addresses: engine accesses that are begun and not performed (R280, R324). -/
def Dev.stagedOver (d : Dev) (job va n : Nat) : Bool :=
  d.staged.any fun w => decide (d.jobFor w.g = job) && w.runs.any fun r => decide (r.1 < va + n) && decide (va < r.1 + r.2.2.length)

/-- Each leaf of a page gets its new frame. -/
def moveLeaves (p : Pte) (tier ilv home frame : Nat) : Part := fun s =>
  (countFrom 0 p.leaves.2).flatMap fun k =>
    let at_ := p.leaves.1 + 8 * k
    let q : Pte := ⟨s.paNat at_ 8, at_, p.level⟩
    (leBytes 8 (q.moved tier ilv home (frame + k))).zipIdx.map fun e => paStore (at_ + e.2) e.1

/-- The pages of a migration that are left go on after `n` units of 4 KiB. -/
def migAdvance (p : EngineOp) (n : Nat) : Part :=
  let q := { p with done := p.done + n, started := true, timer := 0, ask := 0, move := .ready }
  if p.reg 2 ≤ q.done then finishOp q (4096 * p.reg 2) else Part.mod fun d => d.setOp q

/-- The device address of the first byte of a page. -/
def Pte.first (e : Pte) : Nat := e.tier * 2 ^ 48 + 4096 * (if e.c64 ∧ e.level = 0 then e.frame - e.at_ % 128 / 8 else e.frame)

/-- A page that an engine may use no longer moves: its bytes copied, its leaves changed, its translations dropped (R324). -/
def movePage (p : EngineOp) (va : Nat) (e : Pte) (tier ilv home frame : Nat) : Part :=
  let new := tier * 2 ^ 48 + 4096 * frame
  Part.seq [
    copyFrames e.first new e.bytes,
    moveLeaves e tier ilv home frame,
    Part.mod (fun d => d.dropTranslations p.job va e.bytes),
    engineWatch p.die p.kind.engine p.job p.g p.loc true (fun a => homeDie ⟨ilv * 64 + home * 256, 0, 0⟩ a)
      (fun a => decide (tier = 0) && decide (va ≤ a) && decide (a < va + e.bytes))]

/-- Whether a frame of a pool serves a page. -/
def frameFits (tier ilv home frame bytes : Nat) : Bool :=
  match frameRange tier ilv home with
  | some rs => rs.any fun r => decide (r.1 ≤ 4096 * frame) && decide (4096 * frame + bytes ≤ r.1 + r.2)
  | none => false

/-- Whether no pool that a page needs is locked (R325). -/
def Dev.poolsReady (d : Dev) (new : Nat) (old : Option Nat) : Bool :=
  d.regs.poolOpen new && (match old with | none => true | some o => d.regs.poolOpen o)

/-- The pool that an old frame goes back to; none for tier 3 (R325). -/
def Pte.oldPool (e : Pte) : Option Nat := if e.tier = 3 then none else some (poolOf e.tier e.ilv e.home)

/-- The virtual address of the page that a migration moves next. -/
def EngineOp.migVa (p : EngineOp) : Nat := p.reg 0 + 2 ^ 32 * p.reg 1 + 4096 * p.done

/-- A page is taken up: it matches already, it fails, or its new frame is taken and MIG is set; from then on no translation made before
gives an access to it (R317, R324). A page that fails has been translated (R314). -/
def migStart (p : EngineOp) (e : Pte) : Part := fun s =>
  let va := p.migVa
  let t := targetOf (p.reg 3)
  let n := e.bytes / 4096
  let pool := poolOf t.1 t.2.1 t.2.2
  let q := { p with started := true, timer := 0, ask := 0 }
  let seen : Part := noteTranslation p.job va false
  if va % e.bytes ≠ 0 ∨ p.reg 2 < p.done + n then Part.seq [seen, failOp q 0x31 2 p.done va] s
  else if (e.tier, e.ilv, e.home) = t then Part.seq [seen, migAdvance p n] s
  else if !s.dev.poolsReady pool e.oldPool then []
  else if s.dev.regs.pool pool 2 = 0 then Part.seq [seen, failOp q 0x31 1 p.done va] s
  else
    let f := s.poolTop pool
    if !frameFits t.1 t.2.1 t.2.2 f e.bytes then Part.seq [seen, takeFrame pool, failOp q 0x31 1 p.done va] s
    else
      Part.seq [
        seen,
        takeFrame pool,
        setMig e true,
        Part.mod (fun d => d.dropTranslations p.job va e.bytes),
        Part.mod fun d => d.setOp { q with move := .moving f }] s

/-- The page that MIG stands in moves, once no write of it is staged; its old frame is returned, or waits for room in its pool. -/
def migMove (p : EngineOp) (e : Pte) (frame : Nat) : Part := fun s =>
  let t := targetOf (p.reg 3)
  let n := e.bytes / 4096
  if s.dev.stagedOver p.job p.migVa e.bytes then []
  else Part.seq [
    movePage p p.migVa e t.1 t.2.1 t.2.2 frame,
    (match e.oldPool with
      | none => migAdvance p n
      | some o =>
        let f := e.first % 2 ^ 48 / 4096
        if s.dev.regs.poolRoom o then Part.seq [returnFrame o f, migAdvance p n]
        else Part.mod fun d => d.setOp { p with timer := 0, ask := 0, move := .returning o f n })] s

/-- R324: migration `op` takes up its next page, moves it, returns its old frame, holds, or fails. Else there is no effect. -/
def execMigrationPageMove (op : Nat) (s : State) : Host.Outcome State Fault Refusal :=
  commit s <|
    match s.dev.op? op with
    | none => []
    | some p =>
      match s.dev.job? p.job with
      | none => []
      | some j =>
        if p.kind ≠ .mig ∨ p.held.isSome ∨ s.dev.opWaits p ∨ s.dev.dumpHolds p.job then []
        else match p.move, s.walk j p.migVa with
          | .returning o f n, _ => if s.dev.regs.poolRoom o then Part.seq [returnFrame o f, migAdvance p n] s else []
          | .moving f, .leaf e => migMove p e f s
          | .moving _, _ => failOp p 0x31 2 p.done p.migVa s
          | .ready, w =>
            (match (if 2 ^ 57 ≤ p.migVa then Tr.access else trWalk w p.migVa false) with
            | .fault => holdOp { p with started := true } p.migVa false
            | .access => failOp { p with started := true } 0x31 2 p.done p.migVa
            | .wait => Part.none
            | .ok _ e => migStart p e) s

end Sys2Proof.Machine
end

