-- ==== Sys2Proof/Machine/Cuvees.lean ====
section
/-!
DEFINITION. Clusters and their cuvée slots (R205 to R209), opcode 0x3A (R234), and the ends of held cuvée words.
-/

namespace Sys2Proof.Machine

/-! ### Clusters -/

/-- A cluster with an empty sluice. -/
def Cluster.blank (die index : Nat) : Cluster := ⟨die, index, [], [], 0, none, false, 0, [], false⟩

def Dev.cluster (d : Dev) (die index : Nat) : Cluster :=
  match d.clusters.find? fun c => decide (c.die = die) && decide (c.index = index) with
  | some c => c
  | none => .blank die index
def Dev.setCluster (d : Dev) (c : Cluster) : Dev :=
  { d with clusters := upsert (fun x => decide (x.die = c.die) && decide (x.index = c.index)) c d.clusters }

/-- The cluster of a place, and the core in it. -/
def Place.cluster (p : Place) : Nat := p.core / 4
def Place.inCluster (p : Place) : Nat := p.core % 4

/-- The cluster of a group. -/
def Dev.clusterOf (d : Dev) (g : Group) : Cluster :=
  match g.place with
  | some p => d.cluster p.die p.cluster
  | none => .blank 0 0

/-- Every entry of a cluster, in the sluice or in a pass. -/
def Cluster.all (c : Cluster) : List Entry := c.entries ++ c.passes.flatMap Pass.entries

/-! ### Slots (R205) -/

/-- The owner of a slot number. -/
def Dev.slotOwner (d : Dev) (n : Nat) : Option Nat := (d.cuvOwner.find? fun e => decide (e.1 = n)).map Prod.snd

/-- Whether a slot number is owned by another job. -/
def Dev.slotTaken (d : Dev) (n job : Nat) : Bool :=
  match d.slotOwner n with
  | some j => decide (j ≠ job)
  | none => false

def Cluster.slot? (c : Cluster) (n : Nat) : Option CuvSlot := c.slots.find? fun s => decide (s.n = n)
def Cluster.setSlot (c : Cluster) (s : CuvSlot) : Cluster := { c with slots := upsert (fun x => decide (x.n = s.n)) s c.slots }

/-- The table that a post of a job may use: slot 0, or a VALID slot that the job owns (R205). -/
def Dev.slotTable (d : Dev) (c : Cluster) (n job : Nat) : Option (Table × Nat) :=
  if n = 0 then some (classical, classicalWord)
  else
    match c.slot? n with
    | some s => if s.state = .valid ∧ d.slotOwner n = some job then some (tableOf s.image, s.word.toNat) else none
    | none => none

/-! ### A range read as a load of the group (R149, R151, R234) -/

/-- A range in pieces of 32 bytes, as a group accesses it. -/
def pieces (d : Dev) (g : Group) (l : Launch) (slot lane : Nat) (pad : Bool) (addr n size : Nat) (u : Use) :
    Except FaultInfo (List LaneAccess) :=
  let j := d.jobOf l
  match memTarget l g.key.block pad addr n with
  | (sp, none) => .error (fibreFault slot size (lane, addr, .bounds, sp))
  | _ =>
    let rs := (countFrom 0 ((n + 31) / 32)).map fun k => accessOf d g l j lane pad (addr + 32 * k) 32 32 u
    let bad := rs.filterMap fun r => match r with | .error f => some (lane, addr, f.1, f.2) | .ok _ => none
    match worstFault bad with
    | some f => .error (fibreFault slot size f)
    | none => .ok (rs.filterMap fun r => match r with | .ok a => some a | .error _ => none)

/-- The bytes of such a range in the group's view. -/
def State.groupBytes (s : State) (g : Group) (l : Launch) (pad : Bool) (addr n : Nat) : List Byte :=
  match (memTarget l g.key.block pad addr n).2 with
  | none => List.replicate n 0
  | some t =>
    (countFrom 0 (n / 32)).flatMap fun k =>
      let off := t.off + 32 * k
      leBytes 32 (if l.inWindow pad off 32 ∧ g.vt ≠ 0 then s.view t.store g.vt off 32 else s.nat t.store off 32)

/-! ### Held words -/

/-- The lanes of the batch that holds a lane: those held by one issue. -/
def Group.heldWith (g : Group) (lane : Nat) : List Nat :=
  match (g.lane lane).hold with
  | none => []
  | some h => g.laneNos.filter fun l => match (g.lane l).hold with | some x => decide (x.batch = h.batch) | none => false

/-- A group as a word that waits for a tile or a slot acts in it: with the GSR of its issue (R105). -/
def Issue.group (c : Issue) (g : Group) : Group :=
  match c.resume.map Hold.kind with
  | some (.tile w) | some (.slot w) => { g with gsr := w }
  | _ => g

/-- Whether a lane is held by a cuvée word whose time has come. -/
def Dev.cuveeDue (d : Dev) (g : Group) (lane : Nat) : Bool :=
  match (g.lane lane).hold with
  | some h => (match h.kind with | .cuvee u => decide (u ≤ d.now g) | _ => false)
  | none => false

/-- The value of a register that a held word read at issue. -/
def Lane.snapped (x : Lane) (n : Nat) : Word :=
  match x.hold with
  | some h => (match h.snap.find? fun e => decide (e.1 = n) with | some e => e.2 | none => 0)
  | none => 0

/-- The first held lane that is live and whose guard was true. -/
def Group.heldLeader (g : Group) (ls : List Nat) : Option Nat :=
  ls.find? fun m => g.isLive m && match (g.lane m).hold with | some h => h.on | none => false

/-- Lanes whose guard was true at a held word. -/
def Group.heldOn (g : Group) (ls : List Nat) : List Nat :=
  ls.filter fun m => match (g.lane m).hold with | some h => h.on | none => false

/-! ### Opcode 0x3A (R234) -/

/-- The slot that a held cuvée word names. -/
def heldSlot (l : Launch) (x : Lane) : Option Nat :=
  match x.hold.map Hold.kind, heldWord l x with
  | some (.cuvee _), some (.cuvLoadBlk _ n) | some (.slot _), some (.cuvLoadBlk _ n) => some n.toNat
  | some (.cuvee _), some (.cuvLoadPad _ n) | some (.slot _), some (.cuvLoadPad _ n) => some n.toNat
  | some (.cuvee _), some (.cuvChk _ n) => some n.toNat
  | _, _ => none

/-- Whether a place is in a cluster. -/
def Place.inside (p : Place) (c : Cluster) : Bool := decide (p.die = c.die) && decide (p.cluster = c.index)

/-- Whether a word that reached a slot of a cluster before a batch's word has not finished: operations on one slot take effect in the order
in which they reach the store (R205). -/
def Dev.slotAhead (d : Dev) (c : Cluster) (n batch : Nat) : Bool :=
  d.groups.any fun g => g.place.any (Place.inside · c) && match d.launch? g.key.launch with
    | none => false
    | some l => g.lanes.any fun x => decide (heldSlot l x = some n) && x.hold.any fun h => decide (h.batch < batch)

/-- Whether a load or a restore may write a slot of a cluster: no sluice entry or pass names it (R205, R206). -/
def Cluster.unnamed (c : Cluster) (n : Nat) : Bool := !c.all.any fun e => decide (e.cuv = n)

/-- What a `cuv.load` reads: checked at issue, and later as it stands (R149, R234). -/
def cuvLoadReads (s : State) (c : Issue) (g : Group) (l : Launch) (ld : Nat) (pad : Bool) (addr : Nat) : Except FaultInfo (List LaneAccess) :=
  let slot := pcSlot c.loc
  match c.resume with
  | some h =>
    let xs := g.dues l h.mark
    (match s.dev.duesOrphan g l slot 6 xs with
    | some f => .error f
    | none => .ok xs)
  | none =>
    if addr % 32 ≠ 0 then .error (fibreFault slot 6 (ld, addr, .misaligned, (memTarget l g.key.block pad addr 1536).1))
    else pieces s.dev g l slot ld pad addr 1536 6 .read

/-- The image read, and the slot to be written later: 96 die cycles from block memory; from the pad the time varies (R234). -/
def cuvLoadStart (i : Instr) (c : Issue) (g : Group) (l : Launch) (pad : Bool) (addr : Nat) (xs : List LaneAccess) : Part := fun s =>
  let kind : HoldKind := .cuvee (s.dev.now g + if pad then 0 else 96)
  let image := s.groupBytes g l pad addr 1536
  Part.seq [
    Part.mod (fun d => xs.foldl (fun d x => d.touchRace g l x .other) d),
    dropDue c,
    (if c.resume.isNone then holdTaking c i c.lanes kind 7 .none image
    else Part.mod fun d => d.modGroup c.g fun g => g.modLanes (g.withHelpers c.lanes) fun _ x =>
      { x with hold := x.hold.map fun h => { h with kind := kind, bytes := image } })] s

/-- `cuv.load` (R205, R234): the issuing job owns the number at once; the batch waits for the slot, and then the image is read as a load of the
group. -/
def cuvLoadWord (i : Instr) (a : Reg) (n : BitVec 7) (pad : Bool) (s : State) : List Act :=
  wordWith i (leadCauses fun s _ l _ _ => causeIf 3 (s.dev.slotTaken n.toNat l.job)) (fun c g l s =>
    let g := c.group g
    match g.leader c.on with
    | none => []
    | some ld =>
      let addr := leadV s g c ld a
      match cuvLoadReads s c g l ld pad addr with
      | .error f => raise c f s
      | .ok xs =>
        let cl := s.dev.clusterOf g
        let batch := match c.resume with | some h => h.batch | none => s.dev.batchSeq
        let own : Part := Part.mod fun d =>
          { d with cuvOwner := upsert (fun e => decide (e.1 = n.toNat)) (n.toNat, l.job) d.cuvOwner }
        if cl.unnamed n.toNat && !s.dev.slotAhead cl n.toNat batch && s.dev.readsReady g (c.mark g) xs then
          Part.seq [own, cuvLoadStart i c g l pad addr xs] s
        else if c.resume.isSome then []
        else Part.seq [own, holdLanes c i c.lanes (.slot g.gsr) 7 .none, putDue c false xs] s) s

/-- `cuv.load.blk` (R234). -/
def execCuvLoadBlk (a : Reg) (n : BitVec 7) (s : State) : Host.Outcome State Fault Refusal :=
  commit s (cuvLoadWord (.cuvLoadBlk a n) a n false s)
/-- `cuv.load.pad` (R234). -/
def execCuvLoadPad (a : Reg) (n : BitVec 7) (s : State) : Host.Outcome State Fault Refusal :=
  commit s (cuvLoadWord (.cuvLoadPad a n) a n true s)

/-- The die cycles for which a check of an image holds its batch (R234). -/
def chkTime (image : List Byte) : Nat := if imgNat image 6 1 = 4 then 4160 else 64

/-- Whether a slot may be checked: the job owns its number, and it is not EMPTY (R205). -/
def Dev.slotReady (d : Dev) (g : Group) (l : Launch) (n : Nat) : Option CuvSlot :=
  match (d.clusterOf g).slot? n with
  | some x => if d.slotOwner n = some l.job ∧ x.state ≠ .empty then some x else none
  | none => none

/-- `cuv.chk` (R207, R234). -/
def execCuvChk (d : Reg) (n : BitVec 7) (s : State) : Host.Outcome State Fault Refusal :=
  commit s (wordWith (.cuvChk d n) (leadCauses fun s g l _ _ => causeIf 3 (s.dev.slotReady g l n.toNat).isNone) (fun c g l s =>
    match g.leader c.on, s.dev.slotReady g l n.toNat with
    | some _, some x => holdLanes c (.cuvChk d n) c.lanes (.cuvee (s.dev.now g + chkTime x.image)) 7 .none s
    | _, _ => []) s)

/-- The check word that `cuv.rd` reads (R234). -/
def slotWord (c : Cluster) (n : Nat) : Nat :=
  if n = 0 then classicalWord
  else
    match c.slot? n with
    | some s => if s.state = .valid ∨ s.state = .invalid then s.word.toNat else 0
    | none => 0

/-- `cuv.rd` (R234). -/
def execCuvRd (d : Reg) (n : BitVec 7) (s : State) : Host.Outcome State Fault Refusal :=
  commit s (wordWith (.cuvRd d n) (leadVals fun s _ l _ _ => causeIf 3 (decide (n ≠ 0) && s.dev.slotTaken n.toNat l.job))
    (fun c g _ s =>
    if (g.leader c.on).isNone then []
    else retire c.g (Instr.cuvRd d n).latency
      (c.on.flatMap fun m => outRun g m d.toNat 2 (slotWord (s.dev.clusterOf g) n.toNat)) s) s)

/-! ### The ends of the held words -/

/-- Checks of a slot that wait behind a load that now writes it: they examine the new image (R205, R234). -/
def Dev.restartChecks (d : Dev) (c : Cluster) (n : Nat) (image : List Byte) : Dev :=
  { d with groups := d.groups.map fun g =>
      match g.place.any (Place.inside · c), d.launch? g.key.launch with
      | true, some l =>
        { g with lanes := g.lanes.map fun x =>
            match heldSlot l x, heldWord l x with
            | some m, some (.cuvChk _ _) =>
              if m = n then { x with hold := x.hold.map fun h => { h with kind := .cuvee (d.now g + chkTime image) } } else x
            | _, _ => x }
      | _, _ => g }

/-- R205, R234: a held `cuv.load` writes its slot, once no operation of the cluster names it. Else there is no effect. -/
def execCuveeLoadComplete (k : GKey) (lane : Nat) (s : State) : Host.Outcome State Fault Refusal :=
  commit s <|
    match s.dev.group? k, s.dev.launch? k.launch with
    | some g, some l =>
      let ls := g.heldWith lane
      let go (n : BitVec 7) : List Act :=
        match g.heldLeader ls, (g.lane lane).hold with
        | some ld, some h =>
          let cl := s.dev.clusterOf g
          if !cl.unnamed n.toNat || s.dev.slotAhead cl n.toNat h.batch then []
          else Part.seq [
            Part.mod (fun d => (d.restartChecks cl n.toNat h.bytes).setCluster (cl.setSlot ⟨n.toNat, h.bytes, .loaded, 0⟩)),
            releaseLanes k ls (pcNext (g.lane ld).pc)] s
        | _, _ => []
      if s.dev.cuveeDue g lane then
        match heldWord l (g.lane lane) with
        | some (.cuvLoadBlk _ n) => go n
        | some (.cuvLoadPad _ n) => go n
        | _ => []
      else []
    | _, _ => []

/-- R207, R234: a held `cuv.chk` sets the state of its slot and writes its check word. Else there is no effect. -/
def execCuveeCheckComplete (k : GKey) (lane : Nat) (s : State) : Host.Outcome State Fault Refusal :=
  commit s <|
    match s.dev.group? k, s.dev.launch? k.launch with
    | some g, some l =>
      let ls := g.heldWith lane
      if s.dev.cuveeDue g lane then
        match heldWord l (g.lane lane), (g.lane lane).hold with
        | some (.cuvChk d n), some h =>
          let cl := s.dev.clusterOf g
          match cl.slot? n.toNat with
          | none => []
          | some x =>
            let w := checkWord x.image
            if s.dev.slotAhead cl n.toNat h.batch then []
            else Part.seq [
              Part.mod (fun dv => dv.setCluster (cl.setSlot
                { x with state := if bitAt w 0 then .valid else .invalid, word := BitVec.ofNat 64 w })),
              landSlots k ((g.heldOn ls).flatMap fun m => g.slots m d.toNat 2) w,
              releaseLanes k ls (pcNext (g.lane lane).pc)] s
        | _, _ => []
      else []
    | _, _ => []

end Sys2Proof.Machine
end

