-- ==== Sys2Proof/Machine/Links.lean ====
section
/-!
DEFINITION. Waold links (R352 to R356): their status, what waits to be sent and to be acknowledged, flow control, lanes and failures.
What the payload of a flit holds beyond its header the spec does not give: here it is named by what it carries (log 24).
-/

namespace Sys2Proof.Machine

/-! ### Status (R356) -/

/-- The status register of a link. -/
def Regs.linkStat (r : Regs) (n : Nat) : Nat := (cellGet r.link n ^^^ 0x3C).toNat
def Regs.setLinkStat (r : Regs) (n v : Nat) : Regs := { r with link := cellSet r.link n (BitVec.ofNat 64 v ^^^ 0x3C) }

def Regs.linkField (r : Regs) (n lo len v : Nat) : Regs := r.setLinkStat n (putBits (r.linkStat n) lo len v)

/-- A counter of a link's status that saturates. -/
def Regs.linkCount (r : Regs) (n lo k : Nat) : Regs := r.linkField n lo 16 (min (2 ^ 16 - 1) (bits (r.linkStat n) lo 16 + k))

def Regs.linkUp (r : Regs) (n : Nat) : Bool := bitAt (r.linkStat n) 0

/-! ### Links as data -/

/-- A link with nothing sent. -/
def Link.blank (n : Nat) : Link := ⟨n, 0, 0, 0, [], [], 0, 0, [0, 0, 0, 0], [], false, none⟩

def Dev.link (d : Dev) (n : Nat) : Link :=
  match d.links.find? fun l => decide (l.n = n) with
  | some l => l
  | none => .blank n
def Dev.setLink (d : Dev) (l : Link) : Dev := { d with links := upsert (fun x => decide (x.n = l.n)) l d.links }
def Dev.modRegs (d : Dev) (f : Regs → Regs) : Dev := { d with regs := f d.regs }

/-- Whether a flit of a channel may be sent now: the link is up, the retry buffer has room, and the channel is not paused; channel 3 is
never paused (R353, R354). -/
def Link.maySend (l : Link) (up : Bool) (vc : Nat) : Bool :=
  up && decide (l.retry.length < 512) && (decide (vc = 3) || !bitAt l.paused.toNat vc)

/-- Whether a message is link management: it is of no job. -/
def Message.manages : Message → Bool
  | .pause _ | .resume _ | .replay _ => true
  | _ => false

/-- The 256 bytes of a flit: its header with the sequence of the last flit received as acknowledged, its payload, and the CRC-64 over them
(R353; type and payload: log 24). -/
def flitBytes (num vc seq ack job : Nat) (m : Message) : List Byte :=
  let j := if m.manages then Config.flitJob num else job
  let head := leBytes 8 (vc % 4 + 4 * (seq % 4096) + 2 ^ 14 * (ack % 4096) + 2 ^ 26 * (Config.flitType num % 64) + 2 ^ 32 * (j % 2 ^ 32))
  let pay := Config.flitPayload num
  let body := head ++ (pay ++ List.replicate 240 0).take 240
  body ++ leBytes 8 (crc64 body).toNat

/-- A flit sent: it takes the next sequence, and stays in the retry buffer until it is acknowledged. -/
def Link.send (l : Link) (f : OutFlit) : Link :=
  let bs := flitBytes (l.n + 18 * l.made) f.vc l.sendSeq (l.recvSeq + 4095) f.job f.msg
  { l with
    made := l.made + 1
    retry := l.retry ++ [{ f with seq := l.sendSeq, bytes := bs, tries := 0 }]
    sendSeq := (l.sendSeq + 1) % 4096 }

/-- Waiting flits sent, in order within each channel. -/
def Link.drain (l : Link) (up : Bool) : Link :=
  let ws := l.waiting
  ws.foldl (fun l f =>
    if l.maySend up f.vc && !(l.waiting.any fun g => decide (g.vc = f.vc)) then l.send f else { l with waiting := l.waiting ++ [f] })
    { l with waiting := [] }

/-- A flit for a link. -/
def Dev.sendFlit (d : Dev) (n vc job : Nat) (m : Message) : Dev :=
  let l := d.link n
  d.setLink (({ l with waiting := l.waiting ++ [⟨0, vc, job, m, [], 0⟩] } : Link).drain (d.regs.linkUp n))

/-! ### Routes (R355) -/

def Dev.route? (d : Dev) (pkg : Nat) : Option Route := d.routes.find? fun r => decide (r.package = pkg)

/-- Whether a package can be named by an operation: this one, or one in the route table (R357, R359). -/
def Dev.routable (d : Dev) (pkg : Nat) : Bool := decide (pkg = d.package) || (d.route? pkg).isSome

/-- The link that an operation takes: the primary, or the alternate once the primary has gone down. -/
def Dev.linkFor (d : Dev) (pkg : Nat) : Option Nat :=
  if pkg = d.package then none
  else (d.route? pkg).map fun r => if (d.link r.primary).gone then r.alternate else r.primary

/-! ### Flits in (R353) -/

/-- The sequence distance from one number to another, of 12 bits. -/
def seqDist (a b : Nat) : Nat := (b + 4096 - a) % 4096

/-- Flits up to an acknowledged sequence leave the retry buffer. -/
def Link.acked (l : Link) (ack : Nat) : Link :=
  if l.retry.any fun f => decide (f.seq = ack) then { l with retry := (l.retry.dropWhile fun f => decide (f.seq ≠ ack)).drop 1 } else l

/-- A flit that a dump records and holds unapplied: one of its job, before its channel's marker, from the dump's start on (R367). -/
def Dev.dumpFlit (d : Dev) (n vc job : Nat) (flit : List Byte) : Dev :=
  match d.dump with
  | some x =>
    if x.job = job ∧ vc < 3 ∧ x.marked.contains (n, vc) = false ∧ x.lost.contains (n, vc) = false then
      { d with dump := some { x with held := x.held ++ [(n, vc, flit)] } }
    else d
  | none => d

/-- A flit enters the input buffer of its channel: past three quarters of it, PAUSE is sent (R354). -/
def Dev.fillInput (d : Dev) (n vc : Nat) : Dev :=
  let l := d.link n
  let k := l.input.getD vc 0 + 1
  let d1 := d.setLink { l with input := l.input.set vc k }
  if vc < 3 ∧ bitAt l.pausing.toNat vc = false ∧ 3 * Config.inputBuffer n < 4 * k then
    (d1.setLink { d1.link n with pausing := l.pausing ||| BitVec.ofNat 4 (2 ^ vc) }).sendFlit n 3 0 (.pause vc)
  else d1

/-- A flit is taken out of the input buffer of its channel: below one quarter of it, RESUME is sent (R354). -/
def Dev.takeInputFlit (d : Dev) (n vc : Nat) : Dev :=
  let l := d.link n
  let k := l.input.getD vc 0 - 1
  let d1 := d.setLink { l with input := l.input.set vc k }
  if bitAt l.pausing.toNat vc ∧ 4 * k < Config.inputBuffer n then
    (d1.setLink { d1.link n with pausing := l.pausing &&& ~~~ BitVec.ofNat 4 (2 ^ vc) }).sendFlit n 3 0 (.resume vc)
  else d1

/-- R353, R354: a flit arrives. A CRC error is counted, and the flit and every later one is discarded until the sequence comes again, for
which a replay is requested. -/
def execFlitReceive (link : Nat) (flit : List Byte) (s : State) : Host.Outcome State Fault Refusal :=
  commit s <|
    if s.dev.regs.linkUp link = false ∨ 18 ≤ link ∨ flit.length ≠ 256 then []
    else
      let l := s.dev.link link
      if leNat (flit.drop 248) ≠ (crc64 (flit.take 248)).toNat then
        [.dev ((s.dev.modRegs fun r => r.linkCount link 8 1).sendFlit link 3 0 (.replay l.recvSeq))]
      else
        let h := leNat (flit.take 8)
        if bits h 2 12 ≠ l.recvSeq then []
        else
          let l1 := ({ l with recvSeq := (l.recvSeq + 1) % 4096 }.acked (bits h 14 12)).drain true
          [.dev (((s.dev.setLink l1).fillInput link (h % 4)).dumpFlit link (h % 4) (h / 2 ^ 32) flit)]

/-- R354: PAUSE of a channel; channel 3 is never paused. -/
def execPause (link vc : Nat) (s : State) : Host.Outcome State Fault Refusal :=
  commit s <|
    if 3 ≤ vc ∨ 18 ≤ link then []
    else
      let l := s.dev.link link
      [.dev (s.dev.setLink { l with paused := l.paused ||| BitVec.ofNat 4 (2 ^ vc) })]

/-- R354: RESUME of a channel; what waits is sent. -/
def execResume (link vc : Nat) (s : State) : Host.Outcome State Fault Refusal :=
  commit s <|
    if 3 ≤ vc ∨ 18 ≤ link then []
    else
      let l := s.dev.link link
      [.dev (s.dev.setLink (({ l with paused := l.paused &&& ~~~ BitVec.ofNat 4 (2 ^ vc) } : Link).drain (s.dev.regs.linkUp link)))]

/-! ### Lanes and failures (R355, R363, R370) -/

/-- Whether a remote operation has a flit on a link or awaits a response over it; a collective, where its data has crossed it. -/
def EngineOp.uses (p : EngineOp) (n : Nat) : Bool := decide (p.link = some n) || p.links.contains n

/-- DETAIL of a remote operation that fails: the pages committed; for a `ratom`, 0 where it was certainly not performed, its target being this
package or its request never sent, and else what is known (R363). -/
def Dev.remoteDetail (d : Dev) (p : EngineOp) (known : Nat) : Nat :=
  match p.kind with
  | .ratom _ _ =>
    match p.link with
    | none => 0
    | some n => if !p.sent || (d.link n).waiting.any fun f => decide (f.msg = .request p.id) then 0 else known
  | _ => p.done

/-- A link goes down: its status, the operations that lose it, and a dump's channels. -/
def goDown (n : Nat) : Part := fun s =>
  let ps := s.dev.ops.filter fun p => p.uses n
  Part.seq [
    Part.mod (fun d => d.modRegs fun r => (r.linkField n 0 1 0).linkField n 60 1 1),
    Part.each ps (fun p s => failOp p 0x33 0 (s.dev.remoteDetail p 2) 0 s),
    Part.mod fun d =>
      let d1 := d.setLink { d.link n with retry := [], waiting := [], gone := true, training := none }
      match d1.dump with
      | none => d1
      | some x =>
        let gone := ((countFrom 0 3).map fun v => (n, v)).filter fun c => !x.marked.contains c && !x.lost.contains c
        { d1 with dump := some { x with lost := x.lost ++ gone, part := x.part || !gone.isEmpty } }] s

/-- A lane, or the spare as lane 8, is out of service. The spare replaces the first data lane, and the link retrains; with a second lane
the link goes down. -/
def laneFails (link lane : Nat) : Part := fun s =>
  let l := s.dev.link link
  let d1 := s.dev.setLink { l with failedLanes := l.failedLanes ++ [lane] }
  if !l.failedLanes.isEmpty then Part.andThen (fun _ => [.dev d1]) (goDown link) s
  else if lane = 8 then [.dev d1]
  else
    [.dev ((d1.setLink { d1.link link with training := some s.dev.time }).modRegs fun r =>
      ((r.linkField link 1 1 1).linkField link 2 4 lane).linkField link 0 1 0)]

/-- R355: the link detects that a lane fails; the spare is lane 8. -/
def execLaneFailure (link lane : Nat) (s : State) : Host.Outcome State Fault Refusal :=
  commit s <|
    if 18 ≤ link ∨ 9 ≤ lane ∨ (s.dev.link link).failedLanes.contains lane then [] else laneFails link lane s

/-- The lanes of a link in service. -/
def Link.lanesUsed (l : Link) : List Nat :=
  (countFrom 0 9).filter fun k => !l.failedLanes.contains k && (decide (k ≠ 8) || !l.failedLanes.isEmpty)

/-- R353, R355: the receiver asks for replay from a sequence: the flits from there on are sent again, and counted. A flit that has been
replayed 16 times in a row takes a lane out of service: which one, the spec does not say (log 24). -/
def execReplayRequest (link seq : Nat) (s : State) : Host.Outcome State Fault Refusal :=
  commit s <|
    let l := s.dev.link link
    let again := (l.retry.dropWhile fun f => decide (f.seq ≠ seq)).map fun f => { f with tries := f.tries + 1 }
    if again.isEmpty ∨ 18 ≤ link then []
    else
      let worn := again.any fun f => decide (16 ≤ f.tries)
      let back := again.map fun f => if worn then { f with tries := 0 } else f
      let used := l.lanesUsed
      Part.seq [
        Part.mod (fun d => (d.setLink { l with retry := (l.retry.takeWhile fun f => decide (f.seq ≠ seq)) ++ back }).modRegs fun r =>
          r.linkCount link 24 again.length),
        (if worn then
          Part.seq [
            laneFails link (used.getD ((Config.freeByte s.dev.free).toNat % used.length) 0),
            Part.mod fun d => { d with free := d.free + 1 }]
        else Part.none)] s

/-- R355: a link that has not retrained within 1 ms goes down. Else there is no effect. -/
def execLinkDown (link : Nat) (s : State) : Host.Outcome State Fault Refusal :=
  commit s <|
    match (s.dev.link link).training with
    | some t => if t + 1000000 ≤ s.dev.time ∧ link < 18 then goDown link s else []
    | none => []

/-- R355, R356: a link has retrained, or trained for the first time: it replays from its retry buffer, and its status names the far end,
which the cable fixes (log 24). A link that has lost two lanes does not train. -/
def execLinkRetrained (link : Nat) (s : State) : Host.Outcome State Fault Refusal :=
  commit s <|
    let l := s.dev.link link
    if 18 ≤ link ∨ 2 ≤ l.failedLanes.length then []
    else
      let far := (Config.freeWord s.dev.free).toNat
      let d1 := s.dev.modRegs fun r =>
        (((r.linkField link 0 1 1).linkField link 40 15 far).linkField link 55 5 (far / 2 ^ 15 % 18)).linkCount link 24 l.retry.length
      [.dev { d1.setLink (({ l with gone := false, training := none } : Link).drain true) with free := s.dev.free + 1 }]

end Sys2Proof.Machine
end

