-- ==== Sys2Proof/Machine/Fabric.lean ====
section
/-!
DEFINITION. Remote operations and collectives (R357 to R366): opcode 0x3E, what this package does as a target, and the ends of
operations at their issuer. Where the target is this package itself, its answer is computed here.
-/

namespace Sys2Proof.Machine

/-! ### Operands (R359) -/

/-- Bytes of a `ratom` operation. -/
def raopSize : RAOp → Nat
  | .op a => aopSize a
  | .casB32 => 4

/-- The package, the kind and the address that an operand group names. -/
def remPkg (v : List Nat) : Nat := v.getD 1 0 % 2 ^ 15
def remPad (v : List Nat) : Bool := bitAt (v.getD 1 0) 31
def remAddr (v : List Nat) : Nat := if remPad v then v.getD 2 0 else v.getD 2 0 + 2 ^ 32 * v.getD 3 0

/-- What is wrong with the package word and the address of a remote operand group. -/
def remBad (d : Dev) (v : List Nat) : Bool :=
  decide (bits (v.getD 1 0) 15 16 ≠ 0) || (remPad v && decide (v.getD 3 0 ≠ 0)) || !d.routable (remPkg v)

/-- The checks of the local range, the remote address and the object, in the order of R149 (R359). -/
def remFault (s : State) (g : Group) (l : Launch) (ld : Nat) (v : List Nat) (n align ralign : Nat) (write : Bool) : Option FaultInfo :=
  let j := s.dev.jobOf l
  let code := v.getD 0 0
  let loc := (codeAddr code,
    arrayRange s.dev l j g.key.block (codePad code) (codeAddr code) n align (if write then wholeOf n else noBytes))
  let far : List (Nat × Except (AccFault × Space) Target) :=
    if remAddr v % ralign ≠ 0 then [(remAddr v, .error (.misaligned, if remPad v then .pad else .stk))] else []
  worstRange ld (loc :: far ++ objChecks s.dev l j g.key.block (v.getD 5 0))

/-- The local store of an operand group. -/
def localStore (l : Launch) (block code n : Nat) : Store :=
  match (memTarget l block (codePad code) (codeAddr code) n).2 with
  | some t => t.store
  | none => .pad

/-- The remote range of an operation: package, whether of the pad, first byte, bytes, and whether it is written. -/
def EngineOp.remote (p : EngineOp) : Nat × Bool × Nat × Nat × Bool :=
  (remPkg p.regs, remPad p.regs, remAddr p.regs,
    (match p.kind with | .ratom k _ => raopSize k | _ => p.reg 4),
    (match p.kind with | .get => false | _ => true))

/-- Whether an operation has to wait for an earlier one of its group to the same package: it has not started, or it overlaps (R362). -/
def Dev.remoteWaits (d : Dev) (p : EngineOp) : Bool :=
  let x := p.remote
  d.ops.any fun q =>
    let y := q.remote
    decide (q.id < p.id) && decide (q.g = p.g) && q.kind.isRemote && decide (y.1 = x.1) &&
    (!q.sent || (decide (y.2.1 = x.2.1) && decide (y.2.2.1 < x.2.2.1 + x.2.2.2.1) && decide (x.2.2.1 < y.2.2.1 + y.2.2.2.1) &&
      (x.2.2.2.2 || y.2.2.2.2)))

/-- A remote operation starts, once nothing earlier keeps it: its request is put on its link (R362). -/
def startRemote (op : Nat) : Part := Part.mod fun d =>
  match d.op? op with
  | none => d
  | some p =>
    if p.sent || d.opWaits p || d.remoteWaits p || d.dumpHolds p.job then d
    else
      let d1 := d.setOp { p with sent := true }
      match p.link with
      | none => d1
      | some n => d1.sendFlit n 0 p.job (.request p.id)

/-- Remote operations that have not started start where they may, in the order of their issue (R362). -/
def startDue : Part := fun s =>
  Part.each (sortNat ((s.dev.ops.filter fun p => p.kind.isRemote && !p.sent).map EngineOp.id)) startRemote s

/-- A remote word after its checks: it waits for the group's stores, and is taken (R265, R320, R359). Its local range, of `n` bytes, is
registered at its issue. -/
def takeRemote (i : Instr) (c : Issue) (g : Group) (l : Launch) (ld : Nat) (v : List Nat) (kind : OpKind) (n : Nat) : Part := fun s =>
  let st := localStore l g.key.block (v.getD 0 0) n
  let mk (k : Nat) : EngineOp :=
    { newOp s c g ld kind v k none st st (objOf l g.key.block (v.getD 5 0)) [] with
      started := true
      link := s.dev.linkFor (remPkg v) }
  if !g.storesDone c then holdRanges c i ld (mk 0).ranges 4 s
  else acceptWith c g i mk (fun p => startRemote p.id) s

/-! ### Opcode 0x3E (R358 to R361) -/

/-- What ILLEGAL_OPERAND refuses in the operand group of a copy (R359). -/
def rcpBad (d : Dev) (v : List Nat) : Bool :=
  let n := v.getD 4 0
  remBad d v || decide (n % 16 ≠ 0) || decide (n < 16) || decide (2 ^ 24 < n) || decide (v.getD 6 0 ≠ 0) || decide (v.getD 7 0 ≠ 0)

/-- `rcp.put` and `rcp.get` (R359, R360). -/
def rcpWord (i : Instr) (r : Reg) (kind : OpKind) (write : Bool) (s : State) : List Act :=
  wordWith i (groupCauses 2 r 8 fun s v => rcpBad s.dev v) (fun c g l s =>
    match g.leader c.on with
    | none => []
    | some ld =>
      let v := opGroup s g c ld r 8
      match remFault s g l ld v (v.getD 4 0) 16 16 write with
        | some f => raise c f s
        | none => takeRemote i c g l ld v kind (v.getD 4 0) s) s

/-- `rcp.put` (R360). -/
def execRcpPut (g : Reg) (s : State) : Host.Outcome State Fault Refusal := commit s (rcpWord (.rcpPut g) g .put false s)

/-- `rcp.get` (R360). -/
def execRcpGet (g : Reg) (s : State) : Host.Outcome State Fault Refusal := commit s (rcpWord (.rcpGet g) g .get true s)

/-- Whether a `ratom`'s result depends on the order of accesses (R361). -/
def raopOrder : RAOp → Bool
  | .op .addF32 | .op .minF32 | .op .maxF32 => true
  | _ => false

/-- What ILLEGAL_OPERAND refuses in the operand group of a `ratom` (R359). -/
def ratomBad (d : Dev) (k : RAOp) (v : List Nat) : Bool :=
  let high : Bool := decide (raopSize k = 8) || decide (k = .casB32)
  remBad d v || (!high && decide (v.getD 6 0 ≠ 0)) || decide (v.getD 7 0 ≠ 0)

/-- `ratom` (R359, R361). -/
def execRatom (g : Reg) (o : BitVec 2) (k : RAOp) (s : State) : Host.Outcome State Fault Refusal :=
  commit s (wordWith (.ratom g o k) (groupCauses 2 g 8 fun s v => ratomBad s.dev k v) (fun c gr l s =>
    match gr.leader c.on with
    | none => []
    | some ld =>
      let v := opGroup s gr c ld g 8
      let n := raopSize k
      match remFault s gr l ld v n 8 n true with
        | some f => raise c f s
        | none =>
          if gr.det && raopOrder k then
            raise c (accessFault 6 (ld, codeAddr (v.getD 0 0), .det,
              (memTarget l gr.key.block (codePad (v.getD 0 0)) (codeAddr (v.getD 0 0)) n).1)) s
          else takeRemote (.ratom g o k) c gr l ld v (.ratom k o.toNat) n s) s)

/-- The fields of a collective's descriptor, after the eight operand words: KIND, FMT, OP, NMEM, RANK, ROOT, COUNT, MEMB, SEND, RECV,
CID, SEQ (R364). -/
def descOf (bs : List Byte) : List Nat :=
  let f (o n : Nat) : Nat := leNat ((bs.drop o).take n)
  [f 0 1, f 1 1, f 2 1, f 0xC 2, f 0xE 2, f 0x10 2, f 0x14 4, f 0x18 8, f 0x20 8, f 0x28 8, f 4 4, f 8 4]

/-- Whether a descriptor is in range (R364). -/
def descOk (bs : List Byte) : Bool :=
  let v := descOf bs
  let x (k : Nat) : Nat := v.getD k 0
  let zero (o n : Nat) : Bool := decide (leNat ((bs.drop o).take n) = 0)
  decide (x 0 ≤ 3) && [0, 1, 2, 7].contains (x 1) && decide (x 2 ≤ 2) && (decide (x 2 = 0) || (decide (x 0 ≠ 1) && decide (x 0 ≠ 3))) &&
  zero 3 1 && zero 0x12 2 && zero 0x30 16 && decide (1 ≤ x 3) && decide (x 3 ≤ 32768) && decide (x 4 < x 3) &&
  (if x 0 = 3 then decide (x 5 < x 3) else decide (x 5 = 0)) && decide (1 ≤ x 6)

/-- `coll.post` (R359, R364, R365). -/
def execCollPost (g : Reg) (s : State) : Host.Outcome State Fault Refusal :=
  commit s (wordWith (.collPost g)
    (groupCauses 2 g 8 fun _ v => [1, 2, 3, 4, 6, 7].any fun k => decide (v.getD k 0 ≠ 0))
    (fun c gr l s =>
      match gr.leader c.on with
      | none => []
      | some ld =>
        let v := opGroup s gr c ld g 8
        let j := s.dev.jobOf l
        let code := v.getD 0 0
        let r := readRange s.dev l j gr.key.block code 64 64
        match worstRange ld ((codeAddr code, r) :: objChecks s.dev l j gr.key.block (v.getD 5 0)), r with
        | some f, _ => raise c f s
        | none, .error _ => []
        | none, .ok t =>
          if !gr.storesDone c then holdRanges c (.collPost g) ld [⟨t.store, t.off, 64, false⟩] 4 s
          else
            let bs := s.bytes t.store t.off 64
            if !descOk bs then raise c (valueFault c 2) s
            else acceptWord c gr (.collPost g) (fun k =>
              newOp s c gr ld .coll (v ++ descOf bs) k none t.store t.store (objOf l gr.key.block (v.getD 5 0)) []) s) s)

/-! ### What a package does as a target (R357, R360, R361) -/

/-- What a remote access meets at the target. -/
inductive TargetRes where
  | ok
  | fault (va : Nat)
  | access
  | wait
  deriving DecidableEq, Repr

/-- The check of `n` bytes at an address of a job: its live job, its grant or its translations; `id` is the operation of this package
that asks, where one does, and `writes` gives the bytes that the operation writes in all (R271, R276, R357). -/
def State.target (s : State) (id : Option Nat) (job : Nat) (pad : Bool) (addr n : Nat) (write : Bool) (writes : Nat → Bool) : TargetRes :=
  match s.dev.job? job with
  | none => .access
  | some j =>
    if j.ending.isSome then .access
    else if pad then
      if padSize < addr + n || !j.granted addr n then .access
      else if s.dev.gate.any fun e =>
          (match id with | some k => decide (e.op < k) | none => true) && decide (e.store = .pad) && decide (e.lo < addr + n) &&
          decide (addr < e.hi) && (write || e.dst) && !e.rewritten job writes then
        .wait
      else .ok
    else
      match s.firstBad j write (sectors (countFrom addr n)) with
      | none => .ok
      | some (va, .fault) => .fault va
      | some (_, .access) => .access
      | some _ => .wait

/-- Bytes of a job's memory as a remote operation reads them; `own`: whose staged writes it sees. -/
def State.targetRead (s : State) (own : Option Seer) (job : Nat) (pad : Bool) (addr n : Nat) : List Byte :=
  if pad then bytesAt s.pad addr n
  else match s.dev.job? job with
    | some j => s.vaBytes j own addr n
    | none => []

/-- The translations of a remote operation's accesses at its target: A, and D for a write, are set (R314). -/
def targetNote (job : Nat) (pad : Bool) (addr n : Nat) (write : Bool) : Part :=
  if pad then Part.none else Part.each (sectors (countFrom addr n)) fun a => noteTranslation job a write

/-- Bytes written by a remote operation: not staged, not checked for races (R357, R362). -/
def targetWrite (link src job : Nat) (pad : Bool) (addr : Nat) (data : List Byte) (whole : Bool) : Part := fun s =>
  Part.seq [
    (if pad then
      if whole then fun s => storeBytes .pad addr data ++ [.dev (s.dev.wake none .pad addr data.length)]
      else plainWrite none .pad addr data
    else fun s =>
      match s.dev.job? job with
      | none => []
      | some j =>
        Part.seq [
          (fun s => data.zipIdx.filterMap fun e =>
            match s.translate j (addr + e.2) true with
            | .ok pa _ => some (paStore pa e.1)
            | _ => none),
          targetNote job false addr data.length true] s),
    fabricWatch link src job pad (fun a => decide (addr ≤ a) && decide (a < addr + data.length)) whole] s

/-- The new value of a remote atomic; `none` where `cas.b32` does not match (R361). -/
def raopNew (k : RAOp) (old a b : Nat) : Option Nat :=
  match k with
  | .op x => some (aopNew x old (a + 2 ^ 32 * b))
  | .casB32 => if old = a then some b else none

/-- A remote atomic on a location whose value is `old`, performed in one step; one that does not match writes nothing. -/
def targetAtom (link src job : Nat) (pad : Bool) (addr : Nat) (k : RAOp) (old a b : Nat) : Part :=
  match raopNew k old a b with
  | some v => targetWrite link src job pad addr (leBytes (raopSize k) v) true
  | none => targetNote job pad addr (raopSize k) false

/-- The view of a location of remote atomics in the records of release sequences: the pad's memory, or the virtual space of the job. -/
def ratomView (pad : Bool) (job : Nat) : Nat := if pad then 0 else 2 ^ 20 + job

/-- The pieces of a range, cut at 4 KiB addresses: first byte and bytes. -/
def cutPages (addr n : Nat) : List (Nat × Nat) :=
  (pagesOf addr n).map fun a => (a, min (addr + n) (4096 * (a / 4096 + 1)) - a)

/-- The pages by which a request commits at its destination, each as its bytes here: those of the remote range of a write, and for a read those
of the range that it is written to (R360). -/
def reqPages (r : RemoteReq) : List (Nat × Nat) :=
  match r.kind with
  | .put data => cutPages r.addr.toNat data.length
  | .get n dst => (cutPages dst n).map fun a => (r.addr.toNat + (a.1 - dst), a.2)
  | .atom k _ _ _ => [(r.addr.toNat, raopSize k)]

/-- A reply to a request of another package: a status byte and data; a copy has one for each page (log 24). -/
def reply (r : RemoteReq) (data : List Byte) : Part := Part.mod fun d => d.sendFlit r.link 1 r.job (.reply 0 data)

/-- A request of another package held on a page fault: its record, its HOLD notice (R321, R360). -/
def holdRequest (r : RemoteReq) (done va : Nat) (write : Bool) : Part :=
  let die := r.link / 3
  Part.seq [
    Part.mod fun d =>
      let ix := (d.logIndex die).getD 0
      let rec_ := rawRecord 0x30 2 0 r.job 0 0xFFFFFFFF 0xFF 0 0 0 va (4 + 16 * write.toNat + 256 * die) ix (d.timeFor r.job d.time)
      let d1 := d.modJob r.job fun j => j.report ⟨rec_, d.time, die * 2 ^ 12⟩
      let d2 : Dev := { d1 with heldReqs := d1.heldReqs ++ [⟨r, done, some ix⟩] }
      d2.sendFlit r.link 1 r.job .holdNotice,
    traceRec r.job die 5 0x30 0]

/-- The bytes that a write of a range writes. -/
def spanOf (write : Bool) (addr n : Nat) : Nat → Bool := fun a => write && decide (addr ≤ a) && decide (a < addr + n)

/-- A remote operation that has written all of its range of the pad: what an uncorrectable error had locked of it is released (R276). -/
def Dev.padRewritten (d : Dev) (job : Nat) (pad : Bool) (writes : Nat → Bool) : Dev :=
  if pad then { d with gate := d.gate.filter fun e => !(decide (e.store = .pad) && e.rewritten job writes) } else d

/-- Pages of a remote copy performed at the target, from page `k` on, each with its reply; it holds or fails at the first that it cannot do.
`ue`: a page at which an uncorrectable error of a source at a die is met (R276). -/
def servePages (r : RemoteReq) (data : Option (List Byte)) (base n : Nat) (ue : Option (Nat × Nat × Nat)) : Nat → List (Nat × Nat) → Part
  | _, [] => Part.mod fun d => d.padRewritten r.job r.pad (spanOf data.isSome base n)
  | k, (a, m) :: ps => fun s =>
    match s.target none r.job r.pad a m data.isSome (spanOf data.isSome base n) with
    | .fault va => Part.seq [
        (if data.isSome then Part.none else targetNote r.job r.pad a (va - a) false),
        holdRequest r k va data.isSome] s
    | .access => reply r [0x31, BitVec.ofNat 8 2] s
    | .wait => []
    | .ok =>
      match ue with
      | some (p, die, src) =>
        if p = k then Part.seq [targetNote r.job r.pad a m false, Part.mod fun d => d.countErr die src 0 1, reply r [0x32, 0]] s
        else page a m k ps s
      | none => page a m k ps s
where
  /-- A page done, its reply, and the pages that follow. -/
  page (a m k : Nat) (ps : List (Nat × Nat)) : Part := fun s =>
    Part.seq [
      (match data with
        | some bs => targetWrite r.link r.src r.job r.pad a ((bs.drop (a - base)).take m) false
        | none => targetNote r.job r.pad a m false),
      reply r (0 :: if data.isSome then [] else s.targetRead none r.job r.pad a m),
      servePages r data base n ue (k + 1) ps] s

/-- A request performed from its page `done` on; a remote atomic carries on the release sequences of its location, and heads one where it
releases, at `.sys` (R283, R287, R361). -/
def serve (r : RemoteReq) (done : Nat) (ue : Option (Nat × Nat × Nat)) : Part := fun s =>
  let addr := r.addr.toNat
  match r.kind with
  | .put data => servePages r (some data) addr data.length ue done ((reqPages r).drop done) s
  | .get n _ => servePages r none addr n ue done ((reqPages r).drop done) s
  | .atom k ord a b =>
    let n := raopSize k
    match s.target none r.job r.pad addr n true (spanOf true addr n), ue with
    | .fault va, _ => holdRequest r 0 va true s
    | .access, _ => reply r [0x31, BitVec.ofNat 8 2] s
    | .wait, _ => []
    | .ok, some (_, die, src) => Part.seq [
        targetNote r.job r.pad addr n false,
        Part.mod fun d => d.countErr die src 0 1,
        reply r [0x32, 0]] s
    | .ok, none =>
      let old := s.targetRead none r.job r.pad addr n
      let v := ratomView r.pad r.job
      Part.seq [
        Part.mod (fun d => if (raopNew k (leNat old) a.toNat b.toNat).isSome then
            d.carryOn .pad v v addr n (if 2 ≤ ord.toNat then some ⟨none, 4, []⟩ else none)
          else d),
        targetAtom r.link r.src r.job r.pad addr k (leNat old) a.toNat b.toNat,
        reply r (0 :: old)] s

/-- The bytes that a request touches. -/
def reqSpan (r : RemoteReq) : Nat :=
  match r.kind with
  | .put data => data.length
  | .get n _ => n
  | .atom k _ _ _ => raopSize k

/-- Whether a request is well formed (R357, R359). -/
def reqOk (r : RemoteReq) : Bool :=
  decide (r.link < 18) &&
  match r.kind with
  | .atom k _ _ _ => decide (r.addr.toNat % raopSize k = 0)
  | _ => decide (r.addr.toNat % 16 = 0) && decide (reqSpan r % 16 = 0) && decide (16 ≤ reqSpan r) && decide (reqSpan r ≤ 2 ^ 24)

/-- Whether a page of a request has to wait. -/
def State.serveWaits (s : State) (r : RemoteReq) : Bool :=
  let write : Bool := match r.kind with | .get _ _ => false | _ => true
  (reqPages r).any fun a =>
    decide (s.target none r.job r.pad a.1 a.2 write (spanOf write r.addr.toNat (reqSpan r)) = .wait)

/-- R357, R360, R361: a request of another package is performed here; it holds on a page fault, and waits while a dump of its job is under
way (R367). Else, where it has to wait for a range or a page, there is no effect yet. -/
def execRemoteRequest (r : RemoteReq) (s : State) : Host.Outcome State Fault Refusal :=
  commit s <|
    if !reqOk r then []
    else if s.dev.dumpHolds r.job then [.dev { s.dev with heldReqs := s.dev.heldReqs ++ [⟨r, 0, none⟩] }]
    else if s.serveWaits r then []
    else serve r 0 none s

/-- R276, R311, R312: a request of another package meets an uncorrectable error of a source at a die, at one of its pages: those before it are
done, and the requester's operation fails. -/
def requestError (r : RemoteReq) (page die src : Nat) : Part := fun s =>
  if !reqOk r ∨ s.dev.dumpHolds r.job ∨ s.serveWaits r ∨ 8 ≤ die ∨ 8 ≤ src then [] else serve r 0 (some (page, die, src)) s

/-! ### At the issuer (R360 to R363) -/

/-- Pages of a remote copy, by destination address: the remote ones of a put, the local ones of a get. -/
def EngineOp.remotePages (p : EngineOp) : List (Nat × Nat) :=
  match p.kind with
  | .put => cutPages (remAddr p.regs) (p.reg 4)
  | _ => cutPages (p.storeA.off (codeAddr (p.reg 0))) (p.reg 4)

/-- Local bytes of an operation written on the chip. -/
def localWrite (p : EngineOp) (off : Nat) (data : List Byte) : Part :=
  Part.seq [
    chipWrite p.storeA (data.zipIdx.map fun e => (off + e.2, e.1)),
    padWatch p p.storeA fun a => decide (off ≤ a) && decide (a < off + data.length)]

/-- A page of a copy done. -/
def pageDone (p : EngineOp) : Part :=
  let q := { p with done := p.done + 1, timer := 0, ask := 0, remoteHeld := false }
  if q.remotePages.length ≤ q.done then finishOp q (p.reg 4) else Part.mod fun d => d.setOp q

/-- A remote operation fails with the status that its target gives: CAUSE is 2 for ACCESS (R275, R357). -/
def targetFails (p : EngineOp) (st : Byte) (detail : Nat) : Part := failOp p st.toNat (if st = 0x31 then 2 else 0) detail 0

/-- An operation whose target is another package: its answer is a status byte and data (log 24). -/
def farResponse (p : EngineOp) (data : List Byte) : Part :=
  let off := p.storeA.off (codeAddr (p.reg 0))
  match data with
  | [] => Part.none
  | st :: bs =>
    match p.kind with
    | .put => if st = 0 then pageDone p else targetFails p st p.done
    | .get =>
      if st ≠ 0 then targetFails p st p.done
      else match p.remotePages.drop p.done with
        | [] => Part.none
        | (a, n) :: _ => if bs.length = n then Part.seq [localWrite p a bs, pageDone p] else Part.none
    | .ratom k _ =>
      if st ≠ 0 then targetFails p st 0
      else if bs.length = raopSize k then Part.seq [localWrite p off bs, finishOp p (raopSize k)]
      else Part.none
    | _ => Part.none

/-- What a target check of this package's own operation leads to. -/
def ownTarget (p : EngineOp) (write : Bool) (r : TargetRes) (go : Part) : Part :=
  match r with
  | .ok => go
  | .fault va => holdOp p va write
  | .access => failOp p 0x31 2 p.done 0
  | .wait => Part.none

/-- A `ratom` of this package on its own memory takes part in the release sequences of its location as an atomic of its group does at `.sys`,
with the order it names: 1 acquires, 2 releases, 3 does both (R178, R287, R361). -/
def Dev.syncRatom (d : Dev) (p : EngineOp) (ord n : Nat) (writes : Bool) : Dev :=
  let v := ratomView (remPad p.regs) p.job
  d.syncAtomic p.g .pad v v (remAddr p.regs) n (decide (ord % 2 = 1)) (decide (2 ≤ ord)) 4 writes

/-- An operation whose target is this package: its next page, or its atomic. -/
def ownResponse (p : EngineOp) : Part := fun s =>
  let pad := remPad p.regs
  let addr := remAddr p.regs
  let src := s.dev.package
  let off := p.storeA.off (codeAddr (p.reg 0))
  match p.kind with
  | .put =>
    match p.remotePages.drop p.done with
    | [] => []
    | (a, n) :: rest =>
      let span := spanOf true addr (p.reg 4)
      ownTarget p true (s.target (some p.id) p.job pad a n true span) (Part.seq [
        targetWrite 0 src p.job pad a (s.bytes p.storeA (off + (a - addr)) n) false,
        (if rest.isEmpty then Part.mod fun d => d.padRewritten p.job pad span else Part.none),
        pageDone p]) s
  | .get =>
    match p.remotePages.drop p.done with
    | [] => []
    | (a, n) :: _ =>
      let ra := addr + (a - off)
      ownTarget p false (s.target (some p.id) p.job pad ra n false noBytes) (Part.seq [
        targetNote p.job pad ra n false, localWrite p a (s.targetRead p.own p.job pad ra n), pageDone p]) s
  | .ratom k ord =>
    let n := raopSize k
    let old := s.targetRead p.own p.job pad addr n
    ownTarget p true (s.target (some p.id) p.job pad addr n true (spanOf true addr n)) (Part.seq [
      Part.mod (fun d => d.syncRatom p ord n (raopNew k (leNat old) (p.reg 4) (p.reg 6)).isSome),
      targetAtom 0 src p.job pad addr k (leNat old) (p.reg 4) (p.reg 6),
      localWrite p off old,
      finishOp p n]) s
  | _ => []

/-- R360, R361: a reply reaches an operation: a page is done, or the old value comes, or the operation fails. Else there is no effect. -/
def execRemoteResponse (op : Nat) (data : List Byte) (s : State) : Host.Outcome State Fault Refusal :=
  commit s <|
    match s.dev.op? op with
    | none => []
    | some p =>
      if p.kind.isRemote = false ∨ p.sent = false ∨ p.held.isSome ∨ s.dev.opWaits p ∨ s.dev.dumpHolds p.job then []
      else if p.link.isSome then farResponse p data s
      else ownResponse p s

/-- R360: the target holds an operation on a page fault: its timer pauses. -/
def execHoldNotice (op : Nat) (s : State) : Host.Outcome State Fault Refusal :=
  commit s <|
    match s.dev.op? op with
    | none => []
    | some p => if p.kind.isRemote && p.link.isSome then [.dev (s.dev.setOp { p with remoteHeld := true })] else []

/-- R363: a remote operation has had neither progress nor a HOLD notice for 200 us. Else there is no effect. -/
def execRemoteTimeout (op : Nat) (known : BitVec 2) (s : State) : Host.Outcome State Fault Refusal :=
  commit s <|
    match s.dev.op? op with
    | none => []
    | some p =>
      if p.kind.isRemote = false ∨ p.timer < 200000 ∨ p.held.isSome ∨ p.remoteHeld then []
      else failOp p 0x34 0 (s.dev.remoteDetail p (known.toNat % 3)) 0 s

/-! ### Collectives (R364 to R366) -/

/-- A collective's fields in its operation. -/
def EngineOp.desc (p : EngineOp) (k : Nat) : Nat := p.reg (8 + k)

/-- The format of a collective's elements, and their bytes. -/
def collFmt (f : Nat) : Fmt := match Fmt.ofCode f with | some x => x | none => .f32
def collSize (f : Nat) : Nat := if f = 1 ∨ f = 2 then 2 else 4

/-- Elements in the send and the receive buffer. -/
def EngineOp.sendLen (p : EngineOp) : Nat :=
  if p.desc 0 = 2 then p.desc 3 * p.desc 6 else if p.desc 0 = 3 ∧ p.desc 4 ≠ p.desc 5 then 0 else p.desc 6
def EngineOp.recvLen (p : EngineOp) : Nat := if p.desc 0 = 1 then p.desc 3 * p.desc 6 else p.desc 6

/-- An element as it enters a reduction: widened exactly to FP32, or an INT32 word. -/
def collWiden (f x : Nat) : Nat := if f = 7 then x % 2 ^ 32 else (convertElt (collFmt f) .f32 .rn false x).bits

/-- One step of a reduction (R365). -/
def collStep (f op y x : Nat) : Nat :=
  if f = 7 then
    let a : Word := BitVec.ofNat 32 y
    let b : Word := BitVec.ofNat 32 x
    if op = 0 then (a + b).toNat else if (decide (a.toInt ≤ b.toInt)) = decide (op = 1) then y else x
  else if op = 0 then (fpAdd fmtF32 .rn false y x).bits
  else fpMinMax fmtF32 (decide (op = 2)) y x

/-- A reduced element, in rank order (R365). -/
def collReduce (f op : Nat) (xs : List Nat) : Nat :=
  match xs.map (collWiden f) with
  | [] => 0
  | y :: ys =>
    let r := ys.foldl (collStep f op) y
    if f = 1 ∨ f = 2 then (convertElt .f32 (collFmt f) .rn false r).bits else r

/-- The receive buffer of a member, given every rank's elements. -/
def collResult (p : EngineOp) (x : Nat → Nat → Nat) : List Nat :=
  let n := p.desc 3
  let c := p.desc 6
  match p.desc 0 with
  | 0 => (countFrom 0 c).map fun i => collReduce (p.desc 1) (p.desc 2) ((countFrom 0 n).map fun q => x q i)
  | 1 => (countFrom 0 n).flatMap fun q => (countFrom 0 c).map fun i => x q i
  | 2 => (countFrom 0 c).map fun i => collReduce (p.desc 1) (p.desc 2) ((countFrom 0 n).map fun q => x q (p.desc 4 * c + i))
  | _ => (countFrom 0 c).map fun i => x (p.desc 5) i

/-- Elements of a buffer in memory, as an operation reads them. -/
def State.collRead (s : State) (j : Job) (own : Option Seer) (va size n : Nat) : List Nat :=
  (countFrom 0 n).map fun i => leNat (s.vaBytes j own (va + size * i) size)

/-- Whether two members' posts disagree (R365). -/
def EngineOp.disagrees (p : EngineOp) (memb : List Nat) (x : CollPost) : Bool :=
  decide (p.desc 0 ≠ x.kind) || decide (p.desc 1 ≠ x.fmt) || decide (p.desc 2 ≠ x.op) || decide (p.desc 3 ≠ x.nmem) ||
  decide (p.desc 5 ≠ x.root) || decide (p.desc 6 ≠ x.count) || decide (memb ≠ x.memb)

/-- Whether posts claim one rank twice. -/
def ranksClash : List Nat → Bool
  | [] => false
  | r :: rs => rs.contains r || ranksClash rs

/-- Whether the posts given hold those of the other members that are operations of this package, as they are (log 25). -/
def State.localPosts (s : State) (j : Job) (p : EngineOp) (posts : List CollPost) : Bool :=
  s.dev.ops.all fun q =>
    decide (q.id = p.id) || decide (q.kind ≠ .coll) || decide (q.job ≠ p.job) || decide (q.desc 10 ≠ p.desc 10) ||
    decide (q.desc 11 ≠ p.desc 11) ||
    posts.any fun x =>
      decide (x.rank = q.desc 4) && !q.disagrees (s.collRead j q.own (q.desc 7) 2 (q.desc 3)) x &&
      decide (x.send.map BitVec.toNat = s.collRead j q.own (q.desc 8) (collSize (q.desc 1)) q.sendLen)

/-- The addresses that a member reads: its table and its send buffer. -/
def EngineOp.collReads (p : EngineOp) : List Nat :=
  sectors (countFrom (p.desc 7) (2 * p.desc 3)) ++ sectors (countFrom (p.desc 8) (collSize (p.desc 1) * p.sendLen))

/-- Pages of a member's receive buffer committed; it holds or fails at the first that it cannot do, and waits for room in staging. Under
DET the writes are keyed and staged like those of a copy (R280). -/
def collCommit (op : Nat) (j : Job) (bytes : List Byte) : List (Nat × Nat) → Part
  | [] => fun s => (match s.dev.op? op with | some p => finishOp p bytes.length s | none => [])
  | (a, n) :: ps => fun s =>
    match s.dev.op? op with
    | none => []
    | some p =>
      let as := sectors (countFrom a n)
      match s.firstBad j true as with
      | some (va, t) => badAddress p p.done as va true t s
      | none =>
        if s.dev.stagingFull p then awaitStaging p s
        else
          Part.seq [
            Part.each as (fun x => noteTranslation p.job x true),
            mainWrite p j (((bytes.drop (a - p.desc 9)).take n).zipIdx.map fun e => (a + e.2, e.1)),
            Part.mod (fun d => { d.setOp { p with done := p.done + 1, timer := 0, ask := 0 } with free := d.free + 2 ^ 52 }),
            collCommit op j bytes ps] s

/-- The data of a collective sent to the packages of its other members, on channel 2 of the link to each (R352). -/
def sendCollective (p : EngineOp) (memb : List Nat) : Part := Part.mod fun d =>
  let ns := if p.started then [] else ((memb.filterMap d.linkFor).eraseDups)
  let d1 := ns.foldl (fun d n => d.sendFlit n 2 p.job (.collective p.id)) d
  d1.setOp { p with started := true, links := if p.started then p.links else ns }

/-- R365: every member of the collective of an operation has posted, as `posts` says of the others: the member fails where they disagree,
or its data is sent and its receive buffer commits. Else there is no effect. -/
def execCollMatch (op : Nat) (posts : List CollPost) (s : State) : Host.Outcome State Fault Refusal :=
  commit s <|
    match s.dev.op? op with
    | none => []
    | some p =>
      match s.dev.job? p.job with
      | none => []
      | some j =>
        if p.kind ≠ .coll ∨ p.held.isSome ∨ s.dev.dumpHolds p.job ∨ posts.length + 1 ≠ p.desc 3 ∨
            s.localPosts j p posts = false then []
        else match s.firstBad j false p.collReads with
          | some (va, t) => badAddress p p.done p.collReads va false t s
          | none =>
            let size := collSize (p.desc 1)
            let memb := s.collRead j p.own (p.desc 7) 2 (p.desc 3)
            if posts.any (p.disagrees memb) || ranksClash (p.desc 4 :: posts.map CollPost.rank) then failOp p 0x03 0 0 0 s
            else
              let own := s.collRead j p.own (p.desc 8) size p.sendLen
              let x (q i : Nat) : Nat :=
                if q = p.desc 4 then own.getD i 0
                else match posts.find? fun y => decide (y.rank = q) with
                  | some y => (y.send.getD i 0).toNat
                  | none => 0
              let bytes := (collResult p x).flatMap (leBytes size)
              Part.seq [
                Part.each p.collReads (fun a => noteTranslation p.job a false),
                sendCollective p memb,
                collCommit op j bytes ((cutPages (p.desc 9) bytes.length).drop p.done)] s

/-- R366: a member's partners have not all posted within the launch's watchdog, from its own post. Else there is no effect. -/
def execCollTimeout (op : Nat) (s : State) : Host.Outcome State Fault Refusal :=
  commit s <|
    match s.dev.op? op with
    | none => []
    | some p =>
      match s.dev.launch? p.launch with
      | none => []
      | some l =>
        if p.kind ≠ .coll ∨ p.started ∨ p.held.isSome ∨ p.timer < 1000 * (if l.dogUs = 0 then 100000 else l.dogUs) then []
        else failOp p 0x34 0 0 0 s

/-- R366: the job of another member of a collective has ended: the member fails, whether it has started or not. -/
def memberEnded (op : Nat) : Part := fun s =>
  match s.dev.op? op with
  | none => []
  | some p => if p.kind ≠ .coll ∨ p.desc 3 ≤ 1 ∨ s.dev.dumpHolds p.job then [] else failOp p 0x34 0 p.done 0 s

/-- The packages of the other members of a job's collectives are told that it ends (R366), on channel 2 of the link to each. -/
def tellMembers (job : Nat) : Part := fun s =>
  match s.dev.job? job with
  | none => []
  | some j =>
    Part.each ((s.dev.ops.filter fun p => decide (p.job = job) && decide (p.kind = .coll)).map EngineOp.id) (fun op s =>
      match s.dev.op? op with
      | none => []
      | some p =>
        let ns := ((s.collRead j p.own (p.desc 7) 2 (p.desc 3)).filterMap s.dev.linkFor).eraseDups
        [.dev (ns.foldl (fun d n => d.sendFlit n 2 job (.memberEnded op)) s.dev)]) s

/-! ### Readiness of engine words (R136, R269, R320) -/

/-- The on-chip ranges that an engine word registers at its issue, its operand group read (R269, R359). -/
def issueRanges (s : State) (c : Issue) (g : Group) (l : Launch) (ld : Nat) (i : Instr) : List ChipRange :=
  let j := s.dev.jobOf l
  let arr (pad : Bool) (a n : Nat) (dst : Bool) : List ChipRange :=
    match (memTarget l g.key.block pad a n).2 with | some t => [⟨t.store, t.off, n, dst⟩] | none => []
  let copy (r : Reg) (t toChip pad : Bool) : List ChipRange :=
    let v := opGroup s g c ld r 6
    match readRange s.dev l j g.key.block (v.getD 2 0) 32 32 with
    | .error _ => []
    | .ok rt =>
      if g.storesDone c then arr pad (v.getD 0 0) (geomOf (layoutOf (s.bytes rt.store rt.off 32)) t v).extent toChip
      else [⟨rt.store, rt.off, 32, false⟩]
  let far (r : Reg) (n : Nat → Nat) (dst : Bool) : List ChipRange :=
    let v := opGroup s g c ld r 8
    arr (codePad (v.getD 0 0)) (codeAddr (v.getD 0 0)) (n (v.getD 4 0)) dst
  match i with
  | .cpG2s r x => copy r false true x
  | .cpS2g r x => copy r false false x
  | .cpTG2s r x => copy r true true x
  | .cpTS2g r x => copy r true false x
  | .cpS2s r y x =>
    let v := opGroup s g c ld r 6
    arr x (v.getD 0 0) (v.getD 2 0) false ++ arr y (v.getD 1 0) (v.getD 2 0) true
  | .gat _ a _ p z =>
    let size := 4 * 2 ^ z.toNat
    let lanes := (c.on.filter g.isLive).filterMap fun m =>
      let addr := (srcV s.dev g c m a.toNat).toNat
      (memTarget l g.key.block p addr size).2.map fun t => (⟨m, 0, t.store, t.off, false, false, 0⟩ : GatLane)
    ((lanes.map GatLane.store).eraseDups).map (gatRange size lanes)
  | .rcpPut r => far r id false
  | .rcpGet r => far r id true
  | .ratom r _ k => far r (fun _ => raopSize k) true
  | .collPost r => if g.storesDone c then [] else far r (fun _ => 64) false
  | _ => []

/-- Whether a word posts an operation of an engine with an operand log. -/
def postsOp : Instr → Bool
  | .cpG2s _ _ | .cpS2g _ _ | .cpTG2s _ _ | .cpTS2g _ _ | .cpS2s _ _ _ | .migPost _ | .gat _ _ _ _ _ => true
  | .rcpPut _ | .rcpGet _ | .ratom _ _ _ | .collPost _ => true
  | _ => false

/-- Why an engine word is not ready: no entry of the operand log is free, or a headgate table lacks room (R269, R320); `gat`, which holds no
batch, waits for its group's stores first (R277). -/
def engineBlocked (s : State) (c : Issue) (g : Group) (l : Launch) (i : Instr) : Option (Nat × Watchdog) :=
  match g.leader c.on with
  | none => none
  | some ld =>
    let own : Bool := match i with | .gat _ _ _ _ _ => !g.storesDone c | _ => false
    if !postsOp i then none
    else if own then some (4, .none)
    else if (s.dev.logIndex g.die).isNone || !s.dev.gateRoom (issueRanges s c g l ld i) then some (3, .none)
    else none

/-! ### Requests to other dies (R317, R325, R327) -/

/-- The next page of a remote operation whose target is this package: its bytes there. -/
def EngineOp.ownPage (p : EngineOp) : Option (Nat × Nat) :=
  let off := p.storeA.off (codeAddr (p.reg 0))
  match p.kind with
  | .put => (p.remotePages.drop p.done).head?
  | .get => (p.remotePages.drop p.done).head?.map fun a => (remAddr p.regs + (a.1 - off), a.2)
  | .ratom k _ => some (remAddr p.regs, raopSize k)
  | _ => none

/-- The next page of a collective's receive buffer. -/
def EngineOp.collPage (p : EngineOp) : List Nat :=
  match (cutPages (p.desc 9) (collSize (p.desc 1) * p.recvLen)).drop p.done with
  | (a, n) :: _ => sectors (countFrom a n)
  | [] => []

/-- Whether an operation waits for a page that moves or for a frame pool: no request of it is on its way (R317, R325). -/
def State.opStands (s : State) (p : EngineOp) : Bool :=
  let moving (j : Job) (reads writes : List Nat) : Bool :=
    match s.firstBad j false reads, s.firstBad j true writes with
    | some (_, .wait), _ => true
    | none, some (_, .wait) => true
    | _, _ => false
  match s.dev.job? p.job with
  | none => false
  | some j =>
    match p.kind with
    | .gat size => p.lanes.any fun x => !x.got && !x.failed && decide (gatOutcome s p j size 0 x = .wait)
    | .mig =>
      (match p.move, s.walk j p.migVa with
      | .returning o _ _, _ => !s.dev.regs.poolRoom o
      | .moving _, .leaf e => s.dev.stagedOver p.job p.migVa e.bytes
      | .moving _, _ => false
      | .ready, w =>
        match trWalk w p.migVa false with
        | .wait => true
        | .ok _ e =>
          let t := targetOf (p.reg 3)
          !s.dev.poolsReady (poolOf t.1 t.2.1 t.2.2) e.oldPool
        | _ => false)
    | .coll => moving j p.collReads p.collPage
    | .put | .get | .ratom _ _ =>
      p.link.isNone && match p.ownPage with
        | some (a, n) =>
          decide (s.target (some p.id) p.job (remPad p.regs) a n p.remote.2.2.2.2 (spanOf p.remote.2.2.2.2 (remAddr p.regs) p.remote.2.2.2.1)
            = .wait)
        | none => false
    | _ =>
      match p.pages.drop p.done with
      | [] => false
      | page :: _ =>
        let w := pageWork s p j page
        moving j (sectors w.reads) (sectors w.writes)

/-- Whether an operation's next step asks another die of the package: a slice of the pad, a translation walk, or memory (R327). -/
def State.opCrosses (s : State) (p : EngineOp) : Bool :=
  let slice (st : Store) (as : List Nat) : Bool := decide (st = .pad) && as.any fun a => decide (padHome a ≠ p.die)
  let ends (dst : Bool) : Bool := p.ranges.any fun r => (dst || !r.dst) && slice r.store [r.lo, r.lo + r.n - 1]
  match s.dev.job? p.job with
  | none => false
  | some j =>
    match p.kind with
    | .gat _ => p.lanes.any fun x => !x.got && !x.failed && laneAsks s p j x
    | .mig =>
      let t := targetOf (p.reg 3)
      s.asksDie j p.die p.migVa || decide (t.1 ≠ 0) || decide (homeDie ⟨t.2.1 * 64 + t.2.2 * 256, 0, 0⟩ p.migVa ≠ p.die)
    | .g2s _ | .s2g _ | .s2s =>
      (match p.pages.drop p.done with
      | [] => false
      | page :: _ =>
        let w := pageWork s p j page
        slice p.chipStore (w.chip.map Prod.fst) ||
        (match p.kind with | .g2s _ => false | _ => ends false) ||
        (sectors w.reads ++ sectors w.writes).any (s.asksDie j p.die))
    | .put | .get | .ratom _ _ =>
      ends true || match p.ownPage with
        | some (a, n) => if remPad p.regs then slice .pad [a, a + n - 1] else (sectors (countFrom a n)).any (s.asksDie j p.die)
        | none => false
    | .coll => (p.collReads ++ p.collPage).any (s.asksDie j p.die)
where
  /-- Whether a lane of a gather asks another die: for its destination's slice, in its walk, or for its data. -/
  laneAsks (s : State) (p : EngineOp) (j : Job) (x : GatLane) : Bool :=
    (decide (x.store = .pad) && decide (padHome x.dst ≠ p.die)) || s.asksDie j p.die x.va

end Sys2Proof.Machine
end

