-- ==== Sys2Proof/Machine/Moments.lean ====
section
/-!
DEFINITION. The moment class in registers: opcodes 0x20 to 0x22 (R122 to R130). Its memory words stand with the memory families.
-/

namespace Sys2Proof.Machine

/-- A moment register as a pair of encodings (R64). -/
def momOf (x : Dword) : Moment := ⟨x.toNat % 2 ^ 32, x.toNat / 2 ^ 32⟩

/-- A moment register of a lane. -/
def Group.mom (g : Group) (l n : Nat) : Moment := momOf (cellGet (g.lane l).m n)

/-- The cause detail of NEGVAR: the lane and the origin (R122). -/
def negvarCause (lane origin : Nat) : Nat := lane % 64 + origin * 64

/-- The lowest live lane whose variance CheckVar refuses (R122). -/
def badLane (g : Group) (ls : List Nat) (var : Nat → Nat) : Option Nat :=
  (ls.filter g.isLive).find? fun l => badVar (var l)

/-- A word that writes moments: its steps, CheckVar with its origin, the fault or the clamp, the flags (R122, R123). -/
def momWord (i : Instr) (d : Reg) (origin : Nat) (f : State → Issue → Group → Nat → MomRes) (s : State) : List Act :=
  word i (fun c g _ s =>
    let r := f s c g
    match (if g.nvf then badLane g c.on (fun l => (r l).var) else none) with
    | some l => raise c { code := .negvar, cause := negvarCause l origin } s
    | none =>
      let vcl := (c.on.filter g.isLive).any fun l => badVar (r l).var
      retire c.g i.latency ((c.on.flatMap fun l =>
        outMom l d.toNat (r l).mean (if badVar (r l).var then 0 else (r l).var)) ++
        outFlags (joinBits ((c.on.filter g.isLive).map fun l => (r l).fl) + if vcl then 32 else 0)) s) s

/-- The correlation that GSR gives (R124). -/
def Group.corr (g : Group) : Val := rhoVal g.cvm g.rho

/-- `madd` (R126). -/
def execMadd (d : Reg) (a : Reg) (b : Reg) (s : State) : Host.Outcome State Fault Refusal :=
  commit s (momWord (.madd d a b) d 0 (fun _ _ g l => maddStep 1 g.corr (g.mom l a.toNat) (g.mom l b.toNat)) s)

/-- `msub` (R126). -/
def execMsub (d : Reg) (a : Reg) (b : Reg) (s : State) : Host.Outcome State Fault Refusal :=
  commit s (momWord (.msub d a b) d 0 (fun _ _ g l => maddStep (-1) g.corr (g.mom l a.toNat) (g.mom l b.toNat)) s)

/-- `mmul` (R126). -/
def execMmul (d : Reg) (a : Reg) (b : Reg) (s : State) : Host.Outcome State Fault Refusal :=
  commit s (momWord (.mmul d a b) d 0 (fun _ _ g l => mmulStep g.corr (g.mom l a.toNat) (g.mom l b.toNat) none) s)

/-- `mfma` (R126). -/
def execMfma (d : Reg) (a : Reg) (b : Reg) (s : State) : Host.Outcome State Fault Refusal :=
  commit s (momWord (.mfma d a b) d 0
    (fun _ _ g l => mmulStep g.corr (g.mom l a.toNat) (g.mom l b.toNat) (some (g.mom l d.toNat))) s)

/-- `mscl` (R126). -/
def execMscl (d : Reg) (a : Reg) (b : Reg) (s : State) : Host.Outcome State Fault Refusal :=
  commit s (momWord (.mscl d a b) d 0
    (fun s c g l => msclStep (g.mom l a.toNat) (srcV s.dev g c l b.toNat).toNat) s)

/-- `mrelu` (R128). -/
def execMrelu (d : Reg) (a : Reg) (s : State) : Host.Outcome State Fault Refusal :=
  commit s (momWord (.mrelu d a) d 0 (fun _ _ g l => mreluStep (g.mom l a.toNat)) s)

/-- `mexp` (R128). -/
def execMexp (d : Reg) (a : Reg) (s : State) : Host.Outcome State Fault Refusal :=
  commit s (momWord (.mexp d a) d 0 (fun _ _ g l => mexpStep (g.mom l a.toNat)) s)

/-- `msigm` (R128). -/
def execMsigm (d : Reg) (a : Reg) (s : State) : Host.Outcome State Fault Refusal :=
  commit s (momWord (.msigm d a) d 0 (fun _ _ g l => msigmStep (g.mom l a.toNat)) s)

/-- `mtanh` (R128). -/
def execMtanh (d : Reg) (a : Reg) (s : State) : Host.Outcome State Fault Refusal :=
  commit s (momWord (.mtanh d a) d 0 (fun _ _ g l => mtanhStep (g.mom l a.toNat)) s)

/-- `mset` (R129): the mean with a NaN replaced, the variance as it stands. -/
def execMset (d : Reg) (a : Reg) (b : Reg) (s : State) : Host.Outcome State Fault Refusal :=
  commit s (momWord (.mset d a b) d 1 (fun s c g l =>
    let m := (srcV s.dev g c l a.toNat).toNat
    ⟨if (f32 m).isNan then fmtF32.nan else m, (srcV s.dev g c l b.toNat).toNat, {}⟩) s)

/-- `mcol.mean` (R129). -/
def execMcolMean (d : Reg) (a : Reg) (s : State) : Host.Outcome State Fault Refusal :=
  commit s (word (.mcolMean d a) (fun c g _ s =>
    retire c.g (Instr.mcolMean d a).latency (c.on.flatMap fun l => outRun g l d.toNat 1 (g.mom l a.toNat).mean) s) s)

/-- `mcol.var` (R129). -/
def execMcolVar (d : Reg) (a : Reg) (s : State) : Host.Outcome State Fault Refusal :=
  commit s (word (.mcolVar d a) (fun c g _ s =>
    retire c.g (Instr.mcolVar d a).latency (c.on.flatMap fun l => outRun g l d.toNat 1 (g.mom l a.toNat).var) s) s)

/-- `mcol.smp` (R130). -/
def execMcolSmp (d : Reg) (a : Reg) (b : Reg) (s : State) : Host.Outcome State Fault Refusal :=
  commit s (word (.mcolSmp d a b) (fun c g la s =>
    let res (l : Nat) : Res :=
      let q := laneDraw la c .mcolSmp (srcV s.dev g c l b.toNat) l
      mcolSmpStep (g.mom l a.toNat) q.x0.toNat q.x1.toNat
    retire c.g (Instr.mcolSmp d a b).latency ((c.on.flatMap fun l => outRun g l d.toNat 1 (res l).bits) ++
      outFlags (joinBits ((flagLanes g c false).map fun l => (res l).fl))) s) s)

end Sys2Proof.Machine
end

