-- ==== Sys2Proof/Machine/Matrix.lean ====
section
/-!
DEFINITION. The matrix engine: posts (R187 to R197, R222 to R227), tile control (R228 to R233), and the sluice's grants and passes
(R194 to R202, R214, R216, R220, R221).
-/

namespace Sys2Proof.Machine

/-! ### Tiles (R191) -/

/-- The FP32 tiles that a tile field names under a format: 5 and 9 are moments. -/
def tilesOf (moment : Bool) (t : Nat) : List Nat := if moment then [2 * t, 2 * t + 1] else [t]

def Entry.tiles (e : Entry) : List Nat := tilesOf (decide (e.fmt = 5)) e.tile

/-- The number of an element of a tile in the block's store. -/
def tileIx (t r c : Nat) : Nat := 4096 * t + 64 * r + c

/-- Entries of a cluster that target a tile of a block. -/
def Cluster.onTile (c : Cluster) (k : GKey) (t : Nat) : List Entry :=
  c.all.filter fun e => decide (e.g.launch = k.launch) && decide (e.g.block = k.block) && e.tiles.contains t

/-- A tile's status changed: bits cleared, then set (OVF, NANW, INFW, NEGV in bits 0 to 3). -/
def Block.setStat (b : Block) (t : Nat) (clear set : Nat) : Block :=
  let x := (cellGet b.tileStat t).toNat
  { b with tileStat := cellSet b.tileStat t (BitVec.ofNat 4 ((x - (x &&& clear)) ||| set)) }

/-- CAUSE of ACC_RANGE, CUVEE_INVALID and DET_VIOLATION (R227). -/
def octetCause (c : Issue) (octet : Nat) : Nat := pcSlot c.loc + 4 * octet

/-! ### Posts: what each octet asks for (R224 to R226) -/

/-- One octet's operation of a post before its checks: unmasked lanes, lowest first, and the words of its lowest lane. -/
structure PostOp where
  octet : Nat
  lanes : List Nat
  b : Nat
  obj : Nat
  slot : Nat
  depth : Nat
  narrow : Bool
  /-- Descriptor bits 31:7. -/
  rest : Nat
  /-- Its rows: those of the registers, or those of the latch that are unmasked here too (R190). -/
  rows : List (Nat × Nat)
  /-- The latch that is left. -/
  latch : Option Latch
  deriving DecidableEq, Repr

def PostOp.lane (p : PostOp) : Nat := p.lanes.headD 0

/-- Registers from `a` on as one number, the first lowest. -/
def runNat (s : State) (g : Group) (c : Issue) (l a n : Nat) : Nat :=
  natSum ((countFrom 0 n).map fun k => (srcV s.dev g c l (a + k)).toNat * 2 ^ (32 * k))

/-- The moment elements of a quarter as a row of 64 pairs of BF16 (R226). -/
def momentRow (g : Group) (l q : Nat) : Nat :=
  natSum ((countFrom 0 16).map fun k =>
    let m := g.mom l k
    (bf16Of m.mean + 2 ^ 16 * bf16Of m.var) * 2 ^ (32 * (16 * q + k)))

/-- The length of B (R225). -/
def tileLen (fmt : Nat) : Nat :=
  match fmt with
  | 0 | 1 => 8192
  | 2 | 3 => 4096
  | 4 => 2560
  | _ => 16384

/-- A post: its format code, A base or quarter, register group, tile, space of B and D. -/
structure Post where
  fmt : Nat
  a : Nat
  b : Nat
  tile : Nat
  pad : Bool
  dsc : Bool
  deriving DecidableEq, Repr

/-- Registers of the A run by format. -/
def runLen (fmt : Nat) : Nat :=
  match fmt with
  | 0 | 1 => 32
  | 2 | 3 => 16
  | _ => 10

/-- A row of A from a lane's registers. -/
def Post.row (p : Post) (s : State) (g : Group) (c : Issue) (l : Nat) : Nat :=
  if p.fmt = 5 then momentRow g l p.a else runNat s g c l p.a (runLen p.fmt)

/-- The operations of a post, by octet. R190 treats a row that was latched as masked as masked, whatever the lane is now. The lowest lane, whose B
words count and which the checks and CAUSE name, is still the lowest lane that is unmasked at this post, whatever its latched row; an operation
whose rows are all masked enters nothing (log 68). -/
def Post.ops (p : Post) (s : State) (c : Issue) (g : Group) : List PostOp :=
  let act := c.on.filter g.isLive
  (sortNat (act.map fun l => l / 8)).map fun o =>
    let ls := act.filter fun l => decide (l / 8 = o)
    let ld := ls.headD 0
    let v (k : Nat) : Nat := (srcV s.dev g c ld (p.b + k)).toNat
    let desc := if p.dsc then v 2 else g.mxs.toNat % 2 ^ 7
    let held := if c.reuse then g.latches.find? fun x => decide (x.octet = o) else none
    let regs := ls.map fun l => (l % 8, p.row s g c l)
    { octet := o
      lanes := ls
      b := v 0
      obj := v 1
      slot := desc % 16
      depth := bits desc 4 2
      narrow := bitAt desc 6
      rest := desc / 2 ^ 7
      rows := match held with
        | some x => x.rows.filter fun r => ls.contains (8 * o + r.1)
        | none => regs
      latch := match held with
        | some x => some x
        | none => if c.reuse then some ⟨o, p.fmt, regs⟩ else none }

/-! ### Its checks (R53, R190, R225, R227) -/

/-- The first fault of a list. -/
def firstFault : List (Option FaultInfo) → Option FaultInfo
  | [] => none
  | some f :: _ => some f
  | none :: r => firstFault r

/-- An octet's faults in the order of R227, with its address range where there is one. -/
def postRanges (p : Post) (s : State) (g : Group) (l : Launch) (o : PostOp) : List (Nat × Nat × AccFault × Space) :=
  let j := s.dev.jobOf l
  let err (addr : Nat) (r : Except (AccFault × Space) Target) : List (Nat × Nat × AccFault × Space) :=
    match r with
    | .error f => if f.1.rank ≤ 2 then [(o.lane, addr, f.1, f.2)] else []
    | .ok _ => []
  err o.b (rangeOf l j g.key.block p.pad o.b (tileLen p.fmt) 256 fun _ => none) ++
    (if o.obj = noObject then [] else err (codeAddr o.obj) (objRange s.dev l j g.key.block o.obj))

/-- Whether another group of the block writes a row of an operation's tile (R192). -/
def postClash (p : Post) (cl : Cluster) (g : Group) (o : PostOp) : Bool :=
  (tilesOf (decide (p.fmt = 5)) p.tile).any fun t => (cl.onTile g.key t).any fun e =>
    decide (e.g ≠ g.key) && decide (e.octet = o.octet) && e.rows.any fun r => o.rows.any fun q => decide (q.1 = r.1)

/-- ILLEGAL_OPERAND of a post for what its registers and its latch hold: bits 31:7 of a descriptor, and a format that is not the latched
one (R190, R225). -/
def postCauses (p : Post) (ops : List PostOp) : List (Nat × Nat) :=
  causeIf 3 (p.dsc && ops.any fun o => decide (o.rest ≠ 0)) ++
  causeIf 0 (ops.any fun o => match o.latch with | some x => decide (x.fmt ≠ p.fmt) | none => false)

/-- The fault of a post: NONUNIFORM by octet, then those of R227, which only an operation with an unmasked row raises. -/
def postFault (p : Post) (s : State) (c : Issue) (g : Group) (l : Launch) (ops : List PostOp) : Option FaultInfo :=
  let cl := s.dev.clusterOf g
  let real := ops.filter fun o => !o.rows.isEmpty
  let lowest (bad : PostOp → Bool) (f : PostOp → FaultInfo) : Option FaultInfo := (real.find? bad).map f
  let differs (o : PostOp) : Bool := o.lanes.any fun m => (countFrom 0 (if p.dsc then 3 else 2)).any fun k =>
    decide (srcV s.dev g c m (p.b + k) ≠ srcV s.dev g c o.lane (p.b + k))
  let table (o : PostOp) : Option (Table × Nat) := s.dev.slotTable cl o.slot l.job
  let tooDeep (o : PostOp) : Bool := match table o with
    | some (t, _) => decide (t.dmax < o.depth) || (!o.narrow && decide (t.dmaxe < o.depth))
    | none => false
  firstFault [
    (if g.uchk && ops.any differs then some { code := .nonuniform, cause := checkCause (pcSlot c.loc) 3 15 } else none),
    lowest (fun _ => (tilesOf (decide (p.fmt = 5)) p.tile).any fun t => decide (l.acct ≤ t)) fun o =>
      { code := .accRange, cause := octetCause c o.octet },
    lowest (fun o => (table o).isNone) fun o => { code := .cuveeInvalid, cause := octetCause c o.octet },
    lowest tooDeep fun _ => valueFault c 0,
    (worstFault (real.flatMap (postRanges p s g l))).map (accessFault 6),
    lowest (fun o => g.det && postClash p cl g o) fun o => { code := .detViolation, cause := octetCause c o.octet }]

/-! ### Opcode 0x38 -/

/-- B's place of an operation. -/
def Post.target (p : Post) (l : Launch) (block : Nat) (o : PostOp) : Target :=
  match (memTarget l block p.pad o.b (tileLen p.fmt)).2 with
  | some t => t
  | none => ⟨.pad, .pad, 0⟩

/-- B's ranges of the operations that enter (R196). -/
def Post.chipRanges (p : Post) (l : Launch) (block : Nat) (ops : List PostOp) : List ChipRange :=
  ops.map fun o => let t := p.target l block o; ⟨t.store, t.off, tileLen p.fmt, false⟩

/-- An entry of the sluice (R193, R226). -/
def Post.entry (p : Post) (s : State) (c : Issue) (g : Group) (l : Launch) (id : Nat) (o : PostOp) : Entry :=
  let t := p.target l g.key.block o
  let pl := match g.place with | some x => x | none => ⟨0, 0, 0⟩
  { id := id
    mark := g.accesses
    entered := s.dev.now g
    waited := 0
    core := pl.inCluster
    slot := pl.slot
    octet := o.octet
    g := g.key
    job := l.job
    loc := c.loc
    rows := o.rows
    store := t.store
    addr := t.off
    obj := objOf l g.key.block o.obj
    fmt := p.fmt
    cuv := o.slot
    depth := o.depth
    narrow := o.narrow
    red := bitAt g.mxs.toNat 7
    ot := bitAt g.mxs.toNat 8
    tile := p.tile
    sA := if p.fmt = 4 then g.sA else 0x3F80
    sB := if p.fmt = 4 then g.sB else 0x3F80
    prio := l.priority }

/-- Every entry of a post enters the sluice at once, its B ranges are registered, and the latches are set (R190, R193, R196). A post is a release:
what its group has left to read is read (R286). -/
def enterPost (p : Post) (c : Issue) (g : Group) (l : Launch) (ops : List PostOp) : Part := Part.andThen (releaseReads c.g) fun s =>
  let new := ops.filter fun o => !o.rows.isEmpty
  let es := new.zipIdx.map fun x => p.entry s c g l (s.dev.opSeq + x.2) x.1
  let cl := s.dev.clusterOf g
  let ranges := (p.chipRanges l g.key.block new).zipIdx.map fun x => x.1.entry (s.dev.opSeq + x.2) l.job 3
  let d1 := s.dev.setCluster { cl with entries := cl.entries ++ es }
  let latches := (g.latches.filter fun x => !ops.any fun o => decide (o.octet = x.octet)) ++ ops.filterMap PostOp.latch
  [.dev { d1.modGroup g.key fun g => { g with latches := latches } with
    opSeq := s.dev.opSeq + es.length
    gate := s.dev.gate ++ ranges }]

/-- A post (R226): no effect where every row is masked. -/
def postWord (i : Instr) (p : Post) (s : State) : List Act :=
  wordWith i (fun s c g _ => postCauses p (p.ops s c g)) (fun c g l s =>
    let ops := p.ops s c g
    if ops.isEmpty then []
    else match postFault p s c g l ops with
      | some f => raise c f s
      | none => enterPost p c g l ops s) s

/-- `mx.mma.mom` (R220, R226). -/
def execMxMmaMom (a : Reg) (b : Reg) (t : BitVec 5) (p : Bool) (y : Bool) (s : State) : Host.Outcome State Fault Refusal :=
  commit s (postWord (.mxMmaMom a b t p y) ⟨5, a.toNat % 4, b.toNat, t.toNat, p, y⟩ s)

/-- `mx.post` (R226). -/
def execMxPost (a : Reg) (b : Reg) (t : BitVec 5) (f : MxFmt) (p : Bool) (y : Bool) (s : State) :
    Host.Outcome State Fault Refusal :=
  commit s (postWord (.mxPost a b t f p y) ⟨f.code, a.toNat, b.toNat, t.toNat, p, y⟩ s)

/-! ### Opcode 0x39 (R228 to R233) -/

/-- The checks of a word that names tiles: ACC_RANGE, and under DET another group's operation on them (R223, R228). -/
def tileFault (s : State) (c : Issue) (g : Group) (l : Launch) (ts : List Nat) (det : Bool) : Option FaultInfo :=
  if ts.any fun t => decide (l.acct ≤ t) then some { code := .accRange, cause := octetCause c 0 }
  else if det && g.det && ts.any fun t => ((s.dev.clusterOf g).onTile g.key t).any fun e => decide (e.g ≠ g.key) then
    some { code := .detViolation, cause := octetCause c 0 }
  else none

/-- Whether some tiles are busy (R191). -/
def tilesBusy (s : State) (g : Group) (ts : List Nat) : Bool := ts.any fun t => !((s.dev.clusterOf g).onTile g.key t).isEmpty

/-- The tiles that the held word of a lane names. -/
def heldTiles (g : Group) (l : Launch) (m : Nat) : List Nat :=
  let wide (a : Reg) : Bool :=
    match g.heldLeader (g.heldWith m) with
    | some ld => decide (((g.lane ld).snapped a.toNat).toNat % 16 = 9)
    | none => false
  match heldWord l (g.lane m) with
  | some (.mxZero t) => [t.toNat]
  | some (.mxDrain _ a t) => tilesOf (wide a) t.toNat
  | some (.mxLd _ a t) => tilesOf (wide a) t.toNat
  | _ => []

/-- Whether an earlier word of the block that names one of some tiles is held: words reach a tile in issue order, and take effect in it
(R223). -/
def Dev.tileAhead (d : Dev) (c : Issue) (k : GKey) (l : Launch) (ts : List Nat) : Bool :=
  let earlier (h : Hold) : Bool := match c.resume with | some r => decide (h.batch < r.batch) | none => true
  d.groups.any fun g => decide (g.key.launch = k.launch) && decide (g.key.block = k.block) &&
    g.laneNos.any fun m => ((g.lane m).hold.any earlier) && (heldTiles g l m).any ts.contains

/-- Whether a word finds its tiles free: not busy, and none ahead of it (R191, R223, R228). -/
def State.tilesFree (s : State) (c : Issue) (g : Group) (l : Launch) (ts : List Nat) : Bool :=
  !tilesBusy s g ts && !s.dev.tileAhead c g.key l ts

/-- A word goes on waiting for its tile, or begins to, with the accesses that it has still to make (R228). -/
def tileWait (i : Instr) (c : Issue) (g : Group) (reason : Nat) (dog : Watchdog) (due : Part) : Part :=
  if c.resume.isSome then reholdLanes c reason dog
  else Part.seq [holdLanes c i c.lanes (.tile g.gsr) reason dog, due]

/-- `mx.zero` (R229). -/
def execMxZero (t : BitVec 5) (s : State) : Host.Outcome State Fault Refusal :=
  commit s (word (.mxZero t) (fun c g l s =>
    let g := c.group g
    if (g.leader c.on).isNone then []
    else match tileFault s c g l [t.toNat] true with
      | some f => raise c f s
      | none =>
        if s.tilesFree c g l [t.toNat] then Part.seq [
          Part.mod (fun d => d.modBlock g.key.launch g.key.block fun b =>
            { b.setStat t.toNat 15 0 with tiles := cellClear b.tiles (4096 * t.toNat) 4096 }),
          goOn c] s
        else tileWait (.mxZero t) c g 8 .none Part.none s) s)

/-- The block of a group; an empty one where there is none. -/
def State.tile (s : State) (k : GKey) (t r c : Nat) : Nat :=
  match s.dev.block? k.launch k.block with
  | some b => (cellGet b.tiles (tileIx t r c)).toNat
  | none => 0
def State.negv (s : State) (k : GKey) (ts : List Nat) : Bool :=
  match s.dev.block? k.launch k.block with
  | some b => ts.any fun t => bitAt (cellGet b.tileStat t).toNat 3
  | none => false

/-- A drain's control word (R230). -/
structure DrainCtl where
  fmt : Nat
  rs : Rs
  dst : Nat
  cq : Nat
  deriving DecidableEq, Repr

/-- Element bytes by format code; 9 is a moment. -/
def drainSize (fmt : Nat) : Nat :=
  if fmt = 9 then 8 else if fmt = 0 ∨ fmt = 7 then 4 else if fmt = 1 ∨ fmt = 2 then 2 else 1

/-- The control word of a drain, where it is legal for a destination and a tile. -/
def drainCtl (cw d t : Nat) : Option DrainCtl :=
  let fmt := cw % 16
  let dst := bits cw 7 2
  let cq := bits cw 9 2
  if [0, 1, 2, 3, 4, 6, 7, 9].contains fmt = false ∨ cw / 2 ^ 11 ≠ 0 ∨ (fmt = 9 ∧ dst = 0) ∨ (dst = 1 ∧ (fmt ≠ 9 ∨ d ≠ 0)) ∨
      (fmt = 9 ∧ 15 < t) ∨ (cq ≠ 0 ∧ 1 < dst) then none
  else match Rs.ofCode (bits cw 4 3) with
    | some rs => some ⟨fmt, rs, dst, cq⟩
    | none => none

/-- An element as a drain converts it, with its flags. -/
def drainElt (s : State) (g : Group) (k : DrainCtl) (t r c : Nat) : Nat × Nat :=
  let m := rsMode k.rs g.rm
  let cv (dst : Fmt) (x : Nat) : Res := convertElt .f32 dst m.1 m.2 x
  if k.fmt = 9 then
    let a := cv .f32 (s.tile g.key (2 * t) r c)
    let b := cv .f32 (s.tile g.key (2 * t + 1) r c)
    (a.bits + 2 ^ 32 * b.bits, (a.fl.join b.fl).bits)
  else
    match Fmt.ofCode k.fmt with
    | some f => let a := cv f (s.tile g.key t r c); (a.bits, a.fl.bits)
    | none => (0, 0)

/-- Elements of a row from a column on, as one number, and their flags. -/
def drainRow (s : State) (g : Group) (k : DrainCtl) (t r c n : Nat) : Nat × Nat :=
  let w := 8 * drainSize k.fmt
  let xs := (countFrom 0 n).map fun e => (e, drainElt s g k t r (c + e))
  (natSum (xs.map fun x => x.2.1 % 2 ^ w * 2 ^ (w * x.1)), xs.foldl (fun a x => a ||| x.2.2) 0)

/-- The operand d of a drain, once its control word says what it is. -/
def drainOpnd (d : Reg) (k : DrainCtl) : List Opnd :=
  match k.dst with
  | 0 => [⟨1, d.toNat, .v (4 * drainSize k.fmt) 1, false, true⟩]
  | 1 => (countFrom 0 16).map fun e => ⟨1, e, .m, false, true⟩
  | _ => [⟨1, d.toNat, .v 1 1, true, false⟩]

/-- The 32-byte pieces of the rows of a memory drain, by row and place in it (R230). -/
def drainPlaces (k : DrainCtl) (ls : List Nat) : List (Nat × Nat) :=
  ls.flatMap fun r => (countFrom 0 (2 * drainSize k.fmt)).map fun i => (r, i)

/-- The accesses of a memory drain, each with its row and its place in the row, or the fault that one meets: checked at issue, and later as
they stand (R149, R230). -/
def drainAccesses (s : State) (c : Issue) (g : Group) (l : Launch) (k : DrainCtl) (ld base : Nat) (ls : List Nat) :
    Except FaultInfo (List (Nat × Nat × LaneAccess)) :=
  let size := drainSize k.fmt
  let pad := decide (k.dst = 3)
  let slot := pcSlot c.loc
  match c.resume with
  | some h =>
    let xs := g.dues l h.mark
    (match s.dev.duesOrphan g l slot (sizeCode size) xs with
    | some f => .error f
    | none => .ok (List.zipWith (fun p a => (p.1, p.2, a)) (drainPlaces k ls) xs))
  | none =>
    if base % 256 ≠ 0 then
      .error (fibreFault slot (sizeCode size) (ld, base, .misaligned, (memTarget l g.key.block pad base 1).1))
    else
      let rs := (drainPlaces k ls).map fun p =>
        let addr := (base + p.1 * 64 * size + 32 * p.2) % 2 ^ 32
        (p.1, p.2, addr, accessOf s.dev g l (s.dev.jobOf l) p.1 pad addr 32 32 .write)
      match worstFault (rs.filterMap fun x => match x.2.2.2 with | .error f => some (x.1, x.2.2.1, f.1, f.2) | .ok _ => none) with
      | some f => .error (fibreFault slot (sizeCode size) f)
      | none => .ok (rs.filterMap fun x => match x.2.2.2 with | .ok a => some (x.1, x.2.1, a) | .error _ => none)

/-- The stores of a memory drain, with the bytes that the tile gives each. -/
def drainStores (s : State) (g : Group) (k : DrainCtl) (t : Nat) (xs : List (Nat × Nat × LaneAccess)) : List (LaneAccess × List Byte) :=
  let size := drainSize k.fmt
  xs.map fun x => (x.2.2, leBytes 32 (drainRow s g k t x.1 (32 * x.2.1 / size) (32 / size)).1)

/-- The accesses that a drain makes in memory; none where it writes registers. -/
def drainMem (s : State) (c : Issue) (g : Group) (l : Launch) (k : DrainCtl) (ld base : Nat) (ls : List Nat) :
    Except FaultInfo (List (Nat × Nat × LaneAccess)) :=
  if k.dst ≤ 1 then .ok [] else drainAccesses s c g l k ld base ls

/-- Why a memory drain whose tiles are free has to wait, as a store does: for cells, or for an access before it (R151, R230, R249, R285). -/
def drainBlocked (s : State) (c : Issue) (g : Group) (l : Launch) (xs : List (Nat × Nat × LaneAccess)) : Option (Nat × Watchdog) :=
  let as := xs.map fun x => x.2.2
  blockedBy s.dev (g.upTo (c.mark g)) l as as false

/-- Where a drain to registers puts a lane's elements. -/
def drainSlots (g : Group) (k : DrainCtl) (d l : Nat) : List Slot :=
  if k.dst = 1 then (countFrom 0 16).map fun e => ⟨l, .m e, 2 * e⟩ else g.slots l d (4 * drainSize k.fmt)

/-- A drain to registers is a counted load from its issue on (R152, R230); `op`: what it gives a lane. -/
def drainCount (c : Issue) (g : Group) (k : DrainCtl) (d : Nat) (op : Nat → List Slot → AccOp) : Part :=
  Part.mod fun dv => dv.issueAccesses c true 0 false false 0
    (c.on.map fun l => ((⟨l, 0, .blk, .blk 0 0, 0, 4, false⟩ : LaneAccess), op l (drainSlots g k d l)))
    (c.on.flatMap fun l => slotRegs (drainSlots g k d l))

/-- What a drain that waits has still to give: its lanes' registers, or its stores (R151, R152, R230). -/
def drainDue (c : Issue) (g : Group) (k : DrainCtl) (d : Nat) (xs : List (Nat × Nat × LaneAccess)) : Part :=
  if k.dst ≤ 1 then drainCount c g k d fun _ ss => .due false ss else putDue c true (xs.map fun x => x.2.2)

/-- What a drain gives once it reads its tile. -/
def drainGive (s : State) (c : Issue) (g : Group) (l : Launch) (k : DrainCtl) (d t : Nat) (xs : List (Nat × Nat × LaneAccess)) : Part :=
  let row (m : Nat) : Nat := (drainRow s g k t m (16 * k.cq) 16).1
  match c.resume with
  | none => if k.dst ≤ 1 then drainCount c g k d fun m ss => .value (row m) ss else doStores c (drainStores s g k t xs)
  | some h =>
    if k.dst ≤ 1 then Part.mod fun dv => dv.modGroup c.g fun x =>
      x.giveDue h.mark fun a => .value (row a.lane) (match a.op with | .due _ ss => ss | _ => [])
    else Part.seq [
      Part.mod fun dv => xs.foldl (fun dv x => dv.touchRace g l x.2.2 .plainWrite) dv,
      giveStores c g.vt l.tag h.mark (drainStores s g k t xs)]

/-- The flags of a drain: those of non-helper lanes (R230). -/
def drainFlags (s : State) (c : Issue) (g : Group) (k : DrainCtl) (t : Nat) : Nat :=
  (c.on.filter g.isLive).foldl (fun a l =>
    a ||| (if k.dst ≤ 1 then drainRow s g k t l (16 * k.cq) 16 else drainRow s g k t l 0 64).2) 0

/-- What a drain does once its tiles are free: the check of NEGV, then registers or memory (R221, R230). A plane that holds a negative or NaN
value while NEGV is clear (an FP32 `mx.ld` or post wrote it) goes to m registers as it is: R221 examines no element (log 68). -/
def drainAct (i : Instr) (c : Issue) (g : Group) (l : Launch) (k : DrainCtl) (d t ld : Nat) (xs : List (Nat × Nat × LaneAccess)) : Part := fun s =>
  let neg : Bool := decide (k.dst ≠ 0) && s.negv g.key (tilesOf (decide (k.fmt = 9)) t)
  if neg && g.nvf then raise c { code := .negvar, cause := negvarCause ld 3 } s
  else Part.seq [
    drainGive s c g l k d t xs,
    retire c.g i.latency (outFlags (drainFlags s c g k t ||| if neg then 32 else 0)),
    goOn c] s

/-- The checks of a drain: its control word says which operand d is (R53, R230). -/
def drainCheck (d a : Reg) (t : BitVec 5) (s : State) (c : Issue) (g : Group) (l : Launch) : Option FaultInfo :=
  let i : Instr := .mxDrain d a t
  match g.leader c.on with
  | none => commonFault s.dev g l c i i.latency
  | some ld =>
    match drainCtl (leadV s g c ld a) d.toNat t.toNat with
    | none => valuedFault s.dev g l c i (causeIf 2 c.fresh)
    | some k =>
      let os := drainOpnd d k
      let bad := os.filterMap fun o => o.bad.map fun r => (r, o.field)
      operandFault s.dev g l c (lowestCause (bad ++ i.fieldFault.toList)) (i.operands ++ os) (i.operands ++ os)
        (i.operands.filter i.compares ++ os.filter Opnd.rd) (fun _ => [ld]) i.latency

/-- `mx.drain` (R230). -/
def execMxDrain (d : Reg) (a : Reg) (t : BitVec 5) (s : State) : Host.Outcome State Fault Refusal :=
  commit s (checkedWord (drainCheck d a t) (fun c g l s =>
    let g := c.group g
    match g.leader c.on with
    | none => []
    | some ld =>
      match drainCtl (leadV s g c ld a) d.toNat t.toNat with
      | none => []
      | some k =>
        let i : Instr := .mxDrain d a t
        let ts := tilesOf (decide (k.fmt = 9)) t.toNat
        match tileFault s c g l ts false, drainMem s c g l k ld (leadV s g c ld d) (c.on.filter g.isLive) with
        | some f, _ => raise c f s
        | none, .error f => raise c f s
        | none, .ok xs =>
          match tileFault s c g l ts true with
          | some f => raise c f s
          | none =>
            let wait (reason : Nat) (dog : Watchdog) : Part := tileWait i c g reason dog (drainDue c g k d.toNat xs)
            if !s.tilesFree c g l ts then wait 8 .none s
            else match drainBlocked s c g l xs with
              | some (r, w) => wait r w s
              | none => drainAct i c g l k d.toNat t.toNat ld xs s) s)

/-- The tiles after `mx.ld`: the bytes of 64 rows widened (R231). -/
def loadTiles (b : Block) (fmt t : Nat) (bytes : Array Byte) : Block :=
  let size := drainSize fmt
  let elt (k n : Nat) : Nat := natSum ((countFrom 0 n).map fun j => (bytes.getD (k + j) 0).toNat * 256 ^ j)
  let src : Fmt := match Fmt.ofCode fmt with | some f => f | none => .f32
  let ts := tilesOf (decide (fmt = 9)) t
  let b1 := ts.foldl (fun b t => b.setStat t 7 0) b
  (countFrom 0 4096).foldl (fun b i =>
    let put (b : Block) (t v : Nat) : Block := { b with tiles := cellSet b.tiles (4096 * t + i) (BitVec.ofNat 32 v) }
    if fmt = 9 then
      let v := elt (8 * i + 4) 4
      let b2 := put b (2 * t) (convertElt .f32 .f32 .rn false (elt (8 * i) 4)).bits
      if badVar v then (put b2 (2 * t + 1) 0).setStat (2 * t + 1) 0 8 else put b2 (2 * t + 1) v
    else put b t (convertElt src .f32 .rn false (elt (size * i) size)).bits) b1

/-- The control word of `mx.ld` (R231). -/
def mxLdBad (cw : Nat) : Bool := !([0, 1, 2, 9].contains (cw % 16)) || decide (cw / 2 ^ 5 ≠ 0)

/-- What an `mx.ld` reads: checked at issue, and later as it stands (R149, R231). -/
def mxLdReads (s : State) (c : Issue) (g : Group) (l : Launch) (ld : Nat) (pad : Bool) (base size : Nat) : Except FaultInfo (List LaneAccess) :=
  let slot := pcSlot c.loc
  match c.resume with
  | some h =>
    let xs := g.dues l h.mark
    (match s.dev.duesOrphan g l slot (sizeCode size) xs with
    | some f => .error f
    | none => .ok xs)
  | none =>
    if base % 256 ≠ 0 then
      .error (fibreFault slot (sizeCode size) (ld, base, .misaligned, (memTarget l g.key.block pad base 1).1))
    else pieces s.dev g l slot ld pad base (4096 * size) (sizeCode size) .read

/-- `mx.ld` (R231): it waits for its tiles, and then reads as a load of the group, in the view of GSR.VT at its issue (R244). -/
def execMxLd (d : Reg) (a : Reg) (t : BitVec 5) (s : State) : Host.Outcome State Fault Refusal :=
  commit s (wordWith (.mxLd d a t) (leadCauses fun s g _ c ld => causeIf 2 (mxLdBad (leadV s g c ld a))) (fun c g l s =>
    let g := c.group g
    match g.leader c.on with
    | none => []
    | some ld =>
      let cw := leadV s g c ld a
      let fmt := cw % 16
      let pad := bitAt cw 4
      let base := leadV s g c ld d
      let size := drainSize fmt
      let ts := tilesOf (decide (fmt = 9)) t.toNat
      match tileFault s c g l ts false, mxLdReads s c g l ld pad base size with
      | some f, _ => raise c f s
      | none, .error f => raise c f s
      | none, .ok xs =>
        match tileFault s c g l ts true with
        | some f => raise c f s
        | none =>
          let wait (reason : Nat) : Part := tileWait (.mxLd d a t) c g reason .none (putDue c false xs)
          if !s.tilesFree c g l ts then wait 8 s
          else if !s.dev.readsReady g (c.mark g) xs then wait 4 s
          else
            let bytes := (s.groupBytes g l pad base (4096 * size)).toArray
            Part.seq [
              Part.mod (fun dv => (xs.foldl (fun dv x => dv.touchRace g l x .other) dv).modBlock g.key.launch g.key.block fun b =>
                loadTiles b fmt t.toNat bytes),
              dropDue c,
              goOn c] s) s)

/-- `mx.band` (R232). -/
def execMxBand (a : Reg) (s : State) : Host.Outcome State Fault Refusal :=
  commit s (word (.mxBand a) (fun c g _ s =>
    match g.leader c.on with
    | none => []
    | some ld =>
      let v := leadV s g c ld a
      [.dev (s.dev.modGroup c.g fun g => { g with sA := BitVec.ofNat 16 v, sB := BitVec.ofNat 16 (v / 2 ^ 16) })]) s)

/-- `mx.stat` (R233). -/
def execMxStat (d : Reg) (t : BitVec 5) (s : State) : Host.Outcome State Fault Refusal :=
  commit s (word (.mxStat d t) (fun c g l s =>
    if (g.leader c.on).isNone then []
    else match tileFault s c g l [t.toNat] false with
      | some f => raise c f s
      | none =>
        let st := match s.dev.block? g.key.launch g.key.block with
          | some b => (cellGet b.tileStat t.toNat).toNat
          | none => 0
        let v := ((s.dev.clusterOf g).onTile g.key t.toNat).length + 2 ^ 8 * st
        retire c.g (Instr.mxStat d t).latency (c.on.flatMap fun m => outRun g m d.toNat 1 v) s) s)

/-- Why a word of these opcodes is not ready: the sluice, the headgate table or the load counter is full, an earlier word of the block that
names its tile is held, or an earlier access of the group has still to be performed where its tiles are free (R151, R152, R193, R223, R228, R269,
R285). -/
def matrixBlocked (s : State) (c : Issue) (g : Group) (l : Launch) (i : Instr) : Option (Nat × Watchdog) :=
  let post (p : Post) : Option (Nat × Watchdog) :=
    let new := (p.ops s c g).filter fun o => !o.rows.isEmpty
    if new.isEmpty then none
    else if s.dev.tileAhead c g.key l (tilesOf (decide (p.fmt = 5)) p.tile) then some (8, .none)
    else if (s.dev.clusterOf g).bist then some (7, .none)
    else if 32 < (s.dev.clusterOf g).all.length + new.length then some (7, .none)
    else if !s.dev.gateRoom (p.chipRanges l g.key.block new) then some (3, .none)
    else none
  let free (ts : List Nat) : Bool := s.tilesFree c g l ts && (tileFault s c g l ts true).isNone
  match i, g.leader c.on with
  | .mxMmaMom a b t p y, _ => post ⟨5, a.toNat % 4, b.toNat, t.toNat, p, y⟩
  | .mxPost a b t f p y, _ => post ⟨f.code, a.toNat, b.toNat, t.toNat, p, y⟩
  | .mxDrain d a t, some ld =>
    (match drainCtl (leadV s g c ld a) d.toNat t.toNat with
    | none => none
    | some k =>
      if k.dst ≤ 1 then (if 63 ≤ g.outstanding then some (4, .none) else none)
      else match drainAccesses s c g l k ld (leadV s g c ld d) (c.on.filter g.isLive) with
        | .ok xs => if free (tilesOf (decide (k.fmt = 9)) t.toNat) then drainBlocked s c g l xs else none
        | .error _ => none)
  | .mxLd d a t, some ld =>
    let cw := leadV s g c ld a
    (match mxLdReads s c g l ld (bitAt cw 4) (leadV s g c ld d) (drainSize (cw % 16)) with
    | .ok xs =>
      if !mxLdBad cw && free (tilesOf (decide (cw % 16 = 9)) t.toNat) && !s.dev.readsReady g (c.mark g) xs then some (4, .none) else none
    | .error _ => none)
  | .mxStat _ t, some _ => if s.dev.tileAhead c g.key l [t.toNat] then some (8, .none) else none
  | _, _ => none

/-! ### The interval of a pass (R198) -/

/-- I = ceil(16 · r^d / (b^(3d) · x)), doubled under RED; moments add 48. -/
def passInterval (t : Table) (e : Entry) : Nat :=
  let x := match e.fmt with
    | 2 | 3 => if e.depth = 0 ∨ e.narrow then 2 else 1
    | 4 => if e.depth = 0 then 4 else if e.narrow then 2 else 1
    | _ => 1
  let den := t.b ^ (3 * e.depth) * x
  let n := (16 * t.r ^ e.depth + den - 1) / den
  (if e.fmt = 5 then n + 48 else n) * (if e.red then 2 else 1)

/-- The table of an entry; the post has seen that there is one. -/
def Dev.entryTable (d : Dev) (c : Cluster) (e : Entry) : Table :=
  match d.slotTable c e.cuv e.job with
  | some t => t.1
  | none => classical

def Dev.interval (d : Dev) (c : Cluster) (p : Pass) : Nat :=
  match p.entries with
  | e :: _ => passInterval (d.entryTable c e) e
  | [] => 0

/-! ### Grants (R194, R195) -/

/-- The die cycle at which the engine is expected to be free; none while a granted pass waits for its B from the pad. -/
def Dev.freeFrom (d : Dev) (c : Cluster) (now : Nat) : Option Nat :=
  (c.passes.filter fun p => p.start.isNone).foldl (fun (a : Option Nat) p =>
    match a, p.entries with
    | some t, e :: _ =>
      if e.store = .pad then none else some (max (max (p.granted + 16) t) now + d.interval c p)
    | _, _ => none) (some c.freeAt)

/-- The order of age, with ties by core, slot and octet. -/
def Entry.before (a b : Entry) : Bool :=
  let lt (xs ys : List Nat) : Bool := decide (xs < ys)
  lt [a.entered, a.core, a.slot, a.octet] [b.entered, b.core, b.slot, b.octet]

/-- The entry for which no other comes first. -/
def firstEntry (lt : Entry → Entry → Bool) : List Entry → Option Entry
  | [] => none
  | e :: es =>
    match firstEntry lt es with
    | none => some e
    | some f => if lt f e then some f else some e

/-- Entries in order of age. -/
def byAge : List Entry → List Entry
  | [] => []
  | e :: es => ins e (byAge es)
where
  ins (e : Entry) : List Entry → List Entry
    | [] => [e]
    | f :: fs => if f.before e then f :: ins e fs else e :: f :: fs

/-- The entry that is granted: the oldest urgent one, else the oldest of the highest priority (R194). -/
def granted (es : List Entry) : Option Entry :=
  match firstEntry Entry.before (es.filter fun e => decide (32 ≤ e.waited)) with
  | some e => some e
  | none => firstEntry (fun a b => decide (b.prio < a.prio) || (decide (a.prio = b.prio) && a.before b)) es

/-- Whether an entry fuses with the granted one (R195). -/
def Entry.fuses (a b : Entry) : Bool :=
  decide (a.g.launch = b.g.launch) && decide (a.fmt = b.fmt) && decide (a.cuv = b.cuv) && decide (a.depth = b.depth) &&
  (a.narrow == b.narrow) && (a.red == b.red) && decide (a.store = b.store) && decide (a.addr = b.addr)

/-- Whether an older entry of the same octet and tile does not fuse with the granted one: for one octet, grant order is post order (R192,
log 54). -/
def Entry.behind (x : Entry) (es : List Entry) (e : Entry) : Bool :=
  es.any fun y => y.before x && decide (y.g = x.g) && decide (y.octet = x.octet) && (y.tiles.any fun t => x.tiles.contains t) && !y.fuses e

/-- The cluster by its number in the package: 24 a die. -/
def Dev.clusterNo (d : Dev) (c : Nat) : Cluster := d.cluster (c / 24) (c % 24)

/-- Whether the engine of a cluster makes its next grant by a die cycle: 16 cycles before it becomes free, but after a pass that takes its B
from the pad once that pass starts; and not in the cycle of the grant before (R194). -/
def Dev.grantDue (d : Dev) (c : Cluster) (now : Nat) : Bool :=
  (match c.lastPad, d.freeFrom c now with
    | true, _ => c.passes.all fun p => p.start.isSome
    | false, some t => decide (t ≤ now + 16)
    | false, none => false) &&
  c.lastGrant.all fun x => decide (x < now)

/-- R194, R195: the engine of a cluster grants an entry and those that fuse with it. Else there is no effect. -/
def execSluiceGrant (c : Nat) (s : State) : Host.Outcome State Fault Refusal :=
  commit s <|
    let cl := s.dev.clusterNo c
    let now := s.dev.cycle cl.die
    match granted cl.entries with
    | some e =>
      if s.dev.grantDue cl now then
        let others := byAge (cl.entries.filter fun x => decide (x.id ≠ e.id) && x.fuses e && !x.behind cl.entries e)
        let es := byAge (e :: others.take 7)
        let rest := (cl.entries.filter fun x => !es.any fun y => decide (y.id = x.id)).map fun x => { x with waited := x.waited + 1 }
        [.dev (s.dev.setCluster { cl with
          entries := rest
          passes := cl.passes ++ [⟨(cl.grants + 1) % 2 ^ 32, es, now, none, []⟩]
          grants := (cl.grants + 1) % 2 ^ 32
          lastGrant := some now
          lastPad := decide (e.store = .pad) })]
      else []
    | none => []

/-! ### The start of a pass (R196, R198) -/

/-- Whether every store and atomic that an entry's group issued before the post is performed (R196). The stores of an `mx.drain` that is held are
not issued yet: it reads its tile first (R230, log 64). -/
def Dev.markDone (d : Dev) (e : Entry) : Bool :=
  match d.group? e.g with
  | some g => g.acc.all fun a => !a.op.writes || a.isDue || decide (e.mark ≤ a.seq)
  | none => true

/-- A plane of B in moment mode, as numbers. -/
def momentB (b : Array Byte) (off : Nat) : List (List Nat) :=
  (countFrom 0 64).map fun k => (countFrom 0 64).map fun n =>
    let a := off + 2 * (64 * k + n)
    (b.getD a 0).toNat + 256 * (b.getD (a + 1) 0).toNat

/-- NEGV of the variance tile of each moment entry of a pass, where the B that it fetches holds a variance that is replaced (R221). -/
def Dev.noteNegv (d : Dev) (es : List Entry) (b : List Byte) : Dev :=
  if es.any (fun e => decide (e.fmt = 5)) && (cleanVar (momentB b.toArray 8192)).2 then
    es.foldl (fun d e =>
      if e.fmt = 5 then d.modBlock e.g.launch e.g.block fun x => x.setStat (2 * e.tile + 1) 0 8 else d) d
  else d

/-- A pass started: its B read, its ranges released, the engine taken for its interval. -/
def startPass (s : State) (cl : Cluster) (p : Pass) (e : Entry) : Dev :=
  let now := s.dev.cycle cl.die
  let bs := s.bytes e.store e.addr (tileLen e.fmt)
  let q := { p with start := some now, b := bs }
  { (s.dev.setCluster { cl with
      passes := cl.passes.map fun x => if x.number = p.number then q else x
      freeAt := now + s.dev.interval cl p }).noteNegv p.entries bs with
    gate := s.dev.gate.filter fun r => !p.entries.any fun x => decide (x.id = r.op) }

/-- R198: the oldest granted pass starts, once its B is there and the engine is free. Else there is no effect. -/
def execPassStart (c : Nat) (s : State) : Host.Outcome State Fault Refusal :=
  commit s <|
    let cl := s.dev.clusterNo c
    let now := s.dev.cycle cl.die
    match cl.passes.find? fun p => p.start.isNone with
    | none => []
    | some p =>
      match p.entries with
      | [] => []
      | e :: _ =>
        let fetched : Bool := decide (e.store = .pad) || decide (p.granted + 16 ≤ now)
        let open_ : Bool := p.entries.all fun x =>
          s.dev.markDone x && !s.dev.gated x.id x.job (fun _ => noBytes) ⟨x.store, x.addr, tileLen x.fmt, false⟩
        if fetched && open_ && decide (cl.freeAt ≤ now) then [.dev (startPass s cl p e)] else []

/-! ### What a pass computes (R201, R202, R214, R216, R220, R221) -/

/-- One plane of an entry: its tile and its terms. -/
structure Plane where
  tile : Nat
  terms : List Term

/-- A row of A in moment mode: means or variances. -/
def momentElts (row off : Nat) : List Elt :=
  (countFrom 0 64).map fun k => plainElt (fmtBf16.value (rowElt row 32 k / 2 ^ off % 2 ^ 16))

def eltRows (rows : List (List Nat)) : List (List Elt) := rows.map fun r => r.map fun x => plainElt (fmtBf16.value x)
def squareRows (rows : List (List Elt)) : List (List Elt) := rows.map fun r => r.map Elt.square

/-- The planes of an entry. -/
def entryPlanes (t : Table) (e : Entry) (b : Array Byte) : List Plane :=
  if e.fmt = 5 then
    let am : Slab := e.rows.map fun r => (r.1, momentElts r.2 0)
    let av : Slab := e.rows.map fun r => (r.1, momentElts r.2 16)
    let bm := eltRows (momentB b 0)
    let bv := eltRows (cleanVar (momentB b 8192)).1
    let one : Dy := ⟨1, 0⟩
    [⟨2 * e.tile, [termOf t e.depth 0 e.narrow am bm one]⟩,
     ⟨2 * e.tile + 1, [
      termOf classical 0 0 false av bv one,
      termOf classical 0 0 false av (squareRows bm) one,
      termOf classical 0 0 false (am.map fun r => (r.1, r.2.map Elt.square)) bv one]⟩]
  else
    let sA := fmtBf16.value e.sA.toNat
    let sB := fmtBf16.value e.sB.toNat
    let slab : Slab := e.rows.map fun r => (r.1, slabRow e.fmt sA r.2)
    [⟨e.tile, [termOf t e.depth e.fmt e.narrow slab (tileRows e.fmt sB b) (sA.dy.mul sB.dy)]⟩]

/-- The side of the first saturating sum of an entry. -/
def planesSat (ps : List Plane) : Option Nat := (ps.flatMap fun p => p.terms.map Term.sat).findSome? id

/-- A plane accumulated into its tile, with the status bits that it sets. -/
def accumulatePlane (e : Entry) (b : Block) (p : Plane) : Block :=
  e.rows.foldl (fun b r => (countFrom 0 64).foldl (fun b n =>
    let ix := tileIx p.tile (8 * e.octet + r.1) n
    let x := planeAt p.terms r.1 n
    let y := finishC (cellGet b.tiles ix).toNat x.2 x.1
    { b with tiles := cellSet b.tiles ix (BitVec.ofNat 32 y.1) }.setStat p.tile 0 (2 * y.2.1.toNat + 4 * y.2.2.toNat)) b) b

/-- An entry accumulated: its planes, and OVF and MOVF where a sum saturated (R34, R216); of a moment entry it is the mean plane's OVF (log 68). -/
def accumulate (e : Entry) (ps : List Plane) : Part :=
  Part.mod fun d =>
    let sat := (planesSat ps).isSome
    let d1 := d.modBlock e.g.launch e.g.block fun x =>
      let y := ps.foldl (accumulatePlane e) x
      if sat then y.setStat (if e.fmt = 5 then 2 * e.tile else e.tile) 0 1 else y
    if sat then d1.modGroup e.g fun g => g.stick (d.now g) 64 else d1

/-- The arrival of an entry (R197), and the watchpoints that its write meets. -/
def entryArrive (cl : Cluster) (e : Entry) : Part := fun s =>
  match e.obj with
  | none => []
  | some o =>
    let n := if e.fmt = 5 then 4096 else 2048
    let hi := o.addr + (if s.completes o n then 16 else 8)
    Part.seq [
      (if o.store = .pad then
        engineWatch cl.die 3 e.job e.g e.loc false padHome fun a => decide (o.addr + 4 ≤ a) && decide (a < hi)
      else Part.none),
      (fun s => objArriveN (engineRelease (s.dev.releaseOf e.g 3).knows) o n s)] s

/-- A fault at the end of a pass (R200, R216). R216 does not say whether the tile in CAUSE, or the tile whose OVF is set, is the moment tile or one
of its planes: the model names moment tile t, and sets OVF of its mean plane 2t (log 68). -/
def passFault (e : Entry) (code : FaultCode) (side number : Nat) : Part :=
  takeFault e.g [] e.loc false { code := code, cause := e.core % 4 + 4 * (e.tile % 32) + 128 * side, aux := number }

/-- An entry whose pass fails: its object's phase completes with the code, or, without one, its job ends (R275, R276). -/
def entryFail (cl : Cluster) (e : Entry) (code : Nat) : Part :=
  match e.obj with
  | some o => Part.seq [
      (if o.store = .pad then
        engineWatch cl.die 3 e.job e.g e.loc false padHome fun a => decide (o.addr + 4 ≤ a) && decide (a < o.addr + 16)
      else Part.none),
      fun s => objFail (s.dev.releaseOf e.g 3).knows o code 0 0 s]
  | none => takeFault e.g [] e.loc false { code := .raw code, cause := pcSlot e.loc }

/-- R276: the B of a started pass that holds an entry meets an uncorrectable error of a source at a die: the pass fails as R275 says, and changes
no tile (log 48). -/
def passMeetsError (entry die src : Nat) : Part := fun s =>
  let has (p : Pass) : Bool := p.start.isSome && p.entries.any fun e => decide (e.id = entry)
  match s.dev.clusters.find? fun c => c.passes.any has with
  | none => []
  | some cl =>
    match cl.passes.find? has with
    | none => []
    | some p =>
      if 8 ≤ die ∨ 8 ≤ src then []
      else Part.seq [
        Part.mod fun d => (d.countErr die src 0 1).setCluster { cl with passes := cl.passes.filter fun x => decide (x.number ≠ p.number) },
        Part.each p.entries (entryFail cl · 0x32)] s

/-- R197, R200, R202, R214, R216: the oldest started pass accumulates, or faults and changes nothing. Else there is no effect. -/
def execPassAccumulate (c : Nat) (bad : List Nat) (s : State) : Host.Outcome State Fault Refusal :=
  commit s <|
    let cl := s.dev.clusterNo c
    match cl.passes with
    | [] => []
    | p :: rest =>
      match p.start with
      | none => []
      | some t =>
        if s.dev.cycle cl.die < t + 24 then []
        else
          let b := p.b.toArray
          let done : Part := Part.mod fun d => d.setCluster { cl with passes := rest }
          let es := p.entries.map fun e => (e, entryPlanes (s.dev.entryTable cl e) e b)
          match (p.entries.zipIdx.find? fun x => x.1.red && bad.contains x.2),
              (es.find? fun x => x.1.ot && (planesSat x.2).isSome) with
          | some x, _ => Part.seq [done, passFault x.1 .mxRedundant 0 p.number] s
          | none, some x => Part.seq [done, passFault x.1 .mxOverflow ((planesSat x.2).getD 0) p.number] s
          | none, none =>
            Part.seq [
              Part.each es (fun x => accumulate x.1 x.2),
              done,
              Part.each p.entries (entryArrive cl)] s

end Sys2Proof.Machine
end

