-- ==== Sys2Proof/Machine/System.lean ====
section
/-!
DEFINITION. Opcode 0x3F: quarantined registers (R378), watchpoints (R376), trace marks (R381), `loc.q` (R238), self-tests (R350) and
device-side launch (R343).
-/

namespace Sys2Proof.Machine

/-! ### Quarantined registers (R23, R378) -/

/-- The value of a q register. -/
def Dev.readQ (d : Dev) (g : Group) (l : Launch) (n : Nat) : Nat :=
  match n with
  | 0 => d.now g
  | 1 => d.timeFor l.job d.time
  | 2 => identOf g
  | n => (cellGet g.q n).toNat

/-- The result of a word in a q register of its group; a word without a leader takes no effect. -/
def qWord (i : Instr) (d : Reg) (f : Dev → Group → Launch → Nat) (s : State) : List Act :=
  word i (fun c g l s =>
    if hasLeader g c then retire c.g i.latency [⟨0, .q d.toNat, BitVec.ofNat 64 (f s.dev g l)⟩] s else []) s

/-- `q.rd` (R378). -/
def execQRd (d : Reg) (a : Reg) (s : State) : Host.Outcome State Fault Refusal :=
  commit s (qWord (.qRd d a) d (fun dv g l => dv.readQ g l a.toNat) s)

/-- `q.sub` (R378). -/
def execQSub (d : Reg) (a : Reg) (b : Reg) (s : State) : Host.Outcome State Fault Refusal :=
  commit s (qWord (.qSub d a b) d (fun dv g l => dv.readQ g l a.toNat + 2 ^ 64 - dv.readQ g l b.toNat) s)

/-- `q.st` (R377, R378). -/
def execQSt (a : Reg) (b : Reg) (s : State) : Host.Outcome State Fault Refusal :=
  commit s (word (.qSt a b) (fun c g l s =>
    match g.leader c.on with
    | none => []
    | some ld =>
      profEntry l.job l.id 3 (leBytes 4 g.key.block ++ leBytes 1 g.key.group ++ leBytes 1 a.toNat ++ leBytes 2 0 ++
        leBytes 4 (leadV s g c ld b) ++ leBytes 4 0 ++ leBytes 8 (s.dev.readQ g l a.toNat)) s) s)

/-! ### Watchpoints (R376) -/

/-- The operands of `wp.set` and `wp.clr`: address, and the second word. -/
def wpPair (s : State) (g : Group) (c : Issue) (ld : Nat) (a : Reg) : Nat × Nat :=
  ((srcV s.dev g c ld a.toNat).toNat, (srcV s.dev g c ld (a.toNat + 1)).toNat)

/-- The number of a watchpoint among the package's: its home die and n (R236, R371). -/
def wpIndex (addr w : Nat) : Nat := 4 * padHome addr + bits w 16 2

/-- A watchpoint word: `bad` its operand checks, `act` its effect, after those of a pad access (R376). -/
def wpWord (i : Instr) (a : Reg) (bad : Dev → Nat → Nat → Nat → Bool) (act : Nat → Nat → Nat → Dev → Dev) (s : State) : List Act :=
  wordWith i (leadVals fun s g l c ld =>
    let x := wpPair s g c ld a
    causeIf 2 (decide (bits x.2 18 14 ≠ 0) || bad s.dev l.job x.1 x.2)) (fun c g l s =>
    match g.leader c.on with
    | none => []
    | some ld =>
      let (addr, w) := wpPair s g c ld a
      let f (x : AccFault) : FaultInfo := accessFault 4 (ld, addr, x, .pad)
      if addr % 16 ≠ 0 then raise c (f .misaligned) s
      else if padSize < addr + 16 then raise c (f .bounds) s
      else if !(s.dev.jobOf l).granted addr 16 then raise c (f .access) s
      else [.dev (act l.job addr w s.dev)]) s

/-- A watchpoint's two registers replaced. -/
def Dev.setWp (d : Dev) (k ctl addr : Nat) : Dev :=
  { d with regs := { d.regs with
      wpctl := cellSet d.regs.wpctl k (BitVec.ofNat 64 ctl)
      wpaddr := cellSet d.regs.wpaddr k (BitVec.ofNat 64 addr) } }

/-- `wp.set` (R376): a MASK of 0 and a watchpoint that another job has armed are refused. -/
def execWpSet (a : Reg) (s : State) : Host.Outcome State Fault Refusal :=
  commit s (wpWord (.wpSet a) a
    (fun d job addr w =>
      let x := d.watchPoint (padHome addr) (bits w 16 2)
      decide (w % 2 ^ 16 = 0) || (decide (addr < padSize) && x.en && decide (x.job ≠ job)))
    (fun job addr w d => d.setWp (wpIndex addr w) (1 + 2 ^ 4 * (w % 2 ^ 16) + 2 ^ 32 * job) addr) s)

/-- `wp.clr` (R376). -/
def execWpClr (a : Reg) (s : State) : Host.Outcome State Fault Refusal :=
  commit s (wpWord (.wpClr a) a (fun _ _ _ _ => false)
    (fun job addr w d =>
      let k := wpIndex addr w
      let x := (cellGet d.regs.wpctl k).toNat
      if x / 2 ^ 32 = job then d.setWp k (x - x % 2) (cellGet d.regs.wpaddr k).toNat else d) s)

/-! ### `trc.mark` (R381) and `loc.q` (R238) -/

/-- `trc.mark` (R379, R381). -/
def execTrcMark (a : Reg) (s : State) : Host.Outcome State Fault Refusal :=
  commit s (word (.trcMark a) (fun c g l s =>
    match g.leader c.on with
    | none => []
    | some ld => traceRec l.job g.die 8 (leadV s g c ld a) (g.key.block + 2 ^ 32 * g.key.group) s) s)

/-- The home die of a pad address as `loc.q.pad` gives it (R236, R238). -/
def locPad (a : Nat) : Nat := if a < padSize then padHome a + 0x80 else 0

/-- The home die and the interleave of a mapped virtual address as `loc.q.va` gives them (R238, R316). -/
def State.locVa (s : State) (j : Job) (va : Nat) : Nat :=
  match s.translate j va false with
  | .ok _ p => homeDie p va + 16 * p.ilv + 0x80
  | .wait => (match s.walk j va with | .leaf p => homeDie p va + 16 * p.ilv + 0x80 | _ => 0)
  | _ => 0

/-- `loc.q.pad` (R238). -/
def execLocQPad (d : Reg) (a : Reg) (s : State) : Host.Outcome State Fault Refusal :=
  commit s (laneWord (.locQPad d a) false d 1 (fun r => locPad (r a.toNat).toNat) s)

/-- `loc.q.va` (R238): the low 57 bits of the pair are the address. -/
def execLocQVa (d : Reg) (a : Reg) (s : State) : Host.Outcome State Fault Refusal :=
  commit s (word (.locQVa d a) (fun c g l s =>
    if c.on.isEmpty then []
    else
      let j := s.dev.jobOf l
      Part.seq [
        retire c.g (Instr.locQVa d a).latency
          (c.on.flatMap fun m => outRun g m d.toNat 1 (s.locVa j (srcV64 s.dev g c m a.toNat % 2 ^ 57))),
        Part.mod fun d => { d with free := d.free + 2 ^ 52 }] s) s)

/-! ### Self-tests (R350) -/

/-- Whether a job may run self-tests: TEST of its descriptor (R330). -/
def Job.test (j : Job) : Bool := bitAt (j.field 0x04 4) 0

/-- Whether the block of a group is the only one resident on its core. -/
def Dev.aloneOnCore (d : Dev) (g : Group) : Bool :=
  !(d.groups.any fun h =>
    match g.place, h.place with
    | some p, some q =>
      decide (p.die = q.die) && decide (p.core = q.core) && !(decide (h.key.launch = g.key.launch) && decide (h.key.block = g.key.block)) &&
      (match d.block? h.key.launch h.key.block with | some b => decide (b.residency ≠ .ended) | none => false)
    | _, _ => false)

/-- PRIV, at a self-test word of a job without TEST. -/
def privFault (c : Issue) : FaultInfo := { code := .priv, cause := pcSlot c.loc }

/-- The matrix array of a cluster under test, its sluice empty: it admits no entry until the test ends. -/
def bistArray (i : Instr) (c : Issue) (g : Group) : Part := fun s =>
  let cl := s.dev.clusterOf g
  match c.resume.map Hold.kind with
  | some (.bist _) => []
  | _ =>
    if cl.all.isEmpty && !cl.bist then
      Part.seq [Part.mod fun d => d.setCluster { cl with bist := true }, holdLanes c i c.lanes (.bist 0) 7 .none] s
    else if c.resume.isSome then []
    else holdLanes c i c.lanes .retry 7 .none s

/-- Whether a self-test's operand names no target, or one whose condition is broken (R350). -/
def bistBad (d : Dev) (g : Group) (v : Nat) : Bool := decide (4 ≤ v) || ((decide (v = 1) || decide (v = 2)) && !d.aloneOnCore g)

/-- `bist.run` (R350): the batch is held until the test ends. -/
def execBistRun (a : Reg) (s : State) : Host.Outcome State Fault Refusal :=
  commit s (wordWith (.bistRun a) (leadCauses fun s g _ c ld => causeIf 2 (bistBad s.dev g (leadV s g c ld a))) (fun c g l s =>
    match g.leader c.on with
    | none => []
    | some ld =>
      let v := leadV s g c ld a
      if !(s.dev.jobOf l).test then raise c (privFault c) s
      else if v = 3 then bistArray (.bistRun a) c g s
      else if c.resume.isSome then []
      else holdLanes c (.bistRun a) c.lanes (.bist 0) 3 .none s) s)

/-- `bist.rd` (R350). -/
def execBistRd (d : Reg) (s : State) : Host.Outcome State Fault Refusal :=
  commit s (word (.bistRd d) (fun c g l s =>
    if !hasLeader g c then []
    else if !(s.dev.jobOf l).test then raise c (privFault c) s
    else retire c.g (Instr.bistRd d).latency (c.on.flatMap fun m => outRun g m d.toNat 1 g.bist.toNat) s) s)

/-- What a self-test of a target leaves (R350). -/
def bistEffect (g : Group) (target : Nat) : Part := fun s =>
  let k := g.key
  match target with
  | 1 =>
    [.clear .blk (blkAddr k.launch k.block 0) (2 ^ 18), .dev (s.dev.modBlock k.launch k.block fun b => { b with races := [] })]
  | 2 => [.dev (s.dev.modBlock k.launch k.block fun b => { b with tiles := [], tileStat := [] })]
  | 3 => [.dev (s.dev.setCluster { s.dev.clusterOf g with bist := false })]
  | _ => []

/-- R350: a self-test ends: its result is kept, and the batch goes on. Else there is no effect. -/
def execBistComplete (k : GKey) (lane : Nat) (fail : Bool) (row : BitVec 24) (s : State) : Host.Outcome State Fault Refusal :=
  commit s <|
    match s.dev.group? k, s.dev.launch? k.launch with
    | some g, some l =>
      match (g.lane lane).hold.map Hold.kind, heldWord l (g.lane lane) with
      | some (.bist _), some (.bistRun a) =>
        let ls := g.heldWith lane
        match g.heldLeader ls with
        | none => []
        | some ld =>
          let target := ((g.lane ld).snapped a.toNat).toNat
          Part.seq [
            bistEffect g target,
            Part.mod (fun d => d.modGroup k fun g =>
              { g with bist := BitVec.ofNat 64 (1 + 2 * fail.toNat + 4 * target + 256 * row.toNat) }),
            releaseLanes k ls (pcNext (g.lane ld).pc)] s
      | _, _ => []
    | _, _ => []

/-! ### Device-side launch (R343) -/

def Dev.queue? (d : Dev) (job num : Nat) : Option Queue :=
  d.queues.find? fun q => decide (q.job = job) && decide (q.num = num)
def Dev.setQueue (d : Dev) (q : Queue) : Dev :=
  { d with queues := upsert (fun x => decide (x.job = q.job) && decide (x.num = q.num)) q d.queues }
def Dev.modQueue (d : Dev) (job num : Nat) (f : Queue → Queue) : Dev :=
  match d.queue? job num with
  | some q => d.setQueue (f q)
  | none => d

/-- The device queue's number. -/
def devQueue : Nat := 0xFFFF

/-- A job's device queue before its first child. -/
def Queue.device (job since : Nat) : Queue where
  job := job
  num := devQueue
  ring := 0
  rsize := 0
  csize := 0
  cring := 0
  page := 0
  tail := 0
  head := 0
  cprod := 0
  ccons := 0
  started := []
  children := []
  due := []
  done := []
  removed := false
  slot := none
  since := since

/-- Children of a job that have not completed. -/
def Dev.childCount (d : Dev) (job : Nat) : Nat :=
  match d.queue? job devQueue with
  | some q => q.children.length + q.started.length
  | none => 0

/-- Whether a record is one that `launch.dev` takes: KIND 1, no dependence, no persistence. -/
def childOk (raw : List Byte) : Bool :=
  decide (leNat (raw.take 1) = 1) && decide (leNat ((raw.drop 0x34).take 8) = 0) && !bitAt (leNat ((raw.drop 1).take 1)) 1

/-- Whether a queue has records that are not completed: it is ready (R341). -/
def Queue.ready (q : Queue) : Bool :=
  (!q.removed && decide (q.head < q.tail)) || !q.started.isEmpty || !q.due.isEmpty || !q.children.isEmpty

/-- When a queue that receives a record became ready: now, unless it was ready before (R341). -/
def Queue.readySince (q : Queue) (now : Nat) : Nat := if q.ready then q.since else now

/-- A child joins its job's device queue. -/
def Dev.addChild (d : Dev) (job parent code : Nat) (raw : List Byte) (obj : Option ObjRef) (knows : List Nat) : Dev :=
  let q := match d.queue? job devQueue with
    | some q => q
    | none => Queue.device job d.time
  d.setQueue { q with
    tail := q.tail + 1
    children := q.children ++ [⟨q.tail + 1, raw, parent, code, obj, knows⟩]
    since := q.readySince d.time }

/-- The record that a `launch.dev` names, where it can be read: its place, once the group's stores before the word are performed (R343). -/
def launchRecord (s : State) (c : Issue) (g : Group) (l : Launch) (ld : Nat) (a : Reg) : Option (List Byte) :=
  match readRange s.dev l (s.dev.jobOf l) g.key.block (wpPair s g c ld a).1 64 64 with
  | .ok t => if g.storesDone c then some (s.bytes t.store t.off 64) else none
  | .error _ => none

/-- `launch.dev` (R343): the record is read once the group's stores are performed. -/
def execLaunchDev (a : Reg) (s : State) : Host.Outcome State Fault Refusal :=
  commit s (wordWith (.launchDev a)
    (leadVals fun s g l c ld => causeIf 2 ((launchRecord s c g l ld a).any fun raw => !childOk raw)) (fun c g l s =>
    match g.leader c.on with
    | none => []
    | some ld =>
      let (code, obj) := wpPair s g c ld a
      let j := s.dev.jobOf l
      match readRange s.dev l j g.key.block code 64 64, launchRecord s c g l ld a with
      | .error f, _ => raise c (rangeFault ld (codeAddr code) f) s
      | .ok _, none => if c.resume.isSome then [] else holdLanes c (.launchDev a) c.lanes .retry 3 .none s
      | .ok _, some raw =>
        match worstRange ld (objChecks s.dev l j g.key.block obj) with
        | some f => raise c f s
        | none =>
          if 256 ≤ s.dev.childCount l.job then
            (if c.resume.isSome then [] else holdLanes c (.launchDev a) c.lanes .retry 3 .none s)
          else Part.seq [
            releaseReads c.g,
            Part.mod fun d => d.addChild l.job l.tag code raw (objOf l g.key.block obj) g.knows,
            goOn c] s) s)

/-- Whether `launch.dev` is not ready: the device queue is full (R343). -/
def launchBlocked (s : State) (c : Issue) (g : Group) (l : Launch) (i : Instr) : Option (Nat × Watchdog) :=
  match i with
  | .launchDev _ => if hasLeader g c && decide (256 ≤ s.dev.childCount l.job) then some (3, .none) else none
  | _ => none

end Sys2Proof.Machine
end

