-- ==== Sys2Proof/Machine/Vintages.lean ====
section
/-!
DEFINITION. Vintages: opcodes 0x37 and 0x2C, and the weir's application of a merge (R244 to R260, R308, R309).
-/

namespace Sys2Proof.Machine

/-! ### The cooper and the cursors (R245, R246, R252, R254) -/

/-- Whether a tag is held: a live vintage, or a retired one that a group's GSR.VT, a waiting merge, a child still to be made, an outstanding
`ld.vt` or `ld.vtw`, or a held word that will access its view names (R246). -/
def Dev.tagHeld (d : Dev) (t : Nat) : Bool :=
  (match d.vintage? t with | some v => v.live | none => false) ||
  d.groups.any fun g =>
    (decide (g.run ≠ .ended) && decide (g.vt = t)) ||
    (g.acc.any fun a => decide (a.vt = t)) ||
    g.lanes.any fun x => match x.hold.map Hold.kind with
      | some (.turn u) | some (.newVt u) => decide (u = t)
      | some (.tile w) | some (.slot w) => decide ({ g with gsr := w }.vt = t)
      | _ => false

/-- The lowest free tag (R246). -/
def Dev.freeTag (d : Dev) : Option Nat := (countFrom 1 16383).find? fun t => !d.tagHeld t

/-- Where the merges into a parent of a launch gather (R286, R293). -/
def mergeMeet (launch parent : Nat) : Nat := launch * 2 ^ 14 + parent

/-- A group acquires, at `.dev`, the merges into a parent that have been applied (R286, R293). -/
def Dev.acquireMerges (d : Dev) (k : GKey) (launch parent : Nat) : Dev :=
  d.syncWith k 3 (d.meeting .pad (2 ^ 17) (mergeMeet launch parent))

/-- A merge into a parent is applied: its group has acquired the earlier ones, and it is a release at `.dev` (R255, R293). -/
def Dev.mergeApplied (d : Dev) (k : GKey) (launch parent : Nat) : Dev :=
  let d1 := d.acquireMerges k launch parent
  d1.setMeeting .pad (2 ^ 17) (mergeMeet launch parent) (addRelease (d.meeting .pad (2 ^ 17) (mergeMeet launch parent)) (d1.releaseOf k 3))

/-- NEXT of a parent in a launch, and the ordinals at or above it whose child is done (R245). -/
def Dev.cursor (d : Dev) (launch p : Nat) : Nat × List Nat :=
  if p = 0 then (match d.launch? launch with | some l => (l.rootNext, l.rootDone) | none => (0, []))
  else match d.vintage? p with
    | some v => (v.next, v.done)
    | none => (0, [])

def Dev.setVintage (d : Dev) (v : Vintage) : Dev :=
  { d with vintages := upsert (fun x => decide (x.tag = v.tag)) v d.vintages }

def Dev.setCursor (d : Dev) (launch p : Nat) (c : Nat × List Nat) : Dev :=
  if p = 0 then d.modLaunch launch fun l => { l with rootNext := c.1, rootDone := c.2 }
  else match d.vintage? p with
    | some v => d.setVintage { v with next := c.1, done := c.2 }
    | none => d

/-- The cursor moved past every ordinal that is done. -/
def passDone : Nat → Nat → List Nat → Nat × List Nat
  | 0, next, done => (next, done)
  | f + 1, next, done => if done.contains next then passDone f (next + 1) (done.filter fun o => decide (o ≠ next)) else (next, done)

/-- An ordinal of a parent is done (R254, R255). -/
def Dev.ordinalDone (d : Dev) (launch p o : Nat) : Dev :=
  let c := d.cursor launch p
  let done := o :: c.2
  d.setCursor launch p (passDone (done.length + 1) c.1 done)

/-- A vintage retires: its data cells and the merge records of its children are freed, and its ordinal is done. -/
def Dev.retireVintage (d : Dev) (v : Vintage) : Dev :=
  let d1 := d.setVintage { v with live := false, closing := none }
  { d1 with
    dataCells := d1.dataCells.filter fun c => decide (c.tag ≠ v.tag)
    mergeRecs := d1.mergeRecs.filter fun r => decide (r.parent ≠ v.tag)
    syncs := d1.syncs.filter fun r => decide (r.vt ≠ v.tag) && !(decide (r.vt = 2 ^ 17) && decide (r.addr = mergeMeet v.launch v.tag)) }.ordinalDone v.launch v.parent v.ordinal

/-- A vintage retires: what reads its view has read it (R258). -/
def retireNow (v : Vintage) : Part := fun s => [.dev ((s.takeView v.tag).retireVintage v)]

/-- GSR.VT set. -/
def Group.setVt (g : Group) (t : Nat) : Group := { g with gsr := dput g.gsr 32 14 t }

/-! ### Opcode 0x37 -/

/-- Whether a vintage has a live child. -/
def Dev.hasChild (d : Dev) (t : Nat) : Bool := d.vintages.any fun v => v.live && decide (v.parent = t)

/-- The vintage that a `vt.drop` or `vt.merge` may retire (R254, R255). -/
def Dev.retirable (d : Dev) (launch : Nat) (x : Word) : Option Vintage :=
  match d.vintage? x.toNat with
  | some v =>
    if v.live ∧ v.launch = launch ∧ d.hasChild v.tag = false ∧ v.closing = none then some v else none
  | none => none

/-- Whether a child of a parent cannot take an ordinal: below NEXT, or one that a child has or has had (R252). -/
def Dev.ordinalUsed (d : Dev) (launch p o : Nat) : Bool :=
  decide (o < (d.cursor launch p).1) || (d.cursor launch p).2.contains o || d.vintages.any fun v =>
    v.live && decide (v.launch = launch) && decide (v.parent = p) && decide (v.ordinal = o)

/-- The values that make `vt.new` ILLEGAL_OPERAND, in the order of R252: a closing parent, and, unless the parent is retired or as deep as can
be, an ordinal that is used. -/
def vtNewCauses (a : Reg) (s : State) (c : Issue) (g : Group) (l : Launch) : List (Nat × Nat) :=
  let p := g.vt
  match g.leader c.on with
  | none => []
  | some ld =>
    if c.resume.isSome ∨ (p ≠ 0 ∧ s.dev.liveVt l.tag p = false) then []
    else match (s.dev.vintage? p).filter fun _ => decide (p ≠ 0) with
      | some v =>
        if v.closing.isSome then causeIf 0 true
        else if v.depth = 3 then []
        else causeIf 2 (s.dev.ordinalUsed l.tag p (srcV s.dev g c ld a.toNat).toNat)
      | none => causeIf 2 (s.dev.ordinalUsed l.tag p (srcV s.dev g c ld a.toNat).toNat)

/-- The depth of a child of a parent (R245). -/
def Dev.childDepth (d : Dev) (p : Nat) : Nat :=
  if p = 0 then 1 else match d.vintage? p with | some v => v.depth + 1 | none => 1

/-- `vt.new` (R252): its faults are tested in the order of the rule, and its parent is that of its issue, also where it waits for a tag. -/
def execVtNew (d : Reg) (a : Reg) (s : State) : Host.Outcome State Fault Refusal :=
  commit s (wordWith (.vtNew d a) (vtNewCauses a) (fun c g l s =>
    match g.leader c.on with
    | none => []
    | some ld =>
      let p := match c.resume.map Hold.kind with | some (.newVt p) => p | _ => g.vt
      if c.resume.isNone ∧ p ≠ 0 ∧ s.dev.liveVt l.tag p = false then raise c { code := .vtOrphan, cause := pcSlot c.loc, aux := p } s
      else if c.resume.isNone ∧ s.dev.childDepth p = 4 then raise c { code := .vtDepth, cause := pcSlot c.loc } s
      else match s.dev.freeTag with
        | none => if c.resume.isSome then [] else holdLanes c (.vtNew d a) c.lanes (.newVt p) 10 (.vt 0 0) s
        | some t =>
          Part.seq [
            Part.mod (fun dv => dv.setVintage
              { tag := t, parent := p, depth := s.dev.childDepth p, ordinal := (srcV s.dev g c ld a.toNat).toNat, launch := l.tag, live := true,
                closing := none, mark := 0, failed := false, next := 0, done := [] }),
            retire c.g 3 (c.on.flatMap fun m => outRun g m d.toNat 1 t),
            (if c.resume.isSome then releaseLanes c.g c.lanes (pcNext c.loc) else Part.none)] s) s)

/-- A tag operand that its word does not accept (R251, R253 to R255). -/
def badTag (a : Reg) (ok : Dev → Launch → Word → Bool) (s : State) (c : Issue) (g : Group) (l : Launch) : List (Nat × Nat) :=
  causeIf 2 ((g.leader c.on).any fun ld => !ok s.dev l (srcV s.dev g c ld a.toNat))

/-- Whether a tag may be the current vintage of a group of a launch: the root's, or a live one's. -/
def settable (d : Dev) (l : Launch) (t : Word) : Bool := decide (t = 0) || d.liveVt l.tag t.toNat

/-- `vt.set` (R253). -/
def execVtSet (a : Reg) (s : State) : Host.Outcome State Fault Refusal :=
  commit s (wordWith (.vtSet a) (badTag a settable) (fun c g _ s =>
    match g.leader c.on with
    | none => []
    | some ld => [.dev (s.dev.setGroup (g.setVt (srcV s.dev g c ld a.toNat).toNat))]) s)

/-- `vt.get` (R253). -/
def execVtGet (d : Reg) (s : State) : Host.Outcome State Fault Refusal :=
  commit s (word (.vtGet d) (fun c g _ s =>
    if hasLeader g c then retire c.g 3 (c.on.flatMap fun m => outRun g m d.toNat 1 g.vt) s else []) s)

/-- `vt.drop` (R254); one that lets NEXT pass acquires the merges into the parent (R293). -/
def execVtDrop (a : Reg) (s : State) : Host.Outcome State Fault Refusal :=
  commit s (wordWith (.vtDrop a) (badTag a fun d l t => (d.retirable l.tag t).isSome) (fun c g l s =>
    match g.leader c.on with
    | none => []
    | some ld =>
      match s.dev.retirable l.tag (srcV s.dev g c ld a.toNat) with
      | none => []
      | some v =>
        let next (d : Dev) : Nat := (d.cursor v.launch v.parent).1
        Part.seq [
          retireNow v,
          Part.mod fun d =>
            let d1 := d.modGroup c.g fun g => if g.vt = v.tag then g.setVt v.parent else g
            if next d = next s.dev then d1 else d1.acquireMerges c.g v.launch v.parent] s) s)

/-- `vt.merge` (R255): the vintage is closing from here on, and the batch waits until the weir has applied it. -/
def execVtMerge (a : Reg) (s : State) : Host.Outcome State Fault Refusal :=
  commit s (wordWith (.vtMerge a) (fun s c g l => if c.resume.isSome then [] else badTag a (fun d l t => (d.retirable l.tag t).isSome) s c g l) (fun c g l s =>
    match c.resume.map Hold.kind with
    | some (.turn t) =>
      if s.dev.liveVt l.tag t then (match g.timedOut true with | some x => raiseDeferred c x s | none => [])
      else releaseLanes c.g c.lanes (pcNext c.loc) s
    | _ =>
      match g.leader c.on with
      | none => []
      | some ld =>
        match s.dev.retirable l.tag (srcV s.dev g c ld a.toNat) with
        | none => []
        | some v =>
          Part.seq [
            Part.mod (fun d => d.setVintage { v with closing := some c.g, mark := g.accesses }),
            releaseReads c.g,
            holdLanes c (.vtMerge a) c.lanes (.turn v.tag) 11 (.vt 2 v.ordinal)] s) s)

/-! ### The weir's application (R255, R256, R308, R309) -/

/-- The store of a cell. -/
def DataCell.store (c : DataCell) : Store := if c.pad then .pad else .blk c.launch c.block

/-- Bytes of a cell that its vintage wrote plainly, and its delta words. -/
def DataCell.plain (c : DataCell) : List Nat := (countFrom 0 32).filter fun y => bitAt c.wm.toNat y && c.kind (y / 4) == 0
def DataCell.deltas (c : DataCell) : List Nat := (countFrom 0 8).filter fun w => c.kind w != 0

def Dev.mergeRec? (d : Dev) (parent : Nat) (c : DataCell) : Option MergeRec :=
  d.mergeRecs.find? fun r => decide (r.launch = c.launch) && decide (r.parent = parent) && decide (r.pad = c.pad) &&
    decide (r.granule = c.granule) && (c.pad || decide (r.block = c.block))

/-- The cells of a vintage. -/
def Dev.cellsOf (d : Dev) (t : Nat) : List DataCell := d.dataCells.filter fun c => decide (c.tag = t)

/-- Cells that the application of a vintage takes: a merge record for a granule with a plain byte, and a data cell of a parent
that is not the root (R247, R255). -/
def Dev.mergeNeeds (d : Dev) (v : Vintage) : Nat :=
  natSum ((d.cellsOf v.tag).map fun c =>
    (if c.plain.isEmpty ∨ (d.mergeRec? v.parent c).isSome then 0 else 2) +
    (if v.parent = 0 ∨ (d.cell? v.parent c.pad c.block c.granule).isSome then 0 else 1))

/-- Whether a merge whose turn has come waits for a cell. -/
def Dev.mergeShort (d : Dev) (t : Nat) : Bool :=
  match d.vintage? t with
  | none => false
  | some v =>
    match d.launch? v.launch with
    | none => false
    | some l => decide ((d.cursor v.launch v.parent).1 = v.ordinal) && decide (d.cellsFree l < d.mergeNeeds v)

/-- The lowest of some addresses with what stands at it. -/
def lowestAt : List (Nat × Nat × Bool) → Option (Nat × Nat × Bool)
  | [] => none
  | e :: es =>
    match lowestAt es with
    | none => some e
    | some f => if e.1 ≤ f.1 then some e else some f

/-- Conflicts of a vintage with its siblings: address, the sibling's tag, and whether in the pad (R255). -/
def Dev.mergeConflicts (d : Dev) (v : Vintage) : List (Nat × Nat × Bool) :=
  (d.cellsOf v.tag).flatMap fun c =>
    match d.mergeRec? v.parent c with
    | none => []
    | some r => c.plain.filterMap fun y =>
        let t := (cellGet r.tags y).toNat
        if t = 0 then none else some (32 * c.granule + y, t, c.pad)

/-- Delta words that meet a delta of the other type in the parent's cell (R255). -/
def Dev.mergeClashes (d : Dev) (v : Vintage) : List (Nat × Nat × Bool) :=
  if v.parent = 0 then []
  else (d.cellsOf v.tag).flatMap fun c =>
    match d.cell? v.parent c.pad c.block c.granule with
    | none => []
    | some p => (c.deltas.filter fun w => p.kind w != 0 && p.kind w != c.kind w).map fun w =>
        (32 * c.granule + 4 * w, 0, c.pad)

/-- The bytes that a cell's delta words give in memory (R255). -/
def deltaBytes (s : State) (c : DataCell) (w : Nat) : List (Nat × Byte) :=
  let a := 32 * c.granule + 4 * w
  let v := applyDelta (c.kind w) (s.nat c.store a 4) (c.word w)
  (countFrom 0 4).map fun k => (a + k, BitVec.ofNat 8 (v / 256 ^ k))

/-- What a cell writes into the memory, by address. -/
def rootBytes (s : State) (c : DataCell) : List (Nat × Byte) :=
  (c.plain.map fun y => (32 * c.granule + y, cellGet c.data y)) ++ c.deltas.flatMap (deltaBytes s c)

/-- A granule's merge into the memory, in one step. -/
def mergeRoot (c : DataCell) : Part := fun s =>
  let bs := rootBytes s c
  (bs.map fun e => Act.store c.store.bank (c.store.at_ e.1) e.2) ++
    [.dev (bs.foldl (fun d e => (d.plainOver c.store 0 e.1 1).wake none c.store e.1 1) s.dev)]

/-- A granule's merge into the parent's cell: a write of the parent's view (R283, R293). -/
def mergeCell (v : Vintage) (c : DataCell) : Part :=
  Part.seq [
    Part.mod (fun d => (c.plain ++ c.deltas.flatMap fun w => countFrom (4 * w) 4).foldl
      (fun d y => d.plainOver c.store v.parent (32 * c.granule + y) 1) d),
    Part.each c.plain (fun y => cellStore c.store v.parent c.launch (32 * c.granule + y) [cellGet c.data y]),
    Part.each c.deltas (fun w s =>
      match cellAcc (s.cellFor c.store v.parent c.launch c.granule) w (c.kind w) (c.word w) with
      | some x => [.dev (s.dev.setCell x)]
      | none => [])]

/-- A granule's merge record after a merge. -/
def markMerged (v : Vintage) (c : DataCell) : Part := fun s =>
  if c.plain.isEmpty then []
  else
    let r0 : MergeRec := match s.dev.mergeRec? v.parent c with
      | some r => r
      | none => ⟨c.launch, v.parent, c.pad, c.block, c.granule, []⟩
    let r1 := { r0 with tags := c.plain.foldl (fun t y => cellSet t y (BitVec.ofNat 14 v.tag)) r0.tags }
    let same (r : MergeRec) : Bool :=
      decide (r.launch = r1.launch) && decide (r.parent = r1.parent) && decide (r.pad = r1.pad) &&
      decide (r.block = r1.block) && decide (r.granule = r1.granule)
    [.dev { s.dev with mergeRecs := upsert same r1 s.dev.mergeRecs }]

/-- The lanes that wait for a merge, and where. -/
def Group.turnLanes (g : Group) (t : Nat) : List Nat :=
  g.laneNos.filter fun l => match (g.lane l).hold with | some h => decide (h.kind = .turn t) | none => false

/-- A fault that the weir finds in a merge: precise at the `vt.merge` word; the vintage stays as it is (R256, R309). -/
def mergeFault (v : Vintage) (k : GKey) (code : FaultCode) (x : Nat × Nat × Bool) : Part := fun s =>
  match s.dev.group? k with
  | none => []
  | some g =>
    let ls := g.turnLanes v.tag
    let loc := (g.lane (ls.headD 0)).pc
    Part.seq [
      Part.mod (fun d => d.setVintage { v with failed := true }),
      takeFault k ls loc true
        { code := code, faddr := x.1, cause := pcSlot loc, aux := v.tag + 2 ^ 16 * x.2.1 + 2 ^ 31 * x.2.2.toNat }] s

/-- Whether a range of the headgate table holds a granule of a vintage's cells (R255). -/
def Dev.mergeGated (d : Dev) (v : Vintage) : Bool :=
  (d.cellsOf v.tag).any fun c => (d.gateHit c.store (32 * c.granule) 32 true).isSome

/-- The watchpoint report of a merged granule (R373 to R375). -/
def mergeWatch (v : Vintage) (k : GKey) (job : Nat) (c : DataCell) : Part := fun s =>
  if !c.pad then []
  else
    let bs := (rootBytes s c).map Prod.fst
    let hits := bs.flatMap fun a => s.dev.watchByte false job (padHome a) a
    let loc := match s.dev.group? k with | some g => (g.lane ((g.turnLanes v.tag).headD 0)).pc | none => 0
    watchReport hits 3 (padHome (32 * c.granule) + 16 * 5 + 256 * v.tag) 1000 job s.dev.time (s.dev.wordNames k loc) s

/-- Whether an access that a group made before a merge is still to be performed, or a store of it has timed out (R255, R286, R327). An
`ld.vtw` that still waits is none of them (log 58). -/
def State.mergeEarly (s : State) (v : Vintage) (k : GKey) : Bool :=
  match s.dev.group? k with
  | some g => (g.timedOut true).isSome || g.acc.any fun a => decide (a.seq < v.mark) && !a.taken && !s.vtWaits v.launch a
  | none => false

/-- R255: the weir applies a vintage whose turn has come, in one step; a conflict or a clash of delta types is a fault, and nothing is
applied. Else there is no effect yet. -/
def execMergeApply (tag : Nat) (s : State) : Host.Outcome State Fault Refusal :=
  commit s <|
    match s.dev.vintage? tag with
    | none => []
    | some v =>
      match v.closing, s.dev.launch? v.launch with
      | some k, some l =>
        if v.live = false ∨ v.failed ∨ (s.dev.cursor v.launch v.parent).1 ≠ v.ordinal ∨ s.mergeEarly v k ∨ s.dev.mergeGated v ∨
            (s.dev.jobOf l).ending.isSome then []
        else match lowestAt (s.dev.mergeConflicts v), lowestAt (s.dev.mergeClashes v) with
          | some x, _ => mergeFault v k .vtMergeConflict x s
          | none, some x => mergeFault v k .illegalOperand x s
          | none, none =>
            if s.dev.mergeShort tag then []
            else
              let cs := s.dev.cellsOf tag
              Part.seq [
                Part.each cs (fun c => Part.seq [
                  (if v.parent = 0 then mergeWatch v k l.job c else Part.none),
                  (if v.parent = 0 then mergeRoot c else mergeCell v c),
                  markMerged v c]),
                retireNow v,
                Part.mod fun d => (d.modGroup k fun g => if g.vt = tag then g.setVt v.parent else g).mergeApplied k v.launch v.parent] s
      | _, _ => []

/-! ### Opcode 0x2C (R257, R258) -/

/-- One lane's access of `ld.vt`: the faults of any read, ACCESS outside every tagged window, VT_ORPHAN for a tag that is not live. -/
def vtAccess (d : Dev) (g : Group) (l : Launch) (lane : Nat) (pad : Bool) (addr n t : Nat) : Except (AccFault × Space) LaneAccess :=
  let inWin : Bool := match (memTarget l g.key.block pad addr n).2 with | some x => l.inWindow pad x.off n | none => false
  match accessOf d g l (d.jobOf l) lane pad addr n n .read with
  | .error f => if f.1.rank ≤ 2 ∨ inWin then .error f else .error (.access, f.2)
  | .ok a =>
    if !inWin then .error (.access, a.space)
    else if t ≠ 0 ∧ d.liveVt l.tag t = false then .error (.vtOrphan t, a.space)
    else .ok a

/-- `ld.vt` and `ld.vtw` (R258): counted loads, each lane in a vintage of its own. -/
def ldVtWord (i : Instr) (d a b : Reg) (p z waits : Bool) (s : State) : List Act :=
  word i (fun c g l s =>
    let n := 4 * regs64 z
    let addr (m : Nat) : Nat := (srcV s.dev g c m a.toNat).toNat
    let tag (m : Nat) : Nat := (srcV s.dev g c m b.toNat).toNat % 2 ^ 14
    let rs := c.on.map fun m => (m, vtAccess s.dev g l m p (addr m) n (tag m))
    let bad := rs.filterMap fun r =>
      match r.2 with
      | .error f => if g.isHelper r.1 then none else some (r.1, addr r.1, f.1, f.2)
      | .ok _ => none
    match worstFault bad with
    | some f => raise c (fibreFault (pcSlot c.loc) (sizeCode n) f) s
    | none =>
      let slots (m : Nat) : List Slot := g.slots m d.toNat (regs64 z)
      let ops := rs.map fun r =>
        match r.2 with
        | .ok x => (x, AccOp.loadVt (tag r.1) waits (slots r.1))
        | .error f => ((⟨r.1, 0, f.2, .pad, 0, n, true⟩ : LaneAccess), AccOp.value 0 (slots r.1))
      if ops.isEmpty then []
      else
        let ok := rs.filterMap fun r => match r.2 with | .ok x => some x | .error _ => none
        let d1 := ok.foldl (fun d x => d.touchRace g l x .other) s.dev
        [.dev (d1.issueAccesses c true 0 false false 0 ops (c.on.flatMap fun m => slotRegs (slots m)))]) s

/-- `ld.vt` (R258). -/
def execLdVt (d : Reg) (a : Reg) (b : Reg) (p : Bool) (z : Bool) (s : State) : Host.Outcome State Fault Refusal :=
  commit s (ldVtWord (.ldVt d a b p z) d a b p z false s)

/-- `ld.vtw` (R258). -/
def execLdVtw (d : Reg) (a : Reg) (b : Reg) (p : Bool) (z : Bool) (s : State) : Host.Outcome State Fault Refusal :=
  commit s (ldVtWord (.ldVtw d a b p z) d a b p z true s)

end Sys2Proof.Machine
end

