-- ==== Sys2Proof/Machine/Ready.lean ====
section
/-!
DEFINITION. What a group may issue: packets and chains and their faults (R36 to R38, R47, R48), batches (R28), readiness and its
reasons (R136, R143), and the choice of the arbiter (R134, R135, R137, R138).
-/

namespace Sys2Proof.Machine

/-! ### Packets and chains -/

/-- A word of a packet: its slot, its instruction, its slot control field, its chain bit and its pipe, if its opcode has one. -/
structure Slotted where
  slot : Nat
  instr : Except Reject Instr
  ctl : SlotCtl
  chain : Bool
  pipe : Option Pipe

/-- The word of a slot of a packet. -/
def slotted (l : Launch) (pkt k : Nat) : Slotted :=
  let w := l.codeWord (pkt + 4 + 4 * k)
  ⟨k, decode w, slotCtl (l.codeWord pkt) k, chainBit w, pipeOf (opOf w)⟩

/-- The words that issue together from a slot on: up to the first that is not chained (R47). -/
def chainFrom (l : Launch) (pkt : Nat) : Nat → Nat → List Slotted
  | 0, _ => []
  | f + 1, k =>
    let u := slotted l pkt k
    if u.chain ∧ k < 2 then u :: chainFrom l pkt f (k + 1) else [u]

/-- What keeps a packet or a chain from issuing: the code, the slot and the reason. -/
structure Misfit where
  code : FaultCode
  slot : Nat
  reason : Nat
  deriving DecidableEq, Repr

/-- The instruction that a word names, its S bit and its unused fields aside (log 55). -/
def Slotted.names (u : Slotted) : Option Instr := namesOf u.instr

/-- Whether a reuse bit stands on a word that is no matrix post (R38). A word that names a post and does not decode counts as one: its own
fault is ILLEGAL_OPCODE (log 55). -/
def Slotted.badReuse (u : Slotted) : Bool := u.ctl.hold && !u.names.any Instr.isPost

/-- The faults of a packet (R38). A fault of the packet as a whole, a wrong marker or a fetch outside the code, names the slot of the program
counter (log 55). -/
def packetMisfit (l : Launch) (pc : Pc) : Option Misfit :=
  let pkt := pcPkt pc
  if !l.hasPkt pkt then some ⟨.illegalPacket, pcSlot pc, 2⟩
  else if ctlMark (l.codeWord pkt) ≠ 2 then some ⟨.illegalPacket, pcSlot pc, 0⟩
  else ((countFrom 0 3).find? fun k => (slotted l pkt k).badReuse).map fun k => ⟨.illegalPacket, k, 1⟩

/-- What a word writes. -/
def Slotted.targets (u : Slotted) : List Nat := u.names.toList.flatMap Instr.targets

/-- The causes that the words of a chain give, each with its reason and slot (R47, R48, R53). Of two words on one pipe, or with one
destination, the later one has the cause (log 55). A reserved opcode has no pipe and no destination. -/
def chainCauses : List Slotted → List Slotted → List (Nat × Nat)
  | _, [] => []
  | before, u :: us =>
    let last : Bool := u.names.any Instr.standsLast
    (if u.pipe.isSome && before.any fun b => decide (b.pipe = u.pipe) then [(7, u.slot)] else []) ++
    (if before.any fun b => b.targets.any u.targets.contains then [(8, u.slot)] else []) ++
    (if last && !us.isEmpty then [(9, u.slot)] else []) ++
    (if u.ctl.safe && !before.isEmpty then [(10, u.slot)] else []) ++
    chainCauses (before ++ [u]) us

/-- The fault of a chain (R47). -/
def chainMisfit (us : List Slotted) : Option Misfit :=
  if us.any fun u => u.chain && decide (u.slot = 2) then some ⟨.illegalChain, 2, 6⟩
  else (lowestCause (chainCauses [] us)).map fun c => ⟨.illegalChain, c.2, c.1⟩

/-- The words that a batch at a location issues next. -/
def Launch.nextWords (l : Launch) (pc : Pc) : List Slotted := chainFrom l (pcPkt pc) 3 (pcSlot pc)

/-! ### Batches (R28, R137) -/

/-- Lanes of the unheld batch of a lane: live fibres at its program counter, and the helpers that follow them. -/
def Group.batchOf (g : Group) (lane : Nat) : List Nat :=
  sortNat (g.withHelpers (g.liveLanes.filter fun m => decide ((g.lane m).pc = (g.lane lane).pc) && (g.lane m).hold.isNone))

/-- One lane for each unheld batch of a group: the lowest live one. -/
def Group.batches (g : Group) : List Nat :=
  (g.liveLanes.filter fun m => (g.lane m).hold.isNone).filter fun m =>
    !(g.liveLanes.any fun k => decide (k < m) && (g.lane k).hold.isNone && decide ((g.lane k).pc = (g.lane m).pc))

/-- One lane for each held batch. -/
def Group.heldBatches (g : Group) : List Nat :=
  g.liveLanes.filter fun m =>
    match (g.lane m).hold with
    | none => false
    | some h => !(g.liveLanes.any fun k => decide (k < m) &&
        match (g.lane k).hold with | some x => decide (x.batch = h.batch) | none => false)

/-- Lanes whose guard is true (R39). -/
def Group.guarded (g : Group) (ls : List Nat) (guard : Nat) : List Nat := ls.filter fun l => (g.lane l).predF guard

/-- The issue of one word of a batch. -/
def issueOf (g : Group) (ls : List Nat) (pc : Pc) (u : Slotted) : Issue where
  g := g.key
  loc := mkPc (pcPkt pc) u.slot
  lanes := ls
  on := g.guarded ls u.ctl.grd.toNat
  reuse := u.ctl.hold
  stop := u.ctl.safe
  resume := none
  guard := u.ctl.grd.toNat
  checked := false

/-! ### Readiness (R136, R143) -/

/-- The order in which the reasons apply (R143). -/
def reasonRank (r : Nat) : Nat := [13, 5, 6, 9, 10, 11, 12, 7, 8, 4, 1, 0, 2, 3, 14, 15].findIdx (decide <| · = r)

/-- Of two reasons with their watchdogs, the one that stands first. -/
def firstReason (a b : Option (Nat × Watchdog)) : Option (Nat × Watchdog) :=
  match a, b with
  | none, x => x
  | x, none => x
  | some x, some y => if reasonRank y.1 < reasonRank x.1 then some y else some x

/-- Why a word cannot issue: what its own family says. -/
def wordBlocked (s : State) (c : Issue) (g : Group) (l : Launch) (i : Instr) : Option (Nat × Watchdog) :=
  if (commonFault s.dev g l c i i.latency).isSome then none
  else [memBlocked, objBlocked, engineBlocked, matrixBlocked, launchBlocked].foldl (fun a f => firstReason a (f s c g l i)) none

/-- Whether a group's write to a watched byte is still to be performed or reported: the group stops before its next word (R373). -/
def Dev.watchPending (d : Dev) (g : Group) : Bool :=
  !g.watch.isEmpty ||
  g.acc.any fun a => a.op.writes && decide (a.store = .pad) &&
    (countFrom a.addr a.size).any fun x => !(d.watchByte false 0 (padHome x) x).isEmpty

/-- Whether a dump makes a group halt at stop sites: its job is dumped and the cut is not made (R367). -/
def Dev.dumpStops (d : Dev) (job : Nat) : Bool :=
  match d.dump with
  | some x => decide (x.job = job) && x.cut.isNone
  | none => false

/-- Whether a group stops at a stop site where its batch stands (R54). -/
def Dev.stopsAt (d : Dev) (g : Group) (l : Launch) (pc : Pc) (us : List Slotted) : Bool :=
  (us.head?.any fun u => u.ctl.safe) && decide (g.skipSite ≠ some pc) && (g.stopAt.isSome || d.dumpStops l.job)

/-- Whether a batch stands at a `brk` word of a job with a debugger: it stops there (R54, R94). -/
def Dev.brkHere (d : Dev) (l : Launch) (us : List Slotted) : Bool :=
  d.debugged l.job && us.head?.any fun u => u.ctl.safe && match u.instr with | .ok (.brk _) => true | _ => false

/-- Whether a group's results are written and its loads complete (R54). -/
def Group.settled (g : Group) : Bool := g.pend.isEmpty && g.counted.all g.complete

/-- Whether a group has an `ld.vtw` on its way that still waits (R258). -/
def State.awaitsVt (s : State) (g : Group) : Bool := g.acc.any (s.vtWaits g.key.launch)

/-- The reason for which an unheld batch cannot issue, pipes aside: `none` where it can. A batch that waits for a watched write to be performed,
or for results at a stop site, counts reason 4 (log 63). -/
def State.batchWaits (s : State) (g : Group) (l : Launch) (lane : Nat) : Option (Nat × Watchdog) :=
  let ls := g.batchOf lane
  let pc := (g.lane lane).pc
  let us := l.nextWords pc
  let stall : Option (Nat × Watchdog) := if s.dev.now g < g.nextIssue then some (1, .none) else none
  let fetch : Option (Nat × Watchdog) := g.fetch.map fun r => (r, .none)
  let watch : Option (Nat × Watchdog) := if s.dev.watchPending g then some (4, .none) else none
  let stop : Option (Nat × Watchdog) :=
    if (s.dev.stopsAt g l pc us || s.dev.brkHere l us) && !g.settled then some (if s.awaitsVt g then 10 else 4, .none) else none
  let words := if (packetMisfit l pc).isSome then none
    else us.foldl (fun a u => match u.instr with
      | .ok i => firstReason a (wordBlocked s (issueOf g ls pc u) g l i)
      | .error _ => a) none
  [stall, fetch, watch, stop, words].foldl firstReason none

/-- Whether a group may issue at all: resident, running, with its block's cuvée slots copied, and holding the lock that its restore asks for
(R141, R302, R304). -/
def Group.mayIssue (g : Group) : Bool := decide (g.run = .running) && g.place.isSome && g.xsaved.isNone && !g.copying

/-- Whether one of the loads for which a held word waits is an `ld.vtw` that waits: of a `wait.ld` those that have to retire, of a fence or an
ending word all, of an `mx.ld` those before it to its places (R258). -/
def State.heldForVt (s : State) (g : Group) (l : Launch) (m : Nat) (h : Hold) : Bool :=
  let some_ (p : Access → Bool) : Bool := g.acc.any fun a => s.vtWaits l.tag a && p a
  match heldWord l (g.lane m) with
  | some (.waitLd n) =>
    let qs := g.unretired.take (g.outstanding - n.toNat)
    some_ fun a => qs.any fun q => decide (q.seq = a.seq)
  | some (.mxLd _ _ _) => some_ fun a => decide (a.seq < h.mark) && (g.dues l h.mark).any a.meets
  | _ => some_ fun _ => true

/-- The reason of a held batch: a merge that is short of cells, and a batch held for loads of which an `ld.vtw` waits, wait on a vintage
(R143, R258). -/
def State.heldReason (s : State) (g : Group) (l : Launch) (m : Nat) (h : Hold) : Nat :=
  match h.kind with
  | .turn t => if s.dev.mergeShort t then 10 else h.reason
  | _ => if h.reason = 4 ∧ s.heldForVt g l m h then 10 else h.reason

/-- Issues of a pipe already made on a core in the die cycle. -/
def Dev.pipeUse (d : Dev) (die core : Nat) (p : Pipe) : Nat :=
  (d.used.filter fun u => decide (u = (die, core, p))).length

/-- Whether the pipes of some words can accept them (R134). -/
def Dev.pipesFree (d : Dev) (p : Place) (us : List Slotted) : Bool :=
  (us.filterMap Slotted.pipe).all fun q => decide (d.pipeUse p.die p.core q < q.width)

/-- The reason of an unheld batch that did not issue in the die cycle. -/
def State.batchReason (s : State) (g : Group) (l : Launch) (lane : Nat) : Nat :=
  match s.batchWaits g l lane with
  | some r => r.1
  | none =>
    match g.place with
    | some p => if s.dev.pipesFree p (l.nextWords (g.lane lane).pc) then 14 else 3
    | none => 14

/-- The reason that a group takes in a die cycle in which it did not issue, and the lowest leader lane of a batch with it (R143, R145). R143 gives
reason 15 to pre-emption and to a debugger's stop: a group that a dump has halted, or that has faulted, counts there as well (log 63). -/
def State.stallReason (s : State) (g : Group) (l : Launch) : Nat × Option Nat :=
  let halted : Bool := match s.dev.block? g.key.launch g.key.block with
    | some b => decide (b.residency = .halting)
    | none => false
  if g.run ≠ .running ∨ halted ∨ g.copying then (15, g.liveLanes.head?)
  else if g.xsaved.isSome then (12, g.liveLanes.head?)
  else
    let held := g.heldBatches.filterMap fun m => (g.lane m).hold.map fun h => (s.heldReason g l m h, m)
    let rs := held ++ g.batches.map fun m => (s.batchReason g l m, m)
    let top := rs.foldl (fun a r => if reasonRank a < reasonRank r.1 then r.1 else a) ((rs.map Prod.fst).headD 14)
    (top, (sortNat ((rs.filter fun r => decide (r.1 = top)).map Prod.snd)).head?)

/-! ### The arbiter (R135, R137, R138) -/

/-- Whether a group yields (R103, R138). -/
def Group.yielding (g : Group) : Bool := g.yieldUntil.isSome || decide (0 < g.yieldWords)

/-- A group that is ready with the batch that it would issue. -/
structure Candidate where
  key : GKey
  slot : Nat
  age : Nat
  yields : Bool
  width : Nat
  lane : Nat
  words : List Slotted

/-- The ready batch of a group that has been ready for the most issues; ties go to the lowest leader (R137). -/
def Group.oldest (g : Group) : List Nat → Option Nat
  | [] => none
  | m :: ms =>
    match g.oldest ms with
    | none => some m
    | some n => if (g.lane n).waited ≤ (g.lane m).waited then some m else some n

/-- The ready batches of a group whose pipes can accept them. -/
def State.readyBatches (s : State) (g : Group) (l : Launch) (p : Place) : List Nat :=
  if !g.mayIssue then []
  else g.batches.filter fun m =>
    (s.batchWaits g l m).isNone && s.dev.pipesFree p (l.nextWords (g.lane m).pc)

/-- The groups of a core that are ready. -/
def State.candidates (s : State) (die core : Nat) : List Candidate :=
  s.dev.groups.filterMap fun g =>
    match g.place, s.dev.launch? g.key.launch with
    | some p, some l =>
      if p.die = die ∧ p.core = core then
        (g.oldest (s.readyBatches g l p)).map fun m =>
          ⟨g.key, p.slot, g.age, g.yielding, g.width, m, l.nextWords (g.lane m).pc⟩
      else none
    | _, _ => none

/-- Whether one candidate is chosen before another, with `n` groups resident on the core (R137). -/
def Candidate.before (n : Nat) (a b : Candidate) : Bool :=
  let ua : Bool := decide (n ≤ a.age)
  let ub : Bool := decide (n ≤ b.age)
  if ua ≠ ub then ua
  else if !ua && a.yields != b.yields then b.yields
  else decide (b.age < a.age) || (decide (a.age = b.age) && decide (a.slot < b.slot))

/-- Candidates in the order of choice. -/
def sortCandidates (n : Nat) : List Candidate → List Candidate
  | [] => []
  | a :: r => put a (sortCandidates n r)
where
  put (a : Candidate) : List Candidate → List Candidate
    | [] => [a]
    | b :: r => if a.before n b then a :: b :: r else b :: put a r

/-- The groups packed with a single word of one pipe, in order, while octets remain (R135, R137). -/
def packWith (pipe : Option Pipe) : Nat → List Candidate → List Candidate
  | _, [] => []
  | room, c :: cs =>
    match c.words with
    | [u] => if u.pipe.isSome ∧ u.pipe = pipe ∧ c.width ≤ room then c :: packWith pipe (room - c.width) cs else packWith pipe room cs
    | _ => packWith pipe room cs

/-- Groups resident on a core. -/
def Dev.onCore (d : Dev) (die core : Nat) : List Group :=
  d.groups.filter fun g =>
    decide (g.run ≠ .ended) && match g.place with | some p => decide (p.die = die) && decide (p.core = core) | none => false

/-- Ages after an opportunity: a chosen group's is 0, one that is ready and was not chosen gains 1, one that is not ready has none. -/
def Dev.ageGroups (d : Dev) (die core : Nat) (ready chosen : List Candidate) : Dev :=
  { d with groups := d.groups.map fun g =>
      match g.place with
      | some p =>
        if p.die = die ∧ p.core = core then
          if chosen.any fun c => decide (c.key = g.key) then { g with age := 0 }
          else if ready.any fun c => decide (c.key = g.key) then { g with age := g.age + 1 }
          else { g with age := 0 }
        else g
      | none => g }

/-- A group whose yield ends once every other ready group of its core has issued: none of those that are ready has not (R103). -/
def Group.yieldOver (g : Group) (slots : List Nat) : Group :=
  match g.place with
  | some p => if g.yieldUntil.isSome ∧ slots.all (fun k => decide (k = p.slot) || g.yieldSlots.contains k) then g.endYield else g
  | none => g

/-- The yields of a core that are over, with the slots of its ready groups (R103). -/
def Dev.endYields (d : Dev) (die core : Nat) (slots : List Nat) : Dev :=
  { d with groups := d.groups.map fun g =>
      match g.place with
      | some p => if p.die = die ∧ p.core = core then g.yieldOver slots else g
      | none => g }

/-- An issue opportunity of a core: yields that are over end, then the choice of the arbiter, and the words that issue (R103, R135, R137). -/
def opportunity (die core : Nat) : Part := fun s0 =>
  let s : State := { s0 with dev := s0.dev.endYields die core ((s0.candidates die core).map Candidate.slot) }
  let n := (s.dev.onCore die core).length
  let ready := sortCandidates n (s.candidates die core)
  match ready with
  | [] => [.dev (s.dev.ageGroups die core [] [])]
  | c :: cs =>
    let chosen := match c.words with
      | [u] => if c.width < 64 then c :: packWith u.pipe (64 - c.width) cs else [c]
      | _ => [c]
    let pipes := (c.words.filterMap Slotted.pipe).map fun q => (die, core, q)
    let d1 := s.dev.ageGroups die core ready chosen
    [.dev { d1 with used := d1.used ++ pipes, moves := chosen.map (fun x => .word x.key x.lane) ++ d1.moves }]

end Sys2Proof.Machine
end

