-- ==== Sys2Proof/Machine/Sched.lean ====
section
/-!
DEFINITION. Placement, pre-emption and progress (R297 to R307), samples (R145) and the end of a yield (R103).
-/

namespace Sys2Proof.Machine

/-! ### Blocks and gangs -/

/-- Blocks of a gang; a launch without gangs has gangs of one. -/
def Launch.gangSize (l : Launch) : Nat := max l.gang 1

/-- The blocks of the gang that starts at a block. -/
def Launch.gangBlocks (l : Launch) (u : Nat) : List Nat := countFrom u l.gangSize

/-- Whether a block is on a core. -/
def Block.placed (b : Block) : Bool := decide (b.residency = .resident) || decide (b.residency = .halting)

/-- Some blocks of a launch, those that have not ended. -/
def Dev.unended (d : Dev) (tag : Nat) (bs : List Nat) : List Block :=
  d.blocks.filter fun b => decide (b.launch = tag) && bs.contains b.index && decide (b.residency ≠ .ended)

/-- The groups of some blocks of a launch. -/
def Dev.groupsOf (d : Dev) (tag : Nat) (bs : List Nat) : List Group :=
  d.groups.filter fun g => decide (g.key.launch = tag) && bs.contains g.key.block

/-- Resident blocks of a launch. -/
def Dev.residents (d : Dev) (tag : Nat) : Nat := (d.blocks.filter fun b => decide (b.launch = tag) && b.placed).length

/-! ### Queues and slots (R299, R306, R341) -/

/-- The gang at the head of a launch's queue: under DET that of the weir's head, where it waits (R306). -/
def Dev.nextGang (d : Dev) (l : Launch) : Option Nat :=
  let first : Option Nat := if l.fresh < l.nblocks then some l.fresh else l.back.head?
  match (if l.det then d.weirHead l else none) with
  | some h => if l.back.contains (l.unit h) then some (l.unit h) else first
  | none => first

/-- The queue without its head. -/
def Launch.dequeue (l : Launch) (u : Nat) : Launch :=
  if u = l.fresh then { l with fresh := l.fresh + l.gangSize } else { l with back := l.back.filter fun x => decide (x ≠ u) }

/-- The queue that a launch came from. -/
def Dev.queueOf (d : Dev) (l : Launch) : Option Queue :=
  match l.origin with
  | .queue job q _ => d.queue? job q
  | .child _ _ => d.queue? l.job devQueue

/-- Whether blocks of a launch may be made resident: its job goes on, its queue holds a slot, and no dump holds the job. -/
def Dev.mayPlace (d : Dev) (l : Launch) : Bool :=
  (match d.job? l.job with | some j => j.ending.isNone | none => false) &&
  (match d.queueOf l with | some q => q.slot.isSome | none => false) && !d.dumpHolds l.job

/-- Whether RL admits `n` more resident blocks (R299). -/
def Dev.admits (d : Dev) (l : Launch) (n : Nat) : Bool := decide (l.resLimit = 0) || decide (d.residents l.tag + n ≤ l.resLimit)

/-! ### Resources of a core (R297, R298) -/

/-- The group slots that resident blocks hold on a core. -/
def Dev.slotsHeld (d : Dev) (die core : Nat) : List Nat :=
  d.groups.filterMap fun g =>
    match g.place, d.block? g.key.launch g.key.block with
    | some p, some b => if p.die = die ∧ p.core = core ∧ b.placed then some p.slot else none
    | _, _ => none

/-- The free group slots of a core, ascending. -/
def Dev.slotsFree (d : Dev) (die core : Nat) : List Nat := (countFrom 0 16).filter fun k => !(d.slotsHeld die core).contains k

/-- The launches of the blocks resident on a core, one for each block. -/
def Dev.launchesOn (d : Dev) (die core : Nat) : List Launch :=
  (d.blocks.filter fun b => b.placed && decide (b.cluster = some (die, core / 4)) && decide (b.core = core)).filterMap fun b =>
    d.launch? b.launch

/-- How many more blocks of a launch a core can hold. -/
def Dev.coreRoom (d : Dev) (l : Launch) (die core : Nat) : Nat :=
  let ls := d.launchesOn die core
  let per (have_ need : Nat) : Nat := if need = 0 then 16 else have_ / need
  min (per (d.slotsFree die core).length (max l.groups 1))
    (min (per (262144 - natSum (ls.map Launch.blkMem)) l.blkMem) (per (32 - natSum (ls.map Launch.acct)) l.acct))

/-- A new group (R18, R23, R34, R169, R232). -/
def newGroup (l : Launch) (block g : Nat) (p : Place) : Group where
  key := ⟨l.tag, block, g⟩
  place := some p
  was := none
  width := 8 * 2 ^ l.width
  gsr := BitVec.ofNat 64 (l.width % 4 + 2 ^ 10 * l.det.toNat)
  mxs := 0
  sA := 0x3F80
  sB := 0x3F80
  q := []
  stall := []
  lanes := List.replicate (8 * 2 ^ l.width) { Lane.empty with mode := .live, pc := pcOfIndex l.image l.entry }
  pend := []
  acc := []
  counted := []
  deferred := []
  accesses := 0
  nextIssue := 0
  age := 0
  yieldUntil := none
  yieldSlots := []
  yieldWords := 0
  latches := []
  flagCycle := 0
  flagBits := 0
  bist := 0
  run := .running
  stopAt := none
  pastBrk := none
  skipSite := none
  fetch := none
  last := none
  watch := []
  trap := none
  xsaved := none
  xwait := none
  copying := false
  knows := l.knows

/-- A new block (R169, R177, R179, R191). -/
def newBlock (l : Launch) (block die core : Nat) : Block where
  launch := l.tag
  index := block
  groups := l.groups
  cluster := some (die, core / 4)
  core := core
  residency := .resident
  bars := List.replicate 18 (.fresh l.groups)
  phase := 0
  races := []
  tiles := []
  tileStat := []
  quantum := 0
  preemptedAt := none
  requeue := false
  byDebugger := false
  copyFrom := none
  weirSeq := 0

/-- A block placed for the first time: its memories cleared, its groups in the lowest free slots (R147, R298). -/
def placeBlock (l : Launch) (block die core : Nat) : Part := fun s =>
  let slots := s.dev.slotsFree die core
  let gs := (countFrom 0 l.groups).map fun g => newGroup l block g ⟨die, core, slots.getD g 0⟩
  Part.seq [
    (fun _ => .clear .blk (blkAddr l.tag block 0) (2 ^ 18) :: gs.map fun g => .clear .stk (stkAddr g.key 0 0) (2 ^ 22)),
    Part.mod (fun d => { d.setBlock (newBlock l block die core) with groups := d.groups ++ gs }),
    traceRec l.job die 3 block l.id.toNat] s

/-- Whether some cores of a cluster can hold a block each. -/
def Dev.coresFit (d : Dev) (l : Launch) (cluster : Nat) (cores : List Nat) (n : Nat) : Bool :=
  decide (cluster < 144) && decide (cores.length = n) && decide (cores.eraseDups.length = n) &&
  cores.all fun k => decide (k < 4) && decide (0 < d.coreRoom l (cluster / 24) (4 * (cluster % 24) + k))

/-- R299: the gang at the head of a launch's queue is placed for the first time. Else, where its turn or its room is not there, there is
no effect. -/
def execBlockPlace (launch cluster : Nat) (cores : List Nat) (s : State) : Host.Outcome State Fault Refusal :=
  commit s <|
    match s.dev.launch? launch with
    | none => []
    | some l =>
      match s.dev.nextGang l with
      | none => []
      | some u =>
        if u ≠ l.fresh ∨ l.persistent ∨ s.dev.mayPlace l = false ∨ s.dev.admits l l.gangSize = false ∨
            s.dev.coresFit l cluster cores l.gangSize = false then []
        else Part.seq [
          Part.mod (fun d => d.setLaunch (l.dequeue u)),
          Part.each ((l.gangBlocks u).zip cores) (fun e => placeBlock l e.1 (cluster / 24) (4 * (cluster % 24) + e.2))] s

/-! ### Persistent launches (R307) -/

/-- The die's blocks of persistent launches other than one. -/
def Dev.persistsOn (d : Dev) (die : Nat) (tag : Nat) : Bool :=
  d.blocks.any fun b =>
    b.placed && decide (b.launch ≠ tag) && decide (b.cluster.map Prod.fst = some die) &&
    (match d.launch? b.launch with | some l => l.persistent | none => false)

/-- A core of a cluster put among cores that have at least its room. -/
def insertCore (room : Nat → Nat) (k : Nat) : List Nat → List Nat
  | [] => [k]
  | c :: cs => if room c < room k then k :: c :: cs else c :: insertCore room k cs

/-- The cores for a gang of `n` in one of some clusters of a die, those with the most room; `used` counts what the same placement has taken. -/
def Dev.gangCores (d : Dev) (l : Launch) (die n : Nat) (used : List Nat) : List Nat → Option (List Nat)
  | [] => none
  | c :: cs =>
    let room (k : Nat) : Nat := d.coreRoom l die k - (used.filter fun x => decide (x = k)).length
    let ks := ((countFrom (4 * c) 4).filter fun k => decide (0 < room k)).foldr (insertCore room) []
    if n ≤ ks.length then some (ks.take n) else d.gangCores l die n used cs

/-- Cores of a die for some gangs, each given as its blocks: pairs of a block and a core. -/
def Dev.dieCores (d : Dev) (l : Launch) (die : Nat) (clusters : List Nat) : List (List Nat) → List Nat → Option (List (Nat × Nat))
  | [], _ => some []
  | g :: gs, used =>
    match d.gangCores l die g.length used clusters with
    | none => none
    | some ks => (d.dieCores l die clusters gs (used ++ ks)).map fun r => g.zip ks ++ r

/-- A die that can hold some gangs of a persistent launch together, with the cores: dies and clusters are tried from a free start on, since
which cores receive a block is not architectural (R298, log 17). -/
def Dev.findDie (d : Dev) (l : Launch) (gangs : List (List Nat)) : Option (Nat × List (Nat × Nat)) :=
  let r := (Config.freeWord d.free).toNat
  let clusters := (countFrom 0 24).map fun k => (k + r / 6) % 24
  ((countFrom 0 6).map fun k => (k + r) % 6).findSome? fun die =>
    if d.persistsOn die l.tag then none else (d.dieCores l die clusters gangs []).map fun x => (die, x)

/-- The gangs of a launch, from the first on. -/
def Launch.gangs (l : Launch) : List (List Nat) := (countFrom 0 (l.nblocks / l.gangSize)).map fun k => l.gangBlocks (k * l.gangSize)

/-! ### Pre-emption (R302, R305) -/

/-- The blocks that leave together with a block: its gang, or all of a persistent launch. -/
def Launch.together (l : Launch) (block : Nat) : List Nat :=
  if l.persistent then countFrom 0 l.nblocks else l.gangBlocks (l.unit block)

/-- A pre-emption request for a block (R302): its groups stop issuing. `requeue`: it goes to the tail of its launch's queue at once;
`dbg`: a debugger holds it. A job that ends is not pre-empted, nor a block that is under way or halted by a dump (R305, R370). -/
def Dev.requestHalt (d : Dev) (l : Launch) (block : Nat) (requeue dbg : Bool) : Dev :=
  let bs := l.together block
  let here (b : Block) : Bool := decide (b.launch = l.tag) && bs.contains b.index && decide (b.residency = .resident)
  let ending : Bool := match d.job? l.job with | some j => j.ending.isSome | none => true
  if ending || !d.blocks.any here || (d.groupsOf l.tag bs).any (fun g => decide (g.run = .dumped)) then d
  else
    let d1 : Dev := { d with
      blocks := d.blocks.map fun b =>
        if here b then { b with residency := .halting, requeue := requeue, byDebugger := dbg, preemptedAt := some d.time } else b
      groups := d.groups.map fun g =>
        if g.key.launch = l.tag ∧ bs.contains g.key.block ∧ g.run = .running then { g with run := .halting } else g }
    if requeue && !l.persistent then d1.modLaunch l.tag fun l => { l with back := l.back ++ [l.unit block] } else d1

/-- R302: a pre-emption request of the host or the headworks for a block. -/
def execPreemptRequest (launch block : Nat) (s : State) : Host.Outcome State Fault Refusal :=
  commit s <|
    match s.dev.launch? launch with
    | none => []
    | some l => [.dev (s.dev.requestHalt l block true false)]

/-- Whether a group, ended or not, has nothing left that a pre-emption waits for: results written, accesses performed but for `ld.vtw` that
waits and what a held word has still to give, no held cuvée word or self-test, no operation in the sluice (R199, R260, R302). -/
def State.drained (s : State) (g : Group) : Bool :=
  g.pend.isEmpty && g.watch.isEmpty && g.acc.all (fun a => s.vtWaits g.key.launch a || a.isDue) &&
  (g.lanes.all fun x =>
    match x.hold.map Hold.kind with
    | some (.cuvee _) | some (.slot _) | some (.bist _) => false
    | _ => true) &&
  !(s.dev.clusters.any fun c => c.all.any fun e => decide (e.g = g.key))

/-- Whether every fibre of a group waits at `grid.sync` in the current grid phase (R300). -/
def Group.atGrid (g : Group) : Bool :=
  g.liveLanes.all fun m => (g.lane m).isPending 17 &&
    match (g.lane m).hold.map Hold.kind with
    | some (.barrier 17) | some (.arrive 17 _) => true
    | _ => false

/-- Whether some blocks are parked: each of their groups has ended or waits at `grid.sync` (R300). -/
def Dev.parkedNow (d : Dev) (tag : Nat) (bs : List Nat) : Bool :=
  let gs := (d.groupsOf tag bs).filter fun g => decide (g.run ≠ .ended)
  !gs.isEmpty && gs.all Group.atGrid

/-- Gangs that become parked leave at once, without a place in the queue (R300). -/
def Dev.parkAll (d : Dev) : Dev :=
  d.launches.foldl (fun d l =>
    if l.persistent then d
    else (sortNat ((d.blocks.filter fun b => decide (b.launch = l.tag) && decide (b.residency = .resident)).map fun b =>
        l.unit b.index)).foldl
      (fun d u => if d.parkedNow l.tag (l.gangBlocks u) then d.requestHalt l u false false else d) d) d

/-- The extended words that a group takes along (R141). -/
def Dev.savedX (d : Dev) (g : Group) : Option (Cells 32) :=
  match g.place with
  | some p => if d.holdsX g then some (d.xsetAt p).words else g.xsaved
  | none => g.xsaved

/-- R302, R303: halted blocks are saved and leave their core; parked ones stay out of the queue until the grid's phase completes. Else, where
they are not drained, there is no effect. -/
def execPreemptSave (launch block : Nat) (s : State) : Host.Outcome State Fault Refusal :=
  commit s <|
    match s.dev.launch? launch with
    | none => []
    | some l =>
      let bs := l.together block
      let blks := s.dev.unended launch bs
      let gs := s.dev.groupsOf launch bs
      let ending : Bool := match s.dev.job? l.job with | some j => j.ending.isSome | none => true
      if ending || blks.isEmpty || !bs.contains block || !blks.all (fun b => decide (b.residency = .halting)) ||
          !gs.all s.drained then []
      else
        let asked : Bool := blks.any fun b => b.requeue || b.byDebugger
        let parked : Bool := !asked && !l.persistent && s.dev.parkedNow launch bs
        let saved := gs.map fun g => (g.key, s.dev.savedX g)
        let d1 := gs.foldl (fun d g => d.dropX g true) s.dev
        let d2 : Dev := { d1 with
          blocks := d1.blocks.map fun b =>
            if b.launch = launch ∧ bs.contains b.index ∧ b.residency = .halting then
              { b with residency := if parked then .parked else .saved }
            else b
          groups := d1.groups.map fun g =>
            if g.key.launch = launch ∧ bs.contains g.key.block then
              { g with
                place := none
                was := g.place
                xsaved := match saved.find? fun e => decide (e.1 = g.key) with | some e => e.2 | none => none
                xwait := if g.xsaved.isSome then g.xwait else none }
            else g }
        [.dev (if parked || asked || l.persistent then d2
          else d2.modLaunch launch fun l => { l with back := l.back ++ [l.unit block] })]

/-! ### Restoring (R206, R304) -/

/-- The cuvée slots of a job copied from one cluster to another; none while an operation there names one of them. -/
def Dev.copySlots (d : Dev) (job : Nat) (old new : Nat × Nat) : Option Dev :=
  if old = new then some d
  else
    let xs := (d.cluster old.1 old.2).slots.filter fun x => decide (d.slotOwner x.n = some job) && decide (x.state ≠ .empty)
    let c := d.cluster new.1 new.2
    if xs.any fun x => !c.unnamed x.n then none else some (d.setCluster (xs.foldl Cluster.setSlot c))

/-- The cuvée slots of a restored block copied, where they can be: then its groups may issue (R206, R304). -/
def Dev.settleCopy (d : Dev) (b : Block) : Dev :=
  match b.copyFrom, b.cluster with
  | some old, some new =>
    match d.copySlots (d.jobFor ⟨b.launch, b.index, 0⟩) old new with
    | some d1 =>
      { d1.modBlock b.launch b.index fun x => { x with copyFrom := none } with
        groups := d1.groups.map fun g =>
          if g.key.launch = b.launch ∧ g.key.block = b.index then { g with copying := false } else g }
    | none => d
  | _, _ => d

/-- The copies that wait on a die, tried again. -/
def Dev.settleCopies (d : Dev) (die : Nat) : Dev :=
  (d.blocks.filter fun b => b.copyFrom.isSome && decide (b.cluster.map Prod.fst = some die)).foldl Dev.settleCopy d

/-- A lane on its new core. -/
def Lane.restored (x : Lane) : Lane :=
  let y := { x with rc := 0, lastPage := none, waited := 0 }
  match x.hold.map Hold.kind with
  | some (.waitAddr _ _ _ _) => { y with hold := none, pc := pcNext x.pc }
  | _ => y

/-- The wait for the lock that a restored group goes on with: from its saved count, or from now (R141, R185, R304). -/
def Group.lockWait (g : Group) (now : Nat) : Option LockWait := some (g.xwait.getD ⟨0, now, none⟩)

/-- A group on its new core, at a reference time; `copying`: its block waits for its cuvée slots. -/
def Group.restored (g : Group) (p : Place) (now : Nat) (copying : Bool) : Group :=
  { g with
    place := some p
    was := none
    lanes := g.lanes.map Lane.restored
    run := if g.run = .halting then .running else g.run
    nextIssue := 0
    age := 0
    yieldUntil := none
    yieldSlots := []
    yieldWords := 0
    flagCycle := 0
    flagBits := 0
    fetch := none
    last := none
    xwait := g.lockWait now
    copying := copying }

/-- Whether a group asks for its pair's lock when it is restored: it held it, or it waited for it (R141). -/
def Group.wantsX (g : Group) : Bool :=
  g.xsaved.isSome || g.lanes.any fun x => decide (x.hold.map Hold.kind = some .xreg)

/-- The cluster from which a block's cuvée slots are copied when it is put back: the one that it was saved from, or, where it left that one before
its copy was made, the one that copy was to be made from (R206). -/
def Block.slotsFrom (b : Block) : Option (Nat × Nat) :=
  match b.copyFrom with
  | some c => some c
  | none => b.cluster

/-- A block put back on a core; the groups that have ended keep their slots of it (R298). -/
def restoreBlock (tag block die core : Nat) : Part := fun s =>
  let d := s.dev
  let slots := d.slotsFree die core
  let at_ (g : Group) : Place := ⟨die, core, slots.getD g.key.group 0⟩
  let old := ((d.block? tag block).bind Block.slotsFrom).filter fun c => decide (c ≠ (die, core / 4))
  let gs := d.groupsOf tag [block]
  let d1 := d.modBlock tag block fun b => { b with
    residency := .resident
    cluster := some (die, core / 4)
    core := core
    quantum := 0
    requeue := false
    byDebugger := false
    copyFrom := old }
  let new := gs.map fun g =>
    if g.run = .ended then { g with place := some (at_ g), was := none } else g.restored (at_ g) d.time old.isSome
  let d2 := new.foldl Dev.setGroup d1
  let d3 := new.foldl (fun d g => if g.run ≠ .ended ∧ g.wantsX then d.requestX g else d) d2
  [.dev (match d3.block? tag block with | some b => d3.settleCopy b | none => d3)]

/-- Blocks restored to cores of a die. -/
def restoreBlocks (l : Launch) (die : Nat) (xs : List (Nat × Nat)) : Part :=
  Part.seq [
    Part.mod (fun d => xs.foldl (fun (d : Dev) e => d.modLaunch l.tag fun l => l.dequeue (l.unit e.1)) d),
    Part.each xs (fun e => restoreBlock l.tag e.1 die e.2)]

/-- The blocks of each gang of a launch that have not ended. -/
def Dev.gangsLeft (d : Dev) (l : Launch) : List (List Nat) :=
  (l.gangs.map fun g => sortNat ((d.unended l.tag g).map Block.index)).filter fun g => !g.isEmpty

/-- R304: the saved gang at the head of a launch's queue is restored, or all of a persistent launch. Else there is no effect. -/
def execBlockRestore (launch cluster : Nat) (cores : List Nat) (s : State) : Host.Outcome State Fault Refusal :=
  commit s <|
    match s.dev.launch? launch with
    | none => []
    | some l =>
      let ready (bs : List Block) : Bool := bs.all fun b => decide (b.residency = .saved) && !b.byDebugger
      if s.dev.mayPlace l = false then []
      else if l.persistent then
        let gangs := s.dev.gangsLeft l
        if gangs.isEmpty || !ready (s.dev.unended launch gangs.flatten) then []
        else match s.dev.findDie l gangs with
          | none => [.dev { s.dev with free := s.dev.free + 1 }]
          | some (die, xs) =>
            Part.seq [Part.mod (fun d => { d with free := d.free + 1 }), restoreBlocks l die xs] s
      else match s.dev.nextGang l with
        | none => []
        | some u =>
          let bs := sortNat ((s.dev.unended launch (l.gangBlocks u)).map Block.index)
          if u = l.fresh ∨ bs.isEmpty ∨ ready (s.dev.unended launch bs) = false ∨ s.dev.admits l bs.length = false ∨
              s.dev.coresFit l cluster cores bs.length = false then []
          else restoreBlocks l (cluster / 24) (bs.zip (cores.map fun k => 4 * (cluster % 24) + k)) s

/-! ### Quanta (R299, R306) -/

/-- Reference ns of a launch's quantum. -/
def Launch.quantumNs (l : Launch) : Nat := 1000 * if l.quantumUs = 0 then 2000 else l.quantumUs

/-- Whether a resident block's quantum has run out. -/
def Launch.expired (l : Launch) (b : Block) : Bool :=
  decide (b.launch = l.tag) && decide (b.residency = .resident) && decide (l.quantumNs ≤ b.quantum)

/-- Whether a launch's queue holds a block that was not pre-empted at this reference ns. -/
def Dev.othersWait (d : Dev) (l : Launch) : Bool :=
  decide (l.fresh < l.nblocks) || l.back.any fun u =>
    let bs := d.unended l.tag (l.gangBlocks u)
    bs.isEmpty || bs.any fun b => decide (b.preemptedAt ≠ some d.time)

/-- R299: a block's quantum has run out: it is pre-empted where another waits, or gets a fresh one; the weir's head is not pre-empted
(R306). Expiries of one launch are taken in ascending block index. Else there is no effect. -/
def execQuantumExpiry (launch block : Nat) (s : State) : Host.Outcome State Fault Refusal :=
  commit s <|
    match s.dev.launch? launch, s.dev.block? launch block with
    | some l, some b =>
      let earlier : Bool := s.dev.blocks.any fun x => l.expired x && decide (x.index < block)
      let head : Bool := l.det && match s.dev.weirHead l with | some h => decide (l.unit h = l.unit block) | none => false
      if l.persistent ∨ l.expired b = false ∨ earlier then []
      else if !head && s.dev.othersWait l then [.dev (s.dev.requestHalt l block true false)]
      else [.dev (s.dev.setBlock { b with quantum := 0 })]
    | _, _ => []

/-! ### Sampling (R145) and the end of a yield (R103) -/

/-- What a group did in the die cycle that has just passed; one that was not there then is as it stands. -/
def State.lastDone (s : State) (g : Group) (l : Launch) : LastIssue :=
  match g.last.filter fun x => decide (x.cycle + 1 = s.dev.now g) with
  | some x => x
  | none => let r := s.stallReason g l; ⟨s.dev.now g, (g.lane (r.2.getD 0)).pc, some r.1⟩

/-- State, reason and location of a group in a sample, safe-point ordinal and offset: of the die cycle that has just passed. -/
def State.sampleOf (s : State) (g : Group) (l : Launch) : Nat × Nat × (Nat × Nat) :=
  if g.run = .ended then (3, 0xFF, (0xFFFFFFFF, 0))
  else
    let x := s.lastDone g l
    match x.stall with
    | none => (0, 0xFF, l.locate x.loc)
    | some 0 => (2, 0xFF, l.locate x.loc)
    | some r => (1, r, l.locate x.loc)

/-- The 16 bytes of a group's sample. -/
def State.sampleBytes (s : State) (g : Group) (l : Launch) : List Byte :=
  let x := s.sampleOf g l
  leBytes 4 x.2.2.1 ++ leBytes 2 x.2.2.2 ++ leBytes 1 x.1 ++ leBytes 1 x.2.1 ++ leBytes 4 g.key.block ++ leBytes 1 g.key.group ++
    leBytes 1 0 ++ leBytes 2 (identOf g)

/-- R145: the sampling interval of a launch has passed: a record for each group of its resident blocks. Else there is no effect. -/
def execSample (launch : Nat) (s : State) : Host.Outcome State Fault Refusal :=
  commit s <|
    match s.dev.launch? launch with
    | none => []
    | some l =>
      if l.sampling = false ∨ l.sampleTimer < max l.sampleNs 1 then []
      else
        let bs := sortNat ((s.dev.blocks.filter fun b => decide (b.launch = launch) && b.placed).map Block.index)
        let gs := bs.flatMap fun b => (countFrom 0 l.groups).filterMap fun g => s.dev.group? ⟨launch, b, g⟩
        Part.seq [
          Part.each gs (fun g => profEntry l.job l.id 2 (s.sampleBytes g l)),
          Part.mod fun d => d.modLaunch launch fun l => { l with sampleTimer := l.sampleTimer - max l.sampleNs 1 }] s

/-- R103: 64 die cycles have passed since `yield`. Else there is no effect. -/
def execYieldExpiry (k : GKey) (s : State) : Host.Outcome State Fault Refusal :=
  commit s <|
    match s.dev.group? k with
    | some g =>
      (match g.yieldUntil with
      | some t => if t ≤ s.dev.now g ∧ g.place.isSome then [.dev (s.dev.setGroup g.endYield)] else []
      | none => [])
    | none => []

end Sys2Proof.Machine
end

