-- ==== Sys2Proof/Machine/Timers.lean ====
section
/-!
DEFINITION. Reference time and what expires with it (R12, R103, R175, R176, R185, R259, R274, R327), the landing of loads (R153), and
what a die's clock and scrubber do (R312, R313, R326).
-/

namespace Sys2Proof.Machine

/-! ### The passing of reference time (R12) -/

/-- Whether the waits of a group count: it is resident and no debugger has stopped it (R175). -/
def Group.counts (g : Group) : Bool := g.place.isSome && decide (g.run ≠ .stopped)

/-- Whether the timer of a hold is paused: an operation that names the awaited object is held on a page fault (R274). -/
def Dev.holdPaused (d : Dev) (k : GKey) (h : Hold) : Bool :=
  let named (code : Nat) : Bool :=
    match d.launch? k.launch with
    | some l => (match objRefOf l k.block code with | some o => d.objHeld o | none => false)
    | none => false
  match h.kind with
  | .obj code => named code
  | .cst _ code _ _ => named code
  | _ => false

/-! ### The barrier watchdog (R175, R176, R185) -/

/-- Reference ns of a launch's watchdog, and its µs as applied. -/
def Launch.dogUsed (l : Launch) : Nat := if l.dogUs = 0 then 100000 else l.dogUs
def Launch.dogNs (l : Launch) : Nat := 1000 * l.dogUsed

/-- Whether some live fibres of a group are pending at a barrier and others are not. -/
def Group.partly (g : Group) (n : Nat) : Bool :=
  g.liveLanes.any (fun m => (g.lane m).isPending n) && !g.liveLanes.all fun m => (g.lane m).isPending n

/-- The location that a barrier record gives for a group: its waiting word, or the next word of its lowest leader (R176). Of a group with several
batches, of which some wait, it is the word of the lowest lane that waits: R176 names none (log 71). -/
def recordAt (g : Group) (l : Launch) : Nat × Nat :=
  if g.run = .ended then (0xFFFFFFFF, 0)
  else
    match (g.liveLanes.filter fun m => (g.lane m).hold.isSome) ++ g.liveLanes with
    | m :: _ => l.locate (g.lane m).pc
    | [] => (0xFFFFFFFF, 0)

/-- The barrier record of 128 bytes (R176); `bar` is 0 to 17, or 0xFC to 0xFF, for which no barrier stands behind it. -/
def barrierRecord (d : Dev) (l : Launch) (k : GKey) (bar state : Nat) : List Byte :=
  let real : Bool := decide (bar < 18)
  let b := if real then d.barrier k bar else .fresh 0
  let small : Bool := decide (bar < 16)
  let grp (g : Nat) : Option Group := d.group? ⟨k.launch, k.block, g⟩
  let mask (f : Group → Bool) : Nat :=
    natSum ((countFrom 0 16).map fun g => match grp g with | some x => (f x).toNat * 2 ^ g | none => 0)
  let arrm := if real then (d.arrm k bar).toNat else 0
  let locs := (countFrom 0 16).flatMap fun g =>
    let at_ := match grp g with | some x => recordAt x l | none => (0, 0)
    leBytes 4 at_.1 ++ leBytes 2 at_.2
  leBytes 1 bar ++ leBytes 1 (if small then b.exp else 0) ++ leBytes 1 (if small then b.arr else 0) ++ leBytes 1 0 ++
    leBytes 2 arrm ++ leBytes 2 (if real then mask fun x => x.partly bar else 0) ++ leBytes 2 (mask fun x => decide (x.run = .ended)) ++
    leBytes 2 (if real then b.phase.toNat else 0) ++ leBytes 4 state ++ leBytes 4 l.dogUsed ++
    leBytes 6 (if real then b.exp else 0) ++ leBytes 6 (if real then b.arr else 0) ++ locs

/-- The slot of the holder of a group's pair. -/
def Dev.holderSlot (d : Dev) (g : Group) : Nat :=
  match g.place with
  | none => 0
  | some p =>
    match (d.xsetAt p).holder with
    | some k => (match d.group? k with | some h => (match h.place with | some q => q.slot | none => 0) | none => 0)
    | none => 0

/-- The state that a barrier record expects: the top entry of a join, the holder's slot, or an address (R176, R274). -/
def barState (d : Dev) (g : Group) (l : Launch) (lane bar state : Nat) : Nat :=
  if bar = 0xFF then (g.lane lane).level ((g.lane lane).depth l.divDepth)
  else if bar = 0xFE then d.holderSlot g
  else state

/-! ### The timers (R12, R175, R259) -/

/-- Whether the batch of a lane that is not held waits for a cell (R259). -/
def State.cellWait (s : State) (g : Group) (lane : Nat) : Bool :=
  match s.dev.launch? g.key.launch with
  | none => false
  | some l =>
    (g.lane lane).hold.isNone && g.isLive lane &&
    (match s.batchWaits g l lane with
      | some (_, .vt _ _) => true
      | _ => false)

/-- The barrier record of a wait whose count goes from `t` to `t + n`, where that reaches the watchdog: its fields are those of the
expiry (R176). -/
def Dev.atExpiry (d : Dev) (g : Group) (lane t n bar state : Nat) (kept : Option (List Byte)) : Option (List Byte) :=
  match d.launch? g.key.launch with
  | some l =>
    if kept.isNone && decide (l.dogNs ≤ t + n) then some (barrierRecord d l g.key bar (barState d g l lane bar state)) else kept
  | none => kept

/-- A hold of a lane after `n` ns. -/
def Dev.passHold (d : Dev) (g : Group) (n lane : Nat) (h : Hold) : Hold :=
  if g.counts = false ∨ d.holdPaused g.key h then h
  else match h.dog with
    | .none | .spent => h
    | .vt _ _ => { h with timer := h.timer + n }
    | .bar code st => { h with timer := h.timer + n, expiry := d.atExpiry g lane h.timer n code st h.expiry }

/-- A restored group's wait for the slot-pair lock after `n` ns. -/
def Dev.passLock (d : Dev) (g : Group) (n : Nat) (w : LockWait) : LockWait :=
  if g.xsaved.isSome && g.counts then
    { w with timer := w.timer + n, expiry := d.atExpiry g 0 w.timer n 0xFE 0 w.expiry }
  else w

/-- The timers of a lane after `n` ns; a group that is saved, stopped or not yet let go on keeps what its unheld batches have counted (R304). -/
def State.passLane (s : State) (g : Group) (n m : Nat) : Lane :=
  let x := g.lane m
  let hold := x.hold.map (s.dev.passHold g n m)
  let starve :=
    if !g.counts || g.xsaved.isSome || g.copying then x.starve
    else if s.cellWait g m then x.starve + n
    else 0
  { x with hold := hold, starve := starve }

/-- The timers of a group after `n` ns. -/
def State.passGroup (s : State) (n : Nat) (g : Group) : Group :=
  { g with
    lanes := g.laneNos.map (s.passLane g n)
    acc := g.acc.map fun a =>
      if a.isDue || (s.vtWaits g.key.launch a && !g.counts) then a else { a with timer := a.timer + n }
    xwait := g.xwait.map (s.dev.passLock g n) }

/-- Whether an engine operation has a request on its way to another die of the package: one of the die's own engines, a remote operation to this
package, or a collective whose members have all posted (R327). -/
def State.opAsks (s : State) (p : EngineOp) : Bool :=
  (match p.kind with
    | .coll => p.started
    | k => p.link.isNone && (!k.isRemote || p.sent) && !s.dev.opWaits p && !s.opStands p) && s.opCrosses p

/-- The timers of an engine operation after `n` ns: they pause while it is held, and one that waits for an earlier operation has nothing on its way.
`timer` counts as R363 and R366 say, and does not while a page moves or a frame pool is awaited (R317, R325); `ask` counts as R327 does. -/
def State.passOp (s : State) (n : Nat) (p : EngineOp) : EngineOp :=
  if p.held.isSome || p.remoteHeld || s.dev.dumpHolds p.job then p
  else if p.kind ≠ .coll ∧ (s.dev.opWaits p ∨ (p.kind.isRemote ∧ p.sent = false)) then { p with timer := 0, ask := 0 }
  else { p with
    timer := if p.kind ≠ .coll ∧ s.opStands p then 0 else p.timer + n
    ask := if s.opAsks p then p.ask + n else 0 }

/-- Whether a virtual function has a ready queue and holds no slot (R345). -/
def Dev.vfStolen (d : Dev) (f : Nat) : Bool :=
  let qs := d.queues.filter fun q => match d.job? q.job with | some j => decide (j.vf = f) | none => false
  qs.any Queue.ready && qs.all fun q => q.slot.isNone

/-- Time without a slot counted for every virtual function. -/
def Dev.countStolen (d : Dev) (n : Nat) : Dev :=
  { d with regs := { d.regs with
      vfNow := (countFrom 1 63).foldl (fun v f =>
        if d.vfStolen f then cellSet v (4 * f + 3) (cellGet v (4 * f + 3) + BitVec.ofNat 64 n) else v) d.regs.vfNow } }

/-- `n` ns of reference time pass. -/
def passTime (n : Nat) : Part := fun s =>
  let d := s.dev
  let d1 : Dev := { d with
    time := d.time + n
    groups := d.groups.map (s.passGroup n)
    blocks := d.blocks.map fun b => if b.placed then { b with quantum := b.quantum + n } else b
    launches := d.launches.map fun l => if l.sampling then { l with sampleTimer := l.sampleTimer + n } else l
    ops := d.ops.map (s.passOp n) }
  [.dev (d1.countStolen n)]

/-! ### Loads (R153) -/

/-- R153: the data of a load or atomic of a group lands, where its order allows (R285). Else there is no effect. -/
def execLoadComplete (k : GKey) (id : Nat) (s : State) : Host.Outcome State Fault Refusal :=
  commit s <|
    match s.dev.group? k with
    | none => []
    | some g =>
      match g.acc.find? fun a => decide (a.id = id) with
      | some a =>
        (match a.op with
        | .store _ | .storeMask _ _ => []
        | _ => performAccess k id s)
      | none => []

/-! ### The barrier watchdog at its expiry (R175, R185) -/

/-- BAR_TIMEOUT of some lanes at a word. -/
def raiseTimeout (k : GKey) (ls : List Nat) (loc : Pc) (bar since : Nat) (record : List Byte) : Part :=
  takeFault k ls loc true
    { code := .barTimeout
      cause := pcSlot loc + 2 ^ 8 * bar
      aux := since % 2 ^ 32
      extra := record }

/-- A barrier watchdog of a group's lane: what it has counted, its BAR code, its start, and the barrier record of its expiry. -/
structure BarWatch where
  timer : Nat
  bar : Nat
  since : Nat
  record : List Byte
  deriving DecidableEq, Repr

/-- The barrier watchdog that runs at a lane. -/
def Dev.barWatch (d : Dev) (g : Group) (l : Launch) (lane : Nat) : Option BarWatch :=
  let watch (t bar st since : Nat) (kept : Option (List Byte)) : BarWatch :=
    ⟨t, bar, since, kept.getD (barrierRecord d l g.key bar (barState d g l lane bar st))⟩
  if g.xsaved.isSome then
    (if g.liveLanes.head? = some lane then g.xwait.map fun w => watch w.timer 0xFE 0 w.since w.expiry else none)
  else
    match (g.lane lane).hold with
    | some h => (match h.dog with | .bar code st => some (watch h.timer code st h.since h.expiry) | _ => none)
    | none => none

/-- What a held batch waits for: a merge whose turn has come and that is short of cells waits for a cell (R259). -/
def Dev.starveWait (d : Dev) (h : Hold) : Option (Nat × Nat) :=
  match h.dog with
  | .vt code aux =>
    (match h.kind with
    | .turn t => if d.mergeShort t then some (1, 0) else some (code, aux)
    | _ => some (code, aux))
  | _ => none

/-- What the watchdogs at a lane have counted: that of R175, and that of a vintage wait which faults at its word (R259). -/
def State.watchTimes (s : State) (g : Group) (l : Launch) (lane : Nat) : List Nat :=
  ((s.dev.barWatch g l lane).map BarWatch.timer).toList ++
  match (g.lane lane).hold with
  | some h => if (s.dev.starveWait h).isSome then [h.timer] else []
  | none => if s.cellWait g lane then [(g.lane lane).starve] else []

/-- Whether a lower block or group of a launch has a watchdog that ran out at the same ns: the fault is raised there (R175, R259). -/
def State.tiedBefore (s : State) (k : GKey) (l : Launch) (t : Nat) : Bool :=
  s.dev.groups.any fun h =>
    decide (h.key.launch = k.launch) && h.counts &&
    (decide (h.key.block < k.block) || (decide (h.key.block = k.block) && decide (h.key.group < k.group))) &&
    h.liveLanes.any fun m => (s.watchTimes h l m).contains t

/-- The other watchdogs of a launch that have counted the same, as one of them raises the fault: they raise none (R175, R259). -/
def spareTimers (k : GKey) (t : Nat) : Part :=
  Part.mod fun d => { d with groups := d.groups.map fun g =>
    if g.key.launch ≠ k.launch ∨ g.key = k ∨ g.counts = false then g
    else if g.xsaved.isSome then { g with xwait := g.xwait.bind fun w => if w.timer = t then none else some w }
    else { g with lanes := g.lanes.map fun x => { x with
      starve := if x.hold.isNone ∧ x.starve = t then 0 else x.starve
      hold := x.hold.map fun h =>
        match h.dog with
        | .bar _ _ | .vt _ _ => if h.timer = t then { h with dog := .spent } else h
        | _ => h } } }

/-- R175: the watchdog of a waiting batch has run out: BAR_TIMEOUT, precise at its word. Of several that ran out at one ns the lowest block
and group comes first. Else there is no effect. -/
def execBarTimeout (k : GKey) (lane : Nat) (s : State) : Host.Outcome State Fault Refusal :=
  commit s <|
    match s.dev.group? k, s.dev.launch? k.launch with
    | some g, some l =>
      match s.dev.barWatch g l lane with
      | some w =>
        if w.timer < l.dogNs ∨ g.counts = false ∨ g.run = .faulted ∨ g.run = .ended ∨ s.tiedBefore k l w.timer then []
        else
          let ls := if g.xsaved.isSome then [] else g.heldWith lane
          Part.seq [spareTimers k w.timer, raiseTimeout k ls (g.lane lane).pc w.bar w.since w.record] s
      | none => []
    | _, _ => []

/-! ### The watchdog of vintage waits (R259) -/

/-- VT_STARVE at a word. -/
def starveFault (loc : Pc) (wait aux : Nat) : FaultInfo := { code := .vtStarve, cause := pcSlot loc + 2 ^ 4 * wait, aux := aux }

/-- Where a batch that is not held waits for a cell: at the first of its next words that does (R259). -/
def State.starvedAt (s : State) (g : Group) (l : Launch) (lane : Nat) : Pc :=
  let pc := (g.lane lane).pc
  let waits (u : Slotted) : Bool :=
    match u.instr with
    | .ok i => (match wordBlocked s (issueOf g (g.batchOf lane) pc u) g l i with | some (_, .vt _ _) => true | _ => false)
    | .error _ => false
  match (l.nextWords pc).find? waits with
  | some u => mkPc (pcPkt pc) u.slot
  | none => pc

/-- R259: a vintage wait has run out: VT_STARVE, precise at the waiting word; of several that ran out at one ns the lowest block and group comes
first (R175). An `ld.vtw` keeps it for the word that retires the load. Else there is no effect. -/
def execVtStarve (k : GKey) (access : Bool) (n : Nat) (s : State) : Host.Outcome State Fault Refusal :=
  commit s <|
    match s.dev.group? k, s.dev.launch? k.launch with
    | some g, some l =>
      if g.counts = false ∨ g.run = .faulted then []
      else if access then
        match g.acc.find? fun a => decide (a.id = n) with
        | some a =>
          if l.dogNs ≤ a.timer ∧ s.vtWaits k.launch a then
            let tag := match a.op with | .loadVt t _ _ => t | _ => 0
            [.dev (s.dev.setGroup ((g.dropAccess n).defer ⟨a.seq, a.lane, 0x25, a.faddr l, pcSlot a.loc + 2 ^ 4 * 3, tag, false⟩))]
          else []
        | none => []
      else
        match (g.lane n).hold with
        | some h =>
          (match s.dev.starveWait h with
          | some w =>
            if h.timer < l.dogNs ∨ s.tiedBefore k l h.timer then []
            else Part.seq [
              spareTimers k h.timer,
              takeFault k (g.heldWith n) (g.lane n).pc true (starveFault (g.lane n).pc w.1 w.2)] s
          | none => [])
        | none =>
          if l.dogNs ≤ (g.lane n).starve ∧ s.cellWait g n ∧ s.tiedBefore k l (g.lane n).starve = false then
            let loc := s.starvedAt g l n
            Part.seq [spareTimers k (g.lane n).starve, takeFault k (g.batchOf n) loc true (starveFault loc 1 0)] s
          else []
    | _, _ => []

/-! ### `wait` and `wait.addr` (R103) -/

/-- R103: the time of a lane's `wait` has come. Else there is no effect. -/
def execWaitExpiry (k : GKey) (lane : Nat) (s : State) : Host.Outcome State Fault Refusal :=
  commit s <|
    match s.dev.group? k with
    | some g =>
      (match (g.lane lane).hold.map Hold.kind with
      | some (.wait t) =>
        if t ≤ s.dev.time ∧ g.isLive lane then releaseLanes k [lane] (pcNext (g.lane lane).pc) s else []
      | _ => [])
    | none => []

/-- R103, R138: 4 us have passed since a lane's `wait.addr`; its group yields for 8 words. Else there is no effect. -/
def execWaitAddrTimeout (k : GKey) (lane : Nat) (s : State) : Host.Outcome State Fault Refusal :=
  commit s <|
    match s.dev.group? k with
    | some g =>
      (match (g.lane lane).hold.map Hold.kind with
      | some (.waitAddr _ _ _ t) =>
        if t ≤ s.dev.time ∧ g.isLive lane then
          Part.seq [
            releaseLanes k [lane] (pcNext (g.lane lane).pc),
            Part.mod fun d => d.modGroup k fun g => { g with yieldWords := 8 }] s
        else []
      | _ => [])
    | none => []

/-! ### Requests between dies (R327) -/

/-- R327: a request to another die has had no response for 50 us: it is abandoned. A gather's lanes that ask another die fail, and its others
complete (R275). A helper's load lands 0 (R26). Else there is no effect. -/
def execCrossDieTimeout (t : CrossTarget) (s : State) : Host.Outcome State Fault Refusal :=
  commit s <|
    match t with
    | .engine op =>
      match s.dev.op? op with
      | none => []
      | some p =>
        match s.dev.job? p.job with
        | none => []
        | some j =>
          if s.opAsks p = false ∨ p.ask < 50000 ∨ p.held.isSome ∨ s.dev.dumpHolds p.job then []
          else match p.kind with
            | .gat size => failLanes p size 0x34 0 ((p.lanes.filter fun x => State.opCrosses.laneAsks s p j x).map GatLane.lane) s
            | _ => failOp p 0x34 0 p.done 0 s
    | .access k id =>
      match s.dev.group? k, s.dev.launch? k.launch with
      | some g, some l =>
        match g.acc.find? fun a => decide (a.id = id) with
        | none => []
        | some a =>
          if a.timer < 50000 ∨ a.store ≠ .pad ∨ padHome a.addr = g.die ∨ a.isDue ∨ a.taken ∨ s.vtWaits k.launch a then []
          else if a.helper then
            Part.seq [
              Part.mod fun d => d.modGroup k fun g => g.dropAccess id,
              performOp k l { a with op := a.op.void },
              settleWatch k] s
          else
            let store : Bool := match a.op with | .store _ | .storeMask _ _ => true | _ => false
            [.dev (s.dev.setGroup ((g.dropAccess id).defer ⟨a.seq, a.lane, 0x34, a.faddr l, 0, 0, store⟩))]
      | _, _ => []

/-! ### Scrubbing and clocks (R312, R313, R326) -/

/-- R312: the scrubber of a die has read and corrected; its errors are counted, and no value changes. -/
def execPatrolScrub (die : Nat) (src : BitVec 8) (ce ue : Nat) (s : State) : Host.Outcome State Fault Refusal :=
  commit s <|
    if 8 ≤ die ∨ 8 ≤ src.toNat then [] else [.dev (s.dev.countErr die src.toNat ce ue)]

/-- R326, R380: a die's nominal frequency changes, or its clock stops and resumes: its next record of every ring is a SYNC. -/
def execClockFrequencyChange (die : Nat) (resumed : Bool) (s : State) : Host.Outcome State Fault Refusal :=
  commit s [.dev { s.dev with jobs := s.dev.jobs.map fun j => { j with dies := j.dies.map fun t =>
    if t.die = die then { t with changed := t.changed || !resumed, resumed := t.resumed || resumed } else t } }]

end Sys2Proof.Machine
end

