-- ==== Sys2Proof/Machine/Jobs.lean ====
section
/-!
DEFINITION. Jobs and queues as the host makes and ends them (R330 to R337), the fault buffer (R331), terminations (R183), and imprecise
reports of watchpoints (R373, R382).
-/

namespace Sys2Proof.Machine

/-! ### Fields of descriptors and records -/

/-- Whether a number is a power of two from one bound to another. -/
def powerIn (x lo hi : Nat) : Bool := decide (lo ≤ x) && decide (x ≤ hi) && decide (2 ^ Nat.log2 x = x)

/-- The first of some fields, in their order, that is out of range. -/
def badField (fs : List (Nat × Bool)) : Option Nat := (fs.find? Prod.snd).map Prod.fst

/-- What a register that takes a descriptor's address reads back: accepted, or refused at an offset (R329). -/
def answerBack (bad : Option Nat) : Dword := match bad with | none => 1 | some off => BitVec.ofNat 64 (2 + 2 ^ 8 * off)

/-! ### JOBADD (R330, R332) -/

/-- The pad units that a descriptor names. -/
def padUnits (bs : List Byte) : List Nat := (countFrom 0 288).filter fun u => bitAt (fieldAt bs 0x30 36) u

/-- Whether the units of some reserved bytes are among those granted; an empty reservation is not checked. -/
def reserveIn (units : List Nat) (base n : Nat) : Bool :=
  decide (n = 0) || (countFrom (base / 2 ^ 21) ((base + n - 1) / 2 ^ 21 + 1 - base / 2 ^ 21)).all units.contains

/-- What a job descriptor breaks, by offset (R330). -/
def Dev.jobFields (d : Dev) (bs : List Byte) : List (Nat × Bool) :=
  let f (off n : Nat) : Nat := fieldAt bs off n
  let units := padUnits bs
  let cell := 64 * f 0x20 4
  let save := f 0x28 4
  [(0x00, decide (f 0 4 = 0)),
   (0x04, decide (f 4 4 / 2 ^ 7 ≠ 0)),
   (0x08, decide (f 8 8 % 4096 ≠ 0)),
   (0x10, decide (f 0x10 8 % 4096 ≠ 0)),
   (0x18, !powerIn (f 0x18 4) 64 (2 ^ 20)),
   (0x1C, !reserveIn units (f 0x1C 4) cell),
   (0x24, !reserveIn units (f 0x24 4) save ||
     (decide (cell ≠ 0) && decide (save ≠ 0) && decide (f 0x1C 4 < f 0x24 4 + save) && decide (f 0x24 4 < f 0x1C 4 + cell))),
   (0x2C, decide (3 < f 0x2C 1)),
   (0x2D, decide (f 0x2D 3 ≠ 0)),
   (0x30, d.jobs.any fun j => decide (j.id ≠ f 0 4) && j.grants.any units.contains),
   (0x54, decide (f 0x54 44 ≠ 0))]

/-- Where the fields of a job descriptor start, with their sizes. -/
def jobLayout : List (Nat × Nat) :=
  [(0x00, 4), (0x04, 4), (0x08, 8), (0x10, 8), (0x18, 4), (0x1C, 4), (0x20, 4), (0x24, 4), (0x28, 4), (0x2C, 1), (0x2D, 3), (0x54, 44)]

/-- What a further descriptor of a live job breaks: it equals the first but for PADMAP, which takes no unit away (R332). -/
def Dev.moreFields (d : Dev) (j : Job) (bs : List Byte) : List (Nat × Bool) :=
  (jobLayout.take 11).map (fun e => (e.1, decide (fieldAt bs e.1 e.2 ≠ fieldAt j.desc e.1 e.2))) ++
  [(0x30, !j.grants.all (padUnits bs).contains || d.jobs.any fun x => decide (x.id ≠ j.id) && x.grants.any (padUnits bs).contains),
   (0x54, decide (fieldAt bs 0x54 44 ≠ fieldAt j.desc 0x54 44))]

/-- A ring that is not set. -/
def Ring.off : Ring := ⟨0, 0, 0, 0, 0⟩

/-- A new job. -/
def newJob (bs : List Byte) : Job where
  id := fieldAt bs 0 4
  desc := bs
  grants := padUnits bs
  fbprod := 0
  fbcons := 0
  ending := none
  code := 0
  closing := false
  records := []
  recordsMade := 0
  flagged := false
  devSeq := 0
  prof := .off
  trc := .off
  tren := 0
  dies := []

/-- Pad units that are granted, every byte 0 (R237). -/
def zeroUnits (us : List Nat) : Part := fun _ => us.map fun u => .clear .pad (u * 2 ^ 21) (2 ^ 21)

/-- The write of JOBADD with the host address of a descriptor. -/
def jobAdd (addr : Nat) : Part := fun s =>
  let bs := bytesAt s.host addr 128
  let answer (bad : Option Nat) : Part := Part.mod fun d => { d with regs := { d.regs with jobadd := answerBack bad } }
  match s.dev.job? (fieldAt bs 0 4) with
  | some j =>
    let bad := if j.closing then some 0 else badField (s.dev.moreFields j bs)
    Part.seq [
      (if bad.isNone then
        Part.seq [
          zeroUnits ((padUnits bs).filter fun u => !j.grants.contains u),
          Part.mod fun d => d.setJob { j with grants := padUnits bs }]
      else Part.none),
      answer bad] s
  | none =>
    let bad := badField (s.dev.jobFields bs)
    Part.seq [
      (if bad.isNone then
        Part.seq [
          zeroUnits (padUnits bs),
          Part.mod fun d => { d with jobs := d.jobs ++ [newJob bs], ended := d.ended.filter fun e => decide (e.id ≠ fieldAt bs 0 4) }]
      else Part.none),
      answer bad] s

/-- JOBADD (R330, R332). -/
def execJobAdd (addr : Dword) (s : State) : Host.Outcome State Fault Refusal := commit s (jobAdd addr.toNat s)

/-- JOBDEL: the job ends with code 0xFE, and its fault buffer receives nothing more (R332). -/
def jobDel (job : Nat) : Part :=
  Part.mod fun d => d.modJob job fun j => if j.ending.isSome then j else { j.endBy 0xFE d.time with records := [] }

/-- JOBDEL (R332). -/
def execJobDel (job : Nat) (s : State) : Host.Outcome State Fault Refusal := commit s (jobDel job s)

/-! ### QADD, QDEL and the doorbells (R333 to R337) -/

/-- What a queue descriptor breaks, by offset (R334). -/
def Dev.queueFields (d : Dev) (addr : Nat) (bs : List Byte) : List (Nat × Bool) :=
  let f (off n : Nat) : Nat := fieldAt bs off n
  let live : Bool := match d.job? (f 0 4) with | some j => j.ending.isNone | none => false
  [(0x00, !live || decide (addr % 64 ≠ 0)),
   (0x04, decide (65534 < f 4 2) || (d.queue? (f 0 4) (f 4 2)).isSome),
   (0x06, decide (f 6 2 ≠ 0)),
   (0x08, decide (f 8 8 % 64 ≠ 0)),
   (0x10, !powerIn (f 0x10 4) 16 65536),
   (0x14, !powerIn (f 0x14 4) 16 65536),
   (0x18, decide (f 0x18 8 % 128 ≠ 0)),
   (0x20, decide (16383 < f 0x20 2) || d.queues.any fun q => decide (q.num ≠ devQueue) && decide (q.page = f 0x20 2)),
   (0x22, decide (f 0x22 30 ≠ 0))]

/-- A new queue. -/
def newQueue (bs : List Byte) (now : Nat) : Queue where
  job := fieldAt bs 0 4
  num := fieldAt bs 4 2
  ring := fieldAt bs 8 8
  rsize := fieldAt bs 0x10 4
  csize := fieldAt bs 0x14 4
  cring := fieldAt bs 0x18 8
  page := fieldAt bs 0x20 2
  tail := 0
  head := 0
  cprod := 0
  ccons := 0
  started := []
  children := []
  due := []
  done := []
  removed := false
  slot := none
  since := now

/-- The write of QADD. -/
def qAdd (addr : Nat) : Part := fun s =>
  let bs := bytesAt s.host addr 64
  let bad := badField (s.dev.queueFields addr bs)
  [.dev { s.dev with
    regs := { s.dev.regs with qadd := answerBack bad }
    queues := if bad.isNone then s.dev.queues ++ [newQueue bs s.dev.time] else s.dev.queues }]

/-- QADD (R334). -/
def execQAdd (addr : Dword) (s : State) : Host.Outcome State Fault Refusal := commit s (qAdd addr.toNat s)

/-- A queue that is ready or not any more: it gives up its slot with its last record, and leaves once it is removed (R334, R341). -/
def Dev.settleQueue (d : Dev) (job num : Nat) : Dev :=
  match d.queue? job num with
  | none => d
  | some q =>
    if q.ready then d
    else if q.removed then { d with queues := d.queues.filter fun x => !(decide (x.job = job) && decide (x.num = num)) }
    else d.setQueue { q with slot := none }

/-- QDEL: records not yet started complete with 0xFD (R334). -/
def qDel (job num : Nat) : Part :=
  Part.mod fun d =>
    if num = devQueue then d
    else (d.modQueue job num fun q => if q.removed then q else { q with
      removed := true
      due := q.due ++ (countFrom (q.head + 1) (q.tail - q.head)).map fun n => ⟨n, 0xFD, 0, []⟩ }).settleQueue job num

/-- QDEL (R334). -/
def execQDel (job queue : Nat) (s : State) : Host.Outcome State Fault Refusal := commit s (qDel job queue s)

/-- A tail written: a lower one, and one beyond the ring, are ignored; a queue that was idle is ready from now on (R335, R337). -/
def Queue.ring_ (q : Queue) (tail now : Nat) : Queue :=
  if q.removed ∨ tail < q.tail ∨ q.head + q.rsize < tail then q
  else { q with tail := tail, since := q.readySince now }

/-- TAIL of a doorbell page (R337). -/
def doorbell (page tail : Nat) : Part :=
  Part.mod fun d => { d with queues := d.queues.map fun q =>
    if q.num ≠ devQueue ∧ q.page = page then q.ring_ tail d.time else q }

/-- TAIL of a doorbell page (R337). -/
def execDoorbellTail (page : Nat) (tail : Dword) (s : State) : Host.Outcome State Fault Refusal := commit s (doorbell page tail.toNat s)

/-- CCONS of a doorbell page: one above CPROD is ignored (R335). -/
def consumeEntries (page ccons : Nat) : Part :=
  Part.mod fun d => { d with queues := d.queues.map fun q =>
    if q.num ≠ devQueue ∧ q.page = page ∧ ccons ≤ q.cprod then { q with ccons := ccons } else q }

/-! ### The fault buffer (R331, R335) -/

/-- Whether a record stands before another: by time, then by its die, core and slot. -/
def FaultRec.before (a b : FaultRec) : Bool := decide (a.time < b.time) || (decide (a.time = b.time) && decide (a.order < b.order))

/-- The record that is written next, and the others. -/
def nextRecord : List FaultRec → Option (FaultRec × List FaultRec)
  | [] => none
  | r :: rs =>
    match nextRecord rs with
    | none => some (r, [])
    | some (x, xs) => if x.before r then some (x, r :: xs) else some (r, rs)

/-- FBUF and FBSZ of a job (R330). -/
def Job.fbuf (j : Job) : Nat := j.field 0x10 8
def Job.fbsz (j : Job) : Nat := j.field 0x18 4

/-- The stores of some bytes in records of 64 bytes, in the ring from its producer index on. -/
def Job.bufferStores (j : Job) (bs : List Byte) : List Act :=
  (countFrom 0 (bs.length / 64)).flatMap fun k =>
    storeBytes .host (j.fbuf + 64 * ((j.fbprod + k) % j.fbsz)) ((bs.drop (64 * k)).take 64)

/-- Whether the record of a fault that ends its job: FLAGS bit 2 is set in it until it is written (R183). -/
def FaultRec.ends (r : FaultRec) : Bool := bitAt (fieldAt r.data 1 1) 2

/-- The bytes of a record as it is written: of the records of a termination the first alone has FLAGS bit 2 (R183, log 51). -/
def FaultRec.bytes (r : FaultRec) (flagged : Bool) : List Byte :=
  if r.ends ∧ flagged then r.data.set 1 (r.data.getD 1 0 &&& 0xFB) else r.data

/-- Whether something may still stand before a record: the ns of its fault is not over, or a report of the job that was performed earlier, or in
that ns at a lower die, is still to come (R183, R383). -/
def Dev.recordEarly (d : Dev) (job : Nat) (r : FaultRec) : Bool :=
  decide (d.time ≤ r.time) ||
  d.reports.any fun x => decide (x.job = job) && (FaultRec.mk x.data x.time (x.die * 2 ^ 12)).before r

/-- R331: the next fault record of a job is written, with what follows it, in order of TIME and once its ring has room (log 28). Else there is no
effect. -/
def execFaultRecordWrite (job : Nat) (s : State) : Host.Outcome State Fault Refusal :=
  commit s <|
    match s.dev.job? job with
    | none => []
    | some j =>
      match nextRecord j.records with
      | none => []
      | some (r, rest) =>
        let n := r.data.length / 64
        if j.fbsz < j.fbprod - j.fbcons + n ∨ s.dev.recordEarly job r then []
        else j.bufferStores (r.bytes j.flagged) ++
          [.dev (s.dev.setJob { j with records := rest, fbprod := j.fbprod + n, flagged := j.flagged || r.ends })]

/-! ### Imprecise watchpoint reports (R373, R382, R383) -/

/-- R373: report `k` is written, unless an earlier one of its die waits; without a debugger it ends the owning job. Else there is no
effect. -/
def execWatchReport (k : Nat) (s : State) : Host.Outcome State Fault Refusal :=
  commit s <|
    match s.dev.reports[k]? with
    | none => []
    | some r =>
      if s.dev.reports.any fun x => decide (x.die = r.die) && decide (x.time < r.time) then []
      else
        let d1 : Dev := { s.dev with reports := s.dev.reports.eraseIdx k }
        let order := r.die * 2 ^ 12
        Part.andThen
          (fun s => [.dev (d1.modJob r.job fun j =>
            if s.dev.debugged r.job then j.report ⟨r.data, r.time, order⟩
            else (j.queue ⟨r.data.set 1 (r.data.getD 1 0 ||| 4), r.time, order⟩ []).endBy 0x38 s.dev.time)])
          (traceRec r.job r.die 5 0x38 (fieldAt r.data 8 8)) s

/-! ### The end of launches and jobs (R183, R246, R332) -/

/-- Whether a store is the block memory of a launch. -/
def Store.ofLaunch (st : Store) (tag : Nat) : Bool := match st with | .blk l _ => decide (l = tag) | .pad => false

/-- An object that is not in a launch's block memory. -/
def keepObj (tag : Nat) (o : Option ObjRef) : Option ObjRef := o.filter fun r => !r.store.ofLaunch tag

/-- A slot pair without the groups of a launch. -/
def XSet.drop (x : XSet) (tag : Nat) : XSet :=
  let mine : Bool := match x.holder with | some k => decide (k.launch = tag) | none => false
  { x with
    holder := if mine then none else x.holder
    releasing := x.releasing && !mine
    queue := x.queue.filter fun e => decide (e.1.launch ≠ tag)
    lastLaunch := if x.lastLaunch = some tag then none else x.lastLaunch }

/-- All that belongs to a launch is gone: its groups, blocks and slots, its vintages and cells, and whatever names its block memories. -/
def Dev.dropLaunch (d : Dev) (tag : Nat) : Dev :=
  { d with
    groups := d.groups.filter fun g => decide (g.key.launch ≠ tag)
    blocks := d.blocks.filter fun b => decide (b.launch ≠ tag)
    launches := (d.launches.filter fun l => decide (l.tag ≠ tag)).map fun l =>
      match l.origin with
      | .child p o => { l with origin := .child p (keepObj tag o) }
      | .queue _ _ _ => l
    queues := d.queues.map fun q => { q with children := q.children.map fun c => { c with object := keepObj tag c.object } }
    xsets := d.xsets.map fun x => x.drop tag
    syncs := ((d.syncs.filter fun r => !r.store.ofLaunch tag).map fun r =>
      { r with heads := r.heads.filter fun h => !(h.who.any fun k => decide (k.launch = tag)) }).filter fun r => !r.heads.isEmpty
    vintages := d.vintages.filter fun v => decide (v.launch ≠ tag)
    dataCells := d.dataCells.filter fun c => decide (c.launch ≠ tag)
    mergeRecs := d.mergeRecs.filter fun r => decide (r.launch ≠ tag)
    staged := d.staged.filter fun w => decide (w.launch ≠ tag)
    gate := d.gate.filter fun e => !e.store.ofLaunch tag }

/-- A cluster without the entries of a job, and without a self-test that one of its groups began. -/
def Cluster.dropJob (c : Cluster) (job : Nat) (tested : Bool) : Cluster :=
  { c with
    entries := c.entries.filter fun e => decide (e.job ≠ job)
    passes := (c.passes.map fun p => { p with entries := p.entries.filter fun e => decide (e.job ≠ job) }).filter fun p => !p.entries.isEmpty
    bist := c.bist && !tested }

/-- Whether a group of a job tests the matrix array of a cluster (R350). -/
def Dev.testsArray (d : Dev) (job : Nat) (c : Cluster) : Bool :=
  d.groups.any fun g =>
    decide (d.jobFor g.key = job) && decide (g.die = c.die) &&
    (match g.place with | some p => decide (p.cluster = c.index) | none => false) &&
    g.lanes.any fun x => match x.hold with
      | some h => (match h.kind with | .bist _ => decide (h.reason = 7) | _ => false)
      | none => false

/-- Slot numbers of a job are unowned, and their slots empty on every cluster (R205). -/
def Dev.dropSlots (d : Dev) (job : Nat) : Dev :=
  let mine (n : Nat) : Bool := d.cuvOwner.any fun e => decide (e.1 = n) && decide (e.2 = job)
  { d with
    clusters := d.clusters.map fun c => { c with slots := c.slots.filter fun x => !mine x.n }
    cuvOwner := d.cuvOwner.filter fun e => decide (e.2 ≠ job) }

/-- Watchpoints that a job owns are disarmed (R382). -/
def Regs.disarm (r : Regs) (job : Nat) : Regs :=
  { r with wpctl := (countFrom 0 32).foldl (fun w k =>
      let x := (cellGet w k).toNat
      if x / 2 ^ 32 = job then cellSet w k (BitVec.ofNat 64 (x - x % 2)) else w) r.wpctl }

/-- A queue of a job that ends: every record that has not completed gets an entry with the code, in sequence order (R340). -/
def Queue.cut (q : Queue) (code : Nat) : Queue :=
  { q with
    slot := none
    removed := true
    started := []
    children := []
    due := if q.num = devQueue then []
      else ((countFrom 1 q.tail).filter fun n => !q.done.contains n).map fun n => ⟨n, code, 0, []⟩ }

/-- Steps 3 to 5 of R183: a job's groups halt, its operations are discarded, its resources are free; what is left to write stays. -/
def Dev.endJob (d : Dev) (j : Job) : Dev :=
  let tested := d.clusters.map fun c => (c, d.testsArray j.id c)
  let tags := (d.launches.filter fun l => decide (l.job = j.id)).map Launch.tag
  let d1 : Dev := { d with
    clusters := tested.map fun e => e.1.dropJob j.id e.2
    ops := d.ops.filter fun p => decide (p.job ≠ j.id)
    gate := d.gate.filter fun e => decide (e.job ≠ j.id)
    queues := d.queues.map fun q => if q.job = j.id then q.cut j.code else q
    tlb := d.tlb.filter fun t => decide (t.job ≠ j.id)
    recordOps := d.recordOps.filter fun r => !d.ops.any fun p => decide (p.id = r.op) && decide (p.job = j.id)
    reports := d.reports.filter fun r => decide (r.job ≠ j.id)
    links := d.links.map fun l => { l with waiting := l.waiting.filter fun f => decide (f.job ≠ j.id) || decide (f.vc ≠ 0) }
    dump := d.dump.filter fun x => decide (x.job ≠ j.id)
    abandoned := ((d.dump.filter fun x => decide (x.job = j.id) && !x.complete).map fun x => (x.did, x.job)).toList ++ d.abandoned
    heldReqs := d.heldReqs.filter fun h => decide (h.req.job ≠ j.id)
    regs := d.regs.disarm j.id }
  ((tags.foldl Dev.dropLaunch d1).dropSlots j.id).setJob { j with closing := true }

/-- R183, R332: a job that a fault or the host has ended halts and is discarded; requests of other packages that it held are answered ACCESS.
Once its records and completion entries are written, it is no more. Else there is no effect. -/
def execJobTerminate (job : Nat) (s : State) : Host.Outcome State Fault Refusal :=
  commit s <|
    match s.dev.job? job with
    | none => []
    | some j =>
      if j.ending.isNone then []
      else if !j.closing then
        let reqs := (s.dev.heldReqs.filter fun h => decide (h.req.job = job)).map HeldRequest.req
        Part.seq [tellMembers job, Part.mod (fun d => d.endJob j), Part.each reqs (fun r => reply r [0x31, 2])] s
      else if !j.records.isEmpty || s.dev.queues.any fun q => decide (q.job = job) && !q.due.isEmpty then []
      else
        [.dev { s.dev with
          jobs := s.dev.jobs.filter fun x => decide (x.id ≠ job)
          queues := s.dev.queues.filter fun q => decide (q.job ≠ job)
          ended := upsert (fun e => decide (e.id = job)) ⟨job, j.code⟩ s.dev.ended }]

end Sys2Proof.Machine
end

