-- ==== Sys2Proof/Machine/Launches.lean ====
section
/-!
DEFINITION. Records of queues as the headworks starts and completes them: launches, migrations, invalidations, markers (R56 to R58, R241, R242,
R247, R303, R318, R333 to R340, R393), and the hardware queue slots (R341).
-/

namespace Sys2Proof.Machine

/-! ### The next record of a queue (R333, R335, R337, R343) -/

/-- A record that stands next in its queue: its bytes, where it stands, its launch identifier and its sequence; for a child of
`launch.dev`, what started it. -/
structure NextRec where
  raw : List Byte
  faddr : Nat
  grid : Nat
  seq : Nat
  child : Option Child
  deriving DecidableEq, Repr

/-- The record that stands next in a queue, where its page is mapped (log 16). -/
def State.nextRec (s : State) (j : Job) (q : Queue) : Option NextRec :=
  let grid (seq : Nat) : Nat := q.num * 2 ^ 48 + seq
  if q.num = devQueue then q.children.head?.map fun c => ⟨c.raw, c.code, grid c.seq, c.seq, some c⟩
  else if q.removed ∨ q.tail ≤ q.head then none
  else
    let va := q.ring + 64 * (q.head % q.rsize)
    if (s.firstBad j false [va]).isSome then none else some ⟨s.vaBytes j none va 64, va, grid (q.head + 1), q.head + 1, none⟩

/-- Whether a record's turn has come: the previous one has completed, or it is a launch with OVL (R337, R343). -/
def NextRec.turn (r : NextRec) (q : Queue) : Bool :=
  r.child.isSome || decide (q.head = 0) || q.done.contains q.head ||
  (decide (fieldAt r.raw 0 1 = 1) && bitAt (fieldAt r.raw 1 1) 6)

/-- The dependence of a record: queue number and sequence (R338). -/
def depOf (x : Nat) : Nat × Nat := (x % 2 ^ 16, x / 2 ^ 16)

/-- Whether a dependence is refused: on the record's own queue at its own sequence or a later one, or on a queue that is not registered; a
removed queue stands for the sequences it was given (R339). -/
def Dev.depBad (d : Dev) (q : Queue) (r : NextRec) (x : Nat) : Bool :=
  let e := depOf x
  decide (x ≠ 0) &&
    ((decide (e.1 = q.num) && decide (r.seq ≤ e.2)) || decide (e.1 = devQueue) ||
    match d.queue? q.job e.1 with
    | none => true
    | some y => y.removed && decide (y.tail < e.2))

/-- Whether a dependence is met: the named record has completed (R339). -/
def Dev.depMet (d : Dev) (q : Queue) (x : Nat) : Bool :=
  decide (x = 0) || match d.queue? q.job (depOf x).1 with | some y => y.done.contains (depOf x).2 | none => false

/-- The core die whose trace ring and operand log serve a record: a free choice (log 17). -/
def Dev.anyDie (d : Dev) : Nat := (Config.freeWord d.free).toNat % 6

/-- R393: a record is refused, and its job ends. -/
def refuse (job grid faddr : Nat) (code : FaultCode) (item aux : Nat) : Part := fun s =>
  let d := s.dev
  let rec_ : FaultRec := ⟨rawRecord code.num 4 0 job grid 0xFFFFFFFF 0xFF 0 0 0 faddr item aux (d.timeFor job d.time), d.time, 0⟩
  Part.seq [
    Part.mod (fun d => { d.modJob job (fun j => (j.queue rec_ []).endBy code.num d.time) with free := d.free + 1 }),
    traceRec job d.anyDie 5 code.num grid] s

/-- A record started: it stands among the started ones, and the next one follows it. -/
def Dev.startRec (d : Dev) (q : Queue) (r : NextRec) : Dev :=
  d.setQueue { q with
    head := q.head + 1
    children := if r.child.isSome then q.children.tail else q.children
    started := q.started ++ [⟨r.seq, r.raw⟩] }

/-- What the events of records share (R333, R336, R337, R339): the next record of a queue that holds a slot is read; a reserved KIND, a bad field
or a bad dependence is refused; an unmet dependence waits; else `go`. `kind` is the KIND the event stands for, `dep` where DEP lies. -/
def startRecord (job num kind dep : Nat) (fields : List Byte → List (Nat × Bool)) (go : Job → Queue → NextRec → Part) : Part := fun s =>
  match s.dev.job? job, s.dev.queue? job num with
  | some j, some q =>
    if j.ending.isSome ∨ q.slot.isNone ∨ s.dev.dumpHolds job then []
    else match s.nextRec j q with
      | none => []
      | some r =>
        let k := fieldAt r.raw 0 1
        let x := fieldAt r.raw dep 8
        if !r.turn q then []
        else if k = 0 ∨ 4 < k then refuse job r.grid r.faddr .illegalOperand 0 0 s
        else if k ≠ kind then []
        else
          let fs := fields r.raw
          match badField ((fs.filter fun f => decide (f.1 < dep)) ++ [(dep, s.dev.depBad q r x)] ++ fs.filter fun f => decide (dep < f.1)) with
          | some off => refuse job r.grid r.faddr .illegalOperand 0 off s
          | none => if s.dev.depMet q x then Part.seq [noteTranslation job r.faddr false, go j q r] s else []
  | _, _ => []

/-- A field of a record that has to be 0 (R336). -/
def zeroField (bs : List Byte) (off n : Nat) : Nat × Bool := (off, decide (fieldAt bs off n ≠ 0))

/-- Bytes of a record that no field covers: they are reserved and have to be 0, each by itself (R336). -/
def zeroBytes (bs : List Byte) (lo n : Nat) : List (Nat × Bool) := (countFrom lo n).map fun k => (k, decide (fieldAt bs k 1 ≠ 0))

/-- An entry put among those that are due (R340). -/
def Dev.addDue (d : Dev) (job num : Nat) (e : Completion) : Dev := d.modQueue job num fun q => { q with due := q.due ++ [e] }

/-! ### Markers, migrations and invalidations (R318, R336) -/

/-- R336: the next record of a queue starts and completes, a marker. Else there is no effect. -/
def execMarkerRecord (job queue : Nat) (s : State) : Host.Outcome State Fault Refusal :=
  commit s <| startRecord job queue 4 0x18 (fun bs => zeroBytes bs 1 7 ++ [zeroField bs 8 8, zeroField bs 0x10 8, zeroField bs 0x20 4] ++ zeroBytes bs 0x24 0x1C)
    (fun _ q r => Part.mod fun d => (d.startRec q r).addDue job queue ⟨r.seq, 0, 0, []⟩) s

/-- The operands of a migrate record, as those of `mig.post` (R323, R336). -/
def migRecFields (bs : List Byte) : List (Nat × Bool) :=
  let n := fieldAt bs 0x10 8
  let t := targetOf (fieldAt bs 0x20 4)
  zeroBytes bs 1 7 ++
  [(0x08, decide (2 ^ 57 ≤ fieldAt bs 8 8)),
   (0x10, decide (n = 0) || decide (2 ^ 20 < n)),
   (0x20, decide (2 ^ 7 ≤ fieldAt bs 0x20 4) || decide (t.1 = 3) || (frameRange t.1 t.2.1 t.2.2).isNone)] ++ zeroBytes bs 0x24 0x1C

/-- The operation of a migrate record: no group has posted it. -/
def recordMig (d : Dev) (job die index : Nat) (bs : List Byte) : EngineOp where
  id := d.opSeq
  index := index
  kind := .mig
  die := die
  job := job
  launch := 2 ^ 16
  g := ⟨2 ^ 16, 0, 0⟩
  lane := 0
  loc := 0
  regs := [fieldAt bs 8 4, fieldAt bs 0xC 4, fieldAt bs 0x10 4, fieldAt bs 0x20 4, 0, noObject]
  layout := none
  storeA := .pad
  storeB := .pad
  object := none
  phase := 0
  seq := 0
  det := false
  lanes := []
  done := 0
  started := false
  held := none
  failed := none
  metUe := false
  move := .ready
  timer := 0
  ask := 0
  sent := false
  knows := []
  remoteHeld := false
  link := none
  links := []

/-- R336: the next record of a queue starts, a migration; it waits for a free entry of the operand log. Else there is no effect. -/
def execMigrateRecord (job queue : Nat) (s : State) : Host.Outcome State Fault Refusal :=
  commit s <| startRecord job queue 2 0x18 migRecFields
    (fun _ q r s =>
      let die := s.dev.anyDie
      match s.dev.logIndex die with
      | none => [.dev { s.dev with free := s.dev.free + 1 }]
      | some k =>
        let p := recordMig s.dev job die k r.raw
        Part.seq [
          Part.mod (fun d => { d.startRec q r with
            free := d.free + 1
            recordOps := d.recordOps ++ [⟨p.id, queue, r.seq⟩] }),
          acceptOp p] s) s

/-- R336: the next record of a queue starts, an invalidation. Else there is no effect. -/
def execInvalidateRecord (job queue : Nat) (s : State) : Host.Outcome State Fault Refusal :=
  commit s <| startRecord job queue 3 0x18
    (fun bs => zeroBytes bs 1 7 ++
      [(0x08, decide (fieldAt bs 8 8 % 4096 ≠ 0)), (0x10, decide (fieldAt bs 0x10 8 % 4096 ≠ 0) || decide (fieldAt bs 0x10 8 = 0))] ++
      [zeroField bs 0x20 4] ++ zeroBytes bs 0x24 0x1C)
    (fun _ q r => Part.mod fun d => d.startRec q r) s

/-- R318, R278: an invalidation completes: no translation of its range is left in a cache or a last-page register, and no access that
translated in it is on its way. Else there is no effect. -/
def execInvalidateComplete (job queue seq : Nat) (s : State) : Host.Outcome State Fault Refusal :=
  commit s <|
    match s.dev.queue? job queue with
    | none => []
    | some q =>
      match q.started.find? fun e => decide (e.seq = seq) with
      | none => []
      | some e =>
        let va := fieldAt e.raw 8 8
        let n := fieldAt e.raw 0x10 8
        let open_ : Bool := s.dev.staged.any fun w => decide (s.dev.jobFor w.g = job) &&
          w.runs.any fun r => decide (r.1 < va + n) && decide (va < r.1 + r.2.2.length)
        if fieldAt e.raw 0 1 ≠ 3 ∨ q.due.any (fun x => decide (x.seq = seq)) ∨ open_ then []
        else [.dev ((s.dev.dropTranslations job va n).addDue job queue ⟨seq, 0, 0, []⟩)]

/-! ### The checks of a launch (R56, R57, R242, R338) -/

/-- What a launch record breaks, by offset, DEP aside (R338). -/
def launchFields (bs : List Byte) : List (Nat × Bool) :=
  let f (off n : Nat) : Nat := fieldAt bs off n
  let nb := f 0x20 4 * f 0x24 2 * f 0x26 2
  [(0x01, bitAt (f 1 1) 7),
   (0x02, decide (32 < f 2 1)),
   (0x03, decide (f 3 1 = 0) || decide (4 < f 3 1)),
   (0x08, decide (f 8 8 % 4096 ≠ 0)),
   (0x10, decide (2 ^ 57 ≤ f 0x10 8)),
   (0x20, decide (f 0x20 4 = 0) || decide (2 ^ 32 - 1 < nb) || decide (nb % max (f 3 1) 1 ≠ 0)),
   (0x24, decide (f 0x24 2 = 0)),
   (0x26, decide (f 0x26 2 = 0)),
   (0x28, decide (f 0x28 1 / 4 % 4 ≠ 0)),
   (0x29, decide (f 0x29 1 ≠ 0)),
   (0x30, bitAt (f 1 1) 2 && decide (f 0x30 4 < 1000)),
   (0x3C, decide (f 0x3C 4 ≠ 0))]

/-- What a kernel header breaks, by offset (R56). -/
def headerFields (h : List Byte) : List (Nat × Bool) :=
  let f (off n : Nat) : Nat := fieldAt h off n
  let co := f 0x10 4
  let cs := f 0x14 4
  [(0x00, decide (f 0 4 ≠ 0x4A524B4E)),
   (0x04, decide (f 4 2 ≠ 1)),
   (0x06, decide (3 < f 6 1)),
   (0x07, decide (16 < f 7 1)),
   (0x08, decide (f 8 4 % 256 ≠ 0) || decide (262144 < f 8 4)),
   (0x0C, decide (1 < f 0xC 1)),
   (0x0D, decide (f 0xD 1 = 0) || decide (16 < f 0xD 1)),
   (0x0E, decide (f 0xE 2 % 8 ≠ 0)),
   (0x10, decide (co % 16 ≠ 0) || decide (co < 0x80)),
   (0x14, decide (cs % 16 ≠ 0) || decide (cs < 16)),
   (0x18, decide (f 0x18 4 < co / 16) || decide ((co + cs) / 16 ≤ f 0x18 4)),
   (0x1C, decide (f 0x1C 4 % 32 ≠ 0)),
   (0x20, decide (f 0x20 4 = 0)),
   (0x30, decide (8 < f 0x30 1)),
   (0x31, decide (15 < f 0x31 1)),
   (0x32, decide (f 0x32 2 ≠ 0)),
   (0x40, decide (f 0x40 64 ≠ 0))]

/-- The code of an image as cells: word k of the image at k. -/
def codeCells : Nat → List Byte → Cells 32
  | k, a :: b :: c :: d :: r => (codeCells (k + 1) r |> fun m =>
      if leNat [a, b, c, d] = 0 then m else (k, BitVec.ofNat 32 (leNat [a, b, c, d])) :: m)
  | _, _ => []

/-- The stop bits of some code (R37, R57). -/
def stopBits (code : Cells 32) (off size : Nat) : Nat :=
  natSum ((countFrom (off / 16) (size / 16)).map fun p =>
    natSum ((countFrom 0 3).map fun k => (slotCtl (cellGet code (4 * p)) k).safe.toNat))

/-- An entry of the safe-point table, from its 32 bytes (R57). -/
def safePoint (e : List Byte) : SafePoint :=
  ⟨fieldAt e 0 4, fieldAt e 4 1, BitVec.ofNat 64 (fieldAt e 8 8), BitVec.ofNat 64 (fieldAt e 0x10 8), BitVec.ofNat 16 (fieldAt e 0x18 2)⟩

/-- What is wrong in a safe-point table from an entry on, as an offset in the image: `prev` is the entry before (R57). -/
def badPoints (off : Nat) : Option Nat → List (List Byte) → Option Nat
  | _, [] => none
  | prev, e :: es =>
    let w := wordIndex (fieldAt e 0 4) (fieldAt e 4 1)
    match badField [(off, match prev with | some p => decide (w ≤ p) | none => false), (off + 4, decide (2 < fieldAt e 4 1)),
        (off + 5, decide (fieldAt e 5 3 ≠ 0)), (off + 0x1A, decide (fieldAt e 0x1A 6 ≠ 0))] with
    | some x => some x
    | none => badPoints (off + 32) (some w) es

/-- A window of a window table, from its 16 bytes (R242). -/
def windowOf (e : List Byte) : Window := ⟨decide (fieldAt e 0 1 = 1), fieldAt e 4 4, fieldAt e 8 4⟩

/-- Whether two windows of one space overlap. -/
def Window.meets (a b : Window) : Bool := decide (a.pad = b.pad) && decide (a.base < b.base + b.size) && decide (b.base < a.base + a.size)

/-- What is wrong in the entries of a window table, as an offset in the image: `ws` are the windows before (R242). -/
def badWindows (blkMem off : Nat) (ws : List Window) : List (List Byte) → Option Nat
  | [] => none
  | e :: es =>
    let w := windowOf e
    let limit := if w.pad then padSize else blkMem
    match badField [(off, decide (1 < fieldAt e 0 1)), (off + 1, decide (fieldAt e 1 3 ≠ 0)),
        (off + 4, decide (w.base % 32 ≠ 0) || ws.any w.meets),
        (off + 8, decide (w.size % 32 ≠ 0) || decide (w.size < 32) || decide (limit < w.base + w.size)),
        (off + 12, decide (fieldAt e 12 4 ≠ 0))] with
    | some x => some x
    | none => badWindows blkMem (off + 16) (ws ++ [w]) es

/-- A launch that is not possible: the code, the item and the offset of R393. -/
abbrev Refused := FaultCode × Nat × Nat

/-- The parts of a kernel image that a launch reads (R56 to R58, R242). -/
structure Image where
  head : List Byte
  code : List Byte
  spt : List Byte
  /-- The window table, where the image has one (R391). -/
  win : Option (List Byte)

/-- Whether an image has a window table. -/
def hasWindows (h : List Byte) : Bool := decide (fieldAt h 0x30 1 ≠ 0) || decide (fieldAt h 0x2C 4 ≠ 0)

def Image.cells (i : Image) : Nat := match i.win with | some t => fieldAt t 0 4 | none => 0
def Image.windows (i : Image) : List Window :=
  match i.win with
  | some t => (chunks 16 (fieldAt i.head 0x30 1) (t.drop 16)).map windowOf
  | none => []

/-- What an image breaks after its header: the safe-point table and the window table (R57, R242). -/
def Image.bad (i : Image) (j : Job) : Option Refused :=
  let f (off n : Nat) : Nat := fieldAt i.head off n
  let off := f 0x1C 4
  let n := f 0x20 4
  let points := chunks 32 n i.spt
  if stopBits (codeCells (f 0x10 4 / 4) i.code) (f 0x10 4) (f 0x14 4) ≠ n then some (.illegalOperand, 2, 0x20)
  else if fieldAt i.spt 0 4 ≠ f 0x10 4 / 16 then some (.illegalOperand, 2, off)
  else if fieldAt i.spt 4 1 ≠ 0 then some (.illegalOperand, 2, off + 4)
  else match badPoints off none points with
    | some x => some (.illegalOperand, 2, x)
    | none =>
      match i.win with
      | none => none
      | some t =>
        let wo := f 0x2C 4
        match badField [(0x2C, decide (wo % 16 ≠ 0)), (wo, decide (f 0x30 1 ≠ 0) && decide (fieldAt t 0 4 = 0)),
            (wo + 4, decide (fieldAt t 4 12 ≠ 0))] with
        | some x => some (.illegalOperand, 3, x)
        | none =>
          match badWindows (f 8 4) (wo + 16) [] (chunks 16 (f 0x30 1) (t.drop 16)) with
          | some x => some (.illegalOperand, 3, x)
          | none =>
            (i.windows.zipIdx.find? fun w => w.1.pad && !j.holds w.1.base w.1.size).map fun w => (.access, 3, wo + 20 + 16 * w.2)

/-- Bytes of the save area of a block (R303). -/
def saveBytes (h : List Byte) (acct : Nat) : Nat :=
  let w := 8 * 2 ^ fieldAt h 6 1
  fieldAt h 0xD 1 * (192 + (16 + 256 + 128 + (if fieldAt h 0xC 1 = 1 then 256 else 0) + 128 + fieldAt h 0xE 2) * w) +
    fieldAt h 8 4 + 12 * (fieldAt h 8 4 / 32) + 16384 * acct + 2304

/-- What the reservations of a job have left for a launch's cells and save area (R247, R303). -/
def Dev.heldBy (d : Dev) (job : Nat) (f : Launch → Nat) : Nat := natSum ((d.launches.filter fun l => decide (l.job = job)).map f)

/-- The launch tag that the package's counter gives next: one that no launch holds (R241). -/
def Dev.nextTag (d : Dev) : Option Nat :=
  ((countFrom 0 (2 ^ 16)).find? fun k => (d.launch? ((d.tagCounter + k) % 2 ^ 16)).isNone).map fun k => (d.tagCounter + k) % 2 ^ 16

/-- A launch as its record and its image give it (R56, R338). -/
def newLaunch (tag job now : Nat) (q : Queue) (r : NextRec) (i : Image) : Launch :=
  let f (off n : Nat) : Nat := fieldAt r.raw off n
  let h (off n : Nat) : Nat := fieldAt i.head off n
  let nb := f 0x20 4 * f 0x24 2 * f 0x26 2
  { tag := tag
    id := BitVec.ofNat 64 r.grid
    job := job
    origin := match r.child with | some c => .child c.parent c.object | none => .queue job q.num r.seq
    det := bitAt (f 1 1) 0
    persistent := bitAt (f 1 1) 1
    sampling := bitAt (f 1 1) 2
    priority := bits (f 1 1) 4 2
    acct := f 2 1
    gang := f 3 1
    dogUs := f 4 4
    image := f 8 8
    param := f 0x10 8
    seed := BitVec.ofNat 64 (f 0x18 8)
    gx := f 0x20 4
    gy := f 0x24 2
    gz := f 0x26 2
    resLimit := f 0x2A 2
    quantumUs := f 0x2C 4
    sampleNs := f 0x30 4
    width := h 6 1
    divDepth := h 7 1
    blkMem := h 8 4
    xregs := decide (h 0xC 1 = 1)
    groups := h 0xD 1
    spill := h 0xE 2
    codeOff := h 0x10 4
    codeSize := h 0x14 4
    entry := h 0x18 4
    code := codeCells (h 0x10 4 / 4) i.code
    spt := (chunks 32 (h 0x20 4) i.spt).map safePoint
    windows := i.windows
    cells := i.cells
    saveHeld := nb * saveBytes i.head (f 2 1)
    cellHeld := i.cells
    gridBar := .fresh (nb * h 0xD 1)
    gangBars := []
    gp := 0
    gridPhase := 0
    fresh := 0
    back := []
    ended := 0
    rootNext := 0
    rootDone := []
    digest := []
    sampleTimer := 0
    started := now
    knows := match r.child with | some c => c.knows | none => [] }

/-- What a launch breaks after its image: the reservations and the room of an empty core or cluster (R247, R297, R303). -/
def Dev.launchRefused (d : Dev) (j : Job) (l : Launch) : Option Refused :=
  if j.field 0x20 4 < d.heldBy j.id Launch.cellHeld + l.cellHeld then some (.access, 4, 0)
  else if j.field 0x28 4 < d.heldBy j.id Launch.saveHeld + l.saveHeld then some (.access, 5, 0)
  else if 16 < l.groups ∨ 262144 < l.blkMem ∨ 32 < l.acct ∨ 4 < l.gang then some (.illegalOperand, 6, 0)
  else if l.persistent ∧ (d.findDie l l.gangs).isNone then some (.illegalOperand, 6, 0)
  else none

/-! ### The start of a launch (R56 to R58, R338, R343) -/

/-- The parts of an image, where all of their pages are mapped (log 16), with the pages that are read. -/
def State.readImage (s : State) (j : Job) (va : Nat) (h : List Byte) : Option (Image × List Nat) :=
  let f (off n : Nat) : Nat := fieldAt h off n
  let parts := [(f 0x10 4, f 0x14 4), (f 0x1C 4, 32 * f 0x20 4)] ++
    if hasWindows h then [(f 0x2C 4, 16 + 16 * f 0x30 1)] else []
  let pages := parts.flatMap fun p => pagesOf (va + p.1) p.2
  if (s.firstBad j false pages).isSome then none
  else
    let get (p : Nat × Nat) : List Byte := s.vaBytes j none (va + p.1) p.2
    some (⟨h, get (f 0x10 4, f 0x14 4), get (f 0x1C 4, 32 * f 0x20 4),
      if hasWindows h then some (get (f 0x2C 4, 16 + 16 * f 0x30 1)) else none⟩, pages)

/-- A launch begins: its tag, its records of races reset, and for a persistent one every block placed (R241, R307). -/
def beginLaunch (q : Queue) (r : NextRec) (l : Launch) : Part := fun s =>
  let place : Part :=
    if l.persistent then
      match s.dev.findDie l l.gangs with
      | some (die, xs) => Part.each xs (fun e => placeBlock l e.1 die e.2)
      | none => Part.none
    else Part.none
  Part.seq [
    Part.mod (fun d =>
      let d1 := (d.startRec q r).setLaunch { l with fresh := if l.persistent then l.nblocks else 0 }
      { d1 with
        tagCounter := (l.tag + 1) % 2 ^ 16
        padRaces := d1.padRaces.filter fun x => decide (x.ls ≠ l.tag)
        free := d1.free + 1 }),
    traceRec l.job s.dev.anyDie 1 0 l.id.toNat,
    place] s

/-- R338, R343: the next record of a queue starts, a launch: its record, its image and its reservations are checked, and no block starts where
one fails. Else there is no effect. -/
def execLaunchRecord (job queue : Nat) (s : State) : Host.Outcome State Fault Refusal :=
  commit s <| startRecord job queue 1 0x34 launchFields
    (fun j q r s =>
      let no (x : Refused) : Part := refuse job r.grid r.faddr x.1 x.2.1 x.2.2
      let va := fieldAt r.raw 8 8
      if (s.firstBad j false [va]).isSome then []
      else
        let h := s.vaBytes j none va 128
        match badField (headerFields h) with
        | some off => no (.illegalOperand, 1, off) s
        | none =>
          if fieldAt r.raw 0x28 1 % 4 ≠ fieldAt h 6 1 ∨ fieldAt r.raw 0x28 1 / 16 + 1 ≠ fieldAt h 0xD 1 then no (.illegalOperand, 0, 0x28) s
          else match s.readImage j va h, s.dev.nextTag with
            | some (i, pages), some tag =>
              (match i.bad j with
              | some x => no x s
              | none =>
                let l := newLaunch tag job s.dev.time q r i
                match s.dev.launchRefused j l with
                | some x => no x s
                | none => Part.seq [Part.each (va :: pages) (fun a => noteTranslation job a false), beginLaunch q r l] s)
            | _, _ => []) s

/-! ### The completion of a launch (R281, R294, R340, R343) -/

/-- Whether nothing of a launch is left to do: its blocks have ended, its operations and its writes are done. -/
def Dev.launchOver (d : Dev) (l : Launch) : Bool :=
  decide (l.ended = l.nblocks) &&
  !(d.ops.any fun p => decide (p.launch = l.tag)) &&
  !(d.staged.any fun w => decide (w.launch = l.tag)) &&
  !(d.clusters.any fun c => c.all.any fun e => decide (e.g.launch = l.tag)) &&
  !(d.groups.any fun g => decide (g.key.launch = l.tag) && !g.acc.isEmpty)

/-- The operations whose staged writes happen before a launch's completion (R294). -/
def Dev.launchKnows (d : Dev) (l : Launch) : List Nat :=
  ((d.groups.filter fun g => decide (g.key.launch = l.tag)).flatMap Group.knows ++ l.knows).eraseDups

/-- The arrival of a completed child on its object (R343). The watchpoints of a pad object match it as an on-package write that no group made:
which die and engine its report names the spec does not say (R372, R374, log 66). -/
def childArrive (l : Launch) (o : ObjRef) : Part := fun s =>
  let hi := o.addr + (if s.completes o 1 then 16 else 8)
  let written (a : Nat) : Bool := decide (o.store = .pad) && decide (o.addr + 4 ≤ a) && decide (a < hi)
  let hits := s.dev.watchHits l.job false padHome written
  Part.seq [
    watchReport hits 1 (s.dev.anyDie + 16 * ((Config.freeByte s.dev.free).toNat % 16)) 1000 l.job s.dev.time none,
    objArriveN (engineRelease (s.dev.launchKnows l)) o 1] s

/-- R294: a launch completes: its entry is due, or its object receives its arrival. Else there is no effect. -/
def execLaunchComplete (launch : Nat) (s : State) : Host.Outcome State Fault Refusal :=
  commit s <|
    match s.dev.launch? launch with
    | none => []
    | some l =>
      let ending : Bool := match s.dev.job? l.job with | some j => j.ending.isSome | none => true
      if ending ∨ s.dev.launchOver l = false then []
      else
        let trace := traceRec l.job s.dev.anyDie 2 0 l.id.toNat
        let drop : Part := Part.mod fun d => { d.dropLaunch l.tag with free := d.free + 1 }
        match l.origin with
        | .queue job q seq =>
          Part.seq [trace, drop,
            Part.mod fun d => d.addDue job q ⟨seq, 0, 0, if l.det then sha512 l.digest else []⟩] s
        | .child _ o =>
          let seq := l.id.toNat % 2 ^ 48
          Part.seq [trace,
            (match o with | some o => childArrive l o | none => Part.none),
            drop,
            Part.mod fun d => (d.modQueue l.job devQueue fun q => { q with
              started := q.started.filter fun e => decide (e.seq ≠ seq)
              done := q.done ++ [seq] }).settleQueue l.job devQueue] s

/-- The bytes of a completion entry (R340). -/
def entryBytes (d : Dev) (q : Queue) (e : Completion) : List Byte :=
  leBytes 8 (q.num * 2 ^ 48 + e.seq) ++ leBytes 4 e.status ++ leBytes 4 e.detail ++ leBytes 8 (d.timeFor q.job d.time) ++ leBytes 8 0 ++
    e.digest ++ List.replicate (96 - e.digest.length) 0

/-- R335, R340: the next completion entry of a queue is written, once its ring has room. Else there is no effect. -/
def execCompletionEntryWrite (job queue : Nat) (s : State) : Host.Outcome State Fault Refusal :=
  commit s <|
    match s.dev.job? job, s.dev.queue? job queue with
    | some j, some q =>
      (match q.due with
      | [] => []
      | e :: rest =>
        let va := q.cring + 128 * (q.cprod % q.csize)
        if q.csize ≤ q.cprod - q.ccons ∨ s.dev.dumpHolds job then []
        else match s.translate j va true with
          | .ok pa _ =>
            Part.seq [
              noteTranslation job va true,
              (fun s => (entryBytes s.dev q e).zipIdx.map fun b => paStore (pa + b.2) b.1),
              Part.mod fun d => (d.setQueue { q with
                due := rest
                cprod := q.cprod + 1
                started := q.started.filter fun x => decide (x.seq ≠ e.seq)
                done := q.done ++ [e.seq] }).settleQueue job queue] s
          | _ => [])
    | _, _ => []

/-! ### Hardware queue slots (R341, R342) -/

/-- The headworks holds 64 slots. -/
def slotCount : Nat := 64

/-- The lowest free slot. -/
def Dev.slotFree (d : Dev) : Option Nat := (countFrom 0 slotCount).find? fun k => !d.queues.any fun q => decide (q.slot = some k)

/-- The PRIO of a queue's job (R330). -/
def Dev.prio (d : Dev) (q : Queue) : Nat := match d.job? q.job with | some j => j.field 0x2C 1 | none => 0

/-- Whether a queue comes before another for a slot: by PRIO, then by the longer wait, the lower job and the lower number. -/
def Dev.slotBefore (d : Dev) (a b : Queue) : Bool :=
  if d.prio a ≠ d.prio b then decide (d.prio b < d.prio a)
  else if a.since ≠ b.since then decide (a.since < b.since)
  else if a.job ≠ b.job then decide (a.job < b.job)
  else decide (a.num < b.num)

/-- The first of some queues for a slot. -/
def Dev.firstFor (d : Dev) : List Queue → Option Queue
  | [] => none
  | q :: qs =>
    match d.firstFor qs with
    | none => some q
    | some x => if d.slotBefore q x then some q else some x

/-- The ready queue without a slot that is served next. -/
def Dev.slotNext (d : Dev) : Option Queue :=
  d.firstFor (d.queues.filter fun q => q.ready && q.slot.isNone &&
    match d.job? q.job with | some j => j.ending.isNone | none => false)

/-- A queue receives a slot; the clock registers of its virtual function take effect (R344). -/
def Dev.giveSlot (d : Dev) (q : Queue) (k : Nat) : Dev :=
  let d1 := d.setQueue { q with slot := some k, since := d.time }
  match d.job? q.job with
  | none => d1
  | some j =>
    if j.vf = 0 then d1
    else { d1 with regs := { d1.regs with
        vfNow := (countFrom (4 * j.vf) 3).foldl (fun v n => cellSet v n (cellGet d.regs.vf n)) d1.regs.vfNow } }

/-- R341: a ready queue receives a free slot. Else there is no effect. -/
def execSlotGrant (s : State) : Host.Outcome State Fault Refusal :=
  commit s <|
    match s.dev.slotFree, s.dev.slotNext with
    | some k, some q => [.dev (s.dev.giveSlot q k)]
    | _, _ => []

/-- The package slice SL in reference ns (R341). -/
def Regs.sliceNs (r : Regs) : Nat := 1000 * (if r.sl.toNat = 0 then 10000 else r.sl.toNat)

/-- The resident blocks of a queue's launches are pre-empted (R302). -/
def Dev.haltQueue (d : Dev) (q : Queue) : Dev :=
  (d.launches.filter fun l =>
      match d.queueOf l with | some x => decide (x.job = q.job) && decide (x.num = q.num) | none => false).foldl
    (fun d l => (sortNat ((d.blocks.filter fun b => decide (b.launch = l.tag) && decide (b.residency = .resident)).map Block.index)).foldl
      (fun d b => d.requestHalt l b true false) d) d

/-- R341, R342: a queue has held a slot for the slice while another waits and no slot is free: the slot goes to that one, and the resident blocks
of the first one's launches are pre-empted. Else there is no effect. -/
def execPackageSliceExpiry (slot : Nat) (s : State) : Host.Outcome State Fault Refusal :=
  commit s <|
    match s.dev.queues.find? (fun q => decide (q.slot = some slot)), s.dev.slotNext with
    | some q, some x =>
      if s.dev.slotFree.isSome ∨ s.dev.time < q.since + s.dev.regs.sliceNs then []
      else [.dev (((s.dev.haltQueue q).setQueue { q with slot := none, since := s.dev.time }).giveSlot x slot)]
    | _, _ => []

end Sys2Proof.Machine
end

