-- ==== Sys2Proof/Machine/Dumps.lean ====
section
/-!
DEFINITION. What the host does to a running job: answers to page faults (R322), dumps (R367 to R370), and the debugger's requests (R54, R382,
R384).
-/

namespace Sys2Proof.Machine

/-! ### Fault control (R322) -/

/-- Requests of other packages that wait for no page fault are performed, unless a dump or a range holds them. -/
def serveHeld : Part := fun s =>
  let now (h : HeldRequest) : Bool := h.index.isNone && !s.dev.dumpHolds h.req.job && !s.serveWaits h.req
  let hs := s.dev.heldReqs.filter now
  if hs.isEmpty then []
  else Part.seq [
    Part.mod (fun d => { d with heldReqs := d.heldReqs.filter fun h => !now h }),
    Part.each hs (fun h => serve h.req h.done none)] s

/-- The held operations and requests of a job that a write of a die's fault control names. -/
def Dev.namedOps (d : Dev) (die : Nat) (all : Bool) (idx job : Nat) : List EngineOp :=
  d.ops.filter fun p => p.held.isSome && decide (p.die = die) && decide (p.job = job) && (all || decide (p.index = idx))
def HeldRequest.named (h : HeldRequest) (die : Nat) (all : Bool) (idx job : Nat) : Bool :=
  decide (h.req.link / 3 = die) && decide (h.req.job = job) &&
    match h.index with
    | some k => all || decide (k = idx)
    | none => false

/-- A write of fault control with FAIL 0. -/
def faultReplay (die : Nat) (all : Bool) (idx job : Nat) : Part :=
  Part.seq [
    Part.mod (fun d => { d with
      ops := (d.namedOps die all idx job).foldl (fun ops p => upsert (fun x => decide (x.id = p.id)) { p with held := none } ops) d.ops
      heldReqs := d.heldReqs.map fun h => if h.named die all idx job then { h with index := none } else h }),
    serveHeld]

/-- R322: held entries are replayed from where they stand; an index that is not held is ignored. -/
def execFaultReplay (die : Nat) (all : Bool) (idx job : Nat) (s : State) : Host.Outcome State Fault Refusal :=
  commit s (faultReplay die all idx job s)

/-- A write of fault control with FAIL 1. -/
def faultFail (die : Nat) (all : Bool) (idx job : Nat) : Part := fun s =>
  let hs := s.dev.heldReqs.filter fun h => h.named die all idx job
  Part.seq [
    Part.mod (fun d => { d with heldReqs := d.heldReqs.filter fun h => !h.named die all idx job }),
    Part.each (s.dev.namedOps die all idx job) (fun p =>
      match p.kind with
      | .gat size => failLanes { p with held := none } size 0x31 2 (p.lanes.map GatLane.lane)
      | _ => failOp p 0x31 2 p.done (match p.held with | some h => h.va | none => 0)),
    Part.each hs (fun h => reply h.req [0x31, 2])] s

/-- R322: held entries fail with ACCESS, CAUSE 2; of a gather, the lanes that are left (R275). -/
def execFaultFail (die : Nat) (all : Bool) (idx job : Nat) (s : State) : Host.Outcome State Fault Refusal :=
  commit s (faultFail die all idx job s)

/-! ### Dumps (R367 to R370) -/

/-- DUMPCTL with DID, JOB, DONE and PART. -/
def dumpWord (did job : Nat) (isDone part : Bool) : Dword :=
  BitVec.ofNat 64 (did % 2 ^ 16 + isDone.toNat * 2 ^ 17 + part.toNat * 2 ^ 18 + job % 2 ^ 32 * 2 ^ 32)

/-- Bytes that the spec gives no layout, from a free number on (log 15). -/
def freeBytes (base n : Nat) : List Byte := (countFrom base n).map Config.freeByte

/-- The first byte of the dump area. -/
def Regs.dumpArea (r : Regs) : Nat := r.dumpb.toNat / 4096 * 4096

/-- Groups of a job that have not ended, by launch, block and group as they stand. -/
def Dev.dumpGroups (d : Dev) (job : Nat) : List (Group × Launch) :=
  d.groups.filterMap fun g =>
    match d.launch? g.key.launch with
    | some l => if l.job = job ∧ g.run ≠ .ended then some (g, l) else none
    | none => none

/-- Whether a group on a core runs on towards a stop site. -/
def Group.onWay (g : Group) : Bool := g.place.isSome && (decide (g.run = .running) || decide (g.run = .halting))

/-- Bytes of a group's part, and of a block's save area (R303). -/
def Launch.groupArea (l : Launch) : Nat :=
  let w := 8 * 2 ^ l.width
  192 + (16 + 256 + 128 + (if l.xregs then 256 else 0) + 128 + l.spill) * w
def Launch.blockArea (l : Launch) : Nat := l.saveHeld / max l.nblocks 1

/-- A group's entry of 16 bytes: its saved state's place, or where it runs (R145, R369). -/
def State.dumpEntry (s : State) (g : Group) (l : Launch) (save : Nat) : List Byte :=
  let at_ := if g.onWay then (s.sampleOf g l).2.2 else match g.liveLanes with | m :: _ => l.locate (g.lane m).pc | [] => (0, 0)
  leBytes 4 g.key.block ++ leBytes 1 g.key.group ++ leBytes 1 g.onWay.toNat ++ leBytes 2 at_.2 ++ leBytes 4 at_.1 ++
    leBytes 4 (if g.onWay then 0 else save)

/-- The blocks of some groups, each once, in order. -/
def blocksOf : List (Group × Launch) → List (Nat × Nat × Nat) → List (Nat × Nat × Nat)
  | [], acc => acc
  | (g, l) :: r, acc =>
    if acc.any fun e => decide (e.1 = l.tag) && decide (e.2.1 = g.key.block) then blocksOf r acc
    else blocksOf r (acc ++ [(l.tag, g.key.block, l.blockArea)])

/-- Where a group's part lies among the saves: the block areas before its own, and the groups before it in its block. -/
def saveAt (tag block : Nat) : List (Nat × Nat × Nat) → Nat
  | [] => 0
  | e :: r => if e.1 = tag ∧ e.2.1 = block then 0 else e.2.2 + saveAt tag block r

/-- The header of the dump area (R369). -/
def dumpHeader (d : Dev) (x : Dump) (channels : Nat) : List Byte :=
  leBytes 2 x.did ++ leBytes 2 d.package ++ leBytes 4 x.job ++ leBytes 8 (x.cut.getD 0) ++ leBytes 4 x.entries ++ leBytes 4 channels ++
    leBytes 4 (x.part.toNat + 2 * (!x.lost.isEmpty).toNat) ++ List.replicate 36 0

/-- Markers of a dump on channels 0 to 2 of every link that is up. -/
def Dev.sendMarkers (d : Dev) (did job : Nat) : Dev :=
  ((countFrom 0 18).filter d.regs.linkUp).foldl (fun d n => (countFrom 0 3).foldl (fun d v => d.sendFlit n v job (.marker did)) d) d

/-- The code of a lane's state in a save: the states in the order of R24 (log 15). -/
def LaneMode.code : LaneMode → Nat
  | .free => 0
  | .live => 1
  | .helper _ => 2

/-- A group's part of a save, its pieces in the order of R303's table, each lane by lane (log 15); `base`: the number of the first free byte, for
what the spec gives no content. -/
def State.groupSave (s : State) (g : Group) (l : Launch) (base : Nat) : List Byte :=
  let lanes := countFrom 0 g.width
  leBytes 8 g.gsr.toNat ++ leBytes 4 g.mxs.toNat ++ leBytes 2 g.sA.toNat ++ leBytes 2 g.sB.toNat ++
  ((countFrom 0 16).flatMap fun k => leBytes 8 (cellGet g.stall k).toNat) ++
  ((countFrom 3 5).flatMap fun k => leBytes 8 (cellGet g.q k).toNat) ++ freeBytes base 8 ++
  (lanes.flatMap fun m =>
    let x := g.lane m
    leBytes 8 x.pc.toNat ++ leBytes 2 x.pw.toNat ++ leBytes 1 x.wb.toNat ++ leBytes 4 x.ssp.toNat ++ leBytes 1 x.mode.code) ++
  (lanes.flatMap fun m => (countFrom 0 64).flatMap fun n => leBytes 4 (cellGet (g.lane m).v n).toNat) ++
  (lanes.flatMap fun m => (countFrom 0 16).flatMap fun n => leBytes 8 (cellGet (g.lane m).m n).toNat) ++
  (if !l.xregs then []
    else match s.dev.savedX g with
      | some c => lanes.flatMap fun m => (countFrom 0 64).flatMap fun r => leBytes 4 (cellGet c (64 * m + r)).toNat
      | none => freeBytes (base + 8) (256 * g.width)) ++
  ((countFrom 0 (g.width / 8)).flatMap fun o => (countFrom 0 8).flatMap fun r =>
    match (g.latches.find? fun x => decide (x.octet = o)).bind fun x => x.rows.find? fun e => decide (e.1 = r) with
    | some e => leBytes 128 e.2
    | none => freeBytes (base + 8 + 256 * g.width + 1024 * o + 128 * r) 128) ++
  lanes.flatMap fun m => bytesAt s.stk (stkAddr g.key m 0) l.spill

/-- A block's save: its groups, one that has ended or runs on with free bytes, then its memory, its race records, its tiles and its barriers: of the
records and the barriers R303 gives the sizes alone (log 15). -/
def State.blockSave (s : State) (l : Launch) (block base : Nat) : List Byte :=
  let n := l.groupArea
  ((countFrom 0 l.groups).flatMap fun k =>
    match s.dev.group? ⟨l.tag, block, k⟩ with
    | some g => if g.run = .ended ∨ g.onWay = true then freeBytes (base + n * k) n else s.groupSave g l (base + n * k)
    | none => freeBytes (base + n * k) n) ++
  bytesAt s.blk (blkAddr l.tag block 0) l.blkMem ++
  freeBytes (base + n * l.groups) (12 * (l.blkMem / 32)) ++
  (match s.dev.block? l.tag block with
    | some b => (countFrom 0 (4096 * l.acct)).flatMap fun e => leBytes 4 (cellGet b.tiles e).toNat
    | none => []) ++
  freeBytes (base + n * l.groups + 12 * (l.blkMem / 32)) 2304

/-- The cut: the package record is written, and the markers are sent. After the group entries stand the saves of the blocks, the job's pad
units and its operand log entries (log 15). -/
def dumpCut (x : Dump) : Part := fun s =>
  let d := s.dev
  let gs := d.dumpGroups x.job
  let blocks := blocksOf gs []
  let units : List Nat := match d.job? x.job with | some j => j.grants | none => []
  let logs := (d.ops.filter fun p => decide (p.job = x.job)).length
  let first := 64 + 16 * gs.length
  let entries := gs.flatMap fun e => s.dumpEntry e.1 e.2 (first + saveAt e.2.tag e.1.key.block blocks + e.1.key.group * e.2.groupArea)
  let saves := natSum (blocks.map fun e => e.2.2)
  let save (e : Nat × Nat × Nat) : List Byte :=
    match d.launch? e.1 with
    | some l => s.blockSave l e.2.1 (d.free + saveAt e.1 e.2.1 blocks)
    | none => []
  let data := blocks.flatMap save ++ units.flatMap (fun u => bytesAt s.pad (u * 2 ^ 21) (2 ^ 21)) ++ freeBytes (d.free + saves) (640 * logs)
  let y : Dump := { x with
    cut := some d.time
    part := x.part || gs.any fun e => e.1.onWay
    entries := gs.length
    saved := first + data.length }
  storeBytes .host d.regs.dumpArea (dumpHeader d y 0 ++ entries ++ data) ++
    [.dev ({ d with
      dump := some y
      free := d.free + saves + 640 * logs
      regs := { d.regs with dumpctl := dumpWord x.did x.job false y.part } }.sendMarkers x.did x.job)]

/-- The channels of a dump, marked or lost, by link and channel. -/
def Dump.channels (x : Dump) : List (Nat × Nat) :=
  (countFrom 0 18).flatMap fun n => ((countFrom 0 3).map fun v => (n, v)).filter fun c => x.marked.contains c || x.lost.contains c

/-- The channel records of a dump (R369). -/
def Dump.records (x : Dump) : List Byte :=
  x.channels.flatMap fun c =>
    let fs := x.held.filter fun h => decide ((h.1, h.2.1) = c)
    leBytes 1 c.1 ++ leBytes 1 c.2 ++ leBytes 1 (x.lost.contains c).toNat ++ leBytes 1 0 ++ leBytes 4 fs.length ++ leBytes 8 0 ++
      fs.flatMap fun h => h.2.2

/-- A dump goes on: the cut, once its groups have halted, then DONE, once every channel that is up has its marker. -/
def dumpGoesOn : Part :=
  Part.andThen
    (fun s =>
      match s.dev.dump with
      | some x => if x.cut.isNone && !(s.dev.dumpGroups x.job).any (fun e => e.1.onWay) then dumpCut x s else []
      | none => [])
    (fun s =>
      match s.dev.dump with
      | some x =>
        let open_ : Bool := ((countFrom 0 18).filter s.dev.regs.linkUp).any fun n =>
          (countFrom 0 3).any fun v => !x.marked.contains (n, v) && !x.lost.contains (n, v)
        if x.cut.isNone || x.complete || open_ then []
        else
          storeBytes .host s.dev.regs.dumpArea (dumpHeader s.dev x x.channels.length) ++
          storeBytes .host (s.dev.regs.dumpArea + x.saved) x.records ++
          [.dev { s.dev with
            dump := some { x with complete := true }
            regs := { s.dev.regs with dumpctl := dumpWord x.did x.job true x.part } }]
      | none => [])

/-- Whether a job is live here. -/
def Dev.live (d : Dev) (job : Nat) : Bool := match d.job? job with | some j => j.ending.isNone | none => false

/-- A dump starts. A package on which the job is not live records nothing, sends the markers once and sets DONE. -/
def dumpStart (did job : Nat) (marked : List (Nat × Nat)) : Part := fun s =>
  if s.dev.live job then
    Part.seq [
      Part.mod (fun d => { d with
        regs := { d.regs with dumpctl := dumpWord did job false false }
        dump := some ⟨did, job, d.time, none, marked, [], [], false, 0, 0, false⟩ }),
      dumpGoesOn] s
  else [.dev ({ s.dev with regs := { s.dev.regs with dumpctl := dumpWord did job true false } }.sendMarkers did job)]

/-- GO: ignored while a dump is under way (R370). -/
def dumpGo (v : Nat) : Part := fun s =>
  let did := v % 2 ^ 16
  let job := v / 2 ^ 32
  if s.dev.dump.isSome then []
  else Part.seq [
    Part.mod fun d => { d with abandoned := d.abandoned.filter fun e => decide (e ≠ (did, job)) },
    dumpStart did job []] s

/-- R367: the host starts a dump. -/
def execDumpGo (v : Dword) (s : State) : Host.Outcome State Fault Refusal := commit s (dumpGo v.toNat s)

/-- REL: what the dump held goes on. -/
def dumpRelease : Part := fun s =>
  match s.dev.dump with
  | none => []
  | some x =>
    let mine (g : Group) : Bool := match s.dev.launch? g.key.launch with | some l => decide (l.job = x.job) | none => false
    Part.seq [
      Part.mod (fun d => { d with
        dump := none
        groups := d.groups.map fun g => if g.run = .dumped ∧ mine g = true then { g with run := .running } else g }),
      serveHeld] s

/-- R367: the host releases a dump. -/
def execDumpRel (s : State) : Host.Outcome State Fault Refusal := commit s (dumpRelease s)

/-- R367, R370: a marker arrives on a channel: the channel's flits before it are recorded, and the first marker of a dump starts it here. A
marker of another dump while one is under way is ignored, and one of a dump that this package has done, or that its job's end has abandoned. -/
def execDumpMarker (link vc did job : Nat) (s : State) : Host.Outcome State Fault Refusal :=
  commit s <|
    if 18 ≤ link ∨ 3 ≤ vc ∨ s.dev.regs.linkUp link = false then []
    else match s.dev.dump with
      | some x =>
        if x.did ≠ did ∨ x.job ≠ job ∨ x.marked.contains (link, vc) then []
        else Part.seq [Part.mod (fun d => { d with dump := some { x with marked := x.marked ++ [(link, vc)] } }), dumpGoesOn] s
      | none =>
        let c := s.dev.regs.dumpctl.toNat
        if s.dev.abandoned.contains (did, job) ∨ (bitAt c 17 ∧ c % 2 ^ 16 = did ∧ c / 2 ^ 32 = job) then [] else dumpStart did job [(link, vc)] s

/-- R367: the groups of a dumped job have had DUMPW to reach stop sites: the cut is made as they stand. Else there is no effect. -/
def execDumpHaltTimeout (s : State) : Host.Outcome State Fault Refusal :=
  commit s <|
    match s.dev.dump with
    | none => []
    | some x =>
      if x.cut.isSome ∨ s.dev.time < x.started + 1000 * s.dev.regs.dumpw.toNat then []
      else Part.andThen (dumpCut x) dumpGoesOn s

/-! ### The debugger (R54, R382, R384) -/

/-- The group of the debugged job that IDENT names. -/
def Dev.identGroup (d : Dev) (ident : Nat) : Option (Group × Launch) :=
  if d.regs.dbgJob.toNat = 0 then none
  else (d.dumpGroups d.regs.dbgJob.toNat).find? fun e => e.1.place.isSome && decide (identOf e.1 = ident)

/-- The group that IDENT names for RES: one of the debugged job, or one that a watchpoint of that job has stopped (R371, R382). -/
def Dev.resGroup (d : Dev) (ident : Nat) : Option Group :=
  let job := d.regs.dbgJob.toNat
  if job = 0 then none
  else d.groups.find? fun g =>
    g.place.isSome && decide (identOf g = ident) && decide (g.run = .stopped) &&
    (decide (d.jobFor g.key = job) || decide (g.trap.map Prod.fst = some job))

/-- A stopped group goes on: past its `brk` word, and halting where its block does. -/
def Dev.resumeGroup (d : Dev) (g : Group) (stopAt : Option Nat) : Dev :=
  let halting : Bool := match d.block? g.key.launch g.key.block with | some b => decide (b.residency = .halting) | none => false
  let g1 := match g.pastBrk with
    | some pc => g.modLanes g.laneNos fun _ x => if x.pc = pc ∧ x.hold.isNone ∧ x.mode ≠ LaneMode.free then { x with pc := pcNext pc } else x
    | none => g
  d.setGroup { g1 with run := if halting then .halting else .running, pastBrk := none, trap := none, stopAt := stopAt }

/-- RES of DBGCTL. -/
def debugResume (ident : Nat) : Part := Part.mod fun d =>
  match d.resGroup ident with
  | some g => d.resumeGroup g g.stopAt
  | none => d

/-- The boundary after a word and those chained to it. -/
def Launch.afterWord (l : Launch) (loc : Pc) : Pc :=
  pcNext (mkPc (pcPkt loc) ((l.nextWords loc).getLastD (slotted l (pcPkt loc) (pcSlot loc))).slot)

/-- STEP of DBGREQ: a group that stands at a stop site passes it, also one that a WATCH stopped there. -/
def debugStep (ident : Nat) : Part := Part.mod fun d =>
  match d.identGroup ident with
  | some (g, l) =>
    if g.run = .stopped then
      d.resumeGroup { g with skipSite := match g.trap with | some t => some (l.afterWord t.2) | none => g.skipSite } (some 2)
    else d
  | none => d

/-- STOP of DBGREQ: for a group that is stopped already it takes effect at the next stop site that the group reaches (R54). -/
def debugStop (ident : Nat) : Part := Part.mod fun d =>
  match d.identGroup ident with
  | some (g, _) => d.setGroup { g with stopAt := some 1 }
  | none => d

/-- STOP of DBGREQ with ALL. -/
def debugStopAll : Part := Part.mod fun d =>
  if d.regs.dbgJob.toNat = 0 then d
  else (d.dumpGroups d.regs.dbgJob.toNat).foldl (fun d e => d.setGroup { e.1 with stopAt := some 1 }) d

/-- PRE of DBGREQ: the block or gang leaves, and stays saved; one that is on its way out stays saved too. -/
def debugPreempt (ident : Nat) : Part := Part.mod fun d =>
  match d.identGroup ident with
  | none => d
  | some (g, l) =>
    let d1 := d.requestHalt l g.key.block false true
    let bs := l.together g.key.block
    let mine (b : Block) : Bool := decide (b.launch = l.tag) && bs.contains b.index && decide (b.residency = .halting)
    if d1.blocks.any mine then
      ({ d1 with blocks := d1.blocks.map fun b => if mine b then { b with requeue := false, byDebugger := true } else b }).modLaunch l.tag
        fun l => { l with back := l.back.filter fun u => decide (u ≠ l.unit g.key.block) }
    else d1

/-- REL of DBGREQ: a block held by PRE, named by where it is or was, goes back to its launch's queue. -/
def debugRelease (ident : Nat) : Part := Part.mod fun d =>
  let named (g : Group) : Bool := decide (identOf { g with place := if g.place.isSome then g.place else g.was } = ident) &&
    (g.place.isSome || g.was.isSome)
  let held (e : Group × Launch) : Bool :=
    match d.block? e.1.key.launch e.1.key.block with | some b => b.byDebugger | none => false
  if d.regs.dbgJob.toNat = 0 then d
  else match (d.dumpGroups d.regs.dbgJob.toNat).find? fun e => named e.1 && held e with
    | none => d
    | some (g, l) =>
      let bs := l.together g.key.block
      let mine (b : Block) : Bool := decide (b.launch = l.tag) && bs.contains b.index && b.byDebugger
      let saved : Bool := (d.blocks.filter mine).all fun b => decide (b.residency = .saved)
      let d1 : Dev := { d with blocks := d.blocks.map fun b => if mine b then { b with byDebugger := false } else b }
      if saved && !l.persistent then d1.modLaunch l.tag fun x => { x with back := x.back ++ [l.unit g.key.block] } else d1

/-- R382: RES. -/
def execDebugResume (ident : BitVec 16) (s : State) : Host.Outcome State Fault Refusal := commit s (debugResume ident.toNat s)
/-- R384: STOP. -/
def execDebugStop (ident : BitVec 16) (s : State) : Host.Outcome State Fault Refusal := commit s (debugStop ident.toNat s)
/-- R384: STOP with ALL. -/
def execDebugStopAll (s : State) : Host.Outcome State Fault Refusal := commit s (debugStopAll s)
/-- R384: STEP. -/
def execDebugStep (ident : BitVec 16) (s : State) : Host.Outcome State Fault Refusal := commit s (debugStep ident.toNat s)
/-- R384: PRE. -/
def execDebugPreempt (ident : BitVec 16) (s : State) : Host.Outcome State Fault Refusal := commit s (debugPreempt ident.toNat s)
/-- R384: REL. -/
def execDebugRelease (ident : BitVec 16) (s : State) : Host.Outcome State Fault Refusal := commit s (debugRelease ident.toNat s)

end Sys2Proof.Machine
end

