-- ==== Sys2Proof/Machine/Exchange.lean ====
section
/-!
DEFINITION. The exchanges of a batch: opcodes 0x30 to 0x33 (R164 to R168).
-/

namespace Sys2Proof.Machine

/-- A receiver's value of register `n`: that of its source lane where it is a source, its own otherwise (R164). -/
def exchanged (d : Dev) (g : Group) (c : Issue) (n k : Nat) (j : Option Nat) : Word :=
  match j with
  | some m => if c.on.contains m then srcV d g c m n else srcV d g c k n
  | none => srcV d g c k n

/-- An exchange of one register (R164). -/
def exchangeWord (i : Instr) (d a : Reg) (src : Dev → Group → Issue → Nat → Option Nat) (s : State) : List Act :=
  word i (fun c g _ s =>
    retire c.g i.latency (c.on.flatMap fun k =>
      outRun g k d.toNat 1 (exchanged s.dev g c a.toNat k (src s.dev g c k)).toNat) s) s

/-- `qx.h` (R165). -/
def execQxH (d : Reg) (a : Reg) (s : State) : Host.Outcome State Fault Refusal :=
  commit s (exchangeWord (.qxH d a) d a (fun _ _ _ k => some (k ^^^ 1)) s)

/-- `qx.v` (R165). -/
def execQxV (d : Reg) (a : Reg) (s : State) : Host.Outcome State Fault Refusal :=
  commit s (exchangeWord (.qxV d a) d a (fun _ _ _ k => some (k ^^^ 2)) s)

/-- `qx.d` (R165). -/
def execQxD (d : Reg) (a : Reg) (s : State) : Host.Outcome State Fault Refusal :=
  commit s (exchangeWord (.qxD d a) d a (fun _ _ _ k => some (k ^^^ 3)) s)

/-- `qx.bc` (R165). -/
def execQxBc (d : Reg) (a : Reg) (i : BitVec 2) (s : State) : Host.Outcome State Fault Refusal :=
  commit s (exchangeWord (.qxBc d a i) d a (fun _ _ _ k => some (4 * (k / 4) + i.toNat)) s)

/-- A lane index below the width, or none. -/
def inWidth (g : Group) (j : Nat) : Option Nat := if j < g.width then some j else none

/-- `xlane.flip` (R166). -/
def execXlaneFlip (d : Reg) (a : Reg) (b : Reg) (s : State) : Host.Outcome State Fault Refusal :=
  commit s (exchangeWord (.xlaneFlip d a b) d a
    (fun dv g c k => inWidth g (k ^^^ (srcV dv g c k b.toNat).toNat)) s)

/-- `xlane.pick` (R166). -/
def execXlanePick (d : Reg) (a : Reg) (b : Reg) (s : State) : Host.Outcome State Fault Refusal :=
  commit s (exchangeWord (.xlanePick d a b) d a
    (fun dv g c k => inWidth g (srcV dv g c k b.toNat).toNat) s)

/-- `xlane.lo` (R166). -/
def execXlaneLo (d : Reg) (a : Reg) (b : Reg) (s : State) : Host.Outcome State Fault Refusal :=
  commit s (exchangeWord (.xlaneLo d a b) d a
    (fun dv g c k => let w := (srcV dv g c k b.toNat).toNat; if w ≤ k then some (k - w) else none) s)

/-- `xlane.hi` (R166). -/
def execXlaneHi (d : Reg) (a : Reg) (b : Reg) (s : State) : Host.Outcome State Fault Refusal :=
  commit s (exchangeWord (.xlaneHi d a b) d a
    (fun dv g c k => inWidth g (k + (srcV dv g c k b.toNat).toNat)) s)

/-- `xlane.rot` (R166). -/
def execXlaneRot (d : Reg) (a : Reg) (b : Reg) (s : State) : Host.Outcome State Fault Refusal :=
  commit s (exchangeWord (.xlaneRot d a b) d a
    (fun dv g c k => some ((k + (srcV dv g c k b.toNat).toNat) % g.width)) s)

/-- The voters of a batch: receivers that are no helpers (R164). -/
def voters (g : Group) (c : Issue) : List Nat := c.on.filter g.isLive

/-- `ballot` (R167). -/
def execBallot (d : Reg) (a : Reg) (s : State) : Host.Outcome State Fault Refusal :=
  commit s (word (.ballot d a) (fun c g _ s =>
    let x := natSum (((voters g c).filter fun k => (g.lane k).predF a.toNat).map fun k => 2 ^ k)
    retire c.g (Instr.ballot d a).latency (c.on.flatMap fun k => outRun g k d.toNat 2 x) s) s)

/-- `agree`: one predicate for every receiver, from the voters' predicates (R167). -/
def agreeWord (i : Instr) (d a : Reg) (f : List Bool → Bool) (s : State) : List Act :=
  word i (fun c g _ s =>
    let x := f ((voters g c).map fun k => (g.lane k).predF a.toNat)
    retire c.g i.latency (c.on.flatMap fun k => outPred k d.toNat x) s) s

/-- `agree.all` (R167). -/
def execAgreeAll (d : Reg) (a : Reg) (s : State) : Host.Outcome State Fault Refusal :=
  commit s (agreeWord (.agreeAll d a) d a (fun xs => xs.all id) s)

/-- `agree.any` (R167). -/
def execAgreeAny (d : Reg) (a : Reg) (s : State) : Host.Outcome State Fault Refusal :=
  commit s (agreeWord (.agreeAny d a) d a (fun xs => xs.any id) s)

/-- `agree.same` (R167). -/
def execAgreeSame (d : Reg) (a : Reg) (s : State) : Host.Outcome State Fault Refusal :=
  commit s (agreeWord (.agreeSame d a) d a (fun xs => xs.all id || xs.all not) s)

/-- The exact sum of FP32 terms, rounded once (R168). -/
def sumF32 (mode : Rm) (xs : List Nat) : Res :=
  let vs := xs.map fmtF32.value
  if vs.any Val.isNan then ⟨fmtF32.nan, {}⟩
  else
    match vs with
    | [] => ⟨0, {}⟩
    | v :: r =>
      arithRes fmtF32 mode false false
        (r.foldl (fun (a : Option Val) x => match a with | some y => addVal mode y x | none => none) (some v))

/-- The combination of values under a `redux` operation (R168). -/
def reduxOf (k : ROp) (mode : Rm) (xs : List Word) : Nat × Flags :=
  let smin (a b : Word) : Word := if a.toInt ≤ b.toInt then a else b
  let smax (a b : Word) : Word := if a.toInt ≤ b.toInt then b else a
  let fold (f : Word → Word → Word) (z : Word) : Nat × Flags := ((xs.foldl f z).toNat, {})
  match k with
  | .add => fold (· + ·) 0
  | .minS32 => fold smin 0x7FFFFFFF
  | .minZ32 => fold (fun a b => if a.toNat ≤ b.toNat then a else b) 0xFFFFFFFF
  | .maxS32 => fold smax 0x80000000
  | .maxZ32 => fold (fun a b => if a.toNat ≤ b.toNat then b else a) 0
  | .and => fold (· &&& ·) 0xFFFFFFFF
  | .or => fold (· ||| ·) 0
  | .xor => fold (· ^^^ ·) 0
  | .addF32 => let r := sumF32 mode (xs.map BitVec.toNat); (r.bits, r.fl)
  | .minF32 => (pick false 0x7F800000 (xs.map BitVec.toNat), {})
  | .maxF32 => (pick true 0xFF800000 (xs.map BitVec.toNat), {})
where
  /-- The least or greatest of some FP32 values (R111), or the identity; a NaN is the canonical one (R69). -/
  pick (isMax : Bool) (z : Nat) : List Nat → Nat
    | [] => z
    | [x] => if (fmtF32.value x).isNan then fmtF32.nan else x
    | x :: r => r.foldl (fpMinMax fmtF32 isMax) x

/-- A combination over the voters whose lane index a receiver selects (R168); the flags are those of results in lanes
that are no helpers. -/
def reduxWord (i : Instr) (d a : Reg) (k : ROp) (keep : Nat → Nat → Bool) (s : State) : List Act :=
  word i (fun c g _ s =>
    let r (l : Nat) : Nat × Flags :=
      reduxOf k g.rm (((voters g c).filter (keep l)).map fun m => srcV s.dev g c m a.toNat)
    retire c.g i.latency
      ((c.on.flatMap fun l => outRun g l d.toNat 1 (r l).1) ++
        outFlags (joinBits ((voters g c).map fun l => (r l).2))) s) s

/-- `redux` (R168). -/
def execRedux (d : Reg) (a : Reg) (k : ROp) (s : State) : Host.Outcome State Fault Refusal :=
  commit s (reduxWord (.redux d a k) d a k (fun _ _ => true) s)

/-- `redux.xscan` (R168). -/
def execReduxXscan (d : Reg) (a : Reg) (k : ROp) (s : State) : Host.Outcome State Fault Refusal :=
  commit s (reduxWord (.reduxXscan d a k) d a k (fun l m => decide (m < l)) s)

/-- `redux.iscan` (R168). -/
def execReduxIscan (d : Reg) (a : Reg) (k : ROp) (s : State) : Host.Outcome State Fault Refusal :=
  commit s (reduxWord (.reduxIscan d a k) d a k (fun l m => decide (m ≤ l)) s)

end Sys2Proof.Machine
end

