-- ==== Sys2Proof/Machine/Host.lean ====
section
/-!
DEFINITION. The host port: registers (R329 and the rules it names), the host window (R328), measurement and attestation (R346, R347), health
(R348, R351), and reset and power (R11, R346).
-/

namespace Sys2Proof.Machine

/-- A list cut or filled with 0 to `n` bytes. -/
def fitBytes (n : Nat) (bs : List Byte) : List Byte := bs.take n ++ List.replicate (n - bs.length) 0

/-! ### Measurement and attestation (R346, R347) -/

/-- The word at 0x0238 of EXTEND written: MR2 is extended by the 64 bytes. -/
def extendLast (last : Dword) : Part := Part.mod fun d =>
  let ws := cellSet d.regs.extend 7 last
  let bs := (countFrom 0 8).flatMap fun k => leBytes 8 (cellGet ws k).toNat
  { d with regs := { d.regs with extend := ws }, trust := { d.trust with mr2 := sha512 (d.trust.mr2 ++ bs) } }

/-- EXTEND (R346). -/
def execExtend (last : Dword) (s : State) : Host.Outcome State Fault Refusal := commit s (extendLast last s)

/-- A nonce: it is served at once, or it waits while another is signed. -/
def takeNonce (n : BitVec 256) : Part := Part.mod fun d =>
  { d with trust := if d.trust.signing.isNone then { d.trust with signing := some n, report := [] }
      else { d.trust with waiting := d.trust.waiting ++ [n] } }

/-- NONCE (R347). -/
def execNonce (n : BitVec 256) (s : State) : Host.Outcome State Fault Refusal := commit s (takeNonce n s)

/-- The bytes of a report that are signed: 0x000 to 0x17F. -/
def reportHead (t : Trust) (now : Nat) (n : BitVec 256) : List Byte :=
  leBytes 4 0x54414A4F ++ leBytes 2 1 ++ leBytes 2 0 ++ leBytes 8 Config.serial.toNat ++ leBytes 8 Config.version.toNat ++ leBytes 8 now ++
    leBytes 32 n.toNat ++ fitBytes 64 t.mr0 ++ fitBytes 64 t.mr1 ++ fitBytes 64 t.mr2 ++ zero64 ++ fitBytes 64 Config.defectHash

/-- R347: the report of the nonce being signed is ready; the next one that waits is served. Else there is no effect. -/
def execReportSigned (s : State) : Host.Outcome State Fault Refusal :=
  commit s <|
    match s.dev.trust.signing with
    | none => []
    | some n =>
      let head := reportHead s.dev.trust s.dev.time n
      [.dev { s.dev with trust := { s.dev.trust with
        signing := s.dev.trust.waiting.head?
        waiting := s.dev.trust.waiting.tail
        report := head ++ fitBytes 512 (Config.signature head) } }]

/-! ### Health (R348, R351) -/

/-- VOFF kept within −20 to 20, as 8 bits. -/
def clampVoff (v : Nat) : Nat :=
  let x : Int := (BitVec.ofNat 8 v).toInt
  (BitVec.ofInt 8 (max (-20) (min 20 x))).toNat

/-- A write of a die's margin register: ignored while a job has a resident block on the die; ERRS is cleared where 1 is written. -/
def marginWrite (die : Nat) (v : Nat) : Part := Part.mod fun d =>
  let busy : Bool := d.blocks.any fun b => b.placed && decide (b.cluster.map Prod.fst = some die)
  if busy ∨ 8 ≤ die then d
  else
    let old := (cellGet d.regs.margin die).toNat
    let errs := (BitVec.ofNat 32 (bits old 26 32) &&& ~~~ BitVec.ofNat 32 (bits v 26 32)).toNat
    d.modRegs fun r => { r with margin := cellSet r.margin die (BitVec.ofNat 64 (clampVoff (v % 2 ^ 8) + bits v 8 18 * 2 ^ 8 + errs * 2 ^ 26)) }

/-- MARGIN_WRITE (R348). -/
def execMarginWrite (die : Nat) (v : Dword) (s : State) : Host.Outcome State Fault Refusal := commit s (marginWrite die v.toNat s)

/-- A sensor of a die reads anew: a temperature, or the ageing of a cluster of a compute die (R348). -/
def sensorReads (die n : Nat) (v : BitVec 16) : Part := Part.mod fun d =>
  if 8 ≤ die then d
  else if n < 4 then d.modRegs fun r => { r with temp := cellSet r.temp (4 * die + n) v }
  else if n < 29 ∧ die < 6 then d.modRegs fun r => { r with ageing := cellSet r.ageing (32 * die + (n - 4)) (v ^^^ 0xFFFF) }
  else d

/-- ERRS of a die's margin register: the bit errors seen (R348). -/
def marginErrors (die : Nat) (v : BitVec 32) : Part := Part.mod fun d =>
  if 8 ≤ die then d
  else d.modRegs fun r =>
    { r with margin := cellSet r.margin die (BitVec.ofNat 64 (putBits (cellGet r.margin die).toNat 26 32 v.toNat)) }

/-- A write of PCAP: from 2,200 W to 2,800 W. -/
def pcapWrite (v : Nat) : Part := Part.mod fun d =>
  d.modRegs fun r => { r with pcap := BitVec.ofNat 64 (max 2200 (min 2800 v)) }

/-- PCAP_WRITE (R351). -/
def execPcapWrite (v : Dword) (s : State) : Host.Outcome State Fault Refusal := commit s (pcapWrite v.toNat s)

/-! ### Register writes (R328, R329) -/

/-- The 64 bits that a write gives an 8-byte slot: one of 4 bytes leaves the other half as it stands in `old`. -/
def mergeHalf (old off : Nat) (four : Bool) (v : Nat) : Nat :=
  if !four then v
  else if off % 8 = 4 then old % 2 ^ 32 + v % 2 ^ 32 * 2 ^ 32
  else old / 2 ^ 32 * 2 ^ 32 + v % 2 ^ 32

/-- Bits of `old` cleared where `v` holds 1, from `lo` on. -/
def clearOnes (old v lo len : Nat) : Nat :=
  putBits old lo len ((BitVec.ofNat 64 (bits old lo len) &&& ~~~ BitVec.ofNat 64 (bits v lo len)).toNat)

/-- The job that OBSSEL names changed. -/
def Dev.modObs (d : Dev) (f : Job → Job) : Dev := d.modJob d.regs.obssel.toNat f

/-- A write of one of a ring's registers: base, size, producer, consumer, drops (R377). -/
def Ring.write (r : Ring) (k off : Nat) (four : Bool) (v : Nat) : Ring :=
  match k with
  | 0 => { r with base := BitVec.ofNat 64 (mergeHalf r.base.toNat off four v / 4096 * 4096) }
  | 1 => { r with size := mergeHalf r.size off four v % 2 ^ 32 }
  | 3 => { r with cons := mergeHalf r.cons off four v % 2 ^ 32 }
  | 4 => { r with drop := clearOnes r.drop (mergeHalf 0 off four v) 0 32 }
  | _ => r

/-- DUMPCTL: REL, then GO; DID and JOB are kept while a dump is under way (R368). -/
def dumpctlWrite (off : Nat) (four : Bool) (v : Nat) : Part := fun s =>
  let old := s.dev.regs.dumpctl.toNat
  let x := mergeHalf (old % 2 ^ 16 + old / 2 ^ 32 * 2 ^ 32) off four v
  Part.seq [
    (if bitAt x 19 then dumpRelease else Part.none),
    (fun s => if s.dev.dump.isSome then []
      else [.dev (s.dev.modRegs fun r => { r with dumpctl := dumpWord (x % 2 ^ 16) (x / 2 ^ 32) (bitAt old 17) (bitAt old 18) })]),
    (if bitAt x 16 then dumpGo x else Part.none)] s

/-- DBGCTL (R382). -/
def dbgctlWrite (off : Nat) (four : Bool) (v : Nat) : Part := fun s =>
  let x := mergeHalf s.dev.regs.dbgJob.toNat off four v
  Part.seq [
    Part.mod (fun d => d.modRegs fun r => { r with dbgJob := BitVec.ofNat 32 x }),
    (if bitAt x 32 then debugResume (bits x 48 16) else Part.none)] s

/-- DBGREQ (R384). -/
def dbgreqWrite (v : Nat) : Part :=
  let ident := v % 2 ^ 16
  Part.seq [
    (if bitAt v 16 then (if bitAt v 17 then debugStopAll else debugStop ident) else Part.none),
    (if bitAt v 18 then debugStep ident else Part.none),
    (if bitAt v 19 then debugPreempt ident else Part.none),
    (if bitAt v 20 then debugRelease ident else Part.none)]

/-- A register of a frame pool (R325). -/
def poolWrite (pool k off : Nat) (four : Bool) (v : Nat) : Part := Part.mod fun d =>
  let x := mergeHalf (d.regs.pool pool k) off four v
  d.modRegs fun r => r.setPool pool k (match k with | 0 => x / 4096 * 4096 | 3 => x % 2 | _ => x % 2 ^ 32)

/-- A clock register of a virtual function (R344). -/
def vfWrite (f k off : Nat) (four : Bool) (v : Nat) : Part := Part.mod fun d =>
  let x := mergeHalf (cellGet d.regs.vf (4 * f + k)).toNat off four v
  let y := match k with | 0 => x | 1 => x % 2 ^ 32 | _ => x % 2
  d.modRegs fun r => { r with vf := cellSet r.vf (4 * f + k) (BitVec.ofNat 64 y) }

/-- A word of NONCE: the last one of its 32 bytes begins a request (R347). -/
def nonceWrite (k off : Nat) (four : Bool) (v : Nat) : Part := fun s =>
  let x := mergeHalf (cellGet s.dev.regs.nonce k).toNat off four v
  let ws := cellSet s.dev.regs.nonce k (BitVec.ofNat 64 x)
  let n := natSum ((countFrom 0 4).map fun j => (cellGet ws j).toNat * 2 ^ (64 * j))
  Part.seq [
    Part.mod (fun d => d.modRegs fun r => { r with nonce := ws }),
    (if k = 3 ∧ (four = false ∨ off % 8 = 4) then takeNonce (BitVec.ofNat 256 n) else Part.none)] s

/-- A word of EXTEND: the one at 0x0238 extends MR2. -/
def extendWrite (k off : Nat) (four : Bool) (v : Nat) : Part := fun s =>
  let x := BitVec.ofNat 64 (mergeHalf (cellGet s.dev.regs.extend k).toNat off four v)
  if k = 7 ∧ off % 8 = 0 then extendLast x s
  else [.dev (s.dev.modRegs fun r => { r with extend := cellSet r.extend k x })]

/-- A register of the package page, by its offset (R329). Read-only registers and offsets not listed ignore writes. -/
def packageWrite (off : Nat) (four : Bool) (v : Nat) : Part := fun s =>
  let slot := off / 8 * 8
  let wo := mergeHalf 0 off four v
  let obs (f : Job → Job) : Part := Part.mod fun d => d.modObs f
  if slot = 0x0000 then jobAdd wo s
  else if slot = 0x0008 then jobDel (wo % 2 ^ 32) s
  else if slot = 0x0010 then qAdd wo s
  else if slot = 0x0018 then qDel (wo % 2 ^ 32) (bits wo 32 16) s
  else if slot = 0x0020 then
    [.dev (s.dev.modRegs fun r => { r with obssel := BitVec.ofNat 32 (mergeHalf r.obssel.toNat off four v) })]
  else if slot = 0x0030 then
    obs (fun j => let x := mergeHalf j.fbcons off four v; if x ≤ j.fbprod then { j with fbcons := x } else j) s
  else if 0x0040 ≤ slot ∧ slot ≤ 0x0060 then obs (fun j => { j with prof := j.prof.write ((slot - 0x40) / 8) off four v }) s
  else if 0x0068 ≤ slot ∧ slot ≤ 0x0088 then obs (fun j => { j with trc := j.trc.write ((slot - 0x68) / 8) off four v }) s
  else if slot = 0x0090 then obs (fun j => { j with tren := BitVec.ofNat 16 (mergeHalf j.tren.toNat off four v) }) s
  else if slot = 0x0100 then dumpctlWrite off four v s
  else if slot = 0x0108 then [.dev (s.dev.modRegs fun r => { r with dumpb := BitVec.ofNat 64 (mergeHalf r.dumpb.toNat off four v) })]
  else if slot = 0x0110 then [.dev (s.dev.modRegs fun r => { r with dumpw := BitVec.ofNat 32 (mergeHalf r.dumpw.toNat off four v) })]
  else if slot = 0x0118 then dbgctlWrite off four v s
  else if slot = 0x0120 then dbgreqWrite wo s
  else if slot = 0x0180 then [.dev (s.dev.modRegs fun r => { r with sl := BitVec.ofNat 64 (mergeHalf r.sl.toNat off four v) })]
  else if slot = 0x0188 then pcapWrite (mergeHalf s.dev.regs.pcap.toNat off four v) s
  else if slot = 0x0190 then
    [.dev (s.dev.modRegs fun r => { r with hwin := BitVec.ofNat 64 (bits (mergeHalf r.hwin.toNat off four v) 36 16 * 2 ^ 36) })]
  else if 0x0200 ≤ slot ∧ slot < 0x0240 then extendWrite ((slot - 0x200) / 8) off four v s
  else if 0x0300 ≤ slot ∧ slot < 0x0480 then poolWrite ((slot - 0x300) / 32) (slot % 32 / 8) off four v s
  else if 0x0800 ≤ slot ∧ slot < 0x0820 then nonceWrite ((slot - 0x800) / 8) off four v s
  else if 0x2020 ≤ slot ∧ slot < 0x2800 ∧ slot % 32 < 24 then vfWrite ((slot - 0x2000) / 32) (slot % 32 / 8) off four v s
  else []

/-- A register of a die's page, by its offset (R329). -/
def dieWrite (die off : Nat) (four : Bool) (v : Nat) : Part := fun s =>
  let slot := off / 8 * 8
  let wo := mergeHalf 0 off four v
  if slot = 0x0000 then
    let old := (cellGet s.dev.regs.err die).toNat
    [.dev (s.dev.modRegs fun r => { r with err := cellSet r.err die (BitVec.ofNat 64 (clearOnes (clearOnes old wo 0 24) wo 32 16)) })]
  else if slot = 0x0008 then
    (if bitAt wo 9 then faultFail else faultReplay) die (bitAt wo 8) (wo % 2 ^ 8) (wo / 2 ^ 32) s
  else if slot = 0x0018 then
    marginWrite die (mergeHalf ((cellGet s.dev.regs.margin die).toNat % 2 ^ 26) off four v) s
  else if 0x0200 ≤ slot ∧ slot < 0x0218 ∧ die < 6 then
    let n := 3 * die + (slot - 0x200) / 8
    let old := s.dev.regs.linkStat n
    [.dev (s.dev.modRegs fun r => r.setLinkStat n (clearOnes (clearOnes (clearOnes old wo 8 16) wo 24 16) wo 60 1))]
  else if 0x0300 ≤ slot ∧ slot < 0x0340 then
    let n := 4 * die + (slot - 0x300) / 16
    if slot % 16 = 0 then
      let x := mergeHalf (cellGet s.dev.regs.wpctl n).toNat off four v
      [.dev (s.dev.modRegs fun r => { r with
        wpctl := cellSet r.wpctl n (BitVec.ofNat 64 (x % 2 ^ 2 + bits x 4 16 * 2 ^ 4 + bits x 32 32 * 2 ^ 32)) })]
    else
      let x := mergeHalf (cellGet s.dev.regs.wpaddr n).toNat off four v
      [.dev (s.dev.modRegs fun r => { r with wpaddr := cellSet r.wpaddr n (BitVec.ofNat 64 (bits x 4 53 * 2 ^ 4)) })]
  else []

/-- The doorbell page of an offset from BAR2 on (R335): TAIL and CCONS. -/
def bellWrite (off : Nat) (four : Bool) (v : Nat) : Part := fun s =>
  let page := off / 4096
  let old (f : Queue → Nat) : Nat :=
    match s.dev.queues.find? fun q => decide (q.num ≠ devQueue) && decide (q.page = page) with | some q => f q | none => 0
  if off % 4096 / 8 = 0 then doorbell page (mergeHalf (old Queue.tail) off four v) s
  else if off % 4096 / 8 = 3 then consumeEntries page (mergeHalf (old Queue.ccons) off four v) s
  else []

/-- Where a function's BARs stand among the offsets of the host port: BAR0 of function f at f · 2^27, its BAR2 from 2^24 on (log 34). -/
def barOf (off : Nat) : Nat := off / 2 ^ 27
def barOff (off : Nat) : Nat := off % 2 ^ 27

/-- The function of the job of the queue behind a doorbell page. -/
def Dev.pageVf (d : Dev) (page : Nat) : Option Nat :=
  (d.queues.find? fun q => decide (q.num ≠ devQueue) && decide (q.page = page)).bind fun q => (d.job? q.job).map Job.vf

/-- Whether an offset is one that a virtual function sees: its own clock registers, and the doorbell pages of its jobs' queues (R328,
R344, log 34). -/
def Dev.vfSees (d : Dev) (f off : Nat) : Bool :=
  let own := 0x800000 + 0x2000 + 32 * f
  decide (f < 64) && ((decide (own ≤ off) && decide (off < own + 24)) ||
    (decide (2 ^ 24 ≤ off) && decide (d.pageVf ((off - 2 ^ 24) / 4096) = some f)))

/-- R328, R329, R335: a host write of 4 or 8 bytes to BAR0 + `off`; the doorbell pages of BAR2 stand from 2^24 on. Any other access is
ignored, and so is one of a virtual function to what is not its own. -/
def execRegisterWrite (off : Nat) (four : Bool) (v : Dword) (s : State) : Host.Outcome State Fault Refusal :=
  commit s <|
    if off % (if four then 4 else 8) ≠ 0 then []
    else if 2 ^ 27 ≤ off then
      (if s.dev.vfSees (barOf off) (barOff off) = false then []
      else if barOff off < 2 ^ 24 then packageWrite (barOff off - 0x800000) four v.toNat s
      else if barOff off < 2 ^ 24 + 2 ^ 26 then bellWrite (barOff off - 2 ^ 24) four v.toNat s
      else [])
    else if off < 0x800000 then dieWrite (off / 2 ^ 20) (off % 2 ^ 20) four v.toNat s
    else if off < 2 ^ 24 then packageWrite (off - 0x800000) four v.toNat s
    else if off < 2 ^ 24 + 2 ^ 26 then bellWrite (off - 2 ^ 24) four v.toNat s
    else []

/-! ### The host window (R328) -/

/-- Whether storage stands behind a device physical address of tiers 0 to 2 (R315). -/
def populated (pa : Nat) : Bool :=
  let off := pa % 2 ^ 48
  match pa / 2 ^ 48 with
  | 0 => decide (off < 768 * gigaByte)
  | 1 => decide (off < 2 * teraByte)
  | 2 => decide (off < 64 * teraByte) && decide (off % (16 * teraByte) < Config.cxlSize (off / (16 * teraByte)))
  | _ => false

/-- R328: a host access at BAR4 + `off`, of 1, 2, 4 or 8 bytes and aligned; a read changes nothing. -/
def execHostWindowAccess (off size : Nat) (data : Option Dword) (s : State) : Host.Outcome State Fault Refusal :=
  commit s <|
    let pa := s.dev.regs.hwin.toNat + off
    match data with
    | none => []
    | some v =>
      if 2 ^ 36 ≤ off ∨ !(powerIn size 1 8) ∨ off % size ≠ 0 ∨ !populated pa then []
      else storeBytes .main pa (leBytes size v.toNat)

/-! ### Register reads (R328, R329) -/

/-- What a register of a ring reads as (R377). -/
def Ring.read (r : Ring) (k : Nat) : Nat :=
  match k with
  | 0 => r.base.toNat
  | 1 => r.size
  | 2 => r.prod
  | 3 => r.cons
  | _ => r.drop

/-- What JSTAT reads as for a job: live, or the code that ended it (R332). -/
def Dev.jstat (d : Dev) (job : Nat) : Nat :=
  if (d.job? job).isSome then 1
  else match d.ended.find? fun e => decide (e.id = job) with
    | some e => e.code % 2 ^ 8 * 2 ^ 8
    | none => 0

/-- Eight bytes of a list from an offset on, as a number; bytes beyond its end are 0. -/
def eightAt (bs : List Byte) (off : Nat) : Nat := fieldAt bs off 8

/-- What an 8-byte slot of the package page reads as (R329). Write-only registers and offsets not listed read 0. -/
def Dev.packageRead (d : Dev) (slot : Nat) : Nat :=
  let r := d.regs
  let obs (f : Job → Nat) : Nat := match d.job? r.obssel.toNat with | some j => f j | none => 0
  if slot = 0x0000 then r.jobadd.toNat
  else if slot = 0x0010 then r.qadd.toNat
  else if slot = 0x0020 then r.obssel.toNat
  else if slot = 0x0028 then obs Job.fbprod
  else if slot = 0x0030 then obs Job.fbcons
  else if slot = 0x0038 then d.jstat r.obssel.toNat
  else if 0x0040 ≤ slot ∧ slot ≤ 0x0060 then obs fun j => j.prof.read ((slot - 0x40) / 8)
  else if 0x0068 ≤ slot ∧ slot ≤ 0x0088 then obs fun j => j.trc.read ((slot - 0x68) / 8)
  else if slot = 0x0090 then obs fun j => j.tren.toNat
  else if slot = 0x0100 then r.dumpctl.toNat
  else if slot = 0x0108 then r.dumpb.toNat
  else if slot = 0x0110 then r.dumpw.toNat
  else if slot = 0x0118 then r.dbgJob.toNat
  else if slot = 0x0180 then r.sl.toNat
  else if slot = 0x0188 then r.pcap.toNat
  else if slot = 0x0190 then r.hwin.toNat
  else if 0x0300 ≤ slot ∧ slot < 0x0480 then r.pool ((slot - 0x300) / 32) (slot % 32 / 8)
  else if slot = 0x0820 then (!d.trust.report.isEmpty).toNat + 2 * d.trust.signing.isSome.toNat
  else if 0x1000 ≤ slot ∧ slot < 0x1380 then eightAt d.trust.report (slot - 0x1000)
  else if 0x1400 ≤ slot ∧ slot < 0x1608 then eightAt (fitBytes 516 Config.publicKey) (slot - 0x1400)
  else if 0x2020 ≤ slot ∧ slot < 0x2800 ∧ slot % 32 < 24 then (cellGet r.vf (4 * ((slot - 0x2000) / 32) + slot % 32 / 8)).toNat
  else 0

/-- A fused field held to the values that its rule lists: any other one stands for none (R349, log 7). -/
def fusedField (x top none_ : Nat) : Nat := if x ≤ top then x else none_

/-- What the defect word of a compute die reads as: its fields as fused, the reserved bits 0 (R349). -/
def defectOf (w : Nat) : Nat :=
  fusedField (bits w 0 5) 23 31 + bits w 8 8 * 2 ^ 8 + fusedField (bits w 16 4) 7 15 * 2 ^ 16 + fusedField (bits w 20 4) 7 15 * 2 ^ 20 +
    fusedField (bits w 24 4) 7 15 * 2 ^ 24 + fusedField (bits w 28 7) 99 127 * 2 ^ 28

/-- What an 8-byte slot of a die's page reads as (R329). -/
def Dev.dieRead (d : Dev) (die slot : Nat) : Nat :=
  let r := d.regs
  if slot = 0x0000 then (cellGet r.err die).toNat
  else if slot = 0x0010 ∧ die < 6 then defectOf (Config.defectWord die).toNat
  else if slot = 0x0018 then (cellGet r.margin die).toNat
  else if 0x0020 ≤ slot ∧ slot ≤ 0x0038 then (cellGet r.temp (4 * die + (slot - 0x20) / 8)).toNat
  else if 0x0100 ≤ slot ∧ slot ≤ 0x01C0 ∧ die < 6 then (cellGet r.ageing (32 * die + (slot - 0x100) / 8) ^^^ 0xFFFF).toNat
  else if 0x0200 ≤ slot ∧ slot < 0x0218 ∧ die < 6 then r.linkStat (3 * die + (slot - 0x200) / 8)
  else if 0x0300 ≤ slot ∧ slot < 0x0340 then
    (cellGet (if slot % 16 = 0 then r.wpctl else r.wpaddr) (4 * die + (slot - 0x300) / 16)).toNat
  else 0

/-- What an 8-byte slot of a doorbell page reads as (R335). -/
def Dev.bellRead (d : Dev) (page slot : Nat) : Nat :=
  match d.queues.find? fun q => decide (q.num ≠ devQueue) && decide (q.page = page) with
  | some q => if slot = 8 then q.head else if slot = 16 then q.cprod else if slot = 24 then q.ccons else 0
  | none => 0

/-- R328, R329, R335: what a host read of 4 or 8 bytes at BAR0 + `off` returns; the doorbell pages of BAR2 stand from 2^24 on. It changes
nothing, and any other access reads 0: so does every one while the image has not passed its check (R346). -/
def Dev.registerRead (d : Dev) (off : Nat) (four : Bool) : Nat :=
  let slot := off / 8 * 8
  let x :=
    if d.trust.good = false then 0
    else if 2 ^ 27 ≤ off then
      (if d.vfSees (barOf off) (barOff off) = false then 0
      else if barOff off < 2 ^ 24 then d.packageRead (barOff slot - 0x800000)
      else if barOff off < 2 ^ 24 + 2 ^ 26 then d.bellRead ((barOff off - 2 ^ 24) / 4096) (slot % 4096)
      else 0)
    else if off < 0x800000 then d.dieRead (off / 2 ^ 20) (slot % 2 ^ 20)
    else if off < 2 ^ 24 then d.packageRead (slot - 0x800000)
    else if off < 2 ^ 24 + 2 ^ 26 then d.bellRead ((off - 2 ^ 24) / 4096) (slot % 4096)
    else 0
  if off % (if four then 4 else 8) ≠ 0 then 0
  else if four then x / 2 ^ (8 * (off % 8)) % 2 ^ 32
  else x % 2 ^ 64

/-- R328: what a host read of the host window returns: 0 in tier 3, and no value where no storage stands, nor while the image has not passed
its check (R346). -/
def State.windowRead (s : State) (off size : Nat) : Option (List Byte) :=
  let pa := s.dev.regs.hwin.toNat + off
  if s.dev.trust.good = false then none
  else if 3 * 2 ^ 48 ≤ pa then some (List.replicate size 0)
  else if populated pa then some (bytesAt s.main pa size)
  else none

/-! ### Reset and power (R11, R346) -/

/-- The records after a reset: reference time goes on, and the image in flash is what it was (log 4). -/
def Dev.afterReset (d : Dev) : Dev :=
  { Dev.reset with
    time := d.time
    free := d.free
    package := d.package
    trust := { Trust.reset with mr0 := d.trust.mr0, mr1 := d.trust.mr1, good := d.trust.good } }

/-- R346: the package is reset; after a power-down this is its return. -/
def execPackageReset (s : State) : Host.Outcome State Fault Refusal := commit s [.dev s.dev.afterReset]

/-- R11: the package loses its power. Reference time stops until it returns. -/
def execPackagePowerDown (s : State) : Host.Outcome State Fault Refusal :=
  commit s [.dev { s.dev.afterReset with power := false }]

/-- R346: the host reloads an image that failed its check, and reset follows. Else there is no effect. -/
def execRecoveryLoad (good : Bool) (s : State) : Host.Outcome State Fault Refusal :=
  commit s <|
    if s.dev.trust.good then []
    else
      let d := s.dev.afterReset
      [.dev { d with free := d.free + 1, trust := { d.trust with mr0 := Config.reloadHash d.free, good := good } }]

end Sys2Proof.Machine
end

