-- ==== Sys2Proof/Machine/Dispatch.lean ====
section
/-! DEFINITION. The dispatch: one arm per constructor of `Instr`, each a direct call of its meaning. -/

namespace Sys2Proof.Machine

def exec (i : Instr) (s : State) : Host.Outcome State Fault Refusal :=
  match i with
  | .nop => Sys2Proof.Machine.execNop s
  | .brk k => Sys2Proof.Machine.execBrk k s
  | .trap k => Sys2Proof.Machine.execTrap k s
  | .br p o => Sys2Proof.Machine.execBr p o s
  | .sBr p o => Sys2Proof.Machine.execSBr p o s
  | .brx a => Sys2Proof.Machine.execBrx a s
  | .call o => Sys2Proof.Machine.execCall o s
  | .callx a => Sys2Proof.Machine.execCallx a s
  | .ret => Sys2Proof.Machine.execRet s
  | .exit => Sys2Proof.Machine.execExit s
  | .fibEnd => Sys2Proof.Machine.execFibEnd s
  | .fibSpawn d a b => Sys2Proof.Machine.execFibSpawn d a b s
  | .divPush o => Sys2Proof.Machine.execDivPush o s
  | .divJoin => Sys2Proof.Machine.execDivJoin s
  | .brRot p o => Sys2Proof.Machine.execBrRot p o s
  | .wait a => Sys2Proof.Machine.execWait a s
  | .waitAddrBlk a imm => Sys2Proof.Machine.execWaitAddrBlk a imm s
  | .waitAddrPad a imm => Sys2Proof.Machine.execWaitAddrPad a imm s
  | .yield => Sys2Proof.Machine.execYield s
  | .sysRd d k => Sys2Proof.Machine.execSysRd d k s
  | .sysWr a k => Sys2Proof.Machine.execSysWr a k s
  | .add sc d a b => Sys2Proof.Machine.execAdd sc d a b s
  | .sub sc d a b => Sys2Proof.Machine.execSub sc d a b s
  | .addSatS32 sc d a b => Sys2Proof.Machine.execAddSatS32 sc d a b s
  | .subSatS32 sc d a b => Sys2Proof.Machine.execSubSatS32 sc d a b s
  | .addSatZ32 sc d a b => Sys2Proof.Machine.execAddSatZ32 sc d a b s
  | .subSatZ32 sc d a b => Sys2Proof.Machine.execSubSatZ32 sc d a b s
  | .addB64 sc d a b => Sys2Proof.Machine.execAddB64 sc d a b s
  | .subB64 sc d a b => Sys2Proof.Machine.execSubB64 sc d a b s
  | .mul sc d a b => Sys2Proof.Machine.execMul sc d a b s
  | .mulHiS32 sc d a b => Sys2Proof.Machine.execMulHiS32 sc d a b s
  | .mulHiZ32 sc d a b => Sys2Proof.Machine.execMulHiZ32 sc d a b s
  | .mulWideS32 sc d a b => Sys2Proof.Machine.execMulWideS32 sc d a b s
  | .mulWideZ32 sc d a b => Sys2Proof.Machine.execMulWideZ32 sc d a b s
  | .mad sc d a b => Sys2Proof.Machine.execMad sc d a b s
  | .madWideS32 sc d a b => Sys2Proof.Machine.execMadWideS32 sc d a b s
  | .madWideZ32 sc d a b => Sys2Proof.Machine.execMadWideZ32 sc d a b s
  | .and sc d a b => Sys2Proof.Machine.execAnd sc d a b s
  | .or sc d a b => Sys2Proof.Machine.execOr sc d a b s
  | .xor sc d a b => Sys2Proof.Machine.execXor sc d a b s
  | .andn sc d a b => Sys2Proof.Machine.execAndn sc d a b s
  | .orn sc d a b => Sys2Proof.Machine.execOrn sc d a b s
  | .xnor sc d a b => Sys2Proof.Machine.execXnor sc d a b s
  | .not sc d a => Sys2Proof.Machine.execNot sc d a s
  | .shl sc d a b => Sys2Proof.Machine.execShl sc d a b s
  | .shrZ32 sc d a b => Sys2Proof.Machine.execShrZ32 sc d a b s
  | .shrS32 sc d a b => Sys2Proof.Machine.execShrS32 sc d a b s
  | .rol sc d a b => Sys2Proof.Machine.execRol sc d a b s
  | .ror sc d a b => Sys2Proof.Machine.execRor sc d a b s
  | .popc sc d a => Sys2Proof.Machine.execPopc sc d a s
  | .clz sc d a => Sys2Proof.Machine.execClz sc d a s
  | .ctz sc d a => Sys2Proof.Machine.execCtz sc d a s
  | .brev sc d a => Sys2Proof.Machine.execBrev sc d a s
  | .bswap sc d a => Sys2Proof.Machine.execBswap sc d a s
  | .bfxZ32 sc d a b => Sys2Proof.Machine.execBfxZ32 sc d a b s
  | .bfxS32 sc d a b => Sys2Proof.Machine.execBfxS32 sc d a b s
  | .bfi sc d a b => Sys2Proof.Machine.execBfi sc d a b s
  | .minS32 sc d a b => Sys2Proof.Machine.execMinS32 sc d a b s
  | .minZ32 sc d a b => Sys2Proof.Machine.execMinZ32 sc d a b s
  | .maxS32 sc d a b => Sys2Proof.Machine.execMaxS32 sc d a b s
  | .maxZ32 sc d a b => Sys2Proof.Machine.execMaxZ32 sc d a b s
  | .absS32 sc d a => Sys2Proof.Machine.execAbsS32 sc d a s
  | .negS32 sc d a => Sys2Proof.Machine.execNegS32 sc d a s
  | .icmp sc d a b k => Sys2Proof.Machine.execIcmp sc d a b k s
  | .movi sc d imm => Sys2Proof.Machine.execMovi sc d imm s
  | .movh sc d imm => Sys2Proof.Machine.execMovh sc d imm s
  | .iaddi sc d a imm => Sys2Proof.Machine.execIaddi sc d a imm s
  | .andi sc d a imm => Sys2Proof.Machine.execAndi sc d a imm s
  | .ori sc d a imm => Sys2Proof.Machine.execOri sc d a imm s
  | .xori sc d a imm => Sys2Proof.Machine.execXori sc d a imm s
  | .shli sc d a n => Sys2Proof.Machine.execShli sc d a n s
  | .shriZ32 sc d a n => Sys2Proof.Machine.execShriZ32 sc d a n s
  | .shriS32 sc d a n => Sys2Proof.Machine.execShriS32 sc d a n s
  | .rori sc d a n => Sys2Proof.Machine.execRori sc d a n s
  | .mov sc d a => Sys2Proof.Machine.execMov sc d a s
  | .sel sc d a b => Sys2Proof.Machine.execSel sc d a b s
  | .lea sc d a b n => Sys2Proof.Machine.execLea sc d a b n s
  | .pand d a b => Sys2Proof.Machine.execPand d a b s
  | .por d a b => Sys2Proof.Machine.execPor d a b s
  | .pxor d a b => Sys2Proof.Machine.execPxor d a b s
  | .pSet d a => Sys2Proof.Machine.execPSet d a s
  | .pGet d a => Sys2Proof.Machine.execPGet d a s
  | .pwRd d => Sys2Proof.Machine.execPwRd d s
  | .pwWr a => Sys2Proof.Machine.execPwWr a s
  | .faddF32 sc d a b => Sys2Proof.Machine.execFaddF32 sc d a b s
  | .fsubF32 sc d a b => Sys2Proof.Machine.execFsubF32 sc d a b s
  | .faddF16x2 sc d a b => Sys2Proof.Machine.execFaddF16x2 sc d a b s
  | .fsubF16x2 sc d a b => Sys2Proof.Machine.execFsubF16x2 sc d a b s
  | .faddBf16x2 sc d a b => Sys2Proof.Machine.execFaddBf16x2 sc d a b s
  | .fsubBf16x2 sc d a b => Sys2Proof.Machine.execFsubBf16x2 sc d a b s
  | .faddSatF32 sc d a b => Sys2Proof.Machine.execFaddSatF32 sc d a b s
  | .fsubSatF32 sc d a b => Sys2Proof.Machine.execFsubSatF32 sc d a b s
  | .fmulF32 sc d a b t => Sys2Proof.Machine.execFmulF32 sc d a b t s
  | .fmulF16x2 sc d a b t => Sys2Proof.Machine.execFmulF16x2 sc d a b t s
  | .fmulBf16x2 sc d a b t => Sys2Proof.Machine.execFmulBf16x2 sc d a b t s
  | .ffmaF32 sc d a b t => Sys2Proof.Machine.execFfmaF32 sc d a b t s
  | .ffmaF16x2 sc d a b t => Sys2Proof.Machine.execFfmaF16x2 sc d a b t s
  | .ffmaBf16x2 sc d a b t => Sys2Proof.Machine.execFfmaBf16x2 sc d a b t s
  | .fmin sc d a b t => Sys2Proof.Machine.execFmin sc d a b t s
  | .fmax sc d a b t => Sys2Proof.Machine.execFmax sc d a b t s
  | .fclass sc d a => Sys2Proof.Machine.execFclass sc d a s
  | .fcmp sc d a b k => Sys2Proof.Machine.execFcmp sc d a b k s
  | .rcp sc d a t => Sys2Proof.Machine.execRcp sc d a t s
  | .rsq sc d a t => Sys2Proof.Machine.execRsq sc d a t s
  | .sqrt sc d a t => Sys2Proof.Machine.execSqrt sc d a t s
  | .exp2 sc d a t => Sys2Proof.Machine.execExp2 sc d a t s
  | .log2 sc d a t => Sys2Proof.Machine.execLog2 sc d a t s
  | .sin sc d a t => Sys2Proof.Machine.execSin sc d a t s
  | .cos sc d a t => Sys2Proof.Machine.execCos sc d a t s
  | .tanh sc d a t => Sys2Proof.Machine.execTanh sc d a t s
  | .erf sc d a t => Sys2Proof.Machine.execErf sc d a t s
  | .ncdf sc d a t => Sys2Proof.Machine.execNcdf sc d a t s
  | .npdf sc d a t => Sys2Proof.Machine.execNpdf sc d a t s
  | .packE4m3F32 sc d a r => Sys2Proof.Machine.execPackE4m3F32 sc d a r s
  | .packE5m2F32 sc d a r => Sys2Proof.Machine.execPackE5m2F32 sc d a r s
  | .packE2m1F32 sc d a r => Sys2Proof.Machine.execPackE2m1F32 sc d a r s
  | .unpackF32E4m3 sc d a => Sys2Proof.Machine.execUnpackF32E4m3 sc d a s
  | .unpackF32E5m2 sc d a => Sys2Proof.Machine.execUnpackF32E5m2 sc d a s
  | .unpackF32E2m1 sc d a => Sys2Proof.Machine.execUnpackF32E2m1 sc d a s
  | .cvt sc d a v r => Sys2Proof.Machine.execCvt sc d a v r s
  | .rngB128 d a => Sys2Proof.Machine.execRngB128 d a s
  | .rngF32 d a => Sys2Proof.Machine.execRngF32 d a s
  | .cvtSrBf16F32 d a b => Sys2Proof.Machine.execCvtSrBf16F32 d a b s
  | .cvtSrF16F32 d a b => Sys2Proof.Machine.execCvtSrF16F32 d a b s
  | .cvtSrBf16x2F32 d a b => Sys2Proof.Machine.execCvtSrBf16x2F32 d a b s
  | .packSrE4m3F32 d a b => Sys2Proof.Machine.execPackSrE4m3F32 d a b s
  | .packSrE5m2F32 d a b => Sys2Proof.Machine.execPackSrE5m2F32 d a b s
  | .packSrE2m1F32 d a b => Sys2Proof.Machine.execPackSrE2m1F32 d a b s
  | .madd d a b => Sys2Proof.Machine.execMadd d a b s
  | .msub d a b => Sys2Proof.Machine.execMsub d a b s
  | .mmul d a b => Sys2Proof.Machine.execMmul d a b s
  | .mfma d a b => Sys2Proof.Machine.execMfma d a b s
  | .mscl d a b => Sys2Proof.Machine.execMscl d a b s
  | .mrelu d a => Sys2Proof.Machine.execMrelu d a s
  | .mexp d a => Sys2Proof.Machine.execMexp d a s
  | .msigm d a => Sys2Proof.Machine.execMsigm d a s
  | .mtanh d a => Sys2Proof.Machine.execMtanh d a s
  | .mset d a b => Sys2Proof.Machine.execMset d a b s
  | .mcolMean d a => Sys2Proof.Machine.execMcolMean d a s
  | .mcolVar d a => Sys2Proof.Machine.execMcolVar d a s
  | .mcolSmp d a b => Sys2Proof.Machine.execMcolSmp d a b s
  | .mldBlk d g o => Sys2Proof.Machine.execMldBlk d g o s
  | .mldPad d g o => Sys2Proof.Machine.execMldPad d g o s
  | .mstBlk d g o => Sys2Proof.Machine.execMstBlk d g o s
  | .mstPad d g o => Sys2Proof.Machine.execMstPad d g o s
  | .ld sc d g p o t => Sys2Proof.Machine.execLd sc d g p o t s
  | .st d g p o t => Sys2Proof.Machine.execSt d g p o t s
  | .atomAccZ32 d a p r => Sys2Proof.Machine.execAtomAccZ32 d a p r s
  | .atomAccF32 d a p r => Sys2Proof.Machine.execAtomAccF32 d a p r s
  | .atom d a k p r => Sys2Proof.Machine.execAtom d a k p r s
  | .atomCas d a z p r => Sys2Proof.Machine.execAtomCas d a z p r s
  | .ldVt d a b p z => Sys2Proof.Machine.execLdVt d a b p z s
  | .ldVtw d a b p z => Sys2Proof.Machine.execLdVtw d a b p z s
  | .stMask d g o y => Sys2Proof.Machine.execStMask d g o y s
  | .ldMask d g o y => Sys2Proof.Machine.execLdMask d g o y s
  | .push d z => Sys2Proof.Machine.execPush d z s
  | .pop d z => Sys2Proof.Machine.execPop d z s
  | .fenceGrp => Sys2Proof.Machine.execFenceGrp s
  | .fenceBlk => Sys2Proof.Machine.execFenceBlk s
  | .fenceGang => Sys2Proof.Machine.execFenceGang s
  | .fenceDev => Sys2Proof.Machine.execFenceDev s
  | .fenceSys => Sys2Proof.Machine.execFenceSys s
  | .waitLd n => Sys2Proof.Machine.execWaitLd n s
  | .qxH d a => Sys2Proof.Machine.execQxH d a s
  | .qxV d a => Sys2Proof.Machine.execQxV d a s
  | .qxD d a => Sys2Proof.Machine.execQxD d a s
  | .qxBc d a imm => Sys2Proof.Machine.execQxBc d a imm s
  | .xlaneFlip d a b => Sys2Proof.Machine.execXlaneFlip d a b s
  | .xlanePick d a b => Sys2Proof.Machine.execXlanePick d a b s
  | .xlaneLo d a b => Sys2Proof.Machine.execXlaneLo d a b s
  | .xlaneHi d a b => Sys2Proof.Machine.execXlaneHi d a b s
  | .xlaneRot d a b => Sys2Proof.Machine.execXlaneRot d a b s
  | .ballot d a => Sys2Proof.Machine.execBallot d a s
  | .agreeAll d a => Sys2Proof.Machine.execAgreeAll d a s
  | .agreeAny d a => Sys2Proof.Machine.execAgreeAny d a s
  | .agreeSame d a => Sys2Proof.Machine.execAgreeSame d a s
  | .redux d a k => Sys2Proof.Machine.execRedux d a k s
  | .reduxXscan d a k => Sys2Proof.Machine.execReduxXscan d a k s
  | .reduxIscan d a k => Sys2Proof.Machine.execReduxIscan d a k s
  | .barInit n b => Sys2Proof.Machine.execBarInit n b s
  | .barArrive b => Sys2Proof.Machine.execBarArrive b s
  | .barWait b => Sys2Proof.Machine.execBarWait b s
  | .barSync b => Sys2Proof.Machine.execBarSync b s
  | .barSyncGang => Sys2Proof.Machine.execBarSyncGang s
  | .gridSync => Sys2Proof.Machine.execGridSync s
  | .cstInit a b => Sys2Proof.Machine.execCstInit a b s
  | .cstPut a => Sys2Proof.Machine.execCstPut a s
  | .cstTake d a => Sys2Proof.Machine.execCstTake d a s
  | .xregAcq => Sys2Proof.Machine.execXregAcq s
  | .xregRel => Sys2Proof.Machine.execXregRel s
  | .vtNew d a => Sys2Proof.Machine.execVtNew d a s
  | .vtSet a => Sys2Proof.Machine.execVtSet a s
  | .vtGet d => Sys2Proof.Machine.execVtGet d s
  | .vtDrop a => Sys2Proof.Machine.execVtDrop a s
  | .vtMerge a => Sys2Proof.Machine.execVtMerge a s
  | .mxMmaMom a b t p y => Sys2Proof.Machine.execMxMmaMom a b t p y s
  | .mxPost a b t f p y => Sys2Proof.Machine.execMxPost a b t f p y s
  | .mxZero t => Sys2Proof.Machine.execMxZero t s
  | .mxDrain d a t => Sys2Proof.Machine.execMxDrain d a t s
  | .mxLd d a t => Sys2Proof.Machine.execMxLd d a t s
  | .mxBand a => Sys2Proof.Machine.execMxBand a s
  | .mxStat d t => Sys2Proof.Machine.execMxStat d t s
  | .cuvLoadBlk a n => Sys2Proof.Machine.execCuvLoadBlk a n s
  | .cuvLoadPad a n => Sys2Proof.Machine.execCuvLoadPad a n s
  | .cuvChk d n => Sys2Proof.Machine.execCuvChk d n s
  | .cuvRd d n => Sys2Proof.Machine.execCuvRd d n s
  | .cpG2s g x => Sys2Proof.Machine.execCpG2s g x s
  | .cpS2g g x => Sys2Proof.Machine.execCpS2g g x s
  | .cpS2s g y x => Sys2Proof.Machine.execCpS2s g y x s
  | .cpTG2s g x => Sys2Proof.Machine.execCpTG2s g x s
  | .cpTS2g g x => Sys2Proof.Machine.execCpTS2g g x s
  | .migPost g => Sys2Proof.Machine.execMigPost g s
  | .gat d a b p z => Sys2Proof.Machine.execGat d a b p z s
  | .objInit a b => Sys2Proof.Machine.execObjInit a b s
  | .objArrive a b => Sys2Proof.Machine.execObjArrive a b s
  | .objWait a b => Sys2Proof.Machine.execObjWait a b s
  | .objWaitSt d a b => Sys2Proof.Machine.execObjWaitSt d a b s
  | .objPoll d a => Sys2Proof.Machine.execObjPoll d a s
  | .rcpPut g => Sys2Proof.Machine.execRcpPut g s
  | .rcpGet g => Sys2Proof.Machine.execRcpGet g s
  | .ratom g o k => Sys2Proof.Machine.execRatom g o k s
  | .collPost g => Sys2Proof.Machine.execCollPost g s
  | .qRd d a => Sys2Proof.Machine.execQRd d a s
  | .qSt a b => Sys2Proof.Machine.execQSt a b s
  | .qSub d a b => Sys2Proof.Machine.execQSub d a b s
  | .wpSet a => Sys2Proof.Machine.execWpSet a s
  | .wpClr a => Sys2Proof.Machine.execWpClr a s
  | .trcMark a => Sys2Proof.Machine.execTrcMark a s
  | .locQPad d a => Sys2Proof.Machine.execLocQPad d a s
  | .locQVa d a => Sys2Proof.Machine.execLocQVa d a s
  | .bistRun a => Sys2Proof.Machine.execBistRun a s
  | .bistRd d => Sys2Proof.Machine.execBistRd d s
  | .launchDev a => Sys2Proof.Machine.execLaunchDev a s
  | .loadComplete g k => Sys2Proof.Machine.execLoadComplete g k s
  | .sluiceGrant c => Sys2Proof.Machine.execSluiceGrant c s
  | .passStart c => Sys2Proof.Machine.execPassStart c s
  | .passAccumulate c bad => Sys2Proof.Machine.execPassAccumulate c bad s
  | .copyPageCommit op ue => Sys2Proof.Machine.execCopyPageCommit op ue s
  | .gatherComplete op ue => Sys2Proof.Machine.execGatherComplete op ue s
  | .migrationPageMove op => Sys2Proof.Machine.execMigrationPageMove op s
  | .mergeApply tag => Sys2Proof.Machine.execMergeApply tag s
  | .weirRelease launch => Sys2Proof.Machine.execWeirRelease launch s
  | .barTimeout g lane => Sys2Proof.Machine.execBarTimeout g lane s
  | .vtStarve g access k => Sys2Proof.Machine.execVtStarve g access k s
  | .waitExpiry g lane => Sys2Proof.Machine.execWaitExpiry g lane s
  | .waitAddrTimeout g lane => Sys2Proof.Machine.execWaitAddrTimeout g lane s
  | .yieldExpiry g => Sys2Proof.Machine.execYieldExpiry g s
  | .quantumExpiry launch block => Sys2Proof.Machine.execQuantumExpiry launch block s
  | .sample launch => Sys2Proof.Machine.execSample launch s
  | .crossDieTimeout t => Sys2Proof.Machine.execCrossDieTimeout t s
  | .remoteTimeout op known => Sys2Proof.Machine.execRemoteTimeout op known s
  | .collTimeout op => Sys2Proof.Machine.execCollTimeout op s
  | .patrolScrub die src ce ue => Sys2Proof.Machine.execPatrolScrub die src ce ue s
  | .clockFrequencyChange die resumed => Sys2Proof.Machine.execClockFrequencyChange die resumed s
  | .blockPlace launch cluster cores => Sys2Proof.Machine.execBlockPlace launch cluster cores s
  | .preemptRequest launch block => Sys2Proof.Machine.execPreemptRequest launch block s
  | .preemptSave launch block => Sys2Proof.Machine.execPreemptSave launch block s
  | .blockRestore launch cluster cores => Sys2Proof.Machine.execBlockRestore launch cluster cores s
  | .jobTerminate job => Sys2Proof.Machine.execJobTerminate job s
  | .faultRecordWrite job => Sys2Proof.Machine.execFaultRecordWrite job s
  | .completionEntryWrite job queue => Sys2Proof.Machine.execCompletionEntryWrite job queue s
  | .launchRecord job queue => Sys2Proof.Machine.execLaunchRecord job queue s
  | .launchComplete launch => Sys2Proof.Machine.execLaunchComplete launch s
  | .migrateRecord job queue => Sys2Proof.Machine.execMigrateRecord job queue s
  | .invalidateRecord job queue => Sys2Proof.Machine.execInvalidateRecord job queue s
  | .invalidateComplete job queue seq => Sys2Proof.Machine.execInvalidateComplete job queue seq s
  | .markerRecord job queue => Sys2Proof.Machine.execMarkerRecord job queue s
  | .slotGrant => Sys2Proof.Machine.execSlotGrant s
  | .packageSliceExpiry slot => Sys2Proof.Machine.execPackageSliceExpiry slot s
  | .jobAdd addr => Sys2Proof.Machine.execJobAdd addr s
  | .jobDel job => Sys2Proof.Machine.execJobDel job s
  | .qAdd addr => Sys2Proof.Machine.execQAdd addr s
  | .qDel job queue => Sys2Proof.Machine.execQDel job queue s
  | .doorbellTail page tail => Sys2Proof.Machine.execDoorbellTail page tail s
  | .faultReplay die all idx job => Sys2Proof.Machine.execFaultReplay die all idx job s
  | .faultFail die all idx job => Sys2Proof.Machine.execFaultFail die all idx job s
  | .extend last => Sys2Proof.Machine.execExtend last s
  | .nonce n => Sys2Proof.Machine.execNonce n s
  | .reportSigned => Sys2Proof.Machine.execReportSigned s
  | .marginWrite die v => Sys2Proof.Machine.execMarginWrite die v s
  | .pcapWrite v => Sys2Proof.Machine.execPcapWrite v s
  | .dumpGo v => Sys2Proof.Machine.execDumpGo v s
  | .dumpRel => Sys2Proof.Machine.execDumpRel s
  | .dumpMarker link vc did job => Sys2Proof.Machine.execDumpMarker link vc did job s
  | .dumpHaltTimeout => Sys2Proof.Machine.execDumpHaltTimeout s
  | .debugResume ident => Sys2Proof.Machine.execDebugResume ident s
  | .debugStop ident => Sys2Proof.Machine.execDebugStop ident s
  | .debugStopAll => Sys2Proof.Machine.execDebugStopAll s
  | .debugStep ident => Sys2Proof.Machine.execDebugStep ident s
  | .debugPreempt ident => Sys2Proof.Machine.execDebugPreempt ident s
  | .debugRelease ident => Sys2Proof.Machine.execDebugRelease ident s
  | .registerWrite off four v => Sys2Proof.Machine.execRegisterWrite off four v s
  | .hostWindowAccess off size data => Sys2Proof.Machine.execHostWindowAccess off size data s
  | .watchReport k => Sys2Proof.Machine.execWatchReport k s
  | .remoteRequest r => Sys2Proof.Machine.execRemoteRequest r s
  | .remoteResponse op data => Sys2Proof.Machine.execRemoteResponse op data s
  | .holdNotice op => Sys2Proof.Machine.execHoldNotice op s
  | .collMatch op posts => Sys2Proof.Machine.execCollMatch op posts s
  | .flitReceive link flit => Sys2Proof.Machine.execFlitReceive link flit s
  | .replayRequest link seq => Sys2Proof.Machine.execReplayRequest link seq s
  | .pause link vc => Sys2Proof.Machine.execPause link vc s
  | .resume link vc => Sys2Proof.Machine.execResume link vc s
  | .laneFailure link lane => Sys2Proof.Machine.execLaneFailure link lane s
  | .linkDown link => Sys2Proof.Machine.execLinkDown link s
  | .packageReset => Sys2Proof.Machine.execPackageReset s
  | .packagePowerDown => Sys2Proof.Machine.execPackagePowerDown s
  | .recoveryLoad good => Sys2Proof.Machine.execRecoveryLoad good s
  | .linkRetrained link => Sys2Proof.Machine.execLinkRetrained link s
  | .cuveeLoadComplete g lane => Sys2Proof.Machine.execCuveeLoadComplete g lane s
  | .cuveeCheckComplete g lane => Sys2Proof.Machine.execCuveeCheckComplete g lane s
  | .bistComplete g lane fail row => Sys2Proof.Machine.execBistComplete g lane fail row s

end Sys2Proof.Machine
end

