-- ==== Sys2Proof/Machine/Issue.lean ====
section
/-!
DEFINITION. How a batch issues its next word or chain (R28, R36 to R54), how a held word is tried again, the die cycle (R41, R137, R143), and what
each move of the machine does (log 1).
-/

namespace Sys2Proof.Machine

/-- A further step after one that went well. -/
def andNext (o : Host.Outcome State Fault Refusal) (f : State → Host.Outcome State Fault Refusal) : Host.Outcome State Fault Refusal :=
  match o with
  | .next s => f s
  | .fault r => .fault r
  | .refused r => .refused r

/-- The state in which a batch issues. -/
def State.issuing (s : State) (c : Issue) : State := { s with dev := { s.dev with cur := some c } }

/-- The state after an issue: every helper stands with the fibre that it follows (R25). -/
def State.issued (s : State) (k : GKey) : State := { s with dev := { s.dev.modGroup k Group.syncHelpers with cur := none } }

/-- A batch issues one instruction. -/
def issueOne (c : Issue) (i : Instr) (s : State) : Host.Outcome State Fault Refusal :=
  andNext (exec i (s.issuing c)) fun t => .next (t.issued c.g)

/-! ### A held word tried again -/

/-- The issue of a held lane's word: the lanes of its batch, with its hold. -/
def heldIssue (g : Group) (l : Launch) (lane : Nat) (h : Hold) : Issue where
  g := g.key
  loc := (g.lane lane).pc
  lanes := g.heldWith lane
  on := g.heldOn (g.heldWith lane)
  reuse := (slotCtl (l.ctlAt (g.lane lane).pc) (pcSlot (g.lane lane).pc)).hold
  stop := (slotCtl (l.ctlAt (g.lane lane).pc) (pcSlot (g.lane lane).pc)).safe
  resume := some h
  guard := (slotCtl (l.ctlAt (g.lane lane).pc) (pcSlot (g.lane lane).pc)).grd.toNat
  checked := false

/-- The word of a held batch is tried again. -/
def retryWord (g : Group) (l : Launch) (lane : Nat) (h : Hold) (s : State) : Host.Outcome State Fault Refusal :=
  match heldWord l (g.lane lane) with
  | some i => issueOne (heldIssue g l lane h) i s
  | none => .next s

/-! ### Faults before a word issues -/

/-- A fault of a batch at a word of its packet; its lanes stay where the packet or chain begins. -/
def faultAt (k : GKey) (ls : List Nat) (pc loc : Pc) (f : FaultInfo) : Part :=
  Part.seq [
    takeFault k ls loc true f,
    Part.mod fun d => d.modGroup k fun g => g.backTo ls pc]

/-- ILLEGAL_PACKET or ILLEGAL_CHAIN (R38, R47). -/
def misfitFault (k : GKey) (ls : List Nat) (pc : Pc) (m : Misfit) : Part :=
  faultAt k ls pc (mkPc (pcPkt pc) m.slot) { code := m.code, cause := checkCause m.slot 0 m.reason }

/-- Whether a word names `brk` and has no stop bit: its first cause is reason 4 (R53, R94). -/
def Slotted.brkBare (u : Slotted) : Bool := !u.ctl.safe && u.names.any fun i => match i with | .brk _ => true | _ => false

/-- The fault of a word that does not decode (R45, R53). -/
def rejectFault (u : Slotted) (r : Reject) : FaultInfo :=
  { code := .illegalOpcode, cause := if u.brkBare then checkCause u.slot 0 4 else checkCause u.slot r.field r.reason }

/-! ### What an issue changes in its group, before its words act -/

/-- The lanes of a batch move on, the next issue waits for the stall count (R40), and the words are counted (q3 of R23). -/
def Group.advance (g : Group) (ls : List Nat) (now n dly : Nat) (pc next : Pc) : Group :=
  { g.modLanes ls fun _ x => { x with pc := next, waited := 0, starve := 0 } with
    q := cellSet g.q 3 (cellGet g.q 3 + BitVec.ofNat 64 n)
    nextIssue := now + 1 + dly
    last := some ⟨now, pc, none⟩
    yieldWords := g.yieldWords - n
    skipSite := none }

/-- A slot of a core has issued: a group there that yields notes it (R103). -/
def Group.sawIssue (g : Group) (p : Place) : Group :=
  match g.place with
  | some q =>
    if q.die = p.die ∧ q.core = p.core ∧ g.yieldUntil.isSome then { g with yieldSlots := p.slot :: g.yieldSlots } else g
  | none => g

/-- The pipes as they were before some words took theirs. -/
def Dev.pipesBefore (d : Dev) (p : Place) (us : List Slotted) : Dev :=
  { d with used := ((us.filterMap Slotted.pipe).map fun q => (p.die, p.core, q)).foldl List.erase d.used }

/-- The records as the words of a batch find them: the batch has moved on, and its group's other ready batches have waited once more (R137). -/
def State.advanced (s : State) (g : Group) (l : Launch) (lane : Nat) (us : List Slotted) : State :=
  let ls := g.batchOf lane
  let pc := (g.lane lane).pc
  let last := us.getLastD (slotted l (pcPkt pc) (pcSlot pc))
  let others : List Nat := match g.place with
    | some p => (State.readyBatches { s with dev := s.dev.pipesBefore p us } g l p).filter fun m => !ls.contains m
    | none => []
  let waits := others.flatMap g.batchOf
  let g1 := g.modLanes waits fun _ x => { x with waited := x.waited + 1 }
  let g2 := g1.advance ls (s.dev.now g) us.length last.ctl.dly pc (pcNext (mkPc (pcPkt pc) last.slot))
  let d1 := s.dev.setGroup g2
  { s with dev := match g.place with
      | some p => { d1 with groups := d1.groups.map fun x => if x.key = g.key then x else x.sawIssue p }
      | none => d1 }

/-! ### The words of an issue -/

/-- One word of a batch acts, as it stood when the issue began. -/
def issueSlot (g : Group) (ls : List Nat) (pc : Pc) (u : Slotted) (s : State) : Host.Outcome State Fault Refusal :=
  match u.instr with
  | .ok i => issueOne (issueOf g ls pc u) i s
  | .error r => commit s (faultAt g.key ls pc (mkPc (pcPkt pc) u.slot) (rejectFault u r) s)

/-- Whether a group has faulted or stopped. -/
def State.halts (s : State) (k : GKey) : Bool :=
  match s.dev.group? k with
  | some g => decide (g.run = .faulted) || decide (g.run = .stopped)
  | none => false

/-- The first of a chain's words that faults, tried one by one from the state before the chain (R49). -/
def chainFault (g : Group) (ls : List Nat) (pc : Pc) (s : State) : List Slotted → Option State
  | [] => none
  | u :: us =>
    match issueSlot g ls pc u s with
    | .next t =>
      if t.halts g.key then some { t with dev := t.dev.modGroup g.key fun x => x.backTo ls pc } else chainFault g ls pc s us
    | _ => none

/-- Words that move the spill pointer (R98, R156). -/
def Slotted.usesStack (u : Slotted) : Bool :=
  u.names.any fun i => match i with | .push _ _ | .pop _ _ | .call _ | .callx _ | .ret => true | _ => false

/-- Each lane's spill pointer and entry count taken from another list of lanes. -/
def Group.withStacks (g : Group) (xs : List Lane) : Group :=
  { g with lanes := List.zipWith (fun x y => { x with ssp := y.ssp, rc := y.rc }) g.lanes xs }

/-- The pointers after a word that found those of `old`: where the word has not moved one, it is that of `was`. -/
def Group.mergeStacks (g : Group) (old was : List Lane) : Group :=
  g.withStacks (List.zipWith (fun x p => if x.ssp = p.1.ssp ∧ x.rc = p.1.rc then p.2 else x) g.lanes (List.zip old was))

/-- The words of a chain act on what stood before it: their checks have been made, none of their results has landed, and a word that moves
the spill pointer finds it as it stood (R49). -/
def chainActs (g : Group) (ls : List Nat) (pc : Pc) (old : List Lane) : List Slotted → State → Host.Outcome State Fault Refusal
  | [], s => .next s
  | u :: us, s =>
    match u.instr, s.dev.group? g.key with
    | .ok i, some x =>
      let c := { issueOf g ls pc u with checked := true }
      if u.usesStack then
        andNext (issueOne c i { s with dev := s.dev.setGroup (x.withStacks old) }) fun t =>
          chainActs g ls pc old us { t with dev := t.dev.modGroup g.key fun y => y.mergeStacks old x.lanes }
      else andNext (issueOne c i s) (chainActs g ls pc old us)
    | _, _ => .next s

/-- The place of a word among those of its chain when they act: no order can be seen (R49). `sys.rd` stands first and control words last,
since a control word changes at once what others read; where two words move the spill pointer, `flip` says which is the later (log 55). -/
def Slotted.rank (flip : Bool) (u : Slotted) : Nat :=
  if u.names.any fun i => match i with | .sysRd _ _ => true | _ => false then 0
  else if u.pipe = some .ctl then 4
  else if flip && u.usesStack then 5
  else 1 + u.slot

/-- Words in the order in which they act. -/
def sortSlots (flip : Bool) : List Slotted → List Slotted
  | [] => []
  | u :: us => put u (sortSlots flip us)
where
  put (u : Slotted) : List Slotted → List Slotted
    | [] => [u]
    | v :: r => if u.rank flip ≤ v.rank flip then u :: v :: r else v :: put u r

/-- The words of a chain in the order in which they act, with the free choice taken for two that move the spill pointer. -/
def chainOrder (us : List Slotted) (s : State) : List Slotted × State :=
  if 1 < (us.filter Slotted.usesStack).length then
    (sortSlots (Config.freeBit s.dev.free) us, { s with dev := { s.dev with free := s.dev.free + 1 } })
  else (sortSlots false us, s)

/-- A `brk` word that has stopped its group: the group goes on after it (R94). -/
def Group.atBrk (g : Group) (pc : Pc) (us : List Slotted) : Group :=
  match us.head?.map Slotted.instr with
  | some (.ok (.brk _)) => if g.run = .stopped then { g with pastBrk := some pc } else g
  | _ => g

/-- The words that a ready batch issues: one word, or a chain, in which a fault of any word keeps all from acting (R49). -/
def issueWords (g : Group) (l : Launch) (lane : Nat) (us : List Slotted) (s : State) : Host.Outcome State Fault Refusal :=
  let ls := g.batchOf lane
  let pc := (g.lane lane).pc
  let s1 := s.advanced g l lane us
  match us with
  | [u] => andNext (issueSlot g ls pc u s1) fun t => .next { t with dev := t.dev.modGroup g.key fun x => x.atBrk pc us }
  | _ =>
    match chainFault g ls pc s1 us with
    | some t => .next { t with dev := t.dev.modGroup g.key fun x => x.atBrk pc us }
    | none =>
      let o := chainOrder us s1
      chainActs g ls pc g.lanes o.1 o.2

/-! ### Stop sites (R54, R367, R384) -/

/-- A group halts at a stop site: for a debugger's request with its record, or for a dump. A request whose debugger is gone lapses. -/
def stopHere (g : Group) (l : Launch) (lane : Nat) (s : State) : Option (List Act) :=
  let ls := g.batchOf lane
  let pc := (g.lane lane).pc
  let here (run : Run) : Part := Part.mod fun d => d.modGroup g.key fun x => { x with stopAt := none, skipSite := some pc, run := run }
  if s.dev.stopsAt g l pc (l.nextWords pc) = false then none
  else match g.stopAt with
    | some origin =>
      if s.dev.debugged l.job then
        some (Part.seq [takeFault g.key ls pc true { code := .brk, cause := origin * 2 ^ 17 }, here .stopped] s)
      else if s.dev.dumpStops l.job then some (here .dumped s)
      else none
    | none => some (Part.mod (fun d => d.modGroup g.key fun x => { x with skipSite := some pc, run := .dumped }) s)

/-! ### A batch's turn -/

/-- A batch that is not held: what keeps it, what faults before it, or its words (R38, R47, R53, R54). -/
def freshWord (g : Group) (l : Launch) (lane : Nat) (s : State) : Host.Outcome State Fault Refusal :=
  let pc := (g.lane lane).pc
  if (s.batchWaits g l lane).isSome then .next s
  else match packetMisfit l pc with
    | some m => commit s (misfitFault g.key (g.batchOf lane) pc m s)
    | none =>
      match stopHere g l lane s with
      | some as => commit s as
      | none =>
        match chainMisfit (l.nextWords pc) with
        | some m => commit s (misfitFault g.key (g.batchOf lane) pc m s)
        | none => issueWords g l lane (l.nextWords pc) s

/-- The batch of a group that holds a lane issues its next word or chain, or tries its held word again, where it may. -/
def batchActs (k : GKey) (lane : Nat) (s : State) : Host.Outcome State Fault Refusal :=
  match s.dev.group? k, s.dev.launch? k.launch with
  | some g, some l =>
    if !g.mayIssue || !g.isLive lane then .next s
    else match (g.lane lane).hold with
      | some h => retryWord g l lane h s
      | none => freshWord g l lane s
  | _, _ => .next s

/-- The batch of a group that holds a lane issues its next word or chain, or tries its held word again, where it may; then come the reports of the
watchpoints that it matched (R373). -/
def batchTurn (k : GKey) (lane : Nat) (s : State) : Host.Outcome State Fault Refusal :=
  andNext (batchActs k lane s) fun t => commit t (settleWatch k t)

/-- R276, R313: the load or atomic that a batch issues next meets an uncorrectable error at an address: it faults precisely, and the error
is counted. -/
def meetsError (k : GKey) (lane addr die src : Nat) : Part := fun s =>
  match s.dev.group? k, s.dev.launch? k.launch with
  | some g, some l =>
    let ls := g.batchOf lane
    let pc := (g.lane lane).pc
    let us := l.nextWords pc
    let reads (u : Slotted) : Bool :=
      (match u.instr with | .ok i => i.isFibreRead | .error _ => false) &&
      (g.guarded ls u.ctl.grd.toNat).any g.isLive
    if !g.mayIssue || !g.isLive lane || (g.lane lane).hold.isSome || (s.batchWaits g l lane).isSome || (packetMisfit l pc).isSome ||
        (chainMisfit us).isSome || s.dev.stopsAt g l pc us || decide (8 ≤ die) || decide (8 ≤ src) then []
    else match us.find? reads with
      | some u =>
        Part.seq [
          Part.mod fun d => d.countErr die src 0 1,
          faultAt k ls pc (mkPc (pcPkt pc) u.slot) { code := .uncorrectable, faddr := addr, cause := u.slot }] s
      | none => []
  | _, _ => []

/-! ### The die cycle -/

/-- Whether a held word is tried again in each die cycle; the others end by an event of their own. -/
def HoldKind.tried : HoldKind → Bool
  | .join | .arrive _ _ | .barrier _ | .xreg | .newVt _ | .turn _ | .retEntry | .obj _ | .cst _ _ _ _ | .tile _ | .slot _ | .retry => true
  | .wait _ | .waitAddr _ _ _ _ | .cuvee _ | .bist _ => false

/-- What a die does in one of its cycles, in order: held words are tried again, each core has two issue opportunities, and the cycle ends (R135). -/
def cycleMoves (d : Dev) (die : Nat) : List Move :=
  let here := d.groups.filter fun g => decide (g.run ≠ .ended) && decide (g.place.map Place.die = some die)
  let held := here.flatMap fun g => (g.heldBatches.filter fun m =>
    match (g.lane m).hold with | some h => h.kind.tried | none => false).map fun m => Move.word g.key m
  let cores := sortNat (here.filterMap fun g => g.place.map Place.core)
  held ++ (cores.flatMap fun c => [.opportunity die c, .opportunity die c]) ++ [.endCycle die]

/-- The counters of a group that did not issue in a die cycle (R23, R143). -/
def State.countStall (s : State) (g : Group) : Group :=
  match s.dev.launch? g.key.launch with
  | none => g
  | some l =>
    if g.last.map LastIssue.cycle = some (s.dev.now g) then g
    else
      let why := s.stallReason g l
      let c := cellGet g.stall why.1
      { g with
        stall := if c = BitVec.ofNat 64 (2 ^ 64 - 1) then g.stall else cellSet g.stall why.1 (c + 1)
        q := cellSet g.q 4 (cellGet g.q 4 + 1)
        last := some ⟨s.dev.now g, (g.lane (why.2.getD 0)).pc, some why.1⟩ }

/-- Whether the packet or the operands of a group keep it in the next die cycle, by two free choices (log 12). -/
def fetchOf (n : Nat) : Option Nat :=
  if Config.freeBit n then some 0 else if Config.freeBit (n + 1) then some 2 else none

/-- The groups of a list with their free choices for the next die cycle. -/
def fetchAll (die : Nat) : Nat → List Group → List Group
  | _, [] => []
  | n, g :: gs =>
    (if g.place.map Place.die = some die then { g with fetch := fetchOf n } else g) :: fetchAll die (n + 2) gs

/-- The end of a die cycle: counters, then the next cycle with what lands in it (R41, R140, R143). -/
def endCycle (die : Nat) : Part :=
  Part.seq [
    (fun s =>
      let here := s.dev.groups.filter fun g => decide (g.run ≠ .ended) && decide (g.place.map Place.die = some die)
      let d1 := here.foldl (fun d g => d.setGroup (s.countStall g)) s.dev
      let now := d1.cycle die + 1
      let d2 : Dev := { d1 with cycles := cellSet d1.cycles die (BitVec.ofNat 64 now) }
      let lands := d1.groups.filter fun g => decide (g.place.map Place.die = some die) && (decide (g.run ≠ .ended) || !g.pend.isEmpty)
      let d3 := lands.foldl (fun d g => d.landDue g.key now) d2
      let d4 := (d3.settleX die).settleCopies die
      [.dev { d4 with
        used := d4.used.filter fun u => decide (u.1 ≠ die)
        groups := fetchAll die d4.free d4.groups
        free := d4.free + 2 * d4.groups.length }]),
    Part.mod Dev.parkAll,
    dumpGoesOn,
    serveHeld,
    startDue]

/-! ### Moves -/

/-- Whether an input acts on a package that has no power, or whose image failed its check (R11, R346). -/
def Dev.admitsInput (d : Dev) : Input → Bool
  | .event .packageReset => true
  | .event (.recoveryLoad _) => d.power
  | .event .packagePowerDown => d.power
  | .ref _ => d.power
  | _ => d.power && d.trust.good

/-- What an input does. -/
def takeInput (i : Input) (s : State) : Host.Outcome State Fault Refusal :=
  if !s.dev.admitsInput i then .next s
  else match i with
    | .cycle die => if die < 6 then commit s [.dev { s.dev with moves := cycleMoves s.dev die }] else .next s
    | .ref n => commit s (passTime n s)
    | .perform g k => commit s (performAccess g k s)
    | .uncorrectable g lane addr die src => commit s (meetsError g lane addr die src s)
    | .opError op die src => commit s (Part.seq [opMeetsError op die src, passMeetsError op die src] s)
    | .requestError r page die src => commit s (requestError r page die src s)
    | .memberEnded op => commit s (memberEnded op s)
    | .flitTaken link vc => commit s (if 18 ≤ link ∨ 4 ≤ vc then [] else [.dev (s.dev.takeInputFlit link vc)])
    | .sensor die n v => commit s (sensorReads die n v s)
    | .bitErrors die v => commit s (marginErrors die v s)
    | .hostWrite addr data => commit s (if addr + data.length ≤ 2 ^ 64 then storeBytes .host addr data else [])
    | .route pkg a b => commit s [.dev { s.dev with
        routes := upsert (fun r => decide (r.package = pkg)) ⟨pkg, a, b⟩ s.dev.routes }]
    | .event i => exec i s

/-- What a move does. -/
def runMove (m : Move) (s : State) : Host.Outcome State Fault Refusal :=
  match m with
  | .input i => takeInput i s
  | .opportunity die core => commit s (opportunity die core s)
  | .word k lane => batchTurn k lane s
  | .endCycle die => commit s (endCycle die s)

/-- The next move of the machine: the one that stands first, or else what the world outside supplies. -/
def nextMove (s : State) : Move × State :=
  match s.dev.moves with
  | m :: ms => (m, { s with dev := { s.dev with moves := ms } })
  | [] => (.input (Config.freeInput s.dev.free), { s with dev := { s.dev with free := s.dev.free + 1 } })

end Sys2Proof.Machine
end

