-- ==== Sys2Proof/Machine/Step.lean ====
section
/-!
DEFINITION. The step, and the state in which a given word issues next (log 2).
-/

namespace Sys2Proof.Machine

/-- One step: the next move is made. -/
def step (s : State) : Host.Outcome State Fault Refusal := runMove (nextMove s).1 (nextMove s).2

/-! ### A word placed where the next step issues it -/

/-- The job of a placed word: number 1, with TEST and the first pad unit. -/
def fetchJob : Job := newJob ([1, 0, 0, 0, 1] ++ List.replicate 43 0 ++ [1] ++ List.replicate 79 0)

/-- The word that stands after a placed one: of another pipe than the placed word, so that a chain of the two may issue. -/
def fetchNext (w : Word) : Word := if pipeOf (opOf w) = some .ctl then encode false (.mov false 0 0) else encode false .nop

/-- The code of a placed word: one packet at 0x80, its first word the given one at a stop site, its others guarded never. -/
def fetchCode (w : Word) : Cells 32 :=
  cellSet (cellSet (cellSet [] 32 (encodeCtl ⟨false, true, 15, 0⟩ ⟨false, false, 31, 0⟩ ⟨false, false, 31, 0⟩)) 33 w) 34 (fetchNext w)

/-- The launch of a placed word: one block of one group of eight lanes. -/
def fetchLaunch (w : Word) : Launch where
  tag := 0
  id := 1
  job := 1
  origin := .queue 1 0 1
  det := false
  persistent := false
  sampling := false
  priority := 0
  acct := 32
  gang := 1
  dogUs := 0
  image := 0
  param := 0
  seed := 0
  gx := 1
  gy := 1
  gz := 1
  resLimit := 0
  quantumUs := 0
  sampleNs := 0
  width := 0
  divDepth := 4
  blkMem := 262144
  xregs := true
  groups := 1
  spill := 64
  codeOff := 0x80
  codeSize := 16
  entry := 8
  code := fetchCode w
  spt := [⟨8, 0, 0, 0, 0⟩]
  windows := []
  cells := 0
  saveHeld := 0
  cellHeld := 0
  gridBar := .fresh 1
  gangBars := []
  gp := 0
  gridPhase := 0
  fresh := 1
  back := []
  ended := 0
  rootNext := 0
  rootDone := []
  digest := []
  sampleTimer := 0
  started := 0
  knows := []

/-- The group whose first lane issues a placed word. -/
def fetchKey : GKey := ⟨0, 0, 0⟩

/-- A state in which the next step issues the instruction with the bits `w`: a group of a launch of a job stands at it on a core, and its
batch is the next move. This stands for what JOBADD, QADD, a launch record and a placement do (log 2). -/
def State.withFetchWord (s : State) (nbits w : Nat) : State :=
  let l := fetchLaunch (BitVec.ofNat 32 (w % 2 ^ nbits))
  let d := (((s.dev.setJob fetchJob).setLaunch l).setBlock (newBlock l 0 0 0)).setGroup (newGroup l 0 0 ⟨0, 0, 0⟩)
  { s with dev := { d with
      power := true
      trust := { d.trust with good := true }
      moves := .word fetchKey 0 :: d.moves } }

end Sys2Proof.Machine
end

