-- ==== Sys2Proof/Safety.lean ====
section
/-!
DEFINITION. What the statements call a safe state, and the words they share: what it means that a group issues an instruction without
meeting a check of R53, what a state is after a computing word, and, table by table, the results that the rules give such words.
-/

namespace Sys2Proof.Machine

/-- The invariant of the machine: each of its five memories is in canonical form. -/
def State.Inv (s : State) : Prop :=
  s.pad.wf = true ∧ s.main.wf = true ∧ s.host.wf = true ∧ s.blk.wf = true ∧ s.stk.wf = true

/-- No byte of any memory differs. -/
def State.SameMemory (s t : State) : Prop :=
  t.pad = s.pad ∧ t.main = s.main ∧ t.host = s.host ∧ t.blk = s.blk ∧ t.stk = s.stk

/-- A batch `c` of the group `g` of the launch `la` issues the instruction, and it meets none of the checks of R53 that all words share. -/
structure Issues (s : State) (i : Instr) (c : Issue) (g : Group) (la : Launch) : Prop where
  cur : s.dev.cur = some c
  group : s.dev.group? c.g = some g
  launch : s.dev.launch? c.g.launch = some la
  checks : commonFault s.dev g la c i i.latency = none

/-- The state after a computing word: its results are on their way with a latency (R41), and nothing else differs. -/
def State.after (s : State) (k : GKey) (lat : Nat) (outs : List Out) : State :=
  if outs.isEmpty then s else { s with dev := s.dev.retire k lat outs }

/-- The state with one group replaced. -/
def State.withGroup (s : State) (g : Group) : State := { s with dev := s.dev.setGroup g }

/-- The state with its records changed. -/
def State.withDev (s : State) (f : Dev → Dev) : State := { s with dev := f s.dev }

/-- The state after a part of a meaning. -/
def State.did (s : State) (p : Part) : State := s.run (p s)

/-- The live lanes of a batch whose guard is true. -/
def Issue.voters (c : Issue) (g : Group) : List Nat := c.on.filter g.isLive

/-- The state after a precise fault of a batch (R53, R181 to R183). -/
def State.faults (s : State) (c : Issue) (f : FaultInfo) : State := s.did (raise c f)

/-- What the rules say of a computing word: whether its sources have to be uniform under UCHK (R52), its latency and its results. -/
structure ResultRule where
  uni : Bool
  lat : Nat
  outs : State → Issue → Group → Launch → List Out

/-- Runs of `k` registers, one for each lane whose guard is true, computed from the registers of the lane, or of the leader under S. -/
def laneOuts (sc : Bool) (d : Reg) (k : Nat) (f : (Nat → Word) → Nat) (s : State) (c : Issue) (g : Group) (_ : Launch) : List Out :=
  c.on.flatMap fun l => match sourceLane g c sc l with
    | some m => outRun g l d.toNat k (f (srcV s.dev g c m))
    | none => []

/-- A predicate for each lane whose guard is true, computed from the registers of the lane, or of the leader under S. -/
def predOuts (sc : Bool) (d : Reg) (f : (Nat → Word) → Bool) (s : State) (c : Issue) (g : Group) (_ : Launch) : List Out :=
  c.on.flatMap fun l => match sourceLane g c sc l with
    | some m => outPred l d.toNat (f (srcV s.dev g c m))
    | none => []

/-- Runs of registers with the sticky flags of the lanes that count (R73, R106, R107). -/
def fpOuts (sc : Bool) (d : Reg) (f : Rm → (Nat → Word) → Nat × Flags) (s : State) (c : Issue) (g : Group) (la : Launch) : List Out :=
  laneOuts sc d 1 (fun r => (f g.rm r).1) s c g la ++
    outFlags (joinBits ((flagLanes g c sc).map fun l => (f g.rm (srcV s.dev g c l)).2))

/-- A register as an unsigned number, and as a signed one. -/
def uval (r : Nat → Word) (a : Reg) : Nat := (r a.toNat).toNat
def sval (r : Nat → Word) (a : Reg) : Int := (r a.toNat).toInt
/-- A pair of registers as an unsigned number (R21). -/
def pval (r : Nat → Word) (a : Reg) : Nat := (r a.toNat).toNat + 2 ^ 32 * (r (a.toNat + 1)).toNat
/-- An integer as the word of 32 bits, or of 64, that holds it modulo that power of 2 (R79). -/
def wrap32 (x : Int) : Nat := (x % (2 ^ 32 : Int)).toNat

/-- R79 to R91: the results of the integer words. -/
def intRule : Instr → Option ResultRule
  | .add sc d a b => some ⟨sc, 2, laneOuts sc d 1 fun r => (uval r a + uval r b) % 2 ^ 32⟩
  | .sub sc d a b => some ⟨sc, 2, laneOuts sc d 1 fun r => (2 ^ 32 - uval r b + uval r a) % 2 ^ 32⟩
  | .addSatS32 sc d a b => some ⟨sc, 2, laneOuts sc d 1 fun r => wrap32 (max (-2 ^ 31) (min (2 ^ 31 - 1) (sval r a + sval r b)))⟩
  | .subSatS32 sc d a b => some ⟨sc, 2, laneOuts sc d 1 fun r => wrap32 (max (-2 ^ 31) (min (2 ^ 31 - 1) (sval r a - sval r b)))⟩
  | .addSatZ32 sc d a b => some ⟨sc, 2, laneOuts sc d 1 fun r => min (2 ^ 32 - 1) (uval r a + uval r b)⟩
  | .subSatZ32 sc d a b => some ⟨sc, 2, laneOuts sc d 1 fun r => uval r a - uval r b⟩
  | .addB64 sc d a b => some ⟨sc, 2, laneOuts sc d 2 fun r => (pval r a + pval r b) % 2 ^ 64⟩
  | .subB64 sc d a b => some ⟨sc, 2, laneOuts sc d 2 fun r => (pval r a + (2 ^ 64 - pval r b)) % 2 ^ 64⟩
  | .mul sc d a b => some ⟨sc, 2, laneOuts sc d 1 fun r => uval r a * uval r b % 2 ^ 32⟩
  | .mulHiS32 sc d a b => some ⟨sc, 2, laneOuts sc d 1 fun r => wrap64 (sval r a * sval r b) / 2 ^ 32⟩
  | .mulHiZ32 sc d a b => some ⟨sc, 2, laneOuts sc d 1 fun r => uval r a * uval r b / 2 ^ 32⟩
  | .mulWideS32 sc d a b => some ⟨sc, 2, laneOuts sc d 2 fun r => wrap64 (sval r a * sval r b)⟩
  | .mulWideZ32 sc d a b => some ⟨sc, 2, laneOuts sc d 2 fun r => uval r a * uval r b⟩
  | .mad sc d a b => some ⟨sc, 2, laneOuts sc d 1 fun r => (uval r a * uval r b + uval r d) % 2 ^ 32⟩
  | .madWideS32 sc d a b => some ⟨sc, 2, laneOuts sc d 2 fun r => wrap64 (sval r a * sval r b + pval r d)⟩
  | .madWideZ32 sc d a b => some ⟨sc, 2, laneOuts sc d 2 fun r => (uval r a * uval r b + pval r d) % 2 ^ 64⟩
  | .and sc d a b => some ⟨sc, 2, laneOuts sc d 1 fun r => uval r a &&& uval r b⟩
  | .or sc d a b => some ⟨sc, 2, laneOuts sc d 1 fun r => uval r a ||| uval r b⟩
  | .xor sc d a b => some ⟨sc, 2, laneOuts sc d 1 fun r => uval r a ^^^ uval r b⟩
  | .andn sc d a b => some ⟨sc, 2, laneOuts sc d 1 fun r => uval r a &&& (2 ^ 32 - 1 - uval r b)⟩
  | .orn sc d a b => some ⟨sc, 2, laneOuts sc d 1 fun r => uval r a ||| (2 ^ 32 - 1 - uval r b)⟩
  | .xnor sc d a b => some ⟨sc, 2, laneOuts sc d 1 fun r => 2 ^ 32 - 1 - (uval r a ^^^ uval r b)⟩
  | .not sc d a => some ⟨sc, 2, laneOuts sc d 1 fun r => 2 ^ 32 - 1 - uval r a⟩
  | .shl sc d a b => some ⟨sc, 2, laneOuts sc d 1 fun r => if 32 ≤ uval r b then 0 else uval r a * 2 ^ uval r b % 2 ^ 32⟩
  | .shrZ32 sc d a b => some ⟨sc, 2, laneOuts sc d 1 fun r => uval r a / 2 ^ uval r b⟩
  | .shrS32 sc d a b => some ⟨sc, 2, laneOuts sc d 1 fun r => wrap32 (sval r a / 2 ^ min 31 (uval r b))⟩
  | .rol sc d a b => some ⟨sc, 2, laneOuts sc d 1 fun r => ((r a.toNat).rotateLeft (uval r b % 32)).toNat⟩
  | .ror sc d a b => some ⟨sc, 2, laneOuts sc d 1 fun r => ((r a.toNat).rotateRight (uval r b % 32)).toNat⟩
  | .popc sc d a => some ⟨sc, 2, laneOuts sc d 1 fun r => popcount (uval r a) 32⟩
  | .clz sc d a => some ⟨sc, 2, laneOuts sc d 1 fun r => leadingZeros (uval r a) 32⟩
  | .ctz sc d a => some ⟨sc, 2, laneOuts sc d 1 fun r => trailingZeros (uval r a) 0 32⟩
  | .brev sc d a => some ⟨sc, 2, laneOuts sc d 1 fun r => reverseBits (uval r a) 32⟩
  | .bswap sc d a => some ⟨sc, 2, laneOuts sc d 1 fun r => swapBytes (uval r a)⟩
  | .bfxZ32 sc d a b => some ⟨sc, 2, laneOuts sc d 1 fun r => uval r a / 2 ^ fieldPos (r b.toNat) % 2 ^ fieldLen (r b.toNat)⟩
  | .bfxS32 sc d a b => some ⟨sc, 2, laneOuts sc d 1 fun r => extractField true (r a.toNat) (r b.toNat)⟩
  | .bfi sc d a b => some ⟨sc, 2, laneOuts sc d 1 fun r => insertField (r d.toNat) (r a.toNat) (r b.toNat)⟩
  | .minS32 sc d a b => some ⟨sc, 2, laneOuts sc d 1 fun r => wrap32 (min (sval r a) (sval r b))⟩
  | .minZ32 sc d a b => some ⟨sc, 2, laneOuts sc d 1 fun r => min (uval r a) (uval r b)⟩
  | .maxS32 sc d a b => some ⟨sc, 2, laneOuts sc d 1 fun r => wrap32 (max (sval r a) (sval r b))⟩
  | .maxZ32 sc d a b => some ⟨sc, 2, laneOuts sc d 1 fun r => max (uval r a) (uval r b)⟩
  | .absS32 sc d a => some ⟨sc, 2, laneOuts sc d 1 fun r => wrap32 (max (sval r a) (-sval r a))⟩
  | .negS32 sc d a => some ⟨sc, 2, laneOuts sc d 1 fun r => wrap32 (-sval r a)⟩
  | .movi sc d i => some ⟨sc, 2, laneOuts sc d 1 fun _ => wrap32 i.toInt⟩
  | .movh sc d i => some ⟨sc, 2, laneOuts sc d 1 fun r => i.toNat * 2 ^ 15 + uval r d % 2 ^ 15⟩
  | .iaddi sc d a i => some ⟨sc, 2, laneOuts sc d 1 fun r => wrap32 (uval r a + i.toInt)⟩
  | .andi sc d a i => some ⟨sc, 2, laneOuts sc d 1 fun r => uval r a &&& wrap32 i.toInt⟩
  | .ori sc d a i => some ⟨sc, 2, laneOuts sc d 1 fun r => uval r a ||| wrap32 i.toInt⟩
  | .xori sc d a i => some ⟨sc, 2, laneOuts sc d 1 fun r => uval r a ^^^ wrap32 i.toInt⟩
  | .shli sc d a n => some ⟨sc, 2, laneOuts sc d 1 fun r => uval r a * 2 ^ n.toNat % 2 ^ 32⟩
  | .shriZ32 sc d a n => some ⟨sc, 2, laneOuts sc d 1 fun r => uval r a / 2 ^ n.toNat⟩
  | .shriS32 sc d a n => some ⟨sc, 2, laneOuts sc d 1 fun r => wrap32 (sval r a / 2 ^ n.toNat)⟩
  | .rori sc d a n => some ⟨sc, 2, laneOuts sc d 1 fun r => ((r a.toNat).rotateRight n.toNat).toNat⟩
  | .mov sc d a => some ⟨sc, 2, laneOuts sc d 1 fun r => uval r a⟩
  | .sel sc d a b => some ⟨sc, 2, laneOuts sc d 1 fun r => if uval r d = 0 then uval r b else uval r a⟩
  | .lea sc d a b n => some ⟨sc, 2, laneOuts sc d 1 fun r => (uval r a + uval r b * 2 ^ n.toNat) % 2 ^ 32⟩
  | _ => none

/-- R87 and R92: the results of the words that write predicates, and of those that read them. -/
def predRule : Instr → Option ResultRule
  | .icmp sc d a b k => some ⟨sc, 2, predOuts sc d fun r => match k with
      | .eq => decide (r a.toNat = r b.toNat)
      | .ne => decide (r a.toNat ≠ r b.toNat)
      | .ltS32 => decide (sval r a < sval r b)
      | .leS32 => decide (sval r a ≤ sval r b)
      | .ltZ32 => decide (uval r a < uval r b)
      | .leZ32 => decide (uval r a ≤ uval r b)
      | .tst => decide (r a.toNat &&& r b.toNat ≠ 0)⟩
  | .pand d a b => some ⟨false, 2, fun _ c g _ => c.on.flatMap fun l => outPred l d.toNat ((g.lane l).predF a.toNat && (g.lane l).predF b.toNat)⟩
  | .por d a b => some ⟨false, 2, fun _ c g _ => c.on.flatMap fun l => outPred l d.toNat ((g.lane l).predF a.toNat || (g.lane l).predF b.toNat)⟩
  | .pxor d a b => some ⟨false, 2, fun _ c g _ => c.on.flatMap fun l => outPred l d.toNat ((g.lane l).predF a.toNat ^^ (g.lane l).predF b.toNat)⟩
  | .pSet d a => some ⟨false, 2, predOuts false d fun r => decide (r a.toNat ≠ 0)⟩
  | .pGet d a => some ⟨false, 2, fun _ c g _ => c.on.flatMap fun l => outRun g l d.toNat 1 (if (g.lane l).predF a.toNat then 1 else 0)⟩
  | .pwRd d => some ⟨false, 2, fun _ c g _ => c.on.flatMap fun l => outRun g l d.toNat 1 (g.lane l).preds.toNat⟩
  | .pwWr a => some ⟨false, 2, fun s c g _ => c.on.map fun l => ⟨l, .pw, BitVec.ofNat 64 ((srcV s.dev g c l a.toNat).toNat % 2 ^ 16)⟩⟩
  | _ => none

/-- A binary operation on each element of a type (R106). -/
def two (t : FpTy) (a b : Reg) (f : Rm → Nat → Nat → Res) (m : Rm) (r : Nat → Word) : Nat × Flags :=
  eltwise t fun j => f m (elt (fpFmt t) (r a.toNat) j) (elt (fpFmt t) (r b.toNat) j)

/-- An SFU function on each element of a type (R74, R114). -/
def one (t : FpTy) (a : Reg) (f : Sfu) (m : Rm) (r : Nat → Word) : Nat × Flags :=
  eltwise t fun j => sfu (fpFmt t) m f (elt (fpFmt t) (r a.toNat) j)

/-- `ffma`: d also names the addend (R110). -/
def three (t : FpTy) (d a b : Reg) (sat : Bool) (m : Rm) (r : Nat → Word) : Nat × Flags :=
  eltwise t fun j => fpFma (fpFmt t) m sat (elt (fpFmt t) (r a.toNat) j) (elt (fpFmt t) (r b.toNat) j) (elt (fpFmt t) (r d.toNat) j)

/-- R106 to R117: the results and sticky flags of the FPU and SFU words. -/
def fpRule : Instr → Option ResultRule
  | .faddF32 sc d a b => some ⟨sc, 4, fpOuts sc d (two .f32 a b fun m => fpAdd fmtF32 m false)⟩
  | .fsubF32 sc d a b => some ⟨sc, 4, fpOuts sc d (two .f32 a b fun m => fpSub fmtF32 m false)⟩
  | .faddF16x2 sc d a b => some ⟨sc, 4, fpOuts sc d (two .f16x2 a b fun m => fpAdd fmtF16 m false)⟩
  | .fsubF16x2 sc d a b => some ⟨sc, 4, fpOuts sc d (two .f16x2 a b fun m => fpSub fmtF16 m false)⟩
  | .faddBf16x2 sc d a b => some ⟨sc, 4, fpOuts sc d (two .bf16x2 a b fun m => fpAdd fmtBf16 m false)⟩
  | .fsubBf16x2 sc d a b => some ⟨sc, 4, fpOuts sc d (two .bf16x2 a b fun m => fpSub fmtBf16 m false)⟩
  | .faddSatF32 sc d a b => some ⟨sc, 4, fpOuts sc d (two .f32 a b fun m => fpAdd fmtF32 m true)⟩
  | .fsubSatF32 sc d a b => some ⟨sc, 4, fpOuts sc d (two .f32 a b fun m => fpSub fmtF32 m true)⟩
  | .fmulF32 sc d a b t => some ⟨sc, 4, fpOuts sc d (two .f32 a b fun m => fpMul fmtF32 m t)⟩
  | .fmulF16x2 sc d a b t => some ⟨sc, 4, fpOuts sc d (two .f16x2 a b fun m => fpMul fmtF16 m t)⟩
  | .fmulBf16x2 sc d a b t => some ⟨sc, 4, fpOuts sc d (two .bf16x2 a b fun m => fpMul fmtBf16 m t)⟩
  | .ffmaF32 sc d a b t => some ⟨sc, 4, fpOuts sc d (three .f32 d a b t)⟩
  | .ffmaF16x2 sc d a b t => some ⟨sc, 4, fpOuts sc d (three .f16x2 d a b t)⟩
  | .ffmaBf16x2 sc d a b t => some ⟨sc, 4, fpOuts sc d (three .bf16x2 d a b t)⟩
  | .fmin sc d a b t => some ⟨sc, 4, fpOuts sc d (two t a b fun _ x y => ⟨fpMinMax (fpFmt t) false x y, {}⟩)⟩
  | .fmax sc d a b t => some ⟨sc, 4, fpOuts sc d (two t a b fun _ x y => ⟨fpMinMax (fpFmt t) true x y, {}⟩)⟩
  | .fclass sc d a => some ⟨sc, 4, laneOuts sc d 1 fun r => fpClass (uval r a)⟩
  | .fcmp sc d a b k => some ⟨sc, 4, fun s c g la =>
      predOuts sc d (fun r => (fcondEval k (r a.toNat) (r b.toNat)).1) s c g la ++
        outFlags (joinBits ((flagLanes g c sc).map fun l =>
          if (fcondEval k (srcV s.dev g c l a.toNat) (srcV s.dev g c l b.toNat)).2 then Flags.invalid else {}))⟩
  | .rcp sc d a t => some ⟨sc, 10, fpOuts sc d (one t a .rcp)⟩
  | .rsq sc d a t => some ⟨sc, 10, fpOuts sc d (one t a .rsq)⟩
  | .sqrt sc d a t => some ⟨sc, 10, fpOuts sc d (one t a .sqrt)⟩
  | .exp2 sc d a t => some ⟨sc, 10, fpOuts sc d (one t a .exp2)⟩
  | .log2 sc d a t => some ⟨sc, 10, fpOuts sc d (one t a .log2)⟩
  | .sin sc d a t => some ⟨sc, 10, fpOuts sc d (one t a .sin)⟩
  | .cos sc d a t => some ⟨sc, 10, fpOuts sc d (one t a .cos)⟩
  | .tanh sc d a t => some ⟨sc, 10, fpOuts sc d (one t a .tanh)⟩
  | .erf sc d a t => some ⟨sc, 10, fpOuts sc d (one t a .erf)⟩
  | .ncdf sc d a t => some ⟨sc, 10, fpOuts sc d (one t a .ncdf)⟩
  | .npdf sc d a t => some ⟨sc, 10, fpOuts sc d (one t a .npdf)⟩
  | .packE4m3F32 sc d a r => some ⟨sc, 4, fpOuts sc d fun m v => packRun .e4m3 4 (fun _ => (rsMode r m).1) (rsMode r m).2 fun j => v (a.toNat + j)⟩
  | .packE5m2F32 sc d a r => some ⟨sc, 4, fpOuts sc d fun m v => packRun .e5m2 4 (fun _ => (rsMode r m).1) (rsMode r m).2 fun j => v (a.toNat + j)⟩
  | .packE2m1F32 sc d a r => some ⟨sc, 4, fpOuts sc d fun m v => packRun .e2m1 8 (fun _ => (rsMode r m).1) (rsMode r m).2 fun j => v (a.toNat + j)⟩
  | .unpackF32E4m3 sc d a => some ⟨sc, 4, laneOuts sc d 4 fun r => unpackRun .e4m3 4 (r a.toNat)⟩
  | .unpackF32E5m2 sc d a => some ⟨sc, 4, laneOuts sc d 4 fun r => unpackRun .e5m2 4 (r a.toNat)⟩
  | .unpackF32E2m1 sc d a => some ⟨sc, 4, laneOuts sc d 8 fun r => unpackRun .e2m1 8 (r a.toNat)⟩
  | .cvt sc d a v r => some ⟨sc, 4, fpOuts sc d fun m w =>
      let x := convertElt v.src v.dst (rsMode r m).1 (rsMode r m).2 (w a.toNat).toNat
      (x.bits, x.fl)⟩
  | _ => none

/-- Four words as one number of 128 bits. -/
def quadNat (q : Quad) : Nat := q.x0.toNat + 2 ^ 32 * q.x1.toNat + 2 ^ 64 * q.x2.toNat + 2 ^ 96 * q.x3.toNat

/-- A conversion of `n` elements by stochastic rounding, each with its own word of the lane's draws (R68, R120). -/
def srOuts (d a b : Reg) (dst : Fmt) (n : Nat) (s : State) (c : Issue) (g : Group) (la : Launch) : List Out :=
  let ctr (l : Nat) : Word := srcV s.dev g c l b.toNat
  let rnd (l j : Nat) : Nat :=
    (if j < 4 then (laneDraw la c .cvtSr (ctr l) l).get j else (laneDraw la c .cvtSr (ctr l + 1) l).get (j - 4)).toNat
  let res (l : Nat) : Nat × Flags := packRun dst n (fun j => .sr (rnd l j)) false fun j => srcV s.dev g c l (a.toNat + j)
  (c.on.flatMap fun l => outRun g l d.toNat 1 (res l).1) ++ outFlags (joinBits ((flagLanes g c false).map fun l => (res l).2))

/-- R77, R119, R120 and R130: the results of the words that draw. -/
def drawRule : Instr → Option ResultRule
  | .rngB128 d a => some ⟨false, 4, fun s c g la => c.on.flatMap fun l =>
      outRun g l d.toNat 4 (quadNat (laneDraw la c .rng (srcV s.dev g c l a.toNat) l))⟩
  | .rngF32 d a => some ⟨false, 4, fun s c g la => c.on.flatMap fun l =>
      outRun g l d.toNat 1 (roundDyadic fmtF32 .rn false false ((laneDraw la c .rng (srcV s.dev g c l a.toNat) l).x0.toNat / 2 ^ 8) (-24)).bits⟩
  | .cvtSrBf16F32 d a b => some ⟨false, 4, srOuts d a b .bf16 1⟩
  | .cvtSrF16F32 d a b => some ⟨false, 4, srOuts d a b .f16 1⟩
  | .cvtSrBf16x2F32 d a b => some ⟨false, 4, srOuts d a b .bf16 2⟩
  | .packSrE4m3F32 d a b => some ⟨false, 4, srOuts d a b .e4m3 4⟩
  | .packSrE5m2F32 d a b => some ⟨false, 4, srOuts d a b .e5m2 4⟩
  | .packSrE2m1F32 d a b => some ⟨false, 4, srOuts d a b .e2m1 8⟩
  | .mcolSmp d a b => some ⟨false, 6, fun s c g la =>
      let res (l : Nat) : Res :=
        let q := laneDraw la c .mcolSmp (srcV s.dev g c l b.toNat) l
        mcolSmpStep (g.mom l a.toNat) q.x0.toNat q.x1.toNat
      (c.on.flatMap fun l => outRun g l d.toNat 1 (res l).bits) ++ outFlags (joinBits ((flagLanes g c false).map fun l => (res l).fl))⟩
  | _ => none

/-- R126 to R129: destination, CheckVar origin, latency and, lane by lane, the moment of a word that writes one. -/
def momRule : Instr → Option (Reg × Nat × Nat × (State → Issue → Group → Nat → MomRes))
  | .madd d a b => some (d, 0, 6, fun _ _ g l => maddStep 1 g.corr (g.mom l a.toNat) (g.mom l b.toNat))
  | .msub d a b => some (d, 0, 6, fun _ _ g l => maddStep (-1) g.corr (g.mom l a.toNat) (g.mom l b.toNat))
  | .mmul d a b => some (d, 0, 6, fun _ _ g l => mmulStep g.corr (g.mom l a.toNat) (g.mom l b.toNat) none)
  | .mfma d a b => some (d, 0, 6, fun _ _ g l => mmulStep g.corr (g.mom l a.toNat) (g.mom l b.toNat) (some (g.mom l d.toNat)))
  | .mscl d a b => some (d, 0, 6, fun s c g l => msclStep (g.mom l a.toNat) (srcV s.dev g c l b.toNat).toNat)
  | .mrelu d a => some (d, 0, 10, fun _ _ g l => mreluStep (g.mom l a.toNat))
  | .mexp d a => some (d, 0, 10, fun _ _ g l => mexpStep (g.mom l a.toNat))
  | .msigm d a => some (d, 0, 10, fun _ _ g l => msigmStep (g.mom l a.toNat))
  | .mtanh d a => some (d, 0, 10, fun _ _ g l => mtanhStep (g.mom l a.toNat))
  | .mset d a b => some (d, 1, 6, fun s c g l =>
      let m := (srcV s.dev g c l a.toNat).toNat
      ⟨if (f32 m).isNan then fmtF32.nan else m, (srcV s.dev g c l b.toNat).toNat, {}⟩)
  | _ => none

/-- R129: the results of the words that read a moment's mean or variance. -/
def collapseRule : Instr → Option ResultRule
  | .mcolMean d a => some ⟨false, 6, fun _ c g _ => c.on.flatMap fun l => outRun g l d.toNat 1 ((cellGet (g.lane l).m a.toNat).toNat % 2 ^ 32)⟩
  | .mcolVar d a => some ⟨false, 6, fun _ c g _ => c.on.flatMap fun l => outRun g l d.toNat 1 ((cellGet (g.lane l).m a.toNat).toNat / 2 ^ 32)⟩
  | _ => none

/-- The value that a receiver gets from a source lane, where that lane is a source, and its own otherwise (R164). -/
def exchangeOuts (d a : Reg) (src : (Nat → Word) → Group → Nat → Option Nat) (s : State) (c : Issue) (g : Group) (_ : Launch) : List Out :=
  c.on.flatMap fun k =>
    let v := match src (srcV s.dev g c k) g k with
      | some m => if m ∈ c.on then srcV s.dev g c m a.toNat else srcV s.dev g c k a.toNat
      | none => srcV s.dev g c k a.toNat
    outRun g k d.toNat 1 v.toNat

/-- A vote: one predicate for every receiver (R167). -/
def agreeOuts (d a : Reg) (f : List Bool → Bool) (_ : State) (c : Issue) (g : Group) (_ : Launch) : List Out :=
  c.on.flatMap fun k => outPred k d.toNat (f ((voters g c).map fun m => (g.lane m).predF a.toNat))

/-- A combination over the voters that each receiver selects, with the flags of the voters' results (R168). -/
def reduxOuts (d a : Reg) (k : ROp) (keep : Nat → Nat → Bool) (s : State) (c : Issue) (g : Group) (_ : Launch) : List Out :=
  let r (l : Nat) : Nat × Flags := reduxOf k g.rm (((voters g c).filter (keep l)).map fun m => srcV s.dev g c m a.toNat)
  (c.on.flatMap fun l => outRun g l d.toNat 1 (r l).1) ++ outFlags (joinBits ((voters g c).map fun l => (r l).2))

/-- R164 to R168: the results of the group exchanges. -/
def exchangeRule : Instr → Option ResultRule
  | .qxH d a => some ⟨false, 4, exchangeOuts d a fun _ _ k => some (k ^^^ 1)⟩
  | .qxV d a => some ⟨false, 4, exchangeOuts d a fun _ _ k => some (k ^^^ 2)⟩
  | .qxD d a => some ⟨false, 4, exchangeOuts d a fun _ _ k => some (k ^^^ 3)⟩
  | .qxBc d a i => some ⟨false, 4, exchangeOuts d a fun _ _ k => some (k / 4 * 4 + i.toNat)⟩
  | .xlaneFlip d a b => some ⟨false, 4, exchangeOuts d a fun r g k => if k ^^^ uval r b < g.width then some (k ^^^ uval r b) else none⟩
  | .xlanePick d a b => some ⟨false, 4, exchangeOuts d a fun r g _ => if uval r b < g.width then some (uval r b) else none⟩
  | .xlaneLo d a b => some ⟨false, 4, exchangeOuts d a fun r _ k => if uval r b ≤ k then some (k - uval r b) else none⟩
  | .xlaneHi d a b => some ⟨false, 4, exchangeOuts d a fun r g k => if k + uval r b < g.width then some (k + uval r b) else none⟩
  | .xlaneRot d a b => some ⟨false, 4, exchangeOuts d a fun r g k => some ((k + uval r b) % g.width)⟩
  | .ballot d a => some ⟨false, 4, fun _ c g _ => c.on.flatMap fun k =>
      outRun g k d.toNat 2 (natSum (((voters g c).filter fun m => (g.lane m).predF a.toNat).map fun m => 2 ^ m))⟩
  | .agreeAll d a => some ⟨false, 4, agreeOuts d a fun xs => xs.all id⟩
  | .agreeAny d a => some ⟨false, 4, agreeOuts d a fun xs => xs.any id⟩
  | .agreeSame d a => some ⟨false, 4, agreeOuts d a fun xs => xs.all id || xs.all not⟩
  | .redux d a k => some ⟨false, 8, reduxOuts d a k fun _ _ => true⟩
  | .reduxXscan d a k => some ⟨false, 8, reduxOuts d a k fun l m => decide (m < l)⟩
  | .reduxIscan d a k => some ⟨false, 8, reduxOuts d a k fun l m => decide (m ≤ l)⟩
  | _ => none

/-! ### Memory, lanes and shared operations -/

/-- Bytes put into a memory from an address on. -/
def putBytes (m : Memory) : Nat → List Byte → Memory
  | _, [] => m
  | a, v :: vs => putBytes (cellSet m a v) (a + 1) vs

/-- Entries of 8 bytes pushed on the spill stacks of some lanes, each with its value (R30, R157). -/
def State.pushed (s : State) (c : Issue) (g : Group) (ls : List Nat) (x : Nat → Nat) : State :=
  { s with
    stk := ls.foldl (fun m l => putBytes m (stkAddr c.g l (g.lane l).ssp.toNat) (leBytes 8 (x l))) s.stk
    dev := s.dev.setGroup (g.modLanes ls fun _ y => { y with ssp := y.ssp + 8, rc := min (y.rc + 1) 4 }) }

/-- The lanes of a word that push: those with room for 8 bytes more in their spill region. -/
def Issue.pushers (c : Issue) (g : Group) (la : Launch) : List Nat :=
  c.on.filter fun l => decide ((g.lane l).ssp.toNat + 8 ≤ la.spill)

/-- The first live lane whose push has no room, and its fault (R30, R149). -/
def Issue.overflow (c : Issue) (g : Group) (la : Launch) : Option FaultInfo :=
  ((c.voters g).find? fun l => decide (la.spill < (g.lane l).ssp.toNat + 8)).map fun l =>
    { code := .stackOverflow, faddr := (g.lane l).ssp.toNat, cause := l % 64 + 768 }

/-- The first live lane whose pop finds its pointer at 0, and its fault. -/
def Issue.underflow (c : Issue) (g : Group) : Option FaultInfo :=
  ((c.voters g).find? fun l => decide ((g.lane l).ssp = 0)).map fun l =>
    { code := .stackOverflow, faddr := 0, cause := l % 64 + 768 + 2048 }

/-- An ILLEGAL_OPERAND whose cause is a value, a structure or a state: reason 12 in a field (R53). -/
def illegalValue (c : Issue) (field : Nat) : FaultInfo :=
  { code := .illegalOperand, cause := pcSlot c.loc + 4 * field + 192 }

/-- The program counters of lanes set. -/
def State.jumped (s : State) (g : Group) (ls : List Nat) (f : Nat → Pc) : State :=
  s.withGroup (g.modLanes ls fun l x => { x with pc := f l })

/-- Whether a batch is made of lanes of its group, each once. -/
def Issue.Regular (c : Issue) (g : Group) : Prop := c.on.Nodup ∧ ∀ l ∈ c.on, l < g.lanes.length

/-- The invariant of a group's registers: each register file of a lane is in canonical form. -/
def Group.Wf (g : Group) : Prop := ∀ l, cellsWf (g.lane l).v = true ∧ cellsWf (g.lane l).m = true

/-- A word's accesses, one for each lane, or the fault that the lanes raise (R149). -/
def State.accesses (s : State) (c : Issue) (g : Group) (la : Launch) (ls : List Nat) (pad : Bool) (addr : Nat → Nat) (n code : Nat) (u : Use) :
    Except FaultInfo (List LaneAccess) :=
  accessLanes s.dev g la (s.dev.jobOf la) (pcSlot c.loc) ls pad addr n n code u

/-- The state after a word that accesses memory: its fault, or what it does with its accesses. -/
def State.accessed (s : State) (c : Issue) (r : Except FaultInfo (List LaneAccess)) (p : List LaneAccess → Part) : State :=
  match r with
  | .error f => s.faults c f
  | .ok xs => s.did (p xs)

/-- The records of races after some accesses (R179, R240). -/
def Dev.touched (d : Dev) (g : Group) (la : Launch) (xs : List LaneAccess) (k : RaceKind) : Dev :=
  xs.foldl (fun d a => d.touchRace g la a k) d

/-- A parted word's condition. -/
def Part.when (b : Prop) [Decidable b] (p : Part) : Part := if b then p else Part.none

/-- An address in block memory of the group's own block, outside every vintage. -/
def LaneAccess.own (a : LaneAccess) (la : Launch) (g : Group) : Prop :=
  a.tagged = false ∧ a.space = .blk ∧ a.store = .blk la.tag g.key.block

/-- An address in the pad or in the gang window, outside every vintage. -/
def LaneAccess.far (a : LaneAccess) : Prop := a.tagged = false ∧ countedTarget a = true

/-- The group with the accesses of a word among those on their way, in order, each with what it does. A counted word's lanes that need none
get their values at die cycle `near` (R153). -/
def Group.with_ (g : Group) (c : Issue) (counted : Bool) (near : Nat) (acq rel : Bool) (scope : Nat) (xs : List (LaneAccess × AccOp)) (dsts : List (Nat × Dest)) :
    Group :=
  { g with
    acc := g.acc ++ xs.zipIdx.map fun e =>
      { id := g.accesses + e.2, seq := g.accesses, lane := e.1.1.lane, helper := g.isHelper e.1.1.lane, gang := decide (e.1.1.space = .gang), store := e.1.1.store,
        addr := e.1.1.off, size := e.1.1.size, vt := (match e.1.2 with | .loadVt t _ _ => t | _ => 0), acq := acq, rel := rel, scope := scope, op := e.1.2,
        loc := c.loc, timer := 0 }
    accesses := g.accesses + xs.length + 1
    counted := if counted then g.counted ++ [⟨g.accesses, dsts, c.loc, near⟩] else g.counted }

/-! ### Checks of a word -/

/-- The words that a register value, a structure or a state can make ILLEGAL_OPERAND (R53, item 4). -/
def checksValues (i : Instr) : Bool :=
  match i with
  | .barInit _ _ | .xregAcq | .xregRel | .ret | .fibSpawn _ _ _ | .divPush _ | .divJoin | .sysWr _ _ => true
  | .cuvChk _ _ | .cuvRd _ _ | .cuvLoadBlk _ _ | .cuvLoadPad _ _ => true
  | .cpG2s _ _ | .cpS2g _ _ | .cpTG2s _ _ | .cpTS2g _ _ | .cpS2s _ _ _ | .migPost _ => true
  | .rcpPut _ | .rcpGet _ | .ratom _ _ _ | .collPost _ => true
  | .mxMmaMom _ _ _ _ _ | .mxPost _ _ _ _ _ _ | .mxLd _ _ _ => true
  | .atomAccZ32 _ _ _ _ | .atomAccF32 _ _ _ _ => true
  | .objInit _ _ | .objArrive _ _ | .cstInit _ _ | .cstPut _ | .cstTake _ _ => true
  | .bistRun _ | .wpSet _ | .wpClr _ | .vtNew _ _ | .vtSet _ | .vtDrop _ | .vtMerge _ | .launchDev _ => true
  | _ => false

/-- The words whose checks are not those of their operands alone: `brk`, by its stop bit, and `mx.drain`, by its control word. -/
def checksItself (i : Instr) : Bool :=
  match i with
  | .brk _ | .mxDrain _ _ _ => true
  | _ => false

end Sys2Proof.Machine
end

