-- ==== Sys2Proof/Certificates/Slice0/Obligations.lean ====
section
/-!
DEFINITION. The statements for the provers.
-/

open Sys2Proof Sys2Proof.Machine

/-! ### Computing words -/

/-- R79 to R91: an integer word that a group issues leaves the state as it was, but for its results, which are on their way with a latency
of 2 die cycles: in every lane whose guard is true the value that the rule of its opcode gives, from the lane's registers or under S the leader's.
R87, R92: a word that writes or reads predicates. -/
def Obligations.IntegerResults : Prop :=
  (
  ∀ i r, intRule i = some r → i.uni = r.uni ∧ ∀ s c g la, Issues s i c g la → exec i s = .next (s.after c.g r.lat (r.outs s c g la))) ∧
  (
  ∀ i r, predRule i = some r → i.uni = r.uni ∧ ∀ s c g la, Issues s i c g la → exec i s = .next (s.after c.g r.lat (r.outs s c g la)))

/-- R106 to R117: a word of the FPU or the SFU, with the sticky flags of the lanes that count.
R77, R119, R120, R130: a word that draws from the counter-based generator.
What the spec leaves open in it is the model's reading: logs 8, 56, 65. -/
def Obligations.FloatResults : Prop :=
  (
  ∀ i r, fpRule i = some r → i.uni = r.uni ∧ ∀ s c g la, Issues s i c g la → exec i s = .next (s.after c.g r.lat (r.outs s c g la))) ∧
  (
  ∀ i r, drawRule i = some r → i.uni = r.uni ∧ ∀ s c g la, Issues s i c g la → exec i s = .next (s.after c.g r.lat (r.outs s c g la)))

/-- R164 to R168: a group exchange leaves the state as it was, but for its results, which are on their way with a latency of 4 die cycles, and
of 8 for `redux`: every lane whose guard is true receives the register of the source lane that its opcode selects, or its own where that lane
is no source; `ballot` and `agree` the votes of the voters; `redux` the combination of the voters that its form names. -/
def Obligations.ExchangeResults : Prop :=
  ∀ i r, exchangeRule i = some r → i.uni = r.uni ∧ ∀ s c g la, Issues s i c g la → exec i s = .next (s.after c.g r.lat (r.outs s c g la))

/-- R122, R123, R126 to R129: a word that writes moments. Where NVF is 1 and a live lane's variance is refused by CheckVar, it faults NEGVAR at
the lowest such lane, with its origin; else each lane whose guard is true receives the moment with a refused variance replaced by 0, and the
flags of the live lanes, VCL among them, are on their way.
R129: `mcol.mean` and `mcol.var`. -/
def Obligations.MomentResults : Prop :=
  (
  ∀ i d o lat f, momRule i = some (d, o, lat, f) → i.uni = false ∧ ∀ s c g la, Issues s i c g la →
    match (if g.nvf then (c.voters g).find? fun l => badVar (f s c g l).var else none) with
    | some l => exec i s = .next (s.faults c { code := .negvar, cause := l % 64 + 64 * o })
    | none => exec i s = .next (s.after c.g lat
        ((c.on.flatMap fun l => outMom l d.toNat (f s c g l).mean (if badVar (f s c g l).var then 0 else (f s c g l).var)) ++
          outFlags (joinBits ((c.voters g).map fun l => (f s c g l).fl) + if (c.voters g).any fun l => badVar (f s c g l).var then 32 else 0)))) ∧
  (
  ∀ i r, collapseRule i = some r → i.uni = r.uni ∧ ∀ s c g la, Issues s i c g la → exec i s = .next (s.after c.g r.lat (r.outs s c g la)))

/-! ### Control words -/

/-- R94: `nop` has no effect; `trap` with a live lane whose guard is true takes the TRAP fault with its immediate as CAUSE, and `brk` with its
stop bit set the BRK fault, after which the group knows the word to resume behind. Without such a lane neither has an effect.
R94: a `brk` word whose stop bit is clear is an ILLEGAL_OPCODE with reason 4. -/
def Obligations.NopTrapBrk : Prop :=
  (
  (∀ s c g la, Issues s .nop c g la → exec .nop s = .next s) ∧
  (∀ k s c g la, Issues s (.trap k) c g la →
    exec (.trap k) s = .next (if c.voters g = [] then s else s.faults c { code := .trap, cause := k.toNat })) ∧
  (∀ k s c g la, Issues s (.brk k) c g la → c.stop = true →
    exec (.brk k) s = .next (if c.voters g = [] then s else
      (s.faults c { code := .brk, cause := k.toNat }).withDev fun d => d.modGroup c.g fun g => { g with pastBrk := some c.loc }))) ∧
  (
  ∀ k s c g la, Issues s (.brk k) c g la → c.stop = false →
    exec (.brk k) s = .next (s.faults c { code := .illegalOpcode, cause := checkCause (pcSlot c.loc) 0 4 }))

/-- R44, R95 to R97: the branches. The target is the branch's packet address plus 16 times the offset, slot 0; a lane whose guard or condition is
false keeps its program counter; `s.br` goes as its leader's condition says; `br.rot` first turns the window base of every lane whose guard is
true, and branches as `br` does. Nothing but the group's lanes differs.
R30, R98: `call` and `callx` push the location after the word in each lane whose guard is true and take each to its target; where a live
lane's push has no room, the word is a STACK_OVERFLOW at the lowest such lane.
R30, R98, R156: `ret`. An entry with a bit of 63:57 or 3:2 set or slot 3, in a live lane, is an ILLEGAL_OPERAND; a pointer at 0 in a live
lane is a STACK_OVERFLOW with bit 11 of its cause set; otherwise each lane with a good entry pops it and goes to it, at once where the
spill-stack cache holds it, and after a wait where it does not; a helper waits as its fibre does (R25). -/
def Obligations.BranchesAndCalls : Prop :=
  (
  (∀ p o s c g la, Issues s (.br p o) c g la →
    exec (.br p o) s = .next (s.withGroup (g.modLanes (c.on.filter fun l => (g.lane l).predF p.toNat) fun _ x => { x with pc := pcBranch c.loc o }))) ∧
  (∀ p o s c g la, Issues s (.sBr p o) c g la →
    exec (.sBr p o) s = .next (match g.leader c.on with
      | none => s
      | some ld => if (g.lane ld).predF p.toNat then s.withGroup (g.modLanes c.on fun _ x => { x with pc := pcBranch c.loc o }) else s)) ∧
  (∀ p o s c g la, Issues s (.brRot p o) c g la →
    exec (.brRot p o) s = .next (s.withGroup ((g.modLanes c.on fun _ x => { x with wb := x.wb - 1 }).modLanes
      (c.on.filter fun l => (g.lane l).predF p.toNat) fun _ x => { x with pc := pcBranch c.loc o }))) ∧
  (∀ a s c g la, Issues s (.brx a) c g la →
    exec (.brx a) s = .next (s.withGroup (g.modLanes c.on fun l x => { x with pc := pcOfIndex la.image (srcV s.dev g c l a.toNat).toNat }))) ∧
  (∀ (p : Pc) (o : BitVec 17), pcSlot (pcBranch p o) = 0 ∧ (pcPkt (pcBranch p o) : Int) = (pcPkt p + 16 * o.toInt) % 2 ^ 57)) ∧
  (
  (∀ o s c g la, Issues s (.call o) c g la → c.Regular g →
    exec (.call o) s = .next (match c.overflow g la with
      | some f => s.faults c f
      | none => let s1 := s.pushed c g (c.pushers g la) fun _ => (pcNext c.loc).toNat
          s1.withDev fun d => d.modGroup c.g fun h => h.modLanes c.on fun _ x => { x with pc := pcBranch c.loc o })) ∧
  (∀ a s c g la, Issues s (.callx a) c g la → c.Regular g →
    exec (.callx a) s = .next (match c.overflow g la with
      | some f => s.faults c f
      | none => let s1 := s.pushed c g (c.pushers g la) fun _ => (pcNext c.loc).toNat
          s1.withDev fun d => d.modGroup c.g fun h => h.modLanes c.on fun l x =>
            { x with pc := pcOfIndex la.image (srcV s.dev g c l a.toNat).toNat }))) ∧
  (
  ∀ s c g la, Issues s .ret c g la →
    let entry (l : Nat) : Nat := natAt s.stk (stkAddr c.g l ((g.lane l).ssp.toNat - 8)) 8
    let good (l : Nat) : Bool := decide (entry l < 2 ^ 57) && decide (entry l / 4 % 4 = 0) && decide (entry l % 4 ≠ 3)
    let has (l : Nat) : Bool := decide ((g.lane l).ssp ≠ 0)
    let pops := c.on.filter fun l => has l && good l
    let waits (l : Nat) : Bool := match (g.lane l).mode with
      | .helper n => pops.contains n && g.isLive n && (g.lane n).rc == 0
      | _ => (g.lane l).rc == 0
    let hits := pops.filter fun l => c.resume.isSome || !waits l
    let misses := (pops.filter g.isLive).filter fun l => !hits.contains l
    let popped := s.withGroup (g.modLanes hits fun l x =>
      { x with ssp := x.ssp - 8, rc := x.rc - 1, hold := none, pc := BitVec.ofNat 57 (entry l) })
    exec .ret s = .next (
      if (c.voters g).any fun l => has l && !good l then s.faults c (illegalValue c 0)
      else match c.underflow g with
        | some f => s.faults c f
        | none => if misses = [] then popped else popped.did (holdLanes c .ret misses .retEntry 0 .none)))

/-- R29, R99: `exit` with a live lane whose guard is true, and a `fib.end` that ends the group's last fibres, hold the batch until the group's
counted loads have completed and its stores are done; then the earliest deferred fault is raised, or the fibres end. A `fib.end` that leaves a
live fibre ends its fibres at once, and so does a held one when another fibre has been created meanwhile.
R29, R139: a lane whose fibre ends runs no fibre, its divergence words are 0, it is pending at no barrier, its spill stack is left empty, and
no result and no counted load is on its way to it, but for those of the group and of the slot pair; no other lane changes.
What the spec leaves open in it is the model's reading: log 13. -/
def Obligations.Endings : Prop :=
  (
  (∀ s c g la, Issues s .exit c g la →
    exec .exit s = .next (
      if c.voters g = [] then s
      else if g.counted.all g.complete && g.storesDone c then
        match firstDeferred g.deferred with
        | some x => s.did (raiseDeferred c x)
        | none => s.did (endFibres c.g g.liveLanes)
      else if c.resume.isSome then s else s.did (holdLanes c .exit c.lanes .retry 4 .none))) ∧
  (∀ s c g la, Issues s .fibEnd c g la →
    exec .fibEnd s = .next (
      if c.voters g = [] then s
      else if g.liveLanes.any fun l => !(c.voters g).contains l then
        (s.did (Part.when (c.resume.isSome = true) (releaseLanes c.g c.lanes (pcNext c.loc)))).did (endFibres c.g (c.voters g))
      else if g.counted.all g.complete && g.storesDone c then
        match firstDeferred g.deferred with
        | some x => s.did (raiseDeferred c x)
        | none => s.did (endFibres c.g (c.voters g))
      else if c.resume.isSome then s else s.did (holdLanes c .fibEnd c.lanes .retry 4 .none)))) ∧
  (
  ∀ (dd : Nat) (g : Group) (l : Nat), g.Wf → dd ≤ 16 → l < g.lanes.length →
    ((g.endLane dd l).lane l).mode = .free ∧ ((g.endLane dd l).lane l).pending = 0 ∧ ((g.endLane dd l).lane l).hold = none ∧
    ((g.endLane dd l).lane l).ssp = 0 ∧ ((g.endLane dd l).lane l).rc = 0 ∧
    (∀ k, 1 ≤ k → k ≤ dd → ((g.endLane dd l).lane l).level k = 0) ∧
    (∀ p ∈ (g.endLane dd l).pend, p.lane = l → p.dst.outlives = true) ∧
    (∀ q ∈ (g.endLane dd l).counted, ∀ e ∈ q.dsts, e.1 = l → e.2.outlives = true) ∧
    (∀ m, m ≠ l → (g.endLane dd l).lane m = g.lane m))

/-- R27, R100: `fib.spawn` with a live lane whose target is no packet of the code is an ILLEGAL_OPERAND and creates nothing. Otherwise the lanes
whose guard is true spawn in ascending order; one that is the only such lane takes the lowest lane that runs no fibre and receives its index and
a true predicate after 3 die cycles, or −1 and a false one.
R27: a new fibre stands at its target, has its parent's predicate word and v0 to v15, and 0 in its other registers, its window base and
its spill-stack pointer; no result and no counted load of the lane's former helper is on its way to it; every other live lane is as it was.
What the spec leaves open in it is the model's reading: logs 13, 42. -/
def Obligations.Spawns : Prop :=
  (
  (∀ d a b s c g la, Issues s (.fibSpawn d a b) c g la →
    ((c.voters g).any fun l => !la.hasIndex (srcV s.dev g c l a.toNat).toNat) = true →
    exec (.fibSpawn d a b) s = .next (s.faults c (illegalValue c 2))) ∧
  (∀ d a b s c g la, Issues s (.fibSpawn d a b) c g la →
    ((c.voters g).any fun l => !la.hasIndex (srcV s.dev g c l a.toNat).toNat) = false →
    exec (.fibSpawn d a b) s = .next (s.did (Part.each c.on (spawnLane c g la d.toNat b.toNat fun l => (srcV s.dev g c l a.toNat).toNat)))) ∧
  (∀ d a b s c g la l, Issues s (.fibSpawn d a b) c g la → c.on = [l] → g.isLive l = true →
    la.hasIndex (srcV s.dev g c l a.toNat).toNat = true →
    exec (.fibSpawn d a b) s = .next (match g.laneNos.find? fun k => !g.isLive k with
      | some k => { s with dev := (s.dev.setGroup (g.spawn k (g.lane l) (g.lane l)
          (pcOfIndex la.image (srcV s.dev g c l a.toNat).toNat))).retire c.g 3 (outRun g l d.toNat 1 k ++ outPred l b.toNat true) }
      | none => { s with dev := s.dev.retire c.g 3 (outRun g l d.toNat 1 (2 ^ 32 - 1) ++ outPred l b.toNat false) }))) ∧
  (
  ∀ (g : Group) (k : Nat) (parent now : Lane) (pc : Pc), cellsWf parent.v = true →
    k < g.lanes.length → g.isLive k = false →
    ((g.spawn k parent now pc).lane k).mode = .live ∧ ((g.spawn k parent now pc).lane k).pc = pc ∧
    ((g.spawn k parent now pc).lane k).pw = parent.pw ∧ ((g.spawn k parent now pc).lane k).wb = 0 ∧
    ((g.spawn k parent now pc).lane k).ssp = 0 ∧ ((g.spawn k parent now pc).lane k).m = [] ∧
    (∀ n, cellGet ((g.spawn k parent now pc).lane k).v n = if n < 16 then cellGet parent.v n else 0) ∧
    (∀ p ∈ (g.spawn k parent now pc).pend, p.lane = k → p.dst.outlives = true) ∧
    (∀ q ∈ (g.spawn k parent now pc).counted, ∀ e ∈ q.dsts, e.1 = k → e.2.outlives = true) ∧
    (∀ m, g.isLive m = true → (g.spawn k parent now pc).lane m = g.lane m))

/-- R31, R101: `div.push`. A join packet outside the code or of index 2^24 or more is an ILLEGAL_OPERAND; a lane at the declared depth whose guard
is true, a helper among them, is a DIV_DEPTH; otherwise each lane whose guard is true gets an entry with V, LEAD and JOIN at its next level.
R33, R102: `div.join` in a live lane whose top level names another packet is an ILLEGAL_OPERAND, and at depth 0 a DIV_DEPTH; otherwise the
lanes wait with barrier number 0xFF, and those whose join is complete go on with their words cleared.
R33: a waiting lane's join is complete where every live fibre whose word at the lane's level is the lane's waits there. It releases each of
those fibres whose own top level that is, with the helpers that wait with it: they stand behind the word, their word of that level is 0, and
nothing else of the state changes.
What the spec leaves open in it is the model's reading: logs 43, 57. -/
def Obligations.Divergence : Prop :=
  (
  ∀ o s c g la, Issues s (.divPush o) c g la →
    let j : Int := (pcIndex la.image c.loc : Int) + o.toInt
    let lead := match g.leader c.on with | some l => l | none => c.on.headD 0
    exec (.divPush o) s = .next (
      if j < 0 ∨ la.hasIndex j.toNat = false ∨ 2 ^ 24 ≤ j then s.faults c (illegalValue c 3)
      else if c.on.any fun l => (g.lane l).depth la.divDepth == la.divDepth then
        s.faults c { code := .divDepth, cause := pcSlot c.loc }
      else s.withGroup (g.modLanes c.on fun _ x =>
        x.setLevel (x.depth la.divDepth + 1) (2 ^ 31 + lead * 2 ^ 24 + j.toNat)))) ∧
  (
  ∀ s c g la, Issues s .divJoin c g la →
    let depth (l : Nat) : Nat := (g.lane l).depth la.divDepth
    let q := c.voters g
    exec .divJoin s = .next (
      if q = [] then s
      else if c.resume.isSome then s.did (releaseJoins c la.divDepth q)
      else if q.any fun l => decide (0 < depth l) && decide ((g.lane l).level (depth l) % 2 ^ 24 ≠ pcIndex la.image c.loc) then
        s.faults c (illegalValue c 0)
      else if q.any fun l => depth l == 0 then s.faults c { code := .divDepth, cause := pcSlot c.loc }
      else (s.did (holdLanes c .divJoin q .join 13 (.bar 0xFF 0))).did (releaseJoins c la.divDepth q))) ∧
  (
  (∀ (g : Group) (dd : Nat) (loc : Pc) (l : Nat), joinSet g dd loc l ≠ [] →
    ∀ m, m ∈ joinSet g dd loc l ↔
      m ∈ g.liveLanes ∧ (g.lane m).level ((g.lane l).depth dd) = (g.lane l).level ((g.lane l).depth dd) ∧ (g.lane m).pc = loc ∧
        ∃ h, (g.lane m).hold = some h ∧ h.kind = .join) ∧
  (∀ (s : State) (c : Issue) (g : Group) (dd : Nat) (ls : List Nat), s.dev.group? c.g = some g →
    let freed (m : Nat) : Prop := ∃ l ∈ ls, m ∈ joinSet g dd c.loc l ∧ (g.lane m).depth dd = (g.lane l).depth dd
    let t := s.did (releaseJoins c dd ls)
    ∃ g', t.dev.group? c.g = some g' ∧ (t = s ∨ t = s.withGroup g') ∧
      (∀ m, freed m → g'.lane m = { (g.lane m).setLevel ((g.lane m).depth dd) 0 with hold := none, pc := pcNext c.loc }) ∧
      (∀ h m, (g.lane h).mode = .helper m → freed m → let k := (g.lane m).depth dd
        g'.lane h = { (if (g.lane h).level k = (g.lane m).level k then (g.lane h).setLevel k 0 else g.lane h) with hold := none, pc := pcNext c.loc }) ∧
      (∀ l, ¬ freed l → (∀ m, (g.lane l).mode = .helper m → ¬ freed m) → g'.lane l = g.lane l)))

/-- R103, R138: `wait` holds each live lane whose guard is true until its own time; `wait.addr` holds it on its granule for at most 4000 ns, or
faults as a read of one byte would; `yield` notes the 64 die cycles, and that no group of the core has issued since.
Every hold of a batch's lanes: each, with the helpers that follow it, stands at the word with its wait; no other lane of the group and no
byte of memory changes (R25, R48, R49). -/
def Obligations.WaitsAndHolds : Prop :=
  (
  (∀ a s c g la, Issues s (.wait a) c g la →
    let ns (l : Nat) : Nat := (srcV s.dev g c l a.toNat).toNat % 2 ^ 24
    exec (.wait a) s = .next (s.did (Part.each ((c.voters g).filter fun l => decide (ns l ≠ 0)) fun l =>
      holdLanes c (.wait a) [l] (.wait (s.dev.time + ns l)) 1 .none))) ∧
  (∀ a o s c g la, Issues s (.waitAddrBlk a o) c g la →
    exec (.waitAddrBlk a o) s = .next (
      match accessLanes s.dev g la (s.dev.jobOf la) (pcSlot c.loc) (c.voters g) false (fun l => offAddr (srcV s.dev g c l a.toNat) o 1) 1 1 0 .watch with
      | .error f => s.faults c f
      | .ok xs => s.did (Part.each xs fun x => holdLanes c (.waitAddrBlk a o) [x.lane]
          (.waitAddr false (match x.store with | .pad => 0 | .blk _ b => b) (x.off / 32) (s.dev.time + 4000)) 1 .none))) ∧
  (∀ a o s c g la, Issues s (.waitAddrPad a o) c g la →
    exec (.waitAddrPad a o) s = .next (
      match accessLanes s.dev g la (s.dev.jobOf la) (pcSlot c.loc) (c.voters g) true (fun l => offAddr (srcV s.dev g c l a.toNat) o 1) 1 1 0 .watch with
      | .error f => s.faults c f
      | .ok xs => s.did (Part.each xs fun x => holdLanes c (.waitAddrPad a o) [x.lane]
          (.waitAddr true (match x.store with | .pad => 0 | .blk _ b => b) (x.off / 32) (s.dev.time + 4000)) 1 .none))) ∧
  (∀ s c g la, Issues s .yield c g la →
    exec .yield s = .next (if c.voters g = [] then s
      else s.withGroup { g with yieldUntil := some (s.dev.now g + 64), yieldSlots := [] }))) ∧
  (
  ∀ (s : State) (c : Issue) (g : Group) (i : Instr) (ls : List Nat) (kind : HoldKind) (reason : Nat) (dog : Watchdog), s.dev.group? c.g = some g → (g.withHelpers ls).Nodup → (∀ l ∈ g.withHelpers ls, l < g.lanes.length) →
    ∃ g', (s.did (holdLanes c i ls kind reason dog)).dev.group? c.g = some g' ∧ s.SameMemory (s.did (holdLanes c i ls kind reason dog)) ∧
      (∀ l ∈ g.withHelpers ls, (g'.lane l).pc = c.loc ∧
        ∃ h, (g'.lane l).hold = some h ∧ h.kind = kind ∧ h.reason = reason ∧ h.snap = snapOf s.dev g c i l) ∧
      (∀ l, l ∉ g.withHelpers ls → g'.lane l = g.lane l))

/-- R104: `sys.rd` gives each lane whose guard is true the content that its selector names, after 3 die cycles. For GSR, of the sticky bits
still on their way a free choice is seen (R107).
R34, R104, R105: `sys.wr` to WB writes each lane whose guard is true from its own register; to GSR or MXS it takes the leader's value. A GSR
value with RM above 4 or RHO out of range is an ILLEGAL_OPERAND; MXS keeps bits 8:0.
R34: a write of GSR takes bits 31:16 and 9:2, clears the sticky bits that it has set, but for those that landed in the same die cycle, and
leaves every other bit.
What the spec leaves open in it is the model's reading: log 17. -/
def Obligations.SystemRegisters : Prop :=
  (
  ∀ d k s c g la, Issues s (.sysRd d k) c g la →
    (k ≠ 0x10 → exec (.sysRd d k) s = .next (s.after c.g 3 (c.on.flatMap fun l => outRun g l d.toNat 1 (match k.toNat with
      | 0x00 => l
      | 0x01 => g.key.group
      | 0x02 => g.key.block
      | 0x03 => la.nblocks
      | 0x04 => la.groups
      | 0x05 => la.posOf g.key.block + 4 * (la.gang - 1)
      | 0x06 => g.liveLanes.length
      | 0x08 => la.param % 2 ^ 32
      | 0x09 => la.param / 2 ^ 32 % 2 ^ 25
      | 0x0A => g.key.block % la.gx
      | 0x0B => g.key.block / la.gx % la.gy
      | 0x0C => g.key.block / (la.gx * la.gy)
      | 0x0E => la.image % 2 ^ 32
      | 0x0F => la.image / 2 ^ 32 % 2 ^ 25
      | 0x18 => g.mxs.toNat
      | 0x20 => (g.lane l).wb.toNat
      | 0x21 => (g.lane l).ssp.toNat
      | 0x22 => (g.lane l).depth la.divDepth
      | _ => 0)))) ∧
    (k = 0x10 → ∃ seen : Nat, exec (.sysRd d k) s = .next
      ((s.after c.g 3 (c.on.flatMap fun l => outRun g l d.toNat 2 (orSticky g.gsr (g.flagsComing &&& seen)).toNat)).withDev fun x =>
        if g.flagsComing = 0 then x else { x with free := x.free + 1 }))) ∧
  (
  (∀ a s c g la, Issues s (.sysWr a 0x20) c g la →
    exec (.sysWr a 0x20) s = .next (s.withGroup (g.modLanes c.on fun l x => { x with wb := (srcV s.dev g c l a.toNat).setWidth 5 }))) ∧
  (∀ a s c g la, Issues s (.sysWr a 0x18) c g la →
    exec (.sysWr a 0x18) s = .next (match g.leader c.on with
      | none => s
      | some l => s.withGroup { g with mxs := srcV s.dev g c l a.toNat &&& 0x1FF })) ∧
  (∀ a s c g la, Issues s (.sysWr a 0x10) c g la →
    exec (.sysWr a 0x10) s = .next (match g.leader c.on with
      | none => s
      | some l =>
        let v := pval (srcV s.dev g c l) a
        if v / 2 ^ 4 % 8 ≤ 4 ∧ v / 2 ^ 16 % 2 ^ 15 ≤ 0x3C00 then s.withGroup { g with gsr := gsrWrite g (s.dev.now g) v }
        else s.faults c (illegalValue c 2)))) ∧
  (
  ∀ g now v b, b < 64 →
    (gsrWrite g now v).getLsbD b =
      (if (2 ≤ b ∧ b ≤ 9) ∨ (16 ≤ b ∧ b ≤ 31) then v.testBit b
      else if 48 ≤ b ∧ b ≤ 54 ∧ v.testBit b ∧ ¬ (g.flagCycle = now ∧ g.flagBits.testBit (b - 48)) then false
      else g.gsr.getLsbD b))

/-! ### Memory words -/

/-- R149, R150: where lanes of a word meet faults, the one raised is the first in the order of R149 that any live lane meets, at the lowest such
lane; a helper lane raises none, and its access is left out.
R146 to R148: a lane's access. An address that is no multiple of its size is MISALIGNED; past the end of the pad, or past the block's
memory, or in a gang window outside the gang, it is BOUNDS; otherwise, where it succeeds, it reaches the bytes that the address names.
What the spec leaves open in it is the model's reading: log 14. -/
def Obligations.AccessChecks : Prop :=
  (
  ∀ (d : Dev) (g : Group) (la : Launch) (j : Job) (slot : Nat) (ls : List Nat) (pad : Bool) (addr : Nat → Nat) (n align code : Nat) (u : Use),
    match accessLanes d g la j slot ls pad addr n align code u with
    | .error f => ∃ pre l post x sp, ls = pre ++ l :: post ∧ g.isHelper l = false ∧ accessOf d g la j l pad (addr l) n align u = .error (x, sp) ∧
        f = fibreFault slot code (l, addr l, x, sp) ∧
        (∀ m ∈ pre, g.isHelper m = false → ∀ y sp', accessOf d g la j m pad (addr m) n align u = .error (y, sp') → x.rank < y.rank) ∧
        (∀ m ∈ post, g.isHelper m = false → ∀ y sp', accessOf d g la j m pad (addr m) n align u = .error (y, sp') → x.rank ≤ y.rank)
    | .ok xs => (∀ l ∈ ls, g.isHelper l = false → ∃ a ∈ xs, accessOf d g la j l pad (addr l) n align u = .ok a) ∧
        (∀ a ∈ xs, ∃ l ∈ ls, accessOf d g la j l pad (addr l) n align u = .ok a)) ∧
  (
  (∀ d g la j l pad a n align u, a % align ≠ 0 → ∃ sp, accessOf d g la j l pad a n align u = .error (.misaligned, sp)) ∧
  (∀ d g la j l a n align u, a % align = 0 → padSize < a + n → accessOf d g la j l true a n align u = .error (.bounds, .pad)) ∧
  (∀ d g la j l a n align u, a % align = 0 → (2 ^ 21 ≤ a ∨ la.blkMem < a % 2 ^ 18 + n ∨ (a / 2 ^ 20 % 2 = 0 ∧ a / 2 ^ 18 % 4 ≠ 0) ∨
      (a / 2 ^ 20 % 2 = 1 ∧ la.gang ≤ a / 2 ^ 18 % 4)) → ∃ sp, accessOf d g la j l false a n align u = .error (.bounds, sp)) ∧
  (∀ d g la j l a n align u x, accessOf d g la j l true a n align u = .ok x →
    x.lane = l ∧ x.addr = a ∧ x.space = .pad ∧ x.store = .pad ∧ x.off = a ∧ x.size = n ∧ j.granted a n = true) ∧
  (∀ d g la j l a n align u x, accessOf d g la j l false a n align u = .ok x →
    x.lane = l ∧ x.addr = a ∧ x.off = a % 2 ^ 18 ∧ x.size = n ∧
      if a / 2 ^ 20 % 2 = 0 then x.space = .blk ∧ x.store = .blk la.tag g.key.block
      else x.space = .gang ∧ x.store = .blk la.tag (la.gangOf g.key.block * la.gang + a / 2 ^ 18 % 4)))

/-- R150, R155, R156: `ld`. In block memory and the pad each qualifying lane, or under S the leader, reads at its address; on the stack each
lane reads in its own region, where misaligned and out of bounds addresses of live lanes fault and those of helpers read 0.
R152, R155: loads at the group's own block memory. Each lane's value, extended as its type says, is on its way with 12 die cycles; a helper
lane without an access receives 0; no byte of memory changes. Loads in the pad or the gang window are counted and on their way.
R155, R156: `ld.stk` where each lane's bytes lie within the entries that the spill-stack cache holds.
R30, R157: `push` stores a register or a pair as an entry of 8 bytes in each lane with room; without room in a live lane it is a
STACK_OVERFLOW. `pop` takes the entry back, and at a pointer of 0 in a live lane is a STACK_OVERFLOW with bit 11 set.
What the spec leaves open in it is the model's reading: logs 5, 69. -/
def Obligations.LoadsAndSpills : Prop :=
  (
  (∀ sc d b o t p s c g la, p ≠ .stk → Issues s (.ld sc d b p o t) c g la →
    let ls := if sc then (g.leader c.on).toList else c.on
    exec (.ld sc d b p o t) s = .next (s.accessed c
      (s.accesses c g la ls (decide (p = .pad)) (fun l => offAddr (srcV s.dev g c l b.toNat) o (ldSize t)) (ldSize t) (sizeCode (ldSize t)) .read)
      fun xs => Part.when (ls ≠ []) (doLoads c sc d.toNat t.regs t ls xs))) ∧
  (∀ sc d b o t s c g la, Issues s (.ld sc d b .stk o t) c g la →
    exec (.ld sc d b .stk o t) s =
      .next (s.did (loadStack c g la sc d.toNat t.regs t fun l => offAddr (srcV s.dev g c l b.toNat) o (ldSize t))))) ∧
  (
  (∀ (s : State) (c : Issue) (g : Group) (la : Launch) (sc : Bool) (n k : Nat) (ty : LdTy) (want : List Nat) (xs : List LaneAccess),
    s.dev.group? c.g = some g → s.dev.launch? c.g.launch = some la → (∀ a ∈ xs, a.own la g) →
    s.did (doLoads c sc n k ty want xs) = { s with dev := (Dev.retire (s.dev.touched g la xs .other) c.g 12
      (((want.filter fun m => !xs.any fun a => decide (a.lane = m)).flatMap fun m => slotOuts (loadSlots g c sc m n k) 0) ++
        xs.flatMap fun a => slotOuts (loadSlots g c sc a.lane n k)
          (loadWords ty (natAt s.blk (blkAddr la.tag g.key.block a.off) a.size)))) }) ∧
  (∀ (s : State) (c : Issue) (g : Group) (la : Launch) (sc : Bool) (n k : Nat) (ty : LdTy) (xs : List LaneAccess),
    s.dev.group? c.g = some g → s.dev.launch? c.g.launch = some la → xs ≠ [] → (∀ a ∈ xs, a.far) →
    ∃ d, (s.did (doLoads c sc n k ty (xs.map LaneAccess.lane) xs)) = { s with dev := d } ∧
      d.group? c.g = some (g.with_ c true 0 false false 0 (xs.map fun a => (a, .load ty (loadSlots g c sc a.lane n k)))
        (xs.flatMap fun a => slotRegs (loadSlots g c sc a.lane n k))))) ∧
  (
  ∀ (s : State) (c : Issue) (g : Group) (la : Launch) (n k : Nat) (ty : LdTy) (addr : Nat → Nat), s.dev.group? c.g = some g →
    (∀ l ∈ c.on, addr l % ldSize ty = 0 ∧ addr l + ldSize ty ≤ la.spill ∧ (g.lane l).ssp.toNat - 8 * (g.lane l).rc ≤ addr l ∧
      addr l + ldSize ty ≤ (g.lane l).ssp.toNat) →
    s.did (loadStack c g la false n k ty addr) = { s with dev := (s.dev.retire c.g 12
      (c.on.flatMap fun l => slotOuts (g.slots l n k) (loadWords ty (natAt s.stk (stkAddr c.g l (addr l)) (ldSize ty))))) }) ∧
  (
  (∀ d z s c g la, Issues s (.push d z) c g la → c.Regular g →
    exec (.push d z) s = .next (match c.overflow g la with
      | some f => s.faults c f
      | none => s.pushed c g (c.pushers g la) fun l => if z then pval (srcV s.dev g c l) d else uval (srcV s.dev g c l) d)) ∧
  (∀ d z s c g la f, Issues s (.pop d z) c g la → c.underflow g = some f → exec (.pop d z) s = .next (s.faults c f)) ∧
  (∀ d z s c g la, Issues s (.pop d z) c g la → (∀ l ∈ c.on, (g.lane l).ssp ≠ 0 ∧ 0 < (g.lane l).rc) →
    exec (.pop d z) s = .next { s with dev := (Dev.retire (s.dev.setGroup (g.modLanes c.on fun _ x => { x with ssp := x.ssp - 8, rc := x.rc - 1 })) c.g 12
      (c.on.flatMap fun l => slotOuts (g.slots l d.toNat (if z then 2 else 1))
        (natAt s.stk (stkAddr c.g l ((g.lane l).ssp.toNat - 8)) 8 % (if z then 2 ^ 64 else 2 ^ 32)))) }) ∧
  (∀ d z s c g la, Issues s (.pop d z) c g la → c.on ≠ [] → (∀ l ∈ c.on, (g.lane l).ssp ≠ 0 ∧ (g.lane l).rc = 0) →
    ∃ x, exec (.pop d z) s = .next { s with dev := x } ∧ x.group? c.g = some
      ((g.modLanes c.on fun _ y => { y with ssp := y.ssp - 8, rc := y.rc - 1 }).with_ c true 0 false false 0
        (c.on.map fun l => (⟨l, 0, .stk, .blk 0 0, 0, 8, false⟩, .value
          (natAt s.stk (stkAddr c.g l ((g.lane l).ssp.toNat - 8)) 8 % (if z then 2 ^ 64 else 2 ^ 32)) (g.slots l d.toNat (if z then 2 else 1))))
        (c.on.flatMap fun l => slotRegs (g.slots l d.toNat (if z then 2 else 1))))))

/-- R150, R151, R155: `st`. In block memory and the pad each live lane whose guard is true stores the low bytes of its registers; on the stack
each lane stores in its own region at once, where misaligned and out of bounds addresses of live lanes fault.
R151, R155: stores at the group's own block memory, and those of the same word that reach it through the gang window, write their bytes at
once, in ascending lane order; no other byte of any memory and
nothing of the group changes. Stores in the pad or the gang window change no byte yet: they are on their way, in order.
What the spec leaves open in it is the model's reading: log 5. -/
def Obligations.Stores : Prop :=
  (
  (∀ d b o t p s c g la, p ≠ .stk → Issues s (.st d b p o t) c g la →
    exec (.st d b p o t) s = .next (s.accessed c
      (s.accesses c g la (c.voters g) (decide (p = .pad)) (fun l => offAddr (srcV s.dev g c l b.toNat) o (stSize t)) (stSize t)
        (sizeCode (stSize t)) .write)
      fun xs => Part.when (xs ≠ []) (doStores c (xs.map fun a => (a, regBytes (srcV s.dev g c a.lane) d.toNat t.regs (stSize t)))))) ∧
  (∀ d b o t s c g la, Issues s (.st d b .stk o t) c g la →
    let addr (l : Nat) : Nat := offAddr (srcV s.dev g c l b.toNat) o (stSize t)
    exec (.st d b .stk o t) s = .next (match stackFaults g la c.on addr (stSize t) with
      | some f => s.faults c f
      | none => { s with stk := (List.foldl
          (fun m l => putBytes m (stkAddr c.g l (addr l)) (regBytes (srcV s.dev g c l) d.toNat t.regs (stSize t))) s.stk
          (c.on.filter fun l => decide (addr l % stSize t = 0) && decide (addr l + stSize t ≤ la.spill))) }))) ∧
  (
  (∀ (s : State) (c : Issue) (g : Group) (la : Launch) (xs : List (LaneAccess × List Byte)),
    s.dev.group? c.g = some g → s.dev.launch? c.g.launch = some la → (∃ e ∈ xs, e.1.own la g) →
    (∀ e ∈ xs, e.1.tagged = false ∧ e.1.store = .blk la.tag g.key.block) →
    ∃ d, s.did (doStores c xs) =
        { s with blk := xs.foldl (fun m e => putBytes m (blkAddr la.tag g.key.block e.1.off) e.2) s.blk, dev := d } ∧
      d.group? c.g = some g ∧ d.jobs = s.dev.jobs ∧ d.launches = s.dev.launches ∧ d.xsets = s.dev.xsets ∧ d.regs = s.dev.regs) ∧
  (∀ (s : State) (c : Issue) (g : Group) (la : Launch) (xs : List (LaneAccess × List Byte)),
    s.dev.group? c.g = some g → s.dev.launch? c.g.launch = some la → xs ≠ [] → (∀ e ∈ xs, e.1.far) →
    ∃ d, s.did (doStores c xs) = { s with dev := d } ∧
      d.group? c.g = some (g.with_ c false 0 false false 0 (xs.map fun e => (e.1, .store e.2)) [])))

/-- R131, R132: `mld` and `mst`. A moment is 8 bytes: the mean in the low word and the variance in the high one.
R162: `st.mask` and `ld.mask` at the leader's address, without a leader no effect; a stored mask changes the bits of the
qualifying lanes alone, and a loaded mask's bit k goes to lane k's predicate.
What the spec leaves open in it is the model's reading: logs 5, 69. -/
def Obligations.MomentAndMaskAccesses : Prop :=
  (
  (∀ (pad : Bool) d b o s c g la, Issues s (if pad then .mstPad d b o else .mstBlk d b o) c g la →
    exec (if pad then .mstPad d b o else .mstBlk d b o) s = .next (s.accessed c
      (s.accesses c g la (c.voters g) pad (fun l => offAddr (srcV s.dev g c l b.toNat) o 8) 8 3 .write)
      fun xs => Part.when (xs ≠ []) (doStores c (xs.map fun a => (a, leBytes 8 (cellGet (g.lane a.lane).m d.toNat).toNat))))) ∧
  (∀ (pad : Bool) d b o s c g la f, Issues s (if pad then .mldPad d b o else .mldBlk d b o) c g la →
    s.accesses c g la c.on pad (fun l => offAddr (srcV s.dev g c l b.toNat) o 8) 8 3 .read = .error f →
    exec (if pad then .mldPad d b o else .mldBlk d b o) s = .next (s.faults c f)) ∧
  (∀ d b o s c g la xs, Issues s (.mldPad d b o) c g la →
    s.accesses c g la c.on true (fun l => offAddr (srcV s.dev g c l b.toNat) o 8) 8 3 .read = .ok xs → xs ≠ [] →
    (∀ a ∈ xs, a.far) →
    let zero := (c.on.filter fun m => !xs.any fun a => decide (a.lane = m)).flatMap fun m => outMom m d.toNat 0 0
    ∃ x, exec (.mldPad d b o) s = .next (State.did { s with dev := x } (retire c.g 12 zero)) ∧
      x.group? c.g = some (g.with_ c true (if zero = [] then 0 else s.dev.now g + 12) false false 0 (xs.map fun a => (a, .loadMom g.nvf none [⟨a.lane, .m d.toNat, 0⟩]))
        (xs.map fun a => (a.lane, .m d.toNat)))) ∧
  (∀ d b o s c g la xs, Issues s (.mldBlk d b o) c g la →
    s.accesses c g la c.on false (fun l => offAddr (srcV s.dev g c l b.toNat) o 8) 8 3 .read = .ok xs → (∀ a ∈ xs, a.own la g) →
    let val (a : LaneAccess) : Nat := natAt s.blk (blkAddr la.tag g.key.block a.off) a.size
    let bad (a : LaneAccess) : Bool := badVar (val a / 2 ^ 32)
    exec (.mldBlk d b o) s = .next (match (if g.nvf then xs.find? fun a => g.isLive a.lane && bad a else none) with
      | some a => s.faults c { code := .negvar, faddr := a.addr, cause := a.lane % 64 + 128 }
      | none => { s with dev := (Dev.retire (s.dev.touched g la xs .other) c.g 12
          (((c.on.filter fun m => !xs.any fun a => decide (a.lane = m)).flatMap fun m => outMom m d.toNat 0 0) ++
            (xs.flatMap fun a => outMom a.lane d.toNat (val a) (if bad a then 0 else val a / 2 ^ 32)) ++
            outFlags (if xs.any fun a => g.isLive a.lane && bad a then 32 else 0))) }))) ∧
  (
  (∀ d b o y s c g la, Issues s (.stMask d b o y) c g la → c.voters g = [] → exec (.stMask d b o y) s = .next s) ∧
  (∀ d b o y s c g la, Issues s (.ldMask d b o y) c g la → c.voters g = [] → exec (.ldMask d b o y) s = .next s) ∧
  (∀ d b o y s c g la ld f, Issues s (.stMask d b o y) c g la → g.leader c.on = some ld →
    s.accesses c g la [ld] y (fun _ => offAddr (srcV s.dev g c ld b.toNat) o (g.width / 8)) (g.width / 8) 7 .write = .error f →
    exec (.stMask d b o y) s = .next (s.faults c f)) ∧
  (∀ d b o y s c g la ld f, Issues s (.ldMask d b o y) c g la → g.leader c.on = some ld →
    s.accesses c g la [ld] y (fun _ => offAddr (srcV s.dev g c ld b.toNat) o (g.width / 8)) (g.width / 8) 7 .read = .error f →
    exec (.ldMask d b o y) s = .next (s.faults c f)) ∧
  (∀ d b o s c g la ld a, Issues s (.stMask d b o true) c g la → g.leader c.on = some ld →
    s.accesses c g la [ld] true (fun _ => offAddr (srcV s.dev g c ld b.toNat) o (g.width / 8)) (g.width / 8) 7 .write = .ok [a] → a.far →
    ∃ x, exec (.stMask d b o true) s = .next { s with dev := x } ∧
      x.group? c.g = some (g.with_ c false 0 false false 0
        [(a, .storeMask (natSum ((c.voters g).map fun k => 2 ^ k))
          (natSum (((c.voters g).filter fun k => (g.lane k).predF d.toNat).map fun k => 2 ^ k)))] [])) ∧
  (∀ d b o s c g la ld a, Issues s (.ldMask d b o false) c g la → g.leader c.on = some ld →
    s.accesses c g la [ld] false (fun _ => offAddr (srcV s.dev g c ld b.toNat) o (g.width / 8)) (g.width / 8) 7 .read = .ok [a] → a.own la g →
    exec (.ldMask d b o false) s = .next { s with dev := (Dev.retire (s.dev.touched g la [a] .other) c.g 12 (c.on.flatMap fun k =>
      outPred k d.toNat (bitAt (natAt s.blk (blkAddr la.tag g.key.block a.off) a.size) k))) }) ∧
  (∀ d b o s c g la ld a, Issues s (.stMask d b o false) c g la → g.leader c.on = some ld →
    s.accesses c g la [ld] false (fun _ => offAddr (srcV s.dev g c ld b.toNat) o (g.width / 8)) (g.width / 8) 7 .write = .ok [a] → a.own la g →
    let at_ := blkAddr la.tag g.key.block a.off
    let mask := natSum ((c.voters g).map fun k => 2 ^ k)
    let data := natSum (((c.voters g).filter fun k => (g.lane k).predF d.toNat).map fun k => 2 ^ k)
    ∃ x, exec (.stMask d b o false) s = .next { s with
        blk := (countFrom 0 a.size).foldl (fun m k => if mask / 2 ^ (8 * k) % 2 ^ 8 = 0 then m
          else putBytes m (at_ + k) [BitVec.ofNat 8 (mergeMask (natAt s.blk at_ a.size) mask data a.size / 2 ^ (8 * k))]) s.blk
        dev := x } ∧ x.group? c.g = some g) ∧
  (∀ d b o s c g la ld a, Issues s (.ldMask d b o true) c g la → g.leader c.on = some ld →
    s.accesses c g la [ld] true (fun _ => offAddr (srcV s.dev g c ld b.toNat) o (g.width / 8)) (g.width / 8) 7 .read = .ok [a] → a.far →
    ∃ x, exec (.ldMask d b o true) s = .next { s with dev := x } ∧
      let ps := if d.toNat % 16 = 15 then [] else c.on.map fun k => (k, d.toNat)
      x.group? c.g = some (g.with_ c true 0 false false 0 [(a, .loadMask none ps)] (ps.map fun e => (e.1, .p e.2)))))

/-- R150, R158 to R161: `atom`, `atom.cas` and `atom.acc` act at the lanes' addresses, in ascending lane order, and give their helper lanes 0; an
`atom.acc` that meets a delta of the other type is an ILLEGAL_OPERAND (R250).
R159 to R161: atomics on the group's own block's memory, those of the word that reach it through the gang window among them, act one after
another in ascending lane order: the location of the first takes the new value, where there is one, no other byte changes, and the others find
it so; the old values are on their way with 12 die cycles. In the pad or another block's memory they are counted and on their way.
R159: the new value of an atomic, from the old value and the operand.
What the spec leaves open in it is the model's reading: logs 5, 43, 61, 69. -/
def Obligations.Atomics : Prop :=
  (
  (∀ d a k p r s c g la, Issues s (.atom d a k p r) c g la →
    let zero := helperZeros c g d.toNat k.regs
    exec (.atom d a k p r) s = .next (s.accessed c
      (s.accesses c g la (c.voters g) p (fun l => (srcV s.dev g c l a.toNat).toNat) (aopSize k) (sizeCode (aopSize k))
        (.atomic (decide (k = .addF32 ∨ k = .minF32 ∨ k = .maxF32))))
      fun xs => if xs = [] then retire c.g 12 zero else doAtomics c (ordAcq r) (ordRel r) (ordScope r) zero
        (xs.map fun x => ⟨x, .atom k (if k.regs = 2 then pval (srcV s.dev g c x.lane) d else uval (srcV s.dev g c x.lane) d)
          (g.slots x.lane d.toNat k.regs), g.slots x.lane d.toNat k.regs⟩))) ∧
  (∀ d a z p r s c g la, Issues s (.atomCas d a z p r) c g la →
    let zero := helperZeros c g d.toNat (if z then 2 else 1)
    exec (.atomCas d a z p r) s = .next (s.accessed c
      (s.accesses c g la (c.voters g) p (fun l => (srcV s.dev g c l a.toNat).toNat) (if z then 8 else 4) (sizeCode (if z then 8 else 4))
        (.atomic false))
      fun xs => if xs = [] then retire c.g 12 zero else doAtomics c (ordAcq r) (ordRel r) (ordScope r) zero
        (xs.map fun x =>
          let v (k : Nat) : Nat := (srcV s.dev g c x.lane (d.toNat + k)).toNat
          ⟨x, (if z then .cas (v 0 + 2 ^ 32 * v 1) (v 2 + 2 ^ 32 * v 3) (g.slots x.lane d.toNat 2) else .cas (v 0) (v 1) (g.slots x.lane d.toNat 1)),
            g.slots x.lane d.toNat (if z then 2 else 1)⟩))) ∧
  (∀ (f : Bool) d a p r s c g la, Issues s (if f then .atomAccF32 d a p r else .atomAccZ32 d a p r) c g la →
    let addr (l : Nat) : Nat := (srcV s.dev g c l a.toNat).toNat
    let zero := helperZeros c g d.toNat 1
    let clash : Bool := (c.voters g).any fun l => match s.accesses c g la [l] p addr 4 2 (.atomic f) with
      | .ok xs => xs.any (s.accClash g.vt f)
      | .error _ => false
    exec (if f then .atomAccF32 d a p r else .atomAccZ32 d a p r) s = .next (
      if clash then s.faults c (illegalValue c 1)
      else s.accessed c (s.accesses c g la (c.voters g) p addr 4 2 (.atomic f))
        fun xs => if xs = [] then retire c.g 12 zero else doAtomics c (ordAcq r) (ordRel r) (ordScope r) zero
          (xs.map fun x => ⟨x, .acc f (uval (srcV s.dev g c x.lane) d) (g.slots x.lane d.toNat 1), g.slots x.lane d.toNat 1⟩))) ∧
  (∀ (c : Issue) (g : Group) n k, helperZeros c g n k = (c.on.filter g.isHelper).flatMap fun l => slotOuts (g.slots l n k) 0)) ∧
  (
  (∀ (s : State) (c : Issue) (g : Group) (la : Launch) (acq rel : Bool) (scope : Nat) (zero : List Out) (x : AtomLane),
    s.dev.group? c.g = some g → s.dev.launch? c.g.launch = some la → x.acc.own la g →
    let at_ := blkAddr la.tag g.key.block x.acc.off
    let old := natAt s.blk at_ x.acc.size
    ∃ t d, s.did (doAtomics c acq rel scope zero [x]) = t.did (retire c.g 12 (zero ++ slotOuts x.slots old)) ∧
      t = { s with
        blk := (match x.op.newValue old with | some v => putBytes s.blk at_ (leBytes x.acc.size v) | none => s.blk)
        dev := d } ∧ d.group? c.g = some g) ∧
  (∀ (s : State) (c : Issue) (g : Group) (la : Launch) (acq rel : Bool) (scope : Nat) (zero : List Out) (xs : List AtomLane),
    s.dev.group? c.g = some g → s.dev.launch? c.g.launch = some la → (∃ x ∈ xs, x.acc.own la g) →
    (∀ x ∈ xs, x.acc.tagged = false ∧ x.acc.store = .blk la.tag g.key.block) →
    let step (m : Memory) (x : AtomLane) : Memory :=
      let at_ := blkAddr la.tag g.key.block x.acc.off
      match x.op.newValue (natAt m at_ x.acc.size) with | some v => putBytes m at_ (leBytes x.acc.size v) | none => m
    (s.did (doAtomics c acq rel scope zero xs)).blk = xs.foldl step s.blk) ∧
  (∀ (s : State) (c : Issue) (g gr : Group) (la : Launch) (acq rel : Bool) (scope : Nat) (zero : List Out) (xs : List AtomLane),
    s.dev.group? c.g = some g → s.dev.launch? c.g.launch = some la → xs ≠ [] → (∀ x ∈ xs, x.acc.far) →
    (s.dev.retire c.g 12 zero).group? c.g = some gr →
    ∃ d, s.did (doAtomics c acq rel scope zero xs) = { s with dev := d } ∧
      d.group? c.g = some (gr.with_ c true (if zero = [] then 0 else s.dev.now g + 12) acq rel scope (xs.map fun x => (x.acc, x.op))
        (xs.flatMap fun x => slotRegs x.slots)))) ∧
  (
  ∀ (a b : Word) (x y : Nat),
    let n (k : AOp) : Nat := aopNew k a.toNat b.toNat
    n .addZ32 = (a + b).toNat ∧ aopNew .addB64 x y = (x + y) % 2 ^ 64 ∧ n .addF32 = (fpAdd fmtF32 .rn false a.toNat b.toNat).bits ∧
    n .minS32 = (if a.toInt ≤ b.toInt then a else b).toNat ∧ n .minZ32 = min a.toNat b.toNat ∧
    n .maxS32 = (if a.toInt ≤ b.toInt then b else a).toNat ∧ n .maxZ32 = max a.toNat b.toNat ∧
    n .minF32 = fpMinMax fmtF32 false a.toNat b.toNat ∧ n .maxF32 = fpMinMax fmtF32 true a.toNat b.toNat ∧
    n .andB32 = (a &&& b).toNat ∧ n .orB32 = (a ||| b).toNat ∧ n .xorB32 = (a ^^^ b).toNat ∧ n .exchB32 = b.toNat ∧
    aopNew .exchB64 x y = y ∧ n .incZ32 = (if b.toNat ≤ a.toNat then 0 else a.toNat + 1))

/-- R163: `fence`, whatever its scope, with a lane whose guard is true holds its batch until the outstanding-load counter is 0 and the stores
and atomics that the group issued before it are performed; then it retires the counted loads, or raises the earliest time-out. `wait.ld` holds until the
outstanding-load counter is at most its count, then retires what has completed, or raises the earliest fault of a load that it retires. A held word
that finds its wait over does the same and goes on behind the word; one that does not stays as it is.
R139 to R141: `xreg.acq` and `xreg.rel`. A kernel without extended registers is an ILLEGAL_OPERAND at either; a release without the lock is an
XREG_NOT_HELD; an acquisition without the lock requests it and waits with barrier number 0xFE, and goes on once its group holds it. After each die cycle
a set whose release is asked is free once its group has no more to write there, and a free one goes to the earliest request, of two the lower
slot's, with the words that its group was saved with, or else those of the last holder within one launch. -/
def Obligations.FencesAndLocks : Prop :=
  (
  (∀ i, i ∈ [Instr.fenceGrp, .fenceBlk, .fenceGang, .fenceDev, .fenceSys] → ∀ s c g la, Issues s i c g la →
    let mark := match c.resume with | none => g.accesses | some h => h.mark
    exec i s = .next (
      if c.on = [] then s
      else if g.outstanding = 0 ∧ ∀ a ∈ g.acc, a.op.writes = true ∨ a.isDue = true ∧ a.taken = false → mark ≤ a.seq then
        match firstDeferred (g.deferred.filter fun x => decide (x.code = 0x34)) with
        | some x => s.did (raiseDeferred c x)
        | none => (s.withGroup { g with counted := [] }).did (Part.when (c.resume.isSome = true) (releaseLanes c.g c.lanes (pcNext c.loc)))
      else s.did (Part.when (c.resume.isNone = true) (holdLanes c i c.lanes .retry 4 .none)))) ∧
  (∀ n s c g la, Issues s (.waitLd n) c g la →
    exec (.waitLd n) s = .next (
      if c.on = [] then s
      else if g.outstanding ≤ n.toNat then
        match firstDeferred (g.deferred.filter fun x => !x.store && (g.counted.takeWhile g.complete).any fun q => decide (q.seq = x.seq)) with
        | some x => s.did (raiseDeferred c x)
        | none => (s.withGroup { g with counted := g.unretired }).did (Part.when (c.resume.isSome = true) (releaseLanes c.g c.lanes (pcNext c.loc)))
      else s.did (Part.when (c.resume.isNone = true) (holdLanes c (.waitLd n) c.lanes .retry 4 .none)))) ∧
  (∀ (g : Group) (q : Counted), g.complete q = true ↔ (∀ a ∈ g.acc, a.seq ≠ q.seq) ∧ ∀ p ∈ g.pend, p.land ≠ q.near) ∧
  (∀ (g : Group), g.outstanding = (g.counted.dropWhile g.complete).length)) ∧
  (
  (∀ s c g la, Issues s .xregAcq c g la →
    exec .xregAcq s = .next (
      if c.voters g = [] then s
      else if la.xregs = false then s.faults c (illegalValue c 0)
      else if s.dev.holdsX g then s.did (Part.when (c.resume.isSome = true) (releaseLanes c.g c.lanes (pcNext c.loc)))
      else if c.resume.isSome then s
      else (s.withDev fun d => d.requestX g).did (holdLanes c .xregAcq c.lanes .xreg 12 (.bar 0xFE 0)))) ∧
  (∀ s c g la, Issues s .xregRel c g la →
    exec .xregRel s = .next (
      if c.voters g = [] then s
      else if la.xregs = false then s.faults c (illegalValue c 0)
      else if s.dev.holdsX g = false then s.faults c { code := .xregNotHeld, cause := checkCause (pcSlot c.loc) 0 13 }
      else match g.place with
        | none => s
        | some p => s.withDev fun d => d.setXset { d.xsetAt p with releasing := true })) ∧
  (∀ (d : Dev) (x : XSet) k t, x.holder = none → firstRequest d x.queue = some (k, t) →
    (d.grantX x).xsets.find? (fun z => decide (z.die = x.die) && decide (z.core = x.core) && decide (z.pair = x.pair)) =
      some { x with holder := some k, releasing := false, queue := x.queue.filter fun e => decide (e.1 ≠ k)
                    words := (match (d.group? k).bind Group.xsaved with
                      | some w => w
                      | none => if x.lastLaunch = some k.launch then x.words else [])
                    lastLaunch := some k.launch } ∧
    ∀ g, d.group? k = some g → (d.grantX x).group? k = some { g with xsaved := none }) ∧
  (∀ (d : Dev) (q : List (GKey × Nat)),
    let slot (k : GKey) : Nat := match (d.group? k).bind Group.place with | some p => p.slot | none => 16
    (firstRequest d q = none ↔ q = []) ∧
    ∀ e, firstRequest d q = some e → e ∈ q ∧ ∀ f ∈ q, e.2 < f.2 ∨ e.2 = f.2 ∧ slot e.1 ≤ slot f.1) ∧
  (∀ (d : Dev) die (x : XSet), x ∈ d.xsets → x.die = die →
    (d.xsets.Pairwise fun a b => ¬ (a.die = b.die ∧ a.core = b.core ∧ a.pair = b.pair)) →
    let kept : Prop := ∃ k, x.holder = some k ∧ (x.releasing = true → ∃ g, d.group? k = some g ∧ d.xBusy g = true)
    ∃ y ∈ (d.settleX die).xsets, y.die = x.die ∧ y.core = x.core ∧ y.pair = x.pair ∧
      (kept → y = x) ∧ (¬ kept → y.releasing = false ∧ y.holder = (firstRequest d x.queue).map Prod.fst)) ∧
  (∀ (g : Group) (la : Launch), g.xBusy la = true ↔ (∃ p ∈ g.pend, ∃ n, p.dst = .x n) ∨ (∃ q ∈ g.unretired, ∃ e ∈ q.dsts, ∃ n, e.2 = .x n) ∨
    ∃ x ∈ g.lanes, x.hold.isSome = true ∧ ∃ i, heldWord la x = some i ∧ ∃ o ∈ i.operands, o.wr = true ∧ ∃ n ∈ o.vregs, 64 ≤ n))

/-! ### Barriers, the slot-pair lock, objects and cisterns -/

/-- R170, R172, R173: `bar.init`, `bar.arrive`, `bar.wait`, `bar.sync`, `bar.sync.gang` (barrier 16 of the model) and `grid.sync` (17). An arrival
waits for the group's stores, raises a store's time-out, takes what the group's earlier loads read (R286), arrives with each live lane that is
not pending, and holds those that are; so does a held one that had to wait with its arrival.
R169, R170, R174: fibres that arrive become pending, and then the group's arrival is tried: a group whose live fibres are not all pending, or that has
arrived, changes no barrier; one whose last live fibre arrives adds 1 to ARR and has its bit of ARRM set; the arrival that makes ARR equal to EXP
completes the phase, a grid phase only once no staged write of its launch is left: ARR is 0, PHASE is one more, EXP stays, and no fibre that meets at the
barrier is pending.
What the spec leaves open in it is the model's reading: logs 43, 58, 61. -/
def Obligations.BlockBarriers : Prop :=
  (
  (∀ n b s c g la, Issues s (.barInit n b) c g la →
    exec (.barInit n b) s = .next (
      let bar := s.dev.barrier c.g b.toNat
      if c.voters g = [] then s
      else if la.groups < n.toNat ∨ bar.arr ≠ 0 ∨ ∃ h ∈ s.dev.groups, h.key.launch = c.g.launch ∧ h.key.block = c.g.block ∧
          ∃ x ∈ h.lanes, x.isPending b.toNat = true then s.faults c (illegalValue c 3)
      else s.withDev fun d => d.setBarrier c.g b.toNat { bar with exp := n.toNat })) ∧
  (∀ (i : Instr) (n : Nat) (sync : Bool),
    ((∃ b : BitVec 4, n = b.toNat ∧ (i = .barArrive b ∧ sync = false ∨ i = .barSync b ∧ sync = true)) ∨
      (i = .barSyncGang ∧ n = 16 ∧ sync = true) ∨ (i = .gridSync ∧ n = 17 ∧ sync = true)) →
    ∀ s c g la, Issues s i c g la →
    ((∀ h, c.resume = some h → ∀ m, h.kind ≠ .barrier m) →
      let again := (c.voters g).filter fun f => (g.lane f).isPending n
      let now := (c.voters g).filter fun f => !(g.lane f).isPending n
      exec i s = .next (
        if c.voters g = [] then s
        else if g.storesDone c = false then s.did (Part.when (c.resume.isNone = true) (holdLanes c i (c.voters g) .retry 5 .none))
        else match g.timedOut true with
          | some x => s.did (raiseDeferred c x)
          | none =>
            let s1 := (s.did (releaseReads c.g)).withDev fun d => d.arrive c.g n now
            let s2 := s1.did (Part.when (again ≠ []) (holdLanes c i again (.arrive n sync) 5 (.bar n 0)))
            let stay := if sync then s2.dev.pendingLanes c.g n now else []
            let s3 := s2.did (Part.when (stay ≠ []) (holdLanes c i stay (.barrier n) 5 (.bar n 0)))
            let go := now.filter fun f => !stay.contains f
            s3.did (Part.when (c.resume.isSome = true ∧ go ≠ []) (releaseLanes c.g go (pcNext c.loc))))) ∧
    (∀ h m, c.resume = some h → h.kind = .barrier m →
      let go := (c.voters g).filter fun f => !(g.lane f).isPending n
      exec i s = .next (s.did (Part.when (go ≠ []) (releaseLanes c.g go (pcNext c.loc)))))) ∧
  (∀ b s c g la, Issues s (.barWait b) c g la →
    let stay := (c.voters g).filter fun f => (g.lane f).isPending b.toNat
    let go := (c.voters g).filter fun f => !(g.lane f).isPending b.toNat
    exec (.barWait b) s = .next (
      if c.resume.isSome then s.did (Part.when (go ≠ []) (releaseLanes c.g go (pcNext c.loc)))
      else s.did (Part.when (stay ≠ []) (holdLanes c (.barWait b) stay (.barrier b.toNat) 5 (.bar b.toNat 0)))))) ∧
  (
  (∀ (d : Dev) k n, d.arrive k n [] = d) ∧
  (∀ (d : Dev) k n g ls, d.group? k = some g → ls ≠ [] → n < 18 → ∃ (d1 : Dev) (g1 : Group), d.arrive k n ls = d1.tryComplete k n ∧ d1.group? k = some g1 ∧
    (∀ l, l < g.lanes.length → ∀ m, (g1.lane l).isPending m = (decide (l ∈ ls ∧ m = n) || (g.lane l).isPending m)) ∧
    d1.barrier k n = d.barrier k n ∧ d1.arrm k n = d.arrm k n ∧ g1.liveLanes = g.liveLanes ∧ d1.staged = d.staged) ∧
  (∀ (d : Dev) k n g, d.group? k = some g →
    (g.liveLanes = [] ∨ (∃ f ∈ g.liveLanes, (g.lane f).isPending n = false) ∨ bitAt (d.arrm k n).toNat k.group = true) → d.tryComplete k n = d) ∧
  (∀ (d : Dev) k n g la b, d.group? k = some g → d.launch? k.launch = some la → d.block? k.launch k.block = some b → b.bars.length = 18 → n < 18 →
    k.group < 16 → g.liveLanes ≠ [] → (∀ f ∈ g.liveLanes, (g.lane f).isPending n = true) → bitAt (d.arrm k n).toNat k.group = false →
    let full : Prop := (d.barrier k n).arr + 1 = (d.barrier k n).exp ∧ ¬ (n = 17 ∧ ∃ w ∈ d.staged, w.launch = k.launch)
    ∃ d1 : Dev, (¬ full → d.tryComplete k n = d1) ∧ (full → d.tryComplete k n = d1.completePhase k n) ∧
      (d1.barrier k n).arr = (d.barrier k n).arr + 1 ∧ (d1.barrier k n).exp = (d.barrier k n).exp ∧ (d1.barrier k n).phase = (d.barrier k n).phase ∧
      bitAt (d1.arrm k n).toNat k.group = true ∧ d1.groups = d.groups ∧ d1.launch? k.launch ≠ none ∧
      ∃ b1, d1.block? k.launch k.block = some b1 ∧ b1.bars.length = 18) ∧
  (∀ (d : Dev) k n la b, d.launch? k.launch = some la → d.block? k.launch k.block = some b → b.bars.length = 18 → n < 18 →
    ((d.completePhase k n).barrier k n).arr = 0 ∧ ((d.completePhase k n).barrier k n).phase = (d.barrier k n).phase + 1 ∧
    ((d.completePhase k n).barrier k n).exp = (d.barrier k n).exp ∧ (d.completePhase k n).arrm k n = 0 ∧
    ∀ h ∈ (d.completePhase k n).groups, h.key.launch = la.tag → la.meets k.block n h.key.block = true → ∀ x ∈ h.lanes, x.isPending n = false))

/-- R272, R273: the words of barrier objects, each at its leader's operands; a word without a leader has no effect.
R272: an arrival of n at an object changes its bytes from ARR on alone: ARR + n below EXP; at EXP a new phase with ARR, ERR, CAUSE and DETAIL 0;
beyond EXP a new phase with ERR 3, CAUSE 3 and the count in DETAIL. The status pair of R273 reads them back.
R279: `cst.init`, `cst.put` and `cst.take`, each at its leader's operand. A put waits for the group's stores and for room, a take for a count;
both wait behind those of their kind that came before. A take counts as a load from its issue on; a held put or take whose turn has come does the same
and goes on behind the word, and one whose turn has not stays as it is.
What the spec leaves open in it is the model's reading: logs 19, 21, 58, 61, 70. -/
def Obligations.ObjectsAndCisterns : Prop :=
  (
  (∀ i s c g la, ((∃ a b, i = Instr.objInit a b ∨ i = .objArrive a b ∨ i = .objWait a b) ∨ ∃ d a b, i = Instr.objWaitSt d a b ∨ i = .objPoll d a) →
    Issues s i c g la → c.voters g = [] → exec i s = .next s) ∧
  (∀ a b s c g la ld, Issues s (.objInit a b) c g la → g.leader c.on = some ld →
    let code := uval (srcV s.dev g c ld) a
    let exp := uval (srcV s.dev g c ld) b
    exec (.objInit a b) s = .next (
      if (match objRefOf la g.key.block code with | some o => s.dev.objNamed o | none => false) then s.faults c (illegalValue c 2)
      else if exp = 0 then s.faults c (illegalValue c 3)
      else match objAccess s.dev g la ld code true with
        | .error f => s.faults c f
        | .ok x =>
          let s1 := s.withDev fun d => ((d.touchRace g la x .other).plainOver x.store 0 x.off 16).clearObjHeads ⟨x.store, x.off⟩
          (s1.did (objStore (some c.g) ⟨x.store, x.off⟩ 0 (leBytes 4 exp ++ List.replicate 12 0))).did
            (watchWord c la.job (ObjRef.padBytes ⟨x.store, x.off⟩ 0 16)))) ∧
  (∀ a b s c g la ld, Issues s (.objArrive a b) c g la → g.leader c.on = some ld →
    let n := uval (srcV s.dev g c ld) b
    exec (.objArrive a b) s = .next (
      if n = 0 then s.faults c (illegalValue c 3)
      else match objAccess s.dev g la ld (uval (srcV s.dev g c ld) a) true with
        | .error f => s.faults c f
        | .ok x => match g.timedOut true with
          | some t => s.did (raiseDeferred c t)
          | none =>
            let s1 := (s.did (releaseReads c.g)).withDev fun d => d.touchRace g la x .other
            (s1.did (objArriveN (s1.dev.releaseOf c.g x.space.scope) ⟨x.store, x.off⟩ n)).did
              (watchWord c la.job (ObjRef.padBytes ⟨x.store, x.off⟩ 4 (if s.completes ⟨x.store, x.off⟩ n then 12 else 4))))) ∧
  (∀ (st : Bool) d a b s c g la ld, let i : Instr := if st then .objWaitSt d a b else .objWait a b
    Issues s i c g la → g.leader c.on = some ld →
    let code := uval (srcV s.dev g c ld) a
    let wentOn (s1 : State) (o : ObjRef) : Option State :=
      let v := leadV s1 g c ld b % 2 ^ 16
      if v ≠ s.objPhase o ∧ g.objBusy o = false then
        if st = false ∧ s.objErr o ≠ 0 then some (s1.faults c (if codeListed (s.objErr o) = true then
            { code := .raw (s.objErr o), faddr := codeAddr code, cause := pcSlot c.loc, aux := s.objDetail o }
          else illegalValue c 2))
        else
          let s2 := s1.withDev fun dv => dv.acquire c.g (codeScope la g.key.block code) (dv.arrivers o v (s.objPhase o))
          let s3 := if st then s2.did (landSlots c.g (c.on.flatMap fun l => g.slots l d.toNat 2) (s.objStatus o)) else s2
          some (s3.did (goOn c))
      else none
    (c.resume = none → exec i s = .next (match objAccess s.dev g la ld code false with
      | .error f => s.faults c f
      | .ok x =>
        let s1 := s.withDev fun d => d.touchRace g la x .other
        (wentOn s1 ⟨x.store, x.off⟩).getD (s1.did (holdLanes c i c.lanes (.obj code) 6 (.bar 0xFD (codeAddr code)))))) ∧
    (∀ h code', c.resume = some h → h.kind = .obj code' →
      exec i s = .next (match objRefOf la g.key.block code with | some o => (wentOn s o).getD s | none => s))) ∧
  (∀ d a s c g la ld, Issues s (.objPoll d a) c g la → g.leader c.on = some ld →
    exec (.objPoll d a) s = .next (match objAccess s.dev g la ld (uval (srcV s.dev g c ld) a) false with
      | .error f => s.faults c f
      | .ok x => (s.withDev fun dv => dv.touchRace g la x .other).after c.g 4
          (c.on.flatMap fun m => outRun g m d.toNat 2 (s.objStatus ⟨x.store, x.off⟩))))) ∧
  (
  (∀ (s : State) (r : Release) (o : ObjRef) (n : Nat),
    let t := s.objArr o + n
    ∃ d, s.did (objArriveN r o n) = { s.setBank (putBytes (s.bank o.store.bank) (o.store.at_ (o.addr + 4))
      (if t < s.objExp o then leBytes 4 t
        else leBytes 4 0 ++ leBytes 2 (s.objPhase o + 1) ++
          (if t = s.objExp o then List.replicate 6 0 else [3, 3] ++ leBytes 4 t))) o.store.bank with dev := d }) ∧
  (∀ (s : State) (o : ObjRef), s.objStatus o = s.objPhase o + 2 ^ 16 * s.objErr o + 2 ^ 24 * s.objCause o +
    2 ^ 32 * (if s.objErr o = 0 then s.objArr o else s.objDetail o))) ∧
  (
  (∀ i s c g la, ((∃ a b, i = Instr.cstInit a b ∨ i = .cstPut a) ∨ ∃ d a, i = Instr.cstTake d a) →
    Issues s i c g la → c.voters g = [] → exec i s = .next s) ∧
  (∀ a b s c g la ld, Issues s (.cstInit a b) c g la → g.leader c.on = some ld →
    let code := uval (srcV s.dev g c ld) a
    let cap := uval (srcV s.dev g c ld) b
    exec (.cstInit a b) s = .next (
      if (match objRefOf la g.key.block code with | some o => !s.cstOk o || decide (s.dev.cstWaiters o ≠ []) | none => false) then
        s.faults c (illegalValue c 2)
      else if cap = 0 ∨ 2 ^ 31 < cap then s.faults c (illegalValue c 3)
      else match objAccess s.dev g la ld code true with
        | .error f => s.faults c f
        | .ok x =>
          ((s.withDev fun d => (d.touchRace g la x .other).clearObjHeads ⟨x.store, x.off⟩).did
            (objStore (some c.g) ⟨x.store, x.off⟩ 0 (leBytes 4 0 ++ leBytes 4 cap))).did (watchWord c la.job (ObjRef.padBytes ⟨x.store, x.off⟩ 0 8)))) ∧
  (∀ a s c g la ld, Issues s (.cstPut a) c g la → g.leader c.on = some ld →
    let code := uval (srcV s.dev g c ld) a
    let turn (s1 : State) (o : ObjRef) : State :=
      if g.storesDone c = false then s1.did (Part.when (c.resume.isNone = true) (holdLanes c (.cstPut a) c.lanes .retry 9 (.bar 0xFC (codeAddr code))))
      else match g.timedOut true with
        | some t => s1.did (raiseDeferred c t)
        | none =>
          if s.nat o.store o.addr 4 < s.nat o.store (o.addr + 4) 4 ∧ g.objBusy o = false ∧ cstFirst s1.dev g o false c = true then
            ((((s1.did (releaseReads c.g)).withDev fun d => d.setObjHeads o 0 (d.objHeads o 0 ++ [d.releaseOf c.g (codeScope la g.key.block code)])).did
              (objStore (some c.g) o 0 (leBytes 4 (s.nat o.store o.addr 4 + 1)))).did (watchWord c la.job (o.padBytes 0 4))).did (goOn c)
          else match c.resume.map Hold.kind with
            | some (.cst _ _ _ _) => s1
            | _ => s1.did (holdLanes c (.cstPut a) c.lanes (.cst false code s1.dev.time (s1.dev.now g)) 9 (.bar 0xFC (codeAddr code)))
    exec (.cstPut a) s = .next (
      if c.resume.isSome then (match objRefOf la g.key.block code with | some o => turn s o | none => s)
      else if (match objRefOf la g.key.block code with | some o => !s.cstOk o | none => false) then s.faults c (illegalValue c 2)
      else match objAccess s.dev g la ld code true with
        | .error f => s.faults c f
        | .ok x => turn (s.withDev fun d => d.touchRace g la x .other) ⟨x.store, x.off⟩)) ∧
  (∀ d a s c g la ld, Issues s (.cstTake d a) c g la → g.leader c.on = some ld →
    let code := uval (srcV s.dev g c ld) a
    let ss := c.on.flatMap fun m => g.slots m d.toNat 1
    let due (o : ObjRef) (v : AccOp) : Part := Part.mod fun dv =>
      dv.issueAccesses c true 0 false false 0 [(⟨ld, 0, .pad, o.store, o.addr, 4, false⟩, v)] (slotRegs ss)
    let turn (s1 : State) (o : ObjRef) : State :=
      let n := s.nat o.store o.addr 4
      if 0 < n ∧ g.objBusy o = false ∧ cstFirst s1.dev g o true c = true then
        ((((s1.withDev fun dv => match dv.objHeads o 0 with
            | [] => dv
            | h :: hs => (dv.setObjHeads o 0 hs).acquire c.g (codeScope la g.key.block code) [h]).did (objStore (some c.g) o 0 (leBytes 4 (n - 1)))).did
          (match c.resume with
            | none => due o (.value n ss)
            | some h => Part.mod fun dv => dv.modGroup c.g fun x => x.giveDue h.mark fun e =>
                .value n (match e.op with | .due _ us => us | _ => []))).did (watchWord c la.job (o.padBytes 0 4))).did (goOn c)
      else match c.resume.map Hold.kind with
        | some (.cst _ _ _ _) => s1
        | _ => (s1.did (holdLanes c (.cstTake d a) c.lanes (.cst true code s1.dev.time (s1.dev.now g)) 9 (.bar 0xFC (codeAddr code)))).did
            (due o (.due false ss))
    exec (.cstTake d a) s = .next (
      if c.resume.isSome then (match objRefOf la g.key.block code with | some o => turn s o | none => s)
      else if (match objRefOf la g.key.block code with | some o => !s.cstOk o | none => false) then s.faults c (illegalValue c 2)
      else match objAccess s.dev g la ld code true with
        | .error f => s.faults c f
        | .ok x => turn (s.withDev fun d => d.touchRace g la x .other) ⟨x.store, x.off⟩)))

/-! ### Vintages -/

/-- R246, R252 to R255, R257, R258: the vintage words. `vt.new` checks that its parent is live, that it is not closing, the depth, and then its ordinal, and takes the lowest free tag or
waits for one; `vt.merge` and `vt.drop` want a live vintage of the launch without a live child that is not closing. A held `vt.new` makes its
child, of the parent of its issue, once a tag is free.
What the spec leaves open in it is the model's reading: log 58. -/
def Obligations.VintageWords : Prop :=
  (∀ d a s c g la ld, Issues s (.vtNew d a) c g la → g.leader c.on = some ld → c.resume = none →
    let p := g.vt
    let o := uval (srcV s.dev g c ld) a
    let pv := s.dev.vintage? p
    let closing : Bool := decide (p ≠ 0) && (match pv with | some v => v.closing.isSome | none => false)
    let taken : Bool := decide (o < (s.dev.cursor la.tag p).1) || (s.dev.cursor la.tag p).2.contains o ||
      s.dev.vintages.any fun v => v.live && decide (v.launch = la.tag) && decide (v.parent = p) && decide (v.ordinal = o)
    exec (.vtNew d a) s = .next (
      if p ≠ 0 ∧ s.dev.liveVt la.tag p = false then s.faults c { code := .vtOrphan, cause := pcSlot c.loc, aux := p }
      else if closing then s.faults c (illegalValue c 0)
      else if decide (p ≠ 0) && (match pv with | some v => decide (v.depth = 3) | none => false) then s.faults c { code := .vtDepth, cause := pcSlot c.loc }
      else if taken then s.faults c (illegalValue c 2)
      else match s.dev.freeTag with
        | none => s.did (holdLanes c (.vtNew d a) c.lanes (.newVt p) 10 (.vt 0 0))
        | some t =>
          (s.withDev fun dv => dv.setVintage
            { tag := t, parent := p, depth := (match pv with | some v => if p = 0 then 1 else v.depth + 1 | none => 1), ordinal := o
              launch := la.tag, live := true, closing := none, mark := 0, failed := false, next := 0, done := [] }).after c.g 3
            (c.on.flatMap fun m => outRun g m d.toNat 1 t))) ∧
  (∀ d a s c g la ld h p, Issues s (.vtNew d a) c g la → g.leader c.on = some ld → c.resume = some h → h.kind = .newVt p →
    exec (.vtNew d a) s = .next (match s.dev.freeTag with
      | none => s
      | some t =>
        ((s.withDev fun dv => dv.setVintage
          { tag := t, parent := p, depth := (match s.dev.vintage? p with | some v => if p = 0 then 1 else v.depth + 1 | none => 1)
            ordinal := uval (srcV s.dev g c ld) a, launch := la.tag, live := true, closing := none, mark := 0, failed := false, next := 0, done := [] }).after
          c.g 3 (c.on.flatMap fun m => outRun g m d.toNat 1 t)).did (releaseLanes c.g c.lanes (pcNext c.loc)))) ∧
  (∀ a s c g la ld, Issues s (.vtSet a) c g la → g.leader c.on = some ld →
    let t := uval (srcV s.dev g c ld) a
    exec (.vtSet a) s = .next (if t = 0 ∨ s.dev.liveVt la.tag t = true then s.withGroup { g with gsr := dput g.gsr 32 14 t }
      else s.faults c (illegalValue c 2))) ∧
  (∀ d s c g la, Issues s (.vtGet d) c g la →
    exec (.vtGet d) s = .next (if c.voters g = [] then s else s.after c.g 3 (c.on.flatMap fun m => outRun g m d.toNat 1 g.vt))) ∧
  (∀ a s c g la ld, Issues s (.vtDrop a) c g la → g.leader c.on = some ld →
    exec (.vtDrop a) s = .next (match s.dev.retirable la.tag (srcV s.dev g c ld a.toNat) with
      | none => s.faults c (illegalValue c 2)
      | some v =>
        let d := ((s.takeView v.tag).retireVintage v).modGroup c.g fun g => if g.vt = v.tag then g.setVt v.parent else g
        { s with dev := if (d.cursor v.launch v.parent).1 = (s.dev.cursor v.launch v.parent).1 then d else d.acquireMerges c.g v.launch v.parent })) ∧
  (∀ a s c g la ld, Issues s (.vtMerge a) c g la → g.leader c.on = some ld → c.resume = none →
    exec (.vtMerge a) s = .next (match s.dev.retirable la.tag (srcV s.dev g c ld a.toNat) with
      | none => s.faults c (illegalValue c 2)
      | some v => ((s.withDev fun d => d.setVintage { v with closing := some c.g, mark := g.accesses }).did (releaseReads c.g)).did
          (holdLanes c (.vtMerge a) c.lanes (.turn v.tag) 11 (.vt 2 v.ordinal)))) ∧
  (∀ i s c g la, ((∃ d a, i = Instr.vtNew d a) ∨ ∃ a, i = Instr.vtSet a ∨ i = .vtDrop a ∨ i = .vtMerge a) →
    Issues s i c g la → c.voters g = [] → c.resume = none → exec i s = .next s) ∧
  (∀ (w : Bool) d a b p z s c g la, Issues s (if w then .ldVtw d a b p z else .ldVt d a b p z) c g la →
    let n := if z then 8 else 4
    let addr (m : Nat) : Nat := uval (srcV s.dev g c m) a
    let tag (m : Nat) : Nat := uval (srcV s.dev g c m) b % 2 ^ 14
    let acc (m : Nat) : Except (AccFault × Space) LaneAccess := vtAccess s.dev g la m p (addr m) n (tag m)
    let slots (m : Nat) : List Slot := g.slots m d.toNat (if z then 2 else 1)
    exec (if w then .ldVtw d a b p z else .ldVt d a b p z) s = .next (
      match worstFault (c.on.filterMap fun m => match acc m with
        | .error f => if g.isHelper m then none else some (m, addr m, f.1, f.2)
        | .ok _ => none) with
      | some f => s.faults c (fibreFault (pcSlot c.loc) (sizeCode n) f)
      | none => s.withDev fun dv => if c.on = [] then dv else
          (dv.touched g la (c.on.filterMap fun m => (acc m).toOption) .other).issueAccesses c true 0 false false 0
            (c.on.map fun m => match acc m with
              | .ok x => (x, .loadVt (tag m) w (slots m))
              | .error f => (⟨m, 0, f.2, .pad, 0, n, true⟩, .value 0 (slots m)))
            (c.on.flatMap fun m => slotRegs (slots m)))) ∧
  (∀ (d : Dev) g a, g ∈ d.groups → a ∈ g.acc → d.tagHeld a.vt = true) ∧
  (∀ (d : Dev) t, d.freeTag = some t ↔ (1 ≤ t ∧ t < 16384 ∧ d.tagHeld t = false ∧ ∀ u, 1 ≤ u → u < t → d.tagHeld u = true))

/-! ### Matrix and cuvée words -/

/-- R193, R196, R223 to R227: a post. Without an unmasked row it has no effect; where what its registers or a latch hold is illegal, or an octet's
operation is at fault, none enters; otherwise the operation of each octet that has rows enters the sluice of the group's cluster, the ranges of B join the headgate table as the matrix engine's,
the latches of the octets are set, and what the group has left to read is read before (R286). No byte of memory changes.
R190, R225, R227: which fault a post raises: a format that is not the latched one before bits 31:7 of a descriptor; where every operation has a
row, a tile at or beyond ACCT before a slot without a table, each before a depth beyond the table's, and all before the ranges. Without a row, and
without UCHK, there is none.
What the spec leaves open in it is the model's reading: logs 14, 58, 68. -/
def Obligations.MatrixPosts : Prop :=
  (
  ∀ i p, ((∃ a b t y z, i = Instr.mxMmaMom a b t y z ∧ p = ⟨5, a.toNat % 4, b.toNat, t.toNat, y, z⟩) ∨
      ∃ a b t f y z, i = Instr.mxPost a b t f y z ∧ p = ⟨f.code, a.toNat, b.toNat, t.toNat, y, z⟩) →
    ∀ s c g la, Issues s i c g la →
      (c.voters g = [] → exec i s = .next s) ∧
      (∀ q f, lowestCause (postCauses p (p.ops s c g)) = some (q, f) → exec i s = .next (s.faults c (illegalValue c f))) ∧
      (∀ f, c.voters g ≠ [] → lowestCause (postCauses p (p.ops s c g)) = none → postFault p s c g la (p.ops s c g) = some f → exec i s = .next (s.faults c f)) ∧
      (∀ pl, c.voters g ≠ [] → lowestCause (postCauses p (p.ops s c g)) = none → postFault p s c g la (p.ops s c g) = none → g.place = some pl →
        let new := (p.ops s c g).filter fun o => decide (o.rows ≠ [])
        ∃ x, exec i s = .next { s with dev := x } ∧
          (x.cluster pl.die pl.cluster).entries = (s.dev.cluster pl.die pl.cluster).entries ++
            new.zipIdx.map (fun e => p.entry s c g la (s.dev.opSeq + e.2) e.1) ∧
          x.gate = s.dev.gate ++ new.zipIdx.map (fun e =>
            ⟨s.dev.opSeq + e.2, la.job, false, (p.target la g.key.block e.1).store, (p.target la g.key.block e.1).off / 32 * 32,
              ((p.target la g.key.block e.1).off + tileLen p.fmt + 31) / 32 * 32, 3, false, (p.target la g.key.block e.1).off, tileLen p.fmt, none⟩) ∧
          x.group? c.g = some { s.takeReads g with latches := ((g.latches.filter fun y => !(p.ops s c g).any fun o => decide (o.octet = y.octet)) ++
            (p.ops s c g).filterMap PostOp.latch) })) ∧
  (
  (∀ (p : Post) (ops : List PostOp), lowestCause (postCauses p ops) =
    if ∃ o ∈ ops, ∃ x, o.latch = some x ∧ x.fmt ≠ p.fmt then some (12, 0)
    else if p.dsc = true ∧ ∃ o ∈ ops, o.rest ≠ 0 then some (12, 3)
    else none) ∧
  (∀ (p : Post) (s : State) (c : Issue) (g : Group) (la : Launch) (ops : List PostOp), g.uchk = false →
    (∀ q ∈ ops, q.rows = []) → postFault p s c g la ops = none) ∧
  (∀ (p : Post) (s : State) (c : Issue) (g : Group) (la : Launch) (ops : List PostOp) o rest, ops = o :: rest →
    (∀ q ∈ ops, q.rows ≠ []) → g.uchk = false →
    let tiles := if p.fmt = 5 then [2 * p.tile, 2 * p.tile + 1] else [p.tile]
    let table (q : PostOp) : Option (Table × Nat) := s.dev.slotTable (s.dev.clusterOf g) q.slot la.job
    ((∃ t ∈ tiles, la.acct ≤ t) → postFault p s c g la ops = some { code := .accRange, cause := octetCause c o.octet }) ∧
    ((∀ t ∈ tiles, t < la.acct) → table o = none → postFault p s c g la ops = some { code := .cuveeInvalid, cause := octetCause c o.octet }) ∧
    ((∀ t ∈ tiles, t < la.acct) → (∀ q ∈ ops, table q ≠ none) →
      (∃ q ∈ ops, ∃ t w, table q = some (t, w) ∧ (t.dmax < q.depth ∨ q.narrow = false ∧ t.dmaxe < q.depth)) →
      postFault p s c g la ops = some (illegalValue c 0))))

/-- R191, R223, R228 to R233: the words that name tiles, without a leader no effect. `mx.zero` clears its tile's elements and status, once the tile
is free: no operation targets it, and no earlier word of the block that names it is held; a held word acts with the GSR of its issue. `mx.band` sets the
group's band scales; `mx.stat` gives the operations that target the tile, and its status.
R223, R228, R230, R231: `mx.drain` and `mx.ld`. An illegal control word is an ILLEGAL_OPERAND. Each waits for its tiles, and counts its registers,
or has put its accesses on their way, from its issue on. A drain then waits as a store does, and raises NEGVAR under NVF where a plane that it reads holds
NEGV; else its rows go to registers as a counted load, or to memory as stores of the group, and its flags are on their way. A load
waits as a load does, and then replaces the elements of its tiles by the bytes of its range. A held word that acts goes on behind the word.
What the spec leaves open in it is the model's reading: logs 46, 68. -/
def Obligations.TileWords : Prop :=
  (
  (∀ i s c g la, ((∃ t, i = Instr.mxZero t) ∨ (∃ d a t, i = Instr.mxDrain d a t ∨ i = .mxLd d a t) ∨ (∃ a, i = Instr.mxBand a) ∨
      ∃ d t, i = Instr.mxStat d t) → Issues s i c g la → c.voters g = [] → exec i s = .next s) ∧
  (∀ (s : State) (c : Issue) (g : Group) (la : Launch) (ts : List Nat), s.tilesFree c g la ts = true ↔
    (∀ t ∈ ts, (s.dev.clusterOf g).onTile g.key t = []) ∧
    ∀ h ∈ s.dev.groups, h.key.launch = g.key.launch → h.key.block = g.key.block → ∀ m ∈ h.laneNos, ∀ x, (h.lane m).hold = some x →
      (∀ r, c.resume = some r → x.batch < r.batch) → ∀ t ∈ heldTiles h la m, t ∉ ts) ∧
  (∀ (c : Issue) (g : Group), (c.resume = none → c.group g = g) ∧
    ∀ h w, c.resume = some h → (h.kind = .tile w ∨ h.kind = .slot w) → c.group g = { g with gsr := w }) ∧
  (∀ t s c g la, Issues s (.mxZero t) c g la → c.voters g ≠ [] →
    let gi := c.group g
    (∀ f, tileFault s c gi la [t.toNat] true = some f → exec (.mxZero t) s = .next (s.faults c f)) ∧
    (tileFault s c gi la [t.toNat] true = none → s.tilesFree c gi la [t.toNat] = false →
      exec (.mxZero t) s = .next (s.did (if c.resume.isSome then reholdLanes c 8 .none else holdLanes c (.mxZero t) c.lanes (.tile g.gsr) 8 .none))) ∧
    (tileFault s c gi la [t.toNat] true = none → s.tilesFree c gi la [t.toNat] = true →
      ∃ x, exec (.mxZero t) s = .next (State.did { s with dev := x } (goOn c)) ∧ x.groups = s.dev.groups ∧
      ∀ b, s.dev.block? c.g.launch c.g.block = some b → cellsWf b.tiles = true → cellsWf b.tileStat = true → ∃ b', x.block? c.g.launch c.g.block = some b' ∧
        cellGet b'.tileStat t.toNat = 0 ∧
        (∀ e, cellGet b'.tiles e = if 4096 * t.toNat ≤ e ∧ e < 4096 * t.toNat + 4096 then 0 else cellGet b.tiles e))) ∧
  (∀ a s c g la ld, Issues s (.mxBand a) c g la → g.leader c.on = some ld →
    exec (.mxBand a) s = .next (s.withGroup { g with
      sA := (srcV s.dev g c ld a.toNat).setWidth 16
      sB := (srcV s.dev g c ld a.toNat >>> 16).setWidth 16 })) ∧
  (∀ d t s c g la b, Issues s (.mxStat d t) c g la → c.voters g ≠ [] → s.dev.block? c.g.launch c.g.block = some b →
    exec (.mxStat d t) s = .next (match tileFault s c g la [t.toNat] false with
      | some f => s.faults c f
      | none => s.after c.g 4 (c.on.flatMap fun m => outRun g m d.toNat 1
          (((s.dev.clusterOf g).onTile c.g t.toNat).length + 256 * (cellGet b.tileStat t.toNat).toNat))))) ∧
  (
  (∀ d a t s c g la ld, Issues s (.mxDrain d a t) c g la → g.leader c.on = some ld →
    let i : Instr := .mxDrain d a t
    let gi := c.group g
    let base := uval (srcV s.dev g c ld) d
    exec i s = .next (match drainCtl (uval (srcV s.dev g c ld) a) d.toNat t.toNat with
      | none => if c.fresh then s.faults c (illegalValue c 2) else s
      | some k =>
        let os := drainOpnd d k
        let ts := if k.fmt = 9 then [2 * t.toNat, 2 * t.toNat + 1] else [t.toNat]
        let mem : Except FaultInfo (List (Nat × Nat × LaneAccess)) := if k.dst ≤ 1 then .ok [] else drainAccesses s c gi la k ld base (c.voters g)
        match firstFault [
            operandFault s.dev g la c (lowestCause ((os.filterMap fun o => o.bad.map fun r => (r, o.field)) ++ i.fieldFault.toList))
              (i.operands ++ os) (i.operands ++ os) (i.operands.filter i.compares ++ os.filter Opnd.rd) (fun _ => [ld]) 4,
            tileFault s c gi la ts false,
            (match mem with | .error f => some f | .ok _ => none),
            tileFault s c gi la ts true] with
        | some f => s.faults c f
        | none =>
          let xs := mem.toOption.getD []
          let wait (r : Nat) (w : Watchdog) : State := if c.resume.isSome then s.did (reholdLanes c r w)
            else (s.did (holdLanes c i c.lanes (.tile g.gsr) r w)).did (drainDue c gi k d.toNat xs)
          if s.tilesFree c gi la ts = false then wait 8 .none
          else match blockedBy s.dev (gi.upTo (c.mark gi)) la (xs.map fun x => x.2.2) (xs.map fun x => x.2.2) false with
            | some (r, w) => wait r w
            | none =>
              let neg : Bool := decide (k.dst ≠ 0) && s.negv c.g ts
              if neg && gi.nvf then s.faults c { code := .negvar, cause := negvarCause ld 3 }
              else ((s.did (drainGive s c gi la k d.toNat t.toNat xs)).after c.g 4
                (outFlags (drainFlags s c gi k t.toNat ||| if neg then 32 else 0))).did (goOn c))) ∧
  (∀ (s : State) (c : Issue) (g : Group) (la : Launch) (k : DrainCtl) d t xs, c.resume = none →
    drainGive s c g la k d t xs = if k.dst ≤ 1 then
      Part.mod fun dv => dv.issueAccesses c true 0 false false 0
        (c.on.map fun l => (⟨l, 0, .blk, .blk 0 0, 0, 4, false⟩, .value (drainRow s g k t l (16 * k.cq) 16).1 (drainSlots g k d l)))
        (c.on.flatMap fun l => slotRegs (drainSlots g k d l))
    else doStores c (drainStores s g k t xs)) ∧
  (∀ (s : State) (c : Issue) (g : Group) (la : Launch) (k : DrainCtl) d t xs h, c.resume = some h → k.dst ≤ 1 →
    drainGive s c g la k d t xs = Part.mod fun dv => dv.modGroup c.g fun x => x.giveDue h.mark fun a =>
      .value (drainRow s g k t a.lane (16 * k.cq) 16).1 (match a.op with | .due _ ss => ss | _ => [])) ∧
  (∀ d a t s c g la ld, Issues s (.mxLd d a t) c g la → g.leader c.on = some ld →
    let cw := uval (srcV s.dev g c ld) a
    let gi := c.group g
    let fmt := cw % 16
    let size := drainSize fmt
    let base := uval (srcV s.dev g c ld) d
    let pad := decide (cw / 16 % 2 = 1)
    let slot := pcSlot c.loc
    let ts := if fmt = 9 then [2 * t.toNat, 2 * t.toNat + 1] else [t.toNat]
    let reads : Except FaultInfo (List LaneAccess) := match c.resume with
      | none =>
        if base % 256 ≠ 0 then .error (fibreFault slot (sizeCode size) (ld, base, .misaligned, (memTarget la c.g.block pad base 1).1))
        else pieces s.dev g la slot ld pad base (4096 * size) (sizeCode size) .read
      | some h => (match s.dev.duesOrphan gi la slot (sizeCode size) (gi.dues la h.mark) with
        | some f => .error f
        | none => .ok (gi.dues la h.mark))
    exec (.mxLd d a t) s = .next (
      if c.resume = none ∧ (¬(fmt = 0 ∨ fmt = 1 ∨ fmt = 2 ∨ fmt = 9) ∨ 32 ≤ cw) then s.faults c (illegalValue c 2)
      else match tileFault s c gi la ts false with
        | some f => s.faults c f
        | none => match reads with
          | .error f => s.faults c f
          | .ok xs => match tileFault s c gi la ts true with
            | some f => s.faults c f
            | none =>
              let wait (r : Nat) : State := if c.resume.isSome then s.did (reholdLanes c r .none)
                else (s.did (holdLanes c (.mxLd d a t) c.lanes (.tile g.gsr) r .none)).did (putDue c false xs)
              if s.tilesFree c gi la ts = false then wait 8
              else if s.dev.readsReady gi (c.mark gi) xs = false then wait 4
              else ((s.withDev fun dv => (dv.touched gi la xs .other).modBlock c.g.launch c.g.block fun b =>
                loadTiles b fmt t.toNat (s.groupBytes gi la pad base (4096 * size)).toArray).did (dropDue c)).did (goOn c))))

/-- R205, R207, R234: `cuv.load`, `cuv.chk` and `cuv.rd`, without a leader no effect. A slot that another job owns is an ILLEGAL_OPERAND in each. A load
makes the job the owner and holds its batch until no operation of the cluster names the slot, no earlier word is at work on it and its reads can be made;
then it takes the image, and holds on for 96 die cycles from block memory; a check holds its batch 4160 or 64 die cycles; a read gives the slot's word,
that of slot 0 among them.
R205, R207, R234, R350: a held `cuv.load` writes its slot LOADED with the image that it read, once no operation of the cluster names the
slot and no word that reached the slot before it is held, and the checks that wait behind it start over with the new image; a held `cuv.chk` makes its slot VALID or INVALID and gives the check word; a held self-test clears what it tested and keeps its result. Each lets its
batch go on after the word. Where nothing is held or the time has not come there is no effect.
What the spec leaves open in it is the model's reading: log 47. -/
def Obligations.CuveesAndTests : Prop :=
  (
  (∀ i s c g la, ((∃ a n, i = Instr.cuvLoadBlk a n ∨ i = .cuvLoadPad a n) ∧ Issues s i c g la ∨
      (∃ d n, i = Instr.cuvChk d n ∨ i = .cuvRd d n) ∧ Issues s i c g la) → c.voters g = [] → exec i s = .next s) ∧
  (∀ (pad : Bool) a n s c g la ld, Issues s (if pad then .cuvLoadPad a n else .cuvLoadBlk a n) c g la → g.leader c.on = some ld →
    let i : Instr := if pad then .cuvLoadPad a n else .cuvLoadBlk a n
    let gi := c.group g
    let addr := uval (srcV s.dev g c ld) a
    let slot := pcSlot c.loc
    let reads : Except FaultInfo (List LaneAccess) := match c.resume with
      | none =>
        if addr % 32 ≠ 0 then .error (fibreFault slot 6 (ld, addr, .misaligned, (memTarget la c.g.block pad addr 1536).1))
        else pieces s.dev g la slot ld pad addr 1536 6 .read
      | some h => (match s.dev.duesOrphan gi la slot 6 (gi.dues la h.mark) with
        | some f => .error f
        | none => .ok (gi.dues la h.mark))
    exec i s = .next (
      if c.resume = none ∧ ∃ j, s.dev.slotOwner n.toNat = some j ∧ j ≠ la.job then s.faults c (illegalValue c 3)
      else match reads with
        | .error f => s.faults c f
        | .ok xs =>
          let s1 := s.withDev fun d => { d with cuvOwner := upsert (fun e => decide (e.1 = n.toNat)) (n.toNat, la.job) d.cuvOwner }
          let batch := match c.resume with | some h => h.batch | none => s.dev.batchSeq
          if (∀ e ∈ (s.dev.clusterOf g).all, e.cuv ≠ n.toNat) ∧ s.dev.slotAhead (s.dev.clusterOf g) n.toNat batch = false ∧
              s.dev.readsReady gi (c.mark gi) xs = true then
            let kind : HoldKind := .cuvee (s.dev.now g + if pad then 0 else 96)
            let image := s.groupBytes gi la pad addr 1536
            ((s1.withDev fun d => d.touched gi la xs .other).did (dropDue c)).did (
              if c.resume.isNone then holdTaking c i c.lanes kind 7 .none image
              else Part.mod fun d => d.modGroup c.g fun x => x.modLanes (x.withHelpers c.lanes) fun _ y =>
                { y with hold := y.hold.map fun h => { h with kind := kind, bytes := image } })
          else if c.resume.isSome then s
          else (s1.did (holdLanes c i c.lanes (.slot g.gsr) 7 .none)).did (putDue c false xs))) ∧
  (∀ d n s c g la, Issues s (.cuvChk d n) c g la → c.voters g ≠ [] → c.resume = none →
    exec (.cuvChk d n) s = .next (match (s.dev.clusterOf g).slot? n.toNat with
      | some x =>
        if s.dev.slotOwner n.toNat = some la.job ∧ x.state ≠ .empty then
          s.did (holdLanes c (.cuvChk d n) c.lanes (.cuvee (s.dev.now g + if imgNat x.image 6 1 = 4 then 4160 else 64)) 7 .none)
        else s.faults c (illegalValue c 3)
      | none => s.faults c (illegalValue c 3))) ∧
  (∀ d n s c g la, Issues s (.cuvRd d n) c g la → c.voters g ≠ [] →
    exec (.cuvRd d n) s = .next (
      if n ≠ 0 ∧ ∃ j, s.dev.slotOwner n.toNat = some j ∧ j ≠ la.job then s.faults c (illegalValue c 3)
      else s.after c.g 4 (c.on.flatMap fun m => outRun g m d.toNat 2 (
        if n = 0 then 0x00000002020101A1
        else match (s.dev.clusterOf g).slot? n.toNat with
          | some x => if x.state = .valid ∨ x.state = .invalid then x.word.toNat else 0
          | none => 0))))) ∧
  (
  (∀ (s : State) k lane, (∀ g, s.dev.group? k = some g → s.dev.cuveeDue g lane = false) →
    exec (.cuveeLoadComplete k lane) s = .next s ∧ exec (.cuveeCheckComplete k lane) s = .next s) ∧
  (∀ (s : State) k lane g la ld h (pad : Bool) a n, s.dev.group? k = some g → s.dev.launch? k.launch = some la → s.dev.cuveeDue g lane = true →
    heldWord la (g.lane lane) = some (if pad then .cuvLoadPad a n else .cuvLoadBlk a n) → g.heldLeader (g.heldWith lane) = some ld →
    (g.lane lane).hold = some h →
    let cl := s.dev.clusterOf g
    exec (.cuveeLoadComplete k lane) s = .next (
      if (∃ e ∈ cl.all, e.cuv = n.toNat) ∨ s.dev.slotAhead cl n.toNat h.batch = true then s
      else (s.withDev fun d => (d.restartChecks cl n.toNat h.bytes).setCluster (cl.setSlot ⟨n.toNat, h.bytes, .loaded, 0⟩)).did
        (releaseLanes k (g.heldWith lane) (pcNext (g.lane ld).pc)))) ∧
  (∀ (s : State) k lane g la h d n x, s.dev.group? k = some g → s.dev.launch? k.launch = some la → s.dev.cuveeDue g lane = true →
    heldWord la (g.lane lane) = some (.cuvChk d n) → (s.dev.clusterOf g).slot? n.toNat = some x → (g.lane lane).hold = some h →
    exec (.cuveeCheckComplete k lane) s = .next (
      if s.dev.slotAhead (s.dev.clusterOf g) n.toNat h.batch = true then s
      else ((s.withDev fun v => v.setCluster ((s.dev.clusterOf g).setSlot
        { x with state := (if checkWord x.image % 2 = 1 then .valid else .invalid), word := BitVec.ofNat 64 (checkWord x.image) })).did
      (landSlots k ((g.heldOn (g.heldWith lane)).flatMap fun m => g.slots m d.toNat 2) (checkWord x.image))).did
      (releaseLanes k (g.heldWith lane) (pcNext (g.lane lane).pc)))) ∧
  (∀ (s : State) k lane fail row, (∀ g la, s.dev.group? k = some g → s.dev.launch? k.launch = some la →
      ∀ h, (g.lane lane).hold = some h → ∀ r, h.kind ≠ .bist r) → exec (.bistComplete k lane fail row) s = .next s) ∧
  (∀ (s : State) k lane fail row g la h r a ld, s.dev.group? k = some g → s.dev.launch? k.launch = some la → (g.lane lane).hold = some h →
    h.kind = .bist r → heldWord la (g.lane lane) = some (.bistRun a) → g.heldLeader (g.heldWith lane) = some ld →
    let target := ((g.lane ld).snapped a.toNat).toNat
    exec (.bistComplete k lane fail row) s = .next ((((s.did (bistEffect g target))).withDev fun d => d.modGroup k fun g =>
      { g with bist := BitVec.ofNat 64 (1 + 2 * fail.toNat + 4 * target + 256 * row.toNat) }).did
      (releaseLanes k (g.heldWith lane) (pcNext (g.lane ld).pc)))) ∧
  (∀ raw, checkWord raw % 2 = 1 ↔ imgReason raw = 0))

/-! ### Engine and fabric words -/

/-- R265, R269, R291, R320: an engine takes an operation with the lowest free entry of its die's operand log, where the headgate tables have room for its
ranges: the operation is then the last in flight, its ranges are registered, what its held word had registered is released, and no byte but
those of a trace ring in the host's memory changes. Without an entry or without room the batch waits as reason 3. A word that waits registers the ranges that
it names at its issue, where there is room.
R265 to R267, R277, R323: the copies, the gather and `mig.post`, without a leader no effect. Each checks its operand group, waits for the
group's stores, a copy with a layout record with that record registered and one on chip with its ranges registered, checks the record, its ranges and its
object, and is then taken by its engine. A held one does the same, but for the checks of values that it has passed.
What the spec leaves open in it is the model's reading: logs 14, 22, 58. -/
def Obligations.EngineWords : Prop :=
  (
  (∀ (s : State) (c : Issue) (g : Group) (i : Instr) (mk : Nat → EngineOp) k, s.dev.logIndex g.die = some k →
    (s.dev.unheld (mk k).g (mk k).lane).gateRoom (mk k).ranges = true →
    let t := s.did (acceptWord c g i mk)
    t = (s.did (acceptOp (mk k))).did (goOn c) ∧
    t.dev.ops = s.dev.ops ++ [mk k] ∧
    t.dev.gate = (s.dev.gate.filter fun r => decide (r.holder ≠ some ((mk k).g, (mk k).lane))) ++ (mk k).ranges.map (fun r =>
      ⟨(mk k).id, (mk k).job, r.dst, r.store, r.lo / 32 * 32, (r.lo + r.n + 31) / 32 * 32, (mk k).kind.engine, false, r.lo, r.n, none⟩) ∧
    t.dev.opSeq = max s.dev.opSeq ((mk k).id + 1) ∧ t.pad = s.pad ∧ t.main = s.main ∧ t.blk = s.blk ∧ t.stk = s.stk) ∧
  (∀ (s : State) (c : Issue) (g : Group) (i : Instr) (mk : Nat → EngineOp),
    (∀ k, s.dev.logIndex g.die = some k → (s.dev.unheld (mk k).g (mk k).lane).gateRoom (mk k).ranges = false) →
    s.did (acceptWord c g i mk) = s.did (Part.when (c.resume.isNone = true) (holdLanes c i c.lanes .retry 3 .none))) ∧
  (∀ (s : State) (c : Issue) (i : Instr) ld (rs : List ChipRange) engine,
    let t := s.did (holdRanges c i ld rs engine)
    s.SameMemory t ∧ t.dev.ops = s.dev.ops ∧
    t.dev.gate = if (∃ r ∈ s.dev.gate, r.holder = some (c.g, ld)) ∨ s.dev.gateRoom rs = false then s.dev.gate
      else s.dev.gate ++ rs.map fun r =>
        ⟨s.dev.opSeq, s.dev.jobFor c.g, r.dst, r.store, r.lo / 32 * 32, (r.lo + r.n + 31) / 32 * 32, engine, false, r.lo, r.n, some (c.g, ld)⟩) ∧
  (∀ (d : Dev) die k, d.logIndex die = some k → k < 256 ∧ (∀ p ∈ d.ops, p.die = die → p.index ≠ k) ∧
    ∀ h ∈ d.heldReqs, h.req.link / 3 = die → h.index ≠ some k)) ∧
  (
  (∀ i s c g la, ((∃ r x, i = Instr.cpG2s r x ∨ i = .cpS2g r x ∨ i = .cpTG2s r x ∨ i = .cpTS2g r x) ∨ (∃ r x y, i = Instr.cpS2s r x y) ∨
      (∃ d a b p z, i = Instr.gat d a b p z) ∨ ∃ r, i = Instr.migPost r) →
    Issues s i c g la → c.voters g = [] → exec i s = .next s) ∧
  (∀ i r x k t up, ((i = Instr.cpG2s r x ∧ k = OpKind.g2s false ∧ t = false ∧ up = true) ∨ (i = .cpS2g r x ∧ k = .s2g false ∧ t = false ∧ up = false) ∨
      (i = .cpTG2s r x ∧ k = .g2s true ∧ t = true ∧ up = true) ∨ (i = .cpTS2g r x ∧ k = .s2g true ∧ t = true ∧ up = false)) →
    ∀ s c g la ld, Issues s i c g la → g.leader c.on = some ld →
    let v (n : Nat) : Nat := (srcV s.dev g c ld (r.toNat + n)).toNat
    let vs := [v 0, v 1, v 2, v 3, v 4, v 5]
    let j := s.dev.jobOf la
    exec i s = .next (
      if c.resume = none ∧ (v 4 % 2 ^ 16 = 0 ∨ v 4 / 2 ^ 16 = 0 ∨ v 1 % 16 ≠ 0) then s.faults c (illegalValue c 1)
      else match readRange s.dev la j c.g.block (v 2) 32 32 with
        | .error f => s.faults c (rangeFault ld (codeAddr (v 2)) f)
        | .ok rt =>
          if g.storesDone c = false then s.did (holdRanges c i ld [⟨rt.store, rt.off, 32, false⟩] 0)
          else
            let y := layoutOf (s.bytes rt.store rt.off 32)
            if layoutOk (s.bytes rt.store rt.off 32) = false ∨ (geomOf y t vs).bad = true then s.faults c (illegalValue c 1)
            else
              let arr := arrayRange s.dev la j c.g.block x (v 0) (geomOf y t vs).extent 16 fun k => up && ((geomOf y t vs).chipSrc k).isSome
              match worstRange ld ((v 0, arr) :: objChecks s.dev la j c.g.block (v 5)), arr with
              | some f, _ => s.faults c f
              | none, .ok a => s.did (acceptWord c g i fun n => newOp s c g ld k vs n (some y) a.store a.store (objOf la c.g.block (v 5)) [])
              | none, .error _ => s)) ∧
  (∀ r y x s c g la ld, Issues s (.cpS2s r y x) c g la → g.leader c.on = some ld →
    let v (n : Nat) : Nat := (srcV s.dev g c ld (r.toNat + n)).toNat
    let j := s.dev.jobOf la
    let src := arrayRange s.dev la j c.g.block x (v 0) (v 2) 16 noBytes
    let dst := arrayRange s.dev la j c.g.block y (v 1) (v 2) 16 (wholeOf (v 2))
    exec (.cpS2s r y x) s = .next (
      if c.resume = none ∧
          (v 3 ≠ 0 ∨ v 4 ≠ 0 ∨ v 2 % 16 ≠ 0 ∨ v 2 < 16 ∨ 2 ^ 24 < v 2 ∨ s2sOverlap la c.g.block x y (v 0) (v 1) (v 2) = true) then
        s.faults c (illegalValue c 1)
      else match (if c.resume = none then worstRange ld ([(v 0, src), (v 1, dst)] ++ objChecks s.dev la j c.g.block (v 5)) else none), src, dst with
        | some f, _, _ => s.faults c f
        | none, .ok a, .ok b =>
          if g.storesDone c = false then s.did (holdRanges c (.cpS2s r y x) ld [⟨a.store, a.off, v 2, false⟩, ⟨b.store, b.off, v 2, true⟩] 0)
          else s.did (acceptWord c g (.cpS2s r y x) fun n =>
            newOp s c g ld .s2s [v 0, v 1, v 2, v 3, v 4, v 5] n none a.store b.store (objOf la c.g.block (v 5)) [])
        | none, _, _ => s)) ∧
  (∀ d a b p z s c g la ld, Issues s (.gat d a b p z) c g la → g.leader c.on = some ld →
    let size := 4 * 2 ^ z.toNat
    let j := s.dev.jobOf la
    let addr (m : Nat) : Nat := uval (srcV s.dev g c m) a
    let ts := (c.voters g).filterMap fun m => (memTarget la c.g.block p (addr m) size).2
    let dst (m : Nat) : Except (AccFault × Space) Target := rangeOf la j c.g.block p (addr m) size size fun t =>
      s.dev.lockHit j.id t.store t.off size fun a => ts.any fun x => decide (x.store = t.store) && decide (x.off ≤ a) && decide (a < x.off + size)
    let code := uval (srcV s.dev g c ld) b
    let laneBad := (c.voters g).filterMap fun m => match dst m with | .error f => some (m, addr m, f.1, f.2) | .ok _ => none
    let objBad := (objChecks s.dev la j c.g.block code).filterMap fun e => match e.2 with | .error f => some (ld, e.1, f.1, f.2) | .ok _ => none
    exec (.gat d a b p z) s = .next (match worstFault (laneBad ++ objBad) with
      | some f => s.faults c (accessFault (if laneBad.contains f then sizeCode size else 6) f)
      | none => s.did (acceptWord c g (.gat d a b p z) fun n => newOp s c g ld (.gat size) [] n none .pad .pad (objOf la c.g.block code)
          ((c.voters g).filterMap fun m => match dst m with
            | .ok t => some ⟨m, pval (srcV s.dev g c m) d, t.store, t.off, false, false, 0⟩
            | .error _ => none)))) ∧
  (∀ r s c g la ld, Issues s (.migPost r) c g la → g.leader c.on = some ld →
    let v (n : Nat) : Nat := (srcV s.dev g c ld (r.toNat + n)).toNat
    exec (.migPost r) s = .next (
      if c.resume = none ∧ (v 2 = 0 ∨ 2 ^ 20 < v 2 ∨ 2 ^ 25 ≤ v 1 ∨ 2 ^ 7 ≤ v 3 ∨ v 4 ≠ 0 ∨ v 3 % 4 = 3 ∨
          frameRange (v 3 % 4) (v 3 / 4 % 4) (v 3 / 16 % 8) = none) then s.faults c (illegalValue c 1)
      else if g.storesDone c = false then s.did (Part.when (c.resume.isNone = true) (holdLanes c (.migPost r) c.lanes .retry 3 .none))
      else match worstRange ld (objChecks s.dev la (s.dev.jobOf la) c.g.block (v 5)) with
        | some f => s.faults c f
        | none => s.did (acceptWord c g (.migPost r) fun n =>
            newOp s c g ld .mig [v 0, v 1, v 2, v 3, v 4, v 5] n none .pad .pad (objOf la c.g.block (v 5)) []))))

/-- R357 to R362, R364, R365: `rcp.put`, `rcp.get`, `ratom` and `coll.post`, without a leader no effect. A remote word checks its operand
group, then its ranges, under DET the order of its atomic, waits for the group's stores with its range registered, and is in flight; its request goes to the
link of its package once no earlier operation of the group to that package keeps it. A held one does the same, but for the checks of values that it has
passed.
What the spec leaves open in it is the model's reading: log 14. -/
def Obligations.RemoteWords : Prop :=
  (∀ i s c g la, ((∃ r, i = Instr.rcpPut r ∨ i = .rcpGet r ∨ i = .collPost r) ∨ ∃ r o k, i = Instr.ratom r o k) →
    Issues s i c g la → c.voters g = [] → exec i s = .next s) ∧
  (∀ (get : Bool) r s c g la ld, Issues s (if get then .rcpGet r else .rcpPut r) c g la → g.leader c.on = some ld →
    let i : Instr := if get then .rcpGet r else .rcpPut r
    let v (n : Nat) : Nat := (srcV s.dev g c ld (r.toNat + n)).toNat
    let vs := [v 0, v 1, v 2, v 3, v 4, v 5, v 6, v 7]
    exec i s = .next (
      if c.resume = none ∧ (remBad s.dev vs = true ∨ v 4 % 16 ≠ 0 ∨ v 4 < 16 ∨ 2 ^ 24 < v 4 ∨ v 6 ≠ 0 ∨ v 7 ≠ 0) then s.faults c (illegalValue c 2)
      else match remFault s g la ld vs (v 4) 16 16 get with
        | some f => s.faults c f
        | none => s.did (takeRemote i c g la ld vs (if get then .get else .put) (v 4)))) ∧
  (∀ r o k s c g la ld, Issues s (.ratom r o k) c g la → g.leader c.on = some ld →
    let v (n : Nat) : Nat := (srcV s.dev g c ld (r.toNat + n)).toNat
    let vs := [v 0, v 1, v 2, v 3, v 4, v 5, v 6, v 7]
    let n := raopSize k
    exec (.ratom r o k) s = .next (
      if c.resume = none ∧ (remBad s.dev vs = true ∨ (n = 4 ∧ k ≠ .casB32 ∧ v 6 ≠ 0) ∨ v 7 ≠ 0) then s.faults c (illegalValue c 2)
      else match remFault s g la ld vs n 8 n true with
        | some f => s.faults c f
        | none =>
          if g.det = true ∧ (k = .op .addF32 ∨ k = .op .minF32 ∨ k = .op .maxF32) then
            s.faults c (accessFault 6 (ld, codeAddr (v 0), .det, (memTarget la c.g.block (codePad (v 0)) (codeAddr (v 0)) n).1))
          else s.did (takeRemote (.ratom r o k) c g la ld vs (.ratom k o.toNat) n))) ∧
  (∀ r s c g la ld, Issues s (.collPost r) c g la → g.leader c.on = some ld →
    let v (n : Nat) : Nat := (srcV s.dev g c ld (r.toNat + n)).toNat
    let j := s.dev.jobOf la
    let d := readRange s.dev la j c.g.block (v 0) 64 64
    (c.resume = none → ¬(v 1 = 0 ∧ v 2 = 0 ∧ v 3 = 0 ∧ v 4 = 0 ∧ v 6 = 0 ∧ v 7 = 0) → exec (.collPost r) s = .next (s.faults c (illegalValue c 2))) ∧
    (c.resume ≠ none ∨ (v 1 = 0 ∧ v 2 = 0 ∧ v 3 = 0 ∧ v 4 = 0 ∧ v 6 = 0 ∧ v 7 = 0) →
      (∀ f, worstRange ld ((codeAddr (v 0), d) :: objChecks s.dev la j c.g.block (v 5)) = some f → exec (.collPost r) s = .next (s.faults c f)) ∧
      (∀ t, worstRange ld ((codeAddr (v 0), d) :: objChecks s.dev la j c.g.block (v 5)) = none → d = .ok t →
        (g.storesDone c = false → exec (.collPost r) s = .next (s.did (holdRanges c (.collPost r) ld [⟨t.store, t.off, 64, false⟩] 4))) ∧
        (g.storesDone c = true → descOk (s.bytes t.store t.off 64) = false → exec (.collPost r) s = .next (s.faults c (illegalValue c 2))) ∧
        (g.storesDone c = true → descOk (s.bytes t.store t.off 64) = true →
          exec (.collPost r) s = .next (s.did (acceptWord c g (.collPost r) fun n =>
            newOp s c g ld .coll ([v 0, v 1, v 2, v 3, v 4, v 5, v 6, v 7] ++ descOf (s.bytes t.store t.off 64)) n none t.store t.store
              (objOf la c.g.block (v 5)) [])))))) ∧
  (∀ (s : State) (i : Instr) (c : Issue) (g : Group) (la : Launch) ld vs kind n k,
    let st := localStore la c.g.block (vs.getD 0 0) n
    let op : EngineOp := { newOp s c g ld kind vs k none st st (objOf la c.g.block (vs.getD 5 0)) [] with
      started := true, link := s.dev.linkFor (remPkg vs) }
    g.key = c.g →
    (g.storesDone c = false → s.did (takeRemote i c g la ld vs kind n) = s.did (holdRanges c i ld op.ranges 4)) ∧
    (g.storesDone c = true → s.dev.logIndex g.die = some k → (s.dev.unheld c.g ld).gateRoom op.ranges = true →
      s.did (takeRemote i c g la ld vs kind n) = ((s.did (acceptOp op)).did (startRemote op.id)).did (goOn c))) ∧
  (∀ (s : State) id p, s.dev.op? id = some p → s.did (startRemote id) = s.withDev fun d =>
    if p.sent = true ∨ d.opWaits p = true ∨ d.remoteWaits p = true ∨ d.dumpHolds p.job = true then d
    else match p.link with
      | none => d.setOp { p with sent := true }
      | some n => (d.setOp { p with sent := true }).sendFlit n 0 p.job (.request p.id)) ∧
  (∀ (d : Dev) (p : EngineOp), d.remoteWaits p = true ↔ ∃ q ∈ d.ops, q.id < p.id ∧ q.g = p.g ∧ q.kind.isRemote = true ∧ remPkg q.regs = remPkg p.regs ∧
    (q.sent = false ∨ remPad q.regs = remPad p.regs ∧ q.remote.2.2.1 < p.remote.2.2.1 + p.remote.2.2.2.1 ∧
      p.remote.2.2.1 < q.remote.2.2.1 + q.remote.2.2.2.1 ∧ (p.remote.2.2.2.2 = true ∨ q.remote.2.2.2.2 = true)))

/-! ### System words -/

/-- R23, R238, R377, R378, R381: the words of quarantined registers, trace marks and `loc.q`. q0 reads the die cycle, q1 the time as the job sees it, q2 the
group's identity; `q.sub` subtracts modulo 2^64; `q.st` makes a profiling entry of type 3, and `trc.mark` a trace record of type 8.
R350, R376: `wp.set`, `wp.clr` and the self-test words, without a leader no effect. `wp.set` arms watchpoint n of the address's home die for the job;
`wp.clr` disarms one that the job owns; a self-test word of a job without TEST is a PRIV.
R343: `launch.dev`, without a leader no effect. Its record's range is checked, then it waits for the group's stores before it, and reads the record; one
that is no plain launch without a dependence is an ILLEGAL_OPERAND; then it waits for room among 256 children; at last what the group has left to
read is read, and the record is the last of the job's device queue, with the next sequence number. A held one does the same and goes on.
What the spec leaves open in it is the model's reading: log 47. -/
def Obligations.DieWords : Prop :=
  (
  let q (s : State) (g : Group) (la : Launch) (a : Reg) : Nat :=
    if a = 0 then s.dev.now g else if a = 1 then s.dev.timeFor la.job s.dev.time else if a = 2 then identOf g else (cellGet g.q a.toNat).toNat
  (∀ d a s c g la, Issues s (.qRd d a) c g la →
    exec (.qRd d a) s = .next (if c.voters g = [] then s else s.after c.g 3 [⟨0, .q d.toNat, BitVec.ofNat 64 (q s g la a)⟩])) ∧
  (∀ d a b s c g la, Issues s (.qSub d a b) c g la →
    exec (.qSub d a b) s = .next (if c.voters g = [] then s else
      s.after c.g 3 [⟨0, .q d.toNat, BitVec.ofNat 64 (q s g la a + 2 ^ 64 - q s g la b)⟩])) ∧
  (∀ a b s c g la, Issues s (.qSt a b) c g la →
    exec (.qSt a b) s = .next (match g.leader c.on with
      | none => s
      | some ld => s.did (profEntry la.job la.id 3 (leBytes 4 g.key.block ++ leBytes 1 g.key.group ++ leBytes 1 a.toNat ++ [0, 0] ++
          leBytes 4 (uval (srcV s.dev g c ld) b) ++ [0, 0, 0, 0] ++ leBytes 8 (q s g la a))))) ∧
  (∀ a s c g la, Issues s (.trcMark a) c g la →
    exec (.trcMark a) s = .next (match g.leader c.on with
      | none => s
      | some ld => s.did (traceRec la.job g.die 8 (uval (srcV s.dev g c ld) a) (g.key.block + 2 ^ 32 * g.key.group)))) ∧
  (∀ d a s c g la, Issues s (.locQPad d a) c g la →
    exec (.locQPad d a) s = .next (s.after c.g 3 (c.on.flatMap fun l => outRun g l d.toNat 1
      (let x := uval (srcV s.dev g c l) a; if x < padSize then padHome x + 128 else 0)))) ∧
  (∀ d a s c g la, Issues s (.locQVa d a) c g la →
    exec (.locQVa d a) s = .next (if c.on = [] then s else
      (s.after c.g 3 (c.on.flatMap fun l => outRun g l d.toNat 1 (s.locVa (s.dev.jobOf la) (pval (srcV s.dev g c l) a % 2 ^ 57)))).withDev
        fun x => { x with free := x.free + 2 ^ 52 }))) ∧
  (
  (∀ i s c g la, (∃ a, i = Instr.wpSet a ∨ i = .wpClr a ∨ i = .bistRun a ∨ i = .bistRd a) → Issues s i c g la → c.voters g = [] →
    exec i s = .next s) ∧
  (∀ (clr : Bool) a s c g la ld, Issues s (if clr then .wpClr a else .wpSet a) c g la → g.leader c.on = some ld →
    let addr := uval (srcV s.dev g c ld) a
    let w := (srcV s.dev g c ld (a.toNat + 1)).toNat
    let n := w / 2 ^ 16 % 4
    let k := 4 * padHome addr + n
    let x := (cellGet s.dev.regs.wpctl k).toNat
    let y := s.dev.watchPoint (padHome addr) n
    exec (if clr then .wpClr a else .wpSet a) s = .next (
      if 2 ^ 18 ≤ w ∨ (clr = false ∧ (w % 2 ^ 16 = 0 ∨ addr < padSize ∧ y.en = true ∧ y.job ≠ la.job)) then s.faults c (illegalValue c 2)
      else if addr % 16 ≠ 0 then s.faults c (accessFault 4 (ld, addr, .misaligned, .pad))
      else if padSize < addr + 16 then s.faults c (accessFault 4 (ld, addr, .bounds, .pad))
      else if (s.dev.jobOf la).granted addr 16 = false then s.faults c (accessFault 4 (ld, addr, .access, .pad))
      else if clr then (if x / 2 ^ 32 = la.job then s.withDev fun d => d.setWp k (x - x % 2) (cellGet d.regs.wpaddr k).toNat else s)
      else s.withDev fun d => d.setWp k (1 + 2 ^ 4 * (w % 2 ^ 16) + 2 ^ 32 * la.job) addr)) ∧
  (∀ d s c g la, Issues s (.bistRd d) c g la → c.voters g ≠ [] →
    exec (.bistRd d) s = .next (if (s.dev.jobOf la).test = false then s.faults c { code := .priv, cause := pcSlot c.loc }
      else s.after c.g 3 (c.on.flatMap fun m => outRun g m d.toNat 1 g.bist.toNat))) ∧
  (∀ a s c g la ld, Issues s (.bistRun a) c g la → g.leader c.on = some ld → (∀ h, c.resume = some h → h.kind = .retry) →
    let v := uval (srcV s.dev g c ld) a
    let cl := s.dev.clusterOf g
    exec (.bistRun a) s = .next (
      if c.resume = none ∧ (4 ≤ v ∨ ((v = 1 ∨ v = 2) ∧ s.dev.aloneOnCore g = false)) then s.faults c (illegalValue c 2)
      else if (s.dev.jobOf la).test = false then s.faults c { code := .priv, cause := pcSlot c.loc }
      else if v ≠ 3 then s.did (Part.when (c.resume.isNone = true) (holdLanes c (.bistRun a) c.lanes (.bist 0) 3 .none))
      else if cl.all = [] ∧ cl.bist = false then
        (s.withDev fun d => d.setCluster { cl with bist := true }).did (holdLanes c (.bistRun a) c.lanes (.bist 0) 7 .none)
      else s.did (Part.when (c.resume.isNone = true) (holdLanes c (.bistRun a) c.lanes .retry 7 .none))))) ∧
  (
  (∀ a s c g la, Issues s (.launchDev a) c g la → c.voters g = [] → exec (.launchDev a) s = .next s) ∧
  (∀ a s c g la ld, Issues s (.launchDev a) c g la → g.leader c.on = some ld →
    let code := uval (srcV s.dev g c ld) a
    let obj := (srcV s.dev g c ld (a.toNat + 1)).toNat
    let j := s.dev.jobOf la
    let stay : State := s.did (Part.when (c.resume.isNone = true) (holdLanes c (.launchDev a) c.lanes .retry 3 .none))
    exec (.launchDev a) s = .next (match readRange s.dev la j c.g.block code 64 64 with
      | .error f => s.faults c (rangeFault ld (codeAddr code) f)
      | .ok t =>
        if g.storesDone c = false then stay
        else if childOk (s.bytes t.store t.off 64) = false then s.faults c (illegalValue c 2)
        else match worstRange ld (objChecks s.dev la j c.g.block obj) with
          | some f => s.faults c f
          | none =>
            if 256 ≤ s.dev.childCount la.job then stay
            else ((s.did (releaseReads c.g)).withDev fun d =>
              d.addChild la.job la.tag code (s.bytes t.store t.off 64) (objOf la c.g.block obj) g.knows).did (goOn c))) ∧
  (∀ (d : Dev) job parent code raw obj knows, ∃ q, (d.addChild job parent code raw obj knows).queue? job 0xFFFF = some q ∧
    (∀ q0, d.queue? job 0xFFFF = some q0 → q.tail = q0.tail + 1 ∧ q.children = q0.children ++ [⟨q0.tail + 1, raw, parent, code, obj, knows⟩]) ∧
    (d.queue? job 0xFFFF = none → q.tail = 1 ∧ q.children = [⟨1, raw, parent, code, obj, knows⟩])) ∧
  (∀ raw : List Byte, childOk raw = true ↔ leNat (raw.take 1) = 1 ∧ leNat ((raw.drop 0x34).take 8) = 0 ∧ leNat ((raw.drop 1).take 1) / 2 % 2 = 0))

/-! ### Accesses performed, passes, and the ends of held words -/

/-- R132, R153, R258, R270, R285: a load of a group that is on its way completes where its order allows, together with the other loads of its word in its
sector of the pad: they leave the queue, and the registers of their slots hold the words of what memory holds then. Where an earlier access to its
place or an acquire is on its way, where an operation under way writes the place, or the group has faulted, or `ld.vtw` waits for its bytes, or a held
word has still to make the access, nothing happens; an `ld.vtw` whose tag has retired leaves a deferred VT_ORPHAN. No load changes a byte.
R153, R285: a plain store of a group that is performed writes its bytes and no other byte of the pad, of main memory, of the block memories and of
the stacks.
What the spec leaves open in it is the model's reading: logs 5, 58, 61. -/
def Obligations.AccessesPerformed : Prop :=
  (
  (∀ (s : State) k id g la a, s.dev.group? k = some g → s.dev.launch? k.launch = some la → (g.acc.find? fun x => decide (x.id = id)) = some a →
    (g.run = .faulted ∨ (∃ x, (g.sector a).head? = some x ∧ g.mayPerform x = false) ∨
      ∃ x ∈ g.sector a, x.isDue = true ∨ s.vtWaits la.tag x = true ∨ s.dev.readGated k x = true) → exec (.loadComplete k id) s = .next s) ∧
  (∀ (s : State) k id g, s.dev.group? k = some g →
    (∀ a, (g.acc.find? fun x => decide (x.id = id)) = some a → (∃ bs, a.op = .store bs) ∨ ∃ m d, a.op = .storeMask m d) →
    exec (.loadComplete k id) s = .next s) ∧
  (∀ (s : State) k id, s.dev.group? k = none → exec (.loadComplete k id) s = .next s) ∧
  (∀ (s : State) k id g la a x xs, s.dev.group? k = some g → s.dev.launch? k.launch = some la →
    (g.acc.find? fun x => decide (x.id = id)) = some a → a.op.writes = false → g.sector a = x :: xs → g.run ≠ .faulted → g.mayPerform x = true →
    (∀ y ∈ x :: xs, y.isDue = false ∧ s.vtWaits la.tag y = false ∧ s.dev.readGated k y = false) →
    exec (.loadComplete k id) s = .next (s.did (Part.each (x :: xs) (performOne k la)))) ∧
  (∀ (g : Group) (a b : Access), a.store = .pad → a.op.writes = false →
    (b ∈ g.sector a ↔ b ∈ g.acc ∧ b.seq = a.seq ∧ b.store = .pad ∧ b.op.writes = false ∧ b.addr / 32 = a.addr / 32)) ∧
  (∀ (s : State) k g la a ty ss, s.dev.group? k = some g → a.op = .load ty ss → g.watch = [] →
    s.did (performOne k la a) = (s.withGroup { g with acc := g.acc.filter fun x => decide (x.id ≠ a.id) }).did
      (landSlots k ss (loadWords ty (s.nat a.store a.addr a.size)))) ∧
  (∀ (s : State) k g la a tag w ss t, s.dev.group? k = some g → a.op = .loadVt tag w ss → s.vtOrphaned la.tag a = some t →
    s.did (performOne k la a) = s.withGroup { g with
      acc := g.acc.filter fun x => decide (x.id ≠ a.id)
      deferred := g.deferred ++ [⟨a.seq, a.lane, 0x23, a.faddr la, pcSlot a.loc, t, false⟩] }) ∧
  (∀ (s : State) k id g a, s.dev.group? k = some g → (g.acc.find? fun x => decide (x.id = id)) = some a → a.op.writes = false →
    ∃ t, exec (.loadComplete k id) s = .next t ∧ t.pad = s.pad ∧ t.main = s.main ∧ t.blk = s.blk ∧ t.stk = s.stk) ∧
  (∀ (g : Group) (a b : Access), b ∈ g.acc → b.id < a.id → a.taken = false → b.taken = false →
    (a.samePlace b = true ∨ b.acq = true ∨ a.rel = true) → g.mayPerform a = false)) ∧
  (
  ∀ (s : State) k id g la a bs, s.dev.group? k = some g → s.dev.launch? k.launch = some la → (g.acc.find? fun x => decide (x.id = id)) = some a →
    a.op = .store bs → g.run ≠ .faulted → g.mayPerform a = true →
    let t := s.did (performAccess k id)
    (a.store = .pad → t.pad = putBytes s.pad a.addr bs ∧ t.blk = s.blk) ∧
    (∀ l b, a.store = .blk l b → t.blk = putBytes s.blk (blkAddr l b a.addr) bs ∧ t.pad = s.pad) ∧
    t.main = s.main ∧ t.stk = s.stk)

/-- R194, R195, R198: a grant takes the oldest entry that has waited through 32 grants, else the oldest of the highest priority, with up to seven that
fuse with it; it is numbered, the other entries have waited once more, and it is made only in a die cycle after the last, no more than 16 die
cycles before the engine is free, or, after a pass with its B in the pad, once that pass has started. A granted pass starts once its B may be read
and the engine is free; a variance of B that is replaced then leaves NEGV in the status of each moment entry's variance tile (R221).
R197, R200, R202, R216: the oldest pass ends 24 die cycles after its start. Where a redundant entry differs, or an entry with OT saturates, it faults
imprecisely and no tile changes; else every entry accumulates and then arrives on its object. A pass whose B meets an uncorrectable
error changes no tile (R276).
R209, R212, R214: at depth 0 every table gives the classical product: element (m, n) of the contraction is the sum over k of a(m, k) times b(k, n),
without a saturation; and the check word of slot 0 is that of the classical table.
What the spec leaves open in it is the model's reading: logs 48, 54, 64, 68. -/
def Obligations.MatrixPasses : Prop :=
  (
  (∀ es e, granted es = some e → e ∈ es ∧ ((∃ x ∈ es, 32 ≤ x.waited) → 32 ≤ e.waited) ∧
    ((∀ x ∈ es, x.waited < 32) → ∀ x ∈ es, x.prio ≤ e.prio)) ∧
  (∀ (c : Nat) (s : State) e, let cl := s.dev.clusterNo c
    granted cl.entries = some e → (cl.lastPad = true → ∀ p ∈ cl.passes, p.start ≠ none) →
    (cl.lastPad = false → ∃ t, s.dev.freeFrom cl (s.dev.cycle cl.die) = some t ∧ t ≤ s.dev.cycle cl.die + 16) →
    (∀ x, cl.lastGrant = some x → x < s.dev.cycle cl.die) →
    ∃ es, exec (.sluiceGrant c) s = .next (s.withDev fun d => d.setCluster { cl with
        entries := (cl.entries.filter fun x => !es.any fun y => decide (y.id = x.id)).map fun x => { x with waited := x.waited + 1 }
        passes := cl.passes ++ [⟨(cl.grants + 1) % 2 ^ 32, es, s.dev.cycle cl.die, none, []⟩]
        grants := (cl.grants + 1) % 2 ^ 32
        lastGrant := some (s.dev.cycle cl.die)
        lastPad := decide (e.store = .pad) }) ∧
      e ∈ es ∧ es.length ≤ 8 ∧ ∀ x ∈ es, x = e ∨ (x ∈ cl.entries ∧ x.fuses e = true ∧ x.behind cl.entries e = false)) ∧
  (∀ (c : Nat) (s : State), let cl := s.dev.clusterNo c
    (granted cl.entries = none ∨ (cl.lastPad = true ∧ ∃ p ∈ cl.passes, p.start = none) ∨
      (cl.lastPad = false ∧ ∀ t, s.dev.freeFrom cl (s.dev.cycle cl.die) = some t → s.dev.cycle cl.die + 16 < t) ∨
      (∃ x, cl.lastGrant = some x ∧ s.dev.cycle cl.die ≤ x)) → exec (.sluiceGrant c) s = .next s) ∧
  (∀ (c : Nat) (s : State) p e rest, let cl := s.dev.clusterNo c
    (cl.passes.find? fun p => p.start.isNone) = some p → p.entries = e :: rest →
    let now := s.dev.cycle cl.die
    exec (.passStart c) s = .next (
      if (e.store = .pad ∨ p.granted + 16 ≤ now) ∧ cl.freeAt ≤ now ∧
          ∀ x ∈ p.entries, s.dev.markDone x = true ∧ s.dev.gated x.id x.job (fun _ => noBytes) ⟨x.store, x.addr, tileLen x.fmt, false⟩ = false then
        s.withDev fun d => { (d.setCluster { cl with
            passes := cl.passes.map fun x => if x.number = p.number then
              { p with start := some now, b := s.bytes e.store e.addr (tileLen e.fmt) } else x
            freeAt := now + passInterval (d.entryTable cl e) e }).noteNegv p.entries (s.bytes e.store e.addr (tileLen e.fmt)) with
          gate := d.gate.filter fun r => !p.entries.any fun x => decide (x.id = r.op) }
      else s)) ∧
  (∀ (c : Nat) (s : State), ((s.dev.clusterNo c).passes.find? fun p => p.start.isNone) = none → exec (.passStart c) s = .next s) ∧
  (∀ (d : Dev) (e : Entry) b x, e.fmt = 5 → d.block? e.g.launch e.g.block = some x → cellsWf x.tileStat = true →
    (∃ k < 4096, let w := (b.getD (8192 + 2 * k) 0).toNat + 256 * (b.getD (8193 + 2 * k) 0).toNat; badVar (2 ^ 16 * w) = true) →
    ∃ y, (d.noteNegv [e] b).block? e.g.launch e.g.block = some y ∧ (cellGet y.tileStat (2 * e.tile + 1)).toNat / 8 % 2 = 1)) ∧
  (
  (∀ (c : Nat) bad (s : State) p rest, let cl := s.dev.clusterNo c
    cl.passes = p :: rest → (p.start = none ∨ ∃ t, p.start = some t ∧ s.dev.cycle cl.die < t + 24) → exec (.passAccumulate c bad) s = .next s) ∧
  (∀ (c : Nat) bad (s : State), (s.dev.clusterNo c).passes = [] → exec (.passAccumulate c bad) s = .next s) ∧
  (∀ (c : Nat) bad (s : State) p rest t, let cl := s.dev.clusterNo c
    cl.passes = p :: rest → p.start = some t → t + 24 ≤ s.dev.cycle cl.die →
    let planes (e : Entry) : List Plane := entryPlanes (s.dev.entryTable cl e) e p.b.toArray
    let gone := s.withDev fun d => d.setCluster { cl with passes := rest }
    exec (.passAccumulate c bad) s = .next (
      match p.entries.zipIdx.find? fun x => x.1.red && bad.contains x.2 with
      | some x => gone.did (passFault x.1 .mxRedundant 0 p.number)
      | none =>
        match p.entries.find? fun e => e.ot && (planesSat (planes e)).isSome with
        | some e => gone.did (passFault e .mxOverflow ((planesSat (planes e)).getD 0) p.number)
        | none =>
          ((s.did (Part.each p.entries fun e => accumulate e (planes e))).withDev fun d => d.setCluster { cl with passes := rest }).did
            (Part.each p.entries (entryArrive cl)))) ∧
  (∀ (s : State) id die src, (s.did (passMeetsError id die src)).dev.blocks = s.dev.blocks) ∧
  (∀ (s : State) e number side code, let t := s.did (passFault e code side number)
    t.dev.blocks = s.dev.blocks ∧ t.blk = s.blk ∧ t.pad = s.pad ∧ t.main = s.main ∧ t.stk = s.stk)) ∧
  (
  (∀ (t : Table) fmt nrw (a b : Mat) m n, m < 8 → n < 64 →
    (contract t 0 fmt nrw a b).val m n = intSum ((countFrom 0 64).map fun k => a.at_ m k * b.at_ k n) ∧ (contract t 0 fmt nrw a b).sat = none) ∧
  (classicalWord = 1 + 2 ^ 4 * classical.dmaxe + 2 ^ 6 * classical.dmax + 2 ^ 8 * classical.la + 2 ^ 16 * classical.lb + 2 ^ 24 * classical.lc +
    2 ^ 32 * classical.ew ∧ brentOk classical = true))

/-! ### Engines -/

/-- R275, R276: a copy that is not held, waits for no other operation and is in no dump commits its next destination page: where the page meets an
uncorrectable error it is counted and fails with UNCORRECTABLE and the pages committed as DETAIL; where an address does not translate it holds or fails there; else
it waits for room in staging, or the page is written and, after the last, the operation completes. Otherwise nothing happens.
R269, R272, R275, R276: an operation that completes or fails is no longer in flight. Its ranges are released, but for the destinations that an
uncorrectable error leaves locked; its object's phase takes the bytes that it wrote, or ends with the error.
What the spec leaves open in it is the model's reading: logs 46, 48, 59, 60. -/
def Obligations.CopyCommits : Prop :=
  (
  (∀ (s : State) op ue, (s.dev.op? op = none ∨ ∃ p, s.dev.op? op = some p ∧
      (s.dev.job? p.job = none ∨ p.kind.isCopy = false ∨ p.held ≠ none ∨ s.dev.opWaits p = true ∨ s.dev.dumpHolds p.job = true)) →
    exec (.copyPageCommit op ue) s = .next s) ∧
  (∀ (s : State) op ue p j, s.dev.op? op = some p → s.dev.job? p.job = some j → p.kind.isCopy = true → p.held = none →
    s.dev.opWaits p = false → s.dev.dumpHolds p.job = false →
    (p.pages.drop p.done = [] → exec (.copyPageCommit op ue) s = .next (s.did (finishOp p p.total))) ∧
    (∀ page rest, p.pages.drop p.done = page :: rest →
      let w := pageWork s p j page
      exec (.copyPageCommit op ue) s = .next (
        if ue then
          let t := if (s.firstBad j false (sectors w.reads)).isSome then s
            else s.did (Part.each (sectors w.reads) fun a => noteTranslation p.job a false)
          ((t.did (countUe (copySources s p j w))).withDev fun d => { d with free := d.free + 1 }).did
            (failOp { p with started := true } 0x32 0 p.done 0)
        else match s.firstBad j false (sectors w.reads) with
          | some (va, t) => s.did (badAddress { p with started := true } p.done (sectors w.reads) va false t)
          | none => match s.firstBad j true (sectors w.writes) with
            | some (va, t) => s.did (badAddress { p with started := true } p.done (sectors w.writes) va true t)
            | none => if s.dev.stagingFull p then s.did (awaitStaging { p with started := true })
              else s.did (commitPage p j w (rest.length + 1))))) ∧
  (∀ (s : State) (st : Store) (bs : List (Nat × Byte)), ∃ d, s.did (chipWrite st bs) =
    { s.setBank (bs.foldl (fun m e => cellSet m (st.at_ e.1) e.2) (s.bank st.bank)) st.bank with dev := d }) ∧
  (∀ (s : State) p j page a v, p.kind = .s2s → (a, v) ∈ (pageWork s p j page).chip →
    a / 4096 = page ∧ p.storeB.off (p.reg 1) ≤ a ∧ a < p.storeB.off (p.reg 1) + p.reg 2 ∧
      v = cellGet (s.bank p.storeA.bank) (p.storeA.at_ (p.storeA.off (p.reg 0) + (a - p.storeB.off (p.reg 1)))))) ∧
  (
  (∀ (s : State) p n, p.object = none → let t := s.did (finishOp p n)
    t.dev.ops = s.dev.ops.filter (fun x => decide (x.id ≠ p.id)) ∧ (∀ e ∈ t.dev.gate, e.op ≠ p.id ∧ e ∈ s.dev.gate) ∧
    (∀ e ∈ s.dev.gate, e.op ≠ p.id → e.ue = false → e ∈ t.dev.gate) ∧
    t.pad = s.pad ∧ t.main = s.main ∧ t.blk = s.blk ∧ t.stk = s.stk) ∧
  (∀ (s : State) p n o, p.object = some o → o.store ≠ .pad → let t := s.did (finishOp p n)
    t.dev.ops = s.dev.ops.filter (fun x => decide (x.id ≠ p.id)) ∧ t.blk = (s.did (objArriveN (engineRelease (s.dev.opKnows p)) o n)).blk ∧ t.pad = s.pad) ∧
  (∀ (s : State) p code cause detail faddr o, p.object = some o → o.store ≠ .pad → let t := s.did (failOp p code cause detail faddr)
    t.dev.ops = s.dev.ops.filter (fun x => decide (x.id ≠ p.id)) ∧
    t.blk = putBytes s.blk (o.store.at_ (o.addr + 4))
      (leBytes 4 0 ++ leBytes 2 (s.objPhase o + 1) ++ leBytes 1 code ++ leBytes 1 cause ++ leBytes 4 detail) ∧
    (∀ e ∈ t.dev.gate, e.op = p.id → (code = 0x32 ∨ p.metUe = true) ∧ e.dst = true ∧ e.ue = true)))

/-- R277, R278: a gather that may act does each lane that is left: it writes a lane's bytes, or notes its failure, and a lane that meets a page fault holds
it; a lane whose last-page register matches uses that translation. R324, R325: a migration passes a page that matches its target; of one that does not
it takes a frame, sets MIG and drops its translations, then moves it once no write of it is staged, and returns the old frame once its pool has room; it fails or holds where it must.
What the spec leaves open in it is the model's reading: logs 45, 48, 60. -/
def Obligations.GathersAndMigrations : Prop :=
  (∀ (s : State) op ue, (s.dev.op? op = none ∨ ∃ p, s.dev.op? op = some p ∧
      (s.dev.job? p.job = none ∨ (∀ n, p.kind ≠ .gat n) ∨ p.held ≠ none ∨ s.dev.opWaits p = true ∨ s.dev.dumpHolds p.job = true)) →
    exec (.gatherComplete op ue) s = .next s) ∧
  (∀ (s : State) op ue p j size, s.dev.op? op = some p → s.dev.job? p.job = some j → p.kind = .gat size → p.held = none →
    s.dev.opWaits p = false → s.dev.dumpHolds p.job = false →
    let os := (p.lanes.filter fun x => !x.got && !x.failed).map fun x => (x, gatOutcome s p j size ue x)
    exec (.gatherComplete op ue) s = .next (
      if os.any fun o => decide (o.2 = .wait) then s
      else (((s.did (Part.each os fun o => gatLane op j size o.2 o.1)).did (gatReports p size)).withDev fun d => { d with free := d.free + 2 ^ 52 }).did
        (match os.find? fun o => decide (o.2 = .held) with
          | some o => fun s => (match s.dev.op? op with | some q => holdOp { q with started := true } o.1.va false s | none => [])
          | none => gatEnd op size))) ∧
  (∀ (s : State) p j size ue x, gatOutcome s p j size ue x = (
      if 2 ^ 57 ≤ x.va then .bad 0x31 2
      else if x.va % size ≠ 0 then .bad 0x0A 0
      else if bitAt ue.toNat x.lane then .bad 0x32 0
      else match gatTr s p j x with
        | .ok _ _ => .ok
        | .fault => .held
        | .access => .bad 0x31 2
        | .wait => .wait)) ∧
  (∀ (s : State) (p : EngineOp) j g x, s.dev.group? p.g = some g →
    ((∀ q, (g.lane x.lane).lastPage = some q → q.page ≠ x.va / pageSize q.level) → gatTr s p j x = s.translate j x.va false) ∧
    (∀ q, (g.lane x.lane).lastPage = some q → q.page = x.va / pageSize q.level →
      gatTr s p j x = trLeaf ⟨q.leaf.toNat, 0, q.level⟩ x.va false)) ∧
  (∀ (s : State) op, (s.dev.op? op = none ∨ ∃ p, s.dev.op? op = some p ∧
      (s.dev.job? p.job = none ∨ p.kind ≠ .mig ∨ p.held ≠ none ∨ s.dev.opWaits p = true ∨ s.dev.dumpHolds p.job = true)) →
    exec (.migrationPageMove op) s = .next s) ∧
  (∀ (s : State) op p j, s.dev.op? op = some p → s.dev.job? p.job = some j → p.kind = .mig → p.held = none → s.dev.opWaits p = false →
    s.dev.dumpHolds p.job = false →
    let va := p.reg 0 + 2 ^ 32 * p.reg 1 + 4096 * p.done
    let tier := p.reg 3 % 4
    let ilv := p.reg 3 / 4 % 4
    let home := p.reg 3 / 16 % 8
    let pool := poolOf tier ilv home
    let q := { p with started := true, timer := 0, ask := 0 }
    let seen := s.did (noteTranslation p.job va false)
    (p.move = .ready → exec (.migrationPageMove op) s = .next (match (if 2 ^ 57 ≤ va then Tr.access else trWalk (s.walk j va) va false) with
      | .fault => s.did (holdOp { p with started := true } va false)
      | .access => s.did (failOp { p with started := true } 0x31 2 p.done va)
      | .wait => s
      | .ok _ e =>
        if va % e.bytes ≠ 0 ∨ p.reg 2 < p.done + e.bytes / 4096 then seen.did (failOp q 0x31 2 p.done va)
        else if e.tier = tier ∧ e.ilv = ilv ∧ e.home = home then seen.did (migAdvance p (e.bytes / 4096))
        else if s.dev.poolsReady pool (if e.tier = 3 then none else some (poolOf e.tier e.ilv e.home)) = false then s
        else if s.dev.regs.pool pool 2 = 0 then seen.did (failOp q 0x31 1 p.done va)
        else if frameFits tier ilv home (s.poolTop pool) e.bytes = false then (seen.did (takeFrame pool)).did (failOp q 0x31 1 p.done va)
        else ((seen.did (takeFrame pool)).did (setMig e true)).withDev fun d =>
          (d.dropTranslations p.job va e.bytes).setOp { q with move := .moving (s.poolTop pool) })) ∧
    (∀ f e, p.move = .moving f → s.walk j va = .leaf e →
      let moved := s.did (movePage p va e tier ilv home f)
      let old := e.first % 2 ^ 48 / 4096
      exec (.migrationPageMove op) s = .next (
        if s.dev.stagedOver p.job va e.bytes then s
        else if e.tier = 3 then moved.did (migAdvance p (e.bytes / 4096))
        else if s.dev.regs.poolRoom (poolOf e.tier e.ilv e.home) then
          (moved.did (returnFrame (poolOf e.tier e.ilv e.home) old)).did (migAdvance p (e.bytes / 4096))
        else moved.withDev fun d => d.setOp { p with timer := 0, ask := 0, move := .returning (poolOf e.tier e.ilv e.home) old (e.bytes / 4096) })) ∧
    (∀ f, p.move = .moving f → (∀ e, s.walk j va ≠ .leaf e) → exec (.migrationPageMove op) s = .next (s.did (failOp p 0x31 2 p.done va))) ∧
    (∀ o f n, p.move = .returning o f n → exec (.migrationPageMove op) s = .next (
      if s.dev.regs.poolRoom o then (s.did (returnFrame o f)).did (migAdvance p n) else s)))

/-- R255, R256, R280, R286, R308: a merge whose turn has come, and before which every earlier access of its group is performed, is applied in one step and its vintage retires; a conflict with an earlier sibling, or a delta that
meets one of the other type, is a fault at the lowest address and nothing is applied. The weir makes the staged writes of the lowest key of a launch
visible once its turn has come.
What the spec leaves open in it is the model's reading: logs 58, 59. -/
def Obligations.WeirAndMerges : Prop :=
  (∀ (s : State) tag, (s.dev.vintage? tag = none ∨ ∃ v, s.dev.vintage? tag = some v ∧
      (v.closing = none ∨ s.dev.launch? v.launch = none ∨ v.live = false ∨ v.failed = true ∨ (s.dev.cursor v.launch v.parent).1 ≠ v.ordinal ∨
        s.dev.mergeGated v = true ∨ (∃ k, v.closing = some k ∧ s.mergeEarly v k = true) ∨
        ∃ la, s.dev.launch? v.launch = some la ∧ (s.dev.jobOf la).ending ≠ none)) → exec (.mergeApply tag) s = .next s) ∧
  (∀ (s : State) tag v k la, s.dev.vintage? tag = some v → v.closing = some k → s.dev.launch? v.launch = some la → v.live = true → v.failed = false →
    (s.dev.cursor v.launch v.parent).1 = v.ordinal → s.dev.mergeGated v = false → (s.dev.jobOf la).ending = none →
    s.mergeEarly v k = false →
    exec (.mergeApply tag) s = .next (
      match lowestAt (s.dev.mergeConflicts v) with
      | some x => s.did (mergeFault v k .vtMergeConflict x)
      | none => match lowestAt (s.dev.mergeClashes v) with
        | some x => s.did (mergeFault v k .illegalOperand x)
        | none =>
          if s.dev.mergeShort tag then s
          else
            let t := s.did (Part.each (s.dev.cellsOf tag) fun c => Part.seq [
              (if v.parent = 0 then mergeWatch v k la.job c else Machine.Part.none),
              (if v.parent = 0 then mergeRoot c else mergeCell v c),
              markMerged v c])
            t.withDev fun _ => (((t.takeView tag).retireVintage v).modGroup k fun g => if g.vt = tag then g.setVt v.parent else g).mergeApplied
              k v.launch v.parent)) ∧
  (∀ (s : State) v k g, s.dev.group? k = some g →
    ((∀ a ∈ g.acc, v.mark ≤ a.seq) → g.deferred = [] → s.mergeEarly v k = false) ∧
    (∀ a ∈ g.acc, a.seq < v.mark → (a.op.writes = true ∨ ∃ ty ss, a.op = .load ty ss) → s.mergeEarly v k = true)) ∧
  (∀ xs x, lowestAt xs = some x → x ∈ xs ∧ ∀ y ∈ xs, x.1 ≤ y.1) ∧
  (∀ (s : State) v k code x, let t := s.did (mergeFault v k code x)
    t.pad = s.pad ∧ t.blk = s.blk ∧ t.main = s.main ∧ t.dev.dataCells = s.dev.dataCells ∧ t.dev.mergeRecs = s.dev.mergeRecs) ∧
  (∀ (s : State) launch, (s.dev.launch? launch = none ∨ ∀ w ∈ s.dev.staged, w.launch ≠ launch) → exec (.weirRelease launch) s = .next s) ∧
  (∀ (s : State) launch la w, s.dev.launch? launch = some la →
    ((s.dev.staged.filter fun w => decide (w.launch = launch)).find? fun w =>
      (s.dev.staged.filter fun w => decide (w.launch = launch)).all fun x => !keyLt x.key w.key) = some w →
    exec (.weirRelease launch) s = .next (
      if s.dev.weirOpen la w.key = false ∨ s.dev.dumpHolds la.job = true then s
      else (((s.withDev fun d => { d with staged := d.staged.erase w }).did (runsVisible launch true w.block w.runs)).did
        (mainWatch w.die w.engine la.job w.g w.loc (w.runs.map fun r => (r.1, r.2.2)))).withDev fun d =>
          if d.stagedIn launch = false ∧ 0 < (d.barrier ⟨launch, w.block, 0⟩ 17).arr ∧
              (d.barrier ⟨launch, w.block, 0⟩ 17).arr = (d.barrier ⟨launch, w.block, 0⟩ 17).exp then
            d.completePhase ⟨launch, w.block, 0⟩ 17
          else d))

/-! ### Timers -/

/-- R26, R141, R175, R176, R259, R327, R363, R366: the watchdogs. A barrier wait that has counted the launch's watchdog, 100 ms where none is given, is a
precise BAR_TIMEOUT of the lowest block and group, with the barrier record as it stood at that reference ns; a vintage wait a VT_STARVE; an access to
another die without a response for 50 µs is given up, a helper's load with 0, as is an engine operation that asks another die; a remote operation
without progress for 200 µs and a collective without its partners fail with REMOTE_TIMEOUT. Before that, nothing. Of watchdogs that ran out at one ns the lowest block and group faults, and the
others raise none.
What the spec leaves open in it is the model's reading: logs 28, 29, 30, 31. -/
def Obligations.Watchdogs : Prop :=
  (∀ (s : State) k lane, (∀ g la, s.dev.group? k = some g → s.dev.launch? k.launch = some la → s.dev.barWatch g la lane = none) →
    exec (.barTimeout k lane) s = .next s) ∧
  (∀ (s : State) k lane g la w, s.dev.group? k = some g → s.dev.launch? k.launch = some la → s.dev.barWatch g la lane = some w →
    let loc := (g.lane lane).pc
    exec (.barTimeout k lane) s = .next (
      if w.timer < 1000 * (if la.dogUs = 0 then 100000 else la.dogUs) ∨ g.counts = false ∨ g.run = .faulted ∨ g.run = .ended ∨
          s.tiedBefore k la w.timer = true then s
      else (s.did (spareTimers k w.timer)).did (takeFault k (if g.xsaved.isSome then [] else g.heldWith lane) loc true
        { code := .barTimeout, cause := pcSlot loc + 256 * w.bar, aux := w.since % 2 ^ 32, extra := w.record }))) ∧
  (∀ (s : State) k la t, s.tiedBefore k la t = true ↔
    ∃ h ∈ s.dev.groups, h.key.launch = k.launch ∧ h.counts = true ∧
      (h.key.block < k.block ∨ h.key.block = k.block ∧ h.key.group < k.group) ∧
      ∃ m ∈ h.liveLanes, (∃ x, s.dev.barWatch h la m = some x ∧ x.timer = t) ∨
        (∃ x, (h.lane m).hold = some x ∧ s.dev.starveWait x ≠ none ∧ x.timer = t) ∨
        ((h.lane m).hold = none ∧ s.cellWait h m = true ∧ (h.lane m).starve = t)) ∧
  (∀ (s : State) k t, ∃ d, s.did (spareTimers k t) = { s with dev := d } ∧
    d.groups.map (fun g => (g.key, g.run, g.acc, g.gsr)) = s.dev.groups.map (fun g => (g.key, g.run, g.acc, g.gsr)) ∧
    (∀ g ∈ s.dev.groups, g.key.launch ≠ k.launch ∨ g.key = k ∨ g.counts = false → g ∈ d.groups) ∧
    ∀ g ∈ d.groups, g.key.launch = k.launch → g.key ≠ k → g.counts = true → ∀ la n, 0 < t →
      (∀ w, d.barWatch g la n = some w → w.timer ≠ t) ∧
      (∀ h, (g.lane n).hold = some h → d.starveWait h ≠ none → g.xsaved = none → h.timer ≠ t) ∧
      ((g.lane n).hold = none → g.xsaved = none → (g.lane n).starve ≠ t)) ∧
  (∀ (d : Dev) (g : Group) la lane h code st, g.xsaved = none → (g.lane lane).hold = some h → h.dog = .bar code st →
    d.barWatch g la lane = some ⟨h.timer, code, h.since, h.expiry.getD (barrierRecord d la g.key code (barState d g la lane code st))⟩) ∧
  (∀ (d : Dev) (g : Group) la n lane h code st, d.launch? g.key.launch = some la → g.counts = true → d.holdPaused g.key h = false →
    h.dog = .bar code st →
    let x := d.passHold g n lane h
    x.timer = h.timer + n ∧ (∀ r, h.expiry = some r → x.expiry = some r) ∧
    (h.expiry = none → x.expiry = if 1000 * (if la.dogUs = 0 then 100000 else la.dogUs) ≤ h.timer + n then
      some (barrierRecord d la g.key code (barState d g la lane code st)) else none)) ∧
  (∀ (s : State) k n, (∀ g, s.dev.group? k = some g → g.counts = false ∨ g.run = .faulted) →
    exec (.vtStarve k true n) s = .next s ∧ exec (.vtStarve k false n) s = .next s) ∧
  (∀ (s : State) k n g la h code aux, s.dev.group? k = some g → s.dev.launch? k.launch = some la → g.counts = true → g.run ≠ .faulted →
    (g.lane n).hold = some h → s.dev.starveWait h = some (code, aux) →
    exec (.vtStarve k false n) s = .next (
      if h.timer < 1000 * (if la.dogUs = 0 then 100000 else la.dogUs) ∨ s.tiedBefore k la h.timer = true then s
      else (s.did (spareTimers k h.timer)).did
        (takeFault k (g.heldWith n) (g.lane n).pc true { code := .vtStarve, cause := pcSlot (g.lane n).pc + 16 * code, aux := aux }))) ∧
  (∀ (d : Dev) (h : Hold) code aux, h.dog = .vt code aux →
    ((∀ t, h.kind ≠ .turn t) → d.starveWait h = some (code, aux)) ∧
    (∀ t, h.kind = .turn t → d.starveWait h = if d.mergeShort t then some (1, 0) else some (code, aux))) ∧
  (∀ (s : State) k n g la, s.dev.group? k = some g → s.dev.launch? k.launch = some la → g.counts = true → g.run ≠ .faulted →
    (g.lane n).hold = none →
    let loc := s.starvedAt g la n
    exec (.vtStarve k false n) s = .next (
      if 1000 * (if la.dogUs = 0 then 100000 else la.dogUs) ≤ (g.lane n).starve ∧ s.cellWait g n = true ∧
          s.tiedBefore k la (g.lane n).starve = false then
        (s.did (spareTimers k (g.lane n).starve)).did (takeFault k (g.batchOf n) loc true { code := .vtStarve, cause := pcSlot loc + 16, aux := 0 })
      else s)) ∧
  (∀ (s : State) k n g la a, s.dev.group? k = some g → s.dev.launch? k.launch = some la → g.counts = true → g.run ≠ .faulted →
    (g.acc.find? fun x => decide (x.id = n)) = some a → ∀ t w ss, a.op = .loadVt t w ss →
    exec (.vtStarve k true n) s = .next (if 1000 * (if la.dogUs = 0 then 100000 else la.dogUs) ≤ a.timer ∧ s.vtWaits k.launch a = true then
      s.withGroup { g with acc := g.acc.filter fun x => decide (x.id ≠ n)
                           deferred := g.deferred ++ [⟨a.seq, a.lane, 0x25, a.faddr la, pcSlot a.loc + 48, t, false⟩] } else s)) ∧
  (∀ (s : State) k id g la a, s.dev.group? k = some g → s.dev.launch? k.launch = some la →
    (g.acc.find? fun x => decide (x.id = id)) = some a →
    exec (.crossDieTimeout (.access k id)) s = .next (
      if 50000 ≤ a.timer ∧ a.store = .pad ∧ padHome a.addr ≠ g.die ∧ a.isDue = false ∧ a.taken = false ∧ s.vtWaits k.launch a = false then
        if a.helper then
          ((s.withDev fun d => d.modGroup k fun g => g.dropAccess id).did (performOp k la { a with op := a.op.void })).did (settleWatch k)
        else s.withGroup { g with
          acc := g.acc.filter fun x => decide (x.id ≠ id)
          deferred := g.deferred ++ [⟨a.seq, a.lane, 0x34, a.faddr la, 0, 0, match a.op with | .store _ | .storeMask _ _ => true | _ => false⟩] }
      else s)) ∧
  (∀ (s : State) k (la : Launch) (a : Access) ty ss, a.op = .load ty ss →
    s.did (performOp k la { a with op := a.op.void }) = s.did (landSlots k ss 0)) ∧
  (∀ (s : State) op p, s.dev.op? op = some p →
    exec (.crossDieTimeout (.engine op)) s = .next (match s.dev.job? p.job with
      | none => s
      | some j =>
        if s.opAsks p = true ∧ 50000 ≤ p.ask ∧ p.held = none ∧ s.dev.dumpHolds p.job = false then
          match p.kind with
          | .gat size => s.did (failLanes p size 0x34 0
              ((p.lanes.filter fun x => (decide (x.store = .pad) && decide (padHome x.dst ≠ p.die)) || s.asksDie j p.die x.va).map GatLane.lane))
          | _ => s.did (failOp p 0x34 0 p.done 0)
        else s)) ∧
  (∀ (s : State) p, (s.opCrosses p = false → s.opAsks p = false) ∧
    (p.kind = .coll → s.opAsks p = (p.started && s.opCrosses p)) ∧
    (p.kind ≠ .coll → s.opAsks p = (p.link.isNone && (!p.kind.isRemote || p.sent) && !s.dev.opWaits p && !s.opStands p && s.opCrosses p))) ∧
  (∀ (s : State) n p, let q := s.passOp n p
    (p.held.isSome = true ∨ p.remoteHeld = true ∨ s.dev.dumpHolds p.job = true → q = p) ∧
    (p.held = none → p.remoteHeld = false → s.dev.dumpHolds p.job = false →
      (p.kind ≠ .coll → s.dev.opWaits p = true ∨ p.kind.isRemote = true ∧ p.sent = false → q.timer = 0 ∧ q.ask = 0) ∧
      (p.kind = .coll ∨ s.dev.opWaits p = false ∧ (p.kind.isRemote = false ∨ p.sent = true) →
        q.ask = (if s.opAsks p = true then p.ask + n else 0) ∧
        q.timer = if p.kind ≠ .coll ∧ s.opStands p = true then 0 else p.timer + n)) ∧
    q.id = p.id ∧ q.kind = p.kind ∧ q.done = p.done ∧ q.lanes = p.lanes) ∧
  (∀ (s : State) op known p, s.dev.op? op = some p → p.kind ≠ .coll →
    exec (.remoteTimeout op known) s = .next (
      if p.kind.isRemote = true ∧ 200000 ≤ p.timer ∧ p.held = none ∧ p.remoteHeld = false then
        s.did (failOp p 0x34 0 (s.dev.remoteDetail p (known.toNat % 3)) 0)
      else s)) ∧
  (∀ (d : Dev) p known, ((∀ x ord, p.kind ≠ .ratom x ord) → d.remoteDetail p known = p.done) ∧
    (∀ x ord, p.kind = .ratom x ord →
      (p.link = none ∨ p.sent = false → d.remoteDetail p known = 0) ∧
      (∀ n, p.link = some n → (∃ f ∈ (d.link n).waiting, f.msg = .request p.id) → d.remoteDetail p known = 0) ∧
      (∀ n, p.link = some n → p.sent = true → (∀ f ∈ (d.link n).waiting, f.msg ≠ .request p.id) → d.remoteDetail p known = known))) ∧
  (∀ (s : State) op p la, s.dev.op? op = some p → s.dev.launch? p.launch = some la →
    exec (.collTimeout op) s = .next (
      if p.kind = .coll ∧ p.started = false ∧ p.held = none ∧ 1000 * (if la.dogUs = 0 then 100000 else la.dogUs) ≤ p.timer then
        s.did (failOp p 0x34 0 0 0)
      else s)) ∧
  (∀ (s : State) op known, s.dev.op? op = none →
    exec (.crossDieTimeout (.engine op)) s = .next s ∧ exec (.remoteTimeout op known) s = .next s ∧ exec (.collTimeout op) s = .next s)

/-- R103, R145, R299, R306, R312, R326, R380: a `wait` ends at its time and a `wait.addr` 4 µs after its start, when its group yields for 8 words; a
yield ends after its 64 die cycles; a block whose quantum has run out is pre-empted where another waits and it is not the weir's head; a sampling
interval writes a record for each group of the resident blocks; the scrubber counts errors up to its registers' ends; a change of a die's clock
is noted in each ring.
What the spec leaves open in it is the model's reading: logs 10, 11. -/
def Obligations.Expiries : Prop :=
  (∀ (s : State) k lane g h, s.dev.group? k = some g → (g.lane lane).hold = some h → g.isLive lane = true →
    (∀ t, h.kind = .wait t → exec (.waitExpiry k lane) s = .next (
      if t ≤ s.dev.time then s.did (releaseLanes k [lane] (pcNext (g.lane lane).pc)) else s)) ∧
    (∀ p b n t, h.kind = .waitAddr p b n t → exec (.waitAddrTimeout k lane) s = .next (
      if t ≤ s.dev.time then (s.did (releaseLanes k [lane] (pcNext (g.lane lane).pc))).withDev fun d => d.modGroup k fun g => { g with yieldWords := 8 }
      else s)) ∧
    ((∀ t, h.kind ≠ .wait t) → exec (.waitExpiry k lane) s = .next s) ∧
    ((∀ p b n t, h.kind ≠ .waitAddr p b n t) → exec (.waitAddrTimeout k lane) s = .next s)) ∧
  (∀ (s : State) k g, s.dev.group? k = some g →
    exec (.yieldExpiry k) s = .next (if (∃ t, g.yieldUntil = some t ∧ t ≤ s.dev.now g) ∧ g.place ≠ none then
      s.withGroup { g with yieldUntil := none, yieldSlots := [] } else s)) ∧
  (∀ (s : State) tag block la b, s.dev.launch? tag = some la → s.dev.block? tag block = some b →
    exec (.quantumExpiry tag block) s = .next (
      if la.persistent = true ∨ b.residency ≠ .resident ∨ b.quantum < 1000 * (if la.quantumUs = 0 then 2000 else la.quantumUs) ∨
          (∃ x ∈ s.dev.blocks, la.expired x = true ∧ x.index < block) then s
      else if (la.det = true ∧ ∃ h, s.dev.weirHead la = some h ∧ la.unit h = la.unit block) ∨ s.dev.othersWait la = false then
        s.withDev fun d => d.setBlock { b with quantum := 0 }
      else s.withDev fun d => d.requestHalt la block true false)) ∧
  (∀ (s : State) tag la, s.dev.launch? tag = some la →
    exec (.sample tag) s = .next (if la.sampling = false ∨ la.sampleTimer < max la.sampleNs 1 then s
      else (s.did (Part.each ((sortNat ((s.dev.blocks.filter fun b => decide (b.launch = tag) && b.placed).map Block.index)).flatMap fun b =>
          (countFrom 0 la.groups).filterMap fun g => s.dev.group? ⟨tag, b, g⟩) fun g => profEntry la.job la.id 2 (s.sampleBytes g la))).withDev
        fun d => d.modLaunch tag fun l => { l with sampleTimer := l.sampleTimer - max la.sampleNs 1 })) ∧
  (∀ (s : State) die src ce ue, 8 ≤ die ∨ 8 ≤ src.toNat → exec (.patrolScrub die src ce ue) s = .next s) ∧
  (∀ (s : State) die src ce ue, die < 8 → src.toNat < 8 → cellsWf s.dev.regs.err = true → ∃ d, exec (.patrolScrub die src ce ue) s = .next { s with dev := d } ∧
    let x := (cellGet s.dev.regs.err die).toNat
    let y := (cellGet d.regs.err die).toNat
    y % 2 ^ 24 = min (2 ^ 24 - 1) (x % 2 ^ 24 + ce) ∧ y / 2 ^ 32 % 2 ^ 16 = min (2 ^ 16 - 1) (x / 2 ^ 32 % 2 ^ 16 + ue) ∧
    (0 < ce → y / 2 ^ 24 % 2 ^ 8 = src.toNat) ∧ (0 < ue → y / 2 ^ 48 % 2 ^ 8 = src.toNat) ∧ y / 2 ^ 56 = x / 2 ^ 56) ∧
  (∀ (s : State) die resumed, ∃ d, exec (.clockFrequencyChange die resumed) s = .next { s with dev := d } ∧ d.groups = s.dev.groups ∧
    d.jobs.map Job.id = s.dev.jobs.map Job.id ∧ ∀ j ∈ d.jobs, ∀ t ∈ j.dies, t.die = die → if resumed then t.resumed = true else t.changed = true)

/-! ### Placement and pre-emption -/

/-- R18, R23, R34, R147, R169, R177, R298, R299: the gang at the head of its launch's queue is placed where its turn, RL and the room of its cores let
it. A block placed for the first time has its memory and its groups' spill regions cleared; its lanes are live at the entry, every register 0 but
the hard-wired bit of the predicate word; its barriers expect its groups.
What the spec leaves open in it is the model's reading: logs 17, 37. -/
def Obligations.Placement : Prop :=
  (∀ (s : State) tag cl cores, (s.dev.launch? tag = none ∨ ∃ la, s.dev.launch? tag = some la ∧ s.dev.nextGang la = none) →
    exec (.blockPlace tag cl cores) s = .next s) ∧
  (∀ (s : State) tag cl cores la u, s.dev.launch? tag = some la → s.dev.nextGang la = some u →
    exec (.blockPlace tag cl cores) s = .next (
      if u = la.fresh ∧ la.persistent = false ∧ s.dev.mayPlace la = true ∧
          (la.resLimit = 0 ∨ s.dev.residents tag + max la.gang 1 ≤ la.resLimit) ∧ cl < 144 ∧ cores.length = max la.gang 1 ∧
          cores.eraseDups.length = max la.gang 1 ∧ (∀ k ∈ cores, k < 4 ∧ 0 < s.dev.coreRoom la (cl / 24) (4 * (cl % 24) + k)) then
        (s.withDev fun d => d.setLaunch { la with fresh := la.fresh + max la.gang 1 }).did
          (Part.each ((countFrom u (max la.gang 1)).zip cores) fun e => placeBlock la e.1 (cl / 24) (4 * (cl % 24) + e.2))
      else s)) ∧
  (∀ (s : State) la b die core, s.Inv → b < 2 ^ 32 →
    let t := s.did (placeBlock la b die core)
    (∀ x, x < 2 ^ 18 → cellGet t.blk (blkAddr la.tag b x) = 0) ∧
    (∀ x, x < blkAddr la.tag b 0 ∨ blkAddr la.tag b 0 + 2 ^ 18 ≤ x → cellGet t.blk x = cellGet s.blk x) ∧
    (∀ g x, g < la.groups → x < 2 ^ 22 → cellGet t.stk (stkAddr ⟨la.tag, b, g⟩ 0 0 + x) = 0) ∧
    t.pad = s.pad ∧ t.main = s.main ∧
    t.dev.groups = s.dev.groups ++ (countFrom 0 la.groups).map (fun g =>
      newGroup la b g ⟨die, core, (s.dev.slotsFree die core).getD g 0⟩) ∧
    (s.dev.block? la.tag b = none → t.dev.block? la.tag b = some (newBlock la b die core))) ∧
  (∀ (la : Launch) b n p, let g := newGroup la b n p
    g.key = ⟨la.tag, b, n⟩ ∧ g.width = 8 * 2 ^ la.width ∧ g.lanes.length = g.width ∧ g.mxs = 0 ∧ g.q = [] ∧ g.stall = [] ∧ g.run = .running ∧ g.xsaved = none ∧
    g.xwait = none ∧ g.acc = [] ∧ g.counted = [] ∧ g.knows = la.knows ∧
    (la.width < 4 → g.gsr.toNat = la.width + (if la.det then 2 ^ 10 else 0)) ∧
    ∀ m, m < g.width → g.isLive m = true ∧ (g.lane m).pc = pcOfIndex la.image la.entry ∧ (g.lane m).preds = 0x8000 ∧ (g.lane m).ssp = 0 ∧
      (g.lane m).hold = none ∧ (g.lane m).pending = 0 ∧ (∀ r, cellGet (g.lane m).v r = 0) ∧ ∀ r, cellGet (g.lane m).m r = 0) ∧
  (∀ (la : Launch) b die core, let x := newBlock la b die core
    x.bars.length = 18 ∧ (∀ y ∈ x.bars, y.exp = la.groups ∧ y.arr = 0 ∧ y.phase = 0) ∧ x.phase = 0 ∧ x.races = [] ∧ x.tiles = [] ∧ x.tileStat = []) ∧
  (∀ (d : Dev) die core k, k ∈ d.slotsFree die core ↔ k < 16 ∧ k ∉ d.slotsHeld die core)

/-- R302 to R305: a pre-emption request halts the running groups of a block, its gang or its persistent launch, and the block goes to the tail of its
queue; a block that halts already, a job that ends and one whose groups a dump has halted are left alone. Once all are drained the blocks leave their
core: parked where all their groups wait at `grid.sync`, else saved, and their registers stay as they are. The gang at the queue's
head is restored where it has room; a persistent launch is restored all at once.
What the spec leaves open in it is the model's reading: logs 37, 38. -/
def Obligations.Preemption : Prop :=
  (∀ (s : State) tag b, s.dev.launch? tag = none → exec (.preemptRequest tag b) s = .next s) ∧
  (∀ (s : State) tag b la, s.dev.launch? tag = some la →
    let bs := if la.persistent then countFrom 0 la.nblocks else la.gangBlocks (la.unit b)
    let here := fun x : Block => x.launch = la.tag ∧ x.index ∈ bs ∧ x.residency = .resident
    ((∀ j, s.dev.job? la.job = some j → j.ending ≠ none) ∨ (∀ x ∈ s.dev.blocks, ¬ here x) ∨
        (∃ g ∈ s.dev.groups, g.key.launch = la.tag ∧ g.key.block ∈ bs ∧ g.run = .dumped) →
      exec (.preemptRequest tag b) s = .next s) ∧
    ((∃ j, s.dev.job? la.job = some j ∧ j.ending = none) → (∃ x ∈ s.dev.blocks, here x) →
        (∀ g ∈ s.dev.groups, g.key.launch = la.tag → g.key.block ∈ bs → g.run ≠ .dumped) →
      ∃ d, exec (.preemptRequest tag b) s = .next { s with dev := d } ∧
        d.blocks = s.dev.blocks.map (fun x => if x.launch = la.tag ∧ x.index ∈ bs ∧ x.residency = .resident then
          { x with residency := .halting, requeue := true, byDebugger := false, preemptedAt := some s.dev.time } else x) ∧
        d.groups = s.dev.groups.map (fun g => if g.key.launch = la.tag ∧ g.key.block ∈ bs ∧ g.run = .running then
          { g with run := .halting } else g) ∧
        (la.persistent = false → ∃ l, d.launch? tag = some l ∧ l.back = la.back ++ [la.unit b]))) ∧
  (∀ (s : State) tag b, s.dev.launch? tag = none → exec (.preemptSave tag b) s = .next s) ∧
  (∀ (s : State) tag b la, s.dev.launch? tag = some la →
    let bs := if la.persistent then countFrom 0 la.nblocks else la.gangBlocks (la.unit b)
    let gs := s.dev.groupsOf tag bs
    let mine := s.dev.unended tag bs
    ((∀ j, s.dev.job? la.job = some j → j.ending ≠ none) ∨ mine = [] ∨ b ∉ bs ∨ (∃ x ∈ mine, x.residency ≠ .halting) ∨
        (∃ g ∈ gs, s.drained g = false) → exec (.preemptSave tag b) s = .next s) ∧
    ((∃ j, s.dev.job? la.job = some j ∧ j.ending = none) → mine ≠ [] → b ∈ bs → (∀ x ∈ mine, x.residency = .halting) →
        (∀ g ∈ gs, s.drained g = true) →
      let parked := (mine.all fun x => !x.requeue && !x.byDebugger) && !la.persistent && s.dev.parkedNow tag bs
      ∃ d, exec (.preemptSave tag b) s = .next { s with dev := d } ∧
        d.blocks = s.dev.blocks.map (fun x => if x.launch = tag ∧ x.index ∈ bs ∧ x.residency = .halting then
          { x with residency := if parked then .parked else .saved } else x) ∧
        (∀ g ∈ d.groups, g.key.launch = tag → g.key.block ∈ bs → g.place = none) ∧
        d.xsets = (gs.foldl (fun d g => d.dropX g true) s.dev).xsets ∧
        (∀ h, s.dev.group? h.key = some h → h.key.launch = tag → h.key.block ∈ bs →
          d.group? h.key = some { h with
            place := none, was := h.place, xsaved := s.dev.savedX h, xwait := if h.xsaved.isSome then h.xwait else none }) ∧
        d.groups.map (fun g => (g.key, g.lanes, g.gsr, g.q)) = s.dev.groups.map (fun g => (g.key, g.lanes, g.gsr, g.q)))) ∧
  (∀ (s : State) g, s.drained g = true ↔ g.pend = [] ∧ g.watch = [] ∧ (∀ a ∈ g.acc, s.vtWaits g.key.launch a = true ∨ a.isDue = true) ∧
    (∀ x ∈ g.lanes, ∀ h, x.hold = some h → ∀ n, h.kind ≠ .cuvee n ∧ h.kind ≠ .slot n ∧ h.kind ≠ .bist n) ∧
    ∀ c ∈ s.dev.clusters, ∀ e ∈ c.all, e.g ≠ g.key) ∧
  (∀ (d : Dev) (g : Group), (g.place = none → d.savedX g = g.xsaved) ∧
    ∀ p, g.place = some p → d.savedX g = if d.holdsX g = true then some (d.xsetAt p).words else g.xsaved) ∧
  (∀ (d : Dev) g sv p x, g.place = some p → d.xset? p = some x →
    let y := { x with queue := x.queue.filter fun e => decide (e.1 ≠ g.key) }
    d.dropX g sv = d.setXset (if x.holder = some g.key then
      (if sv = false ∧ d.xBusy g = true then { y with releasing := true } else { y with holder := none, releasing := false }) else y)) ∧
  (∀ (s : State) tag cl cores, (s.dev.launch? tag = none ∨ ∃ la, s.dev.launch? tag = some la ∧ s.dev.mayPlace la = false) →
    exec (.blockRestore tag cl cores) s = .next s) ∧
  (∀ (s : State) tag cl cores la, s.dev.launch? tag = some la → s.dev.mayPlace la = true → la.persistent = false →
    exec (.blockRestore tag cl cores) s = .next (match s.dev.nextGang la with
      | none => s
      | some u =>
        let mine := s.dev.unended tag (la.gangBlocks u)
        let bs := sortNat (mine.map Block.index)
        if u ≠ la.fresh ∧ bs ≠ [] ∧ (∀ x ∈ mine, x.residency = .saved ∧ x.byDebugger = false) ∧
            (la.resLimit = 0 ∨ s.dev.residents la.tag + bs.length ≤ la.resLimit) ∧ s.dev.coresFit la cl cores bs.length = true then
          s.did (restoreBlocks la (cl / 24) (bs.zip (cores.map fun k => 4 * (cl % 24) + k)))
        else s)) ∧
  (∀ (s : State) tag cl cores la, s.dev.launch? tag = some la → s.dev.mayPlace la = true → la.persistent = true →
    let gangs := s.dev.gangsLeft la
    exec (.blockRestore tag cl cores) s = .next (
      if gangs = [] ∨ (∃ x ∈ s.dev.unended tag gangs.flatten, x.residency ≠ .saved ∨ x.byDebugger = true) then s
      else match s.dev.findDie la gangs with
        | none => s.withDev fun d => { d with free := d.free + 1 }
        | some (die, xs) => (s.withDev fun d => { d with free := d.free + 1 }).did (restoreBlocks la die xs))) ∧
  (∀ (g : Group) p now c, let h := g.restored p now c
    h.key = g.key ∧ h.gsr = g.gsr ∧ h.q = g.q ∧ h.stall = g.stall ∧ h.place = some p ∧ h.lanes.length = g.lanes.length ∧ h.copying = c ∧
    h.xwait = some (g.xwait.getD ⟨0, now, none⟩) ∧ h.xsaved = g.xsaved ∧ h.acc = g.acc ∧ h.pend = g.pend ∧ h.counted = g.counted ∧
    (g.run ≠ .halting → h.run = g.run) ∧ (g.run = .halting → h.run = .running) ∧
    ∀ m, (h.lane m).starve = (g.lane m).starve ∧ (h.lane m).v = (g.lane m).v ∧ (h.lane m).m = (g.lane m).m ∧ (h.lane m).pw = (g.lane m).pw ∧ (h.lane m).mode = (g.lane m).mode ∧
      (h.lane m).ssp = (g.lane m).ssp ∧ (h.lane m).pending = (g.lane m).pending) ∧
  (∀ (s : State) tag b die core, let t := s.did (restoreBlock tag b die core)
    t.pad = s.pad ∧ t.main = s.main ∧ t.blk = s.blk ∧ t.stk = s.stk ∧
    ∀ x, s.dev.block? tag b = some x → ∃ y, t.dev.block? tag b = some y ∧ y.residency = .resident ∧ y.cluster = some (die, core / 4) ∧ y.core = core ∧
      y.quantum = 0 ∧ y.tiles = x.tiles ∧ y.bars = x.bars ∧ y.races = x.races) ∧
  (∀ (s : State) tag b die core x old, let t := s.did (restoreBlock tag b die core)
    s.dev.block? tag b = some x → (x.copyFrom = some old ∨ x.copyFrom = none ∧ x.cluster = some old) → old ≠ (die, core / 4) →
    let now := (s.dev.copySlots (s.dev.jobFor ⟨tag, b, 0⟩) old (die, core / 4)).isSome
    (∃ y, t.dev.block? tag b = some y ∧ y.copyFrom = if now then none else some old) ∧
    ∀ n g, t.dev.group? ⟨tag, b, n⟩ = some g → g.run ≠ .ended → g.copying = !now) ∧
  (∀ (d : Dev) job c, d.copySlots job c c = some d) ∧
  (∀ (d : Dev) job old new, old ≠ new →
    let xs := (d.cluster old.1 old.2).slots.filter fun x => decide (d.slotOwner x.n = some job) && decide (x.state ≠ .empty)
    d.copySlots job old new = if ∃ x ∈ xs, (d.cluster new.1 new.2).unnamed x.n = false then none
      else some (d.setCluster (xs.foldl Cluster.setSlot (d.cluster new.1 new.2)))) ∧
  (∀ (s : State) g n m, let x := s.passLane g n m
    x.pc = (g.lane m).pc ∧ x.v = (g.lane m).v ∧ x.m = (g.lane m).m ∧ x.pw = (g.lane m).pw ∧ x.hold = (g.lane m).hold.map (s.dev.passHold g n m) ∧
    x.starve = if g.counts = false ∨ g.xsaved.isSome = true ∨ g.copying = true then (g.lane m).starve
      else if s.cellWait g m = true then (g.lane m).starve + n else 0)

/-! ### The end of a job -/

/-- R183, R331, R332, R382: a job that a fault or the host has ended halts at once: its groups, launches and operations are discarded, its cuvée slots
unowned, its watchpoints disarmed, and every record that has not completed gets an entry with the code; the job goes once its fault records and
its entries are written. The next fault record, the earliest by time and then by die, core and slot, is written, with what follows it, once the ring has
room; of those that end the job the first that is written alone has FLAGS bit 2.
What the spec leaves open in it is the model's reading: logs 24, 28, 39, 51. -/
def Obligations.JobEnds : Prop :=
  (∀ (s : State) job, (s.dev.job? job = none ∨ ∃ j, s.dev.job? job = some j ∧ j.ending = none) → exec (.jobTerminate job) s = .next s) ∧
  (∀ (s : State) job j, s.dev.job? job = some j → j.ending ≠ none → j.closing = false →
    exec (.jobTerminate job) s = .next (((s.did (tellMembers job)).did (Part.mod fun d => d.endJob j)).did
      (Part.each ((s.dev.heldReqs.filter fun h => decide (h.req.job = job)).map HeldRequest.req) fun r => reply r [0x31, 2]))) ∧
  (∀ (s : State) job j, s.dev.job? job = some j → j.ending ≠ none → j.closing = true →
    exec (.jobTerminate job) s = .next (
      if j.records ≠ [] ∨ (∃ q ∈ s.dev.queues, q.job = job ∧ q.due ≠ []) then s
      else s.withDev fun d => { d with
        jobs := d.jobs.filter fun x => decide (x.id ≠ job)
        queues := d.queues.filter fun q => decide (q.job ≠ job)
        ended := upsert (fun e => decide (e.id = job)) ⟨job, j.code⟩ d.ended })) ∧
  (∀ (d : Dev) (j : Job), d.job? j.id = some j → let e := d.endJob j
    (∀ l ∈ e.launches, l.job ≠ j.id) ∧ (∀ p ∈ e.ops, p.job ≠ j.id ∧ p ∈ d.ops) ∧ (∀ x ∈ e.cuvOwner, x.2 ≠ j.id) ∧ (∀ x ∈ e.tlb, x.job ≠ j.id) ∧
    (∀ g ∈ e.groups, g ∈ d.groups ∧ ∀ l ∈ d.launches, l.job = j.id → g.key.launch ≠ l.tag) ∧
    (∀ g ∈ d.groups, (∀ l ∈ d.launches, l.job = j.id → g.key.launch ≠ l.tag) → g ∈ e.groups) ∧
    (∀ c ∈ e.clusters, ∀ x ∈ c.all, x.job ≠ j.id) ∧
    (∀ x, e.dump = some x → x.job ≠ j.id) ∧
    (∀ x, d.dump = some x → x.job = j.id → x.complete = false → (x.did, x.job) ∈ e.abandoned) ∧ (∀ x ∈ d.abandoned, x ∈ e.abandoned) ∧
    e.ended = d.ended ∧
    e.job? j.id = some { j with closing := true } ∧ e.time = d.time ∧ e.cycles = d.cycles) ∧
  (∀ (q : Queue) code, q.num ≠ devQueue → let r := q.cut code
    r.slot = none ∧ r.started = [] ∧ r.head = q.head ∧ r.due = ((countFrom 1 q.tail).filter fun n => !q.done.contains n).map fun n => ⟨n, code, 0, []⟩) ∧
  (∀ (r : Regs) job n, n < 32 → cellsWf r.wpctl = true → (cellGet r.wpctl n).toNat / 2 ^ 32 = job → (cellGet (r.disarm job).wpctl n).toNat % 2 = 0) ∧
  (∀ (s : State) job, (s.dev.job? job = none ∨ ∃ j, s.dev.job? job = some j ∧ j.records = []) → exec (.faultRecordWrite job) s = .next s) ∧
  (∀ (s : State) job j r rest, s.dev.job? job = some j → nextRecord j.records = some (r, rest) →
    exec (.faultRecordWrite job) s = .next (
      if j.fbsz < j.fbprod - j.fbcons + r.data.length / 64 ∨ s.dev.time ≤ r.time ∨
          (∃ x ∈ s.dev.reports, x.job = job ∧ (x.time < r.time ∨ x.time = r.time ∧ x.die * 2 ^ 12 < r.order)) then s
      else (s.did fun _ => j.bufferStores (r.bytes j.flagged)).withDev fun d =>
        d.setJob { j with records := rest, fbprod := j.fbprod + r.data.length / 64, flagged := j.flagged || r.ends })) ∧
  (∀ r : FaultRec, r.bytes false = r.data ∧ (r.ends = false → r.bytes true = r.data) ∧
    (r.ends = true → ∀ k, (r.bytes true)[k]? = if k = 1 then (r.data[1]?).map (· &&& 0xFB) else r.data[k]?)) ∧
  (∀ xs r rest, nextRecord xs = some (r, rest) → (r :: rest).Perm xs ∧
    ∀ x ∈ rest, r.time < x.time ∨ r.time = x.time ∧ r.order ≤ x.order) ∧
  (∀ (s : State) (j : Job) bs n, s.host.wf = true → bs.length = 64 → j.fbuf + 64 * (j.fbprod % j.fbsz) = n → ∀ k v, bs[k]? = some v →
    cellGet (s.did fun _ => j.bufferStores bs).host (n + k) = v)

/-! ### Records of queues -/

/-- R333, R336, R337, R339, R343, R393: the next record of a queue starts only where its job goes on, its queue holds a slot, no dump holds the job
and its turn has come. A reserved KIND, a field out of range and a dependence that names no earlier record end the job with ILLEGAL_OPERAND; a
dependence that has not completed waits. A marker completes at once; an invalidation and a migration start.
What the spec leaves open in it is the model's reading: logs 16, 17, 26, 27, 41. -/
def Obligations.RecordsStart : Prop :=
  (∀ (s : State) job n, ((∀ j q, s.dev.job? job = some j → s.dev.queue? job n = some q →
      j.ending ≠ none ∨ q.slot = none ∨ s.dev.dumpHolds job = true ∨ s.nextRec j q = none ∨ ∃ r, s.nextRec j q = some r ∧ r.turn q = false)) →
    ∀ i ∈ [Instr.launchRecord job n, .migrateRecord job n, .invalidateRecord job n, .markerRecord job n], exec i s = .next s) ∧
  (∀ (s : State) job n j q r, s.dev.job? job = some j → s.dev.queue? job n = some q → j.ending = none → q.slot ≠ none →
    s.dev.dumpHolds job = false → s.nextRec j q = some r → r.turn q = true →
    let kind := fieldAt r.raw 0 1
    let dep := fieldAt r.raw 0x18 8
    let no := fun off => s.did (refuse job r.grid r.faddr .illegalOperand 0 off)
    let s1 := s.did (noteTranslation job r.faddr false)
    -- the checks of a record of KIND 2 to 4, in the order of their fields
    let gate := fun (fs gs : List (Nat × Bool)) (go : State) =>
      match badField (fs ++ [(0x18, s.dev.depBad q r dep)] ++ gs) with
      | some off => no off
      | none => if s.dev.depMet q dep = true then go else s
    (kind = 0 ∨ 4 < kind → ∀ i ∈ [Instr.launchRecord job n, .migrateRecord job n, .invalidateRecord job n, .markerRecord job n],
      exec i s = .next (no 0)) ∧
    (1 ≤ kind → kind ≤ 4 → ∀ e ∈ [(1, Instr.launchRecord job n), (2, .migrateRecord job n), (3, .invalidateRecord job n), (4, .markerRecord job n)],
      e.1 ≠ kind → exec e.2 s = .next s) ∧
    (kind = 4 → exec (.markerRecord job n) s = .next (gate (zeroBytes r.raw 1 7 ++
        [(0x08, decide (fieldAt r.raw 8 8 ≠ 0)), (0x10, decide (fieldAt r.raw 0x10 8 ≠ 0))])
      ((0x20, decide (fieldAt r.raw 0x20 4 ≠ 0)) :: zeroBytes r.raw 0x24 0x1C)
      (s1.withDev fun d => (d.startRec q r).addDue job n ⟨r.seq, 0, 0, []⟩))) ∧
    (kind = 3 → exec (.invalidateRecord job n) s = .next (gate (zeroBytes r.raw 1 7 ++
        [(0x08, decide (fieldAt r.raw 8 8 % 4096 ≠ 0)), (0x10, decide (fieldAt r.raw 0x10 8 % 4096 ≠ 0 ∨ fieldAt r.raw 0x10 8 = 0))])
      ((0x20, decide (fieldAt r.raw 0x20 4 ≠ 0)) :: zeroBytes r.raw 0x24 0x1C) (s1.withDev fun d => d.startRec q r))) ∧
    (kind = 2 → exec (.migrateRecord job n) s = .next (gate ((migRecFields r.raw).filter fun f => decide (f.1 < 0x18))
        ((migRecFields r.raw).filter fun f => decide (0x18 < f.1))
      (match s1.dev.logIndex s1.dev.anyDie with
        | none => s1.withDev fun d => { d with free := d.free + 1 }
        | some k =>
          let p := recordMig s1.dev job s1.dev.anyDie k r.raw
          (s1.withDev fun d => { d.startRec q r with free := d.free + 1, recordOps := d.recordOps ++ [⟨p.id, n, r.seq⟩] }).did (acceptOp p))))) ∧
  (∀ fs : List (Nat × Bool), (badField fs = none ↔ ∀ f ∈ fs, f.2 = false) ∧
    ∀ off, badField fs = some off → ∃ as bs, fs = as ++ (off, true) :: bs ∧ ∀ f ∈ as, f.2 = false) ∧
  (∀ bs : List Byte, (∀ f ∈ migRecFields bs, f.2 = false) ↔
    (∀ k, 1 ≤ k → k < 8 → fieldAt bs k 1 = 0) ∧ (∀ k, 0x24 ≤ k → k < 0x40 → fieldAt bs k 1 = 0) ∧ fieldAt bs 8 8 < 2 ^ 57 ∧
    1 ≤ fieldAt bs 0x10 8 ∧ fieldAt bs 0x10 8 ≤ 2 ^ 20 ∧ fieldAt bs 0x20 4 < 2 ^ 7 ∧ (targetOf (fieldAt bs 0x20 4)).1 ≠ 3 ∧
    frameRange (targetOf (fieldAt bs 0x20 4)).1 (targetOf (fieldAt bs 0x20 4)).2.1 (targetOf (fieldAt bs 0x20 4)).2.2 ≠ none) ∧
  (∀ (s : State) job grid faddr item aux j code, s.dev.job? job = some j → j.ending = none → j.recordsMade < 16 →
    let t := s.did (refuse job grid faddr code item aux)
    t.pad = s.pad ∧ t.main = s.main ∧ t.blk = s.blk ∧ t.dev.groups = s.dev.groups ∧ t.dev.launches = s.dev.launches ∧
    ∃ x, t.dev.job? job = some x ∧ x.ending = some s.dev.time ∧ x.code = code.num ∧
      x.records = j.records ++ [⟨rawRecord code.num 4 0 job grid 0xFFFFFFFF 0xFF 0 0 0 faddr item aux (s.dev.timeFor job s.dev.time), s.dev.time, 0⟩]) ∧
  (∀ (d : Dev) (q : Queue) (r : NextRec), d.queue? q.job q.num = some q → r.child = none →
    ∃ y, (d.startRec q r).queue? q.job q.num = some y ∧ y.head = q.head + 1 ∧ y.started = q.started ++ [⟨r.seq, r.raw⟩] ∧ y.due = q.due ∧ y.done = q.done)

/-- R56, R57, R58, R242, R247, R303, R338: a launch record starts where its record, its image's header and tables and its job's reservations
pass the checks, in this order; the first that fails ends the job. The launch then stands under its tag, with its grid, its seed and its code.
What the spec leaves open in it is the model's reading: logs 16, 27. -/
def Obligations.LaunchesStart : Prop :=
  (∀ (s : State) job n j q r, s.dev.job? job = some j → s.dev.queue? job n = some q → j.ending = none → q.slot ≠ none →
    s.dev.dumpHolds job = false → s.nextRec j q = some r → r.turn q = true → fieldAt r.raw 0 1 = 1 →
    let dep := fieldAt r.raw 0x34 8
    let s1 := s.did (noteTranslation job r.faddr false)
    let no := fun (s : State) (x : Refused) => s.did (refuse job r.grid r.faddr x.1 x.2.1 x.2.2)
    let va := fieldAt r.raw 8 8
    let h := s1.vaBytes j none va 128
    exec (.launchRecord job n) s = .next (
      match badField ((launchFields r.raw).take 11 ++ [(0x34, s.dev.depBad q r dep)] ++ (launchFields r.raw).drop 11) with
      | some off => no s (.illegalOperand, 0, off)
      | none =>
        if s.dev.depMet q dep = false then s
        else if (s1.firstBad j false [va]).isSome then s1
        else match badField (headerFields h) with
          | some off => no s1 (.illegalOperand, 1, off)
          | none =>
            if fieldAt r.raw 0x28 1 % 4 ≠ fieldAt h 6 1 ∨ fieldAt r.raw 0x28 1 / 16 + 1 ≠ fieldAt h 0xD 1 then no s1 (.illegalOperand, 0, 0x28)
            else match s1.readImage j va h, s1.dev.nextTag with
              | some (i, pages), some tag =>
                (match i.bad j with
                | some x => no s1 x
                | none =>
                  let la := newLaunch tag job s1.dev.time q r i
                  match s1.dev.launchRefused j la with
                  | some x => no s1 x
                  | none => (s1.did (Part.each (va :: pages) fun a => noteTranslation job a false)).did (beginLaunch q r la))
              | _, _ => s1)) ∧
  (∀ bs : List Byte, let f := fieldAt bs
    let nb := f 0x20 4 * f 0x24 2 * f 0x26 2
    (∀ e ∈ launchFields bs, e.2 = false) ↔
      f 1 1 / 2 ^ 7 % 2 = 0 ∧ f 2 1 ≤ 32 ∧ 1 ≤ f 3 1 ∧ f 3 1 ≤ 4 ∧ f 8 8 % 4096 = 0 ∧ f 0x10 8 < 2 ^ 57 ∧ 1 ≤ f 0x20 4 ∧ 1 ≤ f 0x24 2 ∧
      1 ≤ f 0x26 2 ∧ nb ≤ 2 ^ 32 - 1 ∧ nb % f 3 1 = 0 ∧ f 0x28 1 / 4 % 4 = 0 ∧ f 0x29 1 = 0 ∧ (f 1 1 / 2 ^ 2 % 2 = 1 → 1000 ≤ f 0x30 4) ∧ f 0x3C 4 = 0) ∧
  (∀ h : List Byte, let f := fieldAt h
    (∀ e ∈ headerFields h, e.2 = false) ↔
      f 0 4 = 0x4A524B4E ∧ f 4 2 = 1 ∧ f 6 1 ≤ 3 ∧ f 7 1 ≤ 16 ∧ f 8 4 % 256 = 0 ∧ f 8 4 ≤ 262144 ∧ f 0xC 1 ≤ 1 ∧ 1 ≤ f 0xD 1 ∧ f 0xD 1 ≤ 16 ∧
      f 0xE 2 % 8 = 0 ∧ f 0x10 4 % 16 = 0 ∧ 0x80 ≤ f 0x10 4 ∧ f 0x14 4 % 16 = 0 ∧ 16 ≤ f 0x14 4 ∧ f 0x10 4 / 16 ≤ f 0x18 4 ∧
      f 0x18 4 < (f 0x10 4 + f 0x14 4) / 16 ∧ f 0x1C 4 % 32 = 0 ∧ f 0x20 4 ≠ 0 ∧ f 0x30 1 ≤ 8 ∧ f 0x31 1 ≤ 15 ∧ f 0x32 2 = 0 ∧ f 0x40 64 = 0) ∧
  (∀ (d : Dev) (j : Job) (la : Launch), d.launchRefused j la = (
      if fieldAt j.desc 0x20 4 < natSum ((d.launches.filter fun l => decide (l.job = j.id)).map Launch.cellHeld) + la.cellHeld then some (.access, 4, 0)
      else if fieldAt j.desc 0x28 4 < natSum ((d.launches.filter fun l => decide (l.job = j.id)).map Launch.saveHeld) + la.saveHeld then
        some (.access, 5, 0)
      else if 16 < la.groups ∨ 262144 < la.blkMem ∨ 32 < la.acct ∨ 4 < la.gang ∨ (la.persistent = true ∧ d.findDie la la.gangs = none) then
        some (.illegalOperand, 6, 0)
      else none)) ∧
  (∀ (d : Dev) tag, d.nextTag = some tag → tag < 2 ^ 16 ∧ d.launch? tag = none ∧
    ∀ t, t < (tag + 2 ^ 16 - d.tagCounter % 2 ^ 16) % 2 ^ 16 → d.launch? ((d.tagCounter + t) % 2 ^ 16) ≠ none) ∧
  (∀ tag job now (q : Queue) (r : NextRec) (i : Image), let la := newLaunch tag job now q r i
    la.tag = tag ∧ la.id = BitVec.ofNat 64 r.grid ∧ la.nblocks = fieldAt r.raw 0x20 4 * fieldAt r.raw 0x24 2 * fieldAt r.raw 0x26 2 ∧
    la.det = bitAt (fieldAt r.raw 1 1) 0 ∧ la.image = fieldAt r.raw 8 8 ∧ la.param = fieldAt r.raw 0x10 8 ∧ la.seed = BitVec.ofNat 64 (fieldAt r.raw 0x18 8) ∧
    la.groups = fieldAt i.head 0xD 1 ∧ la.width = fieldAt i.head 6 1 ∧ la.entry = fieldAt i.head 0x18 4 ∧
    la.gridBar.exp = la.nblocks * la.groups ∧ la.gp = 0 ∧ la.digest = [] ∧
    la.knows = (match r.child with | some c => c.knows | none => [])) ∧
  (∀ (s : State) (q : Queue) (r : NextRec) (la : Launch), la.persistent = false → r.child = none → s.dev.launch? la.tag = none →
    let t := s.did (beginLaunch q r la)
    t.pad = s.pad ∧ t.main = s.main ∧ t.blk = s.blk ∧ t.stk = s.stk ∧ t.dev.groups = s.dev.groups ∧ t.dev.blocks = s.dev.blocks ∧
    t.dev.launches = s.dev.launches ++ [{ la with fresh := 0 }] ∧ t.dev.tagCounter = (la.tag + 1) % 2 ^ 16 ∧
    (∀ x ∈ t.dev.padRaces, x.ls ≠ la.tag))

/-- R183, R246, R281, R294, R318, R335, R336, R340, R343: a launch is over once all its blocks have ended and nothing of it is left to do: it leaves
with all that it owned, and its entry is due, with the digest under DET, or its object receives its arrival. An invalidation completes once no
translation of its range is left. An entry is written where the ring has room and its page translates.
R341, R342, R344: a free slot goes to the ready queue of the highest PRIO, then to the one that has waited longest, the lower job and the lower
number. Where none is free, one held for the package slice goes to that queue, and the resident blocks of the queue that loses it are
pre-empted.
What the spec leaves open in it is the model's reading: logs 16, 66. -/
def Obligations.RecordsAndSlots : Prop :=
  (
  (∀ (s : State) tag, (s.dev.launch? tag = none ∨ ∃ la, s.dev.launch? tag = some la ∧
      ((∀ j, s.dev.job? la.job = some j → j.ending ≠ none) ∨ s.dev.launchOver la = false)) → exec (.launchComplete tag) s = .next s) ∧
  (∀ (s : State) tag la j, s.dev.launch? tag = some la → s.dev.job? la.job = some j → j.ending = none → s.dev.launchOver la = true →
    let s1 := s.did (traceRec la.job s.dev.anyDie 2 0 la.id.toNat)
    let gone := fun d : Dev => { d.dropLaunch la.tag with free := d.free + 1 }
    (∀ job q seq, la.origin = .queue job q seq → exec (.launchComplete tag) s = .next
      (s1.withDev fun d => (gone d).addDue job q ⟨seq, 0, 0, if la.det = true then sha512 la.digest else []⟩)) ∧
    (∀ p o, la.origin = .child p o → exec (.launchComplete tag) s = .next
      ((match o with | some o => s1.did (childArrive la o) | none => s1).withDev fun d =>
        ((gone d).modQueue la.job devQueue fun q => { q with
          started := q.started.filter fun e => decide (e.seq ≠ la.id.toNat % 2 ^ 48)
          done := q.done ++ [la.id.toNat % 2 ^ 48] }).settleQueue la.job devQueue))) ∧
  (∀ (s : State) (la : Launch) (o : ObjRef),
    let hits := s.dev.watchHits la.job false padHome fun a =>
      decide (o.store = .pad) && decide (o.addr + 4 ≤ a) && decide (a < o.addr + (if s.completes o 1 = true then 16 else 8))
    ∃ who, s.did (childArrive la o) = (s.did (watchReport hits 1 who 1000 la.job s.dev.time none)).did
      (objArriveN (engineRelease (((s.dev.groups.filter fun g => decide (g.key.launch = la.tag)).flatMap Group.knows ++ la.knows).eraseDups)) o 1)) ∧
  (∀ (d : Dev) (la : Launch), d.launchOver la = true ↔
    la.ended = la.nblocks ∧ (∀ p ∈ d.ops, p.launch ≠ la.tag) ∧ (∀ w ∈ d.staged, w.launch ≠ la.tag) ∧
    (∀ c ∈ d.clusters, ∀ e ∈ c.all, e.g.launch ≠ la.tag) ∧ ∀ g ∈ d.groups, g.key.launch = la.tag → g.acc = []) ∧
  (∀ (d : Dev) tag, let e := d.dropLaunch tag
    e.groups = d.groups.filter (fun g => decide (g.key.launch ≠ tag)) ∧ e.blocks = d.blocks.filter (fun b => decide (b.launch ≠ tag)) ∧
    (∀ l ∈ e.launches, l.tag ≠ tag) ∧ (∀ v ∈ e.vintages, v.launch ≠ tag) ∧ (∀ c ∈ e.dataCells, c.launch ≠ tag) ∧ (∀ x ∈ e.mergeRecs, x.launch ≠ tag) ∧
    (∀ x ∈ e.xsets, (∀ k, x.holder = some k → k.launch ≠ tag) ∧ ∀ y ∈ x.queue, y.1.launch ≠ tag) ∧ e.jobs = d.jobs ∧ e.ops = d.ops ∧
    e.launches.length = (d.launches.filter fun l => decide (l.tag ≠ tag)).length) ∧
  (∀ (s : State) job n seq, (s.dev.queue? job n = none ∨ ∃ q, s.dev.queue? job n = some q ∧ ∀ e ∈ q.started, e.seq ≠ seq) →
    exec (.invalidateComplete job n seq) s = .next s) ∧
  (∀ (s : State) job n seq q e, s.dev.queue? job n = some q → (q.started.find? fun e => decide (e.seq = seq)) = some e →
    let va := fieldAt e.raw 8 8
    let len := fieldAt e.raw 0x10 8
    exec (.invalidateComplete job n seq) s = .next (
      if fieldAt e.raw 0 1 ≠ 3 ∨ (∃ x ∈ q.due, x.seq = seq) ∨
          (∃ w ∈ s.dev.staged, s.dev.jobFor w.g = job ∧ ∃ r ∈ w.runs, r.1 < va + len ∧ va < r.1 + r.2.2.length) then s
      else s.withDev fun d => (d.dropTranslations job va len).addDue job n ⟨seq, 0, 0, []⟩)) ∧
  (∀ (d : Dev) job va n, let e := d.dropTranslations job va n
    (∀ t ∈ e.tlb, t ∈ d.tlb ∧ (t.job = job → (t.page + 1) * pageSize t.level ≤ va ∨ va + n ≤ t.page * pageSize t.level)) ∧
    (∀ t ∈ d.tlb, t.job ≠ job → t ∈ e.tlb) ∧
    ∀ g ∈ e.groups, d.jobFor g.key = job → ∀ x ∈ g.lanes, ∀ p, x.lastPage = some p → (p.page + 1) * pageSize p.level ≤ va ∨ va + n ≤ p.page * pageSize p.level) ∧
  (∀ (s : State) job n, (s.dev.job? job = none ∨ s.dev.queue? job n = none ∨ ∃ q, s.dev.queue? job n = some q ∧ q.due = []) →
    exec (.completionEntryWrite job n) s = .next s) ∧
  (∀ (s : State) job n j q e rest, s.dev.job? job = some j → s.dev.queue? job n = some q → q.due = e :: rest →
    exec (.completionEntryWrite job n) s = .next (
      if q.csize ≤ q.cprod - q.ccons ∨ s.dev.dumpHolds job = true then s
      else
        let va := q.cring + 128 * (q.cprod % q.csize)
        match s.translate j va true with
        | .ok pa _ =>
          ((s.did (noteTranslation job va true)).did fun t => (entryBytes t.dev q e).zipIdx.map fun b => paStore (pa + b.2) b.1).withDev fun d =>
            (d.setQueue { q with
              due := rest
              cprod := q.cprod + 1
              started := q.started.filter fun x => decide (x.seq ≠ e.seq)
              done := q.done ++ [e.seq] }).settleQueue job n
        | _ => s)) ∧
  (∀ (d : Dev) (q : Queue) (e : Completion), (e.digest = [] ∨ e.digest.length = 64) → let bs := entryBytes d q e
    bs.length = 128 ∧ leNat (bs.take 8) = (q.num * 2 ^ 48 + e.seq) % 2 ^ 64 ∧ leNat ((bs.drop 8).take 4) = e.status % 2 ^ 32 ∧
    leNat ((bs.drop 12).take 4) = e.detail % 2 ^ 32 ∧ leNat ((bs.drop 16).take 8) = d.timeFor q.job d.time % 2 ^ 64 ∧
    (e.digest.length = 64 → (bs.drop 32).take 64 = e.digest) ∧ ∀ b ∈ bs.drop 96, b = 0)) ∧
  (
  (∀ (s : State), exec .slotGrant s = .next (match s.dev.slotFree, s.dev.slotNext with
    | some k, some q => s.withDev fun d => d.giveSlot q k
    | _, _ => s)) ∧
  (∀ (d : Dev), (d.slotFree = none ↔ ∀ k, k < 64 → ∃ q ∈ d.queues, q.slot = some k) ∧
    ∀ k, d.slotFree = some k → k < 64 ∧ ∀ q ∈ d.queues, q.slot ≠ some k) ∧
  (∀ (d : Dev) q, d.slotNext = some q →
    (q ∈ d.queues ∧ q.ready = true ∧ q.slot = none ∧ ∃ j, d.job? q.job = some j ∧ j.ending = none) ∧
    ∀ x ∈ d.queues, x.ready = true → x.slot = none → (∃ j, d.job? x.job = some j ∧ j.ending = none) →
      d.prio x < d.prio q ∨ d.prio x = d.prio q ∧ (q.since < x.since ∨ q.since = x.since ∧
        (q.job < x.job ∨ q.job = x.job ∧ q.num ≤ x.num))) ∧
  (∀ (d : Dev), d.slotNext = none ↔ ∀ x ∈ d.queues, x.ready = true → x.slot = none → ∀ j, d.job? x.job = some j → j.ending ≠ none) ∧
  (∀ (d : Dev) (q : Queue) k, d.queue? q.job q.num = some q → (d.giveSlot q k).queue? q.job q.num = some { q with slot := some k, since := d.time }) ∧
  (∀ (s : State) slot, (s.dev.slotNext = none ∨ ∀ q ∈ s.dev.queues, q.slot ≠ some slot) → exec (.packageSliceExpiry slot) s = .next s) ∧
  (∀ (s : State) slot q x, (s.dev.queues.find? fun q => decide (q.slot = some slot)) = some q → s.dev.slotNext = some x →
    exec (.packageSliceExpiry slot) s = .next (
      if s.dev.slotFree ≠ none ∨ s.dev.time < q.since + 1000 * (if s.dev.regs.sl = 0 then 10000 else s.dev.regs.sl.toNat) then s
      else s.withDev fun d => ((d.haltQueue q).setQueue { q with slot := none, since := d.time }).giveSlot x slot)))

/-! ### The host -/

/-- R237, R329, R330, R332: JOBADD registers a job whose descriptor keeps every range: its pad units are zeroed and granted. Else it reads back with
the offset of the first field that breaks one and nothing is granted. A live job may be granted more units by a descriptor that differs in
nothing else. JOBDEL ends a job with 0xFE and its fault buffer receives nothing more.
R334, R335, R337: QADD reads its descriptor once, and registers a queue or reads back with the offset of the first field that breaks a range. QDEL
completes the records that have not started with 0xFD; the queue leaves once nothing of it is left. A tail that is lower or beyond the ring is
ignored.
What the spec leaves open in it is the model's reading: logs 39, 40. -/
def Obligations.JobAndQueueRegisters : Prop :=
  (
  (∀ (s : State) (a : Dword), let bs := bytesAt s.host a.toNat 128
    s.dev.job? (fieldAt bs 0 4) = none → exec (.jobAdd a) s = .next (match badField (s.dev.jobFields bs) with
      | some off => s.withDev fun d => { d with regs := { d.regs with jobadd := BitVec.ofNat 64 (2 + 2 ^ 8 * off) } }
      | none => (s.did fun _ => (padUnits bs).map fun u => .clear .pad (u * 2 ^ 21) (2 ^ 21)).withDev fun d => { d with
          jobs := d.jobs ++ [newJob bs]
          ended := d.ended.filter fun e => decide (e.id ≠ fieldAt bs 0 4)
          regs := { d.regs with jobadd := 1 } })) ∧
  (∀ (s : State) (a : Dword) j, let bs := bytesAt s.host a.toNat 128
    s.dev.job? (fieldAt bs 0 4) = some j → exec (.jobAdd a) s = .next (
      match if j.closing = true then some 0 else badField (s.dev.moreFields j bs) with
      | some off => s.withDev fun d => { d with regs := { d.regs with jobadd := BitVec.ofNat 64 (2 + 2 ^ 8 * off) } }
      | none => (s.did fun _ => ((padUnits bs).filter fun u => !j.grants.contains u).map fun u => .clear .pad (u * 2 ^ 21) (2 ^ 21)).withDev fun d =>
          { d.setJob { j with grants := padUnits bs } with regs := { d.regs with jobadd := 1 } })) ∧
  (∀ (s : State) (us : List Nat), s.pad.wf = true → let t := s.did fun _ => us.map fun u => .clear .pad (u * 2 ^ 21) (2 ^ 21)
    (∀ a, cellGet t.pad a = if a / 2 ^ 21 ∈ us then 0 else cellGet s.pad a) ∧ t.dev = s.dev ∧ t.main = s.main ∧ t.blk = s.blk) ∧
  (∀ (d : Dev) bs, let f := fieldAt bs
    let us := padUnits bs
    let inside := fun base n => n = 0 ∨ ∀ u, base / 2 ^ 21 ≤ u → u ≤ (base + n - 1) / 2 ^ 21 → u ∈ us
    (∀ e ∈ d.jobFields bs, e.2 = false) ↔
      f 0 4 ≠ 0 ∧ f 4 4 < 2 ^ 7 ∧ f 8 8 % 4096 = 0 ∧ f 0x10 8 % 4096 = 0 ∧ (∃ k, 6 ≤ k ∧ k ≤ 20 ∧ f 0x18 4 = 2 ^ k) ∧
      inside (f 0x1C 4) (64 * f 0x20 4) ∧ inside (f 0x24 4) (f 0x28 4) ∧
      (f 0x20 4 = 0 ∨ f 0x28 4 = 0 ∨ f 0x24 4 + f 0x28 4 ≤ f 0x1C 4 ∨ f 0x1C 4 + 64 * f 0x20 4 ≤ f 0x24 4) ∧ f 0x2C 1 ≤ 3 ∧ f 0x2D 3 = 0 ∧
      (∀ j ∈ d.jobs, j.id ≠ f 0 4 → ∀ u ∈ j.grants, u ∉ us) ∧ f 0x54 44 = 0) ∧
  (∀ (d : Dev) (j : Job) bs,
    (∀ e ∈ d.moreFields j bs, e.2 = false) ↔
      (∀ e ∈ jobLayout, fieldAt bs e.1 e.2 = fieldAt j.desc e.1 e.2) ∧ (∀ u ∈ j.grants, u ∈ padUnits bs) ∧
      ∀ x ∈ d.jobs, x.id ≠ j.id → ∀ u ∈ x.grants, u ∉ padUnits bs) ∧
  (∀ bs u, u ∈ padUnits bs ↔ u < 288 ∧ fieldAt bs 0x30 36 / 2 ^ u % 2 = 1) ∧
  (∀ (s : State) job, s.dev.job? job = none → exec (.jobDel job) s = .next s) ∧
  (∀ (s : State) job j, s.dev.job? job = some j → exec (.jobDel job) s = .next (s.withDev fun d => d.setJob (
    if j.ending = none then { j with ending := some d.time, code := 0xFE, records := [] } else j)))) ∧
  (
  (∀ (s : State) (a : Dword), let bs := bytesAt s.host a.toNat 64
    exec (.qAdd a) s = .next (s.withDev fun d => match badField (s.dev.queueFields a.toNat bs) with
      | some off => { d with regs := { d.regs with qadd := BitVec.ofNat 64 (2 + 2 ^ 8 * off) } }
      | none => { d with regs := { d.regs with qadd := 1 }, queues := d.queues ++ [newQueue bs s.dev.time] })) ∧
  (∀ (d : Dev) a bs, let f := fieldAt bs
    (∀ e ∈ d.queueFields a bs, e.2 = false) ↔
      (∃ j, d.job? (f 0 4) = some j ∧ j.ending = none) ∧ a % 64 = 0 ∧ f 4 2 ≤ 65534 ∧ d.queue? (f 0 4) (f 4 2) = none ∧ f 6 2 = 0 ∧
      f 8 8 % 64 = 0 ∧ (∃ k, 4 ≤ k ∧ k ≤ 16 ∧ f 0x10 4 = 2 ^ k) ∧ (∃ k, 4 ≤ k ∧ k ≤ 16 ∧ f 0x14 4 = 2 ^ k) ∧ f 0x18 8 % 128 = 0 ∧
      f 0x20 2 ≤ 16383 ∧ (∀ q ∈ d.queues, q.num ≠ devQueue → q.page ≠ f 0x20 2) ∧ f 0x22 30 = 0) ∧
  (∀ bs now, let q := newQueue bs now
    q.job = fieldAt bs 0 4 ∧ q.num = fieldAt bs 4 2 ∧ q.ring = fieldAt bs 8 8 ∧ q.rsize = fieldAt bs 0x10 4 ∧ q.csize = fieldAt bs 0x14 4 ∧
    q.cring = fieldAt bs 0x18 8 ∧ q.page = fieldAt bs 0x20 2 ∧ q.tail = 0 ∧ q.head = 0 ∧ q.cprod = 0 ∧ q.ccons = 0 ∧ q.slot = none) ∧
  (∀ (s : State) job n, (n = devQueue ∨ s.dev.queue? job n = none) → exec (.qDel job n) s = .next s) ∧
  (∀ (s : State) job n q, n ≠ devQueue → s.dev.queue? job n = some q → q.removed = false →
    let r := { q with
      removed := true
      due := q.due ++ (countFrom (q.head + 1) (q.tail - q.head)).map fun k => ⟨k, 0xFD, 0, []⟩ }
    exec (.qDel job n) s = .next (s.withDev fun d =>
      if q.started = [] ∧ r.due = [] ∧ q.children = [] then
        { d.setQueue r with queues := (d.setQueue r).queues.filter fun x => !(decide (x.job = job) && decide (x.num = n)) }
      else d.setQueue r)) ∧
  (∀ (s : State) page (tail : Dword), exec (.doorbellTail page tail) s = .next (s.withDev fun d => { d with queues := d.queues.map fun q =>
      if q.num ≠ devQueue ∧ q.page = page ∧ q.removed = false ∧ q.tail ≤ tail.toNat ∧ tail.toNat ≤ q.head + q.rsize then
        { q with tail := tail.toNat, since := if q.ready = true then q.since else s.dev.time }
      else q })))

/-- R321, R322, R360, R367: a replay lets go the held entries of a job that the die's register names, and what waits for nothing else is performed; a
fail completes them with ACCESS and CAUSE 2, of a gather the lanes that are left; an index that is not held is ignored.
R373, R382, R383: the earliest imprecise report of a watchpoint of a die is written to its job's fault buffer; without a debugger attached it ends the
job with WATCH.
What the spec leaves open in it is the model's reading: log 32. -/
def Obligations.FaultControlAndReports : Prop :=
  (
  (∀ (s : State) die all idx job,
    exec (.faultReplay die all idx job) s = .next ((s.withDev fun d => { d with
      ops := (d.namedOps die all idx job).foldl (fun ops p => upsert (fun x => decide (x.id = p.id)) { p with held := none } ops) d.ops
      heldReqs := d.heldReqs.map fun h => if h.named die all idx job = true then { h with index := none } else h }).did serveHeld)) ∧
  (∀ (d : Dev) die all idx job p, p ∈ d.namedOps die all idx job ↔
    p ∈ d.ops ∧ p.held ≠ none ∧ p.die = die ∧ p.job = job ∧ (all = true ∨ p.index = idx)) ∧
  (∀ (s : State) die all idx job, (∀ p ∈ s.dev.ops, p.held ≠ none → p.die = die → p.job = job → all = false ∧ p.index ≠ idx) → s.dev.heldReqs = [] →
    exec (.faultReplay die all idx job) s = .next s ∧ exec (.faultFail die all idx job) s = .next s) ∧
  (∀ (s : State) die all idx job,
    exec (.faultFail die all idx job) s = .next
      (((s.withDev fun d => { d with heldReqs := d.heldReqs.filter fun h => !h.named die all idx job }).did
        (Part.each (s.dev.namedOps die all idx job) fun p => match p.kind with
          | .gat size => failLanes { p with held := none } size 0x31 2 (p.lanes.map GatLane.lane)
          | _ => failOp p 0x31 2 p.done (match p.held with | some h => h.va | none => 0))).did
        (Part.each (s.dev.heldReqs.filter fun h => h.named die all idx job) fun h => reply h.req [0x31, 2]))) ∧
  (∀ (h : HeldRequest) die all idx job, h.named die all idx job = true ↔
    h.req.link / 3 = die ∧ h.req.job = job ∧ ∃ k, h.index = some k ∧ (all = true ∨ k = idx)) ∧
  (∀ (s : State), let now := fun h : HeldRequest => h.index.isNone && !s.dev.dumpHolds h.req.job && !s.serveWaits h.req
    s.did serveHeld = (s.withDev fun d => { d with heldReqs := d.heldReqs.filter fun h => !now h }).did
      (Part.each (s.dev.heldReqs.filter now) fun h => serve h.req h.done none))) ∧
  (
  (∀ (s : State) k, (s.dev.reports[k]? = none ∨ ∃ r, s.dev.reports[k]? = some r ∧ ∃ x ∈ s.dev.reports, x.die = r.die ∧ x.time < r.time) →
    exec (.watchReport k) s = .next s) ∧
  (∀ (s : State) k r, s.dev.reports[k]? = some r → (∀ x ∈ s.dev.reports, x.die = r.die → r.time ≤ x.time) →
    ∃ d, exec (.watchReport k) s = .next { s with dev := d } ∧ d.reports = s.dev.reports.eraseIdx k ∧ d.groups = s.dev.groups ∧
      (s.dev.job? r.job = none → d.jobs = s.dev.jobs) ∧
      ∀ j, s.dev.job? r.job = some j → j.recordsMade < 16 → ∃ x, d.job? r.job = some x ∧
        (r.job = s.dev.regs.dbgJob.toNat → r.job ≠ 0 → x.ending = j.ending ∧
          (j.deleted = false → x.records = j.records ++ [⟨r.data, r.time, r.die * 2 ^ 12⟩])) ∧
        (r.job ≠ s.dev.regs.dbgJob.toNat → j.ending = none → x.ending = some s.dev.time ∧ x.code = 0x38 ∧
          x.records = j.records ++ [⟨r.data.set 1 (r.data.getD 1 0 ||| 4), r.time, r.die * 2 ^ 12⟩])))

/-! ### Trust and health -/

/-- R346, R347, R348, R351: the last word of EXTEND extends MR2 with SHA-512; a nonce is signed at once or waits its turn, and its report carries the
measurements, the time and the nonce, with the signature over them. A margin is written, clamped to −20 to 20, while no job has a resident block on
the die; PCAP is kept from 2,200 W to 2,800 W.
What the spec leaves open in it is the model's reading: logs 34, 36, 62. -/
def Obligations.TrustAndHealth : Prop :=
  (∀ (s : State) (w : Dword), let ws := cellSet s.dev.regs.extend 7 w
    exec (.extend w) s = .next (s.withDev fun d => { d with
      regs := { d.regs with extend := ws }
      trust := { d.trust with mr2 := sha512 (d.trust.mr2 ++ (countFrom 0 8).flatMap fun k => leBytes 8 (cellGet ws k).toNat) } })) ∧
  (∀ (s : State) n, exec (.nonce n) s = .next (s.withDev fun d => { d with trust :=
      if d.trust.signing = none then { d.trust with signing := some n, report := [] } else { d.trust with waiting := d.trust.waiting ++ [n] } })) ∧
  (∀ (s : State), s.dev.trust.signing = none → exec .reportSigned s = .next s) ∧
  (∀ (s : State) n, s.dev.trust.signing = some n →
    let head := reportHead s.dev.trust s.dev.time n
    exec .reportSigned s = .next (s.withDev fun d => { d with trust := { d.trust with
      signing := d.trust.waiting.head?
      waiting := d.trust.waiting.tail
      report := head ++ fitBytes 512 (Config.signature head) } })) ∧
  (∀ (t : Trust) now (n : BitVec 256), let bs := reportHead t now n
    bs.length = 0x180 ∧ leNat (bs.take 4) = 0x54414A4F ∧ leNat ((bs.drop 4).take 2) = 1 ∧ leNat ((bs.drop 0x18).take 8) = now % 2 ^ 64 ∧
    leNat ((bs.drop 0x20).take 32) = n.toNat ∧ (t.mr0.length = 64 → (bs.drop 0x40).take 64 = t.mr0) ∧
    (t.mr1.length = 64 → (bs.drop 0x80).take 64 = t.mr1) ∧ (t.mr2.length = 64 → (bs.drop 0xC0).take 64 = t.mr2)) ∧
  (∀ (s : State) die v, (8 ≤ die ∨ ∃ b ∈ s.dev.blocks, b.placed = true ∧ b.cluster.map Prod.fst = some die) →
    exec (.marginWrite die v) s = .next s) ∧
  (∀ (s : State) die (v : Dword), die < 8 → (∀ b ∈ s.dev.blocks, b.placed = true → b.cluster.map Prod.fst ≠ some die) → cellsWf s.dev.regs.margin = true →
    ∃ d, exec (.marginWrite die v) s = .next { s with dev := d } ∧
      let x := (cellGet s.dev.regs.margin die).toNat
      let y := (cellGet d.regs.margin die).toNat
      (BitVec.ofNat 8 y).toInt = max (-20) (min 20 (BitVec.ofNat 8 v.toNat).toInt) ∧ y / 2 ^ 8 % 2 ^ 18 = v.toNat / 2 ^ 8 % 2 ^ 18 ∧
      (∀ k, 26 ≤ k → k < 58 → (bitAt y k = true ↔ bitAt x k = true ∧ bitAt v.toNat k = false)) ∧
      (∀ e, e ≠ die → cellGet d.regs.margin e = cellGet s.dev.regs.margin e)) ∧
  (∀ (s : State) (v : Dword), ∃ d, exec (.pcapWrite v) s = .next { s with dev := d } ∧
    d.regs.pcap.toNat = max 2200 (min 2800 v.toNat) ∧ d.groups = s.dev.groups ∧ d.trust = s.dev.trust)

/-! ### Dumps and the debugger -/

/-- R54, R367 to R370: GO, or a first marker, starts a dump of a job that is live here: it waits until the job's groups have halted or DUMPW has passed, then
writes the package record and sends its markers, and DONE is set once every channel that is up has its marker or is lost. A package on which the
job is not live sends the markers and sets DONE. GO and other dumps' markers are ignored while a dump is under way. REL lets its groups go on, and what
it held is performed. A save holds each part that R303 gives a content; the marker of a dump that its job's end has abandoned starts none.
What the spec leaves open in it is the model's reading: logs 15, 32. -/
def Obligations.Dumps : Prop :=
  (∀ (s : State) v, s.dev.dump ≠ none → exec (.dumpGo v) s = .next s) ∧
  (∀ (s : State) (v : Dword), s.dev.dump = none →
    let did := v.toNat % 2 ^ 16
    let job := v.toNat / 2 ^ 32
    exec (.dumpGo v) s = .next ((s.withDev fun d => { d with abandoned := d.abandoned.filter fun e => decide (e ≠ (did, job)) }).did
      (dumpStart did job []))) ∧
  (∀ (s : State) did job marked, s.did (dumpStart did job marked) = (
    if ∃ j, s.dev.job? job = some j ∧ j.ending = none then
      (s.withDev fun d => { d with
        regs := { d.regs with dumpctl := dumpWord did job false false }
        dump := some ⟨did, job, d.time, none, marked, [], [], false, 0, 0, false⟩ }).did dumpGoesOn
    else s.withDev fun d => ({ d with regs := { d.regs with dumpctl := dumpWord did job true false } }.sendMarkers did job))) ∧
  (∀ (s : State), (s.dev.dump = none → s.did dumpGoesOn = s) ∧
    ∀ x, s.dev.dump = some x → x.cut = none → (∃ e ∈ s.dev.dumpGroups x.job, e.1.onWay = true) → s.did dumpGoesOn = s) ∧
  (∀ (s : State) x, s.dev.dump = some x → x.cut = none → (∀ e ∈ s.dev.dumpGroups x.job, e.1.onWay = false) →
    s.did dumpGoesOn = (s.did (dumpCut x)).did dumpGoesOn) ∧
  (∀ (s : State) x, s.dev.dump = some x → x.cut ≠ none → x.complete = false →
    let waits := ∃ n, n < 18 ∧ s.dev.regs.linkUp n = true ∧ ∃ v, v < 3 ∧ (n, v) ∉ x.marked ∧ (n, v) ∉ x.lost
    (waits → s.did dumpGoesOn = s) ∧
    (¬ waits → ∃ h, s.did dumpGoesOn = { s with host := h, dev := { s.dev with
        dump := some { x with complete := true }
        regs := { s.dev.regs with dumpctl := dumpWord x.did x.job true x.part } } })) ∧
  (∀ (s : State) x, s.dev.dump = some x → let t := s.did (dumpCut x)
    t.pad = s.pad ∧ t.main = s.main ∧ t.blk = s.blk ∧ t.stk = s.stk ∧ t.dev.groups = s.dev.groups ∧ t.dev.ops = s.dev.ops ∧
    ∃ y, t.dev.dump = some y ∧ y.did = x.did ∧ y.job = x.job ∧ y.cut = some s.dev.time ∧ y.entries = (s.dev.dumpGroups x.job).length ∧
      y.part = (x.part || (s.dev.dumpGroups x.job).any fun e => e.1.onWay)) ∧
  (∀ (s : State) x, s.dev.dump = some x → s.host.wf = true →
    let gs := s.dev.dumpGroups x.job
    let blocks := blocksOf gs []
    let first := 64 + 16 * gs.length
    let entries := gs.flatMap fun e => s.dumpEntry e.1 e.2 (first + saveAt e.2.tag e.1.key.block blocks + e.1.key.group * e.2.groupArea)
    let units := match s.dev.job? x.job with | some j => j.grants | none => []
    let saves := blocks.flatMap fun e => match s.dev.launch? e.1 with
      | some l => s.blockSave l e.2.1 (s.dev.free + saveAt e.1 e.2.1 blocks)
      | none => []
    let data := entries ++ saves ++ units.flatMap fun u => bytesAt s.pad (u * 2 ^ 21) (2 ^ 21)
    ∀ k v, data[k]? = some v → cellGet (s.did (dumpCut x)).host (s.dev.regs.dumpb.toNat / 4096 * 4096 + 64 + k) = v) ∧
  (∀ (s : State) g l base, let w := g.width
    let bs := s.groupSave g l base
    leNat (bs.take 8) = g.gsr.toNat ∧ leNat ((bs.drop 8).take 4) = g.mxs.toNat ∧ leNat ((bs.drop 12).take 2) = g.sA.toNat ∧
    leNat ((bs.drop 14).take 2) = g.sB.toNat ∧
    (∀ k, k < 16 → leNat ((bs.drop (16 + 8 * k)).take 8) = (cellGet g.stall k).toNat) ∧
    (∀ m, m < w → leNat ((bs.drop (192 + 16 * m)).take 8) = (g.lane m).pc.toNat ∧ leNat ((bs.drop (200 + 16 * m)).take 2) = (g.lane m).pw.toNat ∧
      leNat ((bs.drop (202 + 16 * m)).take 1) = (g.lane m).wb.toNat ∧ leNat ((bs.drop (203 + 16 * m)).take 4) = (g.lane m).ssp.toNat) ∧
    (∀ m n, m < w → n < 64 → leNat ((bs.drop (192 + 16 * w + 256 * m + 4 * n)).take 4) = (cellGet (g.lane m).v n).toNat) ∧
    ∀ m n, m < w → n < 16 → leNat ((bs.drop (192 + 272 * w + 128 * m + 8 * n)).take 8) = (cellGet (g.lane m).m n).toNat) ∧
  (∀ did job isDone part, did < 2 ^ 16 → job < 2 ^ 32 → let w := (dumpWord did job isDone part).toNat
    w % 2 ^ 16 = did ∧ bitAt w 16 = false ∧ bitAt w 17 = isDone ∧ bitAt w 18 = part ∧ w / 2 ^ 19 % 2 ^ 13 = 0 ∧ w / 2 ^ 32 = job) ∧
  (∀ (s : State), s.dev.dump = none → exec .dumpRel s = .next s) ∧
  (∀ (s : State) x, s.dev.dump = some x → exec .dumpRel s = .next ((s.withDev fun d => { d with
      dump := none
      groups := d.groups.map fun g =>
        if g.run = .dumped ∧ (∃ l, d.launch? g.key.launch = some l ∧ l.job = x.job) then { g with run := .running } else g }).did serveHeld)) ∧
  (∀ (s : State) n v did job, exec (.dumpMarker n v did job) s = .next (
      if 18 ≤ n ∨ 3 ≤ v ∨ s.dev.regs.linkUp n = false then s
      else match s.dev.dump with
        | some x =>
          if x.did ≠ did ∨ x.job ≠ job ∨ (n, v) ∈ x.marked then s
          else (s.withDev fun d => { d with dump := some { x with marked := x.marked ++ [(n, v)] } }).did dumpGoesOn
        | none =>
          let c := s.dev.regs.dumpctl.toNat
          if (did, job) ∈ s.dev.abandoned ∨ (bitAt c 17 = true ∧ c % 2 ^ 16 = did ∧ c / 2 ^ 32 = job) then s else s.did (dumpStart did job [(n, v)]))) ∧
  (∀ (s : State), s.dev.dump = none → exec .dumpHaltTimeout s = .next s) ∧
  (∀ (s : State) x, s.dev.dump = some x → exec .dumpHaltTimeout s = .next (
      if x.cut ≠ none ∨ s.dev.time < x.started + 1000 * s.dev.regs.dumpw.toNat then s else (s.did (dumpCut x)).did dumpGoesOn))

/-- R54, R382, R384: the debugger's requests name a group of the job in DBGCTL by q2; any other is ignored. RES lets a stopped group go on, past a
`brk` word, also one that a watchpoint of the debugged job has stopped; STEP lets it go on to its next stop site; STOP stops it there, with ALL every group of the job; PRE pre-empts its block, gang or persistent
launch and holds it saved, until REL puts it back in its queue.
What the spec leaves open in it is the model's reading: logs 33, 72. -/
def Obligations.Debugger : Prop :=
  (∀ (d : Dev) ident, (d.regs.dbgJob = 0 → d.identGroup ident = none) ∧
    ∀ g l, d.identGroup ident = some (g, l) → g ∈ d.groups ∧ d.launch? g.key.launch = some l ∧ l.job = d.regs.dbgJob.toNat ∧ g.run ≠ .ended ∧
      g.place ≠ none ∧ identOf g = ident) ∧
  (∀ (s : State) (i : BitVec 16), (∀ g ∈ s.dev.groups, ¬ (g.place ≠ none ∧ identOf g = i.toNat ∧ g.run = .stopped ∧
      (s.dev.jobFor g.key = s.dev.regs.dbgJob.toNat ∨ ∃ pc, g.trap = some (s.dev.regs.dbgJob.toNat, pc)))) ∨ s.dev.regs.dbgJob = 0 →
    exec (.debugResume i) s = .next s) ∧
  (∀ (s : State) (i : BitVec 16) g, s.dev.resGroup i.toNat = some g → exec (.debugResume i) s = .next (s.withDev fun d => d.resumeGroup g g.stopAt)) ∧
  (∀ (d : Dev) i g, d.resGroup i = some g → g ∈ d.groups ∧ d.regs.dbgJob ≠ 0 ∧ g.place ≠ none ∧ identOf g = i ∧ g.run = .stopped ∧
    (d.jobFor g.key = d.regs.dbgJob.toNat ∨ ∃ pc, g.trap = some (d.regs.dbgJob.toNat, pc))) ∧
  (∀ (s : State) (i : BitVec 16), s.dev.identGroup i.toNat = none →
    exec (.debugStep i) s = .next s ∧ exec (.debugStop i) s = .next s ∧ exec (.debugPreempt i) s = .next s) ∧
  (∀ (s : State) (i : BitVec 16) g l, s.dev.identGroup i.toNat = some (g, l) →
    exec (.debugStep i) s = .next (if g.run = .stopped then s.withDev fun d =>
        d.resumeGroup { g with skipSite := match g.trap with | some t => some (l.afterWord t.2) | none => g.skipSite } (some 2)
      else s) ∧
    exec (.debugStop i) s = .next (s.withGroup { g with stopAt := some 1 })) ∧
  (∀ (l : Launch) loc, ∃ us u, l.nextWords loc = us ++ [u] ∧ l.afterWord loc = pcNext (mkPc (pcPkt loc) u.slot)) ∧
  (∀ (d : Dev) g x, d.group? g.key = some g → ∃ h, (d.resumeGroup g x).group? g.key = some h ∧ h.stopAt = x ∧ h.pastBrk = none ∧ h.trap = none ∧ h.skipSite = g.skipSite ∧
    (h.run = .running ∨ h.run = .halting) ∧ h.gsr = g.gsr ∧ h.q = g.q ∧ h.lanes.length = g.lanes.length ∧
    (∀ m, (h.lane m).v = (g.lane m).v ∧ (h.lane m).mode = (g.lane m).mode) ∧
    ((∀ b, d.block? g.key.launch g.key.block = some b → b.residency ≠ .halting) → h.run = .running) ∧
    (g.pastBrk = none → h.lanes = g.lanes) ∧
    ∀ pc m, g.pastBrk = some pc → m < g.lanes.length → (g.lane m).mode ≠ .free → (g.lane m).hold = none →
      (h.lane m).pc = if (g.lane m).pc = pc then pcNext pc else (g.lane m).pc) ∧
  (∀ (s : State), ∃ d, exec .debugStopAll s = .next { s with dev := d } ∧
    (s.dev.regs.dbgJob = 0 → d = s.dev) ∧ d.groups.map Group.key = s.dev.groups.map Group.key ∧
    ((s.dev.groups.map Group.key).Nodup → s.dev.regs.dbgJob ≠ 0 → d.groups = s.dev.groups.map fun g =>
      if g.run ≠ .ended ∧ (∃ l, s.dev.launch? g.key.launch = some l ∧ l.job = s.dev.regs.dbgJob.toNat) then { g with stopAt := some 1 }
      else g)) ∧
  (∀ (s : State) (i : BitVec 16) g l, s.dev.identGroup i.toNat = some (g, l) →
    let bs := if l.persistent = true then countFrom 0 l.nblocks else l.gangBlocks (l.unit g.key.block)
    ∃ d, exec (.debugPreempt i) s = .next { s with dev := d } ∧
      (∀ b ∈ d.blocks, b.launch = l.tag → b.index ∈ bs → b.residency = .halting → b.byDebugger = true ∧ b.requeue = false) ∧
      ((∃ j, s.dev.job? l.job = some j ∧ j.ending = none) → (∀ h ∈ s.dev.groups, h.key.launch = l.tag → h.key.block ∈ bs → h.run ≠ .dumped) →
        ∀ b ∈ d.blocks, b.launch = l.tag → b.index ∈ bs → b.residency ≠ .resident)) ∧
  (∀ (s : State) (i : BitVec 16), s.dev.regs.dbgJob = 0 → exec (.debugRelease i) s = .next s) ∧
  (∀ (s : State) (i : BitVec 16), ∃ d, exec (.debugRelease i) s = .next { s with dev := d } ∧ d.groups = s.dev.groups ∧
    d.blocks.map (fun b => (b.launch, b.index, b.residency)) = s.dev.blocks.map (fun b => (b.launch, b.index, b.residency))) ∧
  (∀ (s : State) (i : BitVec 16) g l b, s.dev.regs.dbgJob ≠ 0 →
    ((s.dev.dumpGroups s.dev.regs.dbgJob.toNat).find? fun e =>
      decide (identOf { e.1 with place := if e.1.place.isSome then e.1.place else e.1.was } = i.toNat) && (e.1.place.isSome || e.1.was.isSome) &&
        match s.dev.block? e.1.key.launch e.1.key.block with | some b => b.byDebugger | none => false) = some (g, l) →
    s.dev.block? l.tag g.key.block = some b → b.residency = .saved → l.persistent = false → l.gang ≤ 1 →
    ∃ d, exec (.debugRelease i) s = .next { s with dev := d } ∧ (∃ y, d.block? l.tag g.key.block = some y ∧ y.byDebugger = false) ∧
      ((∀ x ∈ s.dev.blocks, x.launch = l.tag → x.index = g.key.block → x = b) →
        ∃ m, d.launch? l.tag = some m ∧ m.back = l.back ++ [g.key.block]))

/-! ### Registers of the port -/

/-- R325, R328, R329, R335, R341, R344, R368, R371, R377: a write of a register. Only aligned accesses of 4 or 8 bytes count, one of 4 bytes leaves the
other half as it is; read-only registers and offsets that are not listed ignore it, and each other one takes its fields alone. A virtual function, at its own
multiple of 2^27 (log 34), reaches its clock registers and its jobs' doorbell pages, and no more.
What the spec leaves open in it is the model's reading: log 34. -/
def Obligations.RegisterWrites : Prop :=
  (∀ (s : State) off four (v : Dword), exec (.registerWrite off four v) s = .next (
      if off % (if four = true then 4 else 8) ≠ 0 then s
      else if 2 ^ 27 ≤ off then
        let x := off % 2 ^ 27
        if s.dev.vfSees (off / 2 ^ 27) x = false then s
        else if x < 2 ^ 24 then s.did (packageWrite (x - 0x800000) four v.toNat)
        else if x < 2 ^ 24 + 2 ^ 26 then s.did (bellWrite (x - 2 ^ 24) four v.toNat)
        else s
      else if off < 0x800000 then s.did (dieWrite (off / 2 ^ 20) (off % 2 ^ 20) four v.toNat)
      else if off < 2 ^ 24 then s.did (packageWrite (off - 0x800000) four v.toNat)
      else if off < 2 ^ 24 + 2 ^ 26 then s.did (bellWrite (off - 2 ^ 24) four v.toNat)
      else s)) ∧
  (∀ (d : Dev) f off, d.vfSees f off = true ↔ f < 64 ∧
      ((0x802000 + 32 * f ≤ off ∧ off < 0x802000 + 32 * f + 24) ∨
        2 ^ 24 ≤ off ∧ ∃ q j, (d.queues.find? fun q => decide (q.num ≠ devQueue) && decide (q.page = (off - 2 ^ 24) / 4096)) = some q ∧
          d.job? q.job = some j ∧ j.vf = f)) ∧
  (∀ old off v, old < 2 ^ 64 → mergeHalf old off false v = v ∧
    (off % 8 = 0 → mergeHalf old off true v = v % 2 ^ 32 + old / 2 ^ 32 * 2 ^ 32) ∧
    (off % 8 = 4 → mergeHalf old off true v = old % 2 ^ 32 + v % 2 ^ 32 * 2 ^ 32)) ∧
  (∀ (s : State) (v : Dword),
    exec (.registerWrite 0x800000 false v) s = exec (.jobAdd v) s ∧
    exec (.registerWrite 0x800008 false v) s = exec (.jobDel (v.toNat % 2 ^ 32)) s ∧
    exec (.registerWrite 0x800010 false v) s = exec (.qAdd v) s ∧
    exec (.registerWrite 0x800018 false v) s = exec (.qDel (v.toNat % 2 ^ 32) (bits v.toNat 32 16)) s ∧
    exec (.registerWrite 0x800188 false v) s = exec (.pcapWrite v) s ∧
    exec (.registerWrite 0x800238 false v) s = exec (.extend v) s ∧
    exec (.registerWrite 0x800020 false v) s = .next (s.withDev fun d => d.modRegs fun r => { r with obssel := v.setWidth 32 }) ∧
    exec (.registerWrite 0x800108 false v) s = .next (s.withDev fun d => d.modRegs fun r => { r with dumpb := v }) ∧
    exec (.registerWrite 0x800110 false v) s = .next (s.withDev fun d => d.modRegs fun r => { r with dumpw := v.setWidth 32 }) ∧
    exec (.registerWrite 0x800180 false v) s = .next (s.withDev fun d => d.modRegs fun r => { r with sl := v }) ∧
    exec (.registerWrite 0x800190 false v) s = .next (s.withDev fun d => d.modRegs fun r => { r with
      hwin := BitVec.ofNat 64 (v.toNat / 2 ^ 36 % 2 ^ 16 * 2 ^ 36) })) ∧
  (∀ (s : State) (v : Dword) die, die < 8 →
    exec (.registerWrite (die * 2 ^ 20 + 8) false v) s =
      (if bitAt v.toNat 9 = true then exec (.faultFail die (bitAt v.toNat 8) (v.toNat % 2 ^ 8) (v.toNat / 2 ^ 32)) s
       else exec (.faultReplay die (bitAt v.toNat 8) (v.toNat % 2 ^ 8) (v.toNat / 2 ^ 32)) s) ∧
    exec (.registerWrite (die * 2 ^ 20 + 0x18) false v) s = exec (.marginWrite die v) s) ∧
  (∀ (s : State) (v : Dword) page, page < 16384 →
    exec (.registerWrite (2 ^ 24 + 4096 * page) false v) s = exec (.doorbellTail page v) s ∧
    exec (.registerWrite (2 ^ 24 + 4096 * page + 24) false v) s = .next (s.withDev fun d => { d with queues := d.queues.map fun q =>
      if q.num ≠ devQueue ∧ q.page = page ∧ v.toNat ≤ q.cprod then { q with ccons := v.toNat } else q })) ∧
  (∀ (s : State) (v : Dword), exec (.registerWrite 0x800030 false v) s = .next (s.withDev fun d => d.modObs fun j =>
    if v.toNat ≤ j.fbprod then { j with fbcons := v.toNat } else j)) ∧
  (∀ (s : State) off four v, off % 8 = 0 →
    (off = 0x800028 ∨ off = 0x800038 ∨ (0x8000A0 ≤ off ∧ off < 0x800100) ∨ (0x800198 ≤ off ∧ off < 0x800200) ∨ (0x800240 ≤ off ∧ off < 0x800300) ∨
      (0x800480 ≤ off ∧ off < 0x800800) ∨ (0x800820 ≤ off ∧ off < 0x802020) ∨ (0x802800 ≤ off ∧ off < 0x1000000)) →
    exec (.registerWrite off four v) s = .next s) ∧
  (∀ (s : State) (v : Dword) pool k, pool < 12 → k < 4 → cellsWf s.dev.regs.pools = true →
    ∃ d, exec (.registerWrite (0x800300 + 32 * pool + 8 * k) false v) s = .next { s with dev := d } ∧
      d.regs.pool pool k = (match k with | 0 => v.toNat / 4096 * 4096 | 3 => v.toNat % 2 | _ => v.toNat % 2 ^ 32) ∧
      ∀ p j, (p ≠ pool ∨ j ≠ k) → p < 12 → j < 4 → d.regs.pool p j = s.dev.regs.pool p j) ∧
  (∀ (s : State) (v : Dword) f k, 1 ≤ f → f < 64 → k < 3 → cellsWf s.dev.regs.vf = true →
    ∃ d, exec (.registerWrite (0x802000 + 32 * f + 8 * k) false v) s = .next { s with dev := d } ∧ d.regs.vfNow = s.dev.regs.vfNow ∧
      (cellGet d.regs.vf (4 * f + k)).toNat = (match k with | 0 => v.toNat | 1 => v.toNat % 2 ^ 32 | _ => v.toNat % 2)) ∧
  (∀ (s : State) (v : Dword) n, n < 32 → cellsWf s.dev.regs.wpctl = true → cellsWf s.dev.regs.wpaddr = true →
    (∃ d, exec (.registerWrite (n / 4 * 2 ^ 20 + 0x300 + 16 * (n % 4)) false v) s = .next { s with dev := d } ∧
      let x := (cellGet d.regs.wpctl n).toNat
      x % 2 ^ 2 = v.toNat % 2 ^ 2 ∧ bits x 2 2 = 0 ∧ bits x 4 16 = bits v.toNat 4 16 ∧ bits x 20 12 = 0 ∧ x / 2 ^ 32 = v.toNat / 2 ^ 32) ∧
    ∃ d, exec (.registerWrite (n / 4 * 2 ^ 20 + 0x308 + 16 * (n % 4)) false v) s = .next { s with dev := d } ∧
      (cellGet d.regs.wpaddr n).toNat = bits v.toNat 4 53 * 2 ^ 4) ∧
  (∀ (s : State) (v : Dword) n, n < 18 → cellsWf s.dev.regs.link = true →
    ∃ d, exec (.registerWrite (n / 3 * 2 ^ 20 + 0x200 + 8 * (n % 3)) false v) s = .next { s with dev := d } ∧
      ∀ k, k < 64 → (bitAt (d.regs.linkStat n) k = true ↔ bitAt (s.dev.regs.linkStat n) k = true ∧
        ¬ ((8 ≤ k ∧ k < 40 ∨ k = 60) ∧ bitAt v.toNat k = true))) ∧
  (∀ (s : State) (v : Dword) die, die < 8 → cellsWf s.dev.regs.err = true →
    ∃ d, exec (.registerWrite (die * 2 ^ 20) false v) s = .next { s with dev := d } ∧
      ∀ k, k < 64 → (bitAt (cellGet d.regs.err die).toNat k = true ↔ bitAt (cellGet s.dev.regs.err die).toNat k = true ∧
        ¬ ((k < 24 ∨ 32 ≤ k ∧ k < 48) ∧ bitAt v.toNat k = true)))

/-- R328, R329, R332, R335, R346 to R349, R356, R377: what a read of a register returns; nothing that is not listed reads other than 0, reserved bits
read 0, and with an image that failed its check nothing is read.
R315, R328: a host access through BAR4 reaches device physical address HWIN + x; a write stores its bytes where storage of tiers 0 to 2 stands, and is
ignored elsewhere; a read changes nothing, and reads 0 in tier 3. R346: nothing is read while the image has not passed its check.
What the spec leaves open in it is the model's reading: logs 7, 34, 35. -/
def Obligations.RegisterReadsAndWindow : Prop :=
  (
  (∀ (d : Dev) off four, (off % (if four = true then 4 else 8) ≠ 0 ∨ d.trust.good = false → d.registerRead off four = 0) ∧
    (2 ^ 27 ≤ off → d.vfSees (off / 2 ^ 27) (off % 2 ^ 27) = false → d.registerRead off four = 0) ∧
    d.registerRead off four < (if four = true then 2 ^ 32 else 2 ^ 64)) ∧
  (∀ (d : Dev) slot, slot % 8 = 0 → slot < 2 ^ 24 + 2 ^ 26 → let x := d.registerRead slot false
    x = d.registerRead slot true + 2 ^ 32 * d.registerRead (slot + 4) true) ∧
  (∀ (d : Dev), d.trust.good = true →
    d.registerRead 0x800000 false = d.regs.jobadd.toNat ∧ d.registerRead 0x800010 false = d.regs.qadd.toNat ∧
    d.registerRead 0x800008 false = 0 ∧ d.registerRead 0x800018 false = 0 ∧ d.registerRead 0x800020 false = d.regs.obssel.toNat ∧
    d.registerRead 0x800100 false = d.regs.dumpctl.toNat ∧ d.registerRead 0x800118 false = d.regs.dbgJob.toNat ∧ d.registerRead 0x800120 false = 0 ∧
    d.registerRead 0x800180 false = d.regs.sl.toNat ∧ d.registerRead 0x800188 false = d.regs.pcap.toNat ∧
    d.registerRead 0x800190 false = d.regs.hwin.toNat) ∧
  (∀ (d : Dev), d.trust.good = true →
    (∀ j, d.job? d.regs.obssel.toNat = some j → d.registerRead 0x800038 false = 1 ∧ d.registerRead 0x800028 false = j.fbprod % 2 ^ 64) ∧
    (d.job? d.regs.obssel.toNat = none → d.registerRead 0x800028 false = 0 ∧ ∀ e,
      (d.ended.find? fun e => decide (e.id = d.regs.obssel.toNat)) = some e → d.registerRead 0x800038 false = e.code % 2 ^ 8 * 2 ^ 8)) ∧
  (∀ (d : Dev), d.trust.good = true →
    d.registerRead 0x800820 false = (if d.trust.report = [] then 0 else 1) + (if d.trust.signing = none then 0 else 2)) ∧
  (∀ (d : Dev) die, d.trust.good = true → die < 6 → d.registerRead (die * 2 ^ 20 + 0x10) false = defectOf (Config.defectWord die).toNat ∧
    d.registerRead (die * 2 ^ 20) false = (cellGet d.regs.err die).toNat ∧ d.registerRead (die * 2 ^ 20 + 8) false = 0 ∧
    d.registerRead (die * 2 ^ 20 + 0x18) false = (cellGet d.regs.margin die).toNat ∧
    (∀ k, k < 3 → d.registerRead (die * 2 ^ 20 + 0x200 + 8 * k) false = d.regs.linkStat (3 * die + k)) ∧
    (∀ t, t < 4 → d.registerRead (die * 2 ^ 20 + 0x20 + 8 * t) false = (cellGet d.regs.temp (4 * die + t)).toNat) ∧
    ∀ c, c < 25 → d.registerRead (die * 2 ^ 20 + 0x100 + 8 * c) false = (cellGet d.regs.ageing (32 * die + c) ^^^ 0xFFFF).toNat) ∧
  (∀ w, let x := defectOf w
    x < 2 ^ 35 ∧ bits x 5 3 = 0 ∧ bits x 8 8 = bits w 8 8 ∧ (bits x 0 5 ≤ 23 ∨ bits x 0 5 = 31) ∧
    (∀ k, k < 3 → bits x (16 + 4 * k) 4 ≤ 7 ∨ bits x (16 + 4 * k) 4 = 15) ∧ (bits x 28 7 ≤ 99 ∨ bits x 28 7 = 127)) ∧
  (∀ (d : Dev) page, d.trust.good = true → page < 16384 → let at_ := 2 ^ 24 + 4096 * page
    d.registerRead at_ false = 0 ∧
    ∀ q, (d.queues.find? fun q => decide (q.num ≠ devQueue) && decide (q.page = page)) = some q →
      d.registerRead (at_ + 8) false = q.head % 2 ^ 64 ∧ d.registerRead (at_ + 16) false = q.cprod % 2 ^ 64 ∧
      d.registerRead (at_ + 24) false = q.ccons % 2 ^ 64)) ∧
  (
  (∀ (s : State) off size, exec (.hostWindowAccess off size none) s = .next s) ∧
  (∀ (s : State) off size (v : Dword), (2 ^ 36 ≤ off ∨ size ∉ [1, 2, 4, 8] ∨ off % size ≠ 0 ∨ populated (s.dev.regs.hwin.toNat + off) = false) →
    exec (.hostWindowAccess off size (some v)) s = .next s) ∧
  (∀ (s : State) off size (v : Dword), s.main.wf = true → off < 2 ^ 36 → size ∈ [1, 2, 4, 8] → off % size = 0 →
    populated (s.dev.regs.hwin.toNat + off) = true → ∃ m, exec (.hostWindowAccess off size (some v)) s = .next { s with main := m } ∧
      natAt m (s.dev.regs.hwin.toNat + off) size = v.toNat % 2 ^ (8 * size) ∧
      ∀ a, (a < s.dev.regs.hwin.toNat + off ∨ s.dev.regs.hwin.toNat + off + size ≤ a) → cellGet m a = cellGet s.main a) ∧
  (∀ pa, populated pa = true → pa < 3 * 2 ^ 48 ∧ (pa < 2 ^ 48 → pa < 768 * 10 ^ 9)) ∧
  (∀ (s : State) off size, s.dev.trust.good = true → 3 * 2 ^ 48 ≤ s.dev.regs.hwin.toNat + off → s.windowRead off size = some (List.replicate size 0)) ∧
  (∀ (s : State) off size, s.dev.trust.good = false → s.windowRead off size = none) ∧
  (∀ (s : State) off size, s.dev.trust.good = true → populated (s.dev.regs.hwin.toNat + off) = true →
    s.windowRead off size = some (bytesAt s.main (s.dev.regs.hwin.toNat + off) size)))

/-! ### Links and remote operations -/

/-- R352 to R356, R363, R370: a flit of 256 bytes whose CRC-64 is wrong is counted and dropped, and replay is asked for; one out of sequence is dropped; the
next one acknowledges what the retry buffer holds up to its number, fills its channel's input buffer, and a dump may hold it. PAUSE and RESUME act on
channels 0 to 2, and are sent past three quarters and below one quarter of an input buffer. A first lane failure puts the spare in service and the link
retrains; a second, or 1 ms without success, brings it down: its operations fail with LINK_DOWN and its channels are lost to a dump. That the far end of a
trained link is a free value, and which lane a flit replayed 16 times in a row takes out, are the model's (log 24).
What the spec leaves open in it is the model's reading: logs 18, 24. -/
def Obligations.LinkEvents : Prop :=
  (∀ (s : State) n flit, exec (.flitReceive n flit) s = .next (
      if s.dev.regs.linkUp n = false ∨ 18 ≤ n ∨ flit.length ≠ 256 then s
      else if leNat (flit.drop 248) ≠ (crc64 (flit.take 248)).toNat then s.withDev fun d =>
        (d.modRegs fun r => r.linkCount n 8 1).sendFlit n 3 0 (.replay (d.link n).recvSeq)
      else
        let h := leNat (flit.take 8)
        let l := s.dev.link n
        if h / 2 ^ 2 % 2 ^ 12 ≠ l.recvSeq then s
        else s.withDev fun d =>
          ((d.setLink (({ l with recvSeq := (l.recvSeq + 1) % 4096 }.acked (h / 2 ^ 14 % 2 ^ 12)).drain true)).fillInput n (h % 4)).dumpFlit
            n (h % 4) (h / 2 ^ 32) flit)) ∧
  (∀ (d : Dev) n v, (d.link n).input.length = 4 → v < 4 → let k := (d.link n).input.getD v 0 + 1
    ((d.fillInput n v).link n).input.getD v 0 = k ∧
    (bitAt ((d.fillInput n v).link n).pausing.toNat v = true ↔
      bitAt (d.link n).pausing.toNat v = true ∨ v < 3 ∧ 3 * Config.inputBuffer n < 4 * k) ∧
    ((v = 3 ∨ bitAt (d.link n).pausing.toNat v = true ∨ 4 * k ≤ 3 * Config.inputBuffer n) →
      ((d.fillInput n v).link n).retry = (d.link n).retry ∧ ((d.fillInput n v).link n).waiting = (d.link n).waiting) ∧
    (v < 3 → bitAt (d.link n).pausing.toNat v = false → 3 * Config.inputBuffer n < 4 * k →
      ∃ f ∈ ((d.fillInput n v).link n).retry ++ ((d.fillInput n v).link n).waiting, f.vc = 3 ∧ f.msg = .pause v)) ∧
  (∀ (d : Dev) n v, (d.link n).input.length = 4 → v < 4 → let k := (d.link n).input.getD v 0 - 1
    ((d.takeInputFlit n v).link n).input.getD v 0 = k ∧
    (bitAt ((d.takeInputFlit n v).link n).pausing.toNat v = true ↔
      bitAt (d.link n).pausing.toNat v = true ∧ ¬ 4 * k < Config.inputBuffer n) ∧
    (bitAt (d.link n).pausing.toNat v = true → 4 * k < Config.inputBuffer n →
      ∃ f ∈ ((d.takeInputFlit n v).link n).retry ++ ((d.takeInputFlit n v).link n).waiting, f.vc = 3 ∧ f.msg = .resume v)) ∧
  (∀ num v q ack job m, let bs := flitBytes num v q ack job m
    bs.length = 256 ∧ leNat (bs.drop 248) = (crc64 (bs.take 248)).toNat ∧ leNat (bs.take 8) % 4 = v % 4 ∧
    leNat (bs.take 8) / 2 ^ 2 % 2 ^ 12 = q % 4096 ∧ leNat (bs.take 8) / 2 ^ 14 % 2 ^ 12 = ack % 4096 ∧
    (m.manages = false → leNat (bs.take 8) / 2 ^ 32 = job % 2 ^ 32)) ∧
  (∀ (l : Link) a, ((∀ f ∈ l.retry, f.seq ≠ a) → l.acked a = l) ∧
    ∀ xs f ys, l.retry = xs ++ f :: ys → (∀ x ∈ xs, x.seq ≠ a) → f.seq = a → (l.acked a).retry = ys) ∧
  (∀ (l : Link) f, ∃ bs, (l.send f).retry = l.retry ++ [{ f with seq := l.sendSeq, bytes := bs, tries := 0 }] ∧
    bs = flitBytes (l.n + 18 * l.made) f.vc l.sendSeq (l.recvSeq + 4095) f.job f.msg ∧ (l.send f).sendSeq = (l.sendSeq + 1) % 4096) ∧
  (∀ (l : Link) up vc, l.maySend up vc = true ↔ up = true ∧ l.retry.length < 512 ∧ (vc = 3 ∨ bitAt l.paused.toNat vc = false)) ∧
  (∀ (s : State) n q, (18 ≤ n ∨ ∀ f ∈ (s.dev.link n).retry, f.seq ≠ q) → exec (.replayRequest n q) s = .next s) ∧
  (∀ (s : State) n q xs ys, n < 18 → ys ≠ [] → (s.dev.link n).retry = xs ++ ys → (∀ x ∈ xs, x.seq ≠ q) → (∃ f zs, ys = f :: zs ∧ f.seq = q) →
    let worn := ∃ f ∈ ys, 15 ≤ f.tries
    ∃ zs, zs.map (fun f => { f with tries := 0 }) = ys.map (fun f => { f with tries := 0 }) ∧
      (zs.map OutFlit.tries = if worn then ys.map fun _ => 0 else ys.map fun f => f.tries + 1) ∧
      let s1 := s.withDev fun d => (d.setLink { d.link n with retry := xs ++ zs }).modRegs fun r => r.linkCount n 24 ys.length
      (¬ worn → exec (.replayRequest n q) s = .next s1) ∧
      (worn → ∃ lane, exec (.replayRequest n q) s =
        .next ((s1.did (laneFails n lane)).withDev fun d => { d with free := d.free + 1 }) ∧
        ((∃ k, k < 8 ∧ k ∉ (s.dev.link n).failedLanes) → lane < 9 ∧ lane ∉ (s.dev.link n).failedLanes))) ∧
  (∀ (s : State) n v, exec (.pause n v) s = .next (if 3 ≤ v ∨ 18 ≤ n then s
      else s.withDev fun d => d.setLink { d.link n with paused := (d.link n).paused ||| BitVec.ofNat 4 (2 ^ v) })) ∧
  (∀ (s : State) n v, exec (.resume n v) s = .next (if 3 ≤ v ∨ 18 ≤ n then s
      else s.withDev fun d => d.setLink
        ({ d.link n with paused := (d.link n).paused &&& ~~~ BitVec.ofNat 4 (2 ^ v) }.drain (d.regs.linkUp n)))) ∧
  (∀ (s : State) n lane, exec (.laneFailure n lane) s = .next (
      if 18 ≤ n ∨ 9 ≤ lane ∨ lane ∈ (s.dev.link n).failedLanes then s else s.did (laneFails n lane))) ∧
  (∀ (s : State) n lane, let l := s.dev.link n
    let s1 := s.withDev fun d => d.setLink { l with failedLanes := l.failedLanes ++ [lane] }
    s.did (laneFails n lane) = (
      if l.failedLanes ≠ [] then s1.did (goDown n)
      else if lane = 8 then s1
      else s1.withDev fun d => (d.setLink { d.link n with training := some d.time }).modRegs
        fun r => ((r.linkField n 1 1 1).linkField n 2 4 lane).linkField n 0 1 0)) ∧
  (∀ (s : State) n, exec (.linkDown n) s = .next (
      if n < 18 ∧ ∃ t, (s.dev.link n).training = some t ∧ t + 1000000 ≤ s.dev.time then s.did (goDown n) else s)) ∧
  (∀ (s : State) n, (18 ≤ n ∨ 2 ≤ (s.dev.link n).failedLanes.length) → exec (.linkRetrained n) s = .next s) ∧
  (∀ (s : State) n, n < 18 → (s.dev.link n).failedLanes.length < 2 → ∃ peer plink, peer < 2 ^ 15 ∧ plink < 18 ∧
    exec (.linkRetrained n) s = .next (s.withDev fun d =>
      { (d.modRegs fun r => (((r.linkField n 0 1 1).linkField n 40 15 peer).linkField n 55 5 plink).linkCount n 24 (d.link n).retry.length).setLink
          ({ d.link n with gone := false, training := none }.drain true) with free := d.free + 1 })) ∧
  (∀ (r : Regs) n lo len v, cellsWf r.link = true → lo + len ≤ 64 → 1 ≤ len → let x := r.linkField n lo len v
    bits (x.linkStat n) lo len = v % 2 ^ len ∧ (∀ k, (k < lo ∨ lo + len ≤ k) → bitAt (x.linkStat n) k = bitAt (r.linkStat n) k) ∧
    ∀ m, m ≠ n → x.linkStat m = r.linkStat m) ∧
  (∀ (d : Dev) pkg, d.linkFor pkg = if pkg = d.package then none else match d.route? pkg with
    | none => none
    | some r => some (if (d.link r.primary).gone = true then r.alternate else r.primary)) ∧
  (∀ (s : State) n, cellsWf s.dev.regs.link = true → (∀ p ∈ s.dev.ops, p.link ≠ some n ∧ n ∉ p.links) → s.dev.dump = none →
    ∃ d, s.did (goDown n) = { s with dev := d } ∧ d.regs.linkUp n = false ∧ bitAt (d.regs.linkStat n) 60 = true ∧ d.ops = s.dev.ops ∧
      (d.link n).retry = [] ∧ (d.link n).waiting = [] ∧ (d.link n).gone = true ∧ (d.link n).training = none) ∧
  (∀ (s : State) n, s.did (goDown n) =
    let s1 := (s.withDev fun d => d.modRegs fun r => (r.linkField n 0 1 0).linkField n 60 1 1).did
      (Part.each (s.dev.ops.filter fun p => p.uses n) fun p s => failOp p 0x33 0 (s.dev.remoteDetail p 2) 0 s)
    s1.withDev fun d =>
      let d1 := d.setLink { d.link n with retry := [], waiting := [], gone := true, training := none }
      match d1.dump with
      | none => d1
      | some x =>
        let gone := ((countFrom 0 3).map fun v => (n, v)).filter fun c => decide (c ∉ x.marked ∧ c ∉ x.lost)
        { d1 with dump := some { x with lost := x.lost ++ gone, part := x.part || !gone.isEmpty } })

/-- R357, R360, R361, R362, R367: a request of another package is performed here page by page, an atomic in one step. It is answered ACCESS where its
job is not live, its bytes are not granted or its access is not allowed, holds on a page fault with a HOLD notice, and waits while a dump of its job is
under way, or for a range. A copy is answered page by page, and an uncorrectable error at a page, or at an atomic, with UNCORRECTABLE.
R360 to R362: a reply advances a remote operation by a page, or completes an atomic with the old value; a status other than 0 fails it. An operation
whose target is this package does its next page here. A HOLD notice stops its timer. Nothing happens while it is held, waits for an
earlier operation of its group, or its job is in a dump.
What the spec leaves open in it is the model's reading: logs 24, 48. -/
def Obligations.RemoteRequests : Prop :=
  (
  (∀ (s : State) r, exec (.remoteRequest r) s = .next (
      if reqOk r = false then s
      else if s.dev.dumpHolds r.job = true then s.withDev fun d => { d with heldReqs := d.heldReqs ++ [⟨r, 0, none⟩] }
      else if s.serveWaits r = true then s
      else s.did (serve r 0 none))) ∧
  (∀ r, reqOk r = true ↔ r.link < 18 ∧ match r.kind with
      | .put data => r.addr.toNat % 16 = 0 ∧ data.length % 16 = 0 ∧ 16 ≤ data.length ∧ data.length ≤ 2 ^ 24
      | .get n _ => r.addr.toNat % 16 = 0 ∧ n % 16 = 0 ∧ 16 ≤ n ∧ n ≤ 2 ^ 24
      | .atom k _ _ _ => r.addr.toNat % raopSize k = 0) ∧
  (∀ (s : State) id job addr n w f, (s.dev.job? job = none ∨ ∃ j, s.dev.job? job = some j ∧ j.ending ≠ none) →
    s.target id job true addr n w f = .access ∧ s.target id job false addr n w f = .access) ∧
  (∀ (s : State) id job addr n w f j, s.dev.job? job = some j → j.ending = none →
    s.target id job true addr n w f = (
      if padSize < addr + n ∨ j.granted addr n = false then .access
      else if ∃ e ∈ s.dev.gate, (∀ k, id = some k → e.op < k) ∧ e.store = .pad ∧ e.lo < addr + n ∧ addr < e.hi ∧ (w = true ∨ e.dst = true) ∧
        e.rewritten job f = false then .wait
      else .ok) ∧
    s.target id job false addr n w f = (match s.firstBad j w (sectors (countFrom addr n)) with
      | none => .ok
      | some (va, .fault) => .fault va
      | some (_, .access) => .access
      | some _ => .wait)) ∧
  (∀ (s : State) r bs base n ue k, s.did (servePages r bs base n ue k []) =
    s.withDev fun d => d.padRewritten r.job r.pad (spanOf bs.isSome base n)) ∧
  (∀ (s : State) job pad a n w, s.did (targetNote job pad a n w) = if pad = true then s else
    s.did (Part.each (sectors (countFrom a n)) fun x => noteTranslation job x w)) ∧
  (∀ (e : GateRange) job f, e.rewritten job f = true ↔ e.ue = true ∧ e.job = job ∧ ∀ a, e.first ≤ a → a < e.first + e.bytes → f a = true) ∧
  (∀ (d : Dev) job f, d.padRewritten job false f = d ∧ ∃ gs, d.padRewritten job true f = { d with gate := gs } ∧
    ∀ e, e ∈ gs ↔ e ∈ d.gate ∧ ¬ (e.store = .pad ∧ e.rewritten job f = true)) ∧
  (∀ w base n a, spanOf w base n a = true ↔ w = true ∧ base ≤ a ∧ a < base + n) ∧
  (∀ (s : State) r bs base n ue k a m ps, s.did (servePages r bs base n ue k ((a, m) :: ps)) = (
      match s.target none r.job r.pad a m bs.isSome (spanOf bs.isSome base n) with
      | .fault va => (if bs.isSome = true then s else s.did (targetNote r.job r.pad a (va - a) false)).did (holdRequest r k va bs.isSome)
      | .access => s.did (reply r [0x31, 2])
      | .wait => s
      | .ok =>
        if ue.map Prod.fst = some k then
          ((s.did (targetNote r.job r.pad a m false)).withDev fun d => match ue with
            | some (_, die, src) => d.countErr die src 0 1
            | none => d).did (reply r [0x32, 0])
        else
          ((match bs with
          | some bs => s.did (targetWrite r.link r.src r.job r.pad a ((bs.drop (a - base)).take m) false)
          | none => s.did (targetNote r.job r.pad a m false)).did fun t =>
            reply r (0 :: if bs.isSome = true then [] else t.targetRead none r.job r.pad a m) t).did (servePages r bs base n ue (k + 1) ps))) ∧
  (∀ (s : State) r k ue, (∀ data, r.kind = .put data →
      s.did (serve r k ue) = s.did (servePages r (some data) r.addr.toNat data.length ue k ((cutPages r.addr.toNat data.length).drop k))) ∧
    ∀ n dst, r.kind = .get n dst →
      s.did (serve r k ue) = s.did (servePages r none r.addr.toNat n ue k
        (((cutPages dst n).map fun a => (r.addr.toNat + (a.1 - dst), a.2)).drop k))) ∧
  (∀ a n, let ps := cutPages a n
    ps.map Prod.fst = (pagesOf a n) ∧ ∀ p ∈ ps, p.1 / 4096 = (p.1 + p.2 - 1) / 4096 ∧ (0 < n → a ≤ p.1 ∧ p.1 + p.2 ≤ a + n)) ∧
  (∀ (s : State) r done ue k ord a b, r.kind = .atom k ord a b →
    let n := raopSize k
    let old := s.targetRead none r.job r.pad r.addr.toNat n
    let v := if r.pad = true then 0 else 2 ^ 20 + r.job
    s.did (serve r done ue) = (match s.target none r.job r.pad r.addr.toNat n true (spanOf true r.addr.toNat n) with
      | .fault va => s.did (holdRequest r 0 va true)
      | .access => s.did (reply r [0x31, 2])
      | .wait => s
      | .ok => match ue with
        | some (_, die, src) => ((s.did (targetNote r.job r.pad r.addr.toNat n false)).withDev fun d => d.countErr die src 0 1).did (reply r [0x32, 0])
        | none => ((s.withDev fun d => if (raopNew k (leNat old) a.toNat b.toNat).isSome = true then
              d.carryOn .pad v v r.addr.toNat n (if 2 ≤ ord.toNat then some ⟨none, 4, []⟩ else none)
            else d).did (targetAtom r.link r.src r.job r.pad r.addr.toNat k (leNat old) a.toNat b.toNat)).did (reply r (0 :: old)))) ∧
  (∀ (s : State) link src job pad addr k old a b, s.did (targetAtom link src job pad addr k old a b) = (match raopNew k old a b with
      | some v => s.did (targetWrite link src job pad addr (leBytes (raopSize k) v) true)
      | none => s.did (targetNote job pad addr (raopSize k) false))) ∧
  (∀ (s : State) r page die src, s.did (requestError r page die src) = (
      if reqOk r = false ∨ s.dev.dumpHolds r.job = true ∨ s.serveWaits r = true ∨ 8 ≤ die ∨ 8 ≤ src then s
      else s.did (serve r 0 (some (page, die, src))))) ∧
  (∀ (s : State) r data, s.did (reply r data) = s.withDev fun d => d.sendFlit r.link 1 r.job (.reply 0 data)) ∧
  (∀ (s : State) r k va w, ∃ d, s.did (holdRequest r k va w) = { s with dev := d } ∧
    d.heldReqs = s.dev.heldReqs ++ [⟨r, k, some ((s.dev.logIndex (r.link / 3)).getD 0)⟩] ∧ d.ops = s.dev.ops ∧ d.groups = s.dev.groups)) ∧
  (
  (∀ (s : State) op data, (s.dev.op? op = none ∨ ∃ p, s.dev.op? op = some p ∧
      (p.kind.isRemote = false ∨ p.sent = false ∨ p.held ≠ none ∨ s.dev.opWaits p = true ∨ s.dev.dumpHolds p.job = true)) →
    exec (.remoteResponse op data) s = .next s) ∧
  (∀ (s : State) op data p, s.dev.op? op = some p → p.kind.isRemote = true → p.sent = true → p.held = none → s.dev.opWaits p = false →
    s.dev.dumpHolds p.job = false →
    exec (.remoteResponse op data) s = .next (if p.link = none then s.did (ownResponse p) else s.did (farResponse p data))) ∧
  (∀ (s : State) p, s.did (farResponse p []) = s) ∧
  (∀ (s : State) p st bs, p.kind = .put → s.did (farResponse p (st :: bs)) = if st = 0 then s.did (pageDone p) else
    s.did (failOp p st.toNat (if st = 0x31 then 2 else 0) p.done 0)) ∧
  (∀ (s : State) p st bs, p.kind = .get → s.did (farResponse p (st :: bs)) = (
      if st ≠ 0 then s.did (failOp p st.toNat (if st = 0x31 then 2 else 0) p.done 0)
      else match p.remotePages.drop p.done with
        | [] => s
        | (a, n) :: _ => if bs.length = n then (s.did (localWrite p a bs)).did (pageDone p) else s)) ∧
  (∀ (s : State) p st bs k o, p.kind = .ratom k o → s.did (farResponse p (st :: bs)) = (
      if st ≠ 0 then s.did (failOp p st.toNat (if st = 0x31 then 2 else 0) 0 0)
      else if bs.length = raopSize k then (s.did (localWrite p (p.storeA.off (codeAddr (p.reg 0))) bs)).did (finishOp p (raopSize k)) else s)) ∧
  (∀ (s : State) p a n rest, p.kind = .put → p.remotePages.drop p.done = (a, n) :: rest →
    let span := spanOf true (remAddr p.regs) (p.reg 4)
    s.did (ownResponse p) = (match s.target (some p.id) p.job (remPad p.regs) a n true span with
      | .ok => ((s.did (targetWrite 0 s.dev.package p.job (remPad p.regs) a
          (s.bytes p.storeA (p.storeA.off (codeAddr (p.reg 0)) + (a - remAddr p.regs)) n) false)).withDev fun d =>
            if rest = [] then d.padRewritten p.job (remPad p.regs) span else d).did (pageDone p)
      | .fault va => s.did (holdOp p va true)
      | .access => s.did (failOp p 0x31 2 p.done 0)
      | .wait => s)) ∧
  (∀ (s : State) p a n rest, p.kind = .get → p.remotePages.drop p.done = (a, n) :: rest →
    let ra := remAddr p.regs + (a - p.storeA.off (codeAddr (p.reg 0)))
    s.did (ownResponse p) = (match s.target (some p.id) p.job (remPad p.regs) ra n false noBytes with
      | .ok => ((s.did (targetNote p.job (remPad p.regs) ra n false)).did fun t => localWrite p a (s.targetRead p.own p.job (remPad p.regs) ra n) t).did (pageDone p)
      | .fault va => s.did (holdOp p va false)
      | .access => s.did (failOp p 0x31 2 p.done 0)
      | .wait => s)) ∧
  (∀ (s : State) p k o, p.kind = .ratom k o → let n := raopSize k
    let old := s.targetRead p.own p.job (remPad p.regs) (remAddr p.regs) n
    s.did (ownResponse p) = (match s.target (some p.id) p.job (remPad p.regs) (remAddr p.regs) n true (spanOf true (remAddr p.regs) n) with
      | .ok => ((((s.withDev fun d => d.syncRatom p o n (raopNew k (leNat old) (p.reg 4) (p.reg 6)).isSome).did
          (targetAtom 0 s.dev.package p.job (remPad p.regs) (remAddr p.regs) k (leNat old) (p.reg 4) (p.reg 6))).did
          (localWrite p (p.storeA.off (codeAddr (p.reg 0))) old)).did (finishOp p n))
      | .fault va => s.did (holdOp p va true)
      | .access => s.did (failOp p 0x31 2 p.done 0)
      | .wait => s)) ∧
  (∀ (s : State) p, let q := { p with done := p.done + 1, timer := 0, ask := 0, remoteHeld := false }
    s.did (pageDone p) = if p.remotePages.length ≤ p.done + 1 then s.did (finishOp q (p.reg 4)) else s.withDev fun d => d.setOp q) ∧
  (∀ (d : Dev) p, d.remoteWaits p = true ↔ ∃ q ∈ d.ops, q.id < p.id ∧ q.g = p.g ∧ q.kind.isRemote = true ∧ q.remote.1 = p.remote.1 ∧
    (q.sent = false ∨ q.remote.2.1 = p.remote.2.1 ∧ q.remote.2.2.1 < p.remote.2.2.1 + p.remote.2.2.2.1 ∧
      p.remote.2.2.1 < q.remote.2.2.1 + q.remote.2.2.2.1 ∧ (p.remote.2.2.2.2 = true ∨ q.remote.2.2.2.2 = true))) ∧
  (∀ (s : State) p, (p.kind = .put → p.remotePages = cutPages (remAddr p.regs) (p.reg 4)) ∧
    (p.kind = .get → p.remotePages = cutPages (p.storeA.off (codeAddr (p.reg 0))) (p.reg 4)) ∧
    ∀ off bs, s.did (localWrite p off bs) = (s.did (chipWrite p.storeA (bs.zipIdx.map fun e => (off + e.2, e.1)))).did
      (padWatch p p.storeA fun a => decide (off ≤ a) && decide (a < off + bs.length))) ∧
  (∀ (s : State) op, s.dev.op? op = none → exec (.holdNotice op) s = .next s) ∧
  (∀ (s : State) op p, s.dev.op? op = some p → exec (.holdNotice op) s = .next (
      if p.kind.isRemote = true ∧ p.link ≠ none then s.withDev fun d => d.setOp { p with remoteHeld := true } else s)))

/-- R364, R365: once every member has posted, a member whose posts disagree, or claim one rank twice, fails with ILLEGAL_OPERAND; else its receive buffer
commits page by page: the concatenation in rank order, the root's elements, or the reduction in rank order, widened to FP32 and rounded once. A job that ends tells the packages of its collectives' other members, whose
members fail with REMOTE_TIMEOUT.
What the spec leaves open in it is the model's reading: logs 24, 25. -/
def Obligations.Collectives : Prop :=
  (∀ (s : State) op posts, (s.dev.op? op = none ∨ ∃ p, s.dev.op? op = some p ∧ s.dev.job? p.job = none) → exec (.collMatch op posts) s = .next s) ∧
  (∀ (s : State) op posts p j, s.dev.op? op = some p → s.dev.job? p.job = some j →
    let size := collSize (p.desc 1)
    let memb := s.collRead j p.own (p.desc 7) 2 (p.desc 3)
    let own := s.collRead j p.own (p.desc 8) size p.sendLen
    let x := fun q i => if q = p.desc 4 then own.getD i 0 else match posts.find? fun y => decide (y.rank = q) with
      | some y => (y.send.getD i 0).toNat
      | none => 0
    let bytes := (collResult p x).flatMap (leBytes size)
    exec (.collMatch op posts) s = .next (
      if p.kind ≠ .coll ∨ p.held ≠ none ∨ s.dev.dumpHolds p.job = true ∨ posts.length + 1 ≠ p.desc 3 ∨ s.localPosts j p posts = false then s
      else match s.firstBad j false p.collReads with
        | some (va, t) => s.did (badAddress p p.done p.collReads va false t)
        | none =>
          if (∃ y ∈ posts, p.disagrees memb y = true) ∨ ¬ (p.desc 4 :: posts.map CollPost.rank).Nodup then s.did (failOp p 0x03 0 0 0)
          else ((s.did (Part.each p.collReads fun a => noteTranslation p.job a false)).did (sendCollective p memb)).did
            (collCommit op j bytes ((cutPages (p.desc 9) bytes.length).drop p.done)))) ∧
  (∀ (s : State) p memb, ∃ d, s.did (sendCollective p memb) = { s with dev := d } ∧ d.groups = s.dev.groups ∧
    d.op? p.id = some { p with started := true, links := if p.started then p.links else (memb.filterMap s.dev.linkFor).eraseDups }) ∧
  (∀ (s : State) op, s.did (memberEnded op) = match s.dev.op? op with
    | none => s
    | some p => if p.kind = .coll ∧ 1 < p.desc 3 ∧ s.dev.dumpHolds p.job = false then s.did (failOp p 0x34 0 p.done 0) else s) ∧
  (∀ (s : State) job, (∀ p ∈ s.dev.ops, p.job = job → p.kind ≠ .coll) → s.did (tellMembers job) = s) ∧
  (∀ (s : State) job j p n, s.dev.job? job = some j → s.dev.ops = [p] → p.job = job → p.kind = .coll →
    (∀ pkg ∈ s.collRead j p.own (p.desc 7) 2 (p.desc 3), s.dev.linkFor pkg = none ∨ s.dev.linkFor pkg = some n) →
    (∃ pkg ∈ s.collRead j p.own (p.desc 7) 2 (p.desc 3), s.dev.linkFor pkg = some n) →
    s.did (tellMembers job) = s.withDev fun d => d.sendFlit n 2 job (.memberEnded p.id)) ∧
  (∀ (s : State) op j bytes, s.did (collCommit op j bytes []) = match s.dev.op? op with
    | some p => s.did (finishOp p bytes.length)
    | none => s) ∧
  (∀ (s : State) op j bytes a n ps p, s.dev.op? op = some p → s.did (collCommit op j bytes ((a, n) :: ps)) = (
      match s.firstBad j true (sectors (countFrom a n)) with
      | some (va, t) => s.did (badAddress p p.done (sectors (countFrom a n)) va true t)
      | none =>
        if s.dev.stagingFull p = true then s.withDev fun d => { d.setOp { p with timer := 0, ask := 0 } with free := d.free + 1 }
        else (((s.did (Part.each (sectors (countFrom a n)) fun x => noteTranslation p.job x true)).did
          (mainWrite p j (((bytes.drop (a - p.desc 9)).take n).zipIdx.map fun e => (a + e.2, e.1)))).withDev fun d =>
            { d.setOp { p with done := p.done + 1, timer := 0, ask := 0 } with free := d.free + 2 ^ 52 }).did (collCommit op j bytes ps))) ∧
  (∀ (p : EngineOp) x, p.desc 0 = 1 → ∀ q i, q < p.desc 3 → i < p.desc 6 → (collResult p x)[q * p.desc 6 + i]? = some (x q i)) ∧
  (∀ (p : EngineOp) x, 3 ≤ p.desc 0 → ∀ i, i < p.desc 6 → (collResult p x)[i]? = some (x (p.desc 5) i)) ∧
  (∀ (p : EngineOp) x, (p.desc 0 = 0 ∨ p.desc 0 = 2) → ∀ i, i < p.desc 6 →
    (collResult p x)[i]? = some (collReduce (p.desc 1) (p.desc 2) ((countFrom 0 (p.desc 3)).map fun q =>
      x q (if p.desc 0 = 0 then i else p.desc 4 * p.desc 6 + i)))) ∧
  (∀ xs y, collReduce 7 0 (y :: xs) = (xs.foldl (fun a b => a + b % 2 ^ 32) (y % 2 ^ 32)) % 2 ^ 32) ∧
  (∀ f op xs y, f ≠ 7 → let r := (xs.map (collWiden f)).foldl (fun a b =>
      if op = 0 then (fpAdd fmtF32 .rn false a b).bits else fpMinMax fmtF32 (decide (op = 2)) a b) (collWiden f y)
    collReduce f op (y :: xs) = if f = 1 ∨ f = 2 then (convertElt .f32 (collFmt f) .rn false r).bits else r)

/-! ### The package -/

/-- R11, R344, R346, R348, R351, R356, R368, R377: what reset leaves, and that it leaves each memory and register file in its canonical form. That
reference time and the die cycle counts start at 0 is the model's choice (log 4).
What the spec leaves open in it is the model's reading: log 4. -/
def Obligations.ResetState : Prop :=
  let r := State.reset.dev.regs
  State.reset.Inv ∧ State.reset.dev.time = 0 ∧ (∀ d, State.reset.dev.cycle d = 0) ∧ State.reset.dev.trust.mr2 = List.replicate 64 0 ∧
  State.reset.dev.groups = [] ∧ State.reset.dev.jobs = [] ∧ State.reset.dev.queues = [] ∧
  r.dumpctl = 0 ∧ r.dumpb = 0 ∧ r.dumpw = 100000 ∧ r.obssel = 0 ∧ r.dbgJob = 0 ∧
  (∀ f, 1 ≤ f → f < 64 → cellGet r.vf (4 * f) = 0 ∧ cellGet r.vf (4 * f + 1) = 0x80000000 ∧ cellGet r.vf (4 * f + 2) = 0) ∧
  (∀ n, n < 18 → r.linkStat n = 0x3C) ∧ (∀ d, cellGet r.err d = 0 ∧ cellGet r.margin d = 0) ∧ (∀ n, cellGet r.wpctl n = 0 ∧ cellGet r.wpaddr n = 0) ∧
  (∀ p k, r.pool p k = 0) ∧ cellsWf r.vf = true ∧ cellsWf r.vfNow = true

/-- R11, R346: a reset leaves every record as it is right after reset, but for reference time and what the flash holds; the power goes away with a
power-down until the next reset; an image that failed its check is reloaded, and then reset follows.
R11, R346: a step takes the move that stands first, or what the world outside supplies. A package without power takes only its reset, and one
whose image failed its check only reset, recovery, power-down and time; every other event is executed.
Every step goes on: no step of the machine stops with a fault or a refusal, for its faults are taken as R181 to R183 say.
What the spec leaves open in it is the model's reading: logs 1, 4, 10. -/
def Obligations.MachineGoesOn : Prop :=
  (
  (∀ (s : State), ∃ d, exec .packageReset s = .next { s with dev := d } ∧ d.time = s.dev.time ∧ d.power = true ∧ d.trust.good = s.dev.trust.good ∧
    d.trust.mr0 = s.dev.trust.mr0 ∧ d.trust.mr1 = s.dev.trust.mr1 ∧ d.trust.mr2 = List.replicate 64 0 ∧ d.groups = [] ∧ d.jobs = [] ∧ d.queues = [] ∧
    d.regs = Regs.reset ∧ d.moves = [] ∧ d.cur = none) ∧
  (∀ (s : State), exec .packagePowerDown s = .next (s.withDev fun d => { d.afterReset with power := false })) ∧
  (∀ (s : State) good, s.dev.trust.good = true → exec (.recoveryLoad good) s = .next s) ∧
  (∀ (s : State) good, s.dev.trust.good = false → ∃ d, exec (.recoveryLoad good) s = .next { s with dev := d } ∧ d.trust.good = good ∧
    d.trust.mr0 = Config.reloadHash s.dev.free ∧ d.regs = Regs.reset ∧ d.jobs = [] ∧ d.time = s.dev.time)) ∧
  (
  (∀ (s : State) i ms, s.dev.moves = .input (.event i) :: ms → s.dev.power = true → s.dev.trust.good = true →
    step s = exec i (s.withDev fun d => { d with moves := ms })) ∧
  (∀ (s : State), s.dev.moves = [] → step s = takeInput (Config.freeInput s.dev.free) (s.withDev fun d => { d with free := d.free + 1 })) ∧
  (∀ (s : State) i ms, s.dev.moves = .input (.event i) :: ms → (s.dev.power = false ∧ i ≠ .packageReset ∨
      s.dev.trust.good = false ∧ i ≠ .packageReset ∧ i ≠ .packagePowerDown ∧ ∀ good, i ≠ .recoveryLoad good) →
    step s = .next (s.withDev fun d => { d with moves := ms })) ∧
  (∀ (s : State) k lane ms g h i la, s.dev.moves = .word k lane :: ms →
    let s0 := s.withDev fun d => { d with moves := ms }
    s0.dev.group? k = some g → s0.dev.launch? k.launch = some la → g.mayIssue = true → g.isLive lane = true → (g.lane lane).hold = some h →
    heldWord la (g.lane lane) = some i →
    step s = (match exec i (s0.issuing (heldIssue g la lane h)) with | .next t => .next (t.issued k) | o => o)) ∧
  (∀ (s : State) k lane ms g la, s.dev.moves = .word k lane :: ms →
    let s0 := s.withDev fun d => { d with moves := ms }
    let pc := (g.lane lane).pc
    s0.dev.group? k = some g → s0.dev.launch? k.launch = some la → g.mayIssue = true → g.isLive lane = true → (g.lane lane).hold = none →
    (s0.batchWaits g la lane ≠ none → step s = .next s0) ∧
    (s0.batchWaits g la lane = none → ∀ m, packetMisfit la pc = some m →
      step s = .next ((s0.did (takeFault k (g.batchOf lane) (mkPc (pcPkt pc) m.slot) true
        { code := m.code, cause := m.slot % 4 + m.reason % 16 * 16 })).withDev fun d => d.modGroup k fun x => x.backTo (g.batchOf lane) pc)))) ∧
  (
  ∀ s, ∃ t, step s = .next t)

/-! ### The machine as a whole -/

/-- Every step keeps each memory in its canonical form: addresses rise, and no byte is listed that an unlisted one reads as. -/
def Obligations.MemoriesStayCanonical : Prop := ∀ s t, s.Inv → step s = .next t → t.Inv

/-- R36, R40, R44, R47: where a batch may issue its next word and the word decodes to an instruction, the step is the execution of that instruction
for the batch, whose lanes have moved on to the next word, in the state in which its group waits for the stall count and has counted the word.
What the spec leaves open in it is the model's reading: logs 1, 50, 55, 63. -/
def Obligations.StepRunsWord : Prop :=
  (∀ (s : State) k lane ms g la u i, s.dev.moves = .word k lane :: ms →
    let s0 := s.withDev fun d => { d with moves := ms }
    let pc := (g.lane lane).pc
    let c := issueOf g (g.batchOf lane) pc u
    s0.dev.group? k = some g → s0.dev.launch? k.launch = some la → g.mayIssue = true → g.isLive lane = true → (g.lane lane).hold = none →
    s0.batchWaits g la lane = none → packetMisfit la pc = none → s0.dev.stopsAt g la pc [u] = false → chainMisfit [u] = none →
    la.nextWords pc = [u] → decode (la.wordAt pc) = .ok i →
    step s = (match exec i ((s0.advanced g la lane [u]).issuing c) with
      | .next t => .next { t with dev := (t.issued k).dev.modGroup k fun x => x.atBrk pc [u] }
      | o => o)) ∧
  (∀ (la : Launch) pc, pcSlot pc < 3 → chainBit (la.wordAt pc) = false ∨ pcSlot pc = 2 → la.nextWords pc = [slotted la (pcPkt pc) (pcSlot pc)]) ∧
  (∀ (s : State) g la lane u, let t := s.advanced g la lane [u]
    t.pad = s.pad ∧ t.main = s.main ∧ t.blk = s.blk ∧ t.stk = s.stk ∧ ∃ h, t.dev.group? g.key = some h ∧
      h.nextIssue = s.dev.now g + 1 + u.ctl.dly ∧ h.q = cellSet g.q 3 (cellGet g.q 3 + 1) ∧
      (∀ m ∈ g.batchOf lane, m < g.lanes.length → (h.lane m).pc = pcNext (mkPc (pcPkt (g.lane lane).pc) u.slot)) ∧
      ∀ m, m ∉ g.batchOf lane → (h.lane m).pc = (g.lane m).pc)

/-- R134, R135, R137, R138: an issue opportunity takes an urgent ready group before any other, a normal one before a yielding one, then the oldest, then the
lower slot; the batch of it that has waited the most issues; a group that was ready and not taken grows older by one, and every other one's age is 0. R103: a yield is over once every other
ready group of the core has issued. -/
def Obligations.Arbiter : Prop :=
  (∀ (s : State) die core ms, s.dev.moves = .opportunity die core :: ms →
    step s = .next ((s.withDev fun d => { d with moves := ms }).did (opportunity die core))) ∧
  (∀ (s : State) die core, s.candidates die core = [] → ∃ d, s.did (opportunity die core) = { s with dev := d } ∧ d.moves = s.dev.moves) ∧
  (∀ (s : State) die core, ∃ d, ({ s with dev := s.dev.endYields die core ((s.candidates die core).map Candidate.slot) } : State) = { s with dev := d } ∧
    ∀ g ∈ s.dev.groups, ∃ h ∈ d.groups, h.key = g.key ∧ (h.yieldUntil = none ↔ g.yieldUntil = none ∨
      ∃ p, g.place = some p ∧ p.die = die ∧ p.core = core ∧ ∀ c ∈ s.candidates die core, c.slot = p.slot ∨ c.slot ∈ g.yieldSlots)) ∧
  (∀ (s0 : State) die core, s0.candidates die core ≠ [] →
    let s := { s0 with dev := s0.dev.endYields die core ((s0.candidates die core).map Candidate.slot) }
    ∃ d c, ∃ more : List Candidate, s0.did (opportunity die core) = { s with dev := d } ∧
    c ∈ s.candidates die core ∧ d.moves = (c :: more).map (fun x => .word x.key x.lane) ++ s.dev.moves ∧
    (∀ x ∈ s.candidates die core, x.before (s.dev.onCore die core).length c = false) ∧
    (∀ x ∈ more, x ∈ s.candidates die core ∧ (∃ u w, c.words = [u] ∧ x.words = [w] ∧ w.pipe = u.pipe)) ∧
    c.width + natSum (more.map Candidate.width) ≤ max 64 c.width ∧
    d.groups = s.dev.groups.map fun g => match g.place with
      | some p => if p.die = die ∧ p.core = core then { g with age :=
            if ∃ x ∈ c :: more, x.key = g.key then 0 else if ∃ x ∈ s.candidates die core, x.key = g.key then g.age + 1 else 0 } else g
      | none => g) ∧
  (∀ n (a b : Candidate), a.before n b = true ↔
    (n ≤ a.age ∧ b.age < n) ∨ ((n ≤ a.age ↔ n ≤ b.age) ∧
      ((a.age < n ∧ a.yields = false ∧ b.yields = true) ∨ ((n ≤ a.age ∨ a.yields = b.yields) ∧ (b.age < a.age ∨ b.age = a.age ∧ a.slot < b.slot))))) ∧
  (∀ (s : State) die core c, c ∈ s.candidates die core → ∃ g la p, g ∈ s.dev.groups ∧ g.place = some p ∧ p.die = die ∧ p.core = core ∧
    s.dev.launch? g.key.launch = some la ∧ c.key = g.key ∧ c.slot = p.slot ∧ c.age = g.age ∧ g.mayIssue = true ∧ s.batchWaits g la c.lane = none ∧
    s.dev.pipesFree p (la.nextWords (g.lane c.lane).pc) = true ∧
    ∀ m ∈ s.readyBatches g la p, (g.lane m).waited < (g.lane c.lane).waited ∨ (g.lane m).waited = (g.lane c.lane).waited ∧ c.lane ≤ m)

/-- R46, R52, R53, R139, R140: a word that breaks a check which all words share takes the fault of the first one, and does nothing else. R52: under
UCHK the sources of an S word, the condition of `s.br`, and those of the words that say so are compared bit for bit across the live lanes that are on.
R49, R53, R181 to R183, R382: a fault of a group queues its record for the job's fault buffer, brings its lanes back to the word, changes no register and no memory
of the chip, and halts the group. It ends the job with its code, but for WATCH and BRK where a debugger is attached: then the group stops.
What the spec leaves open in it is the model's reading: logs 50, 51, 55. -/
def Obligations.ChecksAndFaults : Prop :=
  (
  (∀ i : Instr, i.isWord = true → checksItself i = false → ∃ vals : State → Issue → Group → Launch → List (Nat × Nat),
    (checksValues i = false → vals = fun _ _ _ _ => []) ∧ ∀ s c g la f, s.dev.cur = some c → s.dev.group? c.g = some g → s.dev.launch? c.g.launch = some la →
    valuedFault s.dev g la c i (vals s c g la) = some f → exec i s = .next (s.faults c f)) ∧
  -- R52: the words whose sources are compared under UCHK
  (∀ i : Instr, i.isWord = true → (i.scalar = true ↔ encodeNat i / 2 ^ 30 % 2 = 1)) ∧
  (∀ i : Instr, i.uni = true ↔ i.scalar = true ∨ (match i with
    | .stMask _ _ _ _ | .ldMask _ _ _ _ => True
    | .mxZero _ | .mxDrain _ _ _ | .mxLd _ _ _ | .mxBand _ | .mxStat _ _ | .cuvLoadBlk _ _ | .cuvLoadPad _ _ => True
    | .vtNew _ _ | .vtSet _ | .vtDrop _ | .vtMerge _ => True
    | .cpG2s _ _ | .cpS2g _ _ | .cpS2s _ _ _ | .cpTG2s _ _ | .cpTS2g _ _ | .migPost _ => True
    | .rcpPut _ | .rcpGet _ | .ratom _ _ _ | .collPost _ => True
    | _ => False)) ∧
  (∀ (i : Instr) s c g la f, i.isWord = true → i.uni = true → checksItself i = false → checksValues i = false → s.dev.cur = some c →
    s.dev.group? c.g = some g → s.dev.launch? c.g.launch = some la → i.fieldFault = none →
    (s.dev.holdsX g = true ∨ extendedField i.operands = none) → divRegField la.divDepth i.operands = none → c.fresh = true → g.sbchk = false →
    g.uchk = true → nonuniformField s.dev g c (i.operands.filter i.compares) = some f →
    exec i s = .next (s.faults c { code := .nonuniform, cause := checkCause (pcSlot c.loc) f 15 })) ∧
  (∀ (d : Dev) (g : Group) c os,
    let differ := fun o => ∃ k ∈ c.on, ∃ l ∈ c.on, g.isLive k = true ∧ g.isLive l = true ∧ opndWords d g c k o ≠ opndWords d g c l o
    (nonuniformField d g c os = none ↔ ∀ o ∈ os, ¬ differ o) ∧
    ∀ f, nonuniformField d g c os = some f → (∃ o ∈ os, o.field = f ∧ differ o) ∧ ∀ o ∈ os, differ o → f ≤ o.field) ∧
  (∀ (d : Dev) (g : Group) c l (o : Opnd), (o.rd = false → opndWords d g c l o = []) ∧ (o.rd = true →
    (∀ len al, o.cls = .v len al → opndWords d g c l o = (countFrom o.n len).map fun n => (srcV d g c l n).toNat) ∧
    (o.cls = .m → opndWords d g c l o = [(cellGet (g.lane l).m o.n).toNat]) ∧
    (∀ neg, o.cls = .p neg → opndWords d g c l o = [((g.lane l).predF o.n).toNat]))) ∧
  (∀ (s : State) c g la k, s.dev.cur = some c → s.dev.group? c.g = some g → s.dev.launch? c.g.launch = some la →
    (c.stop = false → exec (.brk k) s = .next (s.faults c { code := .illegalOpcode, cause := checkCause (pcSlot c.loc) 0 4 })) ∧
    (c.stop = true → ∀ f, commonFault s.dev g la c (.brk k) (Instr.latency (.brk k)) = some f → exec (.brk k) s = .next (s.faults c f))) ∧
  (∀ (s : State) c g la d a t f, s.dev.cur = some c → s.dev.group? c.g = some g → s.dev.launch? c.g.launch = some la →
    drainCheck d a t s c g la = some f → exec (.mxDrain d a t) s = .next (s.faults c f)) ∧
  (∀ d g la c i, valuedFault d g la c i [] = commonFault d g la c i i.latency) ∧
  (∀ d g la c i field, valuedFault d g la c i [(12, field)] = some { code := .illegalOperand, cause := match i.fieldFault with
    | some (r, f) => if r < 12 ∨ (r = 12 ∧ f < field) then checkCause (pcSlot c.loc) f r else checkCause (pcSlot c.loc) field 12
    | none => checkCause (pcSlot c.loc) field 12 }) ∧
  (∀ i s, i.isWord = true → (s.dev.cur = none ∨ ∃ c, s.dev.cur = some c ∧ (s.dev.group? c.g = none ∨ s.dev.launch? c.g.launch = none)) →
    exec i s = .next s) ∧
  (∀ d g la c i lat r f, i.fieldFault = some (r, f) → commonFault d g la c i lat = some { code := .illegalOperand, cause := checkCause (pcSlot c.loc) f r }) ∧
  (∀ d g la c i lat f, i.fieldFault = none → d.holdsX g = false → c.fresh = true → extendedField i.operands = some f →
    commonFault d g la c i lat = some { code := .xregNotHeld, cause := checkCause (pcSlot c.loc) f 13 }) ∧
  (∀ d g la c i lat f, i.fieldFault = none → (d.holdsX g = true ∨ c.fresh = false ∨ extendedField i.operands = none) → divRegField la.divDepth i.operands = some f →
    commonFault d g la c i lat = some { code := .divReg, cause := checkCause (pcSlot c.loc) f 13 }) ∧
  (∀ d g la c i lat f, i.fieldFault = none → (d.holdsX g = true ∨ extendedField i.operands = none) → divRegField la.divDepth i.operands = none →
    c.fresh = true → g.sbchk = true →
    (if guardLate g c (d.now g) then some 0 else
      shortField g (i.operands.filter fun o => !latchedRun g c i o) (d.now g) lat (g.readLanes c i) c.on) = some f →
    commonFault d g la c i lat = some { code := .stallShort, cause := checkCause (pcSlot c.loc) f 14 }) ∧
  (∀ (g : Group) c now, guardLate g c now = true ↔ c.on ≠ [] ∧ c.guard % 16 ≠ 15 ∧ ∃ l ∈ c.lanes, g.lateRead l (.p (c.guard % 16)) now = true) ∧
  (∀ (g : Group) os now lat rl ls, (shortField g os now lat rl ls = none ↔ ∀ o ∈ os,
      (o.rd = true → ∀ l ∈ rl o, ∀ dst ∈ g.opndDests l o, g.lateRead l dst now = false) ∧
      (o.wr = true → ∀ l ∈ ls, ∀ dst ∈ g.opndDests l o, g.lateWrite l dst (now + lat) = false)) ∧
    ∀ f, shortField g os now lat rl ls = some f → ∃ o ∈ os, o.field = f) ∧
  (∀ (g : Group) l o neg, o.cls = .p neg → o.n % 16 = 15 → g.opndDests l o = []) ∧
  (∀ d g la c i lat f, i.fieldFault = none → (d.holdsX g = true ∨ extendedField i.operands = none) → divRegField la.divDepth i.operands = none →
    c.fresh = true → g.sbchk = false → g.uchk = true → nonuniformField d g c (i.operands.filter i.compares) = some f →
    commonFault d g la c i lat = if i.uni = true then some { code := .nonuniform, cause := checkCause (pcSlot c.loc) f 15 } else none) ∧
  (∀ d g la c i lat, (c.fresh = false ∨ g.sbchk = false ∧ g.uchk = false) → (commonFault d g la c i lat = none ↔
    i.fieldFault = none ∧ (d.holdsX g = true ∨ c.fresh = false ∨ extendedField i.operands = none) ∧ divRegField la.divDepth i.operands = none)) ∧
  (∀ slot f r, slot < 3 → f < 4 → r < 16 → checkCause slot f r = slot + 4 * f + 16 * r)) ∧
  (
  (∀ (s : State) k ls loc precise f g la j, s.dev.group? k = some g → s.dev.launch? k.launch = some la → s.dev.job? la.job = some j →
    let t := s.did (takeFault k ls loc precise f)
    let stop := f.code.forDebugger && s.dev.debugged j.id
    t.pad = s.pad ∧ t.main = s.main ∧ t.blk = s.blk ∧ t.stk = s.stk ∧ t.dev.launches = s.dev.launches ∧ t.dev.blocks = s.dev.blocks ∧
    (∃ h, t.dev.group? k = some h ∧ h.run = (if stop then .stopped else .faulted) ∧ h.gsr = g.gsr ∧ h.q = g.q ∧ h.pend = g.pend ∧ h.acc = g.acc ∧
      (∀ m ∈ ls, m < g.lanes.length → (h.lane m).pc = loc) ∧ (∀ m, m ∉ ls → h.lane m = g.lane m) ∧
      ∀ m, (h.lane m).v = (g.lane m).v ∧ (h.lane m).m = (g.lane m).m ∧ (h.lane m).pw = (g.lane m).pw ∧ (h.lane m).ssp = (g.lane m).ssp) ∧
    (∀ x, x ≠ k → t.dev.group? x = s.dev.group? x) ∧
    ∃ x, t.dev.job? la.job = some x ∧
      (stop = true → x.ending = j.ending ∧ (j.deleted = false →
        x.records = j.records ++ [(faultRecord s.dev g la loc f false precise).with_ (secondRecord s.dev g la loc f precise)])) ∧
      (stop = false → j.ending = none → x.ending = some s.dev.time ∧ x.code = f.code.num ∧ (j.recordsMade + 2 ≤ 16 →
        x.records = j.records ++ [(faultRecord s.dev g la loc f true precise).with_ (secondRecord s.dev g la loc f precise)])) ∧
      (stop = false → j.ending ≠ none → x.ending = j.ending ∧ x.code = j.code)) ∧
  (∀ (j : Job) r bs, j.deleted = false → j.recordsMade + 2 ≤ 16 → (j.queue r bs).records = j.records ++ [r.with_ bs]) ∧
  (∀ (j : Job) r bs, j.deleted = false → j.recordsMade + 1 = 16 → (j.queue r bs).records = j.records ++ [r]) ∧
  (∀ (j : Job) r bs, (j.deleted = true ∨ 16 ≤ j.recordsMade) → j.queue r bs = j) ∧
  (∀ (r : FaultRec) bs, (r.with_ bs).data = r.data ++ bs ∧ (r.with_ bs).time = r.time ∧ (r.with_ bs).order = r.order) ∧
  (∀ d g la loc f precise, (f.second = none → secondRecord d g la loc f precise = []) ∧ ∀ b n, f.second = some (b, n) →
    let bs := secondRecord d g la loc f precise
    bs.length = 64 ∧ leNat (bs.take 1) = f.code.num % 2 ^ 8 ∧ leNat ((bs.drop 8).take 8) = la.id.toNat ∧ leNat ((bs.drop 16).take 4) = b % 2 ^ 32 ∧
      leNat ((bs.drop 20).take 1) = n % 2 ^ 8 ∧ leNat ((bs.drop 40).take 8) = f.faddr % 2 ^ 64 ∧ leNat ((bs.drop 52).take 4) = f.aux % 2 ^ 32) ∧
  (∀ d g la loc f ends precise, let r := faultRecord d g la loc f ends precise
    r.time = d.time ∧
    ∃ bs, r.data = bs ++ f.extra ∧ bs.length = 64 ∧ leNat (bs.take 1) = f.code.num % 2 ^ 8 ∧
      leNat ((bs.drop 1).take 1) = (if precise then 1 else 0) + (if ends then 4 else 0) + (if f.extra = [] then 0 else 8) ∧
      leNat ((bs.drop 4).take 4) = la.job % 2 ^ 32 ∧ leNat ((bs.drop 8).take 8) = la.id.toNat ∧ leNat ((bs.drop 16).take 4) = g.key.block % 2 ^ 32 ∧
      leNat ((bs.drop 20).take 1) = g.key.group % 2 ^ 8 ∧ leNat ((bs.drop 32).take 8) = loc.toNat ∧ leNat ((bs.drop 40).take 8) = f.faddr % 2 ^ 64 ∧
      leNat ((bs.drop 48).take 4) = f.cause % 2 ^ 32 ∧ leNat ((bs.drop 52).take 4) = f.aux % 2 ^ 32 ∧
      leNat ((bs.drop 56).take 8) = d.timeFor la.job d.time % 2 ^ 64))

/-- R41, R42: the results of a word are on their way, to land its latency of die cycles after its issue, and no register changes at the issue. Of
the results on their way to a v register those that are due land, and a register for which none is due is as it was; of two writes to one
register that are pending the one that lands later leaves its value. A landing keeps the group's register files in their canonical form, which a
new group's have, and p15 reads 1 in every lane. R41: the latencies, by opcode.
What the spec leaves open in it is the model's reading: log 6. -/
def Obligations.ResultsLand : Prop :=
  (∀ (d : Dev) k g cyc l n, d.group? k = some g → l < g.lanes.length → cellsWf (g.lane l).v = true →
    ∃ h, (d.landDue k cyc).group? k = some h ∧ h.pend = g.pend.filter (fun p => decide (cyc < p.land)) ∧ h.lanes.length = g.lanes.length ∧
      (∀ p ∈ g.pend, p.lane = l → p.dst = .v n → p.land ≤ cyc → (∀ q ∈ g.pend, q.lane = l → q.dst = .v n → q.land ≤ cyc → q.val = p.val) →
        cellGet (h.lane l).v n = p.val.setWidth 32) ∧
      ((∀ p ∈ g.pend, p.lane = l → p.dst = .v n → cyc < p.land) → cellGet (h.lane l).v n = cellGet (g.lane l).v n) ∧
      (h.lane l).pc = (g.lane l).pc ∧ (h.lane l).mode = (g.lane l).mode ∧ (h.lane l).hold = (g.lane l).hold) ∧
  (∀ (d : Dev) k g c1 c2 l n p q, d.group? k = some g → l < g.lanes.length → cellsWf (g.lane l).v = true → p ∈ g.pend → q ∈ g.pend →
    p.lane = l → q.lane = l → p.dst = .v n → q.dst = .v n → p.land ≤ c1 → c1 < q.land → q.land ≤ c2 →
    (∀ x ∈ g.pend, x.lane = l → x.dst = .v n → x = p ∨ x = q) →
    ∃ h, ((d.landDue k c1).landDue k c2).group? k = some h ∧ cellGet (h.lane l).v n = q.val.setWidth 32) ∧
  (∀ (g : Group) l dst v, g.Wf → (g.land l dst v).Wf) ∧
  (∀ (d : Dev) k g cyc, d.group? k = some g → g.Wf → ∃ h, (d.landDue k cyc).group? k = some h ∧ h.Wf) ∧
  (∀ (la : Launch) b n p, (newGroup la b n p).Wf) ∧
  (∀ (d : Dev) k g lat outs, d.group? k = some g → ∃ h, (d.retire k lat outs).group? k = some h ∧ h.lanes = g.lanes ∧ h.gsr = g.gsr ∧ h.q = g.q ∧
    ∀ q, q ∈ h.pend ↔ q ∈ g.pend ∨ ∃ o ∈ outs, q = ⟨o.lane, o.dst, o.val, d.now g + lat⟩) ∧
  (∀ (x : Lane), bitAt x.preds.toNat 15 = true) ∧
  (∀ op, (8 ≤ op ∧ op ≤ 0x17 → latencyOf op = 2) ∧ (op = 3 ∨ op = 7 ∨ op = 0x37 ∨ op = 0x3F → latencyOf op = 3) ∧
    (0x18 ≤ op ∧ op ≤ 0x1F ∧ op ≠ 0x1D ∨ 0x30 ≤ op ∧ op ≤ 0x32 → latencyOf op = 4) ∧ (op = 0x20 ∨ op = 0x22 → latencyOf op = 6) ∧
    (op = 0x1D ∨ op = 0x21 → latencyOf op = 10) ∧ (op = 0x33 → latencyOf op = 8) ∧ (op = 0x28 → latencyOf op = 12))

/-! ### Encodings -/

/-- R44, R50: decoding the word of an instruction, with either chain bit, gives that instruction back, with every operand at every value its field admits. -/
def Obligations.EncodingRoundTrip : Prop :=
  ∀ (i : Instr) (c : Bool), i.isWord = true → decode (encode c i) = .ok i ∧ chainBit (encode c i) = c

/-- R44, R45, R50: a word that decodes is the word of its instruction, bit for bit; unassigned opcodes are rejected; S is rejected where there is no scalar form. -/
def Obligations.WordsHaveOneReading : Prop :=
  (∀ (w : Word) i, decode w = .ok i → encode (chainBit w) i = w ∧ i.isWord = true) ∧
  (∀ w : Word, (opOf w ∈ [0x24, 0x25, 0x26, 0x27]) → ∃ r, decode w = .error r ∧ r.reason = 4 ∧ r.field = 0 ∧ r.names = none) ∧
  (∀ (sc : Bool) (d a b : Reg) (w : Word), w = encode false (.add sc d a b) → w.toNat = sc.toNat * 2 ^ 30 + 0x08 * 2 ^ 24 + d.toNat * 2 ^ 17 + a.toNat * 2 ^ 10 + b.toNat * 2 ^ 3) ∧
  (∀ w : Word, (opOf w ∈ [0, 2, 3, 4, 5, 6, 7, 0x17] ∨ 0x1F ≤ opOf w ∧ opOf w ≠ 0x28) → fld w.toNat 30 1 = 1 → ∀ i, decode w ≠ .ok i)

/-- Words that the rules write out decode to the instructions they stand for. -/
def Obligations.WrittenOutWords : Prop :=
  decode 0x1E0E0810 = .ok (.cvt false 7 2 ⟨.f32, .bf16⟩ .rn) ∧ decode 0x101203E8 = .ok (.movi false 9 1000) ∧
  decode 0x3F120805 = .ok (.locQPad 9 2) ∧ decode 0x3B100005 = .ok (.migPost 8) ∧ decode 0x3F001006 = .ok (.bistRun 4) ∧
  decode 0x3F0A000E = .ok (.bistRd 5) ∧ decode 0x3F001003 = .ok (.wpSet 4) ∧ decode 0x3F00100B = .ok (.wpClr 4) ∧ decode 0x3F002404 = .ok (.trcMark 9)

/-! ### Words that complete -/

/-- R170, R172, R173, R205, R207, R223, R228 to R231, R234, R350: words that can have to wait, on the conditions under which nothing keeps them: each answers a
next state, with its own effect in it. The `bar` words and `grid.sync`: a group whose stores are done arrives, and goes on where its fibres are not pending, at once
or once its held batch finds so. `mx.zero`, `mx.drain` and `mx.ld` act on tiles that are free. `cuv.load` takes its image and `cuv.chk` begins its check, and
the end of the hold leaves the slot LOADED, and VALID or INVALID; `bist.run` begins a test, and its end leaves the result.
R140, R252, R254, R255, R265 to R267, R269, R273, R277, R279, R320, R323, R343, R358 to R361, R364: as above for the words of the slot-pair lock, of
objects, of cisterns, of vintages and of the engines. A wait that is over ends, at once or for its held batch; an engine word whose operands pass their checks and that
finds an entry of the log and room in the headgate tables is in flight, as the last operation.
What the spec leaves open in it is the model's reading: logs 14, 46, 47, 58. -/
def Obligations.WordsComplete : Prop :=
  (
  (∀ n b s c g la, Issues s (.barInit n b) c g la → c.voters g ≠ [] → n.toNat ≤ la.groups → s.dev.barBusy c.g b.toNat = false →
    exec (.barInit n b) s = .next (s.withDev fun d => d.setBarrier c.g b.toNat { d.barrier c.g b.toNat with exp := n.toNat })) ∧
  (∀ b s c g la, Issues s (.barArrive b) c g la → c.resume = none → c.voters g ≠ [] → (∀ f ∈ c.voters g, (g.lane f).isPending b.toNat = false) →
    g.storesDone c = true → g.timedOut true = none →
    exec (.barArrive b) s = .next ((s.did (releaseReads c.g)).withDev fun d => d.arrive c.g b.toNat (c.voters g))) ∧
  (∀ i n s c g la, ((∃ b : BitVec 4, n = b.toNat ∧ i = .barSync b) ∨ (i = .barSyncGang ∧ n = 16) ∨ (i = .gridSync ∧ n = 17)) →
    Issues s i c g la → c.resume = none → c.voters g ≠ [] → (∀ f ∈ c.voters g, (g.lane f).isPending n = false) →
    g.storesDone c = true → g.timedOut true = none →
    let t := (s.did (releaseReads c.g)).withDev fun d => d.arrive c.g n (c.voters g)
    (t.dev.pendingLanes c.g n (c.voters g) = [] → exec i s = .next t) ∧
    (t.dev.pendingLanes c.g n (c.voters g) ≠ [] →
      exec i s = .next (t.did (holdLanes c i (t.dev.pendingLanes c.g n (c.voters g)) (.barrier n) 5 (.bar n 0))))) ∧
  (∀ i n s c g la h m, ((∃ b : BitVec 4, n = b.toNat ∧ (i = .barSync b ∨ i = .barWait b)) ∨ (i = .barSyncGang ∧ n = 16) ∨ (i = .gridSync ∧ n = 17)) →
    Issues s i c g la → c.resume = some h → h.kind = .barrier m → c.voters g ≠ [] → (∀ f ∈ c.voters g, (g.lane f).isPending n = false) →
    exec i s = .next (s.did (releaseLanes c.g (c.voters g) (pcNext c.loc)))) ∧
  (∀ b s c g la, Issues s (.barWait b) c g la → c.resume = none → (∀ f ∈ c.voters g, (g.lane f).isPending b.toNat = false) →
    exec (.barWait b) s = .next s) ∧
  (∀ t s c g la, Issues s (.mxZero t) c g la → c.voters g ≠ [] →
    tileFault s c (c.group g) la [t.toNat] true = none → s.tilesFree c (c.group g) la [t.toNat] = true →
    exec (.mxZero t) s = .next ((s.withDev fun d => d.modBlock g.key.launch g.key.block fun b =>
      { b.setStat t.toNat 15 0 with tiles := cellClear b.tiles (4096 * t.toNat) 4096 }).did (goOn c))) ∧
  (∀ d a t s c g la ld k xs, Issues s (.mxDrain d a t) c g la → drainCheck d a t s c g la = none → g.leader c.on = some ld →
    drainCtl (leadV s g c ld a) d.toNat t.toNat = some k →
    let gi := c.group g
    let ts := tilesOf (decide (k.fmt = 9)) t.toNat
    drainMem s c gi la k ld (leadV s g c ld d) (c.voters g) = .ok xs → tileFault s c gi la ts true = none → s.tilesFree c gi la ts = true →
    drainBlocked s c gi la xs = none → (k.dst = 0 ∨ s.negv g.key ts = false ∨ gi.nvf = false) →
    exec (.mxDrain d a t) s = .next (((s.did (drainGive s c gi la k d.toNat t.toNat xs)).after c.g 4
      (outFlags (drainFlags s c gi k t.toNat ||| if k.dst ≠ 0 ∧ s.negv g.key ts = true then 32 else 0))).did (goOn c))) ∧
  (∀ s c g la k ld base ls, k.dst ≤ 1 → drainMem s c g la k ld base ls = .ok [] ∧
    (g.acquiring = false → drainBlocked s c g la [] = none)) ∧
  (∀ d a t s c g la ld xs, Issues s (.mxLd d a t) c g la → g.leader c.on = some ld →
    let gi := c.group g
    let cw := leadV s g c ld a
    let base := leadV s g c ld d
    let ts := tilesOf (decide (cw % 16 = 9)) t.toNat
    let n := 4096 * drainSize (cw % 16)
    (c.resume = none → mxLdBad cw = false) → mxLdReads s c gi la ld (bitAt cw 4) base (drainSize (cw % 16)) = .ok xs →
    tileFault s c gi la ts true = none → s.tilesFree c gi la ts = true → s.dev.readsReady gi (c.mark gi) xs = true →
    exec (.mxLd d a t) s = .next (((s.withDev fun dv => (dv.touched gi la xs .other).modBlock g.key.launch g.key.block fun b =>
      loadTiles b (cw % 16) t.toNat (s.groupBytes gi la (bitAt cw 4) base n).toArray).did (dropDue c)).did (goOn c))) ∧
  (∀ (pad : Bool) a n s c g la ld xs, Issues s (if pad then .cuvLoadPad a n else .cuvLoadBlk a n) c g la → c.resume = none →
    g.leader c.on = some ld → s.dev.slotTaken n.toNat la.job = false →
    let i : Instr := if pad then .cuvLoadPad a n else .cuvLoadBlk a n
    let addr := leadV s g c ld a
    addr % 32 = 0 → pieces s.dev g la (pcSlot c.loc) ld pad addr 1536 6 .read = .ok xs →
    let s1 := s.withDev fun d => { d with cuvOwner := upsert (fun e => decide (e.1 = n.toNat)) (n.toNat, la.job) d.cuvOwner }
    exec i s = .next (
      if (∀ e ∈ (s.dev.clusterOf g).all, e.cuv ≠ n.toNat) ∧ s.dev.slotAhead (s.dev.clusterOf g) n.toNat s.dev.batchSeq = false ∧
          s.dev.readsReady g (c.mark g) xs = true then
        (s1.withDev fun d => d.touched g la xs .other).did
          (holdTaking c i c.lanes (.cuvee (s.dev.now g + if pad then 0 else 96)) 7 .none (s.groupBytes g la pad addr 1536))
      else (s1.did (holdLanes c i c.lanes (.slot g.gsr) 7 .none)).did (putDue c false xs))) ∧
  (∀ s k lane g la ld h (pad : Bool) a n, s.dev.group? k = some g → s.dev.launch? k.launch = some la → s.dev.cuveeDue g lane = true →
    heldWord la (g.lane lane) = some (if pad then .cuvLoadPad a n else .cuvLoadBlk a n) → g.heldLeader (g.heldWith lane) = some ld →
    (g.lane lane).hold = some h → (∀ e ∈ (s.dev.clusterOf g).all, e.cuv ≠ n.toNat) → s.dev.slotAhead (s.dev.clusterOf g) n.toNat h.batch = false →
    exec (.cuveeLoadComplete k lane) s = .next ((s.withDev fun d =>
      (d.restartChecks (d.clusterOf g) n.toNat h.bytes).setCluster ((d.clusterOf g).setSlot ⟨n.toNat, h.bytes, .loaded, 0⟩)).did
      (releaseLanes k (g.heldWith lane) (pcNext (g.lane ld).pc)))) ∧
  (∀ d n s c g la x, Issues s (.cuvChk d n) c g la → c.resume = none → c.voters g ≠ [] → s.dev.slotReady g la n.toNat = some x →
    exec (.cuvChk d n) s = .next (s.did (holdLanes c (.cuvChk d n) c.lanes (.cuvee (s.dev.now g + chkTime x.image)) 7 .none))) ∧
  (∀ s k lane g la h d n x, s.dev.group? k = some g → s.dev.launch? k.launch = some la → s.dev.cuveeDue g lane = true →
    heldWord la (g.lane lane) = some (.cuvChk d n) → (s.dev.clusterOf g).slot? n.toNat = some x → (g.lane lane).hold = some h →
    s.dev.slotAhead (s.dev.clusterOf g) n.toNat h.batch = false →
    exec (.cuveeCheckComplete k lane) s = .next (((s.withDev fun v => v.setCluster ((v.clusterOf g).setSlot
        { x with state := (if checkWord x.image % 2 = 1 then .valid else .invalid), word := BitVec.ofNat 64 (checkWord x.image) })).did
      (landSlots k ((g.heldOn (g.heldWith lane)).flatMap fun m => g.slots m d.toNat 2) (checkWord x.image))).did
      (releaseLanes k (g.heldWith lane) (pcNext (g.lane lane).pc)))) ∧
  (∀ d n s c g la, Issues s (.cuvRd d n) c g la → c.voters g ≠ [] → (n = 0 ∨ s.dev.slotTaken n.toNat la.job = false) →
    exec (.cuvRd d n) s = .next (s.after c.g 4 (c.on.flatMap fun m => outRun g m d.toNat 2 (slotWord (s.dev.clusterOf g) n.toNat)))) ∧
  (∀ a s c g la ld, Issues s (.bistRun a) c g la → c.resume = none → g.leader c.on = some ld → (s.dev.jobOf la).test = true →
    (leadV s g c ld a = 0 ∨ (leadV s g c ld a = 1 ∨ leadV s g c ld a = 2) ∧ s.dev.aloneOnCore g = true) →
    exec (.bistRun a) s = .next (s.did (holdLanes c (.bistRun a) c.lanes (.bist 0) 3 .none))) ∧
  (∀ a s c g la ld, Issues s (.bistRun a) c g la → c.resume = none → g.leader c.on = some ld → (s.dev.jobOf la).test = true →
    leadV s g c ld a = 3 → (s.dev.clusterOf g).all = [] → (s.dev.clusterOf g).bist = false →
    exec (.bistRun a) s = .next ((s.withDev fun d => d.setCluster { d.clusterOf g with bist := true }).did
      (holdLanes c (.bistRun a) c.lanes (.bist 0) 7 .none))) ∧
  (∀ d s c g la, Issues s (.bistRd d) c g la → c.voters g ≠ [] → (s.dev.jobOf la).test = true →
    exec (.bistRd d) s = .next (s.after c.g 3 (c.on.flatMap fun m => outRun g m d.toNat 1 g.bist.toNat)))) ∧
  (
  (∀ s c g la, Issues s .xregAcq c g la → c.voters g ≠ [] → la.xregs = true → s.dev.holdsX g = true → exec .xregAcq s = .next (s.did (goOn c))) ∧
  (∀ s c g la p, Issues s .xregRel c g la → c.voters g ≠ [] → la.xregs = true → s.dev.holdsX g = true → g.place = some p →
    exec .xregRel s = .next (s.withDev fun d => d.setXset { d.xsetAt p with releasing := true })) ∧
  (∀ a b s c g la ld x, Issues s (.objWait a b) c g la → c.resume = none → g.leader c.on = some ld →
    objAccess s.dev g la ld (leadV s g c ld a) false = .ok x →
    let o : ObjRef := ⟨x.store, x.off⟩
    let s1 := s.withDev fun d => d.touchRace g la x .other
    let v := leadV s1 g c ld b % 2 ^ 16
    v ≠ s.objPhase o → g.objBusy o = false → s.objErr o = 0 →
    exec (.objWait a b) s = .next (s1.withDev fun d =>
      d.acquire c.g (codeScope la g.key.block (leadV s g c ld a)) (d.arrivers o v (s.objPhase o)))) ∧
  (∀ d a b s c g la ld x, Issues s (.objWaitSt d a b) c g la → c.resume = none → g.leader c.on = some ld →
    objAccess s.dev g la ld (leadV s g c ld a) false = .ok x →
    let o : ObjRef := ⟨x.store, x.off⟩
    let s1 := s.withDev fun d => d.touchRace g la x .other
    let v := leadV s1 g c ld b % 2 ^ 16
    v ≠ s.objPhase o → g.objBusy o = false →
    exec (.objWaitSt d a b) s = .next ((s1.withDev fun d =>
      d.acquire c.g (codeScope la g.key.block (leadV s g c ld a)) (d.arrivers o v (s.objPhase o))).did
      (landSlots c.g (c.on.flatMap fun l => g.slots l d.toNat 2) (s.objStatus o)))) ∧
  (∀ a b s c g la ld h code o, Issues s (.objWait a b) c g la → c.resume = some h → h.kind = .obj code → g.leader c.on = some ld →
    objRefOf la g.key.block (leadV s g c ld a) = some o → leadV s g c ld b % 2 ^ 16 ≠ s.objPhase o → g.objBusy o = false → s.objErr o = 0 →
    exec (.objWait a b) s = .next ((s.withDev fun d =>
      d.acquire c.g (codeScope la g.key.block (leadV s g c ld a)) (d.arrivers o (leadV s g c ld b % 2 ^ 16) (s.objPhase o))).did (releaseLanes c.g c.lanes (pcNext c.loc)))) ∧
  (∀ a s c g la ld x, Issues s (.cstPut a) c g la → c.resume = none → g.leader c.on = some ld →
    objAccess s.dev g la ld (leadV s g c ld a) true = .ok x → s.cstOk ⟨x.store, x.off⟩ = true → g.storesDone c = true → g.timedOut true = none →
    let o : ObjRef := ⟨x.store, x.off⟩
    let s1 := s.withDev fun d => d.touchRace g la x .other
    s.nat o.store o.addr 4 < s.nat o.store (o.addr + 4) 4 → g.objBusy o = false → cstFirst s1.dev g o false c = true →
    exec (.cstPut a) s = .next ((((s1.did (releaseReads c.g)).withDev fun d =>
        d.setObjHeads o 0 (d.objHeads o 0 ++ [d.releaseOf c.g (codeScope la g.key.block (leadV s g c ld a))])).did
      (objStore (some c.g) o 0 (leBytes 4 (s.nat o.store o.addr 4 + 1)))).did (watchWord c la.job (o.padBytes 0 4)))) ∧
  (∀ d a s c g la ld t, Issues s (.vtNew d a) c g la → c.resume = none → g.leader c.on = some ld → g.vt = 0 →
    s.dev.ordinalUsed la.tag 0 (srcV s.dev g c ld a.toNat).toNat = false → s.dev.freeTag = some t →
    exec (.vtNew d a) s = .next ((s.withDev fun dv => dv.setVintage
      { tag := t, parent := 0, depth := 1, ordinal := (srcV s.dev g c ld a.toNat).toNat, launch := la.tag, live := true, closing := none,
        mark := 0, failed := false, next := 0, done := [] }).after c.g 3 (c.on.flatMap fun m => outRun g m d.toNat 1 t))) ∧
  (∀ a s c g la ld v, Issues s (.vtDrop a) c g la → c.resume = none → g.leader c.on = some ld →
    s.dev.retirable la.tag (srcV s.dev g c ld a.toNat) = some v →
    exec (.vtDrop a) s = .next (
      let d := ((s.takeView v.tag).retireVintage v).modGroup c.g fun g => if g.vt = v.tag then g.setVt v.parent else g
      { s with dev := if (d.cursor v.launch v.parent).1 = (s.dev.cursor v.launch v.parent).1 then d else d.acquireMerges c.g v.launch v.parent })) ∧
  (∀ a s c g la ld v, Issues s (.vtMerge a) c g la → c.resume = none → g.leader c.on = some ld →
    s.dev.retirable la.tag (srcV s.dev g c ld a.toNat) = some v →
    exec (.vtMerge a) s = .next (((s.withDev fun d => d.setVintage { v with closing := some c.g, mark := g.accesses }).did (releaseReads c.g)).did
      (holdLanes c (.vtMerge a) c.lanes (.turn v.tag) 11 (.vt 2 v.ordinal)))) ∧
  (∀ a s c g la h t, Issues s (.vtMerge a) c g la → c.resume = some h → h.kind = .turn t → s.dev.liveVt la.tag t = false →
    exec (.vtMerge a) s = .next (s.did (releaseLanes c.g c.lanes (pcNext c.loc)))) ∧
  (∀ i r x k t up, ((i = Instr.cpG2s r x ∧ k = OpKind.g2s false ∧ t = false ∧ up = true) ∨ (i = .cpS2g r x ∧ k = .s2g false ∧ t = false ∧ up = false) ∨
      (i = .cpTG2s r x ∧ k = .g2s true ∧ t = true ∧ up = true) ∨ (i = .cpTS2g r x ∧ k = .s2g true ∧ t = true ∧ up = false)) →
    ∀ s c g la ld rt a n, Issues s i c g la → c.resume = none → g.leader c.on = some ld → g.storesDone c = true → s.dev.logIndex g.die = some n →
    let v := opGroup s g c ld r 6
    let j := s.dev.jobOf la
    copyStep1 v = false → readRange s.dev la j c.g.block (v.getD 2 0) 32 32 = .ok rt →
    let y := layoutOf (s.bytes rt.store rt.off 32)
    let arr := arrayRange s.dev la j c.g.block x (v.getD 0 0) (geomOf y t v).extent 16 fun k => up && ((geomOf y t v).chipSrc k).isSome
    let op := newOp s c g ld k v n (some y) a.store a.store (objOf la c.g.block (v.getD 5 0)) []
    layoutOk (s.bytes rt.store rt.off 32) = true → (geomOf y t v).bad = false → arr = .ok a →
    worstRange ld ((v.getD 0 0, arr) :: objChecks s.dev la j c.g.block (v.getD 5 0)) = none → (s.dev.unheld op.g op.lane).gateRoom op.ranges = true →
    ∃ u, exec i s = .next u ∧ u.dev.ops = s.dev.ops ++ [op] ∧ u.pad = s.pad ∧ u.main = s.main ∧ u.blk = s.blk ∧ u.stk = s.stk) ∧
  (∀ r y x s c g la ld a b n, Issues s (.cpS2s r y x) c g la → c.resume = none → g.leader c.on = some ld → g.storesDone c = true →
    s.dev.logIndex g.die = some n →
    let v := opGroup s g c ld r 6
    let j := s.dev.jobOf la
    let src := arrayRange s.dev la j c.g.block x (v.getD 0 0) (v.getD 2 0) 16 noBytes
    let dst := arrayRange s.dev la j c.g.block y (v.getD 1 0) (v.getD 2 0) 16 (wholeOf (v.getD 2 0))
    let op := newOp s c g ld .s2s v n none a.store b.store (objOf la c.g.block (v.getD 5 0)) []
    s2sStep1 la c.g.block x y v = false → src = .ok a → dst = .ok b →
    worstRange ld ([(v.getD 0 0, src), (v.getD 1 0, dst)] ++ objChecks s.dev la j c.g.block (v.getD 5 0)) = none →
    (s.dev.unheld op.g op.lane).gateRoom op.ranges = true →
    ∃ u, exec (.cpS2s r y x) s = .next u ∧ u.dev.ops = s.dev.ops ++ [op] ∧ u.pad = s.pad ∧ u.main = s.main ∧ u.blk = s.blk ∧ u.stk = s.stk) ∧
  (∀ r s c g la ld n, Issues s (.migPost r) c g la → c.resume = none → g.leader c.on = some ld → g.storesDone c = true → s.dev.logIndex g.die = some n →
    let v := opGroup s g c ld r 6
    let op := newOp s c g ld .mig v n none .pad .pad (objOf la c.g.block (v.getD 5 0)) []
    migBad v = false → worstRange ld (objChecks s.dev la (s.dev.jobOf la) c.g.block (v.getD 5 0)) = none →
    (s.dev.unheld op.g op.lane).gateRoom op.ranges = true →
    ∃ u, exec (.migPost r) s = .next u ∧ u.dev.ops = s.dev.ops ++ [op] ∧ u.pad = s.pad ∧ u.main = s.main ∧ u.blk = s.blk ∧ u.stk = s.stk) ∧
  (∀ (get : Bool) r s c g la ld n, Issues s (if get then .rcpGet r else .rcpPut r) c g la → c.resume = none → g.leader c.on = some ld →
    g.storesDone c = true → s.dev.logIndex g.die = some n →
    let v := opGroup s g c ld r 8
    let st := localStore la g.key.block (v.getD 0 0) (v.getD 4 0)
    let op : EngineOp := { newOp s c g ld (if get then .get else .put) v n none st st (objOf la g.key.block (v.getD 5 0)) [] with
      started := true, link := s.dev.linkFor (remPkg v) }
    rcpBad s.dev v = false → remFault s g la ld v (v.getD 4 0) 16 16 get = none → (s.dev.unheld op.g op.lane).gateRoom op.ranges = true →
    ∃ u, exec (if get then .rcpGet r else .rcpPut r) s = .next u ∧ u.dev.ops = s.dev.ops ++ [op] ∧
      u.pad = s.pad ∧ u.main = s.main ∧ u.blk = s.blk ∧ u.stk = s.stk) ∧
  (∀ r o k s c g la ld n, Issues s (.ratom r o k) c g la → c.resume = none → g.leader c.on = some ld → g.storesDone c = true →
    s.dev.logIndex g.die = some n →
    let v := opGroup s g c ld r 8
    let st := localStore la g.key.block (v.getD 0 0) (raopSize k)
    let op : EngineOp := { newOp s c g ld (.ratom k o.toNat) v n none st st (objOf la g.key.block (v.getD 5 0)) [] with
      started := true, link := s.dev.linkFor (remPkg v) }
    ratomBad s.dev k v = false → remFault s g la ld v (raopSize k) 8 (raopSize k) true = none → (g.det = false ∨ raopOrder k = false) →
    (s.dev.unheld op.g op.lane).gateRoom op.ranges = true →
    ∃ u, exec (.ratom r o k) s = .next u ∧ u.dev.ops = s.dev.ops ++ [op] ∧ u.pad = s.pad ∧ u.main = s.main ∧ u.blk = s.blk ∧ u.stk = s.stk) ∧
  (∀ r s c g la ld n t, Issues s (.collPost r) c g la → c.resume = none → g.leader c.on = some ld → g.storesDone c = true →
    s.dev.logIndex g.die = some n →
    let v := opGroup s g c ld r 8
    let j := s.dev.jobOf la
    let bs := s.bytes t.store t.off 64
    let op := newOp s c g ld .coll (v ++ descOf bs) n none t.store t.store (objOf la g.key.block (v.getD 5 0)) []
    (∀ k ∈ [1, 2, 3, 4, 6, 7], v.getD k 0 = 0) → readRange s.dev la j g.key.block (v.getD 0 0) 64 64 = .ok t →
    worstRange ld ((codeAddr (v.getD 0 0), .ok t) :: objChecks s.dev la j g.key.block (v.getD 5 0)) = none → descOk bs = true →
    (s.dev.unheld op.g op.lane).gateRoom op.ranges = true →
    ∃ u, exec (.collPost r) s = .next u ∧ u.dev.ops = s.dev.ops ++ [op] ∧ u.pad = s.pad ∧ u.main = s.main ∧ u.blk = s.blk ∧ u.stk = s.stk) ∧
  (∀ a s c g la ld t, Issues s (.launchDev a) c g la → c.resume = none → g.leader c.on = some ld → g.storesDone c = true →
    s.dev.childCount la.job < 256 →
    let code := leadV s g c ld a
    let obj := (srcV s.dev g c ld (a.toNat + 1)).toNat
    let j := s.dev.jobOf la
    readRange s.dev la j g.key.block code 64 64 = .ok t → childOk (s.bytes t.store t.off 64) = true →
    worstRange ld (objChecks s.dev la j g.key.block obj) = none →
    exec (.launchDev a) s = .next ((s.did (releaseReads c.g)).withDev fun d =>
      d.addChild la.job la.tag code (s.bytes t.store t.off 64) (objOf la g.key.block obj) g.knows)))
end

