-- ==== Sys2Proof/Laws/Cells.lean ====
section
/-!
SUPPORT. Sparse storage: what a number reads as after a write, and that every write and every removal keeps the canonical form.
-/

namespace Sys2Proof.Machine

variable {w : Nat}

theorem cellsFrom_mono {m : Cells w} {lo k : Nat} (h : cellsFrom lo m = true) (hk : k ≤ lo) : cellsFrom k m = true := by
  cases m with
  | nil => rfl
  | cons c r => simp [cellsFrom] at h ⊢; exact ⟨⟨by omega, h.1.2⟩, h.2⟩

/-- A number below every listed one reads as an unlisted number. -/
theorem cellGet_below {m : Cells w} {lo a : Nat} (h : cellsFrom lo m = true) (ha : a < lo) : cellGet m a = unlisted w := by
  cases m with
  | nil => rfl
  | cons c r =>
    simp [cellsFrom] at h
    have h1 : a ≠ c.1 := by omega
    have h2 : a < c.1 := by omega
    simp [cellGet, h1, h2]

theorem cellsFrom_set {m : Cells w} {lo a : Nat} (v : BitVec w) (h : cellsFrom lo m = true) (ha : lo ≤ a) :
    cellsFrom lo (cellSet m a v) = true := by
  induction m generalizing lo with
  | nil =>
    unfold cellSet
    split <;> simp_all [cellsFrom]
  | cons c r ih =>
    obtain ⟨k, u⟩ := c
    simp only [cellsFrom, Bool.and_eq_true, decide_eq_true_eq] at h
    obtain ⟨⟨h1, h2⟩, h3⟩ := h
    unfold cellSet
    split
    · split
      · simp_all [cellsFrom]
      · simp only [cellsFrom, Bool.and_eq_true, decide_eq_true_eq]
        exact ⟨⟨ha, ‹_›⟩, ⟨by omega, h2⟩, h3⟩
    · split
      · split
        · exact cellsFrom_mono h3 (by omega)
        · simp only [cellsFrom, Bool.and_eq_true, decide_eq_true_eq]
          exact ⟨⟨ha, ‹_›⟩, by subst a; exact h3⟩
      · simp only [cellsFrom, Bool.and_eq_true, decide_eq_true_eq]
        exact ⟨⟨h1, h2⟩, ih h3 (by omega)⟩

/-- A write keeps the canonical form. -/
theorem cellsWf_set {m : Cells w} (a : Nat) (v : BitVec w) (h : cellsWf m = true) : cellsWf (cellSet m a v) = true :=
  cellsFrom_set v h (Nat.zero_le _)

theorem cellsFrom_filter {m : Cells w} {lo : Nat} (p : Nat × BitVec w → Bool) (h : cellsFrom lo m = true) :
    cellsFrom lo (m.filter p) = true := by
  induction m generalizing lo with
  | nil => rfl
  | cons c r ih =>
    simp only [cellsFrom, Bool.and_eq_true, decide_eq_true_eq] at h
    simp only [List.filter_cons]
    split
    · simp only [cellsFrom, Bool.and_eq_true, decide_eq_true_eq]
      exact ⟨h.1, ih h.2⟩
    · exact cellsFrom_mono (ih h.2) (by omega)

/-- A removal keeps the canonical form. -/
theorem cellsWf_clear {m : Cells w} (lo n : Nat) (h : cellsWf m = true) : cellsWf (cellClear m lo n) = true :=
  cellsFrom_filter _ h

/-- A number that was written reads as what was written. -/
theorem cellGet_set_self {m : Cells w} {lo : Nat} (a : Nat) (v : BitVec w) (h : cellsFrom lo m = true) :
    cellGet (cellSet m a v) a = v := by
  induction m generalizing lo with
  | nil => unfold cellSet; split <;> simp_all [cellGet]
  | cons c r ih =>
    obtain ⟨k, u⟩ := c
    simp only [cellsFrom, Bool.and_eq_true, decide_eq_true_eq] at h
    obtain ⟨⟨h1, h2⟩, h3⟩ := h
    unfold cellSet
    split
    · split
      · rename_i hlt hv
        have : a ≠ k := by omega
        simp [cellGet, this, hlt, hv]
      · simp [cellGet]
    · split
      · split
        · rename_i heq hv
          subst heq
          rw [cellGet_below h3 (by omega), hv]
        · simp [cellGet]
      · rename_i h4 h5
        have h6 : ¬ a < k := h4
        simp [cellGet, h5, h6, ih h3]

/-- A write leaves every other number as it was. -/
theorem cellGet_set_ne {m : Cells w} {lo : Nat} {a b : Nat} (v : BitVec w) (h : cellsFrom lo m = true) (hb : b ≠ a) :
    cellGet (cellSet m a v) b = cellGet m b := by
  induction m generalizing lo with
  | nil =>
    unfold cellSet
    split
    · rfl
    · simp [cellGet, hb]
  | cons c r ih =>
    obtain ⟨k, u⟩ := c
    simp only [cellsFrom, Bool.and_eq_true, decide_eq_true_eq] at h
    obtain ⟨⟨h1, h2⟩, h3⟩ := h
    unfold cellSet
    split
    · split
      · rfl
      · rename_i hlt hv
        by_cases hba : b < a
        · have e1 : b ≠ k := by omega
          have e2 : b < k := by omega
          simp [cellGet, hb, hba, e1, e2]
        · simp [cellGet, hb, hba]
    · split
      · rename_i heq
        subst heq
        split
        · by_cases hba : b < a
          · rw [cellGet_below h3 (by omega)]; simp [cellGet, hb, hba]
          · simp [cellGet, hb, hba]
        · simp [cellGet, hb]
      · rename_i h4 h5
        by_cases e1 : b = k
        · simp [cellGet, e1]
        · by_cases e2 : b < k
          · simp [cellGet, e1, e2]
          · simp [cellGet, e1, e2, ih h3]

theorem cellGet_memory_set {m : Memory} (h : m.wf = true) (a b : Nat) (v : Byte) :
    cellGet (cellSet m a v) b = if b = a then v else cellGet m b := by
  split
  · subst b; exact cellGet_set_self _ _ h
  · exact cellGet_set_ne v h ‹_›

end Sys2Proof.Machine
end

