-- ==== Sys2Proof/Laws/State.lean ====
section
/-!
SUPPORT. What each field is after each update of the state and of the records.
-/

namespace Sys2Proof.Machine

@[simp] theorem State.setBank_pad_pad (s : State) (m : Memory) : (s.setBank m .pad).pad = m := rfl
@[simp] theorem State.setBank_pad_main (s : State) (m : Memory) : (s.setBank m .pad).main = s.main := rfl
@[simp] theorem State.setBank_pad_host (s : State) (m : Memory) : (s.setBank m .pad).host = s.host := rfl
@[simp] theorem State.setBank_pad_blk (s : State) (m : Memory) : (s.setBank m .pad).blk = s.blk := rfl
@[simp] theorem State.setBank_pad_stk (s : State) (m : Memory) : (s.setBank m .pad).stk = s.stk := rfl
@[simp] theorem State.setBank_pad_dev (s : State) (m : Memory) : (s.setBank m .pad).dev = s.dev := rfl
@[simp] theorem State.setBank_main_pad (s : State) (m : Memory) : (s.setBank m .main).pad = s.pad := rfl
@[simp] theorem State.setBank_main_main (s : State) (m : Memory) : (s.setBank m .main).main = m := rfl
@[simp] theorem State.setBank_main_host (s : State) (m : Memory) : (s.setBank m .main).host = s.host := rfl
@[simp] theorem State.setBank_main_blk (s : State) (m : Memory) : (s.setBank m .main).blk = s.blk := rfl
@[simp] theorem State.setBank_main_stk (s : State) (m : Memory) : (s.setBank m .main).stk = s.stk := rfl
@[simp] theorem State.setBank_main_dev (s : State) (m : Memory) : (s.setBank m .main).dev = s.dev := rfl
@[simp] theorem State.setBank_host_pad (s : State) (m : Memory) : (s.setBank m .host).pad = s.pad := rfl
@[simp] theorem State.setBank_host_main (s : State) (m : Memory) : (s.setBank m .host).main = s.main := rfl
@[simp] theorem State.setBank_host_host (s : State) (m : Memory) : (s.setBank m .host).host = m := rfl
@[simp] theorem State.setBank_host_blk (s : State) (m : Memory) : (s.setBank m .host).blk = s.blk := rfl
@[simp] theorem State.setBank_host_stk (s : State) (m : Memory) : (s.setBank m .host).stk = s.stk := rfl
@[simp] theorem State.setBank_host_dev (s : State) (m : Memory) : (s.setBank m .host).dev = s.dev := rfl
@[simp] theorem State.setBank_blk_pad (s : State) (m : Memory) : (s.setBank m .blk).pad = s.pad := rfl
@[simp] theorem State.setBank_blk_main (s : State) (m : Memory) : (s.setBank m .blk).main = s.main := rfl
@[simp] theorem State.setBank_blk_host (s : State) (m : Memory) : (s.setBank m .blk).host = s.host := rfl
@[simp] theorem State.setBank_blk_blk (s : State) (m : Memory) : (s.setBank m .blk).blk = m := rfl
@[simp] theorem State.setBank_blk_stk (s : State) (m : Memory) : (s.setBank m .blk).stk = s.stk := rfl
@[simp] theorem State.setBank_blk_dev (s : State) (m : Memory) : (s.setBank m .blk).dev = s.dev := rfl
@[simp] theorem State.setBank_stk_pad (s : State) (m : Memory) : (s.setBank m .stk).pad = s.pad := rfl
@[simp] theorem State.setBank_stk_main (s : State) (m : Memory) : (s.setBank m .stk).main = s.main := rfl
@[simp] theorem State.setBank_stk_host (s : State) (m : Memory) : (s.setBank m .stk).host = s.host := rfl
@[simp] theorem State.setBank_stk_blk (s : State) (m : Memory) : (s.setBank m .stk).blk = s.blk := rfl
@[simp] theorem State.setBank_stk_stk (s : State) (m : Memory) : (s.setBank m .stk).stk = m := rfl
@[simp] theorem State.setBank_stk_dev (s : State) (m : Memory) : (s.setBank m .stk).dev = s.dev := rfl

@[simp] theorem State.bank_pad (s : State) : s.bank .pad = s.pad := rfl
@[simp] theorem State.bank_main (s : State) : s.bank .main = s.main := rfl
@[simp] theorem State.bank_host (s : State) : s.bank .host = s.host := rfl
@[simp] theorem State.bank_blk (s : State) : s.bank .blk = s.blk := rfl
@[simp] theorem State.bank_stk (s : State) : s.bank .stk = s.stk := rfl

@[simp] theorem State.act_dev_pad (s : State) (d : Dev) : (s.act (.dev d)).pad = s.pad := rfl
@[simp] theorem State.act_dev_main (s : State) (d : Dev) : (s.act (.dev d)).main = s.main := rfl
@[simp] theorem State.act_dev_host (s : State) (d : Dev) : (s.act (.dev d)).host = s.host := rfl
@[simp] theorem State.act_dev_blk (s : State) (d : Dev) : (s.act (.dev d)).blk = s.blk := rfl
@[simp] theorem State.act_dev_stk (s : State) (d : Dev) : (s.act (.dev d)).stk = s.stk := rfl
@[simp] theorem State.act_dev_dev (s : State) (d : Dev) : (s.act (.dev d)).dev = d := rfl
@[simp] theorem State.setBank_dev (s : State) (m : Memory) (b : Bank) : (s.setBank m b).dev = s.dev := by cases b <;> rfl
@[simp] theorem State.act_store_dev (s : State) (b : Bank) (a : Nat) (v : Byte) : (s.act (.store b a v)).dev = s.dev := by cases b <;> rfl
@[simp] theorem State.act_clear_dev (s : State) (b : Bank) (lo n : Nat) : (s.act (.clear b lo n)).dev = s.dev := by cases b <;> rfl

@[simp] theorem Dev.setGroup_time (d : Dev) (x : Group) : (d.setGroup x).time = d.time := rfl
@[simp] theorem Dev.setGroup_cycles (d : Dev) (x : Group) : (d.setGroup x).cycles = d.cycles := rfl
@[simp] theorem Dev.setGroup_blocks (d : Dev) (x : Group) : (d.setGroup x).blocks = d.blocks := rfl
@[simp] theorem Dev.setGroup_launches (d : Dev) (x : Group) : (d.setGroup x).launches = d.launches := rfl
@[simp] theorem Dev.setGroup_jobs (d : Dev) (x : Group) : (d.setGroup x).jobs = d.jobs := rfl
@[simp] theorem Dev.setGroup_xsets (d : Dev) (x : Group) : (d.setGroup x).xsets = d.xsets := rfl
@[simp] theorem Dev.setGroup_syncs (d : Dev) (x : Group) : (d.setGroup x).syncs = d.syncs := rfl
@[simp] theorem Dev.setGroup_padRaces (d : Dev) (x : Group) : (d.setGroup x).padRaces = d.padRaces := rfl
@[simp] theorem Dev.setGroup_vintages (d : Dev) (x : Group) : (d.setGroup x).vintages = d.vintages := rfl
@[simp] theorem Dev.setGroup_dataCells (d : Dev) (x : Group) : (d.setGroup x).dataCells = d.dataCells := rfl
@[simp] theorem Dev.setGroup_mergeRecs (d : Dev) (x : Group) : (d.setGroup x).mergeRecs = d.mergeRecs := rfl
@[simp] theorem Dev.setGroup_gate (d : Dev) (x : Group) : (d.setGroup x).gate = d.gate := rfl
@[simp] theorem Dev.setGroup_ops (d : Dev) (x : Group) : (d.setGroup x).ops = d.ops := rfl
@[simp] theorem Dev.setGroup_staged (d : Dev) (x : Group) : (d.setGroup x).staged = d.staged := rfl
@[simp] theorem Dev.setGroup_clusters (d : Dev) (x : Group) : (d.setGroup x).clusters = d.clusters := rfl
@[simp] theorem Dev.setGroup_cuvOwner (d : Dev) (x : Group) : (d.setGroup x).cuvOwner = d.cuvOwner := rfl
@[simp] theorem Dev.setGroup_queues (d : Dev) (x : Group) : (d.setGroup x).queues = d.queues := rfl
@[simp] theorem Dev.setGroup_ended (d : Dev) (x : Group) : (d.setGroup x).ended = d.ended := rfl
@[simp] theorem Dev.setGroup_tlb (d : Dev) (x : Group) : (d.setGroup x).tlb = d.tlb := rfl
@[simp] theorem Dev.setGroup_recordOps (d : Dev) (x : Group) : (d.setGroup x).recordOps = d.recordOps := rfl
@[simp] theorem Dev.setGroup_reports (d : Dev) (x : Group) : (d.setGroup x).reports = d.reports := rfl
@[simp] theorem Dev.setGroup_links (d : Dev) (x : Group) : (d.setGroup x).links = d.links := rfl
@[simp] theorem Dev.setGroup_routes (d : Dev) (x : Group) : (d.setGroup x).routes = d.routes := rfl
@[simp] theorem Dev.setGroup_heldReqs (d : Dev) (x : Group) : (d.setGroup x).heldReqs = d.heldReqs := rfl
@[simp] theorem Dev.setGroup_dump (d : Dev) (x : Group) : (d.setGroup x).dump = d.dump := rfl
@[simp] theorem Dev.setGroup_abandoned (d : Dev) (x : Group) : (d.setGroup x).abandoned = d.abandoned := rfl
@[simp] theorem Dev.setGroup_regs (d : Dev) (x : Group) : (d.setGroup x).regs = d.regs := rfl
@[simp] theorem Dev.setGroup_trust (d : Dev) (x : Group) : (d.setGroup x).trust = d.trust := rfl
@[simp] theorem Dev.setGroup_power (d : Dev) (x : Group) : (d.setGroup x).power = d.power := rfl
@[simp] theorem Dev.setGroup_package (d : Dev) (x : Group) : (d.setGroup x).package = d.package := rfl
@[simp] theorem Dev.setGroup_tagCounter (d : Dev) (x : Group) : (d.setGroup x).tagCounter = d.tagCounter := rfl
@[simp] theorem Dev.setGroup_opSeq (d : Dev) (x : Group) : (d.setGroup x).opSeq = d.opSeq := rfl
@[simp] theorem Dev.setGroup_cur (d : Dev) (x : Group) : (d.setGroup x).cur = d.cur := rfl
@[simp] theorem Dev.setGroup_moves (d : Dev) (x : Group) : (d.setGroup x).moves = d.moves := rfl
@[simp] theorem Dev.setGroup_used (d : Dev) (x : Group) : (d.setGroup x).used = d.used := rfl
@[simp] theorem Dev.setGroup_batchSeq (d : Dev) (x : Group) : (d.setGroup x).batchSeq = d.batchSeq := rfl
@[simp] theorem Dev.setGroup_free (d : Dev) (x : Group) : (d.setGroup x).free = d.free := rfl

@[simp] theorem Dev.setBlock_time (d : Dev) (x : Block) : (d.setBlock x).time = d.time := rfl
@[simp] theorem Dev.setBlock_cycles (d : Dev) (x : Block) : (d.setBlock x).cycles = d.cycles := rfl
@[simp] theorem Dev.setBlock_groups (d : Dev) (x : Block) : (d.setBlock x).groups = d.groups := rfl
@[simp] theorem Dev.setBlock_launches (d : Dev) (x : Block) : (d.setBlock x).launches = d.launches := rfl
@[simp] theorem Dev.setBlock_jobs (d : Dev) (x : Block) : (d.setBlock x).jobs = d.jobs := rfl
@[simp] theorem Dev.setBlock_xsets (d : Dev) (x : Block) : (d.setBlock x).xsets = d.xsets := rfl
@[simp] theorem Dev.setBlock_syncs (d : Dev) (x : Block) : (d.setBlock x).syncs = d.syncs := rfl
@[simp] theorem Dev.setBlock_padRaces (d : Dev) (x : Block) : (d.setBlock x).padRaces = d.padRaces := rfl
@[simp] theorem Dev.setBlock_vintages (d : Dev) (x : Block) : (d.setBlock x).vintages = d.vintages := rfl
@[simp] theorem Dev.setBlock_dataCells (d : Dev) (x : Block) : (d.setBlock x).dataCells = d.dataCells := rfl
@[simp] theorem Dev.setBlock_mergeRecs (d : Dev) (x : Block) : (d.setBlock x).mergeRecs = d.mergeRecs := rfl
@[simp] theorem Dev.setBlock_gate (d : Dev) (x : Block) : (d.setBlock x).gate = d.gate := rfl
@[simp] theorem Dev.setBlock_ops (d : Dev) (x : Block) : (d.setBlock x).ops = d.ops := rfl
@[simp] theorem Dev.setBlock_staged (d : Dev) (x : Block) : (d.setBlock x).staged = d.staged := rfl
@[simp] theorem Dev.setBlock_clusters (d : Dev) (x : Block) : (d.setBlock x).clusters = d.clusters := rfl
@[simp] theorem Dev.setBlock_cuvOwner (d : Dev) (x : Block) : (d.setBlock x).cuvOwner = d.cuvOwner := rfl
@[simp] theorem Dev.setBlock_queues (d : Dev) (x : Block) : (d.setBlock x).queues = d.queues := rfl
@[simp] theorem Dev.setBlock_ended (d : Dev) (x : Block) : (d.setBlock x).ended = d.ended := rfl
@[simp] theorem Dev.setBlock_tlb (d : Dev) (x : Block) : (d.setBlock x).tlb = d.tlb := rfl
@[simp] theorem Dev.setBlock_recordOps (d : Dev) (x : Block) : (d.setBlock x).recordOps = d.recordOps := rfl
@[simp] theorem Dev.setBlock_reports (d : Dev) (x : Block) : (d.setBlock x).reports = d.reports := rfl
@[simp] theorem Dev.setBlock_links (d : Dev) (x : Block) : (d.setBlock x).links = d.links := rfl
@[simp] theorem Dev.setBlock_routes (d : Dev) (x : Block) : (d.setBlock x).routes = d.routes := rfl
@[simp] theorem Dev.setBlock_heldReqs (d : Dev) (x : Block) : (d.setBlock x).heldReqs = d.heldReqs := rfl
@[simp] theorem Dev.setBlock_dump (d : Dev) (x : Block) : (d.setBlock x).dump = d.dump := rfl
@[simp] theorem Dev.setBlock_abandoned (d : Dev) (x : Block) : (d.setBlock x).abandoned = d.abandoned := rfl
@[simp] theorem Dev.setBlock_regs (d : Dev) (x : Block) : (d.setBlock x).regs = d.regs := rfl
@[simp] theorem Dev.setBlock_trust (d : Dev) (x : Block) : (d.setBlock x).trust = d.trust := rfl
@[simp] theorem Dev.setBlock_power (d : Dev) (x : Block) : (d.setBlock x).power = d.power := rfl
@[simp] theorem Dev.setBlock_package (d : Dev) (x : Block) : (d.setBlock x).package = d.package := rfl
@[simp] theorem Dev.setBlock_tagCounter (d : Dev) (x : Block) : (d.setBlock x).tagCounter = d.tagCounter := rfl
@[simp] theorem Dev.setBlock_opSeq (d : Dev) (x : Block) : (d.setBlock x).opSeq = d.opSeq := rfl
@[simp] theorem Dev.setBlock_cur (d : Dev) (x : Block) : (d.setBlock x).cur = d.cur := rfl
@[simp] theorem Dev.setBlock_moves (d : Dev) (x : Block) : (d.setBlock x).moves = d.moves := rfl
@[simp] theorem Dev.setBlock_used (d : Dev) (x : Block) : (d.setBlock x).used = d.used := rfl
@[simp] theorem Dev.setBlock_batchSeq (d : Dev) (x : Block) : (d.setBlock x).batchSeq = d.batchSeq := rfl
@[simp] theorem Dev.setBlock_free (d : Dev) (x : Block) : (d.setBlock x).free = d.free := rfl

@[simp] theorem Dev.setLaunch_time (d : Dev) (x : Launch) : (d.setLaunch x).time = d.time := rfl
@[simp] theorem Dev.setLaunch_cycles (d : Dev) (x : Launch) : (d.setLaunch x).cycles = d.cycles := rfl
@[simp] theorem Dev.setLaunch_groups (d : Dev) (x : Launch) : (d.setLaunch x).groups = d.groups := rfl
@[simp] theorem Dev.setLaunch_blocks (d : Dev) (x : Launch) : (d.setLaunch x).blocks = d.blocks := rfl
@[simp] theorem Dev.setLaunch_jobs (d : Dev) (x : Launch) : (d.setLaunch x).jobs = d.jobs := rfl
@[simp] theorem Dev.setLaunch_xsets (d : Dev) (x : Launch) : (d.setLaunch x).xsets = d.xsets := rfl
@[simp] theorem Dev.setLaunch_syncs (d : Dev) (x : Launch) : (d.setLaunch x).syncs = d.syncs := rfl
@[simp] theorem Dev.setLaunch_padRaces (d : Dev) (x : Launch) : (d.setLaunch x).padRaces = d.padRaces := rfl
@[simp] theorem Dev.setLaunch_vintages (d : Dev) (x : Launch) : (d.setLaunch x).vintages = d.vintages := rfl
@[simp] theorem Dev.setLaunch_dataCells (d : Dev) (x : Launch) : (d.setLaunch x).dataCells = d.dataCells := rfl
@[simp] theorem Dev.setLaunch_mergeRecs (d : Dev) (x : Launch) : (d.setLaunch x).mergeRecs = d.mergeRecs := rfl
@[simp] theorem Dev.setLaunch_gate (d : Dev) (x : Launch) : (d.setLaunch x).gate = d.gate := rfl
@[simp] theorem Dev.setLaunch_ops (d : Dev) (x : Launch) : (d.setLaunch x).ops = d.ops := rfl
@[simp] theorem Dev.setLaunch_staged (d : Dev) (x : Launch) : (d.setLaunch x).staged = d.staged := rfl
@[simp] theorem Dev.setLaunch_clusters (d : Dev) (x : Launch) : (d.setLaunch x).clusters = d.clusters := rfl
@[simp] theorem Dev.setLaunch_cuvOwner (d : Dev) (x : Launch) : (d.setLaunch x).cuvOwner = d.cuvOwner := rfl
@[simp] theorem Dev.setLaunch_queues (d : Dev) (x : Launch) : (d.setLaunch x).queues = d.queues := rfl
@[simp] theorem Dev.setLaunch_ended (d : Dev) (x : Launch) : (d.setLaunch x).ended = d.ended := rfl
@[simp] theorem Dev.setLaunch_tlb (d : Dev) (x : Launch) : (d.setLaunch x).tlb = d.tlb := rfl
@[simp] theorem Dev.setLaunch_recordOps (d : Dev) (x : Launch) : (d.setLaunch x).recordOps = d.recordOps := rfl
@[simp] theorem Dev.setLaunch_reports (d : Dev) (x : Launch) : (d.setLaunch x).reports = d.reports := rfl
@[simp] theorem Dev.setLaunch_links (d : Dev) (x : Launch) : (d.setLaunch x).links = d.links := rfl
@[simp] theorem Dev.setLaunch_routes (d : Dev) (x : Launch) : (d.setLaunch x).routes = d.routes := rfl
@[simp] theorem Dev.setLaunch_heldReqs (d : Dev) (x : Launch) : (d.setLaunch x).heldReqs = d.heldReqs := rfl
@[simp] theorem Dev.setLaunch_dump (d : Dev) (x : Launch) : (d.setLaunch x).dump = d.dump := rfl
@[simp] theorem Dev.setLaunch_abandoned (d : Dev) (x : Launch) : (d.setLaunch x).abandoned = d.abandoned := rfl
@[simp] theorem Dev.setLaunch_regs (d : Dev) (x : Launch) : (d.setLaunch x).regs = d.regs := rfl
@[simp] theorem Dev.setLaunch_trust (d : Dev) (x : Launch) : (d.setLaunch x).trust = d.trust := rfl
@[simp] theorem Dev.setLaunch_power (d : Dev) (x : Launch) : (d.setLaunch x).power = d.power := rfl
@[simp] theorem Dev.setLaunch_package (d : Dev) (x : Launch) : (d.setLaunch x).package = d.package := rfl
@[simp] theorem Dev.setLaunch_tagCounter (d : Dev) (x : Launch) : (d.setLaunch x).tagCounter = d.tagCounter := rfl
@[simp] theorem Dev.setLaunch_opSeq (d : Dev) (x : Launch) : (d.setLaunch x).opSeq = d.opSeq := rfl
@[simp] theorem Dev.setLaunch_cur (d : Dev) (x : Launch) : (d.setLaunch x).cur = d.cur := rfl
@[simp] theorem Dev.setLaunch_moves (d : Dev) (x : Launch) : (d.setLaunch x).moves = d.moves := rfl
@[simp] theorem Dev.setLaunch_used (d : Dev) (x : Launch) : (d.setLaunch x).used = d.used := rfl
@[simp] theorem Dev.setLaunch_batchSeq (d : Dev) (x : Launch) : (d.setLaunch x).batchSeq = d.batchSeq := rfl
@[simp] theorem Dev.setLaunch_free (d : Dev) (x : Launch) : (d.setLaunch x).free = d.free := rfl

@[simp] theorem Dev.setJob_time (d : Dev) (x : Job) : (d.setJob x).time = d.time := rfl
@[simp] theorem Dev.setJob_cycles (d : Dev) (x : Job) : (d.setJob x).cycles = d.cycles := rfl
@[simp] theorem Dev.setJob_groups (d : Dev) (x : Job) : (d.setJob x).groups = d.groups := rfl
@[simp] theorem Dev.setJob_blocks (d : Dev) (x : Job) : (d.setJob x).blocks = d.blocks := rfl
@[simp] theorem Dev.setJob_launches (d : Dev) (x : Job) : (d.setJob x).launches = d.launches := rfl
@[simp] theorem Dev.setJob_xsets (d : Dev) (x : Job) : (d.setJob x).xsets = d.xsets := rfl
@[simp] theorem Dev.setJob_syncs (d : Dev) (x : Job) : (d.setJob x).syncs = d.syncs := rfl
@[simp] theorem Dev.setJob_padRaces (d : Dev) (x : Job) : (d.setJob x).padRaces = d.padRaces := rfl
@[simp] theorem Dev.setJob_vintages (d : Dev) (x : Job) : (d.setJob x).vintages = d.vintages := rfl
@[simp] theorem Dev.setJob_dataCells (d : Dev) (x : Job) : (d.setJob x).dataCells = d.dataCells := rfl
@[simp] theorem Dev.setJob_mergeRecs (d : Dev) (x : Job) : (d.setJob x).mergeRecs = d.mergeRecs := rfl
@[simp] theorem Dev.setJob_gate (d : Dev) (x : Job) : (d.setJob x).gate = d.gate := rfl
@[simp] theorem Dev.setJob_ops (d : Dev) (x : Job) : (d.setJob x).ops = d.ops := rfl
@[simp] theorem Dev.setJob_staged (d : Dev) (x : Job) : (d.setJob x).staged = d.staged := rfl
@[simp] theorem Dev.setJob_clusters (d : Dev) (x : Job) : (d.setJob x).clusters = d.clusters := rfl
@[simp] theorem Dev.setJob_cuvOwner (d : Dev) (x : Job) : (d.setJob x).cuvOwner = d.cuvOwner := rfl
@[simp] theorem Dev.setJob_queues (d : Dev) (x : Job) : (d.setJob x).queues = d.queues := rfl
@[simp] theorem Dev.setJob_ended (d : Dev) (x : Job) : (d.setJob x).ended = d.ended := rfl
@[simp] theorem Dev.setJob_tlb (d : Dev) (x : Job) : (d.setJob x).tlb = d.tlb := rfl
@[simp] theorem Dev.setJob_recordOps (d : Dev) (x : Job) : (d.setJob x).recordOps = d.recordOps := rfl
@[simp] theorem Dev.setJob_reports (d : Dev) (x : Job) : (d.setJob x).reports = d.reports := rfl
@[simp] theorem Dev.setJob_links (d : Dev) (x : Job) : (d.setJob x).links = d.links := rfl
@[simp] theorem Dev.setJob_routes (d : Dev) (x : Job) : (d.setJob x).routes = d.routes := rfl
@[simp] theorem Dev.setJob_heldReqs (d : Dev) (x : Job) : (d.setJob x).heldReqs = d.heldReqs := rfl
@[simp] theorem Dev.setJob_dump (d : Dev) (x : Job) : (d.setJob x).dump = d.dump := rfl
@[simp] theorem Dev.setJob_abandoned (d : Dev) (x : Job) : (d.setJob x).abandoned = d.abandoned := rfl
@[simp] theorem Dev.setJob_regs (d : Dev) (x : Job) : (d.setJob x).regs = d.regs := rfl
@[simp] theorem Dev.setJob_trust (d : Dev) (x : Job) : (d.setJob x).trust = d.trust := rfl
@[simp] theorem Dev.setJob_power (d : Dev) (x : Job) : (d.setJob x).power = d.power := rfl
@[simp] theorem Dev.setJob_package (d : Dev) (x : Job) : (d.setJob x).package = d.package := rfl
@[simp] theorem Dev.setJob_tagCounter (d : Dev) (x : Job) : (d.setJob x).tagCounter = d.tagCounter := rfl
@[simp] theorem Dev.setJob_opSeq (d : Dev) (x : Job) : (d.setJob x).opSeq = d.opSeq := rfl
@[simp] theorem Dev.setJob_cur (d : Dev) (x : Job) : (d.setJob x).cur = d.cur := rfl
@[simp] theorem Dev.setJob_moves (d : Dev) (x : Job) : (d.setJob x).moves = d.moves := rfl
@[simp] theorem Dev.setJob_used (d : Dev) (x : Job) : (d.setJob x).used = d.used := rfl
@[simp] theorem Dev.setJob_batchSeq (d : Dev) (x : Job) : (d.setJob x).batchSeq = d.batchSeq := rfl
@[simp] theorem Dev.setJob_free (d : Dev) (x : Job) : (d.setJob x).free = d.free := rfl

@[simp] theorem Dev.setXset_time (d : Dev) (x : XSet) : (d.setXset x).time = d.time := rfl
@[simp] theorem Dev.setXset_cycles (d : Dev) (x : XSet) : (d.setXset x).cycles = d.cycles := rfl
@[simp] theorem Dev.setXset_groups (d : Dev) (x : XSet) : (d.setXset x).groups = d.groups := rfl
@[simp] theorem Dev.setXset_blocks (d : Dev) (x : XSet) : (d.setXset x).blocks = d.blocks := rfl
@[simp] theorem Dev.setXset_launches (d : Dev) (x : XSet) : (d.setXset x).launches = d.launches := rfl
@[simp] theorem Dev.setXset_jobs (d : Dev) (x : XSet) : (d.setXset x).jobs = d.jobs := rfl
@[simp] theorem Dev.setXset_syncs (d : Dev) (x : XSet) : (d.setXset x).syncs = d.syncs := rfl
@[simp] theorem Dev.setXset_padRaces (d : Dev) (x : XSet) : (d.setXset x).padRaces = d.padRaces := rfl
@[simp] theorem Dev.setXset_vintages (d : Dev) (x : XSet) : (d.setXset x).vintages = d.vintages := rfl
@[simp] theorem Dev.setXset_dataCells (d : Dev) (x : XSet) : (d.setXset x).dataCells = d.dataCells := rfl
@[simp] theorem Dev.setXset_mergeRecs (d : Dev) (x : XSet) : (d.setXset x).mergeRecs = d.mergeRecs := rfl
@[simp] theorem Dev.setXset_gate (d : Dev) (x : XSet) : (d.setXset x).gate = d.gate := rfl
@[simp] theorem Dev.setXset_ops (d : Dev) (x : XSet) : (d.setXset x).ops = d.ops := rfl
@[simp] theorem Dev.setXset_staged (d : Dev) (x : XSet) : (d.setXset x).staged = d.staged := rfl
@[simp] theorem Dev.setXset_clusters (d : Dev) (x : XSet) : (d.setXset x).clusters = d.clusters := rfl
@[simp] theorem Dev.setXset_cuvOwner (d : Dev) (x : XSet) : (d.setXset x).cuvOwner = d.cuvOwner := rfl
@[simp] theorem Dev.setXset_queues (d : Dev) (x : XSet) : (d.setXset x).queues = d.queues := rfl
@[simp] theorem Dev.setXset_ended (d : Dev) (x : XSet) : (d.setXset x).ended = d.ended := rfl
@[simp] theorem Dev.setXset_tlb (d : Dev) (x : XSet) : (d.setXset x).tlb = d.tlb := rfl
@[simp] theorem Dev.setXset_recordOps (d : Dev) (x : XSet) : (d.setXset x).recordOps = d.recordOps := rfl
@[simp] theorem Dev.setXset_reports (d : Dev) (x : XSet) : (d.setXset x).reports = d.reports := rfl
@[simp] theorem Dev.setXset_links (d : Dev) (x : XSet) : (d.setXset x).links = d.links := rfl
@[simp] theorem Dev.setXset_routes (d : Dev) (x : XSet) : (d.setXset x).routes = d.routes := rfl
@[simp] theorem Dev.setXset_heldReqs (d : Dev) (x : XSet) : (d.setXset x).heldReqs = d.heldReqs := rfl
@[simp] theorem Dev.setXset_dump (d : Dev) (x : XSet) : (d.setXset x).dump = d.dump := rfl
@[simp] theorem Dev.setXset_abandoned (d : Dev) (x : XSet) : (d.setXset x).abandoned = d.abandoned := rfl
@[simp] theorem Dev.setXset_regs (d : Dev) (x : XSet) : (d.setXset x).regs = d.regs := rfl
@[simp] theorem Dev.setXset_trust (d : Dev) (x : XSet) : (d.setXset x).trust = d.trust := rfl
@[simp] theorem Dev.setXset_power (d : Dev) (x : XSet) : (d.setXset x).power = d.power := rfl
@[simp] theorem Dev.setXset_package (d : Dev) (x : XSet) : (d.setXset x).package = d.package := rfl
@[simp] theorem Dev.setXset_tagCounter (d : Dev) (x : XSet) : (d.setXset x).tagCounter = d.tagCounter := rfl
@[simp] theorem Dev.setXset_opSeq (d : Dev) (x : XSet) : (d.setXset x).opSeq = d.opSeq := rfl
@[simp] theorem Dev.setXset_cur (d : Dev) (x : XSet) : (d.setXset x).cur = d.cur := rfl
@[simp] theorem Dev.setXset_moves (d : Dev) (x : XSet) : (d.setXset x).moves = d.moves := rfl
@[simp] theorem Dev.setXset_used (d : Dev) (x : XSet) : (d.setXset x).used = d.used := rfl
@[simp] theorem Dev.setXset_batchSeq (d : Dev) (x : XSet) : (d.setXset x).batchSeq = d.batchSeq := rfl
@[simp] theorem Dev.setXset_free (d : Dev) (x : XSet) : (d.setXset x).free = d.free := rfl

@[simp] theorem Dev.setCluster_time (d : Dev) (x : Cluster) : (d.setCluster x).time = d.time := rfl
@[simp] theorem Dev.setCluster_cycles (d : Dev) (x : Cluster) : (d.setCluster x).cycles = d.cycles := rfl
@[simp] theorem Dev.setCluster_groups (d : Dev) (x : Cluster) : (d.setCluster x).groups = d.groups := rfl
@[simp] theorem Dev.setCluster_blocks (d : Dev) (x : Cluster) : (d.setCluster x).blocks = d.blocks := rfl
@[simp] theorem Dev.setCluster_launches (d : Dev) (x : Cluster) : (d.setCluster x).launches = d.launches := rfl
@[simp] theorem Dev.setCluster_jobs (d : Dev) (x : Cluster) : (d.setCluster x).jobs = d.jobs := rfl
@[simp] theorem Dev.setCluster_xsets (d : Dev) (x : Cluster) : (d.setCluster x).xsets = d.xsets := rfl
@[simp] theorem Dev.setCluster_syncs (d : Dev) (x : Cluster) : (d.setCluster x).syncs = d.syncs := rfl
@[simp] theorem Dev.setCluster_padRaces (d : Dev) (x : Cluster) : (d.setCluster x).padRaces = d.padRaces := rfl
@[simp] theorem Dev.setCluster_vintages (d : Dev) (x : Cluster) : (d.setCluster x).vintages = d.vintages := rfl
@[simp] theorem Dev.setCluster_dataCells (d : Dev) (x : Cluster) : (d.setCluster x).dataCells = d.dataCells := rfl
@[simp] theorem Dev.setCluster_mergeRecs (d : Dev) (x : Cluster) : (d.setCluster x).mergeRecs = d.mergeRecs := rfl
@[simp] theorem Dev.setCluster_gate (d : Dev) (x : Cluster) : (d.setCluster x).gate = d.gate := rfl
@[simp] theorem Dev.setCluster_ops (d : Dev) (x : Cluster) : (d.setCluster x).ops = d.ops := rfl
@[simp] theorem Dev.setCluster_staged (d : Dev) (x : Cluster) : (d.setCluster x).staged = d.staged := rfl
@[simp] theorem Dev.setCluster_cuvOwner (d : Dev) (x : Cluster) : (d.setCluster x).cuvOwner = d.cuvOwner := rfl
@[simp] theorem Dev.setCluster_queues (d : Dev) (x : Cluster) : (d.setCluster x).queues = d.queues := rfl
@[simp] theorem Dev.setCluster_ended (d : Dev) (x : Cluster) : (d.setCluster x).ended = d.ended := rfl
@[simp] theorem Dev.setCluster_tlb (d : Dev) (x : Cluster) : (d.setCluster x).tlb = d.tlb := rfl
@[simp] theorem Dev.setCluster_recordOps (d : Dev) (x : Cluster) : (d.setCluster x).recordOps = d.recordOps := rfl
@[simp] theorem Dev.setCluster_reports (d : Dev) (x : Cluster) : (d.setCluster x).reports = d.reports := rfl
@[simp] theorem Dev.setCluster_links (d : Dev) (x : Cluster) : (d.setCluster x).links = d.links := rfl
@[simp] theorem Dev.setCluster_routes (d : Dev) (x : Cluster) : (d.setCluster x).routes = d.routes := rfl
@[simp] theorem Dev.setCluster_heldReqs (d : Dev) (x : Cluster) : (d.setCluster x).heldReqs = d.heldReqs := rfl
@[simp] theorem Dev.setCluster_dump (d : Dev) (x : Cluster) : (d.setCluster x).dump = d.dump := rfl
@[simp] theorem Dev.setCluster_abandoned (d : Dev) (x : Cluster) : (d.setCluster x).abandoned = d.abandoned := rfl
@[simp] theorem Dev.setCluster_regs (d : Dev) (x : Cluster) : (d.setCluster x).regs = d.regs := rfl
@[simp] theorem Dev.setCluster_trust (d : Dev) (x : Cluster) : (d.setCluster x).trust = d.trust := rfl
@[simp] theorem Dev.setCluster_power (d : Dev) (x : Cluster) : (d.setCluster x).power = d.power := rfl
@[simp] theorem Dev.setCluster_package (d : Dev) (x : Cluster) : (d.setCluster x).package = d.package := rfl
@[simp] theorem Dev.setCluster_tagCounter (d : Dev) (x : Cluster) : (d.setCluster x).tagCounter = d.tagCounter := rfl
@[simp] theorem Dev.setCluster_opSeq (d : Dev) (x : Cluster) : (d.setCluster x).opSeq = d.opSeq := rfl
@[simp] theorem Dev.setCluster_cur (d : Dev) (x : Cluster) : (d.setCluster x).cur = d.cur := rfl
@[simp] theorem Dev.setCluster_moves (d : Dev) (x : Cluster) : (d.setCluster x).moves = d.moves := rfl
@[simp] theorem Dev.setCluster_used (d : Dev) (x : Cluster) : (d.setCluster x).used = d.used := rfl
@[simp] theorem Dev.setCluster_batchSeq (d : Dev) (x : Cluster) : (d.setCluster x).batchSeq = d.batchSeq := rfl
@[simp] theorem Dev.setCluster_free (d : Dev) (x : Cluster) : (d.setCluster x).free = d.free := rfl

@[simp] theorem Dev.setOp_time (d : Dev) (x : EngineOp) : (d.setOp x).time = d.time := rfl
@[simp] theorem Dev.setOp_cycles (d : Dev) (x : EngineOp) : (d.setOp x).cycles = d.cycles := rfl
@[simp] theorem Dev.setOp_groups (d : Dev) (x : EngineOp) : (d.setOp x).groups = d.groups := rfl
@[simp] theorem Dev.setOp_blocks (d : Dev) (x : EngineOp) : (d.setOp x).blocks = d.blocks := rfl
@[simp] theorem Dev.setOp_launches (d : Dev) (x : EngineOp) : (d.setOp x).launches = d.launches := rfl
@[simp] theorem Dev.setOp_jobs (d : Dev) (x : EngineOp) : (d.setOp x).jobs = d.jobs := rfl
@[simp] theorem Dev.setOp_xsets (d : Dev) (x : EngineOp) : (d.setOp x).xsets = d.xsets := rfl
@[simp] theorem Dev.setOp_syncs (d : Dev) (x : EngineOp) : (d.setOp x).syncs = d.syncs := rfl
@[simp] theorem Dev.setOp_padRaces (d : Dev) (x : EngineOp) : (d.setOp x).padRaces = d.padRaces := rfl
@[simp] theorem Dev.setOp_vintages (d : Dev) (x : EngineOp) : (d.setOp x).vintages = d.vintages := rfl
@[simp] theorem Dev.setOp_dataCells (d : Dev) (x : EngineOp) : (d.setOp x).dataCells = d.dataCells := rfl
@[simp] theorem Dev.setOp_mergeRecs (d : Dev) (x : EngineOp) : (d.setOp x).mergeRecs = d.mergeRecs := rfl
@[simp] theorem Dev.setOp_gate (d : Dev) (x : EngineOp) : (d.setOp x).gate = d.gate := rfl
@[simp] theorem Dev.setOp_staged (d : Dev) (x : EngineOp) : (d.setOp x).staged = d.staged := rfl
@[simp] theorem Dev.setOp_clusters (d : Dev) (x : EngineOp) : (d.setOp x).clusters = d.clusters := rfl
@[simp] theorem Dev.setOp_cuvOwner (d : Dev) (x : EngineOp) : (d.setOp x).cuvOwner = d.cuvOwner := rfl
@[simp] theorem Dev.setOp_queues (d : Dev) (x : EngineOp) : (d.setOp x).queues = d.queues := rfl
@[simp] theorem Dev.setOp_ended (d : Dev) (x : EngineOp) : (d.setOp x).ended = d.ended := rfl
@[simp] theorem Dev.setOp_tlb (d : Dev) (x : EngineOp) : (d.setOp x).tlb = d.tlb := rfl
@[simp] theorem Dev.setOp_recordOps (d : Dev) (x : EngineOp) : (d.setOp x).recordOps = d.recordOps := rfl
@[simp] theorem Dev.setOp_reports (d : Dev) (x : EngineOp) : (d.setOp x).reports = d.reports := rfl
@[simp] theorem Dev.setOp_links (d : Dev) (x : EngineOp) : (d.setOp x).links = d.links := rfl
@[simp] theorem Dev.setOp_routes (d : Dev) (x : EngineOp) : (d.setOp x).routes = d.routes := rfl
@[simp] theorem Dev.setOp_heldReqs (d : Dev) (x : EngineOp) : (d.setOp x).heldReqs = d.heldReqs := rfl
@[simp] theorem Dev.setOp_dump (d : Dev) (x : EngineOp) : (d.setOp x).dump = d.dump := rfl
@[simp] theorem Dev.setOp_abandoned (d : Dev) (x : EngineOp) : (d.setOp x).abandoned = d.abandoned := rfl
@[simp] theorem Dev.setOp_regs (d : Dev) (x : EngineOp) : (d.setOp x).regs = d.regs := rfl
@[simp] theorem Dev.setOp_trust (d : Dev) (x : EngineOp) : (d.setOp x).trust = d.trust := rfl
@[simp] theorem Dev.setOp_power (d : Dev) (x : EngineOp) : (d.setOp x).power = d.power := rfl
@[simp] theorem Dev.setOp_package (d : Dev) (x : EngineOp) : (d.setOp x).package = d.package := rfl
@[simp] theorem Dev.setOp_tagCounter (d : Dev) (x : EngineOp) : (d.setOp x).tagCounter = d.tagCounter := rfl
@[simp] theorem Dev.setOp_opSeq (d : Dev) (x : EngineOp) : (d.setOp x).opSeq = d.opSeq := rfl
@[simp] theorem Dev.setOp_cur (d : Dev) (x : EngineOp) : (d.setOp x).cur = d.cur := rfl
@[simp] theorem Dev.setOp_moves (d : Dev) (x : EngineOp) : (d.setOp x).moves = d.moves := rfl
@[simp] theorem Dev.setOp_used (d : Dev) (x : EngineOp) : (d.setOp x).used = d.used := rfl
@[simp] theorem Dev.setOp_batchSeq (d : Dev) (x : EngineOp) : (d.setOp x).batchSeq = d.batchSeq := rfl
@[simp] theorem Dev.setOp_free (d : Dev) (x : EngineOp) : (d.setOp x).free = d.free := rfl

@[simp] theorem Dev.setLink_time (d : Dev) (x : Link) : (d.setLink x).time = d.time := rfl
@[simp] theorem Dev.setLink_cycles (d : Dev) (x : Link) : (d.setLink x).cycles = d.cycles := rfl
@[simp] theorem Dev.setLink_groups (d : Dev) (x : Link) : (d.setLink x).groups = d.groups := rfl
@[simp] theorem Dev.setLink_blocks (d : Dev) (x : Link) : (d.setLink x).blocks = d.blocks := rfl
@[simp] theorem Dev.setLink_launches (d : Dev) (x : Link) : (d.setLink x).launches = d.launches := rfl
@[simp] theorem Dev.setLink_jobs (d : Dev) (x : Link) : (d.setLink x).jobs = d.jobs := rfl
@[simp] theorem Dev.setLink_xsets (d : Dev) (x : Link) : (d.setLink x).xsets = d.xsets := rfl
@[simp] theorem Dev.setLink_syncs (d : Dev) (x : Link) : (d.setLink x).syncs = d.syncs := rfl
@[simp] theorem Dev.setLink_padRaces (d : Dev) (x : Link) : (d.setLink x).padRaces = d.padRaces := rfl
@[simp] theorem Dev.setLink_vintages (d : Dev) (x : Link) : (d.setLink x).vintages = d.vintages := rfl
@[simp] theorem Dev.setLink_dataCells (d : Dev) (x : Link) : (d.setLink x).dataCells = d.dataCells := rfl
@[simp] theorem Dev.setLink_mergeRecs (d : Dev) (x : Link) : (d.setLink x).mergeRecs = d.mergeRecs := rfl
@[simp] theorem Dev.setLink_gate (d : Dev) (x : Link) : (d.setLink x).gate = d.gate := rfl
@[simp] theorem Dev.setLink_ops (d : Dev) (x : Link) : (d.setLink x).ops = d.ops := rfl
@[simp] theorem Dev.setLink_staged (d : Dev) (x : Link) : (d.setLink x).staged = d.staged := rfl
@[simp] theorem Dev.setLink_clusters (d : Dev) (x : Link) : (d.setLink x).clusters = d.clusters := rfl
@[simp] theorem Dev.setLink_cuvOwner (d : Dev) (x : Link) : (d.setLink x).cuvOwner = d.cuvOwner := rfl
@[simp] theorem Dev.setLink_queues (d : Dev) (x : Link) : (d.setLink x).queues = d.queues := rfl
@[simp] theorem Dev.setLink_ended (d : Dev) (x : Link) : (d.setLink x).ended = d.ended := rfl
@[simp] theorem Dev.setLink_tlb (d : Dev) (x : Link) : (d.setLink x).tlb = d.tlb := rfl
@[simp] theorem Dev.setLink_recordOps (d : Dev) (x : Link) : (d.setLink x).recordOps = d.recordOps := rfl
@[simp] theorem Dev.setLink_reports (d : Dev) (x : Link) : (d.setLink x).reports = d.reports := rfl
@[simp] theorem Dev.setLink_routes (d : Dev) (x : Link) : (d.setLink x).routes = d.routes := rfl
@[simp] theorem Dev.setLink_heldReqs (d : Dev) (x : Link) : (d.setLink x).heldReqs = d.heldReqs := rfl
@[simp] theorem Dev.setLink_dump (d : Dev) (x : Link) : (d.setLink x).dump = d.dump := rfl
@[simp] theorem Dev.setLink_abandoned (d : Dev) (x : Link) : (d.setLink x).abandoned = d.abandoned := rfl
@[simp] theorem Dev.setLink_regs (d : Dev) (x : Link) : (d.setLink x).regs = d.regs := rfl
@[simp] theorem Dev.setLink_trust (d : Dev) (x : Link) : (d.setLink x).trust = d.trust := rfl
@[simp] theorem Dev.setLink_power (d : Dev) (x : Link) : (d.setLink x).power = d.power := rfl
@[simp] theorem Dev.setLink_package (d : Dev) (x : Link) : (d.setLink x).package = d.package := rfl
@[simp] theorem Dev.setLink_tagCounter (d : Dev) (x : Link) : (d.setLink x).tagCounter = d.tagCounter := rfl
@[simp] theorem Dev.setLink_opSeq (d : Dev) (x : Link) : (d.setLink x).opSeq = d.opSeq := rfl
@[simp] theorem Dev.setLink_cur (d : Dev) (x : Link) : (d.setLink x).cur = d.cur := rfl
@[simp] theorem Dev.setLink_moves (d : Dev) (x : Link) : (d.setLink x).moves = d.moves := rfl
@[simp] theorem Dev.setLink_used (d : Dev) (x : Link) : (d.setLink x).used = d.used := rfl
@[simp] theorem Dev.setLink_batchSeq (d : Dev) (x : Link) : (d.setLink x).batchSeq = d.batchSeq := rfl
@[simp] theorem Dev.setLink_free (d : Dev) (x : Link) : (d.setLink x).free = d.free := rfl

@[simp] theorem Dev.setQueue_time (d : Dev) (x : Queue) : (d.setQueue x).time = d.time := rfl
@[simp] theorem Dev.setQueue_cycles (d : Dev) (x : Queue) : (d.setQueue x).cycles = d.cycles := rfl
@[simp] theorem Dev.setQueue_groups (d : Dev) (x : Queue) : (d.setQueue x).groups = d.groups := rfl
@[simp] theorem Dev.setQueue_blocks (d : Dev) (x : Queue) : (d.setQueue x).blocks = d.blocks := rfl
@[simp] theorem Dev.setQueue_launches (d : Dev) (x : Queue) : (d.setQueue x).launches = d.launches := rfl
@[simp] theorem Dev.setQueue_jobs (d : Dev) (x : Queue) : (d.setQueue x).jobs = d.jobs := rfl
@[simp] theorem Dev.setQueue_xsets (d : Dev) (x : Queue) : (d.setQueue x).xsets = d.xsets := rfl
@[simp] theorem Dev.setQueue_syncs (d : Dev) (x : Queue) : (d.setQueue x).syncs = d.syncs := rfl
@[simp] theorem Dev.setQueue_padRaces (d : Dev) (x : Queue) : (d.setQueue x).padRaces = d.padRaces := rfl
@[simp] theorem Dev.setQueue_vintages (d : Dev) (x : Queue) : (d.setQueue x).vintages = d.vintages := rfl
@[simp] theorem Dev.setQueue_dataCells (d : Dev) (x : Queue) : (d.setQueue x).dataCells = d.dataCells := rfl
@[simp] theorem Dev.setQueue_mergeRecs (d : Dev) (x : Queue) : (d.setQueue x).mergeRecs = d.mergeRecs := rfl
@[simp] theorem Dev.setQueue_gate (d : Dev) (x : Queue) : (d.setQueue x).gate = d.gate := rfl
@[simp] theorem Dev.setQueue_ops (d : Dev) (x : Queue) : (d.setQueue x).ops = d.ops := rfl
@[simp] theorem Dev.setQueue_staged (d : Dev) (x : Queue) : (d.setQueue x).staged = d.staged := rfl
@[simp] theorem Dev.setQueue_clusters (d : Dev) (x : Queue) : (d.setQueue x).clusters = d.clusters := rfl
@[simp] theorem Dev.setQueue_cuvOwner (d : Dev) (x : Queue) : (d.setQueue x).cuvOwner = d.cuvOwner := rfl
@[simp] theorem Dev.setQueue_ended (d : Dev) (x : Queue) : (d.setQueue x).ended = d.ended := rfl
@[simp] theorem Dev.setQueue_tlb (d : Dev) (x : Queue) : (d.setQueue x).tlb = d.tlb := rfl
@[simp] theorem Dev.setQueue_recordOps (d : Dev) (x : Queue) : (d.setQueue x).recordOps = d.recordOps := rfl
@[simp] theorem Dev.setQueue_reports (d : Dev) (x : Queue) : (d.setQueue x).reports = d.reports := rfl
@[simp] theorem Dev.setQueue_links (d : Dev) (x : Queue) : (d.setQueue x).links = d.links := rfl
@[simp] theorem Dev.setQueue_routes (d : Dev) (x : Queue) : (d.setQueue x).routes = d.routes := rfl
@[simp] theorem Dev.setQueue_heldReqs (d : Dev) (x : Queue) : (d.setQueue x).heldReqs = d.heldReqs := rfl
@[simp] theorem Dev.setQueue_dump (d : Dev) (x : Queue) : (d.setQueue x).dump = d.dump := rfl
@[simp] theorem Dev.setQueue_abandoned (d : Dev) (x : Queue) : (d.setQueue x).abandoned = d.abandoned := rfl
@[simp] theorem Dev.setQueue_regs (d : Dev) (x : Queue) : (d.setQueue x).regs = d.regs := rfl
@[simp] theorem Dev.setQueue_trust (d : Dev) (x : Queue) : (d.setQueue x).trust = d.trust := rfl
@[simp] theorem Dev.setQueue_power (d : Dev) (x : Queue) : (d.setQueue x).power = d.power := rfl
@[simp] theorem Dev.setQueue_package (d : Dev) (x : Queue) : (d.setQueue x).package = d.package := rfl
@[simp] theorem Dev.setQueue_tagCounter (d : Dev) (x : Queue) : (d.setQueue x).tagCounter = d.tagCounter := rfl
@[simp] theorem Dev.setQueue_opSeq (d : Dev) (x : Queue) : (d.setQueue x).opSeq = d.opSeq := rfl
@[simp] theorem Dev.setQueue_cur (d : Dev) (x : Queue) : (d.setQueue x).cur = d.cur := rfl
@[simp] theorem Dev.setQueue_moves (d : Dev) (x : Queue) : (d.setQueue x).moves = d.moves := rfl
@[simp] theorem Dev.setQueue_used (d : Dev) (x : Queue) : (d.setQueue x).used = d.used := rfl
@[simp] theorem Dev.setQueue_batchSeq (d : Dev) (x : Queue) : (d.setQueue x).batchSeq = d.batchSeq := rfl
@[simp] theorem Dev.setQueue_free (d : Dev) (x : Queue) : (d.setQueue x).free = d.free := rfl

@[simp] theorem Dev.setVintage_time (d : Dev) (x : Vintage) : (d.setVintage x).time = d.time := rfl
@[simp] theorem Dev.setVintage_cycles (d : Dev) (x : Vintage) : (d.setVintage x).cycles = d.cycles := rfl
@[simp] theorem Dev.setVintage_groups (d : Dev) (x : Vintage) : (d.setVintage x).groups = d.groups := rfl
@[simp] theorem Dev.setVintage_blocks (d : Dev) (x : Vintage) : (d.setVintage x).blocks = d.blocks := rfl
@[simp] theorem Dev.setVintage_launches (d : Dev) (x : Vintage) : (d.setVintage x).launches = d.launches := rfl
@[simp] theorem Dev.setVintage_jobs (d : Dev) (x : Vintage) : (d.setVintage x).jobs = d.jobs := rfl
@[simp] theorem Dev.setVintage_xsets (d : Dev) (x : Vintage) : (d.setVintage x).xsets = d.xsets := rfl
@[simp] theorem Dev.setVintage_syncs (d : Dev) (x : Vintage) : (d.setVintage x).syncs = d.syncs := rfl
@[simp] theorem Dev.setVintage_padRaces (d : Dev) (x : Vintage) : (d.setVintage x).padRaces = d.padRaces := rfl
@[simp] theorem Dev.setVintage_dataCells (d : Dev) (x : Vintage) : (d.setVintage x).dataCells = d.dataCells := rfl
@[simp] theorem Dev.setVintage_mergeRecs (d : Dev) (x : Vintage) : (d.setVintage x).mergeRecs = d.mergeRecs := rfl
@[simp] theorem Dev.setVintage_gate (d : Dev) (x : Vintage) : (d.setVintage x).gate = d.gate := rfl
@[simp] theorem Dev.setVintage_ops (d : Dev) (x : Vintage) : (d.setVintage x).ops = d.ops := rfl
@[simp] theorem Dev.setVintage_staged (d : Dev) (x : Vintage) : (d.setVintage x).staged = d.staged := rfl
@[simp] theorem Dev.setVintage_clusters (d : Dev) (x : Vintage) : (d.setVintage x).clusters = d.clusters := rfl
@[simp] theorem Dev.setVintage_cuvOwner (d : Dev) (x : Vintage) : (d.setVintage x).cuvOwner = d.cuvOwner := rfl
@[simp] theorem Dev.setVintage_queues (d : Dev) (x : Vintage) : (d.setVintage x).queues = d.queues := rfl
@[simp] theorem Dev.setVintage_ended (d : Dev) (x : Vintage) : (d.setVintage x).ended = d.ended := rfl
@[simp] theorem Dev.setVintage_tlb (d : Dev) (x : Vintage) : (d.setVintage x).tlb = d.tlb := rfl
@[simp] theorem Dev.setVintage_recordOps (d : Dev) (x : Vintage) : (d.setVintage x).recordOps = d.recordOps := rfl
@[simp] theorem Dev.setVintage_reports (d : Dev) (x : Vintage) : (d.setVintage x).reports = d.reports := rfl
@[simp] theorem Dev.setVintage_links (d : Dev) (x : Vintage) : (d.setVintage x).links = d.links := rfl
@[simp] theorem Dev.setVintage_routes (d : Dev) (x : Vintage) : (d.setVintage x).routes = d.routes := rfl
@[simp] theorem Dev.setVintage_heldReqs (d : Dev) (x : Vintage) : (d.setVintage x).heldReqs = d.heldReqs := rfl
@[simp] theorem Dev.setVintage_dump (d : Dev) (x : Vintage) : (d.setVintage x).dump = d.dump := rfl
@[simp] theorem Dev.setVintage_abandoned (d : Dev) (x : Vintage) : (d.setVintage x).abandoned = d.abandoned := rfl
@[simp] theorem Dev.setVintage_regs (d : Dev) (x : Vintage) : (d.setVintage x).regs = d.regs := rfl
@[simp] theorem Dev.setVintage_trust (d : Dev) (x : Vintage) : (d.setVintage x).trust = d.trust := rfl
@[simp] theorem Dev.setVintage_power (d : Dev) (x : Vintage) : (d.setVintage x).power = d.power := rfl
@[simp] theorem Dev.setVintage_package (d : Dev) (x : Vintage) : (d.setVintage x).package = d.package := rfl
@[simp] theorem Dev.setVintage_tagCounter (d : Dev) (x : Vintage) : (d.setVintage x).tagCounter = d.tagCounter := rfl
@[simp] theorem Dev.setVintage_opSeq (d : Dev) (x : Vintage) : (d.setVintage x).opSeq = d.opSeq := rfl
@[simp] theorem Dev.setVintage_cur (d : Dev) (x : Vintage) : (d.setVintage x).cur = d.cur := rfl
@[simp] theorem Dev.setVintage_moves (d : Dev) (x : Vintage) : (d.setVintage x).moves = d.moves := rfl
@[simp] theorem Dev.setVintage_used (d : Dev) (x : Vintage) : (d.setVintage x).used = d.used := rfl
@[simp] theorem Dev.setVintage_batchSeq (d : Dev) (x : Vintage) : (d.setVintage x).batchSeq = d.batchSeq := rfl
@[simp] theorem Dev.setVintage_free (d : Dev) (x : Vintage) : (d.setVintage x).free = d.free := rfl

@[simp] theorem Group.setLane_key (g : Group) (l : Nat) (x : Lane) : (g.setLane l x).key = g.key := rfl
@[simp] theorem Group.setLane_place (g : Group) (l : Nat) (x : Lane) : (g.setLane l x).place = g.place := rfl
@[simp] theorem Group.setLane_was (g : Group) (l : Nat) (x : Lane) : (g.setLane l x).was = g.was := rfl
@[simp] theorem Group.setLane_width (g : Group) (l : Nat) (x : Lane) : (g.setLane l x).width = g.width := rfl
@[simp] theorem Group.setLane_gsr (g : Group) (l : Nat) (x : Lane) : (g.setLane l x).gsr = g.gsr := rfl
@[simp] theorem Group.setLane_mxs (g : Group) (l : Nat) (x : Lane) : (g.setLane l x).mxs = g.mxs := rfl
@[simp] theorem Group.setLane_sA (g : Group) (l : Nat) (x : Lane) : (g.setLane l x).sA = g.sA := rfl
@[simp] theorem Group.setLane_sB (g : Group) (l : Nat) (x : Lane) : (g.setLane l x).sB = g.sB := rfl
@[simp] theorem Group.setLane_q (g : Group) (l : Nat) (x : Lane) : (g.setLane l x).q = g.q := rfl
@[simp] theorem Group.setLane_stall (g : Group) (l : Nat) (x : Lane) : (g.setLane l x).stall = g.stall := rfl
@[simp] theorem Group.setLane_pend (g : Group) (l : Nat) (x : Lane) : (g.setLane l x).pend = g.pend := rfl
@[simp] theorem Group.setLane_acc (g : Group) (l : Nat) (x : Lane) : (g.setLane l x).acc = g.acc := rfl
@[simp] theorem Group.setLane_counted (g : Group) (l : Nat) (x : Lane) : (g.setLane l x).counted = g.counted := rfl
@[simp] theorem Group.setLane_deferred (g : Group) (l : Nat) (x : Lane) : (g.setLane l x).deferred = g.deferred := rfl
@[simp] theorem Group.setLane_accesses (g : Group) (l : Nat) (x : Lane) : (g.setLane l x).accesses = g.accesses := rfl
@[simp] theorem Group.setLane_nextIssue (g : Group) (l : Nat) (x : Lane) : (g.setLane l x).nextIssue = g.nextIssue := rfl
@[simp] theorem Group.setLane_age (g : Group) (l : Nat) (x : Lane) : (g.setLane l x).age = g.age := rfl
@[simp] theorem Group.setLane_yieldUntil (g : Group) (l : Nat) (x : Lane) : (g.setLane l x).yieldUntil = g.yieldUntil := rfl
@[simp] theorem Group.setLane_yieldSlots (g : Group) (l : Nat) (x : Lane) : (g.setLane l x).yieldSlots = g.yieldSlots := rfl
@[simp] theorem Group.setLane_yieldWords (g : Group) (l : Nat) (x : Lane) : (g.setLane l x).yieldWords = g.yieldWords := rfl
@[simp] theorem Group.setLane_latches (g : Group) (l : Nat) (x : Lane) : (g.setLane l x).latches = g.latches := rfl
@[simp] theorem Group.setLane_flagCycle (g : Group) (l : Nat) (x : Lane) : (g.setLane l x).flagCycle = g.flagCycle := rfl
@[simp] theorem Group.setLane_flagBits (g : Group) (l : Nat) (x : Lane) : (g.setLane l x).flagBits = g.flagBits := rfl
@[simp] theorem Group.setLane_bist (g : Group) (l : Nat) (x : Lane) : (g.setLane l x).bist = g.bist := rfl
@[simp] theorem Group.setLane_run (g : Group) (l : Nat) (x : Lane) : (g.setLane l x).run = g.run := rfl
@[simp] theorem Group.setLane_stopAt (g : Group) (l : Nat) (x : Lane) : (g.setLane l x).stopAt = g.stopAt := rfl
@[simp] theorem Group.setLane_pastBrk (g : Group) (l : Nat) (x : Lane) : (g.setLane l x).pastBrk = g.pastBrk := rfl
@[simp] theorem Group.setLane_skipSite (g : Group) (l : Nat) (x : Lane) : (g.setLane l x).skipSite = g.skipSite := rfl
@[simp] theorem Group.setLane_fetch (g : Group) (l : Nat) (x : Lane) : (g.setLane l x).fetch = g.fetch := rfl
@[simp] theorem Group.setLane_last (g : Group) (l : Nat) (x : Lane) : (g.setLane l x).last = g.last := rfl
@[simp] theorem Group.setLane_watch (g : Group) (l : Nat) (x : Lane) : (g.setLane l x).watch = g.watch := rfl
@[simp] theorem Group.setLane_trap (g : Group) (l : Nat) (x : Lane) : (g.setLane l x).trap = g.trap := rfl
@[simp] theorem Group.setLane_xsaved (g : Group) (l : Nat) (x : Lane) : (g.setLane l x).xsaved = g.xsaved := rfl
@[simp] theorem Group.setLane_xwait (g : Group) (l : Nat) (x : Lane) : (g.setLane l x).xwait = g.xwait := rfl
@[simp] theorem Group.setLane_copying (g : Group) (l : Nat) (x : Lane) : (g.setLane l x).copying = g.copying := rfl
@[simp] theorem Group.setLane_knows (g : Group) (l : Nat) (x : Lane) : (g.setLane l x).knows = g.knows := rfl
@[simp] theorem Group.setLane_lanes (g : Group) (l : Nat) (x : Lane) : (g.setLane l x).lanes = g.lanes.set l x := rfl

end Sys2Proof.Machine
end

