-- ==== Sys2Proof/Laws/Records.lean ====
section
/-!
SUPPORT. The keyed lists that hold the records, and the lanes of a group: what a look-up finds after a replacement.
-/

namespace Sys2Proof.Machine

theorem find?_upsert_self {α : Type} (p : α → Bool) (x : α) (xs : List α) (hx : p x = true) : (upsert p x xs).find? p = some x := by
  induction xs with
  | nil => simp [upsert, hx]
  | cons a r ih => unfold upsert; split <;> simp_all

theorem find?_upsert_ne {α : Type} (p q : α → Bool) (x : α) (xs : List α) (hx : q x = false) (hpq : ∀ a, p a = true → q a = false) :
    (upsert p x xs).find? q = xs.find? q := by
  induction xs with
  | nil => simp [upsert, hx]
  | cons a r ih =>
    unfold upsert
    split
    · rename_i h; simp [hx, hpq a h]
    · simp [List.find?_cons, ih]

theorem upsert_upsert {α : Type} (p : α → Bool) (x y : α) (xs : List α) (hx : p x = true) :
    upsert p y (upsert p x xs) = upsert p y xs := by
  induction xs with
  | nil => simp [upsert, hx]
  | cons a r ih =>
    by_cases h : p a = true
    · simp [upsert, h, hx]
    · simp [upsert, h, ih]

theorem upsert_found {α : Type} (p : α → Bool) (x : α) (xs : List α) (h : xs.find? p = some x) : upsert p x xs = xs := by
  induction xs with
  | nil => simp at h
  | cons a r ih =>
    by_cases hp : p a = true
    · simp [hp] at h; subst h; simp [upsert, hp]
    · simp [hp] at h; simp [upsert, hp, ih h]

/-! ### Groups -/

theorem Dev.group?_key {d : Dev} {k : GKey} {g : Group} (h : d.group? k = some g) : g.key = k := by
  simpa using List.find?_some h

/-- A group that was put in place is found. -/
theorem Dev.group?_setGroup (d : Dev) (g : Group) : (d.setGroup g).group? g.key = some g :=
  find?_upsert_self _ _ _ (by simp)

theorem Dev.group?_setGroup_of {d : Dev} {k : GKey} {g : Group} (h : g.key = k) : (d.setGroup g).group? k = some g := by
  subst h; exact Dev.group?_setGroup d g

/-- Every other group is as it was. -/
theorem Dev.group?_setGroup_ne (d : Dev) (g : Group) (k : GKey) (h : k ≠ g.key) : (d.setGroup g).group? k = d.group? k := by
  refine find?_upsert_ne _ _ _ _ ?_ ?_
  · simpa using fun e => h e.symm
  · intro a ha
    simp only [decide_eq_true_eq] at ha
    simpa [ha] using fun e => h e.symm

theorem Dev.setGroup_setGroup (d : Dev) (g h : Group) (e : g.key = h.key) : (d.setGroup g).setGroup h = d.setGroup h := by
  unfold Dev.setGroup
  simp only [Dev.mk.injEq, true_and, and_true]
  rw [e]
  exact upsert_upsert _ _ _ _ (by simp [e])

/-- A group put in place of itself changes nothing. -/
theorem Dev.setGroup_found {d : Dev} {k : GKey} {g : Group} (h : d.group? k = some g) : d.setGroup g = d := by
  have hk := Dev.group?_key h
  unfold Dev.setGroup
  rw [upsert_found _ _ _ (by rw [hk]; exact h)]

theorem Dev.modGroup_found {d : Dev} {k : GKey} {g : Group} (h : d.group? k = some g) (f : Group → Group) :
    d.modGroup k f = d.setGroup (f g) := by
  simp [Dev.modGroup, h]

@[simp] theorem Dev.group?_setLaunch (d : Dev) (l : Launch) (k : GKey) : (d.setLaunch l).group? k = d.group? k := rfl
@[simp] theorem Dev.group?_setBlock (d : Dev) (b : Block) (k : GKey) : (d.setBlock b).group? k = d.group? k := rfl
@[simp] theorem Dev.group?_setJob (d : Dev) (j : Job) (k : GKey) : (d.setJob j).group? k = d.group? k := rfl
@[simp] theorem Dev.launch?_setGroup (d : Dev) (g : Group) (t : Nat) : (d.setGroup g).launch? t = d.launch? t := rfl
@[simp] theorem Dev.launch?_setBlock (d : Dev) (b : Block) (t : Nat) : (d.setBlock b).launch? t = d.launch? t := rfl
@[simp] theorem Dev.launch?_setJob (d : Dev) (j : Job) (t : Nat) : (d.setJob j).launch? t = d.launch? t := rfl
@[simp] theorem Dev.block?_setGroup (d : Dev) (g : Group) (t n : Nat) : (d.setGroup g).block? t n = d.block? t n := rfl
@[simp] theorem Dev.block?_setLaunch (d : Dev) (l : Launch) (t n : Nat) : (d.setLaunch l).block? t n = d.block? t n := rfl
@[simp] theorem Dev.block?_setJob (d : Dev) (j : Job) (t n : Nat) : (d.setJob j).block? t n = d.block? t n := rfl
@[simp] theorem Dev.job?_setGroup (d : Dev) (g : Group) (i : Nat) : (d.setGroup g).job? i = d.job? i := rfl
@[simp] theorem Dev.job?_setBlock (d : Dev) (b : Block) (i : Nat) : (d.setBlock b).job? i = d.job? i := rfl
@[simp] theorem Dev.job?_setLaunch (d : Dev) (l : Launch) (i : Nat) : (d.setLaunch l).job? i = d.job? i := rfl

/-! ### Launches, blocks and jobs -/

theorem Dev.launch?_setLaunch (d : Dev) (l : Launch) : (d.setLaunch l).launch? l.tag = some l :=
  find?_upsert_self _ _ _ (by simp)
theorem Dev.launch?_setLaunch_of {d : Dev} {l : Launch} {t : Nat} (h : l.tag = t) : (d.setLaunch l).launch? t = some l := by
  subst h; exact Dev.launch?_setLaunch d l
theorem Dev.job?_setJob (d : Dev) (j : Job) : (d.setJob j).job? j.id = some j :=
  find?_upsert_self _ _ _ (by simp)
theorem Dev.job?_setJob_of {d : Dev} {j : Job} {i : Nat} (h : j.id = i) : (d.setJob j).job? i = some j := by
  subst h; exact Dev.job?_setJob d j
theorem Dev.block?_setBlock (d : Dev) (b : Block) : (d.setBlock b).block? b.launch b.index = some b :=
  find?_upsert_self _ _ _ (by simp)
theorem Dev.job?_id {d : Dev} {i : Nat} {j : Job} (h : d.job? i = some j) : j.id = i := by simpa using List.find?_some h
theorem Dev.launch?_tag {d : Dev} {t : Nat} {l : Launch} (h : d.launch? t = some l) : l.tag = t := by simpa using List.find?_some h
theorem Dev.block?_keys {d : Dev} {t n : Nat} {b : Block} (h : d.block? t n = some b) : b.launch = t ∧ b.index = n := by
  simpa using List.find?_some h

/-! ### Lanes -/

theorem Group.lane_setLane_self (g : Group) (l : Nat) (x : Lane) (h : l < g.lanes.length) : (g.setLane l x).lane l = x := by
  simp [Group.lane, Group.setLane, List.getD, h]

theorem Group.lane_setLane_ne (g : Group) (l m : Nat) (x : Lane) (h : m ≠ l) : (g.setLane l x).lane m = g.lane m := by
  have e : ¬ l = m := fun e => h e.symm
  simp [Group.lane, Group.setLane, List.getD, e]

@[simp] theorem Group.modLane_key (g : Group) (l : Nat) (f : Lane → Lane) : (g.modLane l f).key = g.key := rfl

/-- A change of lanes changes nothing of a group but its lanes. -/
theorem Group.modLanes_rest (g : Group) (ls : List Nat) (f : Nat → Lane → Lane) :
    g.modLanes ls f = { g with lanes := (g.modLanes ls f).lanes } := by
  induction ls generalizing g with
  | nil => rfl
  | cons l r ih =>
    show (g.modLane l (f l)).modLanes r f = _
    rw [ih]
    rfl

@[simp] theorem Group.modLanes_key (g : Group) (ls : List Nat) (f : Nat → Lane → Lane) : (g.modLanes ls f).key = g.key := by
  rw [Group.modLanes_rest]

theorem Group.modLanes_length (g : Group) (ls : List Nat) (f : Nat → Lane → Lane) :
    (g.modLanes ls f).lanes.length = g.lanes.length := by
  induction ls generalizing g with
  | nil => rfl
  | cons l r ih => show ((g.modLane l (f l)).modLanes r f).lanes.length = _; rw [ih]; simp [Group.modLane, Group.setLane]

/-- A lane that a change of lanes does not name is as it was. -/
theorem Group.modLanes_lane_ne (g : Group) (ls : List Nat) (f : Nat → Lane → Lane) (m : Nat) (h : m ∉ ls) :
    (g.modLanes ls f).lane m = g.lane m := by
  induction ls generalizing g with
  | nil => rfl
  | cons l r ih =>
    simp only [List.mem_cons, not_or] at h
    show ((g.modLane l (f l)).modLanes r f).lane m = _
    rw [ih _ h.2]
    exact Group.lane_setLane_ne _ _ _ _ h.1

/-- A lane that a change of lanes names once is changed. -/
theorem Group.modLanes_lane (g : Group) (ls : List Nat) (f : Nat → Lane → Lane) (m : Nat) (h : m ∈ ls) (hd : ls.Nodup)
    (hl : m < g.lanes.length) : (g.modLanes ls f).lane m = f m (g.lane m) := by
  induction ls generalizing g with
  | nil => simp at h
  | cons l r ih =>
    have hd' := List.nodup_cons.mp hd
    show ((g.modLane l (f l)).modLanes r f).lane m = _
    by_cases e : m = l
    · subst e
      rw [Group.modLanes_lane_ne _ _ _ _ hd'.1]
      exact Group.lane_setLane_self _ _ _ hl
    · have hm : m ∈ r := by simpa [e] using h
      rw [ih _ hm hd'.2 (by simpa [Group.modLane, Group.setLane] using hl)]
      rw [show (g.modLane l (f l)).lane m = g.lane m from Group.lane_setLane_ne _ _ _ _ e]

end Sys2Proof.Machine
end

