-- ==== Sys2Proof/Laws/Ops.lean ====
section
/-!
SUPPORT. What every act keeps, how parts of a meaning compose, and what a word does that meets none of the common checks.
-/

namespace Sys2Proof.Machine

/-! ### Acts and parts -/

theorem State.run_append (s : State) (as bs : List Act) : s.run (as ++ bs) = (s.run as).run bs := by
  induction as generalizing s with
  | nil => rfl
  | cons a r ih => exact ih (s.act a)

@[simp] theorem State.run_nil (s : State) : s.run [] = s := rfl
@[simp] theorem State.run_dev (s : State) (d : Dev) : s.run [.dev d] = { s with dev := d } := rfl
theorem State.run_cons (s : State) (a : Act) (as : List Act) : s.run (a :: as) = (s.act a).run as := rfl

/-- The state after two parts in order. -/
theorem State.did_andThen (s : State) (f g : Part) : s.did (f.andThen g) = (s.did f).did g := by
  simp [State.did, Part.andThen, State.run_append]

@[simp] theorem State.did_seq_nil (s : State) : s.did (Part.seq []) = s := rfl
theorem State.did_seq_cons (s : State) (p : Part) (ps : List Part) : s.did (Part.seq (p :: ps)) = (s.did p).did (Part.seq ps) :=
  State.did_andThen s p (Part.seq ps)
@[simp] theorem State.did_none (s : State) : s.did Part.none = s := rfl
@[simp] theorem State.did_mod (s : State) (f : Dev → Dev) : s.did (Part.mod f) = s.withDev f := rfl
theorem commit_did (s : State) (p : Part) : commit s (p s) = .next (s.did p) := rfl

/-- An act keeps the canonical form of every memory. -/
theorem State.act_keeps_inv {s : State} (a : Act) (h : s.Inv) : (s.act a).Inv := by
  obtain ⟨h1, h2, h3, h4, h5⟩ := h
  cases a with
  | dev d => exact ⟨h1, h2, h3, h4, h5⟩
  | store b a v => cases b <;> exact ⟨by first | exact cellsWf_set _ _ h1 | exact h1, by first | exact cellsWf_set _ _ h2 | exact h2,
      by first | exact cellsWf_set _ _ h3 | exact h3, by first | exact cellsWf_set _ _ h4 | exact h4,
      by first | exact cellsWf_set _ _ h5 | exact h5⟩
  | clear b lo n => cases b <;> exact ⟨by first | exact cellsWf_clear _ _ h1 | exact h1, by first | exact cellsWf_clear _ _ h2 | exact h2,
      by first | exact cellsWf_clear _ _ h3 | exact h3, by first | exact cellsWf_clear _ _ h4 | exact h4,
      by first | exact cellsWf_clear _ _ h5 | exact h5⟩

/-- So does a list of acts. -/
theorem State.run_keeps_inv {s : State} (as : List Act) (h : s.Inv) : (s.run as).Inv := by
  induction as generalizing s with
  | nil => exact h
  | cons a r ih => exact ih (State.act_keeps_inv a h)

/-! ### Words -/

/-- A word that meets none of the common checks does what its body says. -/
theorem word_issues {s : State} {i : Instr} {c : Issue} {g : Group} {la : Launch} (h : Issues s i c g la)
    (body : Issue → Group → Launch → Part) : word i body s = body c g la s := by
  simp [word, h.cur, h.group, h.launch, h.checks]

/-- A word with value checks that meets none of its checks does what its body says. -/
theorem wordWith_issues {s : State} {i : Instr} {c : Issue} {g : Group} {la : Launch} (h : Issues s i c g la)
    {vals : State → Issue → Group → Launch → List (Nat × Nat)} (hv : lowestCause (vals s c g la) = none)
    (body : Issue → Group → Launch → Part) : wordWith i vals body s = body c g la s := by
  simp [wordWith, valuedFault, h.cur, h.group, h.launch, hv, h.checks]

/-- A word with value checks takes the first fault of its checks. -/
theorem wordWith_faults {s : State} {i : Instr} {c : Issue} {g : Group} {la : Launch} {f : FaultInfo} (hc : s.dev.cur = some c)
    (hg : s.dev.group? c.g = some g) (hl : s.dev.launch? c.g.launch = some la)
    {vals : State → Issue → Group → Launch → List (Nat × Nat)} (hv : valuedFault s.dev g la c i (vals s c g la) = some f)
    (body : Issue → Group → Launch → Part) : commit s (wordWith i vals body s) = .next (s.faults c f) := by
  simp only [wordWith, hc, hg, hl, hv]; rfl

/-- Results put on their way. -/
theorem commit_retire (s : State) (k : GKey) (lat : Nat) (outs : List Out) :
    commit s (retire k lat outs s) = .next (s.after k lat outs) := by
  unfold retire State.after commit
  split <;> simp_all

theorem State.did_retire (s : State) (k : GKey) (lat : Nat) (outs : List Out) : s.did (retire k lat outs) = s.after k lat outs := by
  unfold State.did retire State.after
  split <;> simp_all

/-- A latency, from the opcode of the word (R41). -/
theorem latency_of (i : Instr) (op n : Nat) (h : encodeNat i / 2 ^ 24 % 64 = op) (h2 : latencyOf op = n) : i.latency = n := by
  rw [Instr.latency, h, h2]

/-- A result on its way is among those of its group. -/
theorem pushPend_mem (ps : List Pend) (free : Nat) (p q : Pend) : q ∈ (pushPend ps free p).1 ↔ q ∈ ps ∨ q = p := by
  unfold pushPend
  split
  · split <;> simp [or_comm]
  · simp

/-- The results on their way after a word: those before it and its own. -/
theorem pushPends_mem (outs : List Out) (t : Nat) (ps : List Pend) (free : Nat) (q : Pend) :
    q ∈ (outs.foldl (fun (a : List Pend × Nat) o => pushPend a.1 a.2 ⟨o.lane, o.dst, o.val, t⟩) (ps, free)).1 ↔
      q ∈ ps ∨ ∃ o ∈ outs, q = ⟨o.lane, o.dst, o.val, t⟩ := by
  induction outs generalizing ps free with
  | nil => simp
  | cons o r ih =>
    simp only [List.foldl_cons]
    rw [ih, pushPend_mem]
    simp only [List.mem_cons, exists_eq_or_imp]
    tauto

end Sys2Proof.Machine
end

