-- ==== Sys2Proof/Laws/PerInstr.lean ====
section
/-!
SUPPORT. One lemma per constructor of `Instr`: bits 30:0 of its word leave bit 31, the chain bit of R44, clear.
-/

namespace Sys2Proof

theorem ICond.code_lt (x : ICond) : x.code < 7 := by
  cases x <;> decide

theorem FCond.code_lt (x : FCond) : x.code < 5 := by
  cases x <;> decide

theorem FpTy.code_lt (x : FpTy) : x.code < 3 := by
  cases x <;> decide

theorem Fmt.code_lt (x : Fmt) : x.code < 9 := by
  cases x <;> decide

theorem CvtPair.code_lt (x : CvtPair) : x.code < 81 := by
  have h := x.src.code_lt
  have g := x.dst.code_lt
  simp only [CvtPair.code]
  omega

theorem Rs.code_lt (x : Rs) : x.code < 8 := by
  cases x <;> decide

theorem Space3.code_lt (x : Space3) : x.code < 3 := by
  cases x <;> decide

theorem LdTy.code_lt (x : LdTy) : x.code < 7 := by
  cases x <;> decide

theorem StTy.code_lt (x : StTy) : x.code < 8 := by
  cases x <;> decide

theorem AOp.code_lt (x : AOp) : x.code < 15 := by
  cases x <;> decide

theorem Ord.code_lt (x : Ord) : x.code < 16 := by
  rcases x with _ | s | s | s <;> first | decide | (cases s <;> decide)

theorem ROp.code_lt (x : ROp) : x.code < 11 := by
  cases x <;> decide

theorem MxFmt.code_lt (x : MxFmt) : x.code < 5 := by
  cases x <;> decide

theorem RAOp.code_lt (x : RAOp) : x.code < 32 := by
  cases x with
  | op a => cases a <;> decide
  | casB32 => decide

namespace Laws.EncodeBound

/-- The 31 bits of an instruction's own leave the chain bit alone. -/
def Statement (i : Instr) : Prop := encodeNat i < 2 ^ 31

theorem nop : Statement .nop := by
  show 0x00000000 < 2 ^ 31
  decide
theorem brk (k : BitVec 17) : Statement (.brk k) := by
  have h0 := k.isLt
  show placed 0x00020000 [(k.toNat, 0)] < 2 ^ 31
  simp only [placed]
  omega
theorem trap (k : BitVec 17) : Statement (.trap k) := by
  have h0 := k.isLt
  show placed 0x00040000 [(k.toNat, 0)] < 2 ^ 31
  simp only [placed]
  omega
theorem br (p : Reg) (o : BitVec 17) : Statement (.br p o) := by
  have h0 := p.isLt
  have h1 := o.isLt
  show placed 0x01000000 [(p.toNat, 17), (o.toNat, 0)] < 2 ^ 31
  simp only [placed]
  omega
theorem sBr (p : Reg) (o : BitVec 17) : Statement (.sBr p o) := by
  have h0 := p.isLt
  have h1 := o.isLt
  show placed 0x41000000 [(p.toNat, 17), (o.toNat, 0)] < 2 ^ 31
  simp only [placed]
  omega
theorem brx (a : Reg) : Statement (.brx a) := by
  have h0 := a.isLt
  show placed 0x02000000 [(a.toNat, 10)] < 2 ^ 31
  simp only [placed]
  omega
theorem call (o : BitVec 17) : Statement (.call o) := by
  have h0 := o.isLt
  show placed 0x02020000 [(o.toNat, 0)] < 2 ^ 31
  simp only [placed]
  omega
theorem callx (a : Reg) : Statement (.callx a) := by
  have h0 := a.isLt
  show placed 0x02040000 [(a.toNat, 10)] < 2 ^ 31
  simp only [placed]
  omega
theorem ret : Statement .ret := by
  show 0x02060000 < 2 ^ 31
  decide
theorem exit : Statement .exit := by
  show 0x03000000 < 2 ^ 31
  decide
theorem fibEnd : Statement .fibEnd := by
  show 0x03000001 < 2 ^ 31
  decide
theorem fibSpawn (d : Reg) (a : Reg) (b : Reg) : Statement (.fibSpawn d a b) := by
  have h0 := d.isLt
  have h1 := a.isLt
  have h2 := b.isLt
  show placed 0x03000002 [(d.toNat, 17), (a.toNat, 10), (b.toNat, 3)] < 2 ^ 31
  simp only [placed]
  omega
theorem divPush (o : BitVec 17) : Statement (.divPush o) := by
  have h0 := o.isLt
  show placed 0x04000000 [(o.toNat, 0)] < 2 ^ 31
  simp only [placed]
  omega
theorem divJoin : Statement .divJoin := by
  show 0x04020000 < 2 ^ 31
  decide
theorem brRot (p : Reg) (o : BitVec 17) : Statement (.brRot p o) := by
  have h0 := p.isLt
  have h1 := o.isLt
  show placed 0x05000000 [(p.toNat, 17), (o.toNat, 0)] < 2 ^ 31
  simp only [placed]
  omega
theorem wait (a : Reg) : Statement (.wait a) := by
  have h0 := a.isLt
  show placed 0x06000000 [(a.toNat, 10)] < 2 ^ 31
  simp only [placed]
  omega
theorem waitAddrBlk (a : Reg) (i : BitVec 10) : Statement (.waitAddrBlk a i) := by
  have h0 := a.isLt
  have h1 := i.isLt
  show placed 0x06020000 [(a.toNat, 10), (i.toNat, 0)] < 2 ^ 31
  simp only [placed]
  omega
theorem waitAddrPad (a : Reg) (i : BitVec 10) : Statement (.waitAddrPad a i) := by
  have h0 := a.isLt
  have h1 := i.isLt
  show placed 0x06040000 [(a.toNat, 10), (i.toNat, 0)] < 2 ^ 31
  simp only [placed]
  omega
theorem yield : Statement .yield := by
  show 0x06060000 < 2 ^ 31
  decide
theorem sysRd (d : Reg) (k : BitVec 8) : Statement (.sysRd d k) := by
  have h0 := d.isLt
  have h1 := k.isLt
  show placed 0x07000000 [(d.toNat, 17), (k.toNat, 0)] < 2 ^ 31
  simp only [placed]
  omega
theorem sysWr (a : Reg) (k : BitVec 8) : Statement (.sysWr a k) := by
  have h0 := a.isLt
  have h1 := k.isLt
  show placed 0x07000100 [(a.toNat, 10), (k.toNat, 0)] < 2 ^ 31
  simp only [placed]
  omega
theorem add (s : Bool) (d : Reg) (a : Reg) (b : Reg) : Statement (.add s d a b) := by
  have h0 := Bool.toNat_le s
  have h1 := d.isLt
  have h2 := a.isLt
  have h3 := b.isLt
  show placed 0x08000000 [(s.toNat, 30), (d.toNat, 17), (a.toNat, 10), (b.toNat, 3)] < 2 ^ 31
  simp only [placed]
  omega
theorem sub (s : Bool) (d : Reg) (a : Reg) (b : Reg) : Statement (.sub s d a b) := by
  have h0 := Bool.toNat_le s
  have h1 := d.isLt
  have h2 := a.isLt
  have h3 := b.isLt
  show placed 0x08000001 [(s.toNat, 30), (d.toNat, 17), (a.toNat, 10), (b.toNat, 3)] < 2 ^ 31
  simp only [placed]
  omega
theorem addSatS32 (s : Bool) (d : Reg) (a : Reg) (b : Reg) : Statement (.addSatS32 s d a b) := by
  have h0 := Bool.toNat_le s
  have h1 := d.isLt
  have h2 := a.isLt
  have h3 := b.isLt
  show placed 0x08000002 [(s.toNat, 30), (d.toNat, 17), (a.toNat, 10), (b.toNat, 3)] < 2 ^ 31
  simp only [placed]
  omega
theorem subSatS32 (s : Bool) (d : Reg) (a : Reg) (b : Reg) : Statement (.subSatS32 s d a b) := by
  have h0 := Bool.toNat_le s
  have h1 := d.isLt
  have h2 := a.isLt
  have h3 := b.isLt
  show placed 0x08000003 [(s.toNat, 30), (d.toNat, 17), (a.toNat, 10), (b.toNat, 3)] < 2 ^ 31
  simp only [placed]
  omega
theorem addSatZ32 (s : Bool) (d : Reg) (a : Reg) (b : Reg) : Statement (.addSatZ32 s d a b) := by
  have h0 := Bool.toNat_le s
  have h1 := d.isLt
  have h2 := a.isLt
  have h3 := b.isLt
  show placed 0x08000004 [(s.toNat, 30), (d.toNat, 17), (a.toNat, 10), (b.toNat, 3)] < 2 ^ 31
  simp only [placed]
  omega
theorem subSatZ32 (s : Bool) (d : Reg) (a : Reg) (b : Reg) : Statement (.subSatZ32 s d a b) := by
  have h0 := Bool.toNat_le s
  have h1 := d.isLt
  have h2 := a.isLt
  have h3 := b.isLt
  show placed 0x08000005 [(s.toNat, 30), (d.toNat, 17), (a.toNat, 10), (b.toNat, 3)] < 2 ^ 31
  simp only [placed]
  omega
theorem addB64 (s : Bool) (d : Reg) (a : Reg) (b : Reg) : Statement (.addB64 s d a b) := by
  have h0 := Bool.toNat_le s
  have h1 := d.isLt
  have h2 := a.isLt
  have h3 := b.isLt
  show placed 0x08000006 [(s.toNat, 30), (d.toNat, 17), (a.toNat, 10), (b.toNat, 3)] < 2 ^ 31
  simp only [placed]
  omega
theorem subB64 (s : Bool) (d : Reg) (a : Reg) (b : Reg) : Statement (.subB64 s d a b) := by
  have h0 := Bool.toNat_le s
  have h1 := d.isLt
  have h2 := a.isLt
  have h3 := b.isLt
  show placed 0x08000007 [(s.toNat, 30), (d.toNat, 17), (a.toNat, 10), (b.toNat, 3)] < 2 ^ 31
  simp only [placed]
  omega
theorem mul (s : Bool) (d : Reg) (a : Reg) (b : Reg) : Statement (.mul s d a b) := by
  have h0 := Bool.toNat_le s
  have h1 := d.isLt
  have h2 := a.isLt
  have h3 := b.isLt
  show placed 0x09000000 [(s.toNat, 30), (d.toNat, 17), (a.toNat, 10), (b.toNat, 3)] < 2 ^ 31
  simp only [placed]
  omega
theorem mulHiS32 (s : Bool) (d : Reg) (a : Reg) (b : Reg) : Statement (.mulHiS32 s d a b) := by
  have h0 := Bool.toNat_le s
  have h1 := d.isLt
  have h2 := a.isLt
  have h3 := b.isLt
  show placed 0x09000001 [(s.toNat, 30), (d.toNat, 17), (a.toNat, 10), (b.toNat, 3)] < 2 ^ 31
  simp only [placed]
  omega
theorem mulHiZ32 (s : Bool) (d : Reg) (a : Reg) (b : Reg) : Statement (.mulHiZ32 s d a b) := by
  have h0 := Bool.toNat_le s
  have h1 := d.isLt
  have h2 := a.isLt
  have h3 := b.isLt
  show placed 0x09000002 [(s.toNat, 30), (d.toNat, 17), (a.toNat, 10), (b.toNat, 3)] < 2 ^ 31
  simp only [placed]
  omega
theorem mulWideS32 (s : Bool) (d : Reg) (a : Reg) (b : Reg) : Statement (.mulWideS32 s d a b) := by
  have h0 := Bool.toNat_le s
  have h1 := d.isLt
  have h2 := a.isLt
  have h3 := b.isLt
  show placed 0x09000003 [(s.toNat, 30), (d.toNat, 17), (a.toNat, 10), (b.toNat, 3)] < 2 ^ 31
  simp only [placed]
  omega
theorem mulWideZ32 (s : Bool) (d : Reg) (a : Reg) (b : Reg) : Statement (.mulWideZ32 s d a b) := by
  have h0 := Bool.toNat_le s
  have h1 := d.isLt
  have h2 := a.isLt
  have h3 := b.isLt
  show placed 0x09000004 [(s.toNat, 30), (d.toNat, 17), (a.toNat, 10), (b.toNat, 3)] < 2 ^ 31
  simp only [placed]
  omega
theorem mad (s : Bool) (d : Reg) (a : Reg) (b : Reg) : Statement (.mad s d a b) := by
  have h0 := Bool.toNat_le s
  have h1 := d.isLt
  have h2 := a.isLt
  have h3 := b.isLt
  show placed 0x09000005 [(s.toNat, 30), (d.toNat, 17), (a.toNat, 10), (b.toNat, 3)] < 2 ^ 31
  simp only [placed]
  omega
theorem madWideS32 (s : Bool) (d : Reg) (a : Reg) (b : Reg) : Statement (.madWideS32 s d a b) := by
  have h0 := Bool.toNat_le s
  have h1 := d.isLt
  have h2 := a.isLt
  have h3 := b.isLt
  show placed 0x09000006 [(s.toNat, 30), (d.toNat, 17), (a.toNat, 10), (b.toNat, 3)] < 2 ^ 31
  simp only [placed]
  omega
theorem madWideZ32 (s : Bool) (d : Reg) (a : Reg) (b : Reg) : Statement (.madWideZ32 s d a b) := by
  have h0 := Bool.toNat_le s
  have h1 := d.isLt
  have h2 := a.isLt
  have h3 := b.isLt
  show placed 0x09000007 [(s.toNat, 30), (d.toNat, 17), (a.toNat, 10), (b.toNat, 3)] < 2 ^ 31
  simp only [placed]
  omega
theorem and (s : Bool) (d : Reg) (a : Reg) (b : Reg) : Statement (.and s d a b) := by
  have h0 := Bool.toNat_le s
  have h1 := d.isLt
  have h2 := a.isLt
  have h3 := b.isLt
  show placed 0x0A000000 [(s.toNat, 30), (d.toNat, 17), (a.toNat, 10), (b.toNat, 3)] < 2 ^ 31
  simp only [placed]
  omega
theorem or (s : Bool) (d : Reg) (a : Reg) (b : Reg) : Statement (.or s d a b) := by
  have h0 := Bool.toNat_le s
  have h1 := d.isLt
  have h2 := a.isLt
  have h3 := b.isLt
  show placed 0x0A000001 [(s.toNat, 30), (d.toNat, 17), (a.toNat, 10), (b.toNat, 3)] < 2 ^ 31
  simp only [placed]
  omega
theorem xor (s : Bool) (d : Reg) (a : Reg) (b : Reg) : Statement (.xor s d a b) := by
  have h0 := Bool.toNat_le s
  have h1 := d.isLt
  have h2 := a.isLt
  have h3 := b.isLt
  show placed 0x0A000002 [(s.toNat, 30), (d.toNat, 17), (a.toNat, 10), (b.toNat, 3)] < 2 ^ 31
  simp only [placed]
  omega
theorem andn (s : Bool) (d : Reg) (a : Reg) (b : Reg) : Statement (.andn s d a b) := by
  have h0 := Bool.toNat_le s
  have h1 := d.isLt
  have h2 := a.isLt
  have h3 := b.isLt
  show placed 0x0A000003 [(s.toNat, 30), (d.toNat, 17), (a.toNat, 10), (b.toNat, 3)] < 2 ^ 31
  simp only [placed]
  omega
theorem orn (s : Bool) (d : Reg) (a : Reg) (b : Reg) : Statement (.orn s d a b) := by
  have h0 := Bool.toNat_le s
  have h1 := d.isLt
  have h2 := a.isLt
  have h3 := b.isLt
  show placed 0x0A000004 [(s.toNat, 30), (d.toNat, 17), (a.toNat, 10), (b.toNat, 3)] < 2 ^ 31
  simp only [placed]
  omega
theorem xnor (s : Bool) (d : Reg) (a : Reg) (b : Reg) : Statement (.xnor s d a b) := by
  have h0 := Bool.toNat_le s
  have h1 := d.isLt
  have h2 := a.isLt
  have h3 := b.isLt
  show placed 0x0A000005 [(s.toNat, 30), (d.toNat, 17), (a.toNat, 10), (b.toNat, 3)] < 2 ^ 31
  simp only [placed]
  omega
theorem not (s : Bool) (d : Reg) (a : Reg) : Statement (.not s d a) := by
  have h0 := Bool.toNat_le s
  have h1 := d.isLt
  have h2 := a.isLt
  show placed 0x0A000006 [(s.toNat, 30), (d.toNat, 17), (a.toNat, 10)] < 2 ^ 31
  simp only [placed]
  omega
theorem shl (s : Bool) (d : Reg) (a : Reg) (b : Reg) : Statement (.shl s d a b) := by
  have h0 := Bool.toNat_le s
  have h1 := d.isLt
  have h2 := a.isLt
  have h3 := b.isLt
  show placed 0x0B000000 [(s.toNat, 30), (d.toNat, 17), (a.toNat, 10), (b.toNat, 3)] < 2 ^ 31
  simp only [placed]
  omega
theorem shrZ32 (s : Bool) (d : Reg) (a : Reg) (b : Reg) : Statement (.shrZ32 s d a b) := by
  have h0 := Bool.toNat_le s
  have h1 := d.isLt
  have h2 := a.isLt
  have h3 := b.isLt
  show placed 0x0B000001 [(s.toNat, 30), (d.toNat, 17), (a.toNat, 10), (b.toNat, 3)] < 2 ^ 31
  simp only [placed]
  omega
theorem shrS32 (s : Bool) (d : Reg) (a : Reg) (b : Reg) : Statement (.shrS32 s d a b) := by
  have h0 := Bool.toNat_le s
  have h1 := d.isLt
  have h2 := a.isLt
  have h3 := b.isLt
  show placed 0x0B000002 [(s.toNat, 30), (d.toNat, 17), (a.toNat, 10), (b.toNat, 3)] < 2 ^ 31
  simp only [placed]
  omega
theorem rol (s : Bool) (d : Reg) (a : Reg) (b : Reg) : Statement (.rol s d a b) := by
  have h0 := Bool.toNat_le s
  have h1 := d.isLt
  have h2 := a.isLt
  have h3 := b.isLt
  show placed 0x0B000003 [(s.toNat, 30), (d.toNat, 17), (a.toNat, 10), (b.toNat, 3)] < 2 ^ 31
  simp only [placed]
  omega
theorem ror (s : Bool) (d : Reg) (a : Reg) (b : Reg) : Statement (.ror s d a b) := by
  have h0 := Bool.toNat_le s
  have h1 := d.isLt
  have h2 := a.isLt
  have h3 := b.isLt
  show placed 0x0B000004 [(s.toNat, 30), (d.toNat, 17), (a.toNat, 10), (b.toNat, 3)] < 2 ^ 31
  simp only [placed]
  omega
theorem popc (s : Bool) (d : Reg) (a : Reg) : Statement (.popc s d a) := by
  have h0 := Bool.toNat_le s
  have h1 := d.isLt
  have h2 := a.isLt
  show placed 0x0C000000 [(s.toNat, 30), (d.toNat, 17), (a.toNat, 10)] < 2 ^ 31
  simp only [placed]
  omega
theorem clz (s : Bool) (d : Reg) (a : Reg) : Statement (.clz s d a) := by
  have h0 := Bool.toNat_le s
  have h1 := d.isLt
  have h2 := a.isLt
  show placed 0x0C000001 [(s.toNat, 30), (d.toNat, 17), (a.toNat, 10)] < 2 ^ 31
  simp only [placed]
  omega
theorem ctz (s : Bool) (d : Reg) (a : Reg) : Statement (.ctz s d a) := by
  have h0 := Bool.toNat_le s
  have h1 := d.isLt
  have h2 := a.isLt
  show placed 0x0C000002 [(s.toNat, 30), (d.toNat, 17), (a.toNat, 10)] < 2 ^ 31
  simp only [placed]
  omega
theorem brev (s : Bool) (d : Reg) (a : Reg) : Statement (.brev s d a) := by
  have h0 := Bool.toNat_le s
  have h1 := d.isLt
  have h2 := a.isLt
  show placed 0x0C000003 [(s.toNat, 30), (d.toNat, 17), (a.toNat, 10)] < 2 ^ 31
  simp only [placed]
  omega
theorem bswap (s : Bool) (d : Reg) (a : Reg) : Statement (.bswap s d a) := by
  have h0 := Bool.toNat_le s
  have h1 := d.isLt
  have h2 := a.isLt
  show placed 0x0C000004 [(s.toNat, 30), (d.toNat, 17), (a.toNat, 10)] < 2 ^ 31
  simp only [placed]
  omega
theorem bfxZ32 (s : Bool) (d : Reg) (a : Reg) (b : Reg) : Statement (.bfxZ32 s d a b) := by
  have h0 := Bool.toNat_le s
  have h1 := d.isLt
  have h2 := a.isLt
  have h3 := b.isLt
  show placed 0x0D000000 [(s.toNat, 30), (d.toNat, 17), (a.toNat, 10), (b.toNat, 3)] < 2 ^ 31
  simp only [placed]
  omega
theorem bfxS32 (s : Bool) (d : Reg) (a : Reg) (b : Reg) : Statement (.bfxS32 s d a b) := by
  have h0 := Bool.toNat_le s
  have h1 := d.isLt
  have h2 := a.isLt
  have h3 := b.isLt
  show placed 0x0D000001 [(s.toNat, 30), (d.toNat, 17), (a.toNat, 10), (b.toNat, 3)] < 2 ^ 31
  simp only [placed]
  omega
theorem bfi (s : Bool) (d : Reg) (a : Reg) (b : Reg) : Statement (.bfi s d a b) := by
  have h0 := Bool.toNat_le s
  have h1 := d.isLt
  have h2 := a.isLt
  have h3 := b.isLt
  show placed 0x0D000002 [(s.toNat, 30), (d.toNat, 17), (a.toNat, 10), (b.toNat, 3)] < 2 ^ 31
  simp only [placed]
  omega
theorem minS32 (s : Bool) (d : Reg) (a : Reg) (b : Reg) : Statement (.minS32 s d a b) := by
  have h0 := Bool.toNat_le s
  have h1 := d.isLt
  have h2 := a.isLt
  have h3 := b.isLt
  show placed 0x0E000000 [(s.toNat, 30), (d.toNat, 17), (a.toNat, 10), (b.toNat, 3)] < 2 ^ 31
  simp only [placed]
  omega
theorem minZ32 (s : Bool) (d : Reg) (a : Reg) (b : Reg) : Statement (.minZ32 s d a b) := by
  have h0 := Bool.toNat_le s
  have h1 := d.isLt
  have h2 := a.isLt
  have h3 := b.isLt
  show placed 0x0E000001 [(s.toNat, 30), (d.toNat, 17), (a.toNat, 10), (b.toNat, 3)] < 2 ^ 31
  simp only [placed]
  omega
theorem maxS32 (s : Bool) (d : Reg) (a : Reg) (b : Reg) : Statement (.maxS32 s d a b) := by
  have h0 := Bool.toNat_le s
  have h1 := d.isLt
  have h2 := a.isLt
  have h3 := b.isLt
  show placed 0x0E000002 [(s.toNat, 30), (d.toNat, 17), (a.toNat, 10), (b.toNat, 3)] < 2 ^ 31
  simp only [placed]
  omega
theorem maxZ32 (s : Bool) (d : Reg) (a : Reg) (b : Reg) : Statement (.maxZ32 s d a b) := by
  have h0 := Bool.toNat_le s
  have h1 := d.isLt
  have h2 := a.isLt
  have h3 := b.isLt
  show placed 0x0E000003 [(s.toNat, 30), (d.toNat, 17), (a.toNat, 10), (b.toNat, 3)] < 2 ^ 31
  simp only [placed]
  omega
theorem absS32 (s : Bool) (d : Reg) (a : Reg) : Statement (.absS32 s d a) := by
  have h0 := Bool.toNat_le s
  have h1 := d.isLt
  have h2 := a.isLt
  show placed 0x0E000004 [(s.toNat, 30), (d.toNat, 17), (a.toNat, 10)] < 2 ^ 31
  simp only [placed]
  omega
theorem negS32 (s : Bool) (d : Reg) (a : Reg) : Statement (.negS32 s d a) := by
  have h0 := Bool.toNat_le s
  have h1 := d.isLt
  have h2 := a.isLt
  show placed 0x0E000005 [(s.toNat, 30), (d.toNat, 17), (a.toNat, 10)] < 2 ^ 31
  simp only [placed]
  omega
theorem icmp (s : Bool) (d : Reg) (a : Reg) (b : Reg) (k : ICond) : Statement (.icmp s d a b k) := by
  have h0 := Bool.toNat_le s
  have h1 := d.isLt
  have h2 := a.isLt
  have h3 := b.isLt
  have h4 := k.code_lt
  show placed 0x0F000000 [(s.toNat, 30), (d.toNat, 17), (a.toNat, 10), (b.toNat, 3), (k.code, 0)] < 2 ^ 31
  simp only [placed]
  omega
theorem movi (s : Bool) (d : Reg) (i : BitVec 17) : Statement (.movi s d i) := by
  have h0 := Bool.toNat_le s
  have h1 := d.isLt
  have h2 := i.isLt
  show placed 0x10000000 [(s.toNat, 30), (d.toNat, 17), (i.toNat, 0)] < 2 ^ 31
  simp only [placed]
  omega
theorem movh (s : Bool) (d : Reg) (i : BitVec 17) : Statement (.movh s d i) := by
  have h0 := Bool.toNat_le s
  have h1 := d.isLt
  have h2 := i.isLt
  show placed 0x11000000 [(s.toNat, 30), (d.toNat, 17), (i.toNat, 0)] < 2 ^ 31
  simp only [placed]
  omega
theorem iaddi (s : Bool) (d : Reg) (a : Reg) (i : BitVec 10) : Statement (.iaddi s d a i) := by
  have h0 := Bool.toNat_le s
  have h1 := d.isLt
  have h2 := a.isLt
  have h3 := i.isLt
  show placed 0x12000000 [(s.toNat, 30), (d.toNat, 17), (a.toNat, 10), (i.toNat, 0)] < 2 ^ 31
  simp only [placed]
  omega
theorem andi (s : Bool) (d : Reg) (a : Reg) (i : BitVec 8) : Statement (.andi s d a i) := by
  have h0 := Bool.toNat_le s
  have h1 := d.isLt
  have h2 := a.isLt
  have h3 := i.isLt
  show placed 0x13000000 [(s.toNat, 30), (d.toNat, 17), (a.toNat, 10), (i.toNat, 0)] < 2 ^ 31
  simp only [placed]
  omega
theorem ori (s : Bool) (d : Reg) (a : Reg) (i : BitVec 8) : Statement (.ori s d a i) := by
  have h0 := Bool.toNat_le s
  have h1 := d.isLt
  have h2 := a.isLt
  have h3 := i.isLt
  show placed 0x13000100 [(s.toNat, 30), (d.toNat, 17), (a.toNat, 10), (i.toNat, 0)] < 2 ^ 31
  simp only [placed]
  omega
theorem xori (s : Bool) (d : Reg) (a : Reg) (i : BitVec 8) : Statement (.xori s d a i) := by
  have h0 := Bool.toNat_le s
  have h1 := d.isLt
  have h2 := a.isLt
  have h3 := i.isLt
  show placed 0x13000200 [(s.toNat, 30), (d.toNat, 17), (a.toNat, 10), (i.toNat, 0)] < 2 ^ 31
  simp only [placed]
  omega
theorem shli (s : Bool) (d : Reg) (a : Reg) (n : BitVec 5) : Statement (.shli s d a n) := by
  have h0 := Bool.toNat_le s
  have h1 := d.isLt
  have h2 := a.isLt
  have h3 := n.isLt
  show placed 0x14000000 [(s.toNat, 30), (d.toNat, 17), (a.toNat, 10), (n.toNat, 0)] < 2 ^ 31
  simp only [placed]
  omega
theorem shriZ32 (s : Bool) (d : Reg) (a : Reg) (n : BitVec 5) : Statement (.shriZ32 s d a n) := by
  have h0 := Bool.toNat_le s
  have h1 := d.isLt
  have h2 := a.isLt
  have h3 := n.isLt
  show placed 0x14000100 [(s.toNat, 30), (d.toNat, 17), (a.toNat, 10), (n.toNat, 0)] < 2 ^ 31
  simp only [placed]
  omega
theorem shriS32 (s : Bool) (d : Reg) (a : Reg) (n : BitVec 5) : Statement (.shriS32 s d a n) := by
  have h0 := Bool.toNat_le s
  have h1 := d.isLt
  have h2 := a.isLt
  have h3 := n.isLt
  show placed 0x14000200 [(s.toNat, 30), (d.toNat, 17), (a.toNat, 10), (n.toNat, 0)] < 2 ^ 31
  simp only [placed]
  omega
theorem rori (s : Bool) (d : Reg) (a : Reg) (n : BitVec 5) : Statement (.rori s d a n) := by
  have h0 := Bool.toNat_le s
  have h1 := d.isLt
  have h2 := a.isLt
  have h3 := n.isLt
  show placed 0x14000300 [(s.toNat, 30), (d.toNat, 17), (a.toNat, 10), (n.toNat, 0)] < 2 ^ 31
  simp only [placed]
  omega
theorem mov (s : Bool) (d : Reg) (a : Reg) : Statement (.mov s d a) := by
  have h0 := Bool.toNat_le s
  have h1 := d.isLt
  have h2 := a.isLt
  show placed 0x15000000 [(s.toNat, 30), (d.toNat, 17), (a.toNat, 10)] < 2 ^ 31
  simp only [placed]
  omega
theorem sel (s : Bool) (d : Reg) (a : Reg) (b : Reg) : Statement (.sel s d a b) := by
  have h0 := Bool.toNat_le s
  have h1 := d.isLt
  have h2 := a.isLt
  have h3 := b.isLt
  show placed 0x15000001 [(s.toNat, 30), (d.toNat, 17), (a.toNat, 10), (b.toNat, 3)] < 2 ^ 31
  simp only [placed]
  omega
theorem lea (s : Bool) (d : Reg) (a : Reg) (b : Reg) (n : BitVec 3) : Statement (.lea s d a b n) := by
  have h0 := Bool.toNat_le s
  have h1 := d.isLt
  have h2 := a.isLt
  have h3 := b.isLt
  have h4 := n.isLt
  show placed 0x16000000 [(s.toNat, 30), (d.toNat, 17), (a.toNat, 10), (b.toNat, 3), (n.toNat, 0)] < 2 ^ 31
  simp only [placed]
  omega
theorem pand (d : Reg) (a : Reg) (b : Reg) : Statement (.pand d a b) := by
  have h0 := d.isLt
  have h1 := a.isLt
  have h2 := b.isLt
  show placed 0x17000000 [(d.toNat, 17), (a.toNat, 10), (b.toNat, 3)] < 2 ^ 31
  simp only [placed]
  omega
theorem por (d : Reg) (a : Reg) (b : Reg) : Statement (.por d a b) := by
  have h0 := d.isLt
  have h1 := a.isLt
  have h2 := b.isLt
  show placed 0x17000001 [(d.toNat, 17), (a.toNat, 10), (b.toNat, 3)] < 2 ^ 31
  simp only [placed]
  omega
theorem pxor (d : Reg) (a : Reg) (b : Reg) : Statement (.pxor d a b) := by
  have h0 := d.isLt
  have h1 := a.isLt
  have h2 := b.isLt
  show placed 0x17000002 [(d.toNat, 17), (a.toNat, 10), (b.toNat, 3)] < 2 ^ 31
  simp only [placed]
  omega
theorem pSet (d : Reg) (a : Reg) : Statement (.pSet d a) := by
  have h0 := d.isLt
  have h1 := a.isLt
  show placed 0x17000003 [(d.toNat, 17), (a.toNat, 10)] < 2 ^ 31
  simp only [placed]
  omega
theorem pGet (d : Reg) (a : Reg) : Statement (.pGet d a) := by
  have h0 := d.isLt
  have h1 := a.isLt
  show placed 0x17000004 [(d.toNat, 17), (a.toNat, 10)] < 2 ^ 31
  simp only [placed]
  omega
theorem pwRd (d : Reg) : Statement (.pwRd d) := by
  have h0 := d.isLt
  show placed 0x17000005 [(d.toNat, 17)] < 2 ^ 31
  simp only [placed]
  omega
theorem pwWr (a : Reg) : Statement (.pwWr a) := by
  have h0 := a.isLt
  show placed 0x17000006 [(a.toNat, 10)] < 2 ^ 31
  simp only [placed]
  omega
theorem faddF32 (s : Bool) (d : Reg) (a : Reg) (b : Reg) : Statement (.faddF32 s d a b) := by
  have h0 := Bool.toNat_le s
  have h1 := d.isLt
  have h2 := a.isLt
  have h3 := b.isLt
  show placed 0x18000000 [(s.toNat, 30), (d.toNat, 17), (a.toNat, 10), (b.toNat, 3)] < 2 ^ 31
  simp only [placed]
  omega
theorem fsubF32 (s : Bool) (d : Reg) (a : Reg) (b : Reg) : Statement (.fsubF32 s d a b) := by
  have h0 := Bool.toNat_le s
  have h1 := d.isLt
  have h2 := a.isLt
  have h3 := b.isLt
  show placed 0x18000001 [(s.toNat, 30), (d.toNat, 17), (a.toNat, 10), (b.toNat, 3)] < 2 ^ 31
  simp only [placed]
  omega
theorem faddF16x2 (s : Bool) (d : Reg) (a : Reg) (b : Reg) : Statement (.faddF16x2 s d a b) := by
  have h0 := Bool.toNat_le s
  have h1 := d.isLt
  have h2 := a.isLt
  have h3 := b.isLt
  show placed 0x18000002 [(s.toNat, 30), (d.toNat, 17), (a.toNat, 10), (b.toNat, 3)] < 2 ^ 31
  simp only [placed]
  omega
theorem fsubF16x2 (s : Bool) (d : Reg) (a : Reg) (b : Reg) : Statement (.fsubF16x2 s d a b) := by
  have h0 := Bool.toNat_le s
  have h1 := d.isLt
  have h2 := a.isLt
  have h3 := b.isLt
  show placed 0x18000003 [(s.toNat, 30), (d.toNat, 17), (a.toNat, 10), (b.toNat, 3)] < 2 ^ 31
  simp only [placed]
  omega
theorem faddBf16x2 (s : Bool) (d : Reg) (a : Reg) (b : Reg) : Statement (.faddBf16x2 s d a b) := by
  have h0 := Bool.toNat_le s
  have h1 := d.isLt
  have h2 := a.isLt
  have h3 := b.isLt
  show placed 0x18000004 [(s.toNat, 30), (d.toNat, 17), (a.toNat, 10), (b.toNat, 3)] < 2 ^ 31
  simp only [placed]
  omega
theorem fsubBf16x2 (s : Bool) (d : Reg) (a : Reg) (b : Reg) : Statement (.fsubBf16x2 s d a b) := by
  have h0 := Bool.toNat_le s
  have h1 := d.isLt
  have h2 := a.isLt
  have h3 := b.isLt
  show placed 0x18000005 [(s.toNat, 30), (d.toNat, 17), (a.toNat, 10), (b.toNat, 3)] < 2 ^ 31
  simp only [placed]
  omega
theorem faddSatF32 (s : Bool) (d : Reg) (a : Reg) (b : Reg) : Statement (.faddSatF32 s d a b) := by
  have h0 := Bool.toNat_le s
  have h1 := d.isLt
  have h2 := a.isLt
  have h3 := b.isLt
  show placed 0x18000006 [(s.toNat, 30), (d.toNat, 17), (a.toNat, 10), (b.toNat, 3)] < 2 ^ 31
  simp only [placed]
  omega
theorem fsubSatF32 (s : Bool) (d : Reg) (a : Reg) (b : Reg) : Statement (.fsubSatF32 s d a b) := by
  have h0 := Bool.toNat_le s
  have h1 := d.isLt
  have h2 := a.isLt
  have h3 := b.isLt
  show placed 0x18000007 [(s.toNat, 30), (d.toNat, 17), (a.toNat, 10), (b.toNat, 3)] < 2 ^ 31
  simp only [placed]
  omega
theorem fmulF32 (s : Bool) (d : Reg) (a : Reg) (b : Reg) (t : Bool) : Statement (.fmulF32 s d a b t) := by
  have h0 := Bool.toNat_le s
  have h1 := d.isLt
  have h2 := a.isLt
  have h3 := b.isLt
  have h4 := Bool.toNat_le t
  show placed 0x19000000 [(s.toNat, 30), (d.toNat, 17), (a.toNat, 10), (b.toNat, 3), (t.toNat, 2)] < 2 ^ 31
  simp only [placed]
  omega
theorem fmulF16x2 (s : Bool) (d : Reg) (a : Reg) (b : Reg) (t : Bool) : Statement (.fmulF16x2 s d a b t) := by
  have h0 := Bool.toNat_le s
  have h1 := d.isLt
  have h2 := a.isLt
  have h3 := b.isLt
  have h4 := Bool.toNat_le t
  show placed 0x19000001 [(s.toNat, 30), (d.toNat, 17), (a.toNat, 10), (b.toNat, 3), (t.toNat, 2)] < 2 ^ 31
  simp only [placed]
  omega
theorem fmulBf16x2 (s : Bool) (d : Reg) (a : Reg) (b : Reg) (t : Bool) : Statement (.fmulBf16x2 s d a b t) := by
  have h0 := Bool.toNat_le s
  have h1 := d.isLt
  have h2 := a.isLt
  have h3 := b.isLt
  have h4 := Bool.toNat_le t
  show placed 0x19000002 [(s.toNat, 30), (d.toNat, 17), (a.toNat, 10), (b.toNat, 3), (t.toNat, 2)] < 2 ^ 31
  simp only [placed]
  omega
theorem ffmaF32 (s : Bool) (d : Reg) (a : Reg) (b : Reg) (t : Bool) : Statement (.ffmaF32 s d a b t) := by
  have h0 := Bool.toNat_le s
  have h1 := d.isLt
  have h2 := a.isLt
  have h3 := b.isLt
  have h4 := Bool.toNat_le t
  show placed 0x1A000000 [(s.toNat, 30), (d.toNat, 17), (a.toNat, 10), (b.toNat, 3), (t.toNat, 2)] < 2 ^ 31
  simp only [placed]
  omega
theorem ffmaF16x2 (s : Bool) (d : Reg) (a : Reg) (b : Reg) (t : Bool) : Statement (.ffmaF16x2 s d a b t) := by
  have h0 := Bool.toNat_le s
  have h1 := d.isLt
  have h2 := a.isLt
  have h3 := b.isLt
  have h4 := Bool.toNat_le t
  show placed 0x1A000001 [(s.toNat, 30), (d.toNat, 17), (a.toNat, 10), (b.toNat, 3), (t.toNat, 2)] < 2 ^ 31
  simp only [placed]
  omega
theorem ffmaBf16x2 (s : Bool) (d : Reg) (a : Reg) (b : Reg) (t : Bool) : Statement (.ffmaBf16x2 s d a b t) := by
  have h0 := Bool.toNat_le s
  have h1 := d.isLt
  have h2 := a.isLt
  have h3 := b.isLt
  have h4 := Bool.toNat_le t
  show placed 0x1A000002 [(s.toNat, 30), (d.toNat, 17), (a.toNat, 10), (b.toNat, 3), (t.toNat, 2)] < 2 ^ 31
  simp only [placed]
  omega
theorem fmin (s : Bool) (d : Reg) (a : Reg) (b : Reg) (t : FpTy) : Statement (.fmin s d a b t) := by
  have h0 := Bool.toNat_le s
  have h1 := d.isLt
  have h2 := a.isLt
  have h3 := b.isLt
  have h4 := t.code_lt
  show placed 0x1B000000 [(s.toNat, 30), (d.toNat, 17), (a.toNat, 10), (b.toNat, 3), (t.code, 1)] < 2 ^ 31
  simp only [placed]
  omega
theorem fmax (s : Bool) (d : Reg) (a : Reg) (b : Reg) (t : FpTy) : Statement (.fmax s d a b t) := by
  have h0 := Bool.toNat_le s
  have h1 := d.isLt
  have h2 := a.isLt
  have h3 := b.isLt
  have h4 := t.code_lt
  show placed 0x1B000001 [(s.toNat, 30), (d.toNat, 17), (a.toNat, 10), (b.toNat, 3), (t.code, 1)] < 2 ^ 31
  simp only [placed]
  omega
theorem fclass (s : Bool) (d : Reg) (a : Reg) : Statement (.fclass s d a) := by
  have h0 := Bool.toNat_le s
  have h1 := d.isLt
  have h2 := a.isLt
  show placed 0x1C000005 [(s.toNat, 30), (d.toNat, 17), (a.toNat, 10)] < 2 ^ 31
  simp only [placed]
  omega
theorem fcmp (s : Bool) (d : Reg) (a : Reg) (b : Reg) (k : FCond) : Statement (.fcmp s d a b k) := by
  have h0 := Bool.toNat_le s
  have h1 := d.isLt
  have h2 := a.isLt
  have h3 := b.isLt
  have h4 := k.code_lt
  show placed 0x1C000000 [(s.toNat, 30), (d.toNat, 17), (a.toNat, 10), (b.toNat, 3), (k.code, 0)] < 2 ^ 31
  simp only [placed]
  omega
theorem rcp (s : Bool) (d : Reg) (a : Reg) (t : FpTy) : Statement (.rcp s d a t) := by
  have h0 := Bool.toNat_le s
  have h1 := d.isLt
  have h2 := a.isLt
  have h3 := t.code_lt
  show placed 0x1D000000 [(s.toNat, 30), (d.toNat, 17), (a.toNat, 10), (t.code, 0)] < 2 ^ 31
  simp only [placed]
  omega
theorem rsq (s : Bool) (d : Reg) (a : Reg) (t : FpTy) : Statement (.rsq s d a t) := by
  have h0 := Bool.toNat_le s
  have h1 := d.isLt
  have h2 := a.isLt
  have h3 := t.code_lt
  show placed 0x1D000008 [(s.toNat, 30), (d.toNat, 17), (a.toNat, 10), (t.code, 0)] < 2 ^ 31
  simp only [placed]
  omega
theorem sqrt (s : Bool) (d : Reg) (a : Reg) (t : FpTy) : Statement (.sqrt s d a t) := by
  have h0 := Bool.toNat_le s
  have h1 := d.isLt
  have h2 := a.isLt
  have h3 := t.code_lt
  show placed 0x1D000010 [(s.toNat, 30), (d.toNat, 17), (a.toNat, 10), (t.code, 0)] < 2 ^ 31
  simp only [placed]
  omega
theorem exp2 (s : Bool) (d : Reg) (a : Reg) (t : FpTy) : Statement (.exp2 s d a t) := by
  have h0 := Bool.toNat_le s
  have h1 := d.isLt
  have h2 := a.isLt
  have h3 := t.code_lt
  show placed 0x1D000018 [(s.toNat, 30), (d.toNat, 17), (a.toNat, 10), (t.code, 0)] < 2 ^ 31
  simp only [placed]
  omega
theorem log2 (s : Bool) (d : Reg) (a : Reg) (t : FpTy) : Statement (.log2 s d a t) := by
  have h0 := Bool.toNat_le s
  have h1 := d.isLt
  have h2 := a.isLt
  have h3 := t.code_lt
  show placed 0x1D000020 [(s.toNat, 30), (d.toNat, 17), (a.toNat, 10), (t.code, 0)] < 2 ^ 31
  simp only [placed]
  omega
theorem sin (s : Bool) (d : Reg) (a : Reg) (t : FpTy) : Statement (.sin s d a t) := by
  have h0 := Bool.toNat_le s
  have h1 := d.isLt
  have h2 := a.isLt
  have h3 := t.code_lt
  show placed 0x1D000028 [(s.toNat, 30), (d.toNat, 17), (a.toNat, 10), (t.code, 0)] < 2 ^ 31
  simp only [placed]
  omega
theorem cos (s : Bool) (d : Reg) (a : Reg) (t : FpTy) : Statement (.cos s d a t) := by
  have h0 := Bool.toNat_le s
  have h1 := d.isLt
  have h2 := a.isLt
  have h3 := t.code_lt
  show placed 0x1D000030 [(s.toNat, 30), (d.toNat, 17), (a.toNat, 10), (t.code, 0)] < 2 ^ 31
  simp only [placed]
  omega
theorem tanh (s : Bool) (d : Reg) (a : Reg) (t : FpTy) : Statement (.tanh s d a t) := by
  have h0 := Bool.toNat_le s
  have h1 := d.isLt
  have h2 := a.isLt
  have h3 := t.code_lt
  show placed 0x1D000038 [(s.toNat, 30), (d.toNat, 17), (a.toNat, 10), (t.code, 0)] < 2 ^ 31
  simp only [placed]
  omega
theorem erf (s : Bool) (d : Reg) (a : Reg) (t : FpTy) : Statement (.erf s d a t) := by
  have h0 := Bool.toNat_le s
  have h1 := d.isLt
  have h2 := a.isLt
  have h3 := t.code_lt
  show placed 0x1D000040 [(s.toNat, 30), (d.toNat, 17), (a.toNat, 10), (t.code, 0)] < 2 ^ 31
  simp only [placed]
  omega
theorem ncdf (s : Bool) (d : Reg) (a : Reg) (t : FpTy) : Statement (.ncdf s d a t) := by
  have h0 := Bool.toNat_le s
  have h1 := d.isLt
  have h2 := a.isLt
  have h3 := t.code_lt
  show placed 0x1D000048 [(s.toNat, 30), (d.toNat, 17), (a.toNat, 10), (t.code, 0)] < 2 ^ 31
  simp only [placed]
  omega
theorem npdf (s : Bool) (d : Reg) (a : Reg) (t : FpTy) : Statement (.npdf s d a t) := by
  have h0 := Bool.toNat_le s
  have h1 := d.isLt
  have h2 := a.isLt
  have h3 := t.code_lt
  show placed 0x1D000050 [(s.toNat, 30), (d.toNat, 17), (a.toNat, 10), (t.code, 0)] < 2 ^ 31
  simp only [placed]
  omega
theorem packE4m3F32 (s : Bool) (d : Reg) (a : Reg) (r : Rs) : Statement (.packE4m3F32 s d a r) := by
  have h0 := Bool.toNat_le s
  have h1 := d.isLt
  have h2 := a.isLt
  have h3 := r.code_lt
  show placed 0x1E000288 [(s.toNat, 30), (d.toNat, 17), (a.toNat, 10), (r.code, 0)] < 2 ^ 31
  simp only [placed]
  omega
theorem packE5m2F32 (s : Bool) (d : Reg) (a : Reg) (r : Rs) : Statement (.packE5m2F32 s d a r) := by
  have h0 := Bool.toNat_le s
  have h1 := d.isLt
  have h2 := a.isLt
  have h3 := r.code_lt
  show placed 0x1E000290 [(s.toNat, 30), (d.toNat, 17), (a.toNat, 10), (r.code, 0)] < 2 ^ 31
  simp only [placed]
  omega
theorem packE2m1F32 (s : Bool) (d : Reg) (a : Reg) (r : Rs) : Statement (.packE2m1F32 s d a r) := by
  have h0 := Bool.toNat_le s
  have h1 := d.isLt
  have h2 := a.isLt
  have h3 := r.code_lt
  show placed 0x1E000298 [(s.toNat, 30), (d.toNat, 17), (a.toNat, 10), (r.code, 0)] < 2 ^ 31
  simp only [placed]
  omega
theorem unpackF32E4m3 (s : Bool) (d : Reg) (a : Reg) : Statement (.unpackF32E4m3 s d a) := by
  have h0 := Bool.toNat_le s
  have h1 := d.isLt
  have h2 := a.isLt
  show placed 0x1E0002A5 [(s.toNat, 30), (d.toNat, 17), (a.toNat, 10)] < 2 ^ 31
  simp only [placed]
  omega
theorem unpackF32E5m2 (s : Bool) (d : Reg) (a : Reg) : Statement (.unpackF32E5m2 s d a) := by
  have h0 := Bool.toNat_le s
  have h1 := d.isLt
  have h2 := a.isLt
  show placed 0x1E0002AD [(s.toNat, 30), (d.toNat, 17), (a.toNat, 10)] < 2 ^ 31
  simp only [placed]
  omega
theorem unpackF32E2m1 (s : Bool) (d : Reg) (a : Reg) : Statement (.unpackF32E2m1 s d a) := by
  have h0 := Bool.toNat_le s
  have h1 := d.isLt
  have h2 := a.isLt
  show placed 0x1E0002B5 [(s.toNat, 30), (d.toNat, 17), (a.toNat, 10)] < 2 ^ 31
  simp only [placed]
  omega
theorem cvt (s : Bool) (d : Reg) (a : Reg) (v : CvtPair) (r : Rs) : Statement (.cvt s d a v r) := by
  have h0 := Bool.toNat_le s
  have h1 := d.isLt
  have h2 := a.isLt
  have h3 := v.code_lt
  have h4 := r.code_lt
  show placed 0x1E000000 [(s.toNat, 30), (d.toNat, 17), (a.toNat, 10), (v.code, 3), (r.code, 0)] < 2 ^ 31
  simp only [placed]
  omega
theorem rngB128 (d : Reg) (a : Reg) : Statement (.rngB128 d a) := by
  have h0 := d.isLt
  have h1 := a.isLt
  show placed 0x1F000000 [(d.toNat, 17), (a.toNat, 10)] < 2 ^ 31
  simp only [placed]
  omega
theorem rngF32 (d : Reg) (a : Reg) : Statement (.rngF32 d a) := by
  have h0 := d.isLt
  have h1 := a.isLt
  show placed 0x1F000001 [(d.toNat, 17), (a.toNat, 10)] < 2 ^ 31
  simp only [placed]
  omega
theorem cvtSrBf16F32 (d : Reg) (a : Reg) (b : Reg) : Statement (.cvtSrBf16F32 d a b) := by
  have h0 := d.isLt
  have h1 := a.isLt
  have h2 := b.isLt
  show placed 0x1F000002 [(d.toNat, 17), (a.toNat, 10), (b.toNat, 3)] < 2 ^ 31
  simp only [placed]
  omega
theorem cvtSrF16F32 (d : Reg) (a : Reg) (b : Reg) : Statement (.cvtSrF16F32 d a b) := by
  have h0 := d.isLt
  have h1 := a.isLt
  have h2 := b.isLt
  show placed 0x1F000003 [(d.toNat, 17), (a.toNat, 10), (b.toNat, 3)] < 2 ^ 31
  simp only [placed]
  omega
theorem cvtSrBf16x2F32 (d : Reg) (a : Reg) (b : Reg) : Statement (.cvtSrBf16x2F32 d a b) := by
  have h0 := d.isLt
  have h1 := a.isLt
  have h2 := b.isLt
  show placed 0x1F000004 [(d.toNat, 17), (a.toNat, 10), (b.toNat, 3)] < 2 ^ 31
  simp only [placed]
  omega
theorem packSrE4m3F32 (d : Reg) (a : Reg) (b : Reg) : Statement (.packSrE4m3F32 d a b) := by
  have h0 := d.isLt
  have h1 := a.isLt
  have h2 := b.isLt
  show placed 0x1F000005 [(d.toNat, 17), (a.toNat, 10), (b.toNat, 3)] < 2 ^ 31
  simp only [placed]
  omega
theorem packSrE5m2F32 (d : Reg) (a : Reg) (b : Reg) : Statement (.packSrE5m2F32 d a b) := by
  have h0 := d.isLt
  have h1 := a.isLt
  have h2 := b.isLt
  show placed 0x1F000006 [(d.toNat, 17), (a.toNat, 10), (b.toNat, 3)] < 2 ^ 31
  simp only [placed]
  omega
theorem packSrE2m1F32 (d : Reg) (a : Reg) (b : Reg) : Statement (.packSrE2m1F32 d a b) := by
  have h0 := d.isLt
  have h1 := a.isLt
  have h2 := b.isLt
  show placed 0x1F000007 [(d.toNat, 17), (a.toNat, 10), (b.toNat, 3)] < 2 ^ 31
  simp only [placed]
  omega
theorem madd (d : Reg) (a : Reg) (b : Reg) : Statement (.madd d a b) := by
  have h0 := d.isLt
  have h1 := a.isLt
  have h2 := b.isLt
  show placed 0x20000000 [(d.toNat, 17), (a.toNat, 10), (b.toNat, 3)] < 2 ^ 31
  simp only [placed]
  omega
theorem msub (d : Reg) (a : Reg) (b : Reg) : Statement (.msub d a b) := by
  have h0 := d.isLt
  have h1 := a.isLt
  have h2 := b.isLt
  show placed 0x20000001 [(d.toNat, 17), (a.toNat, 10), (b.toNat, 3)] < 2 ^ 31
  simp only [placed]
  omega
theorem mmul (d : Reg) (a : Reg) (b : Reg) : Statement (.mmul d a b) := by
  have h0 := d.isLt
  have h1 := a.isLt
  have h2 := b.isLt
  show placed 0x20000002 [(d.toNat, 17), (a.toNat, 10), (b.toNat, 3)] < 2 ^ 31
  simp only [placed]
  omega
theorem mfma (d : Reg) (a : Reg) (b : Reg) : Statement (.mfma d a b) := by
  have h0 := d.isLt
  have h1 := a.isLt
  have h2 := b.isLt
  show placed 0x20000003 [(d.toNat, 17), (a.toNat, 10), (b.toNat, 3)] < 2 ^ 31
  simp only [placed]
  omega
theorem mscl (d : Reg) (a : Reg) (b : Reg) : Statement (.mscl d a b) := by
  have h0 := d.isLt
  have h1 := a.isLt
  have h2 := b.isLt
  show placed 0x20000004 [(d.toNat, 17), (a.toNat, 10), (b.toNat, 3)] < 2 ^ 31
  simp only [placed]
  omega
theorem mrelu (d : Reg) (a : Reg) : Statement (.mrelu d a) := by
  have h0 := d.isLt
  have h1 := a.isLt
  show placed 0x21000000 [(d.toNat, 17), (a.toNat, 10)] < 2 ^ 31
  simp only [placed]
  omega
theorem mexp (d : Reg) (a : Reg) : Statement (.mexp d a) := by
  have h0 := d.isLt
  have h1 := a.isLt
  show placed 0x21000001 [(d.toNat, 17), (a.toNat, 10)] < 2 ^ 31
  simp only [placed]
  omega
theorem msigm (d : Reg) (a : Reg) : Statement (.msigm d a) := by
  have h0 := d.isLt
  have h1 := a.isLt
  show placed 0x21000002 [(d.toNat, 17), (a.toNat, 10)] < 2 ^ 31
  simp only [placed]
  omega
theorem mtanh (d : Reg) (a : Reg) : Statement (.mtanh d a) := by
  have h0 := d.isLt
  have h1 := a.isLt
  show placed 0x21000003 [(d.toNat, 17), (a.toNat, 10)] < 2 ^ 31
  simp only [placed]
  omega
theorem mset (d : Reg) (a : Reg) (b : Reg) : Statement (.mset d a b) := by
  have h0 := d.isLt
  have h1 := a.isLt
  have h2 := b.isLt
  show placed 0x22000000 [(d.toNat, 17), (a.toNat, 10), (b.toNat, 3)] < 2 ^ 31
  simp only [placed]
  omega
theorem mcolMean (d : Reg) (a : Reg) : Statement (.mcolMean d a) := by
  have h0 := d.isLt
  have h1 := a.isLt
  show placed 0x22000001 [(d.toNat, 17), (a.toNat, 10)] < 2 ^ 31
  simp only [placed]
  omega
theorem mcolVar (d : Reg) (a : Reg) : Statement (.mcolVar d a) := by
  have h0 := d.isLt
  have h1 := a.isLt
  show placed 0x22000002 [(d.toNat, 17), (a.toNat, 10)] < 2 ^ 31
  simp only [placed]
  omega
theorem mcolSmp (d : Reg) (a : Reg) (b : Reg) : Statement (.mcolSmp d a b) := by
  have h0 := d.isLt
  have h1 := a.isLt
  have h2 := b.isLt
  show placed 0x22000004 [(d.toNat, 17), (a.toNat, 10), (b.toNat, 3)] < 2 ^ 31
  simp only [placed]
  omega
theorem mldBlk (d : Reg) (g : Reg) (o : BitVec 7) : Statement (.mldBlk d g o) := by
  have h0 := d.isLt
  have h1 := g.isLt
  have h2 := o.isLt
  show placed 0x23000000 [(d.toNat, 17), (g.toNat, 10), (o.toNat, 3)] < 2 ^ 31
  simp only [placed]
  omega
theorem mldPad (d : Reg) (g : Reg) (o : BitVec 7) : Statement (.mldPad d g o) := by
  have h0 := d.isLt
  have h1 := g.isLt
  have h2 := o.isLt
  show placed 0x23000001 [(d.toNat, 17), (g.toNat, 10), (o.toNat, 3)] < 2 ^ 31
  simp only [placed]
  omega
theorem mstBlk (d : Reg) (g : Reg) (o : BitVec 7) : Statement (.mstBlk d g o) := by
  have h0 := d.isLt
  have h1 := g.isLt
  have h2 := o.isLt
  show placed 0x23000002 [(d.toNat, 17), (g.toNat, 10), (o.toNat, 3)] < 2 ^ 31
  simp only [placed]
  omega
theorem mstPad (d : Reg) (g : Reg) (o : BitVec 7) : Statement (.mstPad d g o) := by
  have h0 := d.isLt
  have h1 := g.isLt
  have h2 := o.isLt
  show placed 0x23000003 [(d.toNat, 17), (g.toNat, 10), (o.toNat, 3)] < 2 ^ 31
  simp only [placed]
  omega
theorem ld (s : Bool) (d : Reg) (g : Reg) (p : Space3) (o : BitVec 5) (t : LdTy) : Statement (.ld s d g p o t) := by
  have h0 := Bool.toNat_le s
  have h1 := d.isLt
  have h2 := g.isLt
  have h3 := p.code_lt
  have h4 := o.isLt
  have h5 := t.code_lt
  show placed 0x28000000 [(s.toNat, 30), (d.toNat, 17), (g.toNat, 10), (p.code, 8), (o.toNat, 3), (t.code, 0)] < 2 ^ 31
  simp only [placed]
  omega
theorem st (d : Reg) (g : Reg) (p : Space3) (o : BitVec 5) (t : StTy) : Statement (.st d g p o t) := by
  have h0 := d.isLt
  have h1 := g.isLt
  have h2 := p.code_lt
  have h3 := o.isLt
  have h4 := t.code_lt
  show placed 0x29000000 [(d.toNat, 17), (g.toNat, 10), (p.code, 8), (o.toNat, 3), (t.code, 0)] < 2 ^ 31
  simp only [placed]
  omega
theorem atomAccZ32 (d : Reg) (a : Reg) (p : Bool) (r : Ord) : Statement (.atomAccZ32 d a p r) := by
  have h0 := d.isLt
  have h1 := a.isLt
  have h2 := Bool.toNat_le p
  have h3 := r.code_lt
  show placed 0x2A0001E0 [(d.toNat, 17), (a.toNat, 10), (p.toNat, 4), (r.code, 0)] < 2 ^ 31
  simp only [placed]
  omega
theorem atomAccF32 (d : Reg) (a : Reg) (p : Bool) (r : Ord) : Statement (.atomAccF32 d a p r) := by
  have h0 := d.isLt
  have h1 := a.isLt
  have h2 := Bool.toNat_le p
  have h3 := r.code_lt
  show placed 0x2A000200 [(d.toNat, 17), (a.toNat, 10), (p.toNat, 4), (r.code, 0)] < 2 ^ 31
  simp only [placed]
  omega
theorem atom (d : Reg) (a : Reg) (k : AOp) (p : Bool) (r : Ord) : Statement (.atom d a k p r) := by
  have h0 := d.isLt
  have h1 := a.isLt
  have h2 := k.code_lt
  have h3 := Bool.toNat_le p
  have h4 := r.code_lt
  show placed 0x2A000000 [(d.toNat, 17), (a.toNat, 10), (k.code, 5), (p.toNat, 4), (r.code, 0)] < 2 ^ 31
  simp only [placed]
  omega
theorem atomCas (d : Reg) (a : Reg) (z : Bool) (p : Bool) (r : Ord) : Statement (.atomCas d a z p r) := by
  have h0 := d.isLt
  have h1 := a.isLt
  have h2 := Bool.toNat_le z
  have h3 := Bool.toNat_le p
  have h4 := r.code_lt
  show placed 0x2B000000 [(d.toNat, 17), (a.toNat, 10), (z.toNat, 5), (p.toNat, 4), (r.code, 0)] < 2 ^ 31
  simp only [placed]
  omega
theorem ldVt (d : Reg) (a : Reg) (b : Reg) (p : Bool) (z : Bool) : Statement (.ldVt d a b p z) := by
  have h0 := d.isLt
  have h1 := a.isLt
  have h2 := b.isLt
  have h3 := Bool.toNat_le p
  have h4 := Bool.toNat_le z
  show placed 0x2C000000 [(d.toNat, 17), (a.toNat, 10), (b.toNat, 3), (p.toNat, 1), (z.toNat, 0)] < 2 ^ 31
  simp only [placed]
  omega
theorem ldVtw (d : Reg) (a : Reg) (b : Reg) (p : Bool) (z : Bool) : Statement (.ldVtw d a b p z) := by
  have h0 := d.isLt
  have h1 := a.isLt
  have h2 := b.isLt
  have h3 := Bool.toNat_le p
  have h4 := Bool.toNat_le z
  show placed 0x2C000004 [(d.toNat, 17), (a.toNat, 10), (b.toNat, 3), (p.toNat, 1), (z.toNat, 0)] < 2 ^ 31
  simp only [placed]
  omega
theorem stMask (d : Reg) (g : Reg) (o : BitVec 7) (y : Bool) : Statement (.stMask d g o y) := by
  have h0 := d.isLt
  have h1 := g.isLt
  have h2 := o.isLt
  have h3 := Bool.toNat_le y
  show placed 0x2D000000 [(d.toNat, 17), (g.toNat, 10), (o.toNat, 3), (y.toNat, 0)] < 2 ^ 31
  simp only [placed]
  omega
theorem ldMask (d : Reg) (g : Reg) (o : BitVec 7) (y : Bool) : Statement (.ldMask d g o y) := by
  have h0 := d.isLt
  have h1 := g.isLt
  have h2 := o.isLt
  have h3 := Bool.toNat_le y
  show placed 0x2D000002 [(d.toNat, 17), (g.toNat, 10), (o.toNat, 3), (y.toNat, 0)] < 2 ^ 31
  simp only [placed]
  omega
theorem push (d : Reg) (z : Bool) : Statement (.push d z) := by
  have h0 := d.isLt
  have h1 := Bool.toNat_le z
  show placed 0x2E000000 [(d.toNat, 17), (z.toNat, 0)] < 2 ^ 31
  simp only [placed]
  omega
theorem pop (d : Reg) (z : Bool) : Statement (.pop d z) := by
  have h0 := d.isLt
  have h1 := Bool.toNat_le z
  show placed 0x2E000002 [(d.toNat, 17), (z.toNat, 0)] < 2 ^ 31
  simp only [placed]
  omega
theorem fenceGrp : Statement .fenceGrp := by
  show 0x2F000000 < 2 ^ 31
  decide
theorem fenceBlk : Statement .fenceBlk := by
  show 0x2F000001 < 2 ^ 31
  decide
theorem fenceGang : Statement .fenceGang := by
  show 0x2F000002 < 2 ^ 31
  decide
theorem fenceDev : Statement .fenceDev := by
  show 0x2F000003 < 2 ^ 31
  decide
theorem fenceSys : Statement .fenceSys := by
  show 0x2F000004 < 2 ^ 31
  decide
theorem waitLd (n : BitVec 7) : Statement (.waitLd n) := by
  have h0 := n.isLt
  show placed 0x2F000005 [(n.toNat, 3)] < 2 ^ 31
  simp only [placed]
  omega
theorem qxH (d : Reg) (a : Reg) : Statement (.qxH d a) := by
  have h0 := d.isLt
  have h1 := a.isLt
  show placed 0x30000000 [(d.toNat, 17), (a.toNat, 10)] < 2 ^ 31
  simp only [placed]
  omega
theorem qxV (d : Reg) (a : Reg) : Statement (.qxV d a) := by
  have h0 := d.isLt
  have h1 := a.isLt
  show placed 0x30000001 [(d.toNat, 17), (a.toNat, 10)] < 2 ^ 31
  simp only [placed]
  omega
theorem qxD (d : Reg) (a : Reg) : Statement (.qxD d a) := by
  have h0 := d.isLt
  have h1 := a.isLt
  show placed 0x30000002 [(d.toNat, 17), (a.toNat, 10)] < 2 ^ 31
  simp only [placed]
  omega
theorem qxBc (d : Reg) (a : Reg) (i : BitVec 2) : Statement (.qxBc d a i) := by
  have h0 := d.isLt
  have h1 := a.isLt
  have h2 := i.isLt
  show placed 0x30000004 [(d.toNat, 17), (a.toNat, 10), (i.toNat, 0)] < 2 ^ 31
  simp only [placed]
  omega
theorem xlaneFlip (d : Reg) (a : Reg) (b : Reg) : Statement (.xlaneFlip d a b) := by
  have h0 := d.isLt
  have h1 := a.isLt
  have h2 := b.isLt
  show placed 0x31000000 [(d.toNat, 17), (a.toNat, 10), (b.toNat, 3)] < 2 ^ 31
  simp only [placed]
  omega
theorem xlanePick (d : Reg) (a : Reg) (b : Reg) : Statement (.xlanePick d a b) := by
  have h0 := d.isLt
  have h1 := a.isLt
  have h2 := b.isLt
  show placed 0x31000001 [(d.toNat, 17), (a.toNat, 10), (b.toNat, 3)] < 2 ^ 31
  simp only [placed]
  omega
theorem xlaneLo (d : Reg) (a : Reg) (b : Reg) : Statement (.xlaneLo d a b) := by
  have h0 := d.isLt
  have h1 := a.isLt
  have h2 := b.isLt
  show placed 0x31000002 [(d.toNat, 17), (a.toNat, 10), (b.toNat, 3)] < 2 ^ 31
  simp only [placed]
  omega
theorem xlaneHi (d : Reg) (a : Reg) (b : Reg) : Statement (.xlaneHi d a b) := by
  have h0 := d.isLt
  have h1 := a.isLt
  have h2 := b.isLt
  show placed 0x31000003 [(d.toNat, 17), (a.toNat, 10), (b.toNat, 3)] < 2 ^ 31
  simp only [placed]
  omega
theorem xlaneRot (d : Reg) (a : Reg) (b : Reg) : Statement (.xlaneRot d a b) := by
  have h0 := d.isLt
  have h1 := a.isLt
  have h2 := b.isLt
  show placed 0x31000004 [(d.toNat, 17), (a.toNat, 10), (b.toNat, 3)] < 2 ^ 31
  simp only [placed]
  omega
theorem ballot (d : Reg) (a : Reg) : Statement (.ballot d a) := by
  have h0 := d.isLt
  have h1 := a.isLt
  show placed 0x32000000 [(d.toNat, 17), (a.toNat, 10)] < 2 ^ 31
  simp only [placed]
  omega
theorem agreeAll (d : Reg) (a : Reg) : Statement (.agreeAll d a) := by
  have h0 := d.isLt
  have h1 := a.isLt
  show placed 0x32000001 [(d.toNat, 17), (a.toNat, 10)] < 2 ^ 31
  simp only [placed]
  omega
theorem agreeAny (d : Reg) (a : Reg) : Statement (.agreeAny d a) := by
  have h0 := d.isLt
  have h1 := a.isLt
  show placed 0x32000002 [(d.toNat, 17), (a.toNat, 10)] < 2 ^ 31
  simp only [placed]
  omega
theorem agreeSame (d : Reg) (a : Reg) : Statement (.agreeSame d a) := by
  have h0 := d.isLt
  have h1 := a.isLt
  show placed 0x32000003 [(d.toNat, 17), (a.toNat, 10)] < 2 ^ 31
  simp only [placed]
  omega
theorem redux (d : Reg) (a : Reg) (k : ROp) : Statement (.redux d a k) := by
  have h0 := d.isLt
  have h1 := a.isLt
  have h2 := k.code_lt
  show placed 0x33000000 [(d.toNat, 17), (a.toNat, 10), (k.code, 3)] < 2 ^ 31
  simp only [placed]
  omega
theorem reduxXscan (d : Reg) (a : Reg) (k : ROp) : Statement (.reduxXscan d a k) := by
  have h0 := d.isLt
  have h1 := a.isLt
  have h2 := k.code_lt
  show placed 0x33000001 [(d.toNat, 17), (a.toNat, 10), (k.code, 3)] < 2 ^ 31
  simp only [placed]
  omega
theorem reduxIscan (d : Reg) (a : Reg) (k : ROp) : Statement (.reduxIscan d a k) := by
  have h0 := d.isLt
  have h1 := a.isLt
  have h2 := k.code_lt
  show placed 0x33000002 [(d.toNat, 17), (a.toNat, 10), (k.code, 3)] < 2 ^ 31
  simp only [placed]
  omega
theorem barInit (n : BitVec 6) (b : BitVec 4) : Statement (.barInit n b) := by
  have h0 := n.isLt
  have h1 := b.isLt
  show placed 0x34000000 [(n.toNat, 4), (b.toNat, 0)] < 2 ^ 31
  simp only [placed]
  omega
theorem barArrive (b : BitVec 4) : Statement (.barArrive b) := by
  have h0 := b.isLt
  show placed 0x34020000 [(b.toNat, 0)] < 2 ^ 31
  simp only [placed]
  omega
theorem barWait (b : BitVec 4) : Statement (.barWait b) := by
  have h0 := b.isLt
  show placed 0x34040000 [(b.toNat, 0)] < 2 ^ 31
  simp only [placed]
  omega
theorem barSync (b : BitVec 4) : Statement (.barSync b) := by
  have h0 := b.isLt
  show placed 0x34060000 [(b.toNat, 0)] < 2 ^ 31
  simp only [placed]
  omega
theorem barSyncGang : Statement .barSyncGang := by
  show 0x34080000 < 2 ^ 31
  decide
theorem gridSync : Statement .gridSync := by
  show 0x340A0000 < 2 ^ 31
  decide
theorem cstInit (a : Reg) (b : Reg) : Statement (.cstInit a b) := by
  have h0 := a.isLt
  have h1 := b.isLt
  show placed 0x35000000 [(a.toNat, 10), (b.toNat, 3)] < 2 ^ 31
  simp only [placed]
  omega
theorem cstPut (a : Reg) : Statement (.cstPut a) := by
  have h0 := a.isLt
  show placed 0x35000001 [(a.toNat, 10)] < 2 ^ 31
  simp only [placed]
  omega
theorem cstTake (d : Reg) (a : Reg) : Statement (.cstTake d a) := by
  have h0 := d.isLt
  have h1 := a.isLt
  show placed 0x35000002 [(d.toNat, 17), (a.toNat, 10)] < 2 ^ 31
  simp only [placed]
  omega
theorem xregAcq : Statement .xregAcq := by
  show 0x36000000 < 2 ^ 31
  decide
theorem xregRel : Statement .xregRel := by
  show 0x36000001 < 2 ^ 31
  decide
theorem vtNew (d : Reg) (a : Reg) : Statement (.vtNew d a) := by
  have h0 := d.isLt
  have h1 := a.isLt
  show placed 0x37000000 [(d.toNat, 17), (a.toNat, 10)] < 2 ^ 31
  simp only [placed]
  omega
theorem vtSet (a : Reg) : Statement (.vtSet a) := by
  have h0 := a.isLt
  show placed 0x37000001 [(a.toNat, 10)] < 2 ^ 31
  simp only [placed]
  omega
theorem vtGet (d : Reg) : Statement (.vtGet d) := by
  have h0 := d.isLt
  show placed 0x37000002 [(d.toNat, 17)] < 2 ^ 31
  simp only [placed]
  omega
theorem vtDrop (a : Reg) : Statement (.vtDrop a) := by
  have h0 := a.isLt
  show placed 0x37000003 [(a.toNat, 10)] < 2 ^ 31
  simp only [placed]
  omega
theorem vtMerge (a : Reg) : Statement (.vtMerge a) := by
  have h0 := a.isLt
  show placed 0x37000004 [(a.toNat, 10)] < 2 ^ 31
  simp only [placed]
  omega
theorem mxMmaMom (a : Reg) (b : Reg) (t : BitVec 5) (p : Bool) (y : Bool) : Statement (.mxMmaMom a b t p y) := by
  have h0 := a.isLt
  have h1 := b.isLt
  have h2 := t.isLt
  have h3 := Bool.toNat_le p
  have h4 := Bool.toNat_le y
  show placed 0x38000014 [(a.toNat, 17), (b.toNat, 10), (t.toNat, 5), (p.toNat, 1), (y.toNat, 0)] < 2 ^ 31
  simp only [placed]
  omega
theorem mxPost (a : Reg) (b : Reg) (t : BitVec 5) (f : MxFmt) (p : Bool) (y : Bool) : Statement (.mxPost a b t f p y) := by
  have h0 := a.isLt
  have h1 := b.isLt
  have h2 := t.isLt
  have h3 := f.code_lt
  have h4 := Bool.toNat_le p
  have h5 := Bool.toNat_le y
  show placed 0x38000000 [(a.toNat, 17), (b.toNat, 10), (t.toNat, 5), (f.code, 2), (p.toNat, 1), (y.toNat, 0)] < 2 ^ 31
  simp only [placed]
  omega
theorem mxZero (t : BitVec 5) : Statement (.mxZero t) := by
  have h0 := t.isLt
  show placed 0x39000000 [(t.toNat, 5)] < 2 ^ 31
  simp only [placed]
  omega
theorem mxDrain (d : Reg) (a : Reg) (t : BitVec 5) : Statement (.mxDrain d a t) := by
  have h0 := d.isLt
  have h1 := a.isLt
  have h2 := t.isLt
  show placed 0x39000001 [(d.toNat, 17), (a.toNat, 10), (t.toNat, 5)] < 2 ^ 31
  simp only [placed]
  omega
theorem mxLd (d : Reg) (a : Reg) (t : BitVec 5) : Statement (.mxLd d a t) := by
  have h0 := d.isLt
  have h1 := a.isLt
  have h2 := t.isLt
  show placed 0x39000002 [(d.toNat, 17), (a.toNat, 10), (t.toNat, 5)] < 2 ^ 31
  simp only [placed]
  omega
theorem mxBand (a : Reg) : Statement (.mxBand a) := by
  have h0 := a.isLt
  show placed 0x39000003 [(a.toNat, 10)] < 2 ^ 31
  simp only [placed]
  omega
theorem mxStat (d : Reg) (t : BitVec 5) : Statement (.mxStat d t) := by
  have h0 := d.isLt
  have h1 := t.isLt
  show placed 0x39000004 [(d.toNat, 17), (t.toNat, 5)] < 2 ^ 31
  simp only [placed]
  omega
theorem cuvLoadBlk (a : Reg) (n : BitVec 7) : Statement (.cuvLoadBlk a n) := by
  have h0 := a.isLt
  have h1 := n.isLt
  show placed 0x3A000000 [(a.toNat, 10), (n.toNat, 3)] < 2 ^ 31
  simp only [placed]
  omega
theorem cuvLoadPad (a : Reg) (n : BitVec 7) : Statement (.cuvLoadPad a n) := by
  have h0 := a.isLt
  have h1 := n.isLt
  show placed 0x3A000001 [(a.toNat, 10), (n.toNat, 3)] < 2 ^ 31
  simp only [placed]
  omega
theorem cuvChk (d : Reg) (n : BitVec 7) : Statement (.cuvChk d n) := by
  have h0 := d.isLt
  have h1 := n.isLt
  show placed 0x3A000002 [(d.toNat, 17), (n.toNat, 3)] < 2 ^ 31
  simp only [placed]
  omega
theorem cuvRd (d : Reg) (n : BitVec 7) : Statement (.cuvRd d n) := by
  have h0 := d.isLt
  have h1 := n.isLt
  show placed 0x3A000003 [(d.toNat, 17), (n.toNat, 3)] < 2 ^ 31
  simp only [placed]
  omega
theorem cpG2s (g : Reg) (x : Bool) : Statement (.cpG2s g x) := by
  have h0 := g.isLt
  have h1 := Bool.toNat_le x
  show placed 0x3B000000 [(g.toNat, 17), (x.toNat, 3)] < 2 ^ 31
  simp only [placed]
  omega
theorem cpS2g (g : Reg) (x : Bool) : Statement (.cpS2g g x) := by
  have h0 := g.isLt
  have h1 := Bool.toNat_le x
  show placed 0x3B000001 [(g.toNat, 17), (x.toNat, 3)] < 2 ^ 31
  simp only [placed]
  omega
theorem cpS2s (g : Reg) (y : Bool) (x : Bool) : Statement (.cpS2s g y x) := by
  have h0 := g.isLt
  have h1 := Bool.toNat_le y
  have h2 := Bool.toNat_le x
  show placed 0x3B000002 [(g.toNat, 17), (y.toNat, 4), (x.toNat, 3)] < 2 ^ 31
  simp only [placed]
  omega
theorem cpTG2s (g : Reg) (x : Bool) : Statement (.cpTG2s g x) := by
  have h0 := g.isLt
  have h1 := Bool.toNat_le x
  show placed 0x3B000003 [(g.toNat, 17), (x.toNat, 3)] < 2 ^ 31
  simp only [placed]
  omega
theorem cpTS2g (g : Reg) (x : Bool) : Statement (.cpTS2g g x) := by
  have h0 := g.isLt
  have h1 := Bool.toNat_le x
  show placed 0x3B000004 [(g.toNat, 17), (x.toNat, 3)] < 2 ^ 31
  simp only [placed]
  omega
theorem migPost (g : Reg) : Statement (.migPost g) := by
  have h0 := g.isLt
  show placed 0x3B000005 [(g.toNat, 17)] < 2 ^ 31
  simp only [placed]
  omega
theorem gat (d : Reg) (a : Reg) (b : Reg) (p : Bool) (z : BitVec 2) : Statement (.gat d a b p z) := by
  have h0 := d.isLt
  have h1 := a.isLt
  have h2 := b.isLt
  have h3 := Bool.toNat_le p
  have h4 := z.isLt
  show placed 0x3C000000 [(d.toNat, 17), (a.toNat, 10), (b.toNat, 3), (p.toNat, 2), (z.toNat, 0)] < 2 ^ 31
  simp only [placed]
  omega
theorem objInit (a : Reg) (b : Reg) : Statement (.objInit a b) := by
  have h0 := a.isLt
  have h1 := b.isLt
  show placed 0x3D000000 [(a.toNat, 10), (b.toNat, 3)] < 2 ^ 31
  simp only [placed]
  omega
theorem objArrive (a : Reg) (b : Reg) : Statement (.objArrive a b) := by
  have h0 := a.isLt
  have h1 := b.isLt
  show placed 0x3D000001 [(a.toNat, 10), (b.toNat, 3)] < 2 ^ 31
  simp only [placed]
  omega
theorem objWait (a : Reg) (b : Reg) : Statement (.objWait a b) := by
  have h0 := a.isLt
  have h1 := b.isLt
  show placed 0x3D000002 [(a.toNat, 10), (b.toNat, 3)] < 2 ^ 31
  simp only [placed]
  omega
theorem objWaitSt (d : Reg) (a : Reg) (b : Reg) : Statement (.objWaitSt d a b) := by
  have h0 := d.isLt
  have h1 := a.isLt
  have h2 := b.isLt
  show placed 0x3D000003 [(d.toNat, 17), (a.toNat, 10), (b.toNat, 3)] < 2 ^ 31
  simp only [placed]
  omega
theorem objPoll (d : Reg) (a : Reg) : Statement (.objPoll d a) := by
  have h0 := d.isLt
  have h1 := a.isLt
  show placed 0x3D000004 [(d.toNat, 17), (a.toNat, 10)] < 2 ^ 31
  simp only [placed]
  omega
theorem rcpPut (g : Reg) : Statement (.rcpPut g) := by
  have h0 := g.isLt
  show placed 0x3E000000 [(g.toNat, 10)] < 2 ^ 31
  simp only [placed]
  omega
theorem rcpGet (g : Reg) : Statement (.rcpGet g) := by
  have h0 := g.isLt
  show placed 0x3E000001 [(g.toNat, 10)] < 2 ^ 31
  simp only [placed]
  omega
theorem ratom (g : Reg) (o : BitVec 2) (k : RAOp) : Statement (.ratom g o k) := by
  have h0 := g.isLt
  have h1 := o.isLt
  have h2 := k.code_lt
  show placed 0x3E000002 [(g.toNat, 10), (o.toNat, 8), (k.code, 3)] < 2 ^ 31
  simp only [placed]
  omega
theorem collPost (g : Reg) : Statement (.collPost g) := by
  have h0 := g.isLt
  show placed 0x3E000003 [(g.toNat, 10)] < 2 ^ 31
  simp only [placed]
  omega
theorem qRd (d : Reg) (a : Reg) : Statement (.qRd d a) := by
  have h0 := d.isLt
  have h1 := a.isLt
  show placed 0x3F000000 [(d.toNat, 17), (a.toNat, 10)] < 2 ^ 31
  simp only [placed]
  omega
theorem qSt (a : Reg) (b : Reg) : Statement (.qSt a b) := by
  have h0 := a.isLt
  have h1 := b.isLt
  show placed 0x3F000001 [(a.toNat, 10), (b.toNat, 3)] < 2 ^ 31
  simp only [placed]
  omega
theorem qSub (d : Reg) (a : Reg) (b : Reg) : Statement (.qSub d a b) := by
  have h0 := d.isLt
  have h1 := a.isLt
  have h2 := b.isLt
  show placed 0x3F000002 [(d.toNat, 17), (a.toNat, 10), (b.toNat, 3)] < 2 ^ 31
  simp only [placed]
  omega
theorem wpSet (a : Reg) : Statement (.wpSet a) := by
  have h0 := a.isLt
  show placed 0x3F000003 [(a.toNat, 10)] < 2 ^ 31
  simp only [placed]
  omega
theorem wpClr (a : Reg) : Statement (.wpClr a) := by
  have h0 := a.isLt
  show placed 0x3F00000B [(a.toNat, 10)] < 2 ^ 31
  simp only [placed]
  omega
theorem trcMark (a : Reg) : Statement (.trcMark a) := by
  have h0 := a.isLt
  show placed 0x3F000004 [(a.toNat, 10)] < 2 ^ 31
  simp only [placed]
  omega
theorem locQPad (d : Reg) (a : Reg) : Statement (.locQPad d a) := by
  have h0 := d.isLt
  have h1 := a.isLt
  show placed 0x3F000005 [(d.toNat, 17), (a.toNat, 10)] < 2 ^ 31
  simp only [placed]
  omega
theorem locQVa (d : Reg) (a : Reg) : Statement (.locQVa d a) := by
  have h0 := d.isLt
  have h1 := a.isLt
  show placed 0x3F00000D [(d.toNat, 17), (a.toNat, 10)] < 2 ^ 31
  simp only [placed]
  omega
theorem bistRun (a : Reg) : Statement (.bistRun a) := by
  have h0 := a.isLt
  show placed 0x3F000006 [(a.toNat, 10)] < 2 ^ 31
  simp only [placed]
  omega
theorem bistRd (d : Reg) : Statement (.bistRd d) := by
  have h0 := d.isLt
  show placed 0x3F00000E [(d.toNat, 17)] < 2 ^ 31
  simp only [placed]
  omega
theorem launchDev (a : Reg) : Statement (.launchDev a) := by
  have h0 := a.isLt
  show placed 0x3F000007 [(a.toNat, 10)] < 2 ^ 31
  simp only [placed]
  omega
theorem loadComplete (g : GKey) (k : Nat) : Statement (.loadComplete g k) := by
  show 0 < 2 ^ 31
  decide
theorem sluiceGrant (c : Nat) : Statement (.sluiceGrant c) := by
  show 0 < 2 ^ 31
  decide
theorem passStart (c : Nat) : Statement (.passStart c) := by
  show 0 < 2 ^ 31
  decide
theorem passAccumulate (c : Nat) (bad : List Nat) : Statement (.passAccumulate c bad) := by
  show 0 < 2 ^ 31
  decide
theorem copyPageCommit (op : Nat) (ue : Bool) : Statement (.copyPageCommit op ue) := by
  show 0 < 2 ^ 31
  decide
theorem gatherComplete (op : Nat) (ue : BitVec 64) : Statement (.gatherComplete op ue) := by
  show 0 < 2 ^ 31
  decide
theorem migrationPageMove (op : Nat) : Statement (.migrationPageMove op) := by
  show 0 < 2 ^ 31
  decide
theorem mergeApply (tag : Nat) : Statement (.mergeApply tag) := by
  show 0 < 2 ^ 31
  decide
theorem weirRelease (launch : Nat) : Statement (.weirRelease launch) := by
  show 0 < 2 ^ 31
  decide
theorem barTimeout (g : GKey) (lane : Nat) : Statement (.barTimeout g lane) := by
  show 0 < 2 ^ 31
  decide
theorem vtStarve (g : GKey) (access : Bool) (k : Nat) : Statement (.vtStarve g access k) := by
  show 0 < 2 ^ 31
  decide
theorem waitExpiry (g : GKey) (lane : Nat) : Statement (.waitExpiry g lane) := by
  show 0 < 2 ^ 31
  decide
theorem waitAddrTimeout (g : GKey) (lane : Nat) : Statement (.waitAddrTimeout g lane) := by
  show 0 < 2 ^ 31
  decide
theorem yieldExpiry (g : GKey) : Statement (.yieldExpiry g) := by
  show 0 < 2 ^ 31
  decide
theorem quantumExpiry (launch : Nat) (block : Nat) : Statement (.quantumExpiry launch block) := by
  show 0 < 2 ^ 31
  decide
theorem sample (launch : Nat) : Statement (.sample launch) := by
  show 0 < 2 ^ 31
  decide
theorem crossDieTimeout (t : CrossTarget) : Statement (.crossDieTimeout t) := by
  show 0 < 2 ^ 31
  decide
theorem remoteTimeout (op : Nat) (known : BitVec 2) : Statement (.remoteTimeout op known) := by
  show 0 < 2 ^ 31
  decide
theorem collTimeout (op : Nat) : Statement (.collTimeout op) := by
  show 0 < 2 ^ 31
  decide
theorem patrolScrub (die : Nat) (src : BitVec 8) (ce : Nat) (ue : Nat) : Statement (.patrolScrub die src ce ue) := by
  show 0 < 2 ^ 31
  decide
theorem clockFrequencyChange (die : Nat) (resumed : Bool) : Statement (.clockFrequencyChange die resumed) := by
  show 0 < 2 ^ 31
  decide
theorem blockPlace (launch : Nat) (cluster : Nat) (cores : List Nat) : Statement (.blockPlace launch cluster cores) := by
  show 0 < 2 ^ 31
  decide
theorem preemptRequest (launch : Nat) (block : Nat) : Statement (.preemptRequest launch block) := by
  show 0 < 2 ^ 31
  decide
theorem preemptSave (launch : Nat) (block : Nat) : Statement (.preemptSave launch block) := by
  show 0 < 2 ^ 31
  decide
theorem blockRestore (launch : Nat) (cluster : Nat) (cores : List Nat) : Statement (.blockRestore launch cluster cores) := by
  show 0 < 2 ^ 31
  decide
theorem jobTerminate (job : Nat) : Statement (.jobTerminate job) := by
  show 0 < 2 ^ 31
  decide
theorem faultRecordWrite (job : Nat) : Statement (.faultRecordWrite job) := by
  show 0 < 2 ^ 31
  decide
theorem completionEntryWrite (job : Nat) (queue : Nat) : Statement (.completionEntryWrite job queue) := by
  show 0 < 2 ^ 31
  decide
theorem launchRecord (job : Nat) (queue : Nat) : Statement (.launchRecord job queue) := by
  show 0 < 2 ^ 31
  decide
theorem launchComplete (launch : Nat) : Statement (.launchComplete launch) := by
  show 0 < 2 ^ 31
  decide
theorem migrateRecord (job : Nat) (queue : Nat) : Statement (.migrateRecord job queue) := by
  show 0 < 2 ^ 31
  decide
theorem invalidateRecord (job : Nat) (queue : Nat) : Statement (.invalidateRecord job queue) := by
  show 0 < 2 ^ 31
  decide
theorem invalidateComplete (job : Nat) (queue : Nat) (seq : Nat) : Statement (.invalidateComplete job queue seq) := by
  show 0 < 2 ^ 31
  decide
theorem markerRecord (job : Nat) (queue : Nat) : Statement (.markerRecord job queue) := by
  show 0 < 2 ^ 31
  decide
theorem slotGrant : Statement .slotGrant := by
  show 0 < 2 ^ 31
  decide
theorem packageSliceExpiry (slot : Nat) : Statement (.packageSliceExpiry slot) := by
  show 0 < 2 ^ 31
  decide
theorem jobAdd (addr : Dword) : Statement (.jobAdd addr) := by
  show 0 < 2 ^ 31
  decide
theorem jobDel (job : Nat) : Statement (.jobDel job) := by
  show 0 < 2 ^ 31
  decide
theorem qAdd (addr : Dword) : Statement (.qAdd addr) := by
  show 0 < 2 ^ 31
  decide
theorem qDel (job : Nat) (queue : Nat) : Statement (.qDel job queue) := by
  show 0 < 2 ^ 31
  decide
theorem doorbellTail (page : Nat) (tail : Dword) : Statement (.doorbellTail page tail) := by
  show 0 < 2 ^ 31
  decide
theorem faultReplay (die : Nat) (all : Bool) (idx : Nat) (job : Nat) : Statement (.faultReplay die all idx job) := by
  show 0 < 2 ^ 31
  decide
theorem faultFail (die : Nat) (all : Bool) (idx : Nat) (job : Nat) : Statement (.faultFail die all idx job) := by
  show 0 < 2 ^ 31
  decide
theorem extend (last : Dword) : Statement (.extend last) := by
  show 0 < 2 ^ 31
  decide
theorem nonce (n : BitVec 256) : Statement (.nonce n) := by
  show 0 < 2 ^ 31
  decide
theorem reportSigned : Statement .reportSigned := by
  show 0 < 2 ^ 31
  decide
theorem marginWrite (die : Nat) (v : Dword) : Statement (.marginWrite die v) := by
  show 0 < 2 ^ 31
  decide
theorem pcapWrite (v : Dword) : Statement (.pcapWrite v) := by
  show 0 < 2 ^ 31
  decide
theorem dumpGo (v : Dword) : Statement (.dumpGo v) := by
  show 0 < 2 ^ 31
  decide
theorem dumpRel : Statement .dumpRel := by
  show 0 < 2 ^ 31
  decide
theorem dumpMarker (link : Nat) (vc : Nat) (did : Nat) (job : Nat) : Statement (.dumpMarker link vc did job) := by
  show 0 < 2 ^ 31
  decide
theorem dumpHaltTimeout : Statement .dumpHaltTimeout := by
  show 0 < 2 ^ 31
  decide
theorem debugResume (ident : BitVec 16) : Statement (.debugResume ident) := by
  show 0 < 2 ^ 31
  decide
theorem debugStop (ident : BitVec 16) : Statement (.debugStop ident) := by
  show 0 < 2 ^ 31
  decide
theorem debugStopAll : Statement .debugStopAll := by
  show 0 < 2 ^ 31
  decide
theorem debugStep (ident : BitVec 16) : Statement (.debugStep ident) := by
  show 0 < 2 ^ 31
  decide
theorem debugPreempt (ident : BitVec 16) : Statement (.debugPreempt ident) := by
  show 0 < 2 ^ 31
  decide
theorem debugRelease (ident : BitVec 16) : Statement (.debugRelease ident) := by
  show 0 < 2 ^ 31
  decide
theorem registerWrite (off : Nat) (four : Bool) (v : Dword) : Statement (.registerWrite off four v) := by
  show 0 < 2 ^ 31
  decide
theorem hostWindowAccess (off : Nat) (size : Nat) (data : Option Dword) : Statement (.hostWindowAccess off size data) := by
  show 0 < 2 ^ 31
  decide
theorem watchReport (k : Nat) : Statement (.watchReport k) := by
  show 0 < 2 ^ 31
  decide
theorem remoteRequest (r : RemoteReq) : Statement (.remoteRequest r) := by
  show 0 < 2 ^ 31
  decide
theorem remoteResponse (op : Nat) (data : List Byte) : Statement (.remoteResponse op data) := by
  show 0 < 2 ^ 31
  decide
theorem holdNotice (op : Nat) : Statement (.holdNotice op) := by
  show 0 < 2 ^ 31
  decide
theorem collMatch (op : Nat) (posts : List CollPost) : Statement (.collMatch op posts) := by
  show 0 < 2 ^ 31
  decide
theorem flitReceive (link : Nat) (flit : List Byte) : Statement (.flitReceive link flit) := by
  show 0 < 2 ^ 31
  decide
theorem replayRequest (link : Nat) (seq : Nat) : Statement (.replayRequest link seq) := by
  show 0 < 2 ^ 31
  decide
theorem pause (link : Nat) (vc : Nat) : Statement (.pause link vc) := by
  show 0 < 2 ^ 31
  decide
theorem resume (link : Nat) (vc : Nat) : Statement (.resume link vc) := by
  show 0 < 2 ^ 31
  decide
theorem laneFailure (link : Nat) (lane : Nat) : Statement (.laneFailure link lane) := by
  show 0 < 2 ^ 31
  decide
theorem linkDown (link : Nat) : Statement (.linkDown link) := by
  show 0 < 2 ^ 31
  decide
theorem packageReset : Statement .packageReset := by
  show 0 < 2 ^ 31
  decide
theorem packagePowerDown : Statement .packagePowerDown := by
  show 0 < 2 ^ 31
  decide
theorem recoveryLoad (good : Bool) : Statement (.recoveryLoad good) := by
  show 0 < 2 ^ 31
  decide
theorem linkRetrained (link : Nat) : Statement (.linkRetrained link) := by
  show 0 < 2 ^ 31
  decide
theorem cuveeLoadComplete (g : GKey) (lane : Nat) : Statement (.cuveeLoadComplete g lane) := by
  show 0 < 2 ^ 31
  decide
theorem cuveeCheckComplete (g : GKey) (lane : Nat) : Statement (.cuveeCheckComplete g lane) := by
  show 0 < 2 ^ 31
  decide
theorem bistComplete (g : GKey) (lane : Nat) (fail : Bool) (row : BitVec 24) : Statement (.bistComplete g lane fail row) := by
  show 0 < 2 ^ 31
  decide

end Laws.EncodeBound

end Sys2Proof
end

