-- ==== Sys2Proof/WellFormed.lean ====
section
/-!
DEFINITION. Well-formed instructions: every operand lies in the class its field names (R46), and every other field holds a value its
instruction accepts. An instruction that is not well-formed still decodes; it takes ILLEGAL_OPERAND when a group issues it (R53).
The checks themselves stand in `Machine/Operands.lean`, where the fault reads them.
-/

namespace Sys2Proof

/-- Whether an instruction's fields pass every check of R46 and R53 that depends on them alone. -/
def Instr.wellFormed (i : Instr) : Bool := i.fieldFault.isNone

end Sys2Proof
end

