-- ==== Sys2Proof/Tests/Slice0.lean ====
section
/-!
SUPPORT. Tests. Expected values are taken from the tables and listings of the spec, or computed by hand from them.
-/

namespace Sys2Proof.Tests
open Sys2Proof.Machine

/-! ### Demonstration states -/

/-- A launch with one block of one group of eight lanes, without code, and its job, which may test. -/
def la : Launch := fetchLaunch 0
def j : Job := fetchJob
/-- Its group: eight live lanes at packet 8. -/
def g : Group := newGroup la 0 0 ⟨0, 0, 0⟩
def k : GKey := ⟨0, 0, 0⟩
/-- Its batch at slot 0 of packet 8, a stop site: all eight lanes, each with a true guard. -/
def c : Issue := ⟨k, 0x80, countFrom 0 8, countFrom 0 8, false, true, none, 15, false⟩
def demoDev (h : Group) (i : Issue) : Dev :=
  { Dev.reset with launches := [la], jobs := [j], blocks := [newBlock la 0 0 0], groups := [h], cur := some i }
def demoWith (h : Group) (i : Issue) : State := { State.reset with dev := demoDev h i }
def demo : State := demoWith g c

/-- Whether the batch of the demonstration state meets none of the checks of R53 with an instruction. -/
abbrev NoCheck (i : Instr) : Prop := commonFault demo.dev g la c i i.latency = none

theorem issues {i : Instr} (h : NoCheck i) : Issues demo i c g la := ⟨rfl, rfl, rfl, h⟩

/-! ### Decoding: each word is written from the fields of the opcode table -/

/-! ### Ill-formed words, each refused with the reason and the field of R53 -/

theorem test_ill_formed_registers :
    (Instr.addB64 false 5 8 12).fieldFault = some (11, 1) ∧ (Instr.packE2m1F32 false 4 9 .rn).fieldFault = some (12, 2) ∧
    (Instr.mxPost 100 8 0 .bf16 false false).fieldFault = some (12, 2) ∧ (Instr.madd 16 0 0).fieldFault = some (11, 1) ∧
    (Instr.icmp false 16 0 0 .eq).fieldFault = some (11, 1) ∧ (Instr.pand 0 32 0).fieldFault = some (11, 2) ∧
    (Instr.qRd 5 8).fieldFault = some (11, 2) := by decide

theorem test_ill_formed_values :
    (Instr.sysRd 0 0x07).fieldFault = some (12, 3) ∧ (Instr.sysWr 0 0x21).fieldFault = some (12, 3) ∧ (Instr.waitLd 64).fieldFault = some (12, 3) ∧
    (Instr.barInit 0 1).fieldFault = some (12, 3) ∧ (Instr.barInit 17 1).fieldFault = some (12, 3) ∧
    (Instr.cuvLoadBlk 8 0).fieldFault = some (12, 3) ∧ (Instr.cuvLoadPad 8 16).fieldFault = some (12, 3) ∧ (Instr.cuvChk 8 0).fieldFault = some (12, 3) ∧
    (Instr.cuvRd 8 16).fieldFault = some (12, 3) ∧ (Instr.mxMmaMom 4 8 0 false false).fieldFault = some (12, 2) ∧
    (Instr.mxMmaMom 0 8 16 false false).fieldFault = some (12, 3) ∧ (Instr.qRd 4 0).fieldFault = some (12, 1) ∧
    (Instr.qSub 4 0 0).fieldFault = some (12, 1) ∧ (Instr.mxPost 0 9 0 .bf16 false false).wellFormed = false ∧
    (Instr.mxPost 0 10 0 .bf16 false true).wellFormed = false := by decide

/-- The values next to those refused are accepted. -/
theorem test_well_formed_edges :
    (Instr.barInit 1 1).wellFormed = true ∧ (Instr.barInit 16 1).wellFormed = true ∧ (Instr.waitLd 63).wellFormed = true ∧
    (Instr.cuvLoadBlk 8 15).wellFormed = true ∧ (Instr.cuvRd 8 0).wellFormed = true ∧ (Instr.addB64 false 126 8 12).wellFormed = true ∧
    (Instr.mxPost 96 8 31 .bf16 false false).wellFormed = true ∧ (Instr.pand 15 31 16).wellFormed = true := by decide

/-- Words of the program listings of the spec (files 10 and 15), and words that no row of the table has. -/
theorem test_decode_listings :
    decode 0x07020000 = .ok (.sysRd 1 0) ∧ decode 0x14060804 = .ok (.shli false 3 2 4) ∧ decode 0x08060C08 = .ok (.add false 3 3 1) ∧
    decode 0x29081504 = .ok (.st 4 5 .blk 0 .b32) ∧ decode 0x280C1504 = .ok (.ld false 6 5 .blk 0 .b32) ∧
    decode 0x330E1800 = .ok (.redux 7 6 .add) ∧ decode 0x0F02243A = .ok (.icmp false 1 9 7 .ltS32) ∧ decode 0x34060000 = .ok (.barSync 0) := by decide

theorem test_decode_rejects :
    decode 0x00060000 = .error .unassigned ∧ decode 0x24000000 = .error .unassigned ∧ decode 0x43000000 = .error (.noScalar .exit) ∧ decode 0x0A000007 = .error .unassigned ∧
    decode 0x0C000008 = .error ⟨3, 3, some (.popc false 0 0)⟩ := by decide

/-- Opcodes 0x00 to 0x07. -/
def wordsControl : List (Word × Instr) :=
  [(0x00000000, .nop),
   (0x000201A5, .brk 0x1a5),
   (0x0004004D, .trap 0x4d),
   (0x0107FFFE, .br 3 0x1fffe),
   (0x41060003, .sBr 3 3),
   (0x02002000, .brx 8),
   (0x02030000, .call 0x10000),
   (0x02042000, .callx 8),
   (0x02060000, .ret),
   (0x03000000, .exit),
   (0x03000001, .fibEnd),
   (0x03082062, .fibSpawn 4 8 12),
   (0x04000002, .divPush 2),
   (0x04020000, .divJoin),
   (0x0507FFFF, .brRot 3 0x1ffff),
   (0x06002000, .wait 8),
   (0x06022205, .waitAddrBlk 8 0x205),
   (0x06042123, .waitAddrPad 8 0x123),
   (0x06060000, .yield),
   (0x07080020, .sysRd 4 0x20),
   (0x07002118, .sysWr 8 0x18)]

theorem test_decode_control : ∀ e ∈ wordsControl, decode e.1 = .ok e.2 := by decide

theorem test_issues_control : ∀ e ∈ wordsControl, NoCheck e.2 := by decide

/-- Opcodes 0x08 to 0x0B. -/
def wordsInteger : List (Word × Instr) :=
  [(0x48082060, .add true 4 8 12),
   (0x48082061, .sub true 4 8 12),
   (0x48082062, .addSatS32 true 4 8 12),
   (0x48082063, .subSatS32 true 4 8 12),
   (0x48082064, .addSatZ32 true 4 8 12),
   (0x48082065, .subSatZ32 true 4 8 12),
   (0x48082066, .addB64 true 4 8 12),
   (0x48082067, .subB64 true 4 8 12),
   (0x49082060, .mul true 4 8 12),
   (0x49082061, .mulHiS32 true 4 8 12),
   (0x49082062, .mulHiZ32 true 4 8 12),
   (0x49082063, .mulWideS32 true 4 8 12),
   (0x49082064, .mulWideZ32 true 4 8 12),
   (0x49082065, .mad true 4 8 12),
   (0x49082066, .madWideS32 true 4 8 12),
   (0x49082067, .madWideZ32 true 4 8 12),
   (0x4A082060, .and true 4 8 12),
   (0x4A082061, .or true 4 8 12),
   (0x4A082062, .xor true 4 8 12),
   (0x4A082063, .andn true 4 8 12),
   (0x4A082064, .orn true 4 8 12),
   (0x4A082065, .xnor true 4 8 12),
   (0x4A082006, .not true 4 8),
   (0x4B082060, .shl true 4 8 12),
   (0x4B082061, .shrZ32 true 4 8 12),
   (0x4B082062, .shrS32 true 4 8 12),
   (0x4B082063, .rol true 4 8 12),
   (0x4B082064, .ror true 4 8 12)]

theorem test_decode_integer : ∀ e ∈ wordsInteger, decode e.1 = .ok e.2 := by decide

theorem test_issues_integer : ∀ e ∈ wordsInteger, NoCheck e.2 := by decide

/-- Opcodes 0x0C to 0x10. -/
def wordsBits : List (Word × Instr) :=
  [(0x4C082000, .popc true 4 8),
   (0x4C082001, .clz true 4 8),
   (0x4C082002, .ctz true 4 8),
   (0x4C082003, .brev true 4 8),
   (0x4C082004, .bswap true 4 8),
   (0x4D082060, .bfxZ32 true 4 8 12),
   (0x4D082061, .bfxS32 true 4 8 12),
   (0x4D082062, .bfi true 4 8 12),
   (0x4E082060, .minS32 true 4 8 12),
   (0x4E082061, .minZ32 true 4 8 12),
   (0x4E082062, .maxS32 true 4 8 12),
   (0x4E082063, .maxZ32 true 4 8 12),
   (0x4E082004, .absS32 true 4 8),
   (0x4E082005, .negS32 true 4 8),
   (0x4F062064, .icmp true 3 8 12 .ltZ32),
   (0x50092345, .movi true 4 0x12345)]

theorem test_decode_integer2 : ∀ e ∈ wordsBits, decode e.1 = .ok e.2 := by decide

theorem test_issues_integer2 : ∀ e ∈ wordsBits, NoCheck e.2 := by decide

/-- Opcodes 0x11 to 0x17. -/
def wordsMoves : List (Word × Instr) :=
  [(0x51092345, .movh true 4 0x12345),
   (0x520823FF, .iaddi true 4 8 0x3ff),
   (0x530820A5, .andi true 4 8 0xa5),
   (0x530821A5, .ori true 4 8 0xa5),
   (0x530822A5, .xori true 4 8 0xa5),
   (0x54082015, .shli true 4 8 0x15),
   (0x54082115, .shriZ32 true 4 8 0x15),
   (0x54082215, .shriS32 true 4 8 0x15),
   (0x54082315, .rori true 4 8 0x15),
   (0x55082000, .mov true 4 8),
   (0x55082061, .sel true 4 8 12),
   (0x56082066, .lea true 4 8 12 6),
   (0x17082060, .pand 4 8 12),
   (0x17082061, .por 4 8 12),
   (0x17082062, .pxor 4 8 12),
   (0x17082003, .pSet 4 8),
   (0x17082004, .pGet 4 8),
   (0x17080005, .pwRd 4),
   (0x17002006, .pwWr 8)]

theorem test_decode_moves : ∀ e ∈ wordsMoves, decode e.1 = .ok e.2 := by decide

theorem test_issues_moves : ∀ e ∈ wordsMoves, NoCheck e.2 := by decide

/-- Opcodes 0x18 to 0x1F. -/
def wordsFloat : List (Word × Instr) :=
  [(0x58082060, .faddF32 true 4 8 12),
   (0x58082061, .fsubF32 true 4 8 12),
   (0x58082062, .faddF16x2 true 4 8 12),
   (0x58082063, .fsubF16x2 true 4 8 12),
   (0x58082064, .faddBf16x2 true 4 8 12),
   (0x58082065, .fsubBf16x2 true 4 8 12),
   (0x58082066, .faddSatF32 true 4 8 12),
   (0x58082067, .fsubSatF32 true 4 8 12),
   (0x59082064, .fmulF32 true 4 8 12 true),
   (0x59082065, .fmulF16x2 true 4 8 12 true),
   (0x59082066, .fmulBf16x2 true 4 8 12 true),
   (0x5A082064, .ffmaF32 true 4 8 12 true),
   (0x5A082065, .ffmaF16x2 true 4 8 12 true),
   (0x5A082066, .ffmaBf16x2 true 4 8 12 true),
   (0x5B082062, .fmin true 4 8 12 .f16x2),
   (0x5B082063, .fmax true 4 8 12 .f16x2),
   (0x5C082005, .fclass true 4 8),
   (0x5C062062, .fcmp true 3 8 12 .le),
   (0x5D082001, .rcp true 4 8 .f16x2),
   (0x5D082009, .rsq true 4 8 .f16x2),
   (0x5D082011, .sqrt true 4 8 .f16x2),
   (0x5D082019, .exp2 true 4 8 .f16x2),
   (0x5D082021, .log2 true 4 8 .f16x2),
   (0x5D082029, .sin true 4 8 .f16x2),
   (0x5D082031, .cos true 4 8 .f16x2),
   (0x5D082039, .tanh true 4 8 .f16x2),
   (0x5D082041, .erf true 4 8 .f16x2),
   (0x5D082049, .ncdf true 4 8 .f16x2),
   (0x5D082051, .npdf true 4 8 .f16x2),
   (0x5E08228B, .packE4m3F32 true 4 8 .ru),
   (0x5E082293, .packE5m2F32 true 4 8 .ru),
   (0x5E08229B, .packE2m1F32 true 4 8 .ru),
   (0x5E0822A5, .unpackF32E4m3 true 4 8),
   (0x5E0822AD, .unpackF32E5m2 true 4 8),
   (0x5E2022B5, .unpackF32E2m1 true 16 8),
   (0x5E082063, .cvt true 4 8 ⟨.f16, .e4m3⟩ .ru),
   (0x1F082000, .rngB128 4 8),
   (0x1F082001, .rngF32 4 8),
   (0x1F082062, .cvtSrBf16F32 4 8 12),
   (0x1F082063, .cvtSrF16F32 4 8 12),
   (0x1F082064, .cvtSrBf16x2F32 4 8 12),
   (0x1F082065, .packSrE4m3F32 4 8 12),
   (0x1F082066, .packSrE5m2F32 4 8 12),
   (0x1F082067, .packSrE2m1F32 4 8 12)]

theorem test_decode_float : ∀ e ∈ wordsFloat, decode e.1 = .ok e.2 := by decide

theorem test_issues_float : ∀ e ∈ wordsFloat, NoCheck e.2 := by decide

/-- Opcodes 0x20 to 0x23. -/
def wordsMoments : List (Word × Instr) :=
  [(0x20082060, .madd 4 8 12),
   (0x20082061, .msub 4 8 12),
   (0x20082062, .mmul 4 8 12),
   (0x20082063, .mfma 4 8 12),
   (0x20082064, .mscl 4 8 12),
   (0x21082000, .mrelu 4 8),
   (0x21082001, .mexp 4 8),
   (0x21082002, .msigm 4 8),
   (0x21082003, .mtanh 4 8),
   (0x22082060, .mset 4 8 12),
   (0x22082001, .mcolMean 4 8),
   (0x22082002, .mcolVar 4 8),
   (0x22082064, .mcolSmp 4 8 12),
   (0x23084028, .mldBlk 4 16 5),
   (0x23084029, .mldPad 4 16 5),
   (0x2308402A, .mstBlk 4 16 5),
   (0x2308402B, .mstPad 4 16 5)]

theorem test_decode_moments : ∀ e ∈ wordsMoments, decode e.1 = .ok e.2 := by decide

theorem test_issues_moments : ∀ e ∈ wordsMoments, NoCheck e.2 := by decide

/-- Opcodes 0x28 to 0x2F. -/
def wordsMemory : List (Word × Instr) :=
  [(0x680842AD, .ld true 4 16 .pad 0x15 .b64),
   (0x290842AC, .st 4 16 .pad 0x15 .b32),
   (0x2A0821F1, .atomAccZ32 4 8 true (.acq .blk)),
   (0x2A082212, .atomAccF32 4 8 true (.acq .gang)),
   (0x2A0820D3, .atom 4 8 .maxS32 true (.acq .dev)),
   (0x2B082034, .atomCas 4 8 true true (.acq .sys)),
   (0x2C082063, .ldVt 4 8 12 true true),
   (0x2C082067, .ldVtw 4 8 12 true true),
   (0x2D084029, .stMask 4 16 5 true),
   (0x2D08402B, .ldMask 4 16 5 true),
   (0x2E080001, .push 4 true),
   (0x2E080003, .pop 4 true),
   (0x2F000000, .fenceGrp),
   (0x2F000001, .fenceBlk),
   (0x2F000002, .fenceGang),
   (0x2F000003, .fenceDev),
   (0x2F000004, .fenceSys),
   (0x2F00004D, .waitLd 9)]

theorem test_decode_memory : ∀ e ∈ wordsMemory, decode e.1 = .ok e.2 := by decide

theorem test_issues_memory : ∀ e ∈ wordsMemory, NoCheck e.2 := by decide

/-- Opcodes 0x30 to 0x34. -/
def wordsExchange : List (Word × Instr) :=
  [(0x30082000, .qxH 4 8),
   (0x30082001, .qxV 4 8),
   (0x30082002, .qxD 4 8),
   (0x30082006, .qxBc 4 8 2),
   (0x31082060, .xlaneFlip 4 8 12),
   (0x31082061, .xlanePick 4 8 12),
   (0x31082062, .xlaneLo 4 8 12),
   (0x31082063, .xlaneHi 4 8 12),
   (0x31082064, .xlaneRot 4 8 12),
   (0x32082000, .ballot 4 8),
   (0x32082001, .agreeAll 4 8),
   (0x32082002, .agreeAny 4 8),
   (0x32082003, .agreeSame 4 8),
   (0x33082038, .redux 4 8 .xor),
   (0x33082039, .reduxXscan 4 8 .xor),
   (0x3308203A, .reduxIscan 4 8 .xor),
   (0x3400004B, .barInit 4 0xb),
   (0x3402000B, .barArrive 0xb),
   (0x3404000B, .barWait 0xb),
   (0x3406000B, .barSync 0xb),
   (0x34080000, .barSyncGang),
   (0x340A0000, .gridSync)]

theorem test_decode_exchange : ∀ e ∈ wordsExchange, decode e.1 = .ok e.2 := by decide

theorem test_issues_exchange : ∀ e ∈ wordsExchange, NoCheck e.2 := by decide

/-- Opcodes 0x35 to 0x37. -/
def wordsSync : List (Word × Instr) :=
  [(0x35002060, .cstInit 8 12),
   (0x35002001, .cstPut 8),
   (0x35082002, .cstTake 4 8),
   (0x36000000, .xregAcq),
   (0x36000001, .xregRel),
   (0x37082000, .vtNew 4 8),
   (0x37002001, .vtSet 8),
   (0x37080002, .vtGet 4),
   (0x37002003, .vtDrop 8),
   (0x37002004, .vtMerge 8)]

theorem test_decode_sync : ∀ e ∈ wordsSync, decode e.1 = .ok e.2 := by decide

theorem test_issues_sync : ∀ e ∈ wordsSync, NoCheck e.2 := by decide

/-- Opcodes 0x38 to 0x3A. -/
def wordsMatrix : List (Word × Instr) :=
  [(0x38043137, .mxMmaMom 2 12 9 true true),
   (0x381032AB, .mxPost 8 12 0x15 .e4m3 true true),
   (0x390002A0, .mxZero 0x15),
   (0x390822A1, .mxDrain 4 8 0x15),
   (0x390822A2, .mxLd 4 8 0x15),
   (0x39002003, .mxBand 8),
   (0x390802A4, .mxStat 4 0x15),
   (0x3A002028, .cuvLoadBlk 8 5),
   (0x3A002029, .cuvLoadPad 8 5),
   (0x3A08002A, .cuvChk 4 5),
   (0x3A08002B, .cuvRd 4 5)]

theorem test_decode_matrix : ∀ e ∈ wordsMatrix, decode e.1 = .ok e.2 := by decide

theorem test_issues_matrix : ∀ e ∈ wordsMatrix, NoCheck e.2 := by decide

/-- Opcodes 0x3B to 0x3E. -/
def wordsEngine : List (Word × Instr) :=
  [(0x3B200008, .cpG2s 16 true),
   (0x3B200009, .cpS2g 16 true),
   (0x3B20001A, .cpS2s 16 true true),
   (0x3B20000B, .cpTG2s 16 true),
   (0x3B20000C, .cpTS2g 16 true),
   (0x3B200005, .migPost 16),
   (0x3C082066, .gat 4 8 12 true 2),
   (0x3D002060, .objInit 8 12),
   (0x3D002061, .objArrive 8 12),
   (0x3D002062, .objWait 8 12),
   (0x3D082063, .objWaitSt 4 8 12),
   (0x3D082004, .objPoll 4 8),
   (0x3E004000, .rcpPut 16),
   (0x3E004001, .rcpGet 16),
   (0x3E00425A, .ratom 16 2 (.op .xorB32)),
   (0x3E004003, .collPost 16)]

theorem test_decode_engines : ∀ e ∈ wordsEngine, decode e.1 = .ok e.2 := by decide

theorem test_issues_engines : ∀ e ∈ wordsEngine, NoCheck e.2 := by decide

/-- Opcodes 0x3F to 0x3F. -/
def wordsSystem : List (Word × Instr) :=
  [(0x3F0C0400, .qRd 6 1),
   (0x3F000861, .qSt 2 12),
   (0x3F0A1802, .qSub 5 6 0),
   (0x3F002003, .wpSet 8),
   (0x3F00200B, .wpClr 8),
   (0x3F002004, .trcMark 8),
   (0x3F082005, .locQPad 4 8),
   (0x3F08200D, .locQVa 4 8),
   (0x3F002006, .bistRun 8),
   (0x3F08000E, .bistRd 4),
   (0x3F002007, .launchDev 8)]

theorem test_decode_system : ∀ e ∈ wordsSystem, decode e.1 = .ok e.2 := by decide

theorem test_issues_system : ∀ e ∈ wordsSystem, NoCheck e.2 := by decide

/-! ### Witnesses: states and operands that meet the hypotheses of the statements, clause by clause -/

/-- A batch of the demonstration group with other guards, and a batch that is tried again. -/
def cOff : Issue := { c with on := [] }
/-- The demonstration group with one lane changed. -/
def gLane (n : Nat) (f : Lane → Lane) : Group := g.modLane n f

theorem witness_IntegerResults :
    (∃ i r, intRule i = some r ∧ Issues demo i c g la) ∧ ∃ i r, predRule i = some r ∧ Issues demo i c g la :=
  ⟨⟨.add true 4 8 12, _, rfl, issues (by decide)⟩, ⟨.icmp true 3 8 12 .eq, _, rfl, issues (by decide)⟩⟩

theorem witness_FloatResults :
    (∃ i r, fpRule i = some r ∧ Issues demo i c g la) ∧ ∃ i r, drawRule i = some r ∧ Issues demo i c g la :=
  ⟨⟨.faddF32 true 4 8 12, _, rfl, issues (by decide)⟩, ⟨.rngF32 4 8, _, rfl, issues (by decide)⟩⟩

theorem witness_ExchangeResults : ∃ i r, exchangeRule i = some r ∧ Issues demo i c g la :=
  ⟨.redux 4 8 .xor, _, rfl, issues (by decide)⟩

/-- Lane 0 holds −1 in v12, and NVF is set. -/
def gNeg : Group := { gLane 0 (fun x => { x with v := [(12, 0xBF800000)] }) with gsr := 0x80 }

theorem witness_MomentResults :
    (∃ f, momRule (.mset 1 8 12) = some (1, 1, 6, f) ∧ Issues (demoWith gNeg c) (.mset 1 8 12) c gNeg la ∧
      (if gNeg.nvf then (c.voters gNeg).find? fun l => badVar (f (demoWith gNeg c) c gNeg l).var else none) = some 0) ∧
    (∃ f, momRule (.mset 1 8 12) = some (1, 1, 6, f) ∧ Issues demo (.mset 1 8 12) c g la ∧
      (if g.nvf then (c.voters g).find? fun l => badVar (f demo c g l).var else none) = none) ∧
    ∃ i r, collapseRule i = some r ∧ Issues demo i c g la :=
  ⟨⟨_, rfl, ⟨rfl, rfl, rfl, by decide⟩, by decide⟩, ⟨_, rfl, issues (by decide), by decide⟩, ⟨.mcolMean 4 8, _, rfl, issues (by decide)⟩⟩

theorem witness_NopTrapBrk :
    Issues demo .nop c g la ∧ Issues demo (.trap 1) c g la ∧ Issues demo (.brk 1) c g la ∧ c.stop = true ∧
    Issues (demoWith g { c with stop := false }) (.brk 1) { c with stop := false } g la :=
  ⟨issues (by decide), issues (by decide), issues (by decide), rfl, ⟨rfl, rfl, rfl, by decide⟩⟩

theorem witness_BranchesAndCalls :
    Issues demo (.br 3 1) c g la ∧ Issues demo (.sBr 3 1) c g la ∧ Issues demo (.brRot 3 1) c g la ∧ Issues demo (.brx 8) c g la ∧
    Issues demo (.call 1) c g la ∧ Issues demo (.callx 8) c g la ∧ c.Regular g ∧ Issues demo .ret c g la :=
  ⟨issues (by decide), issues (by decide), issues (by decide), issues (by decide), issues (by decide), issues (by decide),
    ⟨by decide, by decide⟩, issues (by decide)⟩

/-- A group of one lane, which is empty. -/
def gOne : Group := { g with lanes := [Lane.empty] }

theorem gOne_wf : gOne.Wf := fun l => by cases l <;> exact ⟨rfl, rfl⟩

theorem witness_Endings :
    Issues demo .exit c g la ∧ Issues demo .fibEnd c g la ∧ c.resume = none ∧
    ∃ (h : Group) (dd l : Nat), h.Wf ∧ dd ≤ 16 ∧ l < h.lanes.length :=
  ⟨issues (by decide), issues (by decide), rfl, gOne, 16, 0, gOne_wf, by decide, by decide⟩

/-- Lane 0 alone, whose v8 names packet 8, a packet of the code, or packet 9, which is none. -/
def cLone : Issue := { c with lanes := [0], on := [0] }
def gTo (n : Word) : Group := gLane 0 fun x => { x with v := [(8, n)] }

theorem witness_Spawns :
    (Issues (demoWith (gTo 9) cLone) (.fibSpawn 4 8 3) cLone (gTo 9) la ∧
      ((cLone.voters (gTo 9)).any fun l => !la.hasIndex (srcV (demoWith (gTo 9) cLone).dev (gTo 9) cLone l 8).toNat) = true) ∧
    (Issues (demoWith (gTo 8) cLone) (.fibSpawn 4 8 3) cLone (gTo 8) la ∧
      ((cLone.voters (gTo 8)).any fun l => !la.hasIndex (srcV (demoWith (gTo 8) cLone).dev (gTo 8) cLone l 8).toNat) = false ∧
      cLone.on = [0] ∧ (gTo 8).isLive 0 = true ∧ la.hasIndex (srcV (demoWith (gTo 8) cLone).dev (gTo 8) cLone 0 8).toNat = true) ∧
    ∃ (h : Group) (n : Nat) (p : Lane), cellsWf p.v = true ∧ n < h.lanes.length ∧ h.isLive n = false :=
  ⟨⟨⟨rfl, rfl, rfl, by decide⟩, by decide⟩, ⟨⟨rfl, rfl, rfl, by decide⟩, by decide, rfl, by decide, by decide⟩, gOne, 0, Lane.empty, by decide, by decide, by decide⟩

/-- Lane 0 waits at the packet that its top divergence level names. -/
def gJoin : Group :=
  gLane 0 fun x => { (x.setLevel 1 (2 ^ 31 + 8)) with pc := 0x80, hold := some ⟨.join, 13, .bar 0xFF 0, 0, 0, 0, true, [], 0, [], none⟩ }

theorem witness_Divergence :
    Issues demo (.divPush 0) c g la ∧ Issues demo .divJoin c g la ∧ joinSet gJoin 4 0x80 0 ≠ [] :=
  ⟨issues (by decide), issues (by decide), by decide⟩

theorem witness_WaitsAndHolds :
    Issues demo (.wait 8) c g la ∧ Issues demo (.waitAddrBlk 8 0) c g la ∧ Issues demo (.waitAddrPad 8 0) c g la ∧
    Issues demo .yield c g la ∧ demo.dev.group? c.g = some g ∧ (g.withHelpers [0, 7]).Nodup ∧ ∀ l ∈ g.withHelpers [0, 7], l < g.lanes.length :=
  ⟨issues (by decide), issues (by decide), issues (by decide), issues (by decide), rfl, by decide, by decide⟩

theorem witness_SystemRegisters :
    Issues demo (.sysRd 4 0x22) c g la ∧ (0x22 : BitVec 8) ≠ 0x10 ∧ Issues demo (.sysRd 4 0x10) c g la ∧
    Issues demo (.sysWr 8 0x20) c g la ∧ Issues demo (.sysWr 8 0x18) c g la ∧ Issues demo (.sysWr 8 0x10) c g la ∧ 63 < 64 :=
  ⟨issues (by decide), by decide, issues (by decide), issues (by decide), issues (by decide), issues (by decide), by decide⟩

/-- An access of 4 bytes by a lane of the demonstration group, as a load makes it. -/
def tryAccess (pad : Bool) (a n : Nat) : Except (AccFault × Space) LaneAccess := accessOf demo.dev g la j 0 pad a n n .read

theorem witness_AccessChecks :
    (padSize - 2) % 4 ≠ 0 ∧ padSize % 4 = 0 ∧ padSize < padSize + 4 ∧
    (2 ^ 21 % 4 = 0 ∧ 2 ^ 21 ≤ 2 ^ 21) ∧ (262144 % 4 = 0 ∧ 262144 / 2 ^ 20 % 2 = 0 ∧ 262144 / 2 ^ 18 % 4 ≠ 0) ∧
    ((2 ^ 20 + 2 ^ 18) % 4 = 0 ∧ (2 ^ 20 + 2 ^ 18) / 2 ^ 20 % 2 = 1 ∧ la.gang ≤ (2 ^ 20 + 2 ^ 18) / 2 ^ 18 % 4) ∧
    (∃ x, tryAccess true (2 ^ 21 - 4) 4 = .ok x) ∧ (∃ x, tryAccess false 262140 4 = .ok x) ∧ ∃ x, tryAccess false (2 ^ 20) 4 = .ok x :=
  ⟨by decide, by decide, by decide, by decide, by decide, by decide, ⟨_, rfl⟩, ⟨_, rfl⟩, ⟨_, rfl⟩⟩
/-- Every lane has one entry on its spill stack, held by the cache or not. -/
def gSpill (rc : Nat) : Group := g.modLanes (countFrom 0 8) fun _ x => { x with ssp := 8, rc := rc }
/-- The accesses of lane 0 at its own block's last word, and at the pad's last granted word. -/
def own0 : LaneAccess := ⟨0, 262140, .blk, .blk 0 0, 262140, 4, false⟩
def far0 : LaneAccess := ⟨0, 2 ^ 21 - 4, .pad, .pad, 2 ^ 21 - 4, 4, false⟩

theorem witness_own_far : tryAccess false 262140 4 = .ok own0 ∧ own0.own la g ∧ tryAccess true (2 ^ 21 - 4) 4 = .ok far0 ∧ far0.far :=
  ⟨rfl, ⟨rfl, rfl, rfl⟩, rfl, ⟨rfl, rfl⟩⟩

theorem witness_LoadsAndSpills :
    (Issues demo (.ld true 4 8 .pad 1 .b64) c g la ∧ Space3.pad ≠ .stk) ∧ Issues demo (.ld false 4 8 .stk 0 .b64) c g la ∧
    (demo.dev.group? c.g = some g ∧ demo.dev.launch? c.g.launch = some la ∧ (∀ a ∈ [own0], a.own la g) ∧ [far0] ≠ [] ∧ ∀ a ∈ [far0], a.far) ∧
    (let h := gSpill 1;
      (demoWith h c).dev.group? c.g = some h ∧ ∀ l ∈ c.on, 0 % ldSize .b64 = 0 ∧ 0 + ldSize .b64 ≤ la.spill ∧
        (h.lane l).ssp.toNat - 8 * (h.lane l).rc ≤ 0 ∧ 0 + ldSize .b64 ≤ (h.lane l).ssp.toNat) ∧
    (Issues demo (.push 4 true) c g la ∧ c.Regular g) ∧ (Issues demo (.pop 4 true) c g la ∧ (c.underflow g).isSome = true) ∧
    (Issues (demoWith (gSpill 1) c) (.pop 4 true) c (gSpill 1) la ∧ ∀ l ∈ c.on, ((gSpill 1).lane l).ssp ≠ 0 ∧ 0 < ((gSpill 1).lane l).rc) ∧
    (Issues (demoWith (gSpill 0) c) (.pop 4 true) c (gSpill 0) la ∧ c.on ≠ [] ∧
      ∀ l ∈ c.on, ((gSpill 0).lane l).ssp ≠ 0 ∧ ((gSpill 0).lane l).rc = 0) :=
  ⟨⟨issues (by decide), by decide⟩, issues (by decide),
    ⟨rfl, rfl, by simpa using witness_own_far.2.1, by decide, by simpa using witness_own_far.2.2.2⟩, ⟨rfl, by decide⟩,
    ⟨issues (by decide), by decide, by decide⟩, ⟨issues (by decide), by decide⟩, ⟨⟨rfl, rfl, rfl, by decide⟩, by decide⟩,
    ⟨⟨rfl, rfl, rfl, by decide⟩, by decide, by decide⟩⟩

theorem witness_Stores :
    (Issues demo (.st 4 8 .blk 1 .b64) c g la ∧ Space3.blk ≠ .stk) ∧ Issues demo (.st 4 8 .stk 1 .b64) c g la ∧
    (∀ e ∈ [(own0, leBytes 4 5)], e.1.own la g) ∧ [(far0, leBytes 4 5)] ≠ [] ∧ ∀ e ∈ [(far0, leBytes 4 5)], e.1.far :=
  ⟨⟨issues (by decide), by decide⟩, issues (by decide), by simpa using witness_own_far.2.1, by simp, by simpa using witness_own_far.2.2.2⟩

/-- Lane 0's v8 is `n`; the batch is lane 0 alone. -/
def one8 (n : Word) : State := demoWith (gTo n) cLone

theorem witness_MomentAndMaskAccesses :
    (Issues demo (.mstPad 1 8 0) c g la ∧ Issues demo (.mldPad 1 8 0) c g la) ∧
    (∃ f, Issues (one8 4) (.mldBlk 1 8 0) cLone (gTo 4) la ∧ (one8 4).accesses cLone (gTo 4) la cLone.on false
      (fun l => offAddr (srcV (one8 4).dev (gTo 4) cLone l 8) (0 : BitVec 7) 8) 8 3 .read = .error f) ∧
    (∃ xs, Issues (one8 8) (.mldPad 1 8 0) cLone (gTo 8) la ∧ (one8 8).accesses cLone (gTo 8) la cLone.on true
      (fun l => offAddr (srcV (one8 8).dev (gTo 8) cLone l 8) (0 : BitVec 7) 8) 8 3 .read = .ok xs ∧ xs ≠ [] ∧ ∀ a ∈ xs, a.far) ∧
    (∃ xs, Issues (one8 8) (.mldBlk 1 8 0) cLone (gTo 8) la ∧ (one8 8).accesses cLone (gTo 8) la cLone.on false
      (fun l => offAddr (srcV (one8 8).dev (gTo 8) cLone l 8) (0 : BitVec 7) 8) 8 3 .read = .ok xs ∧ ∀ a ∈ xs, a.own la (gTo 8)) ∧
    (Issues (demoWith g cOff) (.stMask 3 8 0 true) cOff g la ∧ Issues (demoWith g cOff) (.ldMask 3 8 0 true) cOff g la ∧ cOff.voters g = []) ∧
    (∃ f, (one8 0x40000).accesses cLone (gTo 0x40000) la [0] false
      (fun _ => offAddr (srcV (one8 0x40000).dev (gTo 0x40000) cLone 0 8) (0 : BitVec 7) 1) 1 7 .write = .error f) ∧
    (∃ a, Issues (one8 8) (.stMask 3 8 0 true) cLone (gTo 8) la ∧ (gTo 8).leader cLone.on = some 0 ∧ (one8 8).accesses cLone (gTo 8) la [0] true
      (fun _ => offAddr (srcV (one8 8).dev (gTo 8) cLone 0 8) (0 : BitVec 7) ((gTo 8).width / 8)) ((gTo 8).width / 8) 7 .write = .ok [a] ∧ a.far) ∧
    ∃ a, Issues (one8 8) (.ldMask 3 8 0 false) cLone (gTo 8) la ∧ (one8 8).accesses cLone (gTo 8) la [0] false
      (fun _ => offAddr (srcV (one8 8).dev (gTo 8) cLone 0 8) (0 : BitVec 7) ((gTo 8).width / 8)) ((gTo 8).width / 8) 7 .read = .ok [a] ∧ a.own la (gTo 8) :=
  ⟨⟨issues (by decide), issues (by decide)⟩, ⟨_, ⟨rfl, rfl, rfl, by decide⟩, rfl⟩,
    ⟨[⟨0, 8, .pad, .pad, 8, 8, false⟩], ⟨rfl, rfl, rfl, by decide⟩, rfl, by simp, by simp [LaneAccess.far, countedTarget]⟩,
    ⟨[⟨0, 8, .blk, .blk 0 0, 8, 8, false⟩], ⟨rfl, rfl, rfl, by decide⟩, rfl, by simp [LaneAccess.own]; decide⟩,
    ⟨⟨rfl, rfl, rfl, by decide⟩, ⟨rfl, rfl, rfl, by decide⟩, rfl⟩, ⟨_, rfl⟩,
    ⟨⟨0, 8, .pad, .pad, 8, 1, false⟩, ⟨rfl, rfl, rfl, by decide⟩, rfl, rfl, rfl, rfl⟩,
    ⟨⟨0, 8, .blk, .blk 0 0, 8, 1, false⟩, ⟨rfl, rfl, rfl, by decide⟩, rfl, rfl, rfl, rfl⟩⟩

theorem witness_Atomics :
    Issues demo (.atom 4 8 .addB64 true (.acqrel .sys)) c g la ∧ Issues demo (.atomCas 4 8 true false .relaxed) c g la ∧
    Issues demo (.atomAccF32 4 8 false (.rel .dev)) c g la ∧ Issues demo (.atomAccZ32 4 8 true (.acq .blk)) c g la ∧
    (∃ x : AtomLane, x.acc.own la g) ∧ ∃ x : AtomLane, [x] ≠ [] ∧ ∀ y ∈ [x], y.acc.far :=
  ⟨issues (by decide), issues (by decide), issues (by decide), issues (by decide), ⟨⟨own0, .atom .addZ32 1 [], []⟩, witness_own_far.2.1⟩,
    ⟨⟨far0, .atom .addZ32 1 [], []⟩, by simp, by simpa using witness_own_far.2.2.2⟩⟩

/-- An extended set that nobody holds, with one request. -/
def xFree : XSet := ⟨0, 0, 0, [], none, false, [(k, 7)], none⟩

theorem witness_FencesAndLocks :
    Issues demo .fenceSys c g la ∧ Instr.fenceSys ∈ [Instr.fenceGrp, .fenceBlk, .fenceGang, .fenceDev, .fenceSys] ∧
    Issues demo (.waitLd 63) c g la ∧ Issues demo .xregAcq c g la ∧ Issues demo .xregRel c g la ∧ c.resume = none ∧
    xFree.holder = none ∧ firstRequest Dev.reset xFree.queue = some (k, 7) ∧ Dev.reset.groups = [] :=
  ⟨issues (by decide), by simp, issues (by decide), issues (by decide), issues (by decide), rfl, rfl, by decide, rfl⟩
/-- Its block's barriers expect two groups, and every lane of the group is pending at all of them. -/
def gPend : Group := g.modLanes (countFrom 0 8) fun _ x => { x with pending := 0x3FFFF }
def dPend : Dev := { demoDev gPend c with
  launches := [{ la with gridBar := .fresh 2 }]
  blocks := [{ newBlock la 0 0 0 with bars := List.replicate 18 (.fresh 2) }] }

theorem witness_BlockBarriers :
    Issues demo (.barInit 16 15) c g la ∧ Issues demo (.barArrive 15) c g la ∧ Issues demo (.barSync 0) c g la ∧
    Issues demo .barSyncGang c g la ∧ Issues demo .gridSync c g la ∧ c.resume = none ∧ Issues demo (.barWait 15) c g la ∧
    (demo.dev.group? k = some g ∧ ∃ f ∈ g.liveLanes, (g.lane f).isPending 17 = false) ∧
    ((dPend.group? k).isSome = true ∧ (dPend.launch? 0).isSome = true ∧ (∃ b, dPend.block? 0 0 = some b ∧ b.bars.length = 18) ∧
      gPend.liveLanes ≠ [] ∧ ∀ n < 18, (∀ f ∈ gPend.liveLanes, (gPend.lane f).isPending n = true) ∧ bitAt (dPend.arrm k n).toNat k.group = false ∧
        (n ≠ 16 → (dPend.barrier k n).arr + 1 ≠ (dPend.barrier k n).exp)) :=
  ⟨issues (by decide), issues (by decide), issues (by decide), issues (by decide), issues (by decide), rfl, issues (by decide),
    ⟨rfl, 0, by decide, by decide⟩, rfl, rfl, ⟨_, rfl, rfl⟩, by decide, by decide⟩

theorem witness_ObjectsAndCisterns :
    (g.leader c.on = some 0 ∧ c.resume = none ∧ cOff.voters g = []) ∧
    (Issues demo (.objInit 8 12) c g la ∧ Issues demo (.objArrive 8 12) c g la ∧ Issues demo (.objWait 8 12) c g la ∧
      Issues demo (.objWaitSt 4 8 12) c g la ∧ Issues demo (.objPoll 4 8) c g la ∧ Issues demo (.cstInit 8 12) c g la ∧
      Issues demo (.cstPut 8) c g la ∧ Issues demo (.cstTake 4 8) c g la) ∧
    Issues (demoWith g cOff) (.objPoll 4 8) cOff g la ∧ Issues (demoWith g cOff) (.cstTake 4 8) cOff g la :=
  ⟨by decide, ⟨issues (by decide), issues (by decide), issues (by decide), issues (by decide), issues (by decide), issues (by decide),
    issues (by decide), issues (by decide)⟩, ⟨rfl, rfl, rfl, by decide⟩, ⟨rfl, rfl, rfl, by decide⟩⟩

theorem witness_VintageWords :
    (g.leader c.on = some 0 ∧ c.resume = none ∧ cOff.voters g = [] ∧ cOff.resume = none) ∧
    (Issues demo (.vtNew 4 8) c g la ∧ Issues demo (.vtSet 8) c g la ∧ Issues demo (.vtGet 4) c g la ∧ Issues demo (.vtDrop 8) c g la ∧
      Issues demo (.vtMerge 8) c g la ∧ Issues demo (.ldVt 4 8 12 true true) c g la ∧ Issues demo (.ldVtw 4 8 12 false false) c g la) ∧
    Issues (demoWith g cOff) (.vtMerge 8) cOff g la :=
  ⟨by decide, ⟨issues (by decide), issues (by decide), issues (by decide), issues (by decide), issues (by decide), issues (by decide),
    issues (by decide)⟩, ⟨rfl, rfl, rfl, by decide⟩⟩

/-- A post of BF16 elements, and one group whose MXS names slot 5, which holds no table. -/
def post : Post := ⟨0, 32, 8, 31, false, false⟩
def gSlot5 : Group := { g with mxs := 5 }
def postOp (slot depth : Nat) : PostOp := ⟨0, [0], 0, 0, slot, depth, false, 0, [(0, 0)], none⟩

theorem witness_MatrixPosts :
    (Issues (demoWith g cOff) (.mxPost 32 8 31 .bf16 false false) cOff g la ∧ cOff.voters g = []) ∧
    (Issues (demoWith gSlot5 c) (.mxPost 32 8 31 .bf16 false false) c gSlot5 la ∧ c.voters gSlot5 ≠ [] ∧
      (postFault post (demoWith gSlot5 c) c gSlot5 la (post.ops (demoWith gSlot5 c) c gSlot5)).isSome = true) ∧
    (Issues demo (.mxPost 32 8 31 .bf16 false false) c g la ∧ postFault post demo c g la (post.ops demo c g) = none ∧ g.place = some ⟨0, 0, 0⟩) ∧
    (post.dsc = false ∧ (∀ q ∈ [postOp 0 3], q.latch = none) ∧ g.uchk = false) ∧
    (∃ t ∈ [post.tile], ({ la with acct := 31 } : Launch).acct ≤ t) ∧
    ((∀ t ∈ [post.tile], t < la.acct) ∧ demo.dev.slotTable (demo.dev.clusterOf g) (postOp 5 0).slot la.job = none) ∧
    ∃ t w, demo.dev.slotTable (demo.dev.clusterOf g) (postOp 0 3).slot la.job = some (t, w) ∧ t.dmax < (postOp 0 3).depth :=
  ⟨⟨⟨rfl, rfl, rfl, by decide⟩, rfl⟩, ⟨⟨rfl, rfl, rfl, by decide⟩, by decide, by decide⟩, ⟨issues (by decide), by decide, rfl⟩, by decide, by decide,
    by decide, ⟨_, _, rfl, by decide⟩⟩

/-- A cluster whose sluice holds an operation on tile 31 of the group. -/
def busyEntry : Entry := ⟨0, 0, 0, 0, 0, 0, 0, k, 1, 0x80, [(0, 0)], .blk 0 0, 0, none, 0, 0, 0, false, false, false, 31, 0x3F80, 0x3F80, 0⟩
def busyCluster : Cluster := ⟨0, 0, [busyEntry], [], 0, none, false, 0, [], false⟩
def busy : State := { demo with dev := { demo.dev with clusters := [busyCluster] } }

theorem witness_TileWords :
    (Issues (demoWith g cOff) (.mxStat 4 31) cOff g la ∧ cOff.voters g = []) ∧
    (Issues demo (.mxZero 31) c g la ∧ c.voters g ≠ [] ∧ c.resume = none ∧ (tileFault demo c g { la with acct := 31 } [31] true).isSome = true ∧
      tileFault busy c g la [31] true = none ∧ tilesBusy busy g [31] = true ∧ tileFault demo c g la [31] true = none ∧ tilesBusy demo g [31] = false ∧
      ∃ b, demo.dev.block? 0 0 = some b ∧ cellsWf b.tiles = true ∧ cellsWf b.tileStat = true) ∧
    Issues demo (.mxBand 8) c g la ∧ g.leader c.on = some 0 ∧ Issues demo (.mxStat 4 31) c g la ∧ Issues demo (.mxDrain 4 8 31) c g la ∧
    Issues demo (.mxLd 4 8 31) c g la :=
  ⟨⟨⟨rfl, rfl, rfl, by decide⟩, rfl⟩, ⟨issues (by decide), by decide, rfl, by decide, by decide, by decide, by decide, by decide, _, rfl, by decide, by decide⟩,
    issues (by decide), by decide, issues (by decide), issues (by decide), issues (by decide)⟩

/-- All lanes held at slot 0 of packet 8 by a cuvée word or a self-test that may end, with 0 read from v8. -/
def gHeld (kind : HoldKind) : Group :=
  g.modLanes (countFrom 0 8) fun _ x => { x with hold := some ⟨kind, 7, .none, 0, 0, 0, true, [(8, 0)], 0, [], none⟩ }
def held (w : Word) (kind : HoldKind) (slots : List CuvSlot) : State :=
  { State.reset with dev := { demoDev (gHeld kind) c with launches := [fetchLaunch w], clusters := [⟨0, 0, [], [], 0, none, false, 0, slots, false⟩] } }

theorem witness_CuveesAndTests :
    (Issues (demoWith g cOff) (.cuvLoadBlk 8 1) cOff g la ∧ Issues (demoWith g cOff) (.cuvRd 4 0) cOff g la ∧ cOff.voters g = []) ∧
    (Issues demo (.cuvLoadPad 8 15) c g la ∧ Issues demo (.cuvLoadBlk 8 1) c g la ∧ g.leader c.on = some 0 ∧
      Issues demo (.cuvChk 4 15) c g la ∧ Issues demo (.cuvRd 4 0) c g la ∧ c.voters g ≠ []) ∧
    (demo.dev.group? k = some g ∧ demo.dev.cuveeDue g 0 = false) ∧
    (let s := held 0x3A002008 (.cuvee 0) []; let h := gHeld (.cuvee 0);
      s.dev.group? k = some h ∧ (∃ l, s.dev.launch? 0 = some l ∧ heldWord l (h.lane 0) = some (.cuvLoadBlk 8 1)) ∧ s.dev.cuveeDue h 0 = true ∧
        h.heldLeader (h.heldWith 0) = some 0) ∧
    (let s := held 0x3A080032 (.cuvee 0) [⟨6, [], .loaded, 0⟩]; let h := gHeld (.cuvee 0);
      s.dev.group? k = some h ∧ (∃ l, s.dev.launch? 0 = some l ∧ heldWord l (h.lane 0) = some (.cuvChk 4 6)) ∧ s.dev.cuveeDue h 0 = true ∧
        ((s.dev.clusterOf h).slot? 6).isSome = true) ∧
    (let s := held 0x3F002006 (.bist 0) []; let h := gHeld (.bist 0);
      s.dev.group? k = some h ∧ (∃ l, s.dev.launch? 0 = some l ∧ heldWord l (h.lane 0) = some (.bistRun 8)) ∧ h.heldLeader (h.heldWith 0) = some 0 ∧
        ∃ x, (h.lane 0).hold = some x ∧ x.kind = .bist 0) :=
  ⟨⟨⟨rfl, rfl, rfl, by decide⟩, ⟨rfl, rfl, rfl, by decide⟩, rfl⟩,
    ⟨issues (by decide), issues (by decide), by decide, issues (by decide), issues (by decide), by decide⟩, ⟨rfl, by decide⟩,
    ⟨rfl, ⟨_, rfl, by decide⟩, by decide, by decide⟩, ⟨rfl, ⟨_, rfl, by decide⟩, by decide, by decide⟩, ⟨rfl, ⟨_, rfl, by decide⟩, by decide, _, rfl, rfl⟩⟩
/-- An operation of the demonstration group, first in its log, and states in which it is in flight. -/
def op (kind : OpKind) (regs : List Nat) : EngineOp := newOp demo c g 0 kind regs 0 none .pad .pad none []
def flying (p : EngineOp) : State := { demo with dev := { demo.dev with ops := [p] } }
def flyingAll (ps : List EngineOp) : State := { demo with dev := { demo.dev with ops := ps } }

/-- The log of die 0 is full. -/
def fullLog : Dev := { demo.dev with ops := (countFrom 0 256).map fun n => { op .coll [] with id := n, index := n } }

theorem witness_EngineWords :
    (c.resume = none ∧ demo.dev.logIndex g.die = some 0 ∧ demo.dev.gateRoom (op .s2s [0, 64, 16, 0, 0, 0]).ranges = true) ∧
    (fullLog.logIndex g.die = none) ∧
    (Issues (demoWith g cOff) (.migPost 16) cOff g la ∧ cOff.voters g = []) ∧
    (Issues demo (.cpG2s 16 true) c g la ∧ Issues demo (.cpTS2g 16 false) c g la ∧ Issues demo (.cpS2s 16 true false) c g la ∧
      Issues demo (.gat 4 8 12 true 2) c g la ∧ Issues demo (.migPost 16) c g la ∧ g.leader c.on = some 0) :=
  ⟨⟨rfl, by decide, by decide⟩, by decide +kernel, ⟨⟨rfl, rfl, rfl, by decide⟩, rfl⟩,
    issues (by decide), issues (by decide), issues (by decide), issues (by decide), issues (by decide), by decide⟩

theorem witness_RemoteWords :
    (Issues (demoWith g cOff) (.collPost 16) cOff g la ∧ cOff.voters g = []) ∧
    (Issues demo (.rcpGet 16) c g la ∧ Issues demo (.rcpPut 16) c g la ∧ Issues demo (.ratom 16 2 .casB32) c g la ∧
      Issues demo (.collPost 16) c g la ∧ g.leader c.on = some 0 ∧ c.resume = none) ∧
    (∃ f, worstRange 0 ((0, readRange demo.dev la j 0 0 64 64) :: objChecks demo.dev la j 0 0) = none ∧
      readRange demo.dev la j 0 0 64 64 = .ok f ∧ g.storesDone c = true) ∧
    (∃ f, worstRange 0 ((32, readRange demo.dev la j 0 32 64 64) :: objChecks demo.dev la j 0 0) = some f) ∧
    (demo.dev.logIndex g.die = some 0 ∧ g.key = c.g) :=
  ⟨⟨⟨rfl, rfl, rfl, by decide⟩, rfl⟩, ⟨issues (by decide), issues (by decide), issues (by decide), issues (by decide), by decide, rfl⟩,
    ⟨_, by decide, rfl, by decide⟩, ⟨_, rfl⟩, by decide, rfl⟩

theorem witness_DieWords :
    (Issues demo (.qRd 7 2) c g la ∧ Issues demo (.qSub 5 1 0) c g la ∧ Issues demo (.qSt 1 8) c g la ∧
      Issues demo (.trcMark 8) c g la ∧ Issues demo (.locQPad 4 8) c g la ∧ Issues demo (.locQVa 4 8) c g la) ∧
    (Issues (demoWith g cOff) (.bistRd 4) cOff g la ∧ Issues (demoWith g cOff) (.launchDev 8) cOff g la ∧ cOff.voters g = []) ∧
    (Issues demo (.wpClr 8) c g la ∧ Issues demo (.wpSet 8) c g la ∧ Issues demo (.bistRd 4) c g la ∧ c.voters g ≠ [] ∧
      Issues demo (.bistRun 8) c g la ∧ Issues demo (.launchDev 8) c g la ∧ g.leader c.on = some 0 ∧ c.resume = none) :=
  ⟨⟨issues (by decide), issues (by decide), issues (by decide), issues (by decide), issues (by decide), issues (by decide)⟩,
    ⟨⟨rfl, rfl, rfl, by decide⟩, ⟨rfl, rfl, rfl, by decide⟩, rfl⟩,
    issues (by decide), issues (by decide), issues (by decide), by decide, issues (by decide), issues (by decide), by decide, rfl⟩

/-- An access of the demonstration group at the pad's first word, alone or behind another one. -/
def acc (n : Nat) (o : AccOp) : Access :=
  { id := n, seq := n, lane := 0, helper := false, gang := false, store := .pad, addr := 0, size := 4, vt := 0, acq := false, rel := false, scope := 0, op := o, loc := 0x80,
    timer := 0 }
def gAcc (xs : List Access) : Group := { g with acc := xs }
def ofAcc (xs : List Access) : State := demoWith (gAcc xs) c

theorem witness_AccessesPerformed :
    (let xs := [acc 0 (.store [1, 2, 3, 4]), acc 1 (.load .b32 [])];
      (ofAcc xs).dev.group? k = some (gAcc xs) ∧ (xs.find? fun x => decide (x.id = 1)) = some (acc 1 (.load .b32 [])) ∧
        (gAcc xs).mayPerform (acc 1 (.load .b32 [])) = false ∧ (acc 0 (.store [1, 2, 3, 4])).id < 1 ∧ (acc 1 (.load .b32 [])).taken = false ∧
        (acc 1 (.load .b32 [])).samePlace (acc 0 (.store [1, 2, 3, 4])) = true ∧
        (xs.find? fun x => decide (x.id = 0)) = some (acc 0 (.store [1, 2, 3, 4])) ∧ (gAcc xs).run ≠ .faulted ∧
        (gAcc xs).mayPerform (acc 0 (.store [1, 2, 3, 4])) = true) ∧
    (let xs := [acc 0 (.load .b32 [⟨0, .v 4, 0⟩])];
      (ofAcc xs).dev.group? k = some (gAcc xs) ∧ (ofAcc xs).dev.launch? 0 = some la ∧ (gAcc xs).mayPerform (acc 0 (.load .b32 [⟨0, .v 4, 0⟩])) = true ∧
        (gAcc xs).watch = [] ∧ (acc 0 (.load .b32 [⟨0, .v 4, 0⟩])).op.writes = false) ∧
    (let xs := [acc 0 (.loadVt 16383 true [])];
      (gAcc xs).mayPerform (acc 0 (.loadVt 16383 true [])) = true ∧ (ofAcc xs).vtOrphaned 0 (acc 0 (.loadVt 16383 true [])) = some 16383) ∧
    demo.dev.group? ⟨1, 0, 0⟩ = none := by decide

/-- A pass that was granted at die cycle 0: not started, or started then; die 0 stands at die cycle `now`. -/
def pass (start : Option Nat) : Pass := ⟨1, [busyEntry], 0, start, []⟩
def inPass (now : Nat) (ps : List Pass) (es : List Entry) : State :=
  { demo with dev := { demo.dev with cycles := cellSet [] 0 (BitVec.ofNat 64 now), clusters := [{ busyCluster with passes := ps, entries := es }] } }

theorem witness_MatrixPasses :
    (∃ e, granted [busyEntry, { busyEntry with id := 1, waited := 32 }] = some e) ∧
    (let s := inPass 0 [] [busyEntry]; let cl := s.dev.clusterNo 0;
      granted cl.entries = some busyEntry ∧ (∃ t, s.dev.freeFrom cl (s.dev.cycle cl.die) = some t ∧ t ≤ s.dev.cycle cl.die + 16) ∧ cl.lastGrant = none) ∧
    granted (demo.dev.clusterNo 0).entries = none ∧
    (let s := inPass 0 [pass none] []; ((s.dev.clusterNo 0).passes.find? fun p => p.start.isNone) = some (pass none) ∧
      (pass none).entries = busyEntry :: []) ∧
    ((demo.dev.clusterNo 0).passes.find? fun p => p.start.isNone) = none ∧
    (let s := inPass 23 [pass (some 0)] []; let cl := s.dev.clusterNo 0; cl.passes = [pass (some 0)] ∧ s.dev.cycle cl.die < 0 + 24) ∧
    (let s := inPass 24 [pass (some 0)] []; let cl := s.dev.clusterNo 0; cl.passes = [pass (some 0)] ∧ 0 + 24 ≤ s.dev.cycle cl.die) ∧
    (demo.dev.clusterNo 0).passes = [] ∧ (7 < 8 ∧ 63 < 64) := by
  refine ⟨⟨_, rfl⟩, ⟨by decide, ⟨_, rfl, by decide⟩, rfl⟩, by decide, by decide, by decide, by decide, by decide, by decide, by decide⟩

/-- A copy of 16 bytes on the chip, before its page and after it. -/
def copy : EngineOp := op .s2s [0, 64, 16, 0, 0, 0]

theorem witness_CopyCommits :
    (demo.dev.op? 0 = none) ∧
    (let s := flying copy;
      s.dev.op? 0 = some copy ∧ s.dev.job? copy.job = some j ∧ copy.kind.isCopy = true ∧ copy.held = none ∧ s.dev.opWaits copy = false ∧
        s.dev.dumpHolds copy.job = false ∧ copy.pages.drop copy.done = 0 :: [] ∧ ({ copy with done := 1 } : EngineOp).pages.drop 1 = []) ∧
    (copy.kind = .s2s ∧ (64, 0) ∈ (pageWork (flying copy) copy j 0).chip) ∧ copy.object = none ∧
    ∃ o, ({ copy with object := some ⟨.blk 0 0, 0⟩ } : EngineOp).object = some o ∧ o.store ≠ .pad :=
  ⟨by decide, by decide, ⟨rfl, by decide +kernel⟩, rfl, _, rfl, by decide⟩

theorem witness_GathersAndMigrations :
    demo.dev.op? 0 = none ∧
    (let s := flying (op (.gat 8) []);
      s.dev.op? 0 = some (op (.gat 8) []) ∧ s.dev.job? 1 = some j ∧ (op (.gat 8) []).job = 1 ∧ (op (.gat 8) []).held = none ∧
        s.dev.opWaits (op (.gat 8) []) = false ∧ s.dev.dumpHolds 1 = false) ∧
    (let s := flying (op .mig [0, 0, 1, 0, 0, 0]);
      s.dev.op? 0 = some (op .mig [0, 0, 1, 0, 0, 0]) ∧ (op .mig [0, 0, 1, 0, 0, 0]).held = none ∧ s.dev.dumpHolds 1 = false) := by decide

/-- A vintage whose merge has its turn, and a staged write of its launch. -/
def vint : Vintage := ⟨16383, 0, 1, 0, 0, true, some k, 0, false, 0, []⟩
def merging : State := { demo with dev := { demo.dev with vintages := [vint] } }
def write : Staged := ⟨0, 0, 0, 0, k, 0x80, 0, 0, 0, [(0, 0, [1])]⟩
def staging : State := { demo with dev := { demo.dev with staged := [write] } }

theorem witness_WeirAndMerges :
    merging.dev.vintage? 1 = none ∧
    (merging.dev.vintage? 16383 = some vint ∧ vint.closing = some k ∧ merging.dev.launch? vint.launch = some la ∧ vint.live = true ∧ vint.failed = false ∧
      (merging.dev.cursor vint.launch vint.parent).1 = vint.ordinal ∧ merging.dev.mergeGated vint = false ∧ (merging.dev.jobOf la).ending = none ∧
      merging.dev.group? k = some g ∧ merging.mergeEarly vint k = false) ∧
    (lowestAt [((3 : Nat), (0 : Nat))]).isSome = true ∧ (demo.dev.launch? 1 = none) ∧
    (staging.dev.launch? 0 = some la ∧ ((staging.dev.staged.filter fun w => decide (w.launch = 0)).find? fun w =>
      (staging.dev.staged.filter fun w => decide (w.launch = 0)).all fun x => !keyLt x.key w.key) = some write) := by decide

/-- Lane 0 held under a watchdog that has counted `t` ns, and the state of that group. -/
def gDog (kind : HoldKind) (dog : Watchdog) (t : Nat) : Group :=
  gLane 0 fun x => { x with hold := some ⟨kind, 7, dog, t, 0, 0, true, [], 0, [], none⟩ }
def dogged (kind : HoldKind) (dog : Watchdog) (t : Nat) : State := demoWith (gDog kind dog t) c

theorem witness_Watchdogs :
    (demo.dev.group? k = some g ∧ demo.dev.barWatch g la 0 = none) ∧
    (∀ t ∈ [99999999, 100000000], (dogged (.barrier 15) (.bar 15 0) t).dev.group? k = some (gDog (.barrier 15) (.bar 15 0) t) ∧
      (dogged (.barrier 15) (.bar 15 0) t).dev.launch? k.launch = some la ∧
      ((dogged (.barrier 15) (.bar 15 0) t).dev.barWatch (gDog (.barrier 15) (.bar 15 0) t) la 0).map (fun w => (w.timer, w.bar, w.since)) = some (t, 15, 0)) ∧
    (let h := { g with run := .faulted }; (demoWith h c).dev.group? k = some h ∧ (h.counts = false ∨ h.run = .faulted)) ∧
    (let h := gDog .retry (.vt 4 7) 100000000;
      (dogged .retry (.vt 4 7) 100000000).dev.group? k = some h ∧ h.counts = true ∧ h.run ≠ .faulted ∧ (h.lane 0).hold.map Hold.dog = some (.vt 4 7)) ∧
    (let a := acc 0 (.loadVt 16383 true []);
      (ofAcc [a]).dev.group? k = some (gAcc [a]) ∧ (ofAcc [a]).dev.launch? k.launch = some la ∧ (gAcc [a]).counts = true ∧ (gAcc [a]).run ≠ .faulted ∧
        ((gAcc [a]).acc.find? fun x => decide (x.id = 0)) = some a ∧ a.op = .loadVt 16383 true []) ∧
    ((flying copy).dev.op? 0 = some copy ∧ copy.kind ≠ .coll) ∧
    (let p := op .coll []; (flying p).dev.op? 0 = some p ∧ (flying p).dev.launch? p.launch = some la ∧ p.kind = .coll) ∧
    demo.dev.op? 0 = none := by decide

theorem witness_Expiries :
    (let h := gDog (.wait 5) .none 0; (dogged (.wait 5) .none 0).dev.group? k = some h ∧ ((h.lane 0).hold.map Hold.kind = some (.wait 5)) ∧ h.isLive 0 = true) ∧
    (let h := gDog (.waitAddr true 0 3 4000) .none 0;
      (dogged (.waitAddr true 0 3 4000) .none 0).dev.group? k = some h ∧ ((h.lane 0).hold.map Hold.kind = some (.waitAddr true 0 3 4000)) ∧ h.isLive 0 = true) ∧
    (demo.dev.launch? 0 = some la ∧ demo.dev.block? 0 0 = some (newBlock la 0 0 0)) ∧ 8 ≤ 8 ∧ (7 < 8 ∧ cellsWf demo.dev.regs.err = true) := by decide

/-- The launch before its block is placed, and the queue of its record with a slot. -/
def queue : Queue := { newQueue ([1, 0, 0, 0] ++ List.replicate 60 0) 0 with ring := 0, rsize := 16, csize := 16, tail := 1, head := 0, slot := some 63 }
def launchIn (l : Launch) (bs : List Block) (gs : List Group) : State :=
  { State.reset with dev := { Dev.reset with launches := [l], jobs := [j], queues := [queue], blocks := bs, groups := gs } }
def fresh : State := launchIn { la with fresh := 0 } [] []

theorem witness_Placement :
    demo.dev.launch? 1 = none ∧ (demo.dev.launch? 0 = some la ∧ demo.dev.nextGang la = none) ∧
    (fresh.dev.launch? 0 = some { la with fresh := 0 } ∧ fresh.dev.nextGang { la with fresh := 0 } = some 0 ∧ fresh.dev.mayPlace { la with fresh := 0 } = true) ∧
    (fresh.dev.block? 0 0 = none ∧ 2 ^ 32 - 1 < 2 ^ 32) ∧ la.width < 4 ∧ 7 < g.width := by decide

theorem witness_Placement_inv : fresh.Inv := ⟨rfl, rfl, rfl, rfl, rfl⟩

/-- The block halts, drained; or saved, at the head of its queue; or saved with all of a persistent launch. -/
def haltingBlock : Block := { newBlock la 0 0 0 with residency := .halting, requeue := true }
def savedBlock : Block := { newBlock la 0 0 0 with residency := .saved, requeue := true, cluster := none }
def laSaved : Launch := { la with fresh := 1, back := [0] }
def laPersistent : Launch := { la with persistent := true }

theorem witness_Preemption :
    demo.dev.launch? 1 = none ∧
    (demo.dev.launch? 0 = some la ∧ demo.dev.job? la.job = some j ∧ j.ending = none ∧
      (∃ x ∈ demo.dev.blocks, x.launch = la.tag ∧ x.index ∈ la.gangBlocks (la.unit 0) ∧ x.residency = .resident) ∧ ∀ h ∈ demo.dev.groups, h.run ≠ .dumped) ∧
    (let s := launchIn la [] []; s.dev.launch? 0 = some la ∧ s.dev.blocks = []) ∧
    (let s := launchIn la [haltingBlock] [{ g with run := .halting }];
      s.dev.launch? 0 = some la ∧ s.dev.job? la.job = some j ∧ s.dev.unended 0 (la.gangBlocks (la.unit 0)) = [haltingBlock] ∧
        haltingBlock.residency = .halting ∧ 0 ∈ la.gangBlocks (la.unit 0) ∧ ∀ h ∈ s.dev.groupsOf 0 (la.gangBlocks (la.unit 0)), s.drained h = true) ∧
    (demo.dev.launch? 0 = some la ∧ demo.dev.mayPlace la = false) ∧
    (let s := launchIn laSaved [savedBlock] [{ g with place := none }];
      s.dev.launch? 0 = some laSaved ∧ s.dev.mayPlace laSaved = true ∧ laSaved.persistent = false ∧ s.dev.nextGang laSaved = some 0 ∧
        s.dev.block? 0 0 = some savedBlock) ∧
    (let s := launchIn laPersistent [savedBlock] [{ g with place := none }];
      s.dev.launch? 0 = some laPersistent ∧ s.dev.mayPlace laPersistent = true ∧ laPersistent.persistent = true) := by decide

/-- The job with a fault record, ending, and closing. -/
def record : FaultRec := ⟨List.replicate 64 5, 3, 0⟩
def jEnding : Job := { j with ending := some 0, code := 3, records := [record] }
def jobIn (x : Job) : State := { State.reset with dev := { Dev.reset with jobs := [x] } }

theorem witness_JobEnds :
    demo.dev.job? 2 = none ∧ (demo.dev.job? 1 = some j ∧ j.ending = none ∧ j.records = []) ∧
    ((jobIn jEnding).dev.job? 1 = some jEnding ∧ jEnding.ending ≠ none ∧ jEnding.closing = false ∧ jEnding.id = 1) ∧
    (let x := { jEnding with closing := true }; (jobIn x).dev.job? 1 = some x ∧ x.ending ≠ none ∧ x.closing = true) ∧
    queue.num ≠ devQueue ∧
    (31 < 32 ∧ cellsWf (cellSet [] 31 (BitVec.ofNat 64 (2 ^ 32 + 1)) : Cells 64) = true ∧
      (cellGet (cellSet [] 31 (BitVec.ofNat 64 (2 ^ 32 + 1)) : Cells 64) 31).toNat / 2 ^ 32 = 1) ∧
    nextRecord [record, { record with time := 2 }] = some ({ record with time := 2 }, [record]) ∧
    nextRecord jEnding.records = some (record, []) ∧
    ((jobIn jEnding).host.wf = true ∧ record.data.length = 64 ∧ record.data[63]? = some 5) := by decide

/-- The device queue of the job with one child, whose record is of the given KIND. -/
def child (kind : Byte) : Child := ⟨1, kind :: List.replicate 63 0, 0, 0, none, []⟩
def devQ (kind : Byte) : Queue := { queue with num := devQueue, children := [child kind] }
def startable (kind : Byte) : State := { State.reset with dev := { Dev.reset with jobs := [j], queues := [devQ kind] } }
def childRec (kind : Byte) : NextRec := ⟨(child kind).raw, 0, devQueue * 2 ^ 48 + 1, 1, some (child kind)⟩
/-- The first record of a queue. -/
def firstRec : NextRec := ⟨4 :: List.replicate 63 0, 0, 1, 1, none⟩

theorem witness_RecordsStart :
    demo.dev.job? 2 = none ∧
    (∀ kind ∈ [0, 1, 2, 3, 4, 5, 255], (startable kind).dev.job? 1 = some j ∧ (startable kind).dev.queue? 1 devQueue = some (devQ kind) ∧ j.ending = none ∧
      (devQ kind).slot ≠ none ∧ (startable kind).dev.dumpHolds 1 = false ∧ (startable kind).nextRec j (devQ kind) = some (childRec kind) ∧
      (childRec kind).turn (devQ kind) = true ∧ fieldAt (childRec kind).raw 0 1 = kind.toNat) ∧
    (firstRec.turn queue = true ∧ firstRec.child = none) ∧
    (badField [(1, false), (8, true)] = some 8) ∧
    (demo.dev.job? 1 = some j ∧ j.ending = none ∧ j.recordsMade < 16) ∧
    (fresh.dev.queue? queue.job queue.num = some queue) := by decide

theorem witness_LaunchesStart :
    (let s := startable 1;
      s.dev.job? 1 = some j ∧ s.dev.queue? 1 devQueue = some (devQ 1) ∧ j.ending = none ∧ (devQ 1).slot ≠ none ∧ s.dev.dumpHolds 1 = false ∧
        s.nextRec j (devQ 1) = some (childRec 1) ∧ (childRec 1).turn (devQ 1) = true ∧ fieldAt (childRec 1).raw 0 1 = 1) ∧
    (Dev.reset.nextTag = some 0) ∧ (demo.dev.nextTag = some 1) ∧
    (la.persistent = false ∧ firstRec.child = none ∧ State.reset.dev.launch? la.tag = none) := by decide

/-- The launch is over; its queue has an entry due, or a started record. -/
def laOver : Launch := { la with ended := 1 }
def laChild : Launch := { laOver with origin := .child 7 none }
def dueQueue : Queue := { queue with due := [⟨1, 0, 0, []⟩], started := [⟨1, 3 :: List.replicate 63 0⟩], slot := none }
def queues (qs : List Queue) : State := { State.reset with dev := { Dev.reset with jobs := [j], queues := qs } }

theorem witness_RecordsAndSlots :
    (demo.dev.launch? 1 = none ∧ demo.dev.launch? 0 = some la ∧ demo.dev.launchOver la = false) ∧
    (∀ l ∈ [laOver, laChild], (launchIn l [] []).dev.launch? 0 = some l ∧ (launchIn l [] []).dev.job? 1 = some j ∧ j.ending = none ∧
      (launchIn l [] []).dev.launchOver l = true) ∧
    (laOver.origin = .queue 1 0 1 ∧ laChild.origin = .child 7 none) ∧
    (demo.dev.queue? 1 0 = none ∧ fresh.dev.queue? 1 0 = some queue ∧ queue.started = [] ∧ queue.due = []) ∧
    (let s := queues [dueQueue];
      s.dev.job? 1 = some j ∧ s.dev.queue? 1 0 = some dueQueue ∧ (dueQueue.started.find? fun e => decide (e.seq = 1)) = some ⟨1, 3 :: List.replicate 63 0⟩ ∧
        dueQueue.due = [⟨1, 0, 0, []⟩] ∧ s.dev.slotNext = some dueQueue) ∧
    (∀ d ∈ [[], List.replicate 64 (0 : Byte)], d = [] ∨ d.length = 64) ∧
    Dev.reset.slotFree = some 0 ∧ Dev.reset.slotNext = none ∧
    (let s := queues [queue, { dueQueue with num := 1 }];
      (s.dev.queues.find? fun q => decide (q.slot = some 63)) = some queue ∧ s.dev.slotNext = some { dueQueue with num := 1 }) := by decide

/-- Host memory with the four bytes of a job's number. -/
def jobAt (a : Nat) : State := { demo with host := [(a, 1)] }

theorem witness_JobAndQueueRegisters :
    (State.reset.dev.job? (fieldAt (bytesAt State.reset.host (0 : Dword).toNat 128) 0 4) = none) ∧
    ((jobAt 4096).dev.job? (fieldAt (bytesAt (jobAt 4096).host (4096 : Dword).toNat 128) 0 4) = some j) ∧
    State.reset.pad.wf = true ∧ demo.dev.job? 2 = none ∧ demo.dev.job? 1 = some j ∧
    (demo.dev.queue? 1 0 = none ∧ (0 : Nat) ≠ devQueue ∧ fresh.dev.queue? 1 0 = some queue ∧ queue.removed = false) := by decide

/-- Two reports of die 0, the earlier one second; a job that owns them. -/
def report (t : Nat) : WatchReport := ⟨1, 0, 0x38 :: List.replicate 63 0, t, t + 1000⟩
def reporting (debugged : Bool) : State :=
  { demo with dev := { demo.dev with reports := [report 9, report 3], regs := { demo.dev.regs with dbgJob := if debugged then 1 else 0 } } }

theorem witness_FaultControlAndReports :
    ((∀ p ∈ demo.dev.ops, p.held ≠ none → p.die = 0 → p.job = 1 → false = false ∧ p.index ≠ 0) ∧ demo.dev.heldReqs = []) ∧
    ((reporting false).dev.reports[2]? = none ∧ (reporting false).dev.reports[0]? = some (report 9) ∧ report 3 ∈ (reporting false).dev.reports ∧
      (report 3).die = (report 9).die ∧ (report 3).time < (report 9).time) ∧
    (∀ b ∈ [false, true], (reporting b).dev.reports[1]? = some (report 3) ∧ (∀ x ∈ (reporting b).dev.reports, (report 3).time ≤ x.time) ∧
      (reporting b).dev.job? (report 3).job = some j ∧ j.recordsMade < 16 ∧ j.ending = none ∧ j.deleted = false ∧
      (b = true ↔ (report 3).job = (reporting b).dev.regs.dbgJob.toNat)) := by decide

theorem witness_TrustAndHealth :
    State.reset.dev.trust.signing = none ∧
    (let s := { State.reset with dev := { Dev.reset with trust := { Trust.reset with signing := some 5 } } }; s.dev.trust.signing = some 5) ∧
    (∃ t : Trust, t.mr0.length = 64 ∧ t.mr1.length = 64 ∧ t.mr2.length = 64) ∧
    (8 ≤ 8 ∧ ∃ b ∈ demo.dev.blocks, b.placed = true ∧ b.cluster.map Prod.fst = some 0) ∧
    (7 < 8 ∧ (∀ b ∈ demo.dev.blocks, b.placed = true → b.cluster.map Prod.fst ≠ some 7) ∧ cellsWf demo.dev.regs.margin = true) :=
  ⟨rfl, rfl, ⟨⟨zero64, zero64, zero64, true, none, [], []⟩, by decide, by decide, by decide⟩, by decide, by decide⟩

/-- A dump of job 1 before its cut and after it, with the group on its way or halted. -/
def dump (cut : Option Nat) : Dump := ⟨65535, 1, 0, cut, [], [], [], false, 0, 0, false⟩
def dumping (x : Dump) (r : Run) : State := { demo with dev := { demo.dev with dump := some x, groups := [{ g with run := r }] } }

theorem witness_Dumps :
    (dumping (dump none) .running).dev.dump ≠ none ∧ demo.dev.dump = none ∧
    ((dumping (dump none) .running).dev.dump = some (dump none) ∧ (dump none).cut = none ∧
      ∃ e ∈ (dumping (dump none) .running).dev.dumpGroups 1, e.1.onWay = true) ∧
    ((dumping (dump none) .dumped).dev.dump = some (dump none) ∧ ∀ e ∈ (dumping (dump none) .dumped).dev.dumpGroups 1, e.1.onWay = false) ∧
    ((dumping (dump (some 9)) .dumped).dev.dump = some (dump (some 9)) ∧ (dump (some 9)).cut ≠ none ∧ (dump (some 9)).complete = false) ∧
    (65535 < 2 ^ 16 ∧ 2 ^ 32 - 1 < 2 ^ 32) := by decide

/-- A debugger is attached to job 1; its group runs, has stopped past a `brk`, or is saved for it. -/
def debugging (h : Group) (b : Block) : State :=
  { demo with dev := { demo.dev with groups := [h], blocks := [b], regs := { demo.dev.regs with dbgJob := 1 } } }
def gBrk : Group := { g with run := .stopped, pastBrk := some 0x80 }
def gSaved : Group := { g with run := .halting, place := none, was := some ⟨0, 0, 0⟩ }
def heldBlock : Block := { savedBlock with byDebugger := true, requeue := false }

theorem witness_Debugger :
    (demo.dev.regs.dbgJob = 0 ∧ demo.dev.identGroup 0 = none) ∧
    ((debugging g (newBlock la 0 0 0)).dev.identGroup 0 = some (g, la) ∧ (debugging gBrk (newBlock la 0 0 0)).dev.identGroup 0 = some (gBrk, la)) ∧
    (let d := (debugging gBrk (newBlock la 0 0 0)).dev;
      d.group? gBrk.key = some gBrk ∧ (∀ b, d.block? 0 0 = some b → b.residency ≠ .halting) ∧ gBrk.pastBrk = some 0x80 ∧ 7 < gBrk.lanes.length ∧
        (gBrk.lane 7).mode ≠ .free ∧ (gBrk.lane 7).hold = none) ∧
    g.pastBrk = none ∧
    (let s := debugging gBrk (newBlock la 0 0 0); (s.dev.groups.map Group.key).Nodup ∧ s.dev.regs.dbgJob ≠ 0) ∧
    (let s := debugging gSaved heldBlock;
      s.dev.regs.dbgJob ≠ 0 ∧
      ((s.dev.dumpGroups s.dev.regs.dbgJob.toNat).find? fun e =>
        decide (identOf { e.1 with place := if e.1.place.isSome then e.1.place else e.1.was } = (0 : BitVec 16).toNat) && (e.1.place.isSome || e.1.was.isSome) &&
          match s.dev.block? e.1.key.launch e.1.key.block with | some b => b.byDebugger | none => false) = some (gSaved, la) ∧
      s.dev.block? la.tag gSaved.key.block = some heldBlock ∧ heldBlock.residency = .saved ∧ la.persistent = false ∧ la.gang ≤ 1 ∧
      ∀ x ∈ s.dev.blocks, x.launch = la.tag → x.index = gSaved.key.block → x = heldBlock) := by
  refine ⟨by decide, by decide, ?_, rfl, by decide, by decide⟩
  refine ⟨by decide, fun b h => ?_, by decide, by decide, by decide, by decide⟩
  cases h; decide

theorem witness_RegisterWrites :
    (2 ^ 64 - 1 < 2 ^ 64 ∧ 8 % 8 = 0 ∧ 12 % 8 = 4) ∧ 7 < 8 ∧ 16383 < 16384 ∧ (∀ off ∈ [0x800028, 0x8000F8, 0x802018, 0xFFFFF8], off % 8 = 0) ∧
    (11 < 12 ∧ 3 < 4 ∧ cellsWf demo.dev.regs.pools = true) ∧ (1 ≤ 63 ∧ 63 < 64 ∧ 2 < 3 ∧ cellsWf demo.dev.regs.vf = true) ∧
    (31 < 32 ∧ cellsWf demo.dev.regs.wpctl = true ∧ cellsWf demo.dev.regs.wpaddr = true) ∧ (17 < 18 ∧ cellsWf demo.dev.regs.link = true) ∧
    (cellsWf demo.dev.regs.err = true) := by decide

theorem witness_RegisterReadsAndWindow :
    ((2 ^ 24 + 2 ^ 26 - 8) % 8 = 0 ∧ 2 ^ 24 + 2 ^ 26 - 8 < 2 ^ 24 + 2 ^ 26 ∧ 4 % 8 ≠ 0) ∧
    (let d := { demo.dev with regs := { demo.dev.regs with obssel := 1 } }; d.job? d.regs.obssel.toNat = some j) ∧
    (let d := { Dev.reset with ended := [⟨0, 0xFE⟩] }; d.job? d.regs.obssel.toNat = none ∧
      (d.ended.find? fun e => decide (e.id = d.regs.obssel.toNat)) = some ⟨0, 0xFE⟩) ∧
    (5 < 6 ∧ 2 < 3 ∧ 3 < 4 ∧ 24 < 25 ∧ 16383 < 16384) ∧
    (let q := { queue with page := 16383 }; ([q].find? fun q => decide (q.num ≠ devQueue) && decide (q.page = 16383)) = some q) ∧
    2 ^ 36 ≤ 2 ^ 36 ∧
    (demo.main.wf = true ∧ 2 ^ 36 - 8 < 2 ^ 36 ∧ 8 ∈ [1, 2, 4, 8] ∧ (2 ^ 36 - 8) % 8 = 0 ∧ populated (demo.dev.regs.hwin.toNat + (2 ^ 36 - 8)) = true) ∧
    (let s := { State.reset with dev := { Dev.reset with regs := { Regs.reset with hwin := 0x3000000000000 } } }; 3 * 2 ^ 48 ≤ s.dev.regs.hwin.toNat + 0) := by
  decide

/-- A flit on its way out; a link whose retry buffer holds it. -/
def flit : OutFlit := ⟨4095, 1, 0, .holdNotice, [], 15⟩

theorem witness_LinkEvents :
    (∃ l : Link, l.retry = [flit] ∧ (∀ f ∈ l.retry, f.seq ≠ 0) ∧ l.retry = [] ++ flit :: [] ∧ flit.seq = 4095) ∧
    (cellsWf Regs.reset.link = true ∧ 60 + 4 ≤ 64 ∧ 1 ≤ 4 ∧ 1 ≤ 1) ∧
    (cellsWf demo.dev.regs.link = true ∧ (∀ p ∈ demo.dev.ops, p.link ≠ some 17 ∧ 17 ∉ p.links) ∧ demo.dev.dump = none) :=
  ⟨⟨⟨17, 0, 0, 0, [flit], [], 0, 0, [0, 0, 0, 0], [], false, none⟩, rfl, by decide, rfl, rfl⟩, by decide, by decide⟩

/-- Remote operations of the demonstration group to its own package. -/
def remote (k : OpKind) : EngineOp := { op k [0, 0, 0, 0, 16, 0] with link := none }

theorem witness_RemoteRequests :
    (State.reset.dev.job? 1 = none ∧ (jobIn jEnding).dev.job? 1 = some jEnding ∧ jEnding.ending ≠ none) ∧
    (demo.dev.job? 1 = some j ∧ j.ending = none) ∧
    (∃ r : RemoteReq, ∃ o a b, r.kind = .atom .casB32 o a b) ∧
    demo.dev.op? 0 = none ∧
    (∀ kd ∈ [OpKind.put, .get, .ratom .casB32 2], (flying (remote kd)).dev.op? 0 = some (remote kd) ∧ (remote kd).kind = kd ∧ kd.isRemote = true ∧
      (remote kd).held = none ∧ (flying (remote kd)).dev.opWaits (remote kd) = false ∧ (flying (remote kd)).dev.remoteWaits (remote kd) = false ∧
      (flying (remote kd)).dev.dumpHolds (remote kd).job = false) ∧
    (∃ x, (remote .put).remotePages.drop (remote .put).done = x :: []) :=
  ⟨by decide, by decide, ⟨⟨17, 0, 1, true, 0, .atom .casB32 2 1 2⟩, _, _, _, rfl⟩, by decide, by decide, ⟨_, rfl⟩⟩

/-- A collective of one member: an all-gather of two elements, or a reduction of one in FP32. -/
def coll (kind count : Nat) : EngineOp := { op .coll [] with regs := List.replicate 8 0 ++ [kind, 0, 0, 1, 0, 0, count, 0, 0, 0, 0, 0] }

theorem witness_Collectives :
    demo.dev.op? 0 = none ∧ ((flying (coll 1 2)).dev.op? 0 = some (coll 1 2) ∧ (flying (coll 1 2)).dev.job? (coll 1 2).job = some j) ∧
    ((coll 1 2).desc 0 = 1 ∧ 0 < (coll 1 2).desc 3 ∧ 1 < (coll 1 2).desc 6) ∧ (3 ≤ (coll 3 2).desc 0 ∧ 1 < (coll 3 2).desc 6) ∧
    (∀ x ∈ [0, 2], (coll x 1).desc 0 = x ∧ 0 < (coll x 1).desc 6) ∧ (0 : Nat) ≠ 7 := by decide

/-- The machine after reset with one move, with its power, and with an image that passed its check or not. -/
def moving (m : Move) (power good : Bool) : State :=
  { State.reset with dev := { Dev.reset with moves := [m], power := power, trust := { Trust.reset with good := good } } }
/-- The demonstration group's next word, its code being the given word; or the word of its held lane. -/
def wording (w : Word) (h : Group) : State :=
  { State.reset with dev := { Dev.reset with launches := [fetchLaunch w], jobs := [j], blocks := [newBlock la 0 0 0], groups := [h], moves := [.word k 0] } }
def gRetry : Group := gLane 0 fun x => { x with hold := some ⟨.retry, 7, .none, 0, 0, 0, true, [], 0, [], none⟩ }
/-- The group at packet 9, which is none of its code. -/
def gAway : Group := g.modLanes (countFrom 0 8) fun _ x => { x with pc := 0x90 }

theorem witness_MachineGoesOn :
    (∃ s : State, s.dev.trust.good = true) ∧ (∃ s : State, s.dev.trust.good = false) ∧
    (let s := moving (.input (.event .slotGrant)) true true;
      s.dev.moves = .input (.event .slotGrant) :: [] ∧ s.dev.power = true ∧ s.dev.trust.good = true) ∧
    State.reset.dev.moves = [] ∧
    (let s := moving (.input (.event .slotGrant)) false true; s.dev.power = false ∧ Instr.slotGrant ≠ .packageReset) ∧
    (let s := moving (.input (.event .slotGrant)) true false;
      s.dev.trust.good = false ∧ Instr.slotGrant ≠ .packageReset ∧ Instr.slotGrant ≠ .packagePowerDown ∧ ∀ good, Instr.slotGrant ≠ .recoveryLoad good) ∧
    (let s := wording 0x08081018 gRetry; let la' := fetchLaunch 0x08081018;
      s.dev.moves = .word k 0 :: [] ∧ s.dev.group? k = some gRetry ∧ s.dev.launch? k.launch = some la' ∧ gRetry.mayIssue = true ∧ gRetry.isLive 0 = true ∧
        (gRetry.lane 0).hold.isSome = true ∧ (heldWord la' (gRetry.lane 0)).isSome = true) ∧
    (let s := wording 0x08081018 { g with nextIssue := 1 }; let h := { g with nextIssue := 1 }; let la' := fetchLaunch 0x08081018;
      s.dev.group? k = some h ∧ h.mayIssue = true ∧ h.isLive 0 = true ∧ (h.lane 0).hold = none ∧
        ((s.withDev fun d => { d with moves := [] }).batchWaits h la' 0).isSome = true) ∧
    (let s := wording 0x08081018 gAway; let la' := fetchLaunch 0x08081018;
      s.dev.group? k = some gAway ∧ gAway.mayIssue = true ∧ gAway.isLive 0 = true ∧ (gAway.lane 0).hold = none ∧
        ((s.withDev fun d => { d with moves := [] }).batchWaits gAway la' 0).isNone = true ∧ (packetMisfit la' (gAway.lane 0).pc).isSome = true) :=
  ⟨⟨moving (.endCycle 0) true true, rfl⟩, ⟨moving (.endCycle 0) true false, rfl⟩, ⟨rfl, rfl, rfl⟩, rfl, ⟨rfl, by simp⟩, ⟨rfl, by simp, by simp, by simp⟩,
    by decide, by decide, by decide⟩

theorem witness_MemoriesStayCanonical : State.reset.Inv ∧ (moving (.endCycle 0) false true).Inv ∧ ∃ t, step (moving (.endCycle 0) false true) = .next t :=
  ⟨⟨rfl, rfl, rfl, rfl, rfl⟩, ⟨rfl, rfl, rfl, rfl, rfl⟩, _, rfl⟩

/-- The word placed at reset issues first, alone, and decodes. -/
theorem witness_StepRunsWord :
    let s := State.reset.withFetchWord 32 0x08081018
    ∃ g la u, s.dev.moves = .word k 0 :: [] ∧
      let s0 := s.withDev fun d => { d with moves := [] }
      s0.dev.group? k = some g ∧ s0.dev.launch? k.launch = some la ∧ g.mayIssue = true ∧ g.isLive 0 = true ∧ (g.lane 0).hold = none ∧
      s0.batchWaits g la 0 = none ∧ packetMisfit la (g.lane 0).pc = none ∧ s0.dev.stopsAt g la (g.lane 0).pc [u] = false ∧ chainMisfit [u] = none ∧
      la.nextWords (g.lane 0).pc = [u] ∧ decode (la.wordAt (g.lane 0).pc) = .ok (.add false 4 4 3) ∧ pcSlot (g.lane 0).pc < 3 ∧
      chainBit (la.wordAt (g.lane 0).pc) = false :=
  ⟨g, fetchLaunch 0x08081018, slotted (fetchLaunch 0x08081018) 0x80 0, rfl, rfl, rfl, rfl, rfl, rfl, by decide, by decide, by decide, by decide, rfl, rfl, by decide,
    rfl⟩

theorem witness_Arbiter :
    (let s := moving (.opportunity 0 0) true true; s.dev.moves = .opportunity 0 0 :: [] ∧ s.candidates 0 0 = []) ∧
    ∃ x, (wording 0x08081018 g).candidates 0 0 = [x] := ⟨⟨rfl, rfl⟩, _, rfl⟩

/-- A word's fault for each of the checks that all words share: a destination run that is not aligned, an extended register that is not held, a
divergence register; and an `add` whose operands are all in order. -/
theorem witness_ChecksAndFaults :
    (Instr.addB64 false 5 8 12).isWord = true ∧
    (commonFault demo.dev g la c (.addB64 false 5 8 12) 2).isSome = true ∧ (Instr.addB64 false 5 8 12).fieldFault.isSome = true ∧
    ((Instr.add false 64 8 12).fieldFault = none ∧ demo.dev.holdsX g = false ∧ (extendedField (Instr.add false 64 8 12).operands).isSome = true) ∧
    ((Instr.add false 31 8 12).fieldFault = none ∧ extendedField (Instr.add false 31 8 12).operands = none ∧
      (divRegField la.divDepth (Instr.add false 31 8 12).operands).isSome = true) ∧
    (g.sbchk = false ∧ g.uchk = false) ∧ (2 < 3 ∧ 3 < 4 ∧ 15 < 16) ∧ State.reset.dev.cur = none ∧
    (demo.dev.group? k = some g ∧ demo.dev.launch? k.launch = some la ∧ demo.dev.job? la.job = some j ∧ j.ending = none ∧ j.recordsMade + 2 ≤ 16) ∧
    ((jobIn jEnding).dev.job? 1 = some jEnding ∧ jEnding.ending ≠ none) ∧ ({ code := .brk } : FaultInfo).second = none ∧ 7 < g.lanes.length := by decide

/-- Two results on their way to v63 of lane 7. -/
def gTwo : Group := { g with pend := [⟨7, .v 63, 1, 2⟩, ⟨7, .v 63, 2, 10⟩] }
def landing (h : Group) : Dev := { Dev.reset with groups := [h] }

theorem witness_ResultsLand :
    ((landing gTwo).group? k = some gTwo ∧ 7 < gTwo.lanes.length ∧ cellsWf (gTwo.lane 7).v = true ∧
      (∃ p ∈ gTwo.pend, p.lane = 7 ∧ p.dst = .v 63 ∧ p.land ≤ 2 ∧ ∀ q ∈ gTwo.pend, q.lane = 7 → q.dst = .v 63 → q.land ≤ 2 → q.val = p.val) ∧
      ∀ p ∈ gTwo.pend, p.lane = 7 → p.dst = .v 63 → 1 < p.land) ∧
    (∃ p ∈ gTwo.pend, ∃ q ∈ gTwo.pend, p.lane = 7 ∧ q.lane = 7 ∧ p.dst = .v 63 ∧ q.dst = .v 63 ∧ p.land ≤ 2 ∧ 2 < q.land ∧ q.land ≤ 10 ∧
      ∀ x ∈ gTwo.pend, x.lane = 7 → x.dst = .v 63 → x = p ∨ x = q) := by decide

theorem witness_ResultsLand_wf : (landing gOne).group? k = some gOne ∧ gOne.Wf := ⟨rfl, gOne_wf⟩

theorem witness_EncodingRoundTrip : (Instr.wpClr 127).isWord = true ∧ (Instr.packageReset).isWord = false := by decide

theorem witness_WordsHaveOneReading :
    (∃ w i, decode w = .ok i ∧ opOf w = 8) ∧ (∃ w : Word, opOf w ∈ [0x24, 0x25, 0x26, 0x27]) ∧
    (∃ w : Word, w = encode false (.add true 127 127 127)) ∧ ∃ w : Word, (opOf w ∈ [0, 2, 3, 4, 5, 6, 7, 0x17]) ∧ fld w.toNat 30 1 = 1 :=
  ⟨⟨0x08081018, _, rfl, rfl⟩, ⟨0x27000000, by decide⟩, ⟨_, rfl⟩, ⟨0x57000000, by decide, by decide⟩⟩

/-! ### Steps from reset -/

/-- The state that a step answers. -/
def stepped (s : State) : State := match step s with | .next t => t | _ => s

/-- R36, R41: `add` v4 = v4 + v3, placed at reset: it issues at once, counts in q3, and its result is on its way. -/
theorem test_step_add : (stepped (State.reset.withFetchWord 32 0x08081018)).dev.groups.map (fun g => (cellGet g.q 3, g.pend.length, (g.lane 7).pc)) =
    [(1, 8, 0x81)] := by decide +kernel

/-- R104: `exit` ends all lanes, and the block with its group. -/
theorem test_step_exit : (stepped (State.reset.withFetchWord 32 (encode false .exit).toNat)).dev.launches.map Launch.ended = [1] := by decide +kernel

/-! ### Words that complete -/

/-- Lane 0's registers set; the state in which they are, with bytes in the block's memory; a batch that has been held. -/
def gRegs (xs : Cells 32) : Group := gLane 0 fun x => { x with v := xs }
def regs (xs : Cells 32) : State := demoWith (gRegs xs) c
def holding (xs : Cells 32) (off : Nat) (bs : List Byte) : State := { regs xs with blk := putBytes [] (blkAddr 0 0 off) bs }
def heldBy (kind : HoldKind) : Hold := ⟨kind, 7, .none, 0, 0, 0, true, [], 0, [], none⟩
def cRe (kind : HoldKind) : Issue := { c with resume := some (heldBy kind) }

/-- The operand checks of the words below pass on lane 0's registers. -/
theorem issuesR {xs : Cells 32} {off : Nat} {bs : List Byte} {i : Instr}
    (h : commonFault (regs xs).dev (gRegs xs) la c i i.latency = none) : Issues (holding xs off bs) i c (gRegs xs) la := ⟨rfl, rfl, rfl, h⟩

theorem witness_WordsComplete_barriers :
    (Issues demo (.barInit 1 15) c g la ∧ c.voters g ≠ [] ∧ (1 : BitVec 7).toNat ≤ la.groups ∧ demo.dev.barBusy c.g 15 = false) ∧
    (Issues demo (.barArrive 15) c g la ∧ Issues demo (.barSync 15) c g la ∧ Issues demo .barSyncGang c g la ∧
      Issues demo .gridSync c g la ∧ Issues demo (.barWait 15) c g la ∧ c.resume = none ∧
      (∀ n ∈ [15, 16, 17], ∀ f ∈ c.voters g, (g.lane f).isPending n = false) ∧ g.storesDone c = true ∧ g.timedOut true = none) ∧
    (∀ n ∈ [16, 17], (((demo.did (releaseReads c.g)).withDev fun d => d.arrive c.g n (c.voters g)).dev.pendingLanes c.g n (c.voters g)) = []) ∧
    (let s : State := { State.reset with dev := { dPend with groups := [g] } };
      Issues s (.barSync 15) c g { la with gridBar := .fresh 2 } ∧
      ((s.did (releaseReads c.g)).withDev fun d => d.arrive c.g 15 (c.voters g)).dev.pendingLanes c.g 15 (c.voters g) ≠ []) ∧
    (∀ n ∈ [15, 16, 17], (cRe (.barrier n)).resume = some (heldBy (.barrier n)) ∧ (cRe (.barrier n)).voters g ≠ []) ∧
    (Issues (demoWith g (cRe (.barrier 15))) (.barWait 15) (cRe (.barrier 15)) g la ∧
      Issues (demoWith g (cRe (.barrier 17))) .gridSync (cRe (.barrier 17)) g la) :=
  ⟨⟨issues (by decide), by decide⟩, ⟨issues (by decide), issues (by decide), issues (by decide), issues (by decide), issues (by decide), by decide⟩,
    by decide, ⟨⟨rfl, rfl, rfl, by decide⟩, by decide⟩, by decide, ⟨rfl, rfl, rfl, by decide⟩, ⟨rfl, rfl, rfl, by decide⟩⟩

/-- The accesses of an `mx.ld` of FP32 elements from the first byte of the block's memory, and those of a drain of a tile to it. -/
abbrev loadable (s : State) : Except FaultInfo (List LaneAccess) :=
  mxLdReads s c g la 0 (bitAt (leadV s g c 0 8) 4) (leadV s g c 0 4) (drainSize (leadV s g c 0 8 % 16))
def toMem : DrainCtl := ⟨0, .rn, 2, 0⟩
abbrev drained (s : State) (h : Group) : Except FaultInfo (List (Nat × Nat × LaneAccess)) := drainMem s c h la toMem 0 0 (c.voters h)
/-- A batch that holds a word and waits for its tile. -/
def cTile : Issue := cRe (.tile 0)
def gTile : Group := { gLane 0 fun x => { x with hold := some (heldBy (.tile 0)) } with gsr := 4 }

theorem witness_WordsComplete_tiles :
    (Issues demo (.mxZero 31) c g la ∧ c.voters g ≠ [] ∧ tileFault demo c (c.group g) la [31] true = none ∧ demo.tilesFree c (c.group g) la [31] = true) ∧
    (Issues (demoWith gTile cTile) (.mxZero 31) cTile gTile la ∧ cTile.voters gTile ≠ [] ∧ (cTile.group gTile).gsr = 0 ∧
      tileFault (demoWith gTile cTile) cTile (cTile.group gTile) la [31] true = none ∧
      (demoWith gTile cTile).tilesFree cTile (cTile.group gTile) la [31] = true) ∧
    (let s := regs [(8, 0x89)]; let h := gRegs [(8, 0x89)];
      Issues s (.mxDrain 0 8 15) c h la ∧ drainCheck 0 8 15 s c h la = none ∧ h.leader c.on = some 0 ∧
      (drainCtl (leadV s h c 0 8) 0 15).map (fun k => (k.fmt, k.dst)) = some (9, 1) ∧ tileFault s c (c.group h) la [30, 31] true = none ∧
      s.tilesFree c (c.group h) la [30, 31] = true ∧ s.negv h.key [30, 31] = false ∧ h.acquiring = false) ∧
    (let s := regs [(8, 0x100)]; let h := gRegs [(8, 0x100)];
      Issues s (.mxDrain 4 8 31) c h la ∧ drainCheck 4 8 31 s c h la = none ∧ h.leader c.on = some 0 ∧
      drainCtl (leadV s h c 0 8) 4 31 = some toMem ∧ leadV s h c 0 4 = 0 ∧ drained s h = .ok ((drained s h).toOption.getD []) ∧
      drainBlocked s c h la ((drained s h).toOption.getD []) = none) ∧
    (Issues demo (.mxLd 4 8 31) c g la ∧ g.leader c.on = some 0 ∧ mxLdBad (leadV demo g c 0 8) = false ∧
      loadable demo = .ok ((loadable demo).toOption.getD []) ∧ tileFault demo c (c.group g) la [31] true = none ∧
      demo.tilesFree c (c.group g) la [31] = true ∧ demo.dev.readsReady (c.group g) (c.mark g) ((loadable demo).toOption.getD []) = true) ∧
    (Issues (demoWith gTile cTile) (.mxLd 4 8 31) cTile gTile la ∧ gTile.leader cTile.on = some 0 ∧
      mxLdReads (demoWith gTile cTile) cTile (cTile.group gTile) la 0 false 0 4 = .ok []) :=
  ⟨⟨issues (by decide), by decide⟩, ⟨⟨rfl, rfl, rfl, by decide⟩, by decide⟩, ⟨⟨rfl, rfl, rfl, by decide⟩, by decide⟩,
    ⟨⟨rfl, rfl, rfl, by decide⟩, by decide, by decide, rfl, by decide, by decide +kernel, by decide +kernel⟩,
    ⟨issues (by decide), by decide, by decide, by decide +kernel, by decide, by decide, by decide +kernel⟩,
    ⟨⟨rfl, rfl, rfl, by decide⟩, by decide, by decide⟩⟩

/-- The demonstration state with slots of its cluster, owned by the demonstration job. -/
def slotted (xs : List CuvSlot) : State :=
  { demo with dev := { demo.dev with clusters := [⟨0, 0, [], [], 0, none, false, 0, xs, false⟩], cuvOwner := xs.map fun x => (x.n, 1) } }
def slot15 : CuvSlot := ⟨15, [], .loaded, 0⟩

theorem witness_WordsComplete_cuvees :
    (Issues demo (.cuvLoadPad 8 15) c g la ∧ Issues demo (.cuvLoadBlk 8 1) c g la ∧ c.resume = none ∧ g.leader c.on = some 0 ∧
      (∀ n ∈ [1, 15], demo.dev.slotTaken n la.job = false) ∧ leadV demo g c 0 8 % 32 = 0 ∧
      ∀ pad ∈ [false, true], pieces demo.dev g la 0 0 pad 0 1536 6 .read = .ok ((pieces demo.dev g la 0 0 pad 0 1536 6 .read).toOption.getD [])) ∧
    (let s := held 0x3A002008 (.cuvee 0) []; let h := gHeld (.cuvee 0);
      s.dev.group? k = some h ∧ s.dev.launch? 0 = some (fetchLaunch 0x3A002008) ∧ s.dev.cuveeDue h 0 = true ∧
        heldWord (fetchLaunch 0x3A002008) (h.lane 0) = some (.cuvLoadBlk 8 1) ∧ h.heldLeader (h.heldWith 0) = some 0 ∧
        (h.lane 0).hold.map Hold.batch = some 0 ∧ (s.dev.clusterOf h).all = [] ∧ s.dev.slotAhead (s.dev.clusterOf h) 1 0 = false) ∧
    (Issues (slotted [slot15]) (.cuvChk 4 15) c g la ∧ c.voters g ≠ [] ∧ (slotted [slot15]).dev.slotReady g la 15 = some slot15) ∧
    (let s := held 0x3A080032 (.cuvee 0) [⟨6, [], .loaded, 0⟩]; let h := gHeld (.cuvee 0);
      s.dev.group? k = some h ∧ s.dev.launch? 0 = some (fetchLaunch 0x3A080032) ∧ s.dev.cuveeDue h 0 = true ∧
        heldWord (fetchLaunch 0x3A080032) (h.lane 0) = some (.cuvChk 4 6) ∧ (s.dev.clusterOf h).slot? 6 = some ⟨6, [], .loaded, 0⟩ ∧
        (h.lane 0).hold.map Hold.batch = some 0 ∧ s.dev.slotAhead (s.dev.clusterOf h) 6 0 = false) ∧
    (Issues demo (.cuvRd 4 0) c g la ∧ Issues demo (.cuvRd 4 15) c g la ∧ demo.dev.slotTaken 15 la.job = false) ∧
    ((demo.dev.jobOf la).test = true ∧ leadV demo g c 0 8 = 0 ∧ Issues demo (.bistRun 8) c g la ∧ Issues demo (.bistRd 4) c g la) ∧
    (let s := regs [(8, 2)]; let h := gRegs [(8, 2)];
      Issues (holding [(8, 2)] 0 []) (.bistRun 8) c h la ∧ h.leader c.on = some 0 ∧ leadV s h c 0 8 = 2 ∧ s.dev.aloneOnCore h = true) ∧
    (let s := regs [(8, 3)]; let h := gRegs [(8, 3)];
      Issues (holding [(8, 3)] 0 []) (.bistRun 8) c h la ∧ h.leader c.on = some 0 ∧ leadV s h c 0 8 = 3 ∧ (s.dev.clusterOf h).all = [] ∧
        (s.dev.clusterOf h).bist = false) :=
  ⟨⟨issues (by decide), issues (by decide), rfl, by decide, by decide, by decide, by decide +kernel⟩, by decide +kernel, ⟨⟨rfl, rfl, rfl, by decide⟩, by decide⟩,
    by decide +kernel, ⟨issues (by decide), issues (by decide), by decide⟩, ⟨by decide, by decide, issues (by decide), issues (by decide)⟩,
    ⟨issuesR (by decide), by decide, by decide, by decide⟩, ⟨issuesR (by decide), by decide⟩⟩

/-- The demonstration launch with the extended lock, which its group holds. -/
def laX : Launch := { la with xregs := true }
def locked : State := { demo with dev := { demo.dev with launches := [laX], xsets := [⟨0, 0, 0, [], some k, false, [], none⟩] } }

/-- A vintage that may be merged or dropped, and its tag in v8. -/
def vintaged : State := { regs [(8, 16383)] with dev := { (regs [(8, 16383)]).dev with vintages := [{ vint with closing := none }] } }

theorem witness_WordsComplete_waits :
    (Issues locked .xregAcq c g laX ∧ Issues locked .xregRel c g laX ∧ c.voters g ≠ [] ∧ laX.xregs = true ∧ locked.dev.holdsX g = true ∧
      g.place = some ⟨0, 0, 0⟩) ∧
    (let xs : Cells 32 := [(12, 1)]; let s := regs xs; let h := gRegs xs;
      Issues (holding xs 0 []) (.objWait 8 12) c h la ∧ Issues (holding xs 0 []) (.objWaitSt 4 8 12) c h la ∧ h.leader c.on = some 0 ∧
      (∃ x, objAccess s.dev h la 0 (leadV s h c 0 8) false = .ok x ∧ x.store = .blk 0 0 ∧ x.off = 0 ∧
        leadV (s.withDev fun d => d.touchRace h la x .other) h c 0 12 % 2 ^ 16 ≠ s.objPhase ⟨x.store, x.off⟩) ∧
      h.objBusy ⟨.blk 0 0, 0⟩ = false ∧ s.objErr ⟨.blk 0 0, 0⟩ = 0) ∧
    (let h := gLane 0 fun x => { x with hold := some { heldBy (.obj 0) with snap := [(12, 1)] } }; let r := cRe (.obj 0); let s := demoWith h r;
      Issues s (.objWait 8 12) r h la ∧ h.leader r.on = some 0 ∧ objRefOf la 0 (leadV s h r 0 8) = some ⟨.blk 0 0, 0⟩ ∧
      leadV s h r 0 12 % 2 ^ 16 ≠ s.objPhase ⟨.blk 0 0, 0⟩ ∧ h.objBusy ⟨.blk 0 0, 0⟩ = false ∧ s.objErr ⟨.blk 0 0, 0⟩ = 0) ∧
    (let s := holding [] 0 (leBytes 4 0 ++ leBytes 4 1);
      Issues s (.cstPut 8) c (gRegs []) la ∧ (gRegs []).leader c.on = some 0 ∧
      (∃ x, objAccess s.dev (gRegs []) la 0 (leadV s (gRegs []) c 0 8) true = .ok x ∧ x.store = .blk 0 0 ∧ x.off = 0 ∧
        cstFirst (s.withDev fun d => d.touchRace (gRegs []) la x .other).dev (gRegs []) ⟨.blk 0 0, 0⟩ false c = true) ∧
      s.cstOk ⟨.blk 0 0, 0⟩ = true ∧ (gRegs []).storesDone c = true ∧ (gRegs []).timedOut true = none ∧
      s.nat (.blk 0 0) 0 4 < s.nat (.blk 0 0) 4 4 ∧ (gRegs []).objBusy ⟨.blk 0 0, 0⟩ = false) ∧
    (Issues demo (.vtNew 4 8) c g la ∧ g.leader c.on = some 0 ∧ g.vt = 0 ∧ demo.dev.ordinalUsed la.tag 0 (srcV demo.dev g c 0 8).toNat = false ∧
      ∃ t, demo.dev.freeTag = some t) ∧
    (Issues vintaged (.vtDrop 8) c (gRegs [(8, 16383)]) la ∧ Issues vintaged (.vtMerge 8) c (gRegs [(8, 16383)]) la ∧
      vintaged.dev.retirable la.tag (srcV vintaged.dev (gRegs [(8, 16383)]) c 0 8) = some { vint with closing := none }) ∧
    (let s := demoWith g (cRe (.turn 16383));
      Issues s (.vtMerge 8) (cRe (.turn 16383)) g la ∧ (heldBy (.turn 16383)).kind = .turn 16383 ∧ s.dev.liveVt la.tag 16383 = false) :=
  ⟨⟨⟨rfl, rfl, rfl, by decide⟩, ⟨rfl, rfl, rfl, by decide⟩, by decide, rfl, by decide, rfl⟩,
    ⟨issuesR (by decide), issuesR (by decide), by decide, ⟨_, rfl, rfl, rfl, by decide⟩, by decide, by decide⟩,
    ⟨⟨rfl, rfl, rfl, by decide⟩, by decide⟩,
    ⟨issuesR (by decide), by decide, ⟨_, rfl, rfl, rfl, by decide⟩, by decide⟩,
    ⟨issues (by decide), by decide, rfl, by decide, _, rfl⟩,
    ⟨⟨rfl, rfl, rfl, by decide⟩, ⟨rfl, rfl, rfl, by decide⟩, by decide⟩, ⟨rfl, rfl, rfl, by decide⟩, rfl, by decide⟩

/-- A layout record of one FP32 element at address 0; operands of a copy under it, of a copy on chip, of a migration, of a remote copy and of a remote atomic. -/
def layout : List Byte := leBytes 8 0 ++ leBytes 16 0 ++ leBytes 2 1 ++ leBytes 2 1 ++ leBytes 4 4
def copying : Cells 32 := [(16, 4096), (20, 65537)]
def onChip : Cells 32 := [(17, 64), (18, 16)]
def migrating : Cells 32 := [(18, 1)]
def remoting : Cells 32 := [(17, 0x80000000), (20, 16)]
def remoting1 : Cells 32 := [(17, 0x80000000)]
/-- A descriptor of an all-gather of one member; a record that a launch may start. -/
def descriptor : List Byte := [1, 0, 0] ++ List.replicate 9 0 ++ [1, 0] ++ List.replicate 6 0 ++ [1] ++ List.replicate 43 0
def childRecord : List Byte := [1] ++ List.replicate 63 0

/-- The operand group of `n` registers from v16 of the leader, and whether the gate has room for an operation on it. -/
abbrev group16 (xs : Cells 32) (n : Nat) : List Nat := opGroup (regs xs) (gRegs xs) c 0 16 n
abbrev roomFor (xs : Cells 32) (n : Nat) (kind : OpKind) (more : List Nat) (y : Option Layout) : Prop :=
  ((regs xs).dev.unheld c.g 0).gateRoom (newOp (regs xs) c (gRegs xs) 0 kind (group16 xs n ++ more) 0 y (.blk 0 0) (.blk 0 0) (objOf la 0 0) []).ranges = true
/-- The record that the copies read, and their array on chip. -/
abbrev copyLayout : Layout := layoutOf ((holding copying 0 layout).bytes (.blk 0 0) 0 32)
abbrev copyArray (t up : Bool) : Except (AccFault × Space) Target :=
  arrayRange (regs copying).dev la j 0 false 4096 (geomOf copyLayout t (group16 copying 6)).extent 16
    fun n => up && ((geomOf copyLayout t (group16 copying 6)).chipSrc n).isSome
/-- A range that an operation may use, alone and with its object. -/
abbrev usable (xs : Cells 32) (a : Nat) (r : Except (AccFault × Space) Target) (off : Nat) : Prop :=
  r.toOption.map (fun t => (t.store, t.off)) = some (.blk 0 0, off) ∧ worstRange 0 ((a, r) :: objChecks (regs xs).dev la j 0 0) = none

theorem witness_WordsComplete_copies :
    (Issues (holding copying 0 layout) (.cpG2s 16 false) c (gRegs copying) la ∧ Issues (holding copying 0 layout) (.cpS2g 16 false) c (gRegs copying) la ∧
      Issues (holding copying 0 layout) (.cpTG2s 16 false) c (gRegs copying) la ∧
      Issues (holding copying 0 layout) (.cpTS2g 16 false) c (gRegs copying) la) ∧
    (c.resume = none ∧ (gRegs copying).leader c.on = some 0 ∧ (gRegs copying).storesDone c = true ∧ (regs copying).dev.logIndex 0 = some 0) ∧
    (group16 copying 6 = [4096, 0, 0, 0, 65537, 0] ∧ copyStep1 (group16 copying 6) = false) ∧
    (usable copying 0 (readRange (regs copying).dev la j 0 0 32 32) 0 ∧ layoutOk ((holding copying 0 layout).bytes (.blk 0 0) 0 32) = true) ∧
    ((geomOf copyLayout false (group16 copying 6)).bad = false ∧ (geomOf copyLayout true (group16 copying 6)).bad = false) ∧
    (usable copying 4096 (copyArray false false) 4096 ∧ usable copying 4096 (copyArray false true) 4096 ∧
      usable copying 4096 (copyArray true false) 4096 ∧ usable copying 4096 (copyArray true true) 4096) ∧
    (roomFor copying 6 (.g2s false) [] (some copyLayout) ∧ roomFor copying 6 (.s2g false) [] (some copyLayout) ∧
      roomFor copying 6 (.g2s true) [] (some copyLayout) ∧ roomFor copying 6 (.s2g true) [] (some copyLayout)) :=
  ⟨⟨issuesR (by decide), issuesR (by decide), issuesR (by decide), issuesR (by decide)⟩, by decide, by decide +kernel, ⟨by decide +kernel, by decide +kernel⟩,
    by decide +kernel, ⟨by decide +kernel, by decide +kernel, by decide +kernel, by decide +kernel⟩,
    by decide +kernel, by decide +kernel, by decide +kernel, by decide +kernel⟩

theorem witness_WordsComplete_engines :
    (Issues (holding onChip 0 []) (.cpS2s 16 false false) c (gRegs onChip) la ∧ group16 onChip 6 = [0, 64, 16, 0, 0, 0] ∧
      s2sStep1 la 0 false false [0, 64, 16, 0, 0, 0] = false ∧ usable onChip 0 (arrayRange (regs onChip).dev la j 0 false 0 16 16 noBytes) 0 ∧
      usable onChip 64 (arrayRange (regs onChip).dev la j 0 false 64 16 16 (wholeOf 16)) 64 ∧ roomFor onChip 6 .s2s [] none) ∧
    (Issues (holding migrating 0 []) (.migPost 16) c (gRegs migrating) la ∧ migBad (group16 migrating 6) = false ∧
      worstRange 0 (objChecks (regs migrating).dev la j 0 0) = none ∧ roomFor migrating 6 .mig [] none) ∧
    (Issues (holding remoting 0 []) (.rcpGet 16) c (gRegs remoting) la ∧ Issues (holding remoting 0 []) (.rcpPut 16) c (gRegs remoting) la ∧
      rcpBad (regs remoting).dev (group16 remoting 8) = false ∧ localStore la 0 0 16 = .blk 0 0 ∧
      remFault (regs remoting) (gRegs remoting) la 0 (group16 remoting 8) 16 16 16 false = none ∧
      remFault (regs remoting) (gRegs remoting) la 0 (group16 remoting 8) 16 16 16 true = none ∧ roomFor remoting 8 .get [] none ∧ roomFor remoting 8 .put [] none) ∧
    (Issues (holding remoting1 0 []) (.ratom 16 2 .casB32) c (gRegs remoting1) la ∧ ratomBad (regs remoting1).dev .casB32 (group16 remoting1 8) = false ∧
      remFault (regs remoting1) (gRegs remoting1) la 0 (group16 remoting1 8) 4 8 4 true = none ∧ g.det = false ∧ roomFor remoting1 8 (.ratom .casB32 2) [] none) ∧
    (Issues (holding [] 0 descriptor) (.collPost 16) c (gRegs []) la ∧ group16 [] 8 = List.replicate 8 0 ∧
      descOk ((holding [] 0 descriptor).bytes (.blk 0 0) 0 64) = true ∧ usable [] 0 (readRange (regs []).dev la j 0 0 64 64) 0 ∧
      roomFor [] 8 .coll (descOf ((holding [] 0 descriptor).bytes (.blk 0 0) 0 64)) none) ∧
    (Issues (holding [] 0 childRecord) (.launchDev 8) c (gRegs []) la ∧ (regs []).dev.childCount la.job < 256 ∧
      childOk ((holding [] 0 childRecord).bytes (.blk 0 0) 0 64) = true ∧ worstRange 0 (objChecks (regs []).dev la j 0 0) = none) :=
  ⟨⟨issuesR (by decide), by decide +kernel, by decide +kernel, by decide +kernel, by decide +kernel, by decide +kernel⟩,
    ⟨issuesR (by decide), by decide +kernel, by decide +kernel, by decide +kernel⟩,
    ⟨issuesR (by decide), issuesR (by decide), by decide +kernel, rfl, by decide +kernel, by decide +kernel, by decide +kernel, by decide +kernel⟩,
    ⟨issuesR (by decide), by decide +kernel, by decide +kernel, rfl, by decide +kernel⟩,
    ⟨issuesR (by decide), by decide +kernel, by decide +kernel, by decide +kernel, by decide +kernel⟩,
    ⟨issuesR (by decide), by decide, by decide +kernel, by decide +kernel⟩⟩

/-! ### More witnesses: a state for each further clause -/

theorem witness_MomentAndMaskAccesses_masks :
    (∃ f, Issues (one8 0x40000) (.stMask 3 8 0 false) cLone (gTo 0x40000) la ∧ (gTo 0x40000).leader cLone.on = some 0 ∧
      (one8 0x40000).accesses cLone (gTo 0x40000) la [0] false
        (fun _ => offAddr (srcV (one8 0x40000).dev (gTo 0x40000) cLone 0 8) (0 : BitVec 7) ((gTo 0x40000).width / 8)) ((gTo 0x40000).width / 8) 7 .write = .error f) ∧
    (∃ f, Issues (one8 0x40000) (.ldMask 3 8 0 false) cLone (gTo 0x40000) la ∧ (one8 0x40000).accesses cLone (gTo 0x40000) la [0] false
      (fun _ => offAddr (srcV (one8 0x40000).dev (gTo 0x40000) cLone 0 8) (0 : BitVec 7) ((gTo 0x40000).width / 8)) ((gTo 0x40000).width / 8) 7 .read = .error f) ∧
    (∃ a, Issues (one8 8) (.stMask 3 8 0 false) cLone (gTo 8) la ∧ (one8 8).accesses cLone (gTo 8) la [0] false
      (fun _ => offAddr (srcV (one8 8).dev (gTo 8) cLone 0 8) (0 : BitVec 7) ((gTo 8).width / 8)) ((gTo 8).width / 8) 7 .write = .ok [a] ∧ a.own la (gTo 8)) ∧
    ∃ a, Issues (one8 8) (.ldMask 3 8 0 true) cLone (gTo 8) la ∧ (one8 8).accesses cLone (gTo 8) la [0] true
      (fun _ => offAddr (srcV (one8 8).dev (gTo 8) cLone 0 8) (0 : BitVec 7) ((gTo 8).width / 8)) ((gTo 8).width / 8) 7 .read = .ok [a] ∧ a.far :=
  ⟨⟨_, ⟨rfl, rfl, rfl, by decide⟩, by decide, rfl⟩, ⟨_, ⟨rfl, rfl, rfl, by decide⟩, rfl⟩,
    ⟨⟨0, 8, .blk, .blk 0 0, 8, 1, false⟩, ⟨rfl, rfl, rfl, by decide⟩, rfl, rfl, rfl, rfl⟩, ⟨⟨0, 8, .pad, .pad, 8, 1, false⟩, ⟨rfl, rfl, rfl, by decide⟩, rfl, rfl, rfl⟩⟩

/-- A post that takes its descriptor from v10, which is not a descriptor; octets whose rows are all masked. -/
def postDsc : Post := ⟨0, 32, 8, 31, false, true⟩
def masked : PostOp := { postOp 0 0 with rows := [] }

theorem witness_MatrixPosts_causes :
    (let s := regs [(10, 128)]; let h := gRegs [(10, 128)];
      Issues (holding [(10, 128)] 0 []) (.mxPost 32 8 31 .bf16 false true) c h la ∧
        lowestCause (postCauses postDsc (postDsc.ops s c h)) = some (12, 3)) ∧
    lowestCause (postCauses post (post.ops (demoWith gSlot5 c) c gSlot5)) = none ∧
    (lowestCause (postCauses post [{ postOp 0 0 with latch := some ⟨0, 1, []⟩ }]) = some (12, 0)) ∧
    (g.uchk = false ∧ masked.rows = []) ∧ (∀ q ∈ [postOp 0 3], q.rows ≠ []) :=
  ⟨⟨issuesR (by decide), by decide⟩, by decide, by decide, by decide, by decide⟩

theorem witness_TileWords_ahead :
    c.fresh = true ∧ demo.dev.tileAhead c g.key la [31] = false ∧
    (let h := gLane 7 fun x => { x with hold := some (heldBy .retry) };
      (demoWith h c).dev.tileAhead c h.key (fetchLaunch 0x39000000) [0] = true) := by decide +kernel

theorem witness_EngineWords_room :
    (∀ n, demo.dev.logIndex g.die = some n → (demo.dev.unheld (op .s2s [0, 64, 16, 0, 0, 0]).g 0).gateRoom (op .s2s [0, 64, 16, 0, 0, 0]).ranges = true) ∧
    (Issues demo (.gat 4 8 12 false 0) c g la ∧ g.leader c.on = some 0) :=
  ⟨fun _ _ => by decide, issues (by decide), by decide⟩

theorem witness_RemoteWords_taken :
    (c.resume = none ∧ g.storesDone c = true ∧ g.key = c.g ∧ demo.dev.logIndex g.die = some 0) ∧
    (let st := localStore la 0 0 16;
      (demo.dev.unheld c.g 0).gateRoom ({ newOp demo c g 0 .get [0, 0, 0, 0, 16, 0, 0, 0] 0 none st st (objOf la 0 0) [] with
        started := true, link := demo.dev.linkFor (remPkg [0, 0, 0, 0, 16, 0, 0, 0]) } : EngineOp).ranges = true) :=
  ⟨by decide, by decide +kernel⟩

theorem witness_AccessesPerformed_sectors :
    (let xs := [acc 0 (.store [1, 2, 3, 4]), acc 1 (.load .b32 [])];
      (gAcc xs).sector (acc 1 (.load .b32 [])) = [acc 1 (.load .b32 [])] ∧ (gAcc xs).mayPerform (acc 1 (.load .b32 [])) = false) ∧
    (let a := acc 0 (.load .b32 [⟨0, .v 4, 0⟩]); let xs := [a, { acc 1 (.load .b32 [⟨1, .v 4, 0⟩]) with seq := 0, addr := 28 }];
      (ofAcc xs).dev.group? k = some (gAcc xs) ∧ (ofAcc xs).dev.launch? k.launch = some la ∧ (xs.find? fun x => decide (x.id = 0)) = some a ∧
        a.op.writes = false ∧ a.store = .pad ∧ (gAcc xs).sector a = xs ∧ (gAcc xs).run ≠ .faulted ∧ (gAcc xs).mayPerform a = true ∧
        ∀ y ∈ xs, (ofAcc xs).vtWaits la.tag y = false ∧ (ofAcc xs).dev.readGated k y = false) := by decide

/-- A scale block of BF16 bytes whose first variance is negative. -/
def badScales : List Byte := List.replicate 8192 0 ++ [0x80, 0xBF]

theorem badScales_at (n : Nat) : badScales.getD (8192 + n) 0 = ([0x80, 0xBF] : List Byte).getD n 0 := by
  have h : (List.replicate 8192 (0 : Byte)).length = 8192 := List.length_replicate
  rw [badScales, List.getD_append_right _ _ _ _ (by rw [h]; omega), h, Nat.add_sub_cancel_left]

theorem witness_MatrixPasses_grants :
    (let s := inPass 9 [pass (some 0)] [busyEntry]; let s1 : State := s.withDev fun d => d.setCluster { d.clusterNo 0 with lastPad := true, lastGrant := some 8 };
      let cl := s1.dev.clusterNo 0;
      granted cl.entries = some busyEntry ∧ cl.lastPad = true ∧ (∀ p ∈ cl.passes, p.start ≠ none) ∧ ∀ x, cl.lastGrant = some x → x < s1.dev.cycle cl.die) ∧
    (let s := inPass 0 [pass none] [busyEntry]; let s1 : State := s.withDev fun d => d.setCluster { d.clusterNo 0 with lastPad := true };
      (s1.dev.clusterNo 0).lastPad = true ∧ ∃ p ∈ (s1.dev.clusterNo 0).passes, p.start = none) ∧
    (let e : Entry := { busyEntry with fmt := 5, tile := 0 }; e.fmt = 5 ∧ ∃ x, demo.dev.block? e.g.launch e.g.block = some x ∧ cellsWf x.tileStat = true) ∧
    ∃ n < 4096, badVar (2 ^ 16 * ((badScales.getD (8192 + 2 * n) 0).toNat + 256 * (badScales.getD (8193 + 2 * n) 0).toNat)) = true :=
  ⟨⟨by decide, by decide, by decide, fun x h => by cases h; decide⟩, by decide, ⟨rfl, _, rfl, by decide⟩, 0, by omega, by
    rw [badScales_at 0, badScales_at 1]; decide⟩

/-- Main memory in which a leaf of 1 GiB at frame 0 maps address 0, and a migration of a page in each of its steps. -/
def leafMain : Memory := putBytes (putBytes (putBytes [] 0 (leBytes 8 0x1001)) 0x1000 (leBytes 8 0x2001)) 0x2000 (leBytes 8 5)
def migrating1 (m : MigStep) : EngineOp := { op .mig [0, 0, 1, 0, 0, 0] with move := m }

theorem noLeaf (e : Pte) : (flying (migrating1 (.moving 7))).walk j 0 ≠ .leaf e := by
  have h : (flying (migrating1 (.moving 7))).walk j 0 = .invalid := by decide +kernel
  rw [h]; intro h; cases h

theorem witness_GathersAndMigrations_steps :
    (∀ m ∈ [MigStep.ready, .moving 7, .returning 3 7 1], (flying (migrating1 m)).dev.op? 0 = some (migrating1 m) ∧
      (flying (migrating1 m)).dev.job? (migrating1 m).job = some j ∧ (migrating1 m).kind = .mig ∧ (migrating1 m).held = none ∧
      (flying (migrating1 m)).dev.opWaits (migrating1 m) = false ∧ (flying (migrating1 m)).dev.dumpHolds (migrating1 m).job = false) ∧
    (∃ e, ({ flying (migrating1 (.moving 7)) with main := leafMain } : State).walk j 0 = .leaf e) ∧
    (∀ e, (flying (migrating1 (.moving 7))).walk j 0 ≠ .leaf e) ∧
    (let h := gLane 0 fun x => { x with lastPage := some ⟨3, 0, 5⟩ };
      (demoWith h c).dev.group? k = some h ∧ (h.lane 0).lastPage = some ⟨3, 0, 5⟩ ∧ 3 = 0x3008 / pageSize 0) :=
  ⟨by decide +kernel, ⟨⟨5, 0x2000, 2⟩, by decide +kernel⟩, noLeaf, by decide⟩

theorem witness_WeirAndMerges_early :
    demo.dev.group? k = some g ∧ g.acc = [] ∧ g.deferred = [] ∧
    (let xs := [acc 0 (.store [1])]; (ofAcc xs).dev.group? k = some (gAcc xs) ∧ ∀ a ∈ xs, a.seq < ({ vint with mark := 1 } : Vintage).mark ∧ a.op.writes = true) ∧
    (let xs := [acc 0 (.load .b32 [])]; ∀ a ∈ xs, a.seq < ({ vint with mark := 1 } : Vintage).mark ∧ ∃ ty ss, a.op = .load ty ss) := by
  refine ⟨by decide, by decide, by decide, by decide, ?_⟩
  intro xs a ha
  obtain rfl : a = acc 0 (.load .b32 []) := by simpa [xs] using ha
  exact ⟨by decide, _, _, rfl⟩

theorem witness_Watchdogs_holds :
    (let h := gDog (.barrier 15) (.bar 15 0) 5;
      h.xsaved = none ∧ (h.lane 0).hold.map Hold.dog = some (.bar 15 0) ∧ demo.dev.launch? h.key.launch = some la ∧ h.counts = true ∧
        ∀ e ∈ [none, some (leBytes 8 1)], demo.dev.holdPaused h.key { heldBy (.barrier 15) with dog := .bar 15 0, expiry := e } = false) ∧
    (let h := gDog .retry (.vt 2 7) 100000000; (dogged .retry (.vt 2 7) 100000000).dev.group? k = some h ∧
      demo.dev.starveWait { heldBy .retry with dog := .vt 2 7 } = some (2, 7) ∧
      demo.dev.starveWait { heldBy (.turn 5) with dog := .vt 2 7 } = some (2, 7)) ∧
    (demo.dev.group? k = some g ∧ g.counts = true ∧ g.run ≠ .faulted ∧ (g.lane 7).hold = none) ∧
    (∀ t ∈ [49999, 50000], let a := { acc 0 (.load .b32 []) with timer := t, helper := decide (t = 50000), addr := 32 };
      (ofAcc [a]).dev.group? k = some (gAcc [a]) ∧ (ofAcc [a]).dev.launch? k.launch = some la ∧ ([a].find? fun x => decide (x.id = 0)) = some a) := by decide

theorem witness_RecordsAndSlots_translations :
    (let d : Dev := { demoDev (gLane 0 fun x => { x with lastPage := some ⟨3, 0, 5⟩ }) c with tlb := [⟨1, 5, 0, 5⟩, ⟨2, 7, 0, 5⟩] }
      let e := d.dropTranslations 1 0x4000 0x1000;
      e.tlb = d.tlb ∧ (∃ t ∈ d.tlb, t.job ≠ 1) ∧ ∃ h ∈ e.groups, d.jobFor h.key = 1 ∧ ∃ x ∈ h.lanes, x.lastPage = some ⟨3, 0, 5⟩) := by decide

theorem witness_JobEnds_flags :
    record.ends = true ∧ ({ record with data := List.replicate 64 1 } : FaultRec).ends = false := by decide

theorem witness_RegisterReads_trust :
    (let d : Dev := { demo.dev with trust := { Trust.reset with good := true }, regs := { demo.dev.regs with obssel := 1 } };
      d.trust.good = true ∧ d.job? d.regs.obssel.toNat = some j) ∧
    ({ Dev.reset with trust := { Trust.reset with good := false } } : Dev).trust.good = false ∧
    (2 ^ 27 ≤ 2 ^ 27 + 0x802000 ∧ demo.dev.vfSees ((2 ^ 27 + 0x802000) / 2 ^ 27) ((2 ^ 27 + 0x802000) % 2 ^ 27) = false ∧ demo.dev.vfSees 1 0x802020 = true) := by decide

theorem witness_LinkEvents_buffers :
    ((demo.dev.link 17).input.length = 4 ∧ 3 < 4) ∧
    (let l : Link := { Link.blank 17 with input := [0, 0, Config.inputBuffer 17, 0] }; let d : Dev := { demo.dev with links := [l] };
      (d.link 17).input.length = 4 ∧ bitAt (d.link 17).pausing.toNat 2 = false ∧ 3 * Config.inputBuffer 17 < 4 * ((d.link 17).input.getD 2 0 + 1)) ∧
    (∀ tries ∈ [14, 15], let f := { flit with tries := tries }; let d : Dev := { demo.dev with links := [{ Link.blank 17 with retry := [f] }] };
      (d.link 17).retry = [] ++ [f] ∧ f.seq = 4095) ∧
    (∃ n, n < 8 ∧ n ∉ (demo.dev.link 17).failedLanes) ∧ (demo.dev.link 17).failedLanes.length < 2 ∧
    (let d : Dev := { demo.dev with links := [{ Link.blank 17 with failedLanes := [0, 8] }] }; 2 ≤ (d.link 17).failedLanes.length) :=
  ⟨by decide, ⟨rfl, by decide, by show 3 * Config.inputBuffer 17 < 4 * (Config.inputBuffer 17 + 1); omega⟩, by decide, ⟨0, by decide⟩, by decide, by decide⟩

theorem witness_ChecksAndFaults_values :
    (demo.dev.cur = some c ∧ demo.dev.group? c.g = some g ∧ demo.dev.launch? c.g.launch = some la) ∧
    (checksItself (.barInit 1 15) = false ∧ checksValues (.barInit 1 15) = true ∧ checksValues (.add false 4 8 12) = false ∧
      (valuedFault demo.dev g la c (.barInit 1 15) [(12, 3)]).isSome = true) ∧
    (let r : Issue := { c with stop := false }; (demoWith g r).dev.cur = some r ∧ r.stop = false) ∧
    (∃ f, drainCheck 4 8 31 (regs [(8, 5)]) c (gRegs [(8, 5)]) la = some f) ∧ c.stop = true ∧ c.fresh = true :=
  ⟨by decide, by decide, by decide, ⟨_, rfl⟩, by decide, by decide⟩

/-- The group checks its scoreboard while a result is due in p3 and v8, or checks that operands are uniform. -/
def gShort : Group := { g with gsr := 8, pend := [⟨0, .p 3, 1, 100⟩, ⟨0, .v 8, 1, 100⟩] }
def gUni : Group := { gRegs [(8, 1)] with gsr := 4 }

theorem witness_ChecksAndFaults_checks :
    ((Instr.add false 4 8 12).fieldFault = none ∧ extendedField (Instr.add false 4 8 12).operands = none ∧
      divRegField la.divDepth (Instr.add false 4 8 12).operands = none) ∧
    (gShort.sbchk = true ∧ guardLate gShort c (demo.dev.now gShort) = false ∧
      (shortField gShort (Instr.add false 4 8 12).operands (demo.dev.now gShort) 2 (gShort.readLanes c (.add false 4 8 12)) c.on).isSome = true) ∧
    (guardLate gShort { c with guard := 3 } (demo.dev.now gShort) = true ∧
      (commonFault (demoDev gShort { c with guard := 3 }) gShort la { c with guard := 3 } (.brk 0) (Instr.latency (.brk 0))).isSome = true) ∧
    (gUni.sbchk = false ∧ gUni.uchk = true ∧
      (nonuniformField (demoDev gUni c) gUni c ((Instr.add true 4 8 12).operands.filter (Instr.add true 4 8 12).compares)).isSome = true) ∧
    (let r : Issue := { c with checked := true }; r.fresh = false) := by decide

theorem witness_ChecksAndFaults_records :
    (let s : State := { demo with dev := { demo.dev with regs := { demo.dev.regs with dbgJob := 1 } } };
      FaultCode.brk.forDebugger = true ∧ s.dev.debugged j.id = true ∧ j.deleted = false) ∧
    (let x := { j with recordsMade := 15 }; x.deleted = false ∧ x.recordsMade + 1 = 16) ∧ (16 ≤ ({ j with recordsMade := 16 } : Job).recordsMade) ∧
    ({ code := .mmRace, second := some (0, 1) } : FaultInfo).second = some (0, 1) := by decide

/-! ### Words tried again, and the further clauses -/

/-- A batch whose word is tried again. -/
def re : Issue := cRe .retry
theorem issuesRe {i : Instr} (h : commonFault (demoWith g re).dev g la re i i.latency = none) : Issues (demoWith g re) i re g la := ⟨rfl, rfl, rfl, h⟩

theorem witness_held_words :
    (re.resume = some (heldBy .retry) ∧ g.leader re.on = some 0 ∧ re.voters g ≠ []) ∧
    (Issues (demoWith g re) .fenceSys re g la ∧ Issues (demoWith g re) (.waitLd 3) re g la ∧ Issues (demoWith g re) .exit re g la ∧
      Issues (demoWith g re) .fibEnd re g la ∧ Issues (demoWith g re) (.barSync 0) re g la ∧ Issues (demoWith g re) (.cstPut 8) re g la ∧
      Issues (demoWith g re) (.bistRun 8) re g la ∧ Issues (demoWith g re) (.launchDev 8) re g la) ∧
    (Issues (demoWith g re) (.cpTS2g 16 false) re g la ∧ Issues (demoWith g re) (.cpS2s 16 true false) re g la ∧
      Issues (demoWith g re) (.gat 4 8 12 true 2) re g la ∧ Issues (demoWith g re) (.migPost 16) re g la ∧ Issues (demoWith g re) (.rcpGet 16) re g la ∧
      Issues (demoWith g re) (.rcpPut 16) re g la ∧ Issues (demoWith g re) (.ratom 16 2 .casB32) re g la ∧ Issues (demoWith g re) (.collPost 16) re g la) ∧
    (let r := cRe (.cst true 0 3 4); Issues (demoWith g r) (.cstTake 4 8) r g la ∧ r.resume.map Hold.kind = some (.cst true 0 3 4)) ∧
    (let r := cRe (.newVt 0); Issues (demoWith g r) (.vtNew 4 8) r g la ∧ r.resume = some (heldBy (.newVt 0)) ∧ (heldBy (.newVt 0)).kind = .newVt 0) ∧
    (let r := cRe (.slot 4); Issues (demoWith g r) (.cuvLoadPad 8 15) r g la ∧ (r.group g).gsr = 4) :=
  ⟨by decide, ⟨issuesRe (by decide), issuesRe (by decide), issuesRe (by decide), issuesRe (by decide), issuesRe (by decide), issuesRe (by decide),
    issuesRe (by decide), issuesRe (by decide)⟩, ⟨issuesRe (by decide), issuesRe (by decide), issuesRe (by decide), issuesRe (by decide), issuesRe (by decide),
    issuesRe (by decide), issuesRe (by decide), issuesRe (by decide)⟩, ⟨⟨rfl, rfl, rfl, by decide⟩, rfl⟩, ⟨⟨rfl, rfl, rfl, by decide⟩, rfl, rfl⟩,
    ⟨⟨rfl, rfl, rfl, by decide⟩, by decide⟩⟩

/-- Lane 0 waits at the join of its level 1, and lane 1 at a deeper level of its own. -/
def gDeep : Group := (gLane 0 fun x => { x.setLevel 1 (2 ^ 31 + 8) with hold := some (heldBy .join) }).modLane 1 fun x =>
  { (x.setLevel 1 (2 ^ 31 + 8)).setLevel 2 (2 ^ 31 + 9) with hold := some (heldBy .join) }

theorem witness_Divergence_deep :
    (demoWith gDeep c).dev.group? c.g = some gDeep ∧ (∃ m ∈ joinSet gDeep 8 c.loc 0, (gDeep.lane m).depth 8 ≠ (gDeep.lane 0).depth 8) ∧
    joinFree gDeep 8 c.loc 0 = [0] := by decide

theorem witness_BlockBarriers_last :
    (let d := demoDev gPend c;
      d.group? k = some gPend ∧ d.launch? k.launch = some la ∧ d.block? 0 0 = some (newBlock la 0 0 0) ∧ (newBlock la 0 0 0).bars.length = 18 ∧
        gPend.liveLanes ≠ [] ∧ ∀ n < 18, (∀ f ∈ gPend.liveLanes, (gPend.lane f).isPending n = true) ∧ bitAt (d.arrm k n).toNat k.group = false ∧
          (d.barrier k n).arr + 1 = (d.barrier k n).exp ∧ ¬ (n = 17 ∧ ∃ w ∈ d.staged, w.launch = k.launch)) ∧
    (let d : Dev := { demoDev gPend c with staged := [write] };
      (d.barrier k 17).arr + 1 = (d.barrier k 17).exp ∧ ¬ ((d.barrier k 17).arr + 1 = (d.barrier k 17).exp ∧ ¬ ((17 : Nat) = 17 ∧ ∃ w ∈ d.staged, w.launch = k.launch))) ∧
    demo.dev.group? k = some g ∧ [0] ≠ ([] : List Nat) := by decide

/-- A group whose set was saved, and a set that another slot asks for in the same die cycle. -/
def gXsaved : Group := { g with xsaved := some [(3, 9)] }
def gOther : Group := { newGroup la 0 1 ⟨0, 0, 8⟩ with key := ⟨0, 0, 1⟩ }
def xTied : XSet := { xFree with queue := [(⟨0, 0, 1⟩, 7), (k, 7)] }

theorem witness_FencesAndLocks_grants :
    (let d := { demoDev gXsaved c with groups := [gXsaved, gOther] };
      xTied.holder = none ∧ firstRequest d xTied.queue = some (k, 7) ∧ (d.group? k).bind Group.xsaved = some [(3, 9)]) ∧
    (let x : XSet := { xFree with holder := some k, releasing := true };
      ∀ h ∈ [g, { g with pend := [⟨0, .x 64, 1, 5⟩] }], let d := { demoDev h c with launches := [laX], xsets := [x] };
        x ∈ d.xsets ∧ x.die = 0 ∧ d.group? k = some h ∧ d.xBusy h = !h.pend.isEmpty) := by decide

theorem witness_Accesses_gang :
    (let xs := [(own0, [1, 2, 3, 4]), ({ own0 with lane := 1, space := .gang }, ([5, 6, 7, 8] : List Byte))];
      (∃ e ∈ xs, e.1.own la g) ∧ ∀ e ∈ xs, e.1.tagged = false ∧ e.1.store = .blk la.tag g.key.block) ∧
    (let xs : List AtomLane := [⟨own0, .atom .addZ32 1 [], []⟩, ⟨{ own0 with lane := 1, space := .gang }, .atom .addZ32 1 [], []⟩];
      (∃ x ∈ xs, x.acc.own la g) ∧ ∀ x ∈ xs, x.acc.tagged = false ∧ x.acc.store = .blk la.tag g.key.block) ∧
    (∀ x ∈ [(⟨far0, .atom .addZ32 1 [], []⟩ : AtomLane)], x.acc.far) ∧ (demo.dev.retire c.g 12 [⟨7, .v 4, 0⟩]).group? c.g ≠ none := by
  refine ⟨⟨⟨_, List.mem_cons_self, rfl, rfl, rfl⟩, by decide⟩, ⟨⟨_, List.mem_cons_self, rfl, rfl, rfl⟩, by decide⟩, ?_, by decide⟩
  intro x hx
  obtain rfl : x = ⟨far0, .atom .addZ32 1 [], []⟩ := by simpa using hx
  exact ⟨rfl, rfl⟩

theorem witness_VintageWords_tags : (∃ h ∈ (ofAcc [acc 0 (.loadVt 16383 true [])]).dev.groups, acc 0 (.loadVt 16383 true []) ∈ h.acc) := by decide

theorem witness_RemoteWords_waits :
    (let h := { gAcc [acc 0 (.store [1])] with accesses := 1 }; h.storesDone c = false ∧ h.key = c.g) ∧
    (flying (remote .put)).dev.op? 0 = some (remote .put) := by decide

/-- An engine copy from the pad of another die, and a gather to it, whose request has had no response. -/
def asking (kind : OpKind) (ask : Nat) : EngineOp :=
  { op kind [0x6000000, 64, 16, 0, 0, 0] with ask := ask, storeA := .pad, storeB := .pad, lanes := [⟨0, 0, .pad, 0x6000000, false, false, 0⟩, ⟨1, 0, .blk 0 0, 0, false, false, 0⟩] }

theorem witness_Watchdogs_asks :
    (∀ kd ∈ [OpKind.s2s, .gat 4], ∀ t ∈ [49999, 50000], let p := asking kd t;
      (flying p).dev.op? 0 = some p ∧ (flying p).dev.job? p.job = some j ∧ (flying p).opAsks p = true ∧ p.held = none ∧ (flying p).dev.dumpHolds p.job = false) ∧
    (let p := { asking .s2s 0 with held := some ⟨0, false⟩ }; p.held.isSome = true) ∧
    (let p : EngineOp := { remote (.ratom .casB32 2) with sent := true, link := some 3 };
      ∀ f ∈ (demo.dev.link 3).waiting, f.msg ≠ .request p.id) ∧
    (let p : EngineOp := remote (.ratom .casB32 2); p.link = none) ∧
    (let d : Dev := { demo.dev with links := [{ Link.blank 3 with waiting := [⟨0, 0, 1, .request 0, [], 0⟩] }] }; ∃ f ∈ (d.link 3).waiting, f.msg = .request 0) := by
  decide +kernel

theorem witness_Watchdogs_ties :
    (∃ h ∈ [gOther], h.key.launch = k.launch ∧ h.key ≠ k ∧ h.counts = true) ∧
    (let h := { gDog (.barrier 15) (.bar 15 0) 100000000 with key := ⟨0, 0, 0⟩ };
      ({ demo with dev := { demo.dev with groups := [h, gOther] } } : State).tiedBefore ⟨0, 0, 1⟩ la 100000000 = true) := by decide

theorem witness_Preemption_saves :
    (let x : XSet := { xFree with holder := some k };
      let d := { demoDev g c with launches := [laX], xsets := [x] }; g.place = some ⟨0, 0, 0⟩ ∧ d.xset? ⟨0, 0, 0⟩ = some x ∧ d.holdsX g = true) ∧
    (let x := { savedBlock with copyFrom := some (0, 1) }; let s := launchIn laSaved [x] [gSaved];
      s.dev.block? 0 0 = some x ∧ x.copyFrom = some (0, 1) ∧ ((0 : Nat), (1 : Nat)) ≠ (0, 0 / 4) ∧ (s.dev.copySlots 1 (0, 1) (0, 0)).isSome = true) ∧
    (let s := slotted [slot15]; s.dev.copySlots 1 (0, 0) (0, 1) ≠ none) := by decide +kernel

theorem witness_JobEnds_dumps :
    (let d : Dev := { demo.dev with dump := some (dump none), abandoned := [(3, 9)] }; d.dump = some (dump none) ∧ (dump none).job = j.id ∧ (dump none).complete = false) ∧
    (∃ x ∈ (reporting false).dev.reports, x.job = 1) := by decide

theorem witness_Dumps_cuts :
    (let s := dumping (dump none) .halting; s.dev.dump = some (dump none) ∧ s.host.wf = true) ∧
    (let d : Dev := { demo.dev with abandoned := [(5, 1)] }; ((5 : Nat), (1 : Nat)) ∈ d.abandoned ∧ d.dump = none) := by decide

theorem witness_Debugger_traps :
    (let h := { g with run := .stopped, trap := some (2, 0x80) };
      ({ demoDev h c with regs := { Regs.reset with dbgJob := 2 } } : Dev).resGroup (identOf h) = some h) := by decide

theorem witness_Collectives_members :
    (let p := { coll 1 1 with regs := List.replicate 8 0 ++ [1, 0, 0, 2, 0, 0, 1, 0, 0, 0, 0, 0] }; (flying p).dev.op? 0 = some p ∧ p.kind = .coll ∧ 1 < p.desc 3) ∧
    (∀ p ∈ demo.dev.ops, p.job = 1 → p.kind ≠ .coll) ∧
    (let p := { coll 1 1 with regs := List.replicate 8 0 ++ [1, 0, 0, 1, 0, 0, 1, 0, 0, 0, 0, 0] };
      let s : State := { flying p with dev := { (flying p).dev with package := 9, routes := [⟨0, 3, 3⟩] } };
      s.dev.ops = [p] ∧ p.job = 1 ∧ s.collRead j p.own (p.desc 7) 2 (p.desc 3) = [0] ∧ s.dev.linkFor 0 = some 3) := by decide +kernel

/-- The demonstration launch's group with a word at its packet, ready to issue. -/
def readyState : State := wording 0x08081018 g

theorem witness_Arbiter_ages : readyState.candidates 0 0 ≠ [] := by decide +kernel

theorem witness_ChecksAndFaults_uni :
    (Instr.isWord (.mxBand 8) = true ∧ Instr.uni (.mxBand 8) = true ∧ Instr.scalar (.mxBand 8) = false ∧ Instr.uni (.cstPut 8) = false) ∧
    (let h := gUni; let s := demoWith h c; let i : Instr := .mxBand 8;
      checksItself i = false ∧ checksValues i = false ∧ s.dev.cur = some c ∧ s.dev.group? c.g = some h ∧ s.dev.launch? c.g.launch = some la ∧
        i.fieldFault = none ∧ extendedField i.operands = none ∧ divRegField la.divDepth i.operands = none ∧ c.fresh = true ∧ h.sbchk = false ∧
        h.uchk = true ∧ nonuniformField s.dev h c (i.operands.filter i.compares) = some 2) := by decide

end Sys2Proof.Tests
end

