-- ==== Sys2Proof/Proofs/Moves.lean ====
section
/-!
SUPPORT. What a move does, said once: every meaning, every batch's turn and every step answers the state after a list of acts, so that no step
stops (R181 to R183); and what a step is for an input and for the word of a batch (R11, R346, R373).
-/

namespace Sys2Proof.Machine

/-! ### Outcomes that are the state after some acts -/

/-- An outcome that is the state after some acts on `s`. -/
def ActsOn (s : State) (o : Host.Outcome State Fault Refusal) : Prop := ∃ as, o = .next (s.run as)

theorem ActsOn.commit (s : State) (as : List Act) : ActsOn s (commit s as) := ⟨as, rfl⟩
theorem ActsOn.refl (s : State) : ActsOn s (.next s) := ⟨[], rfl⟩
theorem ActsOn.dev (s : State) (d : Dev) : ActsOn s (.next { s with dev := d }) := ⟨[.dev d], rfl⟩

theorem ActsOn.goesOn {s : State} {o : Host.Outcome State Fault Refusal} (h : ActsOn s o) : ∃ t, o = .next t :=
  h.elim fun _ e => ⟨_, e⟩

/-- What acts on a state with other records acts on the state itself. -/
theorem ActsOn.of_dev {s : State} {d : Dev} {o : Host.Outcome State Fault Refusal} (h : ActsOn { s with dev := d } o) : ActsOn s o := by
  obtain ⟨as, rfl⟩ := h
  exact ⟨.dev d :: as, rfl⟩

theorem ActsOn.andNext {s : State} {o : Host.Outcome State Fault Refusal} {f : State → Host.Outcome State Fault Refusal} (h : ActsOn s o)
    (hf : ∀ t, ActsOn t (f t)) : ActsOn s (andNext o f) := by
  obtain ⟨as, rfl⟩ := h
  obtain ⟨bs, e⟩ := hf (s.run as)
  exact ⟨as ++ bs, by rw [State.run_append]; exact e⟩

/-! ### The instructions -/

/-- Every instruction's meaning is a list of acts: none stops with a fault or a refusal. -/
theorem exec_acts (i : Instr) (s : State) : ActsOn s (exec i s) := by
  cases i
  case brk k =>
    show ActsOn s (execBrk k s)
    unfold execBrk
    split <;> exact .commit _ _
  all_goals exact .commit _ _

theorem issueOne_acts (c : Issue) (i : Instr) (s : State) : ActsOn s (issueOne c i s) :=
  .andNext (.of_dev (exec_acts i (s.issuing c))) fun t => .dev t _

/-! ### The words of a batch -/

theorem retryWord_acts (g : Group) (l : Launch) (lane : Nat) (h : Hold) (s : State) : ActsOn s (retryWord g l lane h s) := by
  unfold retryWord
  split
  · exact issueOne_acts _ _ s
  · exact .refl s

theorem issueSlot_acts (g : Group) (ls : List Nat) (pc : Pc) (u : Slotted) (s : State) : ActsOn s (issueSlot g ls pc u s) := by
  unfold issueSlot
  split
  · exact issueOne_acts _ _ s
  · exact .commit s _

theorem chainActs_acts (g : Group) (ls : List Nat) (pc : Pc) (old : List Lane) (us : List Slotted) (s : State) :
    ActsOn s (chainActs g ls pc old us s) := by
  induction us generalizing s with
  | nil => exact .refl s
  | cons u us ih =>
    unfold chainActs
    split
    · dsimp only
      split
      · exact .andNext (.of_dev (issueOne_acts _ _ _)) fun t => .of_dev (ih _)
      · exact .andNext (issueOne_acts _ _ s) ih
    · exact .refl s

/-- A chain that faults leaves the state that its first faulting word leaves. -/
theorem chainFault_acts {g : Group} {ls : List Nat} {pc : Pc} {s t : State} {us : List Slotted} (h : chainFault g ls pc s us = some t) :
    ActsOn s (.next t) := by
  induction us with
  | nil => cases h
  | cons u us ih =>
    unfold chainFault at h
    split at h
    next v hv =>
      split at h
      · cases h
        exact .andNext (hv ▸ issueSlot_acts g ls pc u s) fun v => .dev v _
      · exact ih h
    · cases h

theorem chainOrder_acts (us : List Slotted) (s : State) : ActsOn s (.next (chainOrder us s).2) := by
  unfold chainOrder
  split
  · exact .dev s _
  · exact .refl s

theorem issueWords_acts (g : Group) (l : Launch) (lane : Nat) (us : List Slotted) (s : State) : ActsOn s (issueWords g l lane us s) := by
  unfold issueWords
  apply ActsOn.of_dev (d := (s.advanced g l lane us).dev)
  split
  · exact .andNext (issueSlot_acts _ _ _ _ _) fun t => .dev t _
  · dsimp only
    split
    next t ht => exact .andNext (chainFault_acts ht) fun t => .dev t _
    · exact .andNext (chainOrder_acts us _) fun t => chainActs_acts _ _ _ _ _ t

theorem freshWord_acts (g : Group) (l : Launch) (lane : Nat) (s : State) : ActsOn s (freshWord g l lane s) := by
  unfold freshWord
  dsimp only
  split
  · exact .refl s
  · split
    · exact .commit s _
    · split
      · exact .commit s _
      · split
        · exact .commit s _
        · exact issueWords_acts g l lane _ s

theorem batchActs_acts (k : GKey) (lane : Nat) (s : State) : ActsOn s (batchActs k lane s) := by
  unfold batchActs
  split
  · split
    · exact .refl s
    · split
      · exact retryWord_acts _ _ lane _ s
      · exact freshWord_acts _ _ lane s
  · exact .refl s

theorem batchTurn_acts (k : GKey) (lane : Nat) (s : State) : ActsOn s (batchTurn k lane s) :=
  .andNext (batchActs_acts k lane s) fun t => .commit t _

/-! ### Inputs, moves and steps -/

theorem takeInput_acts (i : Input) (s : State) : ActsOn s (takeInput i s) := by
  unfold takeInput
  split
  · exact .refl s
  · cases i
    case cycle die _ =>
      dsimp only
      split
      · exact .commit s _
      · exact .refl s
    case event e _ => exact exec_acts e s
    all_goals exact .commit s _

theorem runMove_acts (m : Move) (s : State) : ActsOn s (runMove m s) := by
  cases m with
  | input i => exact takeInput_acts i s
  | opportunity die core => exact .commit s _
  | word k lane => exact batchTurn_acts k lane s
  | endCycle die => exact .commit s _

theorem nextMove_acts (s : State) : ActsOn s (.next (nextMove s).2) := by
  unfold nextMove
  split <;> exact .dev s _

/-- Every step of the machine is a list of acts on its state. -/
theorem step_acts (s : State) : ActsOn s (step s) :=
  .andNext (nextMove_acts s) fun t => runMove_acts (nextMove s).1 t

/-! ### The next move -/

section
variable {s : State} {m : Move} {ms : List Move} {i : Input} {e : Instr}

/-- The state in which a move that stands first is made. -/
theorem step_of_move (hm : s.dev.moves = m :: ms) : step s = runMove m (s.withDev fun d => { d with moves := ms }) := by
  unfold step nextMove
  rw [hm]
  rfl

/-- Where no move stands, the world outside supplies an input. -/
theorem step_of_no_move (hm : s.dev.moves = []) :
    step s = takeInput (Config.freeInput s.dev.free) (s.withDev fun d => { d with free := d.free + 1 }) := by
  unfold step nextMove
  rw [hm]
  rfl

/-! ### Which inputs act (R11, R346) -/

theorem Dev.admitsInput_of_good {d : Dev} (hp : d.power = true) (hg : d.trust.good = true) : d.admitsInput i = true := by
  unfold Dev.admitsInput
  split <;> simp [hp, hg]

theorem Dev.admitsInput_without_power {d : Dev} (hp : d.power = false) (he : e ≠ .packageReset) : d.admitsInput (.event e) = false := by
  cases e
  case packageReset => exact absurd rfl he
  all_goals simp [Dev.admitsInput, hp]

theorem Dev.admitsInput_failed_check {d : Dev} (hg : d.trust.good = false) (hr : e ≠ .packageReset) (hd : e ≠ .packagePowerDown)
    (hl : ∀ good, e ≠ .recoveryLoad good) : d.admitsInput (.event e) = false := by
  cases e
  case packageReset => exact absurd rfl hr
  case packagePowerDown => exact absurd rfl hd
  case recoveryLoad good => exact absurd rfl (hl good)
  all_goals simp [Dev.admitsInput, hg]

theorem takeInput_not_admitted (h : s.dev.admitsInput i = false) : takeInput i s = .next s := by
  simp [takeInput, h]

theorem takeInput_event (h : s.dev.admitsInput (.event e) = true) : takeInput (.event e) s = exec e s := by
  simp [takeInput, h]

end

/-! ### The turn of a batch -/

section
variable {s : State} {k : GKey} {lane : Nat} {g : Group} {la : Launch}

/-- A held batch's turn: its word is tried again, and then come the reports of the watchpoints that the group's writes matched (R373). -/
theorem batchTurn_held {h : Hold} {i : Instr} (hg : s.dev.group? k = some g) (hla : s.dev.launch? k.launch = some la) (hi : g.mayIssue = true)
    (hl : g.isLive lane = true) (hh : (g.lane lane).hold = some h) (hw : heldWord la (g.lane lane) = some i) :
    batchTurn k lane s = andNext (issueOne (heldIssue g la lane h) i s) fun t => commit t (settleWatch k t) := by
  simp [batchTurn, batchActs, retryWord, hg, hla, hi, hl, hh, hw]

/-- A batch that something keeps from its next word does nothing, but for the reports of watchpoints (R373). -/
theorem batchTurn_waits (hg : s.dev.group? k = some g) (hla : s.dev.launch? k.launch = some la) (hi : g.mayIssue = true)
    (hl : g.isLive lane = true) (hh : (g.lane lane).hold = none) (hw : s.batchWaits g la lane ≠ none) :
    batchTurn k lane s = commit s (settleWatch k s) := by
  have hw' : (s.batchWaits g la lane).isSome = true := Option.isSome_iff_ne_none.mpr hw
  simp [batchTurn, batchActs, freshWord, andNext, hg, hla, hi, hl, hh, hw']

end

/-! ### Steps, by the move that stands first -/

section
variable {s : State} {ms : List Move}

/-- Every step goes on: the faults of the device are taken as its spec says (R181 to R183). -/
theorem step_goesOn (s : State) : ∃ t, step s = .next t := (step_acts s).goesOn

/-- A package with power and a good image executes an event. -/
theorem step_event {e : Instr} (hm : s.dev.moves = .input (.event e) :: ms) (hp : s.dev.power = true) (hg : s.dev.trust.good = true) :
    step s = exec e (s.withDev fun d => { d with moves := ms }) := by
  rw [step_of_move hm]
  exact takeInput_event (Dev.admitsInput_of_good hp hg)

/-- R11: without power a package takes only its reset. -/
theorem step_event_without_power {e : Instr} (hm : s.dev.moves = .input (.event e) :: ms) (hp : s.dev.power = false) (he : e ≠ .packageReset) :
    step s = .next (s.withDev fun d => { d with moves := ms }) := by
  rw [step_of_move hm]
  exact takeInput_not_admitted (Dev.admitsInput_without_power hp he)

/-- R346: of the events, a package whose image failed its check takes only reset, power-down and recovery. -/
theorem step_event_failed_check {e : Instr} (hm : s.dev.moves = .input (.event e) :: ms) (hg : s.dev.trust.good = false) (hr : e ≠ .packageReset)
    (hd : e ≠ .packagePowerDown) (hl : ∀ good, e ≠ .recoveryLoad good) : step s = .next (s.withDev fun d => { d with moves := ms }) := by
  rw [step_of_move hm]
  exact takeInput_not_admitted (Dev.admitsInput_failed_check hg hr hd hl)

/-- A held batch's step: its word tried again, then the reports that are due (R373). -/
theorem step_heldWord {k : GKey} {lane : Nat} {g : Group} {la : Launch} {h : Hold} {i : Instr} (hm : s.dev.moves = .word k lane :: ms)
    (hg : s.dev.group? k = some g) (hla : s.dev.launch? k.launch = some la) (hi : g.mayIssue = true) (hl : g.isLive lane = true)
    (hh : (g.lane lane).hold = some h) (hw : heldWord la (g.lane lane) = some i) :
    step s = andNext (issueOne (heldIssue g la lane h) i (s.withDev fun d => { d with moves := ms })) fun t => commit t (settleWatch k t) := by
  rw [step_of_move hm]
  exact batchTurn_held hg hla hi hl hh hw

/-- The step of a batch that something keeps from its next word: the reports that are due, and nothing else. -/
theorem step_waitingWord {k : GKey} {lane : Nat} {g : Group} {la : Launch} (hm : s.dev.moves = .word k lane :: ms)
    (hg : s.dev.group? k = some g) (hla : s.dev.launch? k.launch = some la) (hi : g.mayIssue = true) (hl : g.isLive lane = true)
    (hh : (g.lane lane).hold = none) (hw : (s.withDev fun d => { d with moves := ms }).batchWaits g la lane ≠ none) :
    step s = .next ((s.withDev fun d => { d with moves := ms }).did (settleWatch k)) := by
  rw [step_of_move hm]
  exact batchTurn_waits hg hla hi hl hh hw

end

/-! ### Reset, power and recovery -/

/-- R11: reference time and what the flash holds outlast a reset; measurements aside, the records are as right after reset. -/
theorem Dev.afterReset_keeps (d : Dev) :
    d.afterReset.time = d.time ∧ d.afterReset.trust.mr0 = d.trust.mr0 ∧ d.afterReset.trust.mr1 = d.trust.mr1 ∧
      d.afterReset.trust.good = d.trust.good ∧ d.afterReset.regs = Regs.reset ∧ d.afterReset.groups = [] ∧ d.afterReset.jobs = [] ∧
      d.afterReset.queues = [] := ⟨rfl, rfl, rfl, rfl, rfl, rfl, rfl, rfl⟩

theorem exec_packageReset (s : State) : exec .packageReset s = .next (s.withDev Dev.afterReset) := rfl

theorem exec_packagePowerDown (s : State) : exec .packagePowerDown s = .next (s.withDev fun d => { d.afterReset with power := false }) := rfl

/-- R346: recovery of an image that passed its check has no effect. -/
theorem exec_recoveryLoad_good {s : State} (good : Bool) (h : s.dev.trust.good = true) : exec (.recoveryLoad good) s = .next s := by
  show execRecoveryLoad good s = .next s
  simp [execRecoveryLoad, h, commit]

/-- R346: an image that failed its check is reloaded and measured anew, and reset follows. -/
theorem exec_recoveryLoad_failed {s : State} (good : Bool) (h : s.dev.trust.good = false) :
    exec (.recoveryLoad good) s = .next (s.withDev fun d => { d.afterReset with
      free := d.free + 1, trust := { d.afterReset.trust with mr0 := Config.reloadHash d.free, good := good } }) := by
  show execRecoveryLoad good s = _
  simp only [execRecoveryLoad, h]
  rfl

end Sys2Proof.Machine
end

