-- ==== Sys2Proof/Proofs/Scope.lean ====
section
/-!
PROOF. The statements about the machine as a whole: what reset leaves (R11, R344 to R377), and why the statement on steps does not hold as it
stands: it leaves out the reports of watchpoints, which come at the end of a batch's turn (R373).
-/

namespace Sys2Proof.Machine

/-! ### A report that is due in a held batch's turn -/

/-- What a lane holds that waits at `wait.ld` (R163). -/
def loadHold : Hold := ⟨.retry, 4, .none, 0, 0, 0, true, [], 0, [], none⟩

/-- A store of the group, the word before, of which one access was performed: pad byte 0x600_0000, of die 1, matched watchpoint 0 there. -/
def watchedWrite : WatchHit := ⟨0, 0x80, [(1, 0, 0x6000000)]⟩

/-- The group of a placed word with every lane held at it. The store's last access has timed out at die 1 (R327): its fault is kept for the end of
the fibres, and no access of the store is still on its way. -/
def reportGroup (w : Nat) : Group :=
  { newGroup (fetchLaunch (BitVec.ofNat 32 w)) 0 0 ⟨0, 0, 0⟩ with
    lanes := List.replicate 8 { Lane.empty with mode := .live, pc := 0x80, hold := some loadHold }
    deferred := [⟨0, 1, 0x34, 0x6000020, 0, 0, true⟩]
    accesses := 3
    watch := [watchedWrite] }

/-- The bits of `wait.ld` with the count 0. -/
def waitLdBits : Nat := (encode false (.waitLd 0)).toNat

/-- The group stands at `wait.ld`, its loads have landed, and the turn of its batch is the next move. Watchpoint 0 of die 1 is armed
for the group's job (R371). -/
def reportState : State :=
  ((State.reset.withFetchWord 32 waitLdBits).withGroup (reportGroup waitLdBits)).withDev fun d =>
    { d with regs := { d.regs with wpctl := [(4, 0x100000011)], wpaddr := [(4, 0x6000000)] } }

/-- The store's last access, at pad byte 0x600_0020 of die 1: 50 us have passed without a response (R327). -/
def lateStore : Access :=
  { id := 1, seq := 0, lane := 1, helper := false, gang := false, store := .pad, addr := 0x6000020, size := 4, vt := 0, acq := false, rel := false,
    scope := 0, op := .store [1, 0, 0, 0], loc := 0x80, timer := 50000 }

/-- The state in which that access is still on its way, and a move comes next. -/
def lateState (m : Move) : State :=
  (reportState.withGroup { reportGroup waitLdBits with deferred := [], acc := [lateStore] }).withDev fun d => { d with moves := m :: d.moves }

/-- The time-out of the access is a step to the state in which the report is due: the machine comes to such states. -/
theorem step_lateState : step (lateState (.input (.event (.crossDieTimeout (.access fetchKey 1))))) = .next reportState := by rfl

/-- The matched writes of a group that no report names yet, in the state that an outcome leaves. -/
def openReports (k : GKey) : Host.Outcome State Fault Refusal → Option (List WatchHit)
  | .next t => (t.dev.group? k).map Group.watch
  | _ => none

/-- The turn of the held batch ends with the report of the matched write. -/
theorem openReports_step : openReports fetchKey (step reportState) = some [] := by decide

/-- The word that is tried again in that turn reports nothing. -/
theorem openReports_word :
    openReports fetchKey (issueOne (heldIssue (reportGroup waitLdBits) (fetchLaunch (BitVec.ofNat 32 waitLdBits)) 0 loadHold) (.waitLd 0)
      (reportState.withDev fun d => { d with moves := [] })) = some [watchedWrite] := by decide

/-- Refutes O51: its clause on a held batch makes the step the word tried again and no more, where the turn ends with the WATCH reports that are due
(R373, `step_heldWord`). Its clause on a batch that waits leaves them out as well (`step_waitingWord`); every step does go on (`step_goesOn`). -/
theorem not_machineGoesOn : ¬ Obligations.MachineGoesOn := by
  unfold Obligations.MachineGoesOn
  rintro ⟨-, ⟨-, -, -, held, -⟩, -⟩
  have e := held reportState fetchKey 0 [] (reportGroup waitLdBits) loadHold (.waitLd 0) (fetchLaunch (BitVec.ofNat 32 waitLdBits))
    (by decide) (by decide) (by decide) (by decide) (by decide) (by decide) (by decide)
  have h := openReports_step
  rw [e] at h
  exact absurd (openReports_word.symm.trans h) (by decide)

/-! ### Reset -/

/-- The cells of TMUL, at 4 f + 1 for each virtual function f, read as 0 at every other number (R344). -/
theorem cellGet_tmul_other (v : Dword) (n k a : Nat) (ha : a % 4 ≠ 1) : cellGet ((countFrom k n).map fun f => (4 * f + 1, v)) a = 0 := by
  induction n generalizing k with
  | zero => rfl
  | succ n ih =>
    have hne : a ≠ 4 * k + 1 := by omega
    simp [countFrom, cellGet, hne, ih, unlisted]

theorem cellGet_tmul (v : Dword) (n k f : Nat) (hk : k ≤ f) (hf : f < k + n) :
    cellGet ((countFrom k n).map fun f => (4 * f + 1, v)) (4 * f + 1) = v := by
  induction n generalizing k with
  | zero => omega
  | succ n ih =>
    by_cases he : f = k
    · simp [countFrom, cellGet, he]
    · have hlt : ¬ f < k := by omega
      simp [countFrom, cellGet, he, hlt, ih (k + 1) (by omega) (by omega)]

/-- R344: right after reset a virtual function has the offset 0, the multiplier 2^31 and the third register 0. -/
theorem vfReset_reads (f : Nat) (h1 : 1 ≤ f) (h2 : f < 64) :
    cellGet Regs.reset.vf (4 * f) = 0 ∧ cellGet Regs.reset.vf (4 * f + 1) = 0x80000000 ∧ cellGet Regs.reset.vf (4 * f + 2) = 0 :=
  ⟨cellGet_tmul_other _ 63 1 _ (by omega), cellGet_tmul _ 63 1 f h1 (by omega), cellGet_tmul_other _ 63 1 _ (by omega)⟩

/-- The registers of the virtual functions are in canonical form. -/
theorem vfReset_wf : cellsWf Regs.reset.vfReset = true := by decide

/-- R356: the status of every link right after reset. -/
theorem linkStat_reset (n : Nat) : Regs.reset.linkStat n = 0x3C := by
  show ((0 : Dword) ^^^ 0x3C).toNat = 0x3C
  decide

/-- The memories right after reset are empty, so each is in canonical form. -/
theorem State.reset_inv : State.reset.Inv := ⟨rfl, rfl, rfl, rfl, rfl⟩

/-- Settles O50: every field but the clocks of the virtual functions is a literal of the reset state, and those are read cell by cell. -/
theorem resetState : Obligations.ResetState := by
  unfold Obligations.ResetState
  have hcells : ∀ d, cellGet Regs.reset.err d = 0 ∧ cellGet Regs.reset.margin d = 0 := fun _ => ⟨rfl, rfl⟩
  have hwatch : ∀ n, cellGet Regs.reset.wpctl n = 0 ∧ cellGet Regs.reset.wpaddr n = 0 := fun _ => ⟨rfl, rfl⟩
  exact ⟨State.reset_inv, rfl, fun _ => rfl, rfl, rfl, rfl, rfl, rfl, rfl, rfl, rfl, rfl, vfReset_reads, fun n _ => linkStat_reset n, hcells, hwatch,
    fun _ _ => rfl, vfReset_wf, vfReset_wf⟩

end Sys2Proof.Machine
end

