-- ==== Sys2Proof/Proofs/Fields.lean ====
section
/-!
SUPPORT. A word as the list of its fields, from bit 31 down: what the decoder reads of it (R44). The codes of the operand types, when an assigned
word is accepted (R45, R50, R53), and the decoder that each opcode selects.
-/

namespace Sys2Proof

-- One lemma after another: elaborated at once, the lemmas per opcode ask for more threads than the check has memory for.
set_option Elab.async false

/-! ### Words as lists of fields (R44) -/

/-- A field of a word: its bits, and with them its width. -/
structure Field where
  {len : Nat}
  val : BitVec len

/-- The width of consecutive fields. -/
def widthOf : List Field → Nat
  | [] => 0
  | f :: fs => f.len + widthOf fs

/-- The number that consecutive fields make up, the highest first. -/
def numOf : List Field → Nat
  | [] => 0
  | f :: fs => f.val.toNat * 2 ^ widthOf fs + numOf fs

section
variable {lo len n : Nat} {x : BitVec n} {f : Field} {fs : List Field}

@[simp] theorem widthOf_nil : widthOf [] = 0 := by rw [widthOf]
@[simp] theorem widthOf_cons : widthOf (f :: fs) = f.len + widthOf fs := by rw [widthOf]
@[simp] theorem numOf_nil : numOf [] = 0 := by rw [numOf]
theorem numOf_cons : numOf (f :: fs) = f.val.toNat * 2 ^ widthOf fs + numOf fs := by rw [numOf]

theorem numOf_lt (fs : List Field) : numOf fs < 2 ^ widthOf fs := by
  induction fs with
  | nil => simp
  | cons f fs ih =>
    have hf := f.val.isLt
    rw [numOf_cons, widthOf_cons, Nat.pow_add]
    nlinarith

/-- A field below the first one is a field of the rest. -/
@[simp] theorem fld_numOf_below (h : lo + len ≤ widthOf fs) : fld (numOf (f :: fs)) lo len = fld (numOf fs) lo len := by
  obtain ⟨j, hj⟩ := Nat.exists_eq_add_of_le h
  simp only [fld, numOf_cons, hj]
  rw [show f.val.toNat * 2 ^ (lo + len + j) + numOf fs = numOf fs + 2 ^ lo * (2 ^ len * (f.val.toNat * 2 ^ j)) by ring,
    Nat.add_mul_div_left _ _ (by positivity), Nat.add_mul_mod_self_left]

/-- A field above the rest lies in the first one. -/
@[simp] theorem fld_numOf_above (h : widthOf fs ≤ lo) : fld (numOf (f :: fs)) lo len = fld f.val.toNat (lo - widthOf fs) len := by
  obtain ⟨j, rfl⟩ := Nat.exists_eq_add_of_le h
  simp only [fld, numOf_cons]
  rw [Nat.pow_add, ← Nat.div_div_eq_div_mul, Nat.add_comm, Nat.mul_comm, Nat.add_mul_div_left _ _ (by positivity),
    Nat.div_eq_of_lt (numOf_lt fs), Nat.zero_add, Nat.add_sub_cancel_left]

@[simp] theorem fld_all (x : BitVec n) : fld x.toNat 0 n = x.toNat := by simp [fld, Nat.mod_eq_of_lt x.isLt]

end

/-- A field that a number fills: what is read of it. -/
@[simp high] theorem fld_numOf_literal {lo len : Nat} {fs : List Field} (h : widthOf fs ≤ lo) (n v : Nat) :
    fld (numOf (⟨BitVec.ofNat n v⟩ :: fs)) lo len = v % 2 ^ n / 2 ^ (lo - widthOf fs) % 2 ^ len := by
  rw [fld_numOf_above h, BitVec.toNat_ofNat, fld]

@[simp] theorem toNat_beq_one (s : Bool) : (s.toNat == 1) = s := by cases s <;> rfl

@[simp] theorem fld_bool (s : Bool) : fld s.toNat 0 1 = s.toNat := by cases s <;> rfl

/-! ### The codes of the operand types: each fits its field and decodes to its value -/

@[simp] theorem ICond.ofCode_code (k : ICond) : k.code % 8 = k.code ∧ ICond.ofCode k.code = some k := by
  cases k <;> exact ⟨rfl, rfl⟩
@[simp] theorem FCond.ofCode_code (k : FCond) : k.code % 8 = k.code ∧ k.code ≠ 5 ∧ FCond.ofCode k.code = some k := by
  cases k <;> exact ⟨rfl, by decide, rfl⟩
@[simp] theorem FpTy.ofCode_code (t : FpTy) : t.code % 4 = t.code ∧ FpTy.ofCode t.code = some t := by
  cases t <;> exact ⟨rfl, rfl⟩
@[simp] theorem Rs.ofCode_code (r : Rs) : r.code % 8 = r.code ∧ Rs.ofCode r.code = some r := by
  cases r <;> exact ⟨rfl, rfl⟩
@[simp] theorem Space3.ofCode_code (p : Space3) : p.code % 4 = p.code ∧ Space3.ofCode p.code = some p := by
  cases p <;> exact ⟨rfl, rfl⟩
@[simp] theorem LdTy.ofCode_code (t : LdTy) : t.code % 8 = t.code ∧ LdTy.ofCode t.code = some t := by
  cases t <;> exact ⟨rfl, rfl⟩
@[simp] theorem StTy.ofCode_code (t : StTy) : t.code % 8 = t.code ∧ StTy.ofCode t.code = some t := by
  cases t <;> exact ⟨rfl, rfl⟩
@[simp] theorem ROp.ofCode_code (k : ROp) : k.code % 128 = k.code ∧ ROp.ofCode k.code = some k := by
  cases k <;> exact ⟨rfl, rfl⟩
@[simp] theorem MxFmt.ofCode_code (f : MxFmt) : f.code % 8 = f.code ∧ f.code ≠ 5 ∧ MxFmt.ofCode f.code = some f := by
  cases f <;> exact ⟨rfl, by decide, rfl⟩
@[simp] theorem AOp.ofCode_code (k : AOp) :
    k.code % 32 = k.code ∧ k.code ≠ 15 ∧ k.code ≠ 16 ∧ AOp.ofCode k.code = some k := by
  cases k <;> exact ⟨rfl, by decide, by decide, rfl⟩
@[simp] theorem RAOp.ofCode_code (k : RAOp) : k.code % 32 = k.code ∧ RAOp.ofCode k.code = some k := by
  rcases k with a | _
  · cases a <;> exact ⟨rfl, rfl⟩
  · exact ⟨rfl, rfl⟩
@[simp] theorem Ord.ofCode_code (r : Ord) : r.code % 16 = r.code ∧ Ord.ofCode r.code = some r := by
  rcases r with _ | s | s | s
  · exact ⟨rfl, rfl⟩
  all_goals cases s <;> exact ⟨rfl, rfl⟩
@[simp] theorem Fmt.ofCode_code (f : Fmt) : Fmt.ofCode f.code = some f := by
  cases f <;> rfl
/-- A pair of formats is read back from its code, which is none of the codes 81 to 86 of `pack` and `unpack` (R115). -/
@[simp] theorem CvtPair.ofCode_code (v : CvtPair) : v.code % 128 = v.code ∧ v.code ≠ 81 ∧ v.code ≠ 82 ∧ v.code ≠ 83 ∧
    v.code ≠ 84 ∧ v.code ≠ 85 ∧ v.code ≠ 86 ∧ CvtPair.ofCode v.code = some v := by
  have h := v.code_lt
  have hd := v.dst.code_lt
  have hc : v.code = 9 * v.src.code + v.dst.code := rfl
  refine ⟨by omega, by omega, by omega, by omega, by omega, by omega, by omega, ?_⟩
  simp [CvtPair.ofCode, show v.code / 9 = v.src.code by omega, show v.code % 9 = v.dst.code by omega]

theorem firstNonzero_eq_none {w : Nat} {us : List Unused} : firstNonzero w us = none ↔ ∀ u ∈ us, fld w u.lo u.len = 0 := by
  induction us with
  | nil => simp [firstNonzero]
  | cons u us ih =>
    rw [firstNonzero, List.forall_mem_cons, ← ih]
    split
    · simp [*]
    · split <;> simp [*]

/-- R45, R50, R53: an assigned word is accepted where S is 0 or has a scalar form and the unused fields are 0. -/
@[simp] theorem accept_eq_ok {w : Nat} {scalar : Bool} {unused : List Unused} {i j : Instr} :
    accept w scalar unused i = .ok j ↔ (scalar = false → fld w 30 1 ≠ 1) ∧ (∀ u ∈ unused, fld w u.lo u.len = 0) ∧ i = j := by
  rw [accept, ← firstNonzero_eq_none]
  split
  · simp [*]
  · split <;> simp_all

/-! ### The decoder that an opcode selects (R44, R50) -/

theorem decodeNat_00 {w : Nat} (h : fld w 24 6 = 0x00) : decodeNat w = decodeOp00 w := by rw [decodeNat, h]; rfl
theorem decodeNat_01 {w : Nat} (h : fld w 24 6 = 0x01) : decodeNat w = decodeOp01 w := by rw [decodeNat, h]; rfl
theorem decodeNat_02 {w : Nat} (h : fld w 24 6 = 0x02) : decodeNat w = decodeOp02 w := by rw [decodeNat, h]; rfl
theorem decodeNat_03 {w : Nat} (h : fld w 24 6 = 0x03) : decodeNat w = decodeOp03 w := by rw [decodeNat, h]; rfl
theorem decodeNat_04 {w : Nat} (h : fld w 24 6 = 0x04) : decodeNat w = decodeOp04 w := by rw [decodeNat, h]; rfl
theorem decodeNat_05 {w : Nat} (h : fld w 24 6 = 0x05) : decodeNat w = decodeOp05 w := by rw [decodeNat, h]; rfl
theorem decodeNat_06 {w : Nat} (h : fld w 24 6 = 0x06) : decodeNat w = decodeOp06 w := by rw [decodeNat, h]; rfl
theorem decodeNat_07 {w : Nat} (h : fld w 24 6 = 0x07) : decodeNat w = decodeOp07 w := by rw [decodeNat, h]; rfl
theorem decodeNat_08 {w : Nat} (h : fld w 24 6 = 0x08) : decodeNat w = decodeOp08 w := by rw [decodeNat, h]; rfl
theorem decodeNat_09 {w : Nat} (h : fld w 24 6 = 0x09) : decodeNat w = decodeOp09 w := by rw [decodeNat, h]; rfl
theorem decodeNat_0A {w : Nat} (h : fld w 24 6 = 0x0A) : decodeNat w = decodeOp0A w := by rw [decodeNat, h]; rfl
theorem decodeNat_0B {w : Nat} (h : fld w 24 6 = 0x0B) : decodeNat w = decodeOp0B w := by rw [decodeNat, h]; rfl
theorem decodeNat_0C {w : Nat} (h : fld w 24 6 = 0x0C) : decodeNat w = decodeOp0C w := by rw [decodeNat, h]; rfl
theorem decodeNat_0D {w : Nat} (h : fld w 24 6 = 0x0D) : decodeNat w = decodeOp0D w := by rw [decodeNat, h]; rfl
theorem decodeNat_0E {w : Nat} (h : fld w 24 6 = 0x0E) : decodeNat w = decodeOp0E w := by rw [decodeNat, h]; rfl
theorem decodeNat_0F {w : Nat} (h : fld w 24 6 = 0x0F) : decodeNat w = decodeOp0F w := by rw [decodeNat, h]; rfl
theorem decodeNat_10 {w : Nat} (h : fld w 24 6 = 0x10) : decodeNat w = decodeOp10 w := by rw [decodeNat, h]; rfl
theorem decodeNat_11 {w : Nat} (h : fld w 24 6 = 0x11) : decodeNat w = decodeOp11 w := by rw [decodeNat, h]; rfl
theorem decodeNat_12 {w : Nat} (h : fld w 24 6 = 0x12) : decodeNat w = decodeOp12 w := by rw [decodeNat, h]; rfl
theorem decodeNat_13 {w : Nat} (h : fld w 24 6 = 0x13) : decodeNat w = decodeOp13 w := by rw [decodeNat, h]; rfl
theorem decodeNat_14 {w : Nat} (h : fld w 24 6 = 0x14) : decodeNat w = decodeOp14 w := by rw [decodeNat, h]; rfl
theorem decodeNat_15 {w : Nat} (h : fld w 24 6 = 0x15) : decodeNat w = decodeOp15 w := by rw [decodeNat, h]; rfl
theorem decodeNat_16 {w : Nat} (h : fld w 24 6 = 0x16) : decodeNat w = decodeOp16 w := by rw [decodeNat, h]; rfl
theorem decodeNat_17 {w : Nat} (h : fld w 24 6 = 0x17) : decodeNat w = decodeOp17 w := by rw [decodeNat, h]; rfl
theorem decodeNat_18 {w : Nat} (h : fld w 24 6 = 0x18) : decodeNat w = decodeOp18 w := by rw [decodeNat, h]; rfl
theorem decodeNat_19 {w : Nat} (h : fld w 24 6 = 0x19) : decodeNat w = decodeOp19 w := by rw [decodeNat, h]; rfl
theorem decodeNat_1A {w : Nat} (h : fld w 24 6 = 0x1A) : decodeNat w = decodeOp1A w := by rw [decodeNat, h]; rfl
theorem decodeNat_1B {w : Nat} (h : fld w 24 6 = 0x1B) : decodeNat w = decodeOp1B w := by rw [decodeNat, h]; rfl
theorem decodeNat_1C {w : Nat} (h : fld w 24 6 = 0x1C) : decodeNat w = decodeOp1C w := by rw [decodeNat, h]; rfl
theorem decodeNat_1D {w : Nat} (h : fld w 24 6 = 0x1D) : decodeNat w = decodeOp1D w := by rw [decodeNat, h]; rfl
theorem decodeNat_1E {w : Nat} (h : fld w 24 6 = 0x1E) : decodeNat w = decodeOp1E w := by rw [decodeNat, h]; rfl
theorem decodeNat_1F {w : Nat} (h : fld w 24 6 = 0x1F) : decodeNat w = decodeOp1F w := by rw [decodeNat, h]; rfl
theorem decodeNat_20 {w : Nat} (h : fld w 24 6 = 0x20) : decodeNat w = decodeOp20 w := by rw [decodeNat, h]; rfl
theorem decodeNat_21 {w : Nat} (h : fld w 24 6 = 0x21) : decodeNat w = decodeOp21 w := by rw [decodeNat, h]; rfl
theorem decodeNat_22 {w : Nat} (h : fld w 24 6 = 0x22) : decodeNat w = decodeOp22 w := by rw [decodeNat, h]; rfl
theorem decodeNat_23 {w : Nat} (h : fld w 24 6 = 0x23) : decodeNat w = decodeOp23 w := by rw [decodeNat, h]; rfl
theorem decodeNat_28 {w : Nat} (h : fld w 24 6 = 0x28) : decodeNat w = decodeOp28 w := by rw [decodeNat, h]; rfl
theorem decodeNat_29 {w : Nat} (h : fld w 24 6 = 0x29) : decodeNat w = decodeOp29 w := by rw [decodeNat, h]; rfl
theorem decodeNat_2A {w : Nat} (h : fld w 24 6 = 0x2A) : decodeNat w = decodeOp2A w := by rw [decodeNat, h]; rfl
theorem decodeNat_2B {w : Nat} (h : fld w 24 6 = 0x2B) : decodeNat w = decodeOp2B w := by rw [decodeNat, h]; rfl
theorem decodeNat_2C {w : Nat} (h : fld w 24 6 = 0x2C) : decodeNat w = decodeOp2C w := by rw [decodeNat, h]; rfl
theorem decodeNat_2D {w : Nat} (h : fld w 24 6 = 0x2D) : decodeNat w = decodeOp2D w := by rw [decodeNat, h]; rfl
theorem decodeNat_2E {w : Nat} (h : fld w 24 6 = 0x2E) : decodeNat w = decodeOp2E w := by rw [decodeNat, h]; rfl
theorem decodeNat_2F {w : Nat} (h : fld w 24 6 = 0x2F) : decodeNat w = decodeOp2F w := by rw [decodeNat, h]; rfl
theorem decodeNat_30 {w : Nat} (h : fld w 24 6 = 0x30) : decodeNat w = decodeOp30 w := by rw [decodeNat, h]; rfl
theorem decodeNat_31 {w : Nat} (h : fld w 24 6 = 0x31) : decodeNat w = decodeOp31 w := by rw [decodeNat, h]; rfl
theorem decodeNat_32 {w : Nat} (h : fld w 24 6 = 0x32) : decodeNat w = decodeOp32 w := by rw [decodeNat, h]; rfl
theorem decodeNat_33 {w : Nat} (h : fld w 24 6 = 0x33) : decodeNat w = decodeOp33 w := by rw [decodeNat, h]; rfl
theorem decodeNat_34 {w : Nat} (h : fld w 24 6 = 0x34) : decodeNat w = decodeOp34 w := by rw [decodeNat, h]; rfl
theorem decodeNat_35 {w : Nat} (h : fld w 24 6 = 0x35) : decodeNat w = decodeOp35 w := by rw [decodeNat, h]; rfl
theorem decodeNat_36 {w : Nat} (h : fld w 24 6 = 0x36) : decodeNat w = decodeOp36 w := by rw [decodeNat, h]; rfl
theorem decodeNat_37 {w : Nat} (h : fld w 24 6 = 0x37) : decodeNat w = decodeOp37 w := by rw [decodeNat, h]; rfl
theorem decodeNat_38 {w : Nat} (h : fld w 24 6 = 0x38) : decodeNat w = decodeOp38 w := by rw [decodeNat, h]; rfl
theorem decodeNat_39 {w : Nat} (h : fld w 24 6 = 0x39) : decodeNat w = decodeOp39 w := by rw [decodeNat, h]; rfl
theorem decodeNat_3A {w : Nat} (h : fld w 24 6 = 0x3A) : decodeNat w = decodeOp3A w := by rw [decodeNat, h]; rfl
theorem decodeNat_3B {w : Nat} (h : fld w 24 6 = 0x3B) : decodeNat w = decodeOp3B w := by rw [decodeNat, h]; rfl
theorem decodeNat_3C {w : Nat} (h : fld w 24 6 = 0x3C) : decodeNat w = decodeOp3C w := by rw [decodeNat, h]; rfl
theorem decodeNat_3D {w : Nat} (h : fld w 24 6 = 0x3D) : decodeNat w = decodeOp3D w := by rw [decodeNat, h]; rfl
theorem decodeNat_3E {w : Nat} (h : fld w 24 6 = 0x3E) : decodeNat w = decodeOp3E w := by rw [decodeNat, h]; rfl
theorem decodeNat_3F {w : Nat} (h : fld w 24 6 = 0x3F) : decodeNat w = decodeOp3F w := by rw [decodeNat, h]; rfl

end Sys2Proof
end

