-- ==== Sys2Proof/Proofs/RoundTrip.lean ====
section
/-!
PROOF. The word of an instruction decodes to it (R44, R50). Per opcode, the words as lists of fields: that the widths add up, that the encoder gives
the number the fields make up, and that the opcode's decoder reads the instruction from them, field by field.
-/

namespace Sys2Proof

-- One lemma after another: elaborated at once, the lemmas per opcode ask for more threads than the check has memory for.
set_option Elab.async false

/-- R44: an instruction's word has no chain bit of its own, its S bit is that of the instruction, and with either chain bit it decodes to it. -/
def RoundTrips (i : Instr) : Prop :=
  encodeNat i < 2 ^ 31 ∧ (i.scalar = true ↔ encodeNat i / 2 ^ 30 % 2 = 1) ∧ ∀ c : Bool, decodeNat (encodeNat i + c.toNat * 2 ^ 31) = .ok i

/-- An instruction whose word has the given S bit, opcode and operand fields from bit 23 down round-trips where the decoder reads it from them. -/
theorem RoundTrips.of {i : Instr} (s : Bool) (op : BitVec 6) (fs : List Field)
    (h : widthOf fs = 24 ∧ encodeNat i = s.toNat * 2 ^ 30 + op.toNat * 2 ^ 24 + numOf fs ∧
      ∀ c, decodeNat (numOf (⟨.ofBool c⟩ :: ⟨.ofBool s⟩ :: ⟨op⟩ :: fs)) = .ok i) (hs : i.scalar = s := by rfl) : RoundTrips i := by
  obtain ⟨hw, he, hd⟩ := h
  have hlt := s.toNat_lt
  have hop := op.isLt
  have hf := numOf_lt fs
  rw [hw] at hf
  refine ⟨by omega, ?_, fun c => ?_⟩
  · rw [hs, show encodeNat i / 2 ^ 30 % 2 = s.toNat by omega]
    cases s <;> simp
  rw [← hd c, he]
  congr 1
  simp only [numOf_cons, widthOf_cons, hw, BitVec.toNat_ofBool]
  omega

open RoundTrips (of)

/-! ### The words of each opcode -/

@[simp] theorem roundTrip_op00 :
    RoundTrips .nop ∧ (∀ k, RoundTrips (.brk k)) ∧ ∀ k, RoundTrips (.trap k) := by
  refine ⟨of false 0x00 [⟨0#24⟩] ?_, fun k => of false 0x00 [⟨1#7⟩, ⟨k⟩] ?_, fun k => of false 0x00 [⟨2#7⟩, ⟨k⟩] ?_⟩ <;>
  exact ⟨by simp, by unfold encodeNat; simp +arith [placed, numOf_cons], fun c => by rw [decodeNat_00 (by simp), decodeOp00]; simp⟩

@[simp] theorem roundTrip_op01 (p : Reg) (o : BitVec 17) :
    RoundTrips (.br p o) ∧ RoundTrips (.sBr p o) := by
  refine ⟨of false 0x01 [⟨p⟩, ⟨o⟩] ?_, of true 0x01 [⟨p⟩, ⟨o⟩] ?_⟩ <;>
  exact ⟨by simp, by unfold encodeNat; simp +arith [placed, numOf_cons], fun c => by rw [decodeNat_01 (by simp), decodeOp01]; simp⟩

@[simp] theorem roundTrip_op02 :
    (∀ a, RoundTrips (.brx a)) ∧ (∀ o, RoundTrips (.call o)) ∧ (∀ a, RoundTrips (.callx a)) ∧ RoundTrips .ret := by
  refine ⟨fun a => of false 0x02 [⟨0#7⟩, ⟨a⟩, ⟨0#10⟩] ?_, fun o => of false 0x02 [⟨1#7⟩, ⟨o⟩] ?_, fun a => of false 0x02 [⟨2#7⟩, ⟨a⟩, ⟨0#10⟩] ?_,
    of false 0x02 [⟨3#7⟩, ⟨0#17⟩] ?_⟩ <;>
  exact ⟨by simp, by unfold encodeNat; simp +arith [placed, numOf_cons], fun c => by rw [decodeNat_02 (by simp), decodeOp02]; simp⟩

@[simp] theorem roundTrip_op03 :
    RoundTrips .exit ∧ RoundTrips .fibEnd ∧ ∀ d a b, RoundTrips (.fibSpawn d a b) := by
  refine ⟨of false 0x03 [⟨0#24⟩] ?_, of false 0x03 [⟨1#24⟩] ?_, fun d a b => of false 0x03 [⟨d⟩, ⟨a⟩, ⟨b⟩, ⟨2#3⟩] ?_⟩ <;>
  exact ⟨by simp, by unfold encodeNat; simp +arith [placed, numOf_cons], fun c => by rw [decodeNat_03 (by simp), decodeOp03]; simp⟩

@[simp] theorem roundTrip_op04 :
    (∀ o, RoundTrips (.divPush o)) ∧ RoundTrips .divJoin := by
  refine ⟨fun o => of false 0x04 [⟨0#7⟩, ⟨o⟩] ?_, of false 0x04 [⟨1#7⟩, ⟨0#17⟩] ?_⟩ <;>
  exact ⟨by simp, by unfold encodeNat; simp +arith [placed, numOf_cons], fun c => by rw [decodeNat_04 (by simp), decodeOp04]; simp⟩

@[simp] theorem roundTrip_op05 (p : Reg) (o : BitVec 17) :
    RoundTrips (.brRot p o) := by
  refine of false 0x05 [⟨p⟩, ⟨o⟩] ?_
  exact ⟨by simp, by unfold encodeNat; simp +arith [placed, numOf_cons], fun c => by rw [decodeNat_05 (by simp), decodeOp05]; simp⟩

@[simp] theorem roundTrip_op06 :
    (∀ a, RoundTrips (.wait a)) ∧ (∀ a i, RoundTrips (.waitAddrBlk a i)) ∧ (∀ a i, RoundTrips (.waitAddrPad a i)) ∧ RoundTrips .yield := by
  refine ⟨fun a => of false 0x06 [⟨0#7⟩, ⟨a⟩, ⟨0#10⟩] ?_, fun a i => of false 0x06 [⟨1#7⟩, ⟨a⟩, ⟨i⟩] ?_,
    fun a i => of false 0x06 [⟨2#7⟩, ⟨a⟩, ⟨i⟩] ?_, of false 0x06 [⟨3#7⟩, ⟨0#17⟩] ?_⟩ <;>
  exact ⟨by simp, by unfold encodeNat; simp +arith [placed, numOf_cons], fun c => by rw [decodeNat_06 (by simp), decodeOp06]; simp⟩

@[simp] theorem roundTrip_op07 (k : BitVec 8) :
    (∀ d, RoundTrips (.sysRd d k)) ∧ ∀ a, RoundTrips (.sysWr a k) := by
  refine ⟨fun d => of false 0x07 [⟨d⟩, ⟨0#9⟩, ⟨k⟩] ?_, fun a => of false 0x07 [⟨0#7⟩, ⟨a⟩, ⟨1#2⟩, ⟨k⟩] ?_⟩ <;>
  exact ⟨by simp, by unfold encodeNat; simp +arith [placed, numOf_cons], fun c => by rw [decodeNat_07 (by simp), decodeOp07]; simp⟩

@[simp] theorem roundTrip_op08 (s : Bool) (d a b : Reg) :
    RoundTrips (.add s d a b) ∧ RoundTrips (.sub s d a b) ∧ RoundTrips (.addSatS32 s d a b) ∧ RoundTrips (.subSatS32 s d a b) ∧
    RoundTrips (.addSatZ32 s d a b) ∧ RoundTrips (.subSatZ32 s d a b) ∧ RoundTrips (.addB64 s d a b) ∧ RoundTrips (.subB64 s d a b) := by
  refine ⟨of s 0x08 [⟨d⟩, ⟨a⟩, ⟨b⟩, ⟨0#3⟩] ?_, of s 0x08 [⟨d⟩, ⟨a⟩, ⟨b⟩, ⟨1#3⟩] ?_, of s 0x08 [⟨d⟩, ⟨a⟩, ⟨b⟩, ⟨2#3⟩] ?_,
    of s 0x08 [⟨d⟩, ⟨a⟩, ⟨b⟩, ⟨3#3⟩] ?_, of s 0x08 [⟨d⟩, ⟨a⟩, ⟨b⟩, ⟨4#3⟩] ?_, of s 0x08 [⟨d⟩, ⟨a⟩, ⟨b⟩, ⟨5#3⟩] ?_,
    of s 0x08 [⟨d⟩, ⟨a⟩, ⟨b⟩, ⟨6#3⟩] ?_, of s 0x08 [⟨d⟩, ⟨a⟩, ⟨b⟩, ⟨7#3⟩] ?_⟩ <;>
  exact ⟨by simp, by unfold encodeNat; simp +arith [placed, numOf_cons], fun c => by rw [decodeNat_08 (by simp), decodeOp08]; simp⟩

@[simp] theorem roundTrip_op09 (s : Bool) (d a b : Reg) :
    RoundTrips (.mul s d a b) ∧ RoundTrips (.mulHiS32 s d a b) ∧ RoundTrips (.mulHiZ32 s d a b) ∧ RoundTrips (.mulWideS32 s d a b) ∧
    RoundTrips (.mulWideZ32 s d a b) ∧ RoundTrips (.mad s d a b) ∧ RoundTrips (.madWideS32 s d a b) ∧ RoundTrips (.madWideZ32 s d a b) := by
  refine ⟨of s 0x09 [⟨d⟩, ⟨a⟩, ⟨b⟩, ⟨0#3⟩] ?_, of s 0x09 [⟨d⟩, ⟨a⟩, ⟨b⟩, ⟨1#3⟩] ?_, of s 0x09 [⟨d⟩, ⟨a⟩, ⟨b⟩, ⟨2#3⟩] ?_,
    of s 0x09 [⟨d⟩, ⟨a⟩, ⟨b⟩, ⟨3#3⟩] ?_, of s 0x09 [⟨d⟩, ⟨a⟩, ⟨b⟩, ⟨4#3⟩] ?_, of s 0x09 [⟨d⟩, ⟨a⟩, ⟨b⟩, ⟨5#3⟩] ?_,
    of s 0x09 [⟨d⟩, ⟨a⟩, ⟨b⟩, ⟨6#3⟩] ?_, of s 0x09 [⟨d⟩, ⟨a⟩, ⟨b⟩, ⟨7#3⟩] ?_⟩ <;>
  exact ⟨by simp, by unfold encodeNat; simp +arith [placed, numOf_cons], fun c => by rw [decodeNat_09 (by simp), decodeOp09]; simp⟩

@[simp] theorem roundTrip_op0A (s : Bool) (d a : Reg) :
    (∀ b, RoundTrips (.and s d a b)) ∧ (∀ b, RoundTrips (.or s d a b)) ∧ (∀ b, RoundTrips (.xor s d a b)) ∧ (∀ b, RoundTrips (.andn s d a b)) ∧
    (∀ b, RoundTrips (.orn s d a b)) ∧ (∀ b, RoundTrips (.xnor s d a b)) ∧ RoundTrips (.not s d a) := by
  refine ⟨fun b => of s 0x0A [⟨d⟩, ⟨a⟩, ⟨b⟩, ⟨0#3⟩] ?_, fun b => of s 0x0A [⟨d⟩, ⟨a⟩, ⟨b⟩, ⟨1#3⟩] ?_, fun b => of s 0x0A [⟨d⟩, ⟨a⟩, ⟨b⟩, ⟨2#3⟩] ?_,
    fun b => of s 0x0A [⟨d⟩, ⟨a⟩, ⟨b⟩, ⟨3#3⟩] ?_, fun b => of s 0x0A [⟨d⟩, ⟨a⟩, ⟨b⟩, ⟨4#3⟩] ?_, fun b => of s 0x0A [⟨d⟩, ⟨a⟩, ⟨b⟩, ⟨5#3⟩] ?_,
    of s 0x0A [⟨d⟩, ⟨a⟩, ⟨6#10⟩] ?_⟩ <;>
  exact ⟨by simp, by unfold encodeNat; simp +arith [placed, numOf_cons], fun c => by rw [decodeNat_0A (by simp), decodeOp0A]; simp⟩

@[simp] theorem roundTrip_op0B (s : Bool) (d a b : Reg) :
    RoundTrips (.shl s d a b) ∧ RoundTrips (.shrZ32 s d a b) ∧ RoundTrips (.shrS32 s d a b) ∧ RoundTrips (.rol s d a b) ∧
    RoundTrips (.ror s d a b) := by
  refine ⟨of s 0x0B [⟨d⟩, ⟨a⟩, ⟨b⟩, ⟨0#3⟩] ?_, of s 0x0B [⟨d⟩, ⟨a⟩, ⟨b⟩, ⟨1#3⟩] ?_, of s 0x0B [⟨d⟩, ⟨a⟩, ⟨b⟩, ⟨2#3⟩] ?_,
    of s 0x0B [⟨d⟩, ⟨a⟩, ⟨b⟩, ⟨3#3⟩] ?_, of s 0x0B [⟨d⟩, ⟨a⟩, ⟨b⟩, ⟨4#3⟩] ?_⟩ <;>
  exact ⟨by simp, by unfold encodeNat; simp +arith [placed, numOf_cons], fun c => by rw [decodeNat_0B (by simp), decodeOp0B]; simp⟩

@[simp] theorem roundTrip_op0C (s : Bool) (d a : Reg) :
    RoundTrips (.popc s d a) ∧ RoundTrips (.clz s d a) ∧ RoundTrips (.ctz s d a) ∧ RoundTrips (.brev s d a) ∧ RoundTrips (.bswap s d a) := by
  refine ⟨of s 0x0C [⟨d⟩, ⟨a⟩, ⟨0#10⟩] ?_, of s 0x0C [⟨d⟩, ⟨a⟩, ⟨1#10⟩] ?_, of s 0x0C [⟨d⟩, ⟨a⟩, ⟨2#10⟩] ?_, of s 0x0C [⟨d⟩, ⟨a⟩, ⟨3#10⟩] ?_,
    of s 0x0C [⟨d⟩, ⟨a⟩, ⟨4#10⟩] ?_⟩ <;>
  exact ⟨by simp, by unfold encodeNat; simp +arith [placed, numOf_cons], fun c => by rw [decodeNat_0C (by simp), decodeOp0C]; simp⟩

@[simp] theorem roundTrip_op0D (s : Bool) (d a b : Reg) :
    RoundTrips (.bfxZ32 s d a b) ∧ RoundTrips (.bfxS32 s d a b) ∧ RoundTrips (.bfi s d a b) := by
  refine ⟨of s 0x0D [⟨d⟩, ⟨a⟩, ⟨b⟩, ⟨0#3⟩] ?_, of s 0x0D [⟨d⟩, ⟨a⟩, ⟨b⟩, ⟨1#3⟩] ?_, of s 0x0D [⟨d⟩, ⟨a⟩, ⟨b⟩, ⟨2#3⟩] ?_⟩ <;>
  exact ⟨by simp, by unfold encodeNat; simp +arith [placed, numOf_cons], fun c => by rw [decodeNat_0D (by simp), decodeOp0D]; simp⟩

@[simp] theorem roundTrip_op0E (s : Bool) (d a : Reg) :
    (∀ b, RoundTrips (.minS32 s d a b)) ∧ (∀ b, RoundTrips (.minZ32 s d a b)) ∧ (∀ b, RoundTrips (.maxS32 s d a b)) ∧
    (∀ b, RoundTrips (.maxZ32 s d a b)) ∧ RoundTrips (.absS32 s d a) ∧ RoundTrips (.negS32 s d a) := by
  refine ⟨fun b => of s 0x0E [⟨d⟩, ⟨a⟩, ⟨b⟩, ⟨0#3⟩] ?_, fun b => of s 0x0E [⟨d⟩, ⟨a⟩, ⟨b⟩, ⟨1#3⟩] ?_, fun b => of s 0x0E [⟨d⟩, ⟨a⟩, ⟨b⟩, ⟨2#3⟩] ?_,
    fun b => of s 0x0E [⟨d⟩, ⟨a⟩, ⟨b⟩, ⟨3#3⟩] ?_, of s 0x0E [⟨d⟩, ⟨a⟩, ⟨4#10⟩] ?_, of s 0x0E [⟨d⟩, ⟨a⟩, ⟨5#10⟩] ?_⟩ <;>
  exact ⟨by simp, by unfold encodeNat; simp +arith [placed, numOf_cons], fun c => by rw [decodeNat_0E (by simp), decodeOp0E]; simp⟩

@[simp] theorem roundTrip_op0F (s : Bool) (d a b : Reg) (k : ICond) :
    RoundTrips (.icmp s d a b k) := by
  refine of s 0x0F [⟨d⟩, ⟨a⟩, ⟨b⟩, ⟨.ofNat 3 k.code⟩] ?_
  exact ⟨by simp, by unfold encodeNat; simp +arith [placed, numOf_cons], fun c => by rw [decodeNat_0F (by simp), decodeOp0F]; simp⟩

@[simp] theorem roundTrip_op10 (s : Bool) (d : Reg) (i : BitVec 17) :
    RoundTrips (.movi s d i) := by
  refine of s 0x10 [⟨d⟩, ⟨i⟩] ?_
  exact ⟨by simp, by unfold encodeNat; simp +arith [placed, numOf_cons], fun c => by rw [decodeNat_10 (by simp), decodeOp10]; simp⟩

@[simp] theorem roundTrip_op11 (s : Bool) (d : Reg) (i : BitVec 17) :
    RoundTrips (.movh s d i) := by
  refine of s 0x11 [⟨d⟩, ⟨i⟩] ?_
  exact ⟨by simp, by unfold encodeNat; simp +arith [placed, numOf_cons], fun c => by rw [decodeNat_11 (by simp), decodeOp11]; simp⟩

@[simp] theorem roundTrip_op12 (s : Bool) (d a : Reg) (i : BitVec 10) :
    RoundTrips (.iaddi s d a i) := by
  refine of s 0x12 [⟨d⟩, ⟨a⟩, ⟨i⟩] ?_
  exact ⟨by simp, by unfold encodeNat; simp +arith [placed, numOf_cons], fun c => by rw [decodeNat_12 (by simp), decodeOp12]; simp⟩

@[simp] theorem roundTrip_op13 (s : Bool) (d a : Reg) (i : BitVec 8) :
    RoundTrips (.andi s d a i) ∧ RoundTrips (.ori s d a i) ∧ RoundTrips (.xori s d a i) := by
  refine ⟨of s 0x13 [⟨d⟩, ⟨a⟩, ⟨0#2⟩, ⟨i⟩] ?_, of s 0x13 [⟨d⟩, ⟨a⟩, ⟨1#2⟩, ⟨i⟩] ?_, of s 0x13 [⟨d⟩, ⟨a⟩, ⟨2#2⟩, ⟨i⟩] ?_⟩ <;>
  exact ⟨by simp, by unfold encodeNat; simp +arith [placed, numOf_cons], fun c => by rw [decodeNat_13 (by simp), decodeOp13]; simp⟩

@[simp] theorem roundTrip_op14 (s : Bool) (d a : Reg) (n : BitVec 5) :
    RoundTrips (.shli s d a n) ∧ RoundTrips (.shriZ32 s d a n) ∧ RoundTrips (.shriS32 s d a n) ∧ RoundTrips (.rori s d a n) := by
  refine ⟨of s 0x14 [⟨d⟩, ⟨a⟩, ⟨0#5⟩, ⟨n⟩] ?_, of s 0x14 [⟨d⟩, ⟨a⟩, ⟨8#5⟩, ⟨n⟩] ?_, of s 0x14 [⟨d⟩, ⟨a⟩, ⟨16#5⟩, ⟨n⟩] ?_,
    of s 0x14 [⟨d⟩, ⟨a⟩, ⟨24#5⟩, ⟨n⟩] ?_⟩ <;>
  exact ⟨by simp, by unfold encodeNat; simp +arith [placed, numOf_cons], fun c => by rw [decodeNat_14 (by simp), decodeOp14]; simp⟩

@[simp] theorem roundTrip_op15 (s : Bool) (d a : Reg) :
    RoundTrips (.mov s d a) ∧ ∀ b, RoundTrips (.sel s d a b) := by
  refine ⟨of s 0x15 [⟨d⟩, ⟨a⟩, ⟨0#10⟩] ?_, fun b => of s 0x15 [⟨d⟩, ⟨a⟩, ⟨b⟩, ⟨1#3⟩] ?_⟩ <;>
  exact ⟨by simp, by unfold encodeNat; simp +arith [placed, numOf_cons], fun c => by rw [decodeNat_15 (by simp), decodeOp15]; simp⟩

@[simp] theorem roundTrip_op16 (s : Bool) (d a b : Reg) (n : BitVec 3) :
    RoundTrips (.lea s d a b n) := by
  refine of s 0x16 [⟨d⟩, ⟨a⟩, ⟨b⟩, ⟨n⟩] ?_
  exact ⟨by simp, by unfold encodeNat; simp +arith [placed, numOf_cons], fun c => by rw [decodeNat_16 (by simp), decodeOp16]; simp⟩

@[simp] theorem roundTrip_op17 :
    (∀ d a b, RoundTrips (.pand d a b)) ∧ (∀ d a b, RoundTrips (.por d a b)) ∧ (∀ d a b, RoundTrips (.pxor d a b)) ∧
    (∀ d a, RoundTrips (.pSet d a)) ∧ (∀ d a, RoundTrips (.pGet d a)) ∧ (∀ d, RoundTrips (.pwRd d)) ∧ ∀ a, RoundTrips (.pwWr a) := by
  refine ⟨fun d a b => of false 0x17 [⟨d⟩, ⟨a⟩, ⟨b⟩, ⟨0#3⟩] ?_, fun d a b => of false 0x17 [⟨d⟩, ⟨a⟩, ⟨b⟩, ⟨1#3⟩] ?_,
    fun d a b => of false 0x17 [⟨d⟩, ⟨a⟩, ⟨b⟩, ⟨2#3⟩] ?_, fun d a => of false 0x17 [⟨d⟩, ⟨a⟩, ⟨3#10⟩] ?_,
    fun d a => of false 0x17 [⟨d⟩, ⟨a⟩, ⟨4#10⟩] ?_, fun d => of false 0x17 [⟨d⟩, ⟨5#17⟩] ?_, fun a => of false 0x17 [⟨0#7⟩, ⟨a⟩, ⟨6#10⟩] ?_⟩ <;>
  exact ⟨by simp, by unfold encodeNat; simp +arith [placed, numOf_cons], fun c => by rw [decodeNat_17 (by simp), decodeOp17]; simp⟩

@[simp] theorem roundTrip_op18 (s : Bool) (d a b : Reg) :
    RoundTrips (.faddF32 s d a b) ∧ RoundTrips (.fsubF32 s d a b) ∧ RoundTrips (.faddF16x2 s d a b) ∧ RoundTrips (.fsubF16x2 s d a b) ∧
    RoundTrips (.faddBf16x2 s d a b) ∧ RoundTrips (.fsubBf16x2 s d a b) ∧ RoundTrips (.faddSatF32 s d a b) ∧ RoundTrips (.fsubSatF32 s d a b) := by
  refine ⟨of s 0x18 [⟨d⟩, ⟨a⟩, ⟨b⟩, ⟨0#3⟩] ?_, of s 0x18 [⟨d⟩, ⟨a⟩, ⟨b⟩, ⟨1#3⟩] ?_, of s 0x18 [⟨d⟩, ⟨a⟩, ⟨b⟩, ⟨2#3⟩] ?_,
    of s 0x18 [⟨d⟩, ⟨a⟩, ⟨b⟩, ⟨3#3⟩] ?_, of s 0x18 [⟨d⟩, ⟨a⟩, ⟨b⟩, ⟨4#3⟩] ?_, of s 0x18 [⟨d⟩, ⟨a⟩, ⟨b⟩, ⟨5#3⟩] ?_,
    of s 0x18 [⟨d⟩, ⟨a⟩, ⟨b⟩, ⟨6#3⟩] ?_, of s 0x18 [⟨d⟩, ⟨a⟩, ⟨b⟩, ⟨7#3⟩] ?_⟩ <;>
  exact ⟨by simp, by unfold encodeNat; simp +arith [placed, numOf_cons], fun c => by rw [decodeNat_18 (by simp), decodeOp18]; simp⟩

@[simp] theorem roundTrip_op19 (s : Bool) (d a b : Reg) (t : Bool) :
    RoundTrips (.fmulF32 s d a b t) ∧ RoundTrips (.fmulF16x2 s d a b t) ∧ RoundTrips (.fmulBf16x2 s d a b t) := by
  refine ⟨of s 0x19 [⟨d⟩, ⟨a⟩, ⟨b⟩, ⟨.ofBool t⟩, ⟨0#2⟩] ?_, of s 0x19 [⟨d⟩, ⟨a⟩, ⟨b⟩, ⟨.ofBool t⟩, ⟨1#2⟩] ?_,
    of s 0x19 [⟨d⟩, ⟨a⟩, ⟨b⟩, ⟨.ofBool t⟩, ⟨2#2⟩] ?_⟩ <;>
  exact ⟨by simp, by unfold encodeNat; simp +arith [placed, numOf_cons], fun c => by rw [decodeNat_19 (by simp), decodeOp19]; simp⟩

@[simp] theorem roundTrip_op1A (s : Bool) (d a b : Reg) (t : Bool) :
    RoundTrips (.ffmaF32 s d a b t) ∧ RoundTrips (.ffmaF16x2 s d a b t) ∧ RoundTrips (.ffmaBf16x2 s d a b t) := by
  refine ⟨of s 0x1A [⟨d⟩, ⟨a⟩, ⟨b⟩, ⟨.ofBool t⟩, ⟨0#2⟩] ?_, of s 0x1A [⟨d⟩, ⟨a⟩, ⟨b⟩, ⟨.ofBool t⟩, ⟨1#2⟩] ?_,
    of s 0x1A [⟨d⟩, ⟨a⟩, ⟨b⟩, ⟨.ofBool t⟩, ⟨2#2⟩] ?_⟩ <;>
  exact ⟨by simp, by unfold encodeNat; simp +arith [placed, numOf_cons], fun c => by rw [decodeNat_1A (by simp), decodeOp1A]; simp⟩

@[simp] theorem roundTrip_op1B (s : Bool) (d a b : Reg) (t : FpTy) :
    RoundTrips (.fmin s d a b t) ∧ RoundTrips (.fmax s d a b t) := by
  refine ⟨of s 0x1B [⟨d⟩, ⟨a⟩, ⟨b⟩, ⟨.ofNat 2 t.code⟩, ⟨0#1⟩] ?_, of s 0x1B [⟨d⟩, ⟨a⟩, ⟨b⟩, ⟨.ofNat 2 t.code⟩, ⟨1#1⟩] ?_⟩ <;>
  exact ⟨by simp, by unfold encodeNat; simp +arith [placed, numOf_cons], fun c => by rw [decodeNat_1B (by simp), decodeOp1B]; simp⟩

@[simp] theorem roundTrip_op1C (s : Bool) (d a : Reg) :
    RoundTrips (.fclass s d a) ∧ ∀ b k, RoundTrips (.fcmp s d a b k) := by
  refine ⟨of s 0x1C [⟨d⟩, ⟨a⟩, ⟨5#10⟩] ?_, fun b k => of s 0x1C [⟨d⟩, ⟨a⟩, ⟨b⟩, ⟨.ofNat 3 k.code⟩] ?_⟩ <;>
  exact ⟨by simp, by unfold encodeNat; simp +arith [placed, numOf_cons], fun c => by rw [decodeNat_1C (by simp), decodeOp1C]; simp⟩

@[simp] theorem roundTrip_op1D (s : Bool) (d a : Reg) (t : FpTy) :
    RoundTrips (.rcp s d a t) ∧ RoundTrips (.rsq s d a t) ∧ RoundTrips (.sqrt s d a t) ∧ RoundTrips (.exp2 s d a t) ∧ RoundTrips (.log2 s d a t) ∧
    RoundTrips (.sin s d a t) ∧ RoundTrips (.cos s d a t) ∧ RoundTrips (.tanh s d a t) ∧ RoundTrips (.erf s d a t) ∧ RoundTrips (.ncdf s d a t) ∧
    RoundTrips (.npdf s d a t) := by
  refine ⟨of s 0x1D [⟨d⟩, ⟨a⟩, ⟨0#8⟩, ⟨.ofNat 2 t.code⟩] ?_, of s 0x1D [⟨d⟩, ⟨a⟩, ⟨2#8⟩, ⟨.ofNat 2 t.code⟩] ?_,
    of s 0x1D [⟨d⟩, ⟨a⟩, ⟨4#8⟩, ⟨.ofNat 2 t.code⟩] ?_, of s 0x1D [⟨d⟩, ⟨a⟩, ⟨6#8⟩, ⟨.ofNat 2 t.code⟩] ?_,
    of s 0x1D [⟨d⟩, ⟨a⟩, ⟨8#8⟩, ⟨.ofNat 2 t.code⟩] ?_, of s 0x1D [⟨d⟩, ⟨a⟩, ⟨10#8⟩, ⟨.ofNat 2 t.code⟩] ?_,
    of s 0x1D [⟨d⟩, ⟨a⟩, ⟨12#8⟩, ⟨.ofNat 2 t.code⟩] ?_, of s 0x1D [⟨d⟩, ⟨a⟩, ⟨14#8⟩, ⟨.ofNat 2 t.code⟩] ?_,
    of s 0x1D [⟨d⟩, ⟨a⟩, ⟨16#8⟩, ⟨.ofNat 2 t.code⟩] ?_, of s 0x1D [⟨d⟩, ⟨a⟩, ⟨18#8⟩, ⟨.ofNat 2 t.code⟩] ?_,
    of s 0x1D [⟨d⟩, ⟨a⟩, ⟨20#8⟩, ⟨.ofNat 2 t.code⟩] ?_⟩ <;>
  exact ⟨by simp, by unfold encodeNat; simp +arith [placed, numOf_cons], fun c => by rw [decodeNat_1D (by simp), decodeOp1D]; simp⟩

@[simp] theorem roundTrip_op1E (s : Bool) (d a : Reg) :
    (∀ r, RoundTrips (.packE4m3F32 s d a r)) ∧ (∀ r, RoundTrips (.packE5m2F32 s d a r)) ∧ (∀ r, RoundTrips (.packE2m1F32 s d a r)) ∧
    RoundTrips (.unpackF32E4m3 s d a) ∧ RoundTrips (.unpackF32E5m2 s d a) ∧ RoundTrips (.unpackF32E2m1 s d a) ∧
    ∀ v r, RoundTrips (.cvt s d a v r) := by
  refine ⟨fun r => of s 0x1E [⟨d⟩, ⟨a⟩, ⟨81#7⟩, ⟨.ofNat 3 r.code⟩] ?_, fun r => of s 0x1E [⟨d⟩, ⟨a⟩, ⟨82#7⟩, ⟨.ofNat 3 r.code⟩] ?_,
    fun r => of s 0x1E [⟨d⟩, ⟨a⟩, ⟨83#7⟩, ⟨.ofNat 3 r.code⟩] ?_, of s 0x1E [⟨d⟩, ⟨a⟩, ⟨677#10⟩] ?_, of s 0x1E [⟨d⟩, ⟨a⟩, ⟨685#10⟩] ?_,
    of s 0x1E [⟨d⟩, ⟨a⟩, ⟨693#10⟩] ?_, fun v r => of s 0x1E [⟨d⟩, ⟨a⟩, ⟨.ofNat 7 v.code⟩, ⟨.ofNat 3 r.code⟩] ?_⟩ <;>
  exact ⟨by simp, by unfold encodeNat; simp +arith [placed, numOf_cons], fun c => by rw [decodeNat_1E (by simp), decodeOp1E]; simp⟩

@[simp] theorem roundTrip_op1F (d a : Reg) :
    RoundTrips (.rngB128 d a) ∧ RoundTrips (.rngF32 d a) ∧ (∀ b, RoundTrips (.cvtSrBf16F32 d a b)) ∧ (∀ b, RoundTrips (.cvtSrF16F32 d a b)) ∧
    (∀ b, RoundTrips (.cvtSrBf16x2F32 d a b)) ∧ (∀ b, RoundTrips (.packSrE4m3F32 d a b)) ∧ (∀ b, RoundTrips (.packSrE5m2F32 d a b)) ∧
    ∀ b, RoundTrips (.packSrE2m1F32 d a b) := by
  refine ⟨of false 0x1F [⟨d⟩, ⟨a⟩, ⟨0#10⟩] ?_, of false 0x1F [⟨d⟩, ⟨a⟩, ⟨1#10⟩] ?_, fun b => of false 0x1F [⟨d⟩, ⟨a⟩, ⟨b⟩, ⟨2#3⟩] ?_,
    fun b => of false 0x1F [⟨d⟩, ⟨a⟩, ⟨b⟩, ⟨3#3⟩] ?_, fun b => of false 0x1F [⟨d⟩, ⟨a⟩, ⟨b⟩, ⟨4#3⟩] ?_,
    fun b => of false 0x1F [⟨d⟩, ⟨a⟩, ⟨b⟩, ⟨5#3⟩] ?_, fun b => of false 0x1F [⟨d⟩, ⟨a⟩, ⟨b⟩, ⟨6#3⟩] ?_,
    fun b => of false 0x1F [⟨d⟩, ⟨a⟩, ⟨b⟩, ⟨7#3⟩] ?_⟩ <;>
  exact ⟨by simp, by unfold encodeNat; simp +arith [placed, numOf_cons], fun c => by rw [decodeNat_1F (by simp), decodeOp1F]; simp⟩

@[simp] theorem roundTrip_op20 (d a b : Reg) :
    RoundTrips (.madd d a b) ∧ RoundTrips (.msub d a b) ∧ RoundTrips (.mmul d a b) ∧ RoundTrips (.mfma d a b) ∧ RoundTrips (.mscl d a b) := by
  refine ⟨of false 0x20 [⟨d⟩, ⟨a⟩, ⟨b⟩, ⟨0#3⟩] ?_, of false 0x20 [⟨d⟩, ⟨a⟩, ⟨b⟩, ⟨1#3⟩] ?_, of false 0x20 [⟨d⟩, ⟨a⟩, ⟨b⟩, ⟨2#3⟩] ?_,
    of false 0x20 [⟨d⟩, ⟨a⟩, ⟨b⟩, ⟨3#3⟩] ?_, of false 0x20 [⟨d⟩, ⟨a⟩, ⟨b⟩, ⟨4#3⟩] ?_⟩ <;>
  exact ⟨by simp, by unfold encodeNat; simp +arith [placed, numOf_cons], fun c => by rw [decodeNat_20 (by simp), decodeOp20]; simp⟩

@[simp] theorem roundTrip_op21 (d a : Reg) :
    RoundTrips (.mrelu d a) ∧ RoundTrips (.mexp d a) ∧ RoundTrips (.msigm d a) ∧ RoundTrips (.mtanh d a) := by
  refine ⟨of false 0x21 [⟨d⟩, ⟨a⟩, ⟨0#10⟩] ?_, of false 0x21 [⟨d⟩, ⟨a⟩, ⟨1#10⟩] ?_, of false 0x21 [⟨d⟩, ⟨a⟩, ⟨2#10⟩] ?_,
    of false 0x21 [⟨d⟩, ⟨a⟩, ⟨3#10⟩] ?_⟩ <;>
  exact ⟨by simp, by unfold encodeNat; simp +arith [placed, numOf_cons], fun c => by rw [decodeNat_21 (by simp), decodeOp21]; simp⟩

@[simp] theorem roundTrip_op22 (d a : Reg) :
    (∀ b, RoundTrips (.mset d a b)) ∧ RoundTrips (.mcolMean d a) ∧ RoundTrips (.mcolVar d a) ∧ ∀ b, RoundTrips (.mcolSmp d a b) := by
  refine ⟨fun b => of false 0x22 [⟨d⟩, ⟨a⟩, ⟨b⟩, ⟨0#3⟩] ?_, of false 0x22 [⟨d⟩, ⟨a⟩, ⟨1#10⟩] ?_, of false 0x22 [⟨d⟩, ⟨a⟩, ⟨2#10⟩] ?_,
    fun b => of false 0x22 [⟨d⟩, ⟨a⟩, ⟨b⟩, ⟨4#3⟩] ?_⟩ <;>
  exact ⟨by simp, by unfold encodeNat; simp +arith [placed, numOf_cons], fun c => by rw [decodeNat_22 (by simp), decodeOp22]; simp⟩

@[simp] theorem roundTrip_op23 (d g : Reg) (o : BitVec 7) :
    RoundTrips (.mldBlk d g o) ∧ RoundTrips (.mldPad d g o) ∧ RoundTrips (.mstBlk d g o) ∧ RoundTrips (.mstPad d g o) := by
  refine ⟨of false 0x23 [⟨d⟩, ⟨g⟩, ⟨o⟩, ⟨0#3⟩] ?_, of false 0x23 [⟨d⟩, ⟨g⟩, ⟨o⟩, ⟨1#3⟩] ?_, of false 0x23 [⟨d⟩, ⟨g⟩, ⟨o⟩, ⟨2#3⟩] ?_,
    of false 0x23 [⟨d⟩, ⟨g⟩, ⟨o⟩, ⟨3#3⟩] ?_⟩ <;>
  exact ⟨by simp, by unfold encodeNat; simp +arith [placed, numOf_cons], fun c => by rw [decodeNat_23 (by simp), decodeOp23]; simp⟩

@[simp] theorem roundTrip_op28 (s : Bool) (d g : Reg) (p : Space3) (o : BitVec 5) (t : LdTy) :
    RoundTrips (.ld s d g p o t) := by
  refine of s 0x28 [⟨d⟩, ⟨g⟩, ⟨.ofNat 2 p.code⟩, ⟨o⟩, ⟨.ofNat 3 t.code⟩] ?_
  exact ⟨by simp, by unfold encodeNat; simp +arith [placed, numOf_cons], fun c => by rw [decodeNat_28 (by simp), decodeOp28]; simp⟩

@[simp] theorem roundTrip_op29 (d g : Reg) (p : Space3) (o : BitVec 5) (t : StTy) :
    RoundTrips (.st d g p o t) := by
  refine of false 0x29 [⟨d⟩, ⟨g⟩, ⟨.ofNat 2 p.code⟩, ⟨o⟩, ⟨.ofNat 3 t.code⟩] ?_
  exact ⟨by simp, by unfold encodeNat; simp +arith [placed, numOf_cons], fun c => by rw [decodeNat_29 (by simp), decodeOp29]; simp⟩

@[simp] theorem roundTrip_op2A (d a : Reg) (p : Bool) (r : Ord) :
    RoundTrips (.atomAccZ32 d a p r) ∧ RoundTrips (.atomAccF32 d a p r) ∧ ∀ k, RoundTrips (.atom d a k p r) := by
  refine ⟨of false 0x2A [⟨d⟩, ⟨a⟩, ⟨15#5⟩, ⟨.ofBool p⟩, ⟨.ofNat 4 r.code⟩] ?_, of false 0x2A [⟨d⟩, ⟨a⟩, ⟨16#5⟩, ⟨.ofBool p⟩, ⟨.ofNat 4 r.code⟩] ?_,
    fun k => of false 0x2A [⟨d⟩, ⟨a⟩, ⟨.ofNat 5 k.code⟩, ⟨.ofBool p⟩, ⟨.ofNat 4 r.code⟩] ?_⟩ <;>
  exact ⟨by simp, by unfold encodeNat; simp +arith [placed, numOf_cons], fun c => by rw [decodeNat_2A (by simp), decodeOp2A]; simp⟩

@[simp] theorem roundTrip_op2B (d a : Reg) (z p : Bool) (r : Ord) :
    RoundTrips (.atomCas d a z p r) := by
  refine of false 0x2B [⟨d⟩, ⟨a⟩, ⟨0#4⟩, ⟨.ofBool z⟩, ⟨.ofBool p⟩, ⟨.ofNat 4 r.code⟩] ?_
  exact ⟨by simp, by unfold encodeNat; simp +arith [placed, numOf_cons], fun c => by rw [decodeNat_2B (by simp), decodeOp2B]; simp⟩

@[simp] theorem roundTrip_op2C (d a b : Reg) (p z : Bool) :
    RoundTrips (.ldVt d a b p z) ∧ RoundTrips (.ldVtw d a b p z) := by
  refine ⟨of false 0x2C [⟨d⟩, ⟨a⟩, ⟨b⟩, ⟨0#1⟩, ⟨.ofBool p⟩, ⟨.ofBool z⟩] ?_, of false 0x2C [⟨d⟩, ⟨a⟩, ⟨b⟩, ⟨1#1⟩, ⟨.ofBool p⟩, ⟨.ofBool z⟩] ?_⟩ <;>
  exact ⟨by simp, by unfold encodeNat; simp +arith [placed, numOf_cons], fun c => by rw [decodeNat_2C (by simp), decodeOp2C]; simp⟩

@[simp] theorem roundTrip_op2D (d g : Reg) (o : BitVec 7) (y : Bool) :
    RoundTrips (.stMask d g o y) ∧ RoundTrips (.ldMask d g o y) := by
  refine ⟨of false 0x2D [⟨d⟩, ⟨g⟩, ⟨o⟩, ⟨0#2⟩, ⟨.ofBool y⟩] ?_, of false 0x2D [⟨d⟩, ⟨g⟩, ⟨o⟩, ⟨1#2⟩, ⟨.ofBool y⟩] ?_⟩ <;>
  exact ⟨by simp, by unfold encodeNat; simp +arith [placed, numOf_cons], fun c => by rw [decodeNat_2D (by simp), decodeOp2D]; simp⟩

@[simp] theorem roundTrip_op2E (d : Reg) (z : Bool) :
    RoundTrips (.push d z) ∧ RoundTrips (.pop d z) := by
  refine ⟨of false 0x2E [⟨d⟩, ⟨0#16⟩, ⟨.ofBool z⟩] ?_, of false 0x2E [⟨d⟩, ⟨1#16⟩, ⟨.ofBool z⟩] ?_⟩ <;>
  exact ⟨by simp, by unfold encodeNat; simp +arith [placed, numOf_cons], fun c => by rw [decodeNat_2E (by simp), decodeOp2E]; simp⟩

@[simp] theorem roundTrip_op2F :
    RoundTrips .fenceGrp ∧ RoundTrips .fenceBlk ∧ RoundTrips .fenceGang ∧ RoundTrips .fenceDev ∧ RoundTrips .fenceSys ∧
    ∀ n, RoundTrips (.waitLd n) := by
  refine ⟨of false 0x2F [⟨0#24⟩] ?_, of false 0x2F [⟨1#24⟩] ?_, of false 0x2F [⟨2#24⟩] ?_, of false 0x2F [⟨3#24⟩] ?_, of false 0x2F [⟨4#24⟩] ?_,
    fun n => of false 0x2F [⟨0#14⟩, ⟨n⟩, ⟨5#3⟩] ?_⟩ <;>
  exact ⟨by simp, by unfold encodeNat; simp +arith [placed, numOf_cons], fun c => by rw [decodeNat_2F (by simp), decodeOp2F]; simp⟩

@[simp] theorem roundTrip_op30 (d a : Reg) :
    RoundTrips (.qxH d a) ∧ RoundTrips (.qxV d a) ∧ RoundTrips (.qxD d a) := by
  refine ⟨of false 0x30 [⟨d⟩, ⟨a⟩, ⟨0#10⟩] ?_, of false 0x30 [⟨d⟩, ⟨a⟩, ⟨1#10⟩] ?_, of false 0x30 [⟨d⟩, ⟨a⟩, ⟨2#10⟩] ?_⟩ <;>
  exact ⟨by simp, by unfold encodeNat; simp +arith [placed, numOf_cons], fun c => by rw [decodeNat_30 (by simp), decodeOp30]; simp⟩

/-- The decoder reads bits 2:0 of `qx.bc` together, which hold a 1 and the lane (R166). -/
@[simp] theorem roundTrip_qxBc (d a : Reg) (i : BitVec 2) : RoundTrips (.qxBc d a i) := by
  have hi : i = 0 ∨ i = 1 ∨ i = 2 ∨ i = 3 := by revert i; decide
  refine of false 0x30 [⟨d⟩, ⟨a⟩, ⟨.ofNat 10 (4 + i.toNat)⟩] ?_
  rcases hi with rfl | rfl | rfl | rfl <;>
  exact ⟨by simp, by unfold encodeNat; simp +arith [placed, numOf_cons], fun c => by rw [decodeNat_30 (by simp), decodeOp30]; simp⟩

@[simp] theorem roundTrip_op31 (d a b : Reg) :
    RoundTrips (.xlaneFlip d a b) ∧ RoundTrips (.xlanePick d a b) ∧ RoundTrips (.xlaneLo d a b) ∧ RoundTrips (.xlaneHi d a b) ∧
    RoundTrips (.xlaneRot d a b) := by
  refine ⟨of false 0x31 [⟨d⟩, ⟨a⟩, ⟨b⟩, ⟨0#3⟩] ?_, of false 0x31 [⟨d⟩, ⟨a⟩, ⟨b⟩, ⟨1#3⟩] ?_, of false 0x31 [⟨d⟩, ⟨a⟩, ⟨b⟩, ⟨2#3⟩] ?_,
    of false 0x31 [⟨d⟩, ⟨a⟩, ⟨b⟩, ⟨3#3⟩] ?_, of false 0x31 [⟨d⟩, ⟨a⟩, ⟨b⟩, ⟨4#3⟩] ?_⟩ <;>
  exact ⟨by simp, by unfold encodeNat; simp +arith [placed, numOf_cons], fun c => by rw [decodeNat_31 (by simp), decodeOp31]; simp⟩

@[simp] theorem roundTrip_op32 (d a : Reg) :
    RoundTrips (.ballot d a) ∧ RoundTrips (.agreeAll d a) ∧ RoundTrips (.agreeAny d a) ∧ RoundTrips (.agreeSame d a) := by
  refine ⟨of false 0x32 [⟨d⟩, ⟨a⟩, ⟨0#10⟩] ?_, of false 0x32 [⟨d⟩, ⟨a⟩, ⟨1#10⟩] ?_, of false 0x32 [⟨d⟩, ⟨a⟩, ⟨2#10⟩] ?_,
    of false 0x32 [⟨d⟩, ⟨a⟩, ⟨3#10⟩] ?_⟩ <;>
  exact ⟨by simp, by unfold encodeNat; simp +arith [placed, numOf_cons], fun c => by rw [decodeNat_32 (by simp), decodeOp32]; simp⟩

@[simp] theorem roundTrip_op33 (d a : Reg) (k : ROp) :
    RoundTrips (.redux d a k) ∧ RoundTrips (.reduxXscan d a k) ∧ RoundTrips (.reduxIscan d a k) := by
  refine ⟨of false 0x33 [⟨d⟩, ⟨a⟩, ⟨.ofNat 7 k.code⟩, ⟨0#3⟩] ?_, of false 0x33 [⟨d⟩, ⟨a⟩, ⟨.ofNat 7 k.code⟩, ⟨1#3⟩] ?_,
    of false 0x33 [⟨d⟩, ⟨a⟩, ⟨.ofNat 7 k.code⟩, ⟨2#3⟩] ?_⟩ <;>
  exact ⟨by simp, by unfold encodeNat; simp +arith [placed, numOf_cons], fun c => by rw [decodeNat_33 (by simp), decodeOp33]; simp⟩

@[simp] theorem roundTrip_op34 :
    (∀ n b, RoundTrips (.barInit n b)) ∧ (∀ b, RoundTrips (.barArrive b)) ∧ (∀ b, RoundTrips (.barWait b)) ∧ (∀ b, RoundTrips (.barSync b)) ∧
    RoundTrips .barSyncGang ∧ RoundTrips .gridSync := by
  refine ⟨fun n b => of false 0x34 [⟨0#14⟩, ⟨n⟩, ⟨b⟩] ?_, fun b => of false 0x34 [⟨1#7⟩, ⟨0#13⟩, ⟨b⟩] ?_,
    fun b => of false 0x34 [⟨2#7⟩, ⟨0#13⟩, ⟨b⟩] ?_, fun b => of false 0x34 [⟨3#7⟩, ⟨0#13⟩, ⟨b⟩] ?_, of false 0x34 [⟨4#7⟩, ⟨0#17⟩] ?_,
    of false 0x34 [⟨5#7⟩, ⟨0#17⟩] ?_⟩ <;>
  exact ⟨by simp, by unfold encodeNat; simp +arith [placed, numOf_cons], fun c => by rw [decodeNat_34 (by simp), decodeOp34]; simp⟩

@[simp] theorem roundTrip_op35 (a : Reg) :
    (∀ b, RoundTrips (.cstInit a b)) ∧ RoundTrips (.cstPut a) ∧ ∀ d, RoundTrips (.cstTake d a) := by
  refine ⟨fun b => of false 0x35 [⟨0#7⟩, ⟨a⟩, ⟨b⟩, ⟨0#3⟩] ?_, of false 0x35 [⟨0#7⟩, ⟨a⟩, ⟨1#10⟩] ?_,
    fun d => of false 0x35 [⟨d⟩, ⟨a⟩, ⟨2#10⟩] ?_⟩ <;>
  exact ⟨by simp, by unfold encodeNat; simp +arith [placed, numOf_cons], fun c => by rw [decodeNat_35 (by simp), decodeOp35]; simp⟩

@[simp] theorem roundTrip_op36 :
    RoundTrips .xregAcq ∧ RoundTrips .xregRel := by
  refine ⟨of false 0x36 [⟨0#24⟩] ?_, of false 0x36 [⟨1#24⟩] ?_⟩ <;>
  exact ⟨by simp, by unfold encodeNat; simp +arith [numOf_cons], fun c => by rw [decodeNat_36 (by simp), decodeOp36]; simp⟩

@[simp] theorem roundTrip_op37 :
    (∀ d a, RoundTrips (.vtNew d a)) ∧ (∀ a, RoundTrips (.vtSet a)) ∧ (∀ d, RoundTrips (.vtGet d)) ∧ (∀ a, RoundTrips (.vtDrop a)) ∧
    ∀ a, RoundTrips (.vtMerge a) := by
  refine ⟨fun d a => of false 0x37 [⟨d⟩, ⟨a⟩, ⟨0#10⟩] ?_, fun a => of false 0x37 [⟨0#7⟩, ⟨a⟩, ⟨1#10⟩] ?_, fun d => of false 0x37 [⟨d⟩, ⟨2#17⟩] ?_,
    fun a => of false 0x37 [⟨0#7⟩, ⟨a⟩, ⟨3#10⟩] ?_, fun a => of false 0x37 [⟨0#7⟩, ⟨a⟩, ⟨4#10⟩] ?_⟩ <;>
  exact ⟨by simp, by unfold encodeNat; simp +arith [placed, numOf_cons], fun c => by rw [decodeNat_37 (by simp), decodeOp37]; simp⟩

@[simp] theorem roundTrip_op38 (a b : Reg) (t : BitVec 5) (p y : Bool) :
    RoundTrips (.mxMmaMom a b t p y) ∧ ∀ f, RoundTrips (.mxPost a b t f p y) := by
  refine ⟨of false 0x38 [⟨a⟩, ⟨b⟩, ⟨t⟩, ⟨5#3⟩, ⟨.ofBool p⟩, ⟨.ofBool y⟩] ?_,
    fun f => of false 0x38 [⟨a⟩, ⟨b⟩, ⟨t⟩, ⟨.ofNat 3 f.code⟩, ⟨.ofBool p⟩, ⟨.ofBool y⟩] ?_⟩ <;>
  exact ⟨by simp, by unfold encodeNat; simp +arith [placed, numOf_cons], fun c => by rw [decodeNat_38 (by simp), decodeOp38]; simp⟩

@[simp] theorem roundTrip_op39 :
    (∀ t, RoundTrips (.mxZero t)) ∧ (∀ d a t, RoundTrips (.mxDrain d a t)) ∧ (∀ d a t, RoundTrips (.mxLd d a t)) ∧ (∀ a, RoundTrips (.mxBand a)) ∧
    ∀ d t, RoundTrips (.mxStat d t) := by
  refine ⟨fun t => of false 0x39 [⟨0#14⟩, ⟨t⟩, ⟨0#5⟩] ?_, fun d a t => of false 0x39 [⟨d⟩, ⟨a⟩, ⟨t⟩, ⟨1#5⟩] ?_,
    fun d a t => of false 0x39 [⟨d⟩, ⟨a⟩, ⟨t⟩, ⟨2#5⟩] ?_, fun a => of false 0x39 [⟨0#7⟩, ⟨a⟩, ⟨3#10⟩] ?_,
    fun d t => of false 0x39 [⟨d⟩, ⟨0#7⟩, ⟨t⟩, ⟨4#5⟩] ?_⟩ <;>
  exact ⟨by simp, by unfold encodeNat; simp +arith [placed, numOf_cons], fun c => by rw [decodeNat_39 (by simp), decodeOp39]; simp⟩

@[simp] theorem roundTrip_op3A (n : BitVec 7) :
    (∀ a, RoundTrips (.cuvLoadBlk a n)) ∧ (∀ a, RoundTrips (.cuvLoadPad a n)) ∧ (∀ d, RoundTrips (.cuvChk d n)) ∧ ∀ d, RoundTrips (.cuvRd d n) := by
  refine ⟨fun a => of false 0x3A [⟨0#7⟩, ⟨a⟩, ⟨n⟩, ⟨0#3⟩] ?_, fun a => of false 0x3A [⟨0#7⟩, ⟨a⟩, ⟨n⟩, ⟨1#3⟩] ?_,
    fun d => of false 0x3A [⟨d⟩, ⟨0#7⟩, ⟨n⟩, ⟨2#3⟩] ?_, fun d => of false 0x3A [⟨d⟩, ⟨0#7⟩, ⟨n⟩, ⟨3#3⟩] ?_⟩ <;>
  exact ⟨by simp, by unfold encodeNat; simp +arith [placed, numOf_cons], fun c => by rw [decodeNat_3A (by simp), decodeOp3A]; simp⟩

@[simp] theorem roundTrip_op3B (g : Reg) :
    (∀ x, RoundTrips (.cpG2s g x)) ∧ (∀ x, RoundTrips (.cpS2g g x)) ∧ (∀ y x, RoundTrips (.cpS2s g y x)) ∧ (∀ x, RoundTrips (.cpTG2s g x)) ∧
    (∀ x, RoundTrips (.cpTS2g g x)) ∧ RoundTrips (.migPost g) := by
  refine ⟨fun x => of false 0x3B [⟨g⟩, ⟨0#13⟩, ⟨.ofBool x⟩, ⟨0#3⟩] ?_, fun x => of false 0x3B [⟨g⟩, ⟨0#13⟩, ⟨.ofBool x⟩, ⟨1#3⟩] ?_,
    fun y x => of false 0x3B [⟨g⟩, ⟨0#12⟩, ⟨.ofBool y⟩, ⟨.ofBool x⟩, ⟨2#3⟩] ?_, fun x => of false 0x3B [⟨g⟩, ⟨0#13⟩, ⟨.ofBool x⟩, ⟨3#3⟩] ?_,
    fun x => of false 0x3B [⟨g⟩, ⟨0#13⟩, ⟨.ofBool x⟩, ⟨4#3⟩] ?_, of false 0x3B [⟨g⟩, ⟨5#17⟩] ?_⟩ <;>
  exact ⟨by simp, by unfold encodeNat; simp +arith [placed, numOf_cons], fun c => by rw [decodeNat_3B (by simp), decodeOp3B]; simp⟩

@[simp] theorem roundTrip_op3C (d a b : Reg) (p : Bool) (z : BitVec 2) :
    RoundTrips (.gat d a b p z) := by
  refine of false 0x3C [⟨d⟩, ⟨a⟩, ⟨b⟩, ⟨.ofBool p⟩, ⟨z⟩] ?_
  exact ⟨by simp, by unfold encodeNat; simp +arith [placed, numOf_cons], fun c => by rw [decodeNat_3C (by simp), decodeOp3C]; simp⟩

@[simp] theorem roundTrip_op3D (a : Reg) :
    (∀ b, RoundTrips (.objInit a b)) ∧ (∀ b, RoundTrips (.objArrive a b)) ∧ (∀ b, RoundTrips (.objWait a b)) ∧
    (∀ d b, RoundTrips (.objWaitSt d a b)) ∧ ∀ d, RoundTrips (.objPoll d a) := by
  refine ⟨fun b => of false 0x3D [⟨0#7⟩, ⟨a⟩, ⟨b⟩, ⟨0#3⟩] ?_, fun b => of false 0x3D [⟨0#7⟩, ⟨a⟩, ⟨b⟩, ⟨1#3⟩] ?_,
    fun b => of false 0x3D [⟨0#7⟩, ⟨a⟩, ⟨b⟩, ⟨2#3⟩] ?_, fun d b => of false 0x3D [⟨d⟩, ⟨a⟩, ⟨b⟩, ⟨3#3⟩] ?_,
    fun d => of false 0x3D [⟨d⟩, ⟨a⟩, ⟨4#10⟩] ?_⟩ <;>
  exact ⟨by simp, by unfold encodeNat; simp +arith [placed, numOf_cons], fun c => by rw [decodeNat_3D (by simp), decodeOp3D]; simp⟩

@[simp] theorem roundTrip_op3E (g : Reg) :
    RoundTrips (.rcpPut g) ∧ RoundTrips (.rcpGet g) ∧ (∀ o k, RoundTrips (.ratom g o k)) ∧ RoundTrips (.collPost g) := by
  refine ⟨of false 0x3E [⟨0#7⟩, ⟨g⟩, ⟨0#10⟩] ?_, of false 0x3E [⟨0#7⟩, ⟨g⟩, ⟨1#10⟩] ?_,
    fun o k => of false 0x3E [⟨0#7⟩, ⟨g⟩, ⟨o⟩, ⟨.ofNat 5 k.code⟩, ⟨2#3⟩] ?_, of false 0x3E [⟨0#7⟩, ⟨g⟩, ⟨3#10⟩] ?_⟩ <;>
  exact ⟨by simp, by unfold encodeNat; simp +arith [placed, numOf_cons], fun c => by rw [decodeNat_3E (by simp), decodeOp3E]; simp⟩

@[simp] theorem roundTrip_op3F :
    (∀ d a, RoundTrips (.qRd d a)) ∧ (∀ a b, RoundTrips (.qSt a b)) ∧ (∀ d a b, RoundTrips (.qSub d a b)) ∧ (∀ a, RoundTrips (.wpSet a)) ∧
    (∀ a, RoundTrips (.wpClr a)) ∧ (∀ a, RoundTrips (.trcMark a)) ∧ (∀ d a, RoundTrips (.locQPad d a)) ∧ (∀ d a, RoundTrips (.locQVa d a)) ∧
    (∀ a, RoundTrips (.bistRun a)) ∧ (∀ d, RoundTrips (.bistRd d)) ∧ ∀ a, RoundTrips (.launchDev a) := by
  refine ⟨fun d a => of false 0x3F [⟨d⟩, ⟨a⟩, ⟨0#10⟩] ?_, fun a b => of false 0x3F [⟨0#7⟩, ⟨a⟩, ⟨b⟩, ⟨1#3⟩] ?_,
    fun d a b => of false 0x3F [⟨d⟩, ⟨a⟩, ⟨b⟩, ⟨2#3⟩] ?_, fun a => of false 0x3F [⟨0#7⟩, ⟨a⟩, ⟨3#10⟩] ?_,
    fun a => of false 0x3F [⟨0#7⟩, ⟨a⟩, ⟨1#7⟩, ⟨3#3⟩] ?_, fun a => of false 0x3F [⟨0#7⟩, ⟨a⟩, ⟨4#10⟩] ?_,
    fun d a => of false 0x3F [⟨d⟩, ⟨a⟩, ⟨5#10⟩] ?_, fun d a => of false 0x3F [⟨d⟩, ⟨a⟩, ⟨1#7⟩, ⟨5#3⟩] ?_,
    fun a => of false 0x3F [⟨0#7⟩, ⟨a⟩, ⟨6#10⟩] ?_, fun d => of false 0x3F [⟨d⟩, ⟨1#14⟩, ⟨6#3⟩] ?_,
    fun a => of false 0x3F [⟨0#7⟩, ⟨a⟩, ⟨7#10⟩] ?_⟩ <;>
  exact ⟨by simp, by unfold encodeNat; simp +arith [placed, numOf_cons], fun c => by rw [decodeNat_3F (by simp), decodeOp3F]; simp⟩

/-! ### All words -/

/-- R44, R50: every instruction that has a word round-trips. -/
theorem roundTrips_of_isWord {i : Instr} (h : i.isWord = true) : RoundTrips i := by
  unfold Instr.isWord at h
  cases i <;> simp at h ⊢

/-- Settles O57: each opcode's words, as lists of fields, decode field by field (`RoundTrips.of`). -/
theorem encodingRoundTrip : Obligations.EncodingRoundTrip := by
  unfold Obligations.EncodingRoundTrip
  intro i c h
  obtain ⟨hlt, -, hdec⟩ := roundTrips_of_isWord h
  have hc := c.toNat_lt
  have hw : (encode c i).toNat = encodeNat i + c.toNat * 2 ^ 31 := by
    rw [encode, BitVec.toNat_ofNat, Nat.mod_eq_of_lt (by omega)]
  refine ⟨by rw [decode, hw, hdec], ?_⟩
  rw [chainBit, hw, show fld (encodeNat i + c.toNat * 2 ^ 31) 31 1 = c.toNat by rw [fld]; omega, toNat_beq_one]

end Sys2Proof
end

