-- ==== Sys2Proof/Proofs/StepRunsWord.lean ====
section
/-!
PROOF. Why the statement on the step of a word does not hold as it stands. A word that writes an object or a cistern in the pad at its issue may
match a watchpoint there; the report comes in the same turn, after the word (R372, R373), and the statement leaves it out.
-/

namespace Sys2Proof.Machine

/-- The bits of `obj.init v8 v12`. -/
def objInitBits : Nat := (encode false (.objInit 8 12)).toNat

/-- The launch of the placed word. -/
def initLaunch : Launch := fetchLaunch (BitVec.ofNat 32 objInitBits)

/-- The group of the placed word: in every lane v8 names the object at pad byte 0x100, and v12 its count 1. -/
def initGroup : Group :=
  { newGroup initLaunch 0 0 ⟨0, 0, 0⟩ with
    lanes := List.replicate 8 { Lane.empty with mode := .live, pc := 0x80, v := [(8, 0x80000100), (12, 1)] } }

/-- The group stands at `obj.init`, and the turn of its batch is the next move. Watchpoint 0 of die 0 is armed at the object's first byte (R371). -/
def initState : State :=
  ((State.reset.withFetchWord 32 objInitBits).withGroup initGroup).withDev fun d =>
    { d with regs := { d.regs with wpctl := [(0, 0x100000011)], wpaddr := [(0, 0x100)] } }

/-- The placed word in its slot. -/
def initSlot : Slotted := slotted initLaunch (pcPkt 0x80) 0

/-- The state in which the word is executed: the batch has moved on to the next word. -/
def initIssuing : State :=
  ((initState.withDev fun d => { d with moves := [] }).advanced initGroup initLaunch 0 [initSlot]).issuing
    (issueOf initGroup (initGroup.batchOf 0) 0x80 initSlot)

/-- The turn ends with the report of the match: none is left open. -/
theorem openReports_initStep : openReports fetchKey (step initState) = some [] := by decide +kernel

/-- After the word, and before the report, the write of the object's first byte stands as a match. -/
theorem openReports_initWord :
    openReports fetchKey (match exec (.objInit 8 12) initIssuing with
      | .next t => .next { t with dev := (t.issued fetchKey).dev.modGroup fetchKey fun x => x.atBrk 0x80 [initSlot] }
      | o => o) = some [⟨0, 0x80, [(0, 0, 0x100)]⟩] := by decide

/-- Refutes O53: its first clause makes the step the execution of the word and no more, where a match that the word leaves is reported before the
turn ends (R373, `batchTurn`). -/
theorem not_stepRunsWord : ¬ Obligations.StepRunsWord := by
  unfold Obligations.StepRunsWord
  rintro ⟨runs, -⟩
  have e := runs initState fetchKey 0 [] initGroup initLaunch initSlot (.objInit 8 12) (by decide) (by decide) (by decide) (by decide) (by decide)
    (by decide) (by decide) (by decide) (by decide) (by decide) rfl (by decide)
  have h := openReports_initStep
  rw [e] at h
  exact absurd (openReports_initWord.symm.trans h) (by decide)

end Sys2Proof.Machine
end

