-- ==== Sys2Proof/Proofs/Readings.lean ====
section
/-!
PROOF. A word that decodes is the word of its instruction, and which opcodes have words (R44, R45, R50). Per opcode: the word is its parts, the
conditions on the way to a meaning and the checks of unused fields give the parts that the instruction does not hold, and so the encoder gives
the word again.
-/

namespace Sys2Proof

-- One lemma after another: elaborated at once, the lemmas per opcode ask for more threads than the check has memory for.
set_option Elab.async false

/-- Whether words with an opcode have scalar forms (R50). -/
def hasScalar (op : Nat) : Bool := decide (op = 0x01) || decide (0x08 ≤ op ∧ op ≤ 0x1E ∧ op ≠ 0x17) || decide (op = 0x28)

/-- What a word is read as, where it is accepted, is an instruction whose word it is, and with S set its opcode has scalar forms. -/
def Reads (w : Nat) (r : Except Reject Instr) : Prop :=
  ∀ i, r = .ok i → encodeNat i + fld w 31 1 * 2 ^ 31 = w ∧ i.isWord = true ∧ (fld w 30 1 = 1 → hasScalar (fld w 24 6) = true)

/-- The parts of a number's low bits that have the given widths, the highest first, each in its place. -/
def parts (w : Nat) : List Nat → Nat
  | [] => 0
  | n :: ns => fld w ns.sum n * 2 ^ ns.sum + parts w ns

section
variable {w : Nat}

theorem fld_lt (lo len : Nat) : fld w lo len < 2 ^ len := Nat.mod_lt _ (by positivity)

/-- The number that a field's bits make up is the field. -/
@[simp high] theorem toNat_ofNat_fld (lo len : Nat) : (BitVec.ofNat len (fld w lo len)).toNat = fld w lo len := by
  rw [BitVec.toNat_ofNat, Nat.mod_eq_of_lt (fld_lt lo len)]

@[simp] theorem toNat_fld_beq_one (k : Nat) : (fld w k 1 == 1).toNat = fld w k 1 := by
  have h := fld_lt (w := w) k 1
  interval_cases fld w k 1 <;> rfl

/-- A number's low bits are their parts. -/
theorem fld_eq_parts (ns : List Nat) : fld w 0 ns.sum = parts w ns := by
  induction ns with
  | nil => simp [fld, parts, Nat.mod_one]
  | cons n ns ih => rw [parts, ← ih, List.sum_cons, Nat.add_comm n, fld, fld, fld, pow_zero, Nat.div_one, Nat.pow_add, Nat.mod_mul]; ring

/-- A word is its parts. -/
theorem eq_parts (hw : w < 2 ^ 32) {ns : List Nat} (h : ns.sum = 32) : w = parts w ns := by
  rw [← fld_eq_parts, h, fld, pow_zero, Nat.div_one, Nat.mod_eq_of_lt hw]

theorem Reads.error (r : Reject) : Reads w (.error r) := nofun

theorem Reads.ite {c : Prop} [Decidable c] {r q : Except Reject Instr} (hr : c → Reads w r) (hq : Reads w q) : Reads w (if c then r else q) := by
  split
  · exact hr ‹c›
  · exact hq

theorem Reads.accept {scalar : Bool} {unused : List Unused} {i : Instr} (hi : i.isWord = true) (hs : scalar = true → hasScalar (fld w 24 6) = true)
    (h : (scalar = false → fld w 30 1 = 0) → (∀ u ∈ unused, fld w u.lo u.len = 0) → encodeNat i + fld w 31 1 * 2 ^ 31 = w) :
    Reads w (accept w scalar unused i) := by
  intro j hj
  obtain ⟨hS, hU, rfl⟩ := accept_eq_ok.1 hj
  have hlt := fld_lt (w := w) 30 1
  exact ⟨h (fun e => by have := hS e; omega) hU, hi, fun e => hs (Bool.of_not_eq_false fun f => hS f e)⟩

end

/-! ### The codes of the operand types: the value that a code decodes to has it -/

theorem ICond.code_of_ofCode {n : Nat} {x : ICond} (h : ICond.ofCode n = some x) : x.code = n := by
  unfold ICond.ofCode at h
  split at h <;> cases h <;> rfl
theorem FCond.code_of_ofCode {n : Nat} {x : FCond} (h : FCond.ofCode n = some x) : x.code = n := by
  unfold FCond.ofCode at h
  split at h <;> cases h <;> rfl
theorem FpTy.code_of_ofCode {n : Nat} {x : FpTy} (h : FpTy.ofCode n = some x) : x.code = n := by
  unfold FpTy.ofCode at h
  split at h <;> cases h <;> rfl
theorem Rs.code_of_ofCode {n : Nat} {x : Rs} (h : Rs.ofCode n = some x) : x.code = n := by
  unfold Rs.ofCode at h
  split at h <;> cases h <;> rfl
theorem Space3.code_of_ofCode {n : Nat} {x : Space3} (h : Space3.ofCode n = some x) : x.code = n := by
  unfold Space3.ofCode at h
  split at h <;> cases h <;> rfl
theorem LdTy.code_of_ofCode {n : Nat} {x : LdTy} (h : LdTy.ofCode n = some x) : x.code = n := by
  unfold LdTy.ofCode at h
  split at h <;> cases h <;> rfl
theorem StTy.code_of_ofCode {n : Nat} {x : StTy} (h : StTy.ofCode n = some x) : x.code = n := by
  unfold StTy.ofCode at h
  split at h <;> cases h <;> rfl
theorem ROp.code_of_ofCode {n : Nat} {x : ROp} (h : ROp.ofCode n = some x) : x.code = n := by
  unfold ROp.ofCode at h
  split at h <;> cases h <;> rfl
theorem MxFmt.code_of_ofCode {n : Nat} {x : MxFmt} (h : MxFmt.ofCode n = some x) : x.code = n := by
  unfold MxFmt.ofCode at h
  split at h <;> cases h <;> rfl
theorem AOp.code_of_ofCode {n : Nat} {x : AOp} (h : AOp.ofCode n = some x) : x.code = n := by
  unfold AOp.ofCode at h
  split at h <;> cases h <;> rfl
theorem Fmt.code_of_ofCode {n : Nat} {x : Fmt} (h : Fmt.ofCode n = some x) : x.code = n := by
  unfold Fmt.ofCode at h
  split at h <;> cases h <;> rfl
theorem Ord.code_of_ofCode {n : Nat} {x : Ord} (h : Ord.ofCode n = some x) : x.code = n := by
  unfold Ord.ofCode at h
  split at h <;> cases h <;> rfl
theorem RAOp.code_of_ofCode {n : Nat} {x : RAOp} (h : RAOp.ofCode n = some x) : x.code = n := by
  unfold RAOp.ofCode at h
  split at h
  · cases h
    exact (‹n = 17›).symm
  · obtain ⟨a, ha, rfl⟩ := Option.map_eq_some_iff.1 h
    exact AOp.code_of_ofCode ha
theorem CvtPair.code_of_ofCode {n : Nat} {x : CvtPair} (h : CvtPair.ofCode n = some x) : x.code = n := by
  unfold CvtPair.ofCode at h
  split at h
  · cases h
    rw [CvtPair.code, Fmt.code_of_ofCode ‹Fmt.ofCode (n / 9) = _›, Fmt.code_of_ofCode ‹Fmt.ofCode (n % 9) = _›]
    omega
  · cases h

/-! ### The words of each opcode -/

section
variable {w : Nat} (hw : w < 2 ^ 32)
include hw

theorem reads_op00 (h : fld w 24 6 = 0x00) : Reads w (decodeOp00 w) := by
  have hf := eq_parts hw (ns := [1, 1, 6, 7, 17]) rfl
  rw [decodeOp00]
  with_reducible repeat' apply Reads.ite
  any_goals exact .error _
  all_goals intro hc
  all_goals
    refine .accept rfl (by rw [h]; decide) fun hS hU => ?_
    unfold encodeNat
    simp [placed, parts] at hS hU hf ⊢
    omega

theorem reads_op01 (h : fld w 24 6 = 0x01) : Reads w (decodeOp01 w) := by
  have hf := eq_parts hw (ns := [1, 1, 6, 7, 17]) rfl
  rw [decodeOp01]
  with_reducible repeat' apply Reads.ite
  any_goals exact .error _
  all_goals intro hc
  all_goals
    refine .accept rfl (by rw [h]; decide) fun hS hU => ?_
    unfold encodeNat
    simp [placed, parts] at hS hU hf ⊢
    omega

theorem reads_op02 (h : fld w 24 6 = 0x02) : Reads w (decodeOp02 w) := by
  have hf1 := eq_parts hw (ns := [1, 1, 6, 7, 7, 10]) rfl
  have hf2 := eq_parts hw (ns := [1, 1, 6, 7, 17]) rfl
  rw [decodeOp02]
  with_reducible repeat' apply Reads.ite
  any_goals exact .error _
  all_goals intro hc
  all_goals
    refine .accept rfl (by rw [h]; decide) fun hS hU => ?_
    unfold encodeNat
    simp [placed, parts] at hS hU hf1 hf2 ⊢
    omega

theorem reads_op03 (h : fld w 24 6 = 0x03) : Reads w (decodeOp03 w) := by
  have hf := eq_parts hw (ns := [1, 1, 6, 7, 7, 7, 3]) rfl
  rw [decodeOp03]
  with_reducible repeat' apply Reads.ite
  any_goals exact .error _
  all_goals intro hc
  all_goals
    refine .accept rfl (by rw [h]; decide) fun hS hU => ?_
    unfold encodeNat
    simp [placed, parts] at hS hU hf ⊢
    omega

theorem reads_op04 (h : fld w 24 6 = 0x04) : Reads w (decodeOp04 w) := by
  have hf := eq_parts hw (ns := [1, 1, 6, 7, 17]) rfl
  rw [decodeOp04]
  with_reducible repeat' apply Reads.ite
  any_goals exact .error _
  all_goals intro hc
  all_goals
    refine .accept rfl (by rw [h]; decide) fun hS hU => ?_
    unfold encodeNat
    simp [placed, parts] at hS hU hf ⊢
    omega

theorem reads_op05 (h : fld w 24 6 = 0x05) : Reads w (decodeOp05 w) := by
  have hf := eq_parts hw (ns := [1, 1, 6, 7, 17]) rfl
  rw [decodeOp05]
  refine .accept rfl (by rw [h]; decide) fun hS hU => ?_
  unfold encodeNat
  simp [placed, parts] at hS hU hf ⊢
  omega

theorem reads_op06 (h : fld w 24 6 = 0x06) : Reads w (decodeOp06 w) := by
  have hf := eq_parts hw (ns := [1, 1, 6, 7, 7, 10]) rfl
  rw [decodeOp06]
  with_reducible repeat' apply Reads.ite
  any_goals exact .error _
  all_goals intro hc
  all_goals
    refine .accept rfl (by rw [h]; decide) fun hS hU => ?_
    unfold encodeNat
    simp [placed, parts] at hS hU hf ⊢
    omega

theorem reads_op07 (h : fld w 24 6 = 0x07) : Reads w (decodeOp07 w) := by
  have hf := eq_parts hw (ns := [1, 1, 6, 7, 7, 2, 8]) rfl
  rw [decodeOp07]
  with_reducible repeat' apply Reads.ite
  any_goals exact .error _
  all_goals intro hc
  all_goals
    refine .accept rfl (by rw [h]; decide) fun hS hU => ?_
    unfold encodeNat
    simp [placed, parts] at hS hU hf ⊢
    omega

theorem reads_op08 (h : fld w 24 6 = 0x08) : Reads w (decodeOp08 w) := by
  have hf := eq_parts hw (ns := [1, 1, 6, 7, 7, 7, 3]) rfl
  rw [decodeOp08]
  with_reducible repeat' apply Reads.ite
  any_goals exact .error _
  all_goals intro hc
  all_goals
    refine .accept rfl (by rw [h]; decide) fun hS hU => ?_
    unfold encodeNat
    simp [placed, parts] at hS hU hf ⊢
    omega

theorem reads_op09 (h : fld w 24 6 = 0x09) : Reads w (decodeOp09 w) := by
  have hf := eq_parts hw (ns := [1, 1, 6, 7, 7, 7, 3]) rfl
  rw [decodeOp09]
  with_reducible repeat' apply Reads.ite
  any_goals exact .error _
  all_goals intro hc
  all_goals
    refine .accept rfl (by rw [h]; decide) fun hS hU => ?_
    unfold encodeNat
    simp [placed, parts] at hS hU hf ⊢
    omega

theorem reads_op0A (h : fld w 24 6 = 0x0A) : Reads w (decodeOp0A w) := by
  have hf := eq_parts hw (ns := [1, 1, 6, 7, 7, 7, 3]) rfl
  rw [decodeOp0A]
  with_reducible repeat' apply Reads.ite
  any_goals exact .error _
  all_goals intro hc
  all_goals
    refine .accept rfl (by rw [h]; decide) fun hS hU => ?_
    unfold encodeNat
    simp [placed, parts] at hS hU hf ⊢
    omega

theorem reads_op0B (h : fld w 24 6 = 0x0B) : Reads w (decodeOp0B w) := by
  have hf := eq_parts hw (ns := [1, 1, 6, 7, 7, 7, 3]) rfl
  rw [decodeOp0B]
  with_reducible repeat' apply Reads.ite
  any_goals exact .error _
  all_goals intro hc
  all_goals
    refine .accept rfl (by rw [h]; decide) fun hS hU => ?_
    unfold encodeNat
    simp [placed, parts] at hS hU hf ⊢
    omega

theorem reads_op0C (h : fld w 24 6 = 0x0C) : Reads w (decodeOp0C w) := by
  have hf := eq_parts hw (ns := [1, 1, 6, 7, 7, 7, 3]) rfl
  rw [decodeOp0C]
  with_reducible repeat' apply Reads.ite
  any_goals exact .error _
  all_goals intro hc
  all_goals
    refine .accept rfl (by rw [h]; decide) fun hS hU => ?_
    unfold encodeNat
    simp [placed, parts] at hS hU hf ⊢
    omega

theorem reads_op0D (h : fld w 24 6 = 0x0D) : Reads w (decodeOp0D w) := by
  have hf := eq_parts hw (ns := [1, 1, 6, 7, 7, 7, 3]) rfl
  rw [decodeOp0D]
  with_reducible repeat' apply Reads.ite
  any_goals exact .error _
  all_goals intro hc
  all_goals
    refine .accept rfl (by rw [h]; decide) fun hS hU => ?_
    unfold encodeNat
    simp [placed, parts] at hS hU hf ⊢
    omega

theorem reads_op0E (h : fld w 24 6 = 0x0E) : Reads w (decodeOp0E w) := by
  have hf := eq_parts hw (ns := [1, 1, 6, 7, 7, 7, 3]) rfl
  rw [decodeOp0E]
  with_reducible repeat' apply Reads.ite
  any_goals exact .error _
  all_goals intro hc
  all_goals
    refine .accept rfl (by rw [h]; decide) fun hS hU => ?_
    unfold encodeNat
    simp [placed, parts] at hS hU hf ⊢
    omega

theorem reads_op0F (h : fld w 24 6 = 0x0F) : Reads w (decodeOp0F w) := by
  have hf := eq_parts hw (ns := [1, 1, 6, 7, 7, 7, 3]) rfl
  rw [decodeOp0F]
  split
  · have hICond := ICond.code_of_ofCode ‹_›
    refine .accept rfl (by rw [h]; decide) fun hS hU => ?_
    unfold encodeNat
    simp [placed, parts] at hS hU hf ⊢
    omega
  · exact .error _

theorem reads_op10 (h : fld w 24 6 = 0x10) : Reads w (decodeOp10 w) := by
  have hf := eq_parts hw (ns := [1, 1, 6, 7, 17]) rfl
  rw [decodeOp10]
  refine .accept rfl (by rw [h]; decide) fun hS hU => ?_
  unfold encodeNat
  simp [placed, parts] at hS hU hf ⊢
  omega

theorem reads_op11 (h : fld w 24 6 = 0x11) : Reads w (decodeOp11 w) := by
  have hf := eq_parts hw (ns := [1, 1, 6, 7, 17]) rfl
  rw [decodeOp11]
  refine .accept rfl (by rw [h]; decide) fun hS hU => ?_
  unfold encodeNat
  simp [placed, parts] at hS hU hf ⊢
  omega

theorem reads_op12 (h : fld w 24 6 = 0x12) : Reads w (decodeOp12 w) := by
  have hf := eq_parts hw (ns := [1, 1, 6, 7, 7, 10]) rfl
  rw [decodeOp12]
  refine .accept rfl (by rw [h]; decide) fun hS hU => ?_
  unfold encodeNat
  simp [placed, parts] at hS hU hf ⊢
  omega

theorem reads_op13 (h : fld w 24 6 = 0x13) : Reads w (decodeOp13 w) := by
  have hf := eq_parts hw (ns := [1, 1, 6, 7, 7, 2, 8]) rfl
  rw [decodeOp13]
  with_reducible repeat' apply Reads.ite
  any_goals exact .error _
  all_goals intro hc
  all_goals
    refine .accept rfl (by rw [h]; decide) fun hS hU => ?_
    unfold encodeNat
    simp [placed, parts] at hS hU hf ⊢
    omega

theorem reads_op14 (h : fld w 24 6 = 0x14) : Reads w (decodeOp14 w) := by
  have hf := eq_parts hw (ns := [1, 1, 6, 7, 7, 2, 3, 5]) rfl
  rw [decodeOp14]
  with_reducible repeat' apply Reads.ite
  any_goals exact .error _
  all_goals intro hc
  all_goals
    refine .accept rfl (by rw [h]; decide) fun hS hU => ?_
    unfold encodeNat
    simp [placed, parts] at hS hU hf ⊢
    omega

theorem reads_op15 (h : fld w 24 6 = 0x15) : Reads w (decodeOp15 w) := by
  have hf := eq_parts hw (ns := [1, 1, 6, 7, 7, 7, 3]) rfl
  rw [decodeOp15]
  with_reducible repeat' apply Reads.ite
  any_goals exact .error _
  all_goals intro hc
  all_goals
    refine .accept rfl (by rw [h]; decide) fun hS hU => ?_
    unfold encodeNat
    simp [placed, parts] at hS hU hf ⊢
    omega

theorem reads_op16 (h : fld w 24 6 = 0x16) : Reads w (decodeOp16 w) := by
  have hf := eq_parts hw (ns := [1, 1, 6, 7, 7, 7, 3]) rfl
  rw [decodeOp16]
  refine .accept rfl (by rw [h]; decide) fun hS hU => ?_
  unfold encodeNat
  simp [placed, parts] at hS hU hf ⊢
  omega

theorem reads_op17 (h : fld w 24 6 = 0x17) : Reads w (decodeOp17 w) := by
  have hf := eq_parts hw (ns := [1, 1, 6, 7, 7, 7, 3]) rfl
  rw [decodeOp17]
  with_reducible repeat' apply Reads.ite
  any_goals exact .error _
  all_goals intro hc
  all_goals
    refine .accept rfl (by rw [h]; decide) fun hS hU => ?_
    unfold encodeNat
    simp [placed, parts] at hS hU hf ⊢
    omega

theorem reads_op18 (h : fld w 24 6 = 0x18) : Reads w (decodeOp18 w) := by
  have hf := eq_parts hw (ns := [1, 1, 6, 7, 7, 7, 3]) rfl
  rw [decodeOp18]
  with_reducible repeat' apply Reads.ite
  any_goals exact .error _
  all_goals intro hc
  all_goals
    refine .accept rfl (by rw [h]; decide) fun hS hU => ?_
    unfold encodeNat
    simp [placed, parts] at hS hU hf ⊢
    omega

theorem reads_op19 (h : fld w 24 6 = 0x19) : Reads w (decodeOp19 w) := by
  have hf := eq_parts hw (ns := [1, 1, 6, 7, 7, 7, 1, 2]) rfl
  rw [decodeOp19]
  with_reducible repeat' apply Reads.ite
  any_goals exact .error _
  all_goals intro hc
  all_goals
    refine .accept rfl (by rw [h]; decide) fun hS hU => ?_
    unfold encodeNat
    simp [placed, parts] at hS hU hf ⊢
    omega

theorem reads_op1A (h : fld w 24 6 = 0x1A) : Reads w (decodeOp1A w) := by
  have hf := eq_parts hw (ns := [1, 1, 6, 7, 7, 7, 1, 2]) rfl
  rw [decodeOp1A]
  with_reducible repeat' apply Reads.ite
  any_goals exact .error _
  all_goals intro hc
  all_goals
    refine .accept rfl (by rw [h]; decide) fun hS hU => ?_
    unfold encodeNat
    simp [placed, parts] at hS hU hf ⊢
    omega

theorem reads_op1B (h : fld w 24 6 = 0x1B) : Reads w (decodeOp1B w) := by
  have hf := eq_parts hw (ns := [1, 1, 6, 7, 7, 7, 2, 1]) rfl
  rw [decodeOp1B]
  with_reducible repeat' apply Reads.ite
  any_goals exact .error _
  all_goals
    intro hc
    split
    · have hFpTy := FpTy.code_of_ofCode ‹_›
      refine .accept rfl (by rw [h]; decide) fun hS hU => ?_
      unfold encodeNat
      simp [placed, parts] at hS hU hf ⊢
      omega
    · exact .error _

theorem reads_op1C (h : fld w 24 6 = 0x1C) : Reads w (decodeOp1C w) := by
  have hf := eq_parts hw (ns := [1, 1, 6, 7, 7, 7, 3]) rfl
  rw [decodeOp1C]
  refine .ite (fun hc => ?_) ?_
  · refine .accept rfl (by rw [h]; decide) fun hS hU => ?_
    unfold encodeNat
    simp [placed, parts] at hS hU hf ⊢
    omega
  · split
    · have hFCond := FCond.code_of_ofCode ‹_›
      refine .accept rfl (by rw [h]; decide) fun hS hU => ?_
      unfold encodeNat
      simp [placed, parts] at hS hU hf ⊢
      omega
    · exact .error _

theorem reads_op1D (h : fld w 24 6 = 0x1D) : Reads w (decodeOp1D w) := by
  have hf := eq_parts hw (ns := [1, 1, 6, 7, 7, 7, 1, 2]) rfl
  rw [decodeOp1D]
  with_reducible repeat' apply Reads.ite
  any_goals exact .error _
  all_goals
    intro hc
    split
    · have hFpTy := FpTy.code_of_ofCode ‹_›
      refine .accept rfl (by rw [h]; decide) fun hS hU => ?_
      unfold encodeNat
      simp [placed, parts] at hS hU hf ⊢
      omega
    · exact .error _

theorem reads_op1E (h : fld w 24 6 = 0x1E) : Reads w (decodeOp1E w) := by
  have hf := eq_parts hw (ns := [1, 1, 6, 7, 7, 7, 3]) rfl
  rw [decodeOp1E]
  with_reducible repeat' apply Reads.ite
  iterate 3
    · intro hc
      split
      · have hRs := Rs.code_of_ofCode ‹_›
        refine .accept rfl (by rw [h]; decide) fun hS hU => ?_
        unfold encodeNat
        simp [placed, parts] at hS hU hf ⊢
        omega
      · exact .error _
  iterate 3
    · intro hc
      refine .accept rfl (by rw [h]; decide) fun hS hU => ?_
      unfold encodeNat
      simp [placed, parts] at hS hU hf ⊢
      omega
  · split
    · have hCvtPair := CvtPair.code_of_ofCode ‹_›
      have hRs := Rs.code_of_ofCode ‹_›
      refine .accept rfl (by rw [h]; decide) fun hS hU => ?_
      unfold encodeNat
      simp [placed, parts] at hS hU hf ⊢
      omega
    · exact .error _

theorem reads_op1F (h : fld w 24 6 = 0x1F) : Reads w (decodeOp1F w) := by
  have hf := eq_parts hw (ns := [1, 1, 6, 7, 7, 7, 3]) rfl
  rw [decodeOp1F]
  with_reducible repeat' apply Reads.ite
  any_goals exact .error _
  all_goals intro hc
  all_goals
    refine .accept rfl (by rw [h]; decide) fun hS hU => ?_
    unfold encodeNat
    simp [placed, parts] at hS hU hf ⊢
    omega

theorem reads_op20 (h : fld w 24 6 = 0x20) : Reads w (decodeOp20 w) := by
  have hf := eq_parts hw (ns := [1, 1, 6, 7, 7, 7, 3]) rfl
  rw [decodeOp20]
  with_reducible repeat' apply Reads.ite
  any_goals exact .error _
  all_goals intro hc
  all_goals
    refine .accept rfl (by rw [h]; decide) fun hS hU => ?_
    unfold encodeNat
    simp [placed, parts] at hS hU hf ⊢
    omega

theorem reads_op21 (h : fld w 24 6 = 0x21) : Reads w (decodeOp21 w) := by
  have hf := eq_parts hw (ns := [1, 1, 6, 7, 7, 7, 3]) rfl
  rw [decodeOp21]
  with_reducible repeat' apply Reads.ite
  any_goals exact .error _
  all_goals intro hc
  all_goals
    refine .accept rfl (by rw [h]; decide) fun hS hU => ?_
    unfold encodeNat
    simp [placed, parts] at hS hU hf ⊢
    omega

theorem reads_op22 (h : fld w 24 6 = 0x22) : Reads w (decodeOp22 w) := by
  have hf := eq_parts hw (ns := [1, 1, 6, 7, 7, 7, 3]) rfl
  rw [decodeOp22]
  with_reducible repeat' apply Reads.ite
  any_goals exact .error _
  all_goals intro hc
  all_goals
    refine .accept rfl (by rw [h]; decide) fun hS hU => ?_
    unfold encodeNat
    simp [placed, parts] at hS hU hf ⊢
    omega

theorem reads_op23 (h : fld w 24 6 = 0x23) : Reads w (decodeOp23 w) := by
  have hf := eq_parts hw (ns := [1, 1, 6, 7, 7, 7, 3]) rfl
  rw [decodeOp23]
  with_reducible repeat' apply Reads.ite
  any_goals exact .error _
  all_goals intro hc
  all_goals
    refine .accept rfl (by rw [h]; decide) fun hS hU => ?_
    unfold encodeNat
    simp [placed, parts] at hS hU hf ⊢
    omega

theorem reads_op28 (h : fld w 24 6 = 0x28) : Reads w (decodeOp28 w) := by
  have hf := eq_parts hw (ns := [1, 1, 6, 7, 7, 2, 5, 3]) rfl
  rw [decodeOp28]
  split
  · have hSpace3 := Space3.code_of_ofCode ‹_›
    have hLdTy := LdTy.code_of_ofCode ‹_›
    refine .accept rfl (by rw [h]; decide) fun hS hU => ?_
    unfold encodeNat
    simp [placed, parts] at hS hU hf ⊢
    omega
  · exact .error _

theorem reads_op29 (h : fld w 24 6 = 0x29) : Reads w (decodeOp29 w) := by
  have hf := eq_parts hw (ns := [1, 1, 6, 7, 7, 2, 5, 3]) rfl
  rw [decodeOp29]
  split
  · have hSpace3 := Space3.code_of_ofCode ‹_›
    have hStTy := StTy.code_of_ofCode ‹_›
    refine .accept rfl (by rw [h]; decide) fun hS hU => ?_
    unfold encodeNat
    simp [placed, parts] at hS hU hf ⊢
    omega
  · exact .error _

theorem reads_op2A (h : fld w 24 6 = 0x2A) : Reads w (decodeOp2A w) := by
  have hf := eq_parts hw (ns := [1, 1, 6, 7, 7, 5, 1, 4]) rfl
  rw [decodeOp2A]
  with_reducible repeat' apply Reads.ite
  iterate 2
    · intro hc
      split
      · have hOrd := Ord.code_of_ofCode ‹_›
        refine .accept rfl (by rw [h]; decide) fun hS hU => ?_
        unfold encodeNat
        simp [placed, parts] at hS hU hf ⊢
        omega
      · exact .error _
  · split
    · have hAOp := AOp.code_of_ofCode ‹_›
      have hOrd := Ord.code_of_ofCode ‹_›
      refine .accept rfl (by rw [h]; decide) fun hS hU => ?_
      unfold encodeNat
      simp [placed, parts] at hS hU hf ⊢
      omega
    · exact .error _

theorem reads_op2B (h : fld w 24 6 = 0x2B) : Reads w (decodeOp2B w) := by
  have hf := eq_parts hw (ns := [1, 1, 6, 7, 7, 4, 1, 1, 4]) rfl
  rw [decodeOp2B]
  with_reducible repeat' apply Reads.ite
  any_goals exact .error _
  all_goals
    intro hc
    split
    · have hOrd := Ord.code_of_ofCode ‹_›
      refine .accept rfl (by rw [h]; decide) fun hS hU => ?_
      unfold encodeNat
      simp [placed, parts] at hS hU hf ⊢
      omega
    · exact .error _

theorem reads_op2C (h : fld w 24 6 = 0x2C) : Reads w (decodeOp2C w) := by
  have hf := eq_parts hw (ns := [1, 1, 6, 7, 7, 7, 1, 1, 1]) rfl
  rw [decodeOp2C]
  with_reducible repeat' apply Reads.ite
  any_goals exact .error _
  all_goals intro hc
  all_goals
    refine .accept rfl (by rw [h]; decide) fun hS hU => ?_
    unfold encodeNat
    simp [placed, parts] at hS hU hf ⊢
    omega

theorem reads_op2D (h : fld w 24 6 = 0x2D) : Reads w (decodeOp2D w) := by
  have hf := eq_parts hw (ns := [1, 1, 6, 7, 7, 7, 2, 1]) rfl
  rw [decodeOp2D]
  with_reducible repeat' apply Reads.ite
  any_goals exact .error _
  all_goals intro hc
  all_goals
    refine .accept rfl (by rw [h]; decide) fun hS hU => ?_
    unfold encodeNat
    simp [placed, parts] at hS hU hf ⊢
    omega

theorem reads_op2E (h : fld w 24 6 = 0x2E) : Reads w (decodeOp2E w) := by
  have hf := eq_parts hw (ns := [1, 1, 6, 7, 7, 7, 2, 1]) rfl
  rw [decodeOp2E]
  with_reducible repeat' apply Reads.ite
  any_goals exact .error _
  all_goals intro hc
  all_goals
    refine .accept rfl (by rw [h]; decide) fun hS hU => ?_
    unfold encodeNat
    simp [placed, parts] at hS hU hf ⊢
    omega

theorem reads_op2F (h : fld w 24 6 = 0x2F) : Reads w (decodeOp2F w) := by
  have hf := eq_parts hw (ns := [1, 1, 6, 7, 7, 7, 3]) rfl
  rw [decodeOp2F]
  with_reducible repeat' apply Reads.ite
  any_goals exact .error _
  all_goals intro hc
  all_goals
    refine .accept rfl (by rw [h]; decide) fun hS hU => ?_
    unfold encodeNat
    simp [placed, parts] at hS hU hf ⊢
    omega

theorem reads_op30 (h : fld w 24 6 = 0x30) : Reads w (decodeOp30 w) := by
  have hf1 := eq_parts hw (ns := [1, 1, 6, 7, 7, 7, 3]) rfl
  have hf2 := eq_parts hw (ns := [1, 1, 6, 7, 7, 7, 1, 2]) rfl
  rw [decodeOp30]
  with_reducible repeat' apply Reads.ite
  any_goals exact .error _
  all_goals intro hc
  all_goals
    refine .accept rfl (by rw [h]; decide) fun hS hU => ?_
    unfold encodeNat
    simp [placed, parts] at hS hU hf1 hf2 ⊢
    omega

theorem reads_op31 (h : fld w 24 6 = 0x31) : Reads w (decodeOp31 w) := by
  have hf := eq_parts hw (ns := [1, 1, 6, 7, 7, 7, 3]) rfl
  rw [decodeOp31]
  with_reducible repeat' apply Reads.ite
  any_goals exact .error _
  all_goals intro hc
  all_goals
    refine .accept rfl (by rw [h]; decide) fun hS hU => ?_
    unfold encodeNat
    simp [placed, parts] at hS hU hf ⊢
    omega

theorem reads_op32 (h : fld w 24 6 = 0x32) : Reads w (decodeOp32 w) := by
  have hf := eq_parts hw (ns := [1, 1, 6, 7, 7, 7, 3]) rfl
  rw [decodeOp32]
  with_reducible repeat' apply Reads.ite
  any_goals exact .error _
  all_goals intro hc
  all_goals
    refine .accept rfl (by rw [h]; decide) fun hS hU => ?_
    unfold encodeNat
    simp [placed, parts] at hS hU hf ⊢
    omega

theorem reads_op33 (h : fld w 24 6 = 0x33) : Reads w (decodeOp33 w) := by
  have hf := eq_parts hw (ns := [1, 1, 6, 7, 7, 7, 3]) rfl
  rw [decodeOp33]
  with_reducible repeat' apply Reads.ite
  any_goals exact .error _
  all_goals
    intro hc
    split
    · have hROp := ROp.code_of_ofCode ‹_›
      refine .accept rfl (by rw [h]; decide) fun hS hU => ?_
      unfold encodeNat
      simp [placed, parts] at hS hU hf ⊢
      omega
    · exact .error _

theorem reads_op34 (h : fld w 24 6 = 0x34) : Reads w (decodeOp34 w) := by
  have hf1 := eq_parts hw (ns := [1, 1, 6, 7, 7, 6, 4]) rfl
  have hf2 := eq_parts hw (ns := [1, 1, 6, 7, 7, 10]) rfl
  rw [decodeOp34]
  with_reducible repeat' apply Reads.ite
  any_goals exact .error _
  all_goals intro hc
  all_goals
    refine .accept rfl (by rw [h]; decide) fun hS hU => ?_
    unfold encodeNat
    simp [placed, parts] at hS hU hf1 hf2 ⊢
    omega

theorem reads_op35 (h : fld w 24 6 = 0x35) : Reads w (decodeOp35 w) := by
  have hf := eq_parts hw (ns := [1, 1, 6, 7, 7, 7, 3]) rfl
  rw [decodeOp35]
  with_reducible repeat' apply Reads.ite
  any_goals exact .error _
  all_goals intro hc
  all_goals
    refine .accept rfl (by rw [h]; decide) fun hS hU => ?_
    unfold encodeNat
    simp [placed, parts] at hS hU hf ⊢
    omega

theorem reads_op36 (h : fld w 24 6 = 0x36) : Reads w (decodeOp36 w) := by
  have hf := eq_parts hw (ns := [1, 1, 6, 7, 7, 7, 3]) rfl
  rw [decodeOp36]
  with_reducible repeat' apply Reads.ite
  any_goals exact .error _
  all_goals intro hc
  all_goals
    refine .accept rfl (by rw [h]; decide) fun hS hU => ?_
    unfold encodeNat
    simp [parts] at hS hU hf ⊢
    omega

theorem reads_op37 (h : fld w 24 6 = 0x37) : Reads w (decodeOp37 w) := by
  have hf := eq_parts hw (ns := [1, 1, 6, 7, 7, 7, 3]) rfl
  rw [decodeOp37]
  with_reducible repeat' apply Reads.ite
  any_goals exact .error _
  all_goals intro hc
  all_goals
    refine .accept rfl (by rw [h]; decide) fun hS hU => ?_
    unfold encodeNat
    simp [placed, parts] at hS hU hf ⊢
    omega

theorem reads_op38 (h : fld w 24 6 = 0x38) : Reads w (decodeOp38 w) := by
  have hf := eq_parts hw (ns := [1, 1, 6, 7, 7, 5, 3, 1, 1]) rfl
  rw [decodeOp38]
  refine .ite (fun hc => ?_) ?_
  · refine .accept rfl (by rw [h]; decide) fun hS hU => ?_
    unfold encodeNat
    simp [placed, parts] at hS hU hf ⊢
    omega
  · split
    · have hMxFmt := MxFmt.code_of_ofCode ‹_›
      refine .accept rfl (by rw [h]; decide) fun hS hU => ?_
      unfold encodeNat
      simp [placed, parts] at hS hU hf ⊢
      omega
    · exact .error _

theorem reads_op39 (h : fld w 24 6 = 0x39) : Reads w (decodeOp39 w) := by
  have hf1 := eq_parts hw (ns := [1, 1, 6, 7, 7, 5, 2, 3]) rfl
  have hf2 := eq_parts hw (ns := [1, 1, 6, 7, 7, 7, 3]) rfl
  rw [decodeOp39]
  with_reducible repeat' apply Reads.ite
  any_goals exact .error _
  all_goals intro hc
  all_goals
    refine .accept rfl (by rw [h]; decide) fun hS hU => ?_
    unfold encodeNat
    simp [placed, parts] at hS hU hf1 hf2 ⊢
    omega

theorem reads_op3A (h : fld w 24 6 = 0x3A) : Reads w (decodeOp3A w) := by
  have hf := eq_parts hw (ns := [1, 1, 6, 7, 7, 7, 3]) rfl
  rw [decodeOp3A]
  with_reducible repeat' apply Reads.ite
  any_goals exact .error _
  all_goals intro hc
  all_goals
    refine .accept rfl (by rw [h]; decide) fun hS hU => ?_
    unfold encodeNat
    simp [placed, parts] at hS hU hf ⊢
    omega

theorem reads_op3B (h : fld w 24 6 = 0x3B) : Reads w (decodeOp3B w) := by
  have hf1 := eq_parts hw (ns := [1, 1, 6, 7, 7, 6, 1, 3]) rfl
  have hf2 := eq_parts hw (ns := [1, 1, 6, 7, 7, 5, 1, 1, 3]) rfl
  have hf3 := eq_parts hw (ns := [1, 1, 6, 7, 7, 7, 3]) rfl
  rw [decodeOp3B]
  with_reducible repeat' apply Reads.ite
  any_goals exact .error _
  all_goals intro hc
  all_goals
    refine .accept rfl (by rw [h]; decide) fun hS hU => ?_
    unfold encodeNat
    simp [placed, parts] at hS hU hf1 hf2 hf3 ⊢
    omega

theorem reads_op3C (h : fld w 24 6 = 0x3C) : Reads w (decodeOp3C w) := by
  have hf := eq_parts hw (ns := [1, 1, 6, 7, 7, 7, 1, 2]) rfl
  rw [decodeOp3C]
  refine .accept rfl (by rw [h]; decide) fun hS hU => ?_
  unfold encodeNat
  simp [placed, parts] at hS hU hf ⊢
  omega

theorem reads_op3D (h : fld w 24 6 = 0x3D) : Reads w (decodeOp3D w) := by
  have hf := eq_parts hw (ns := [1, 1, 6, 7, 7, 7, 3]) rfl
  rw [decodeOp3D]
  with_reducible repeat' apply Reads.ite
  any_goals exact .error _
  all_goals intro hc
  all_goals
    refine .accept rfl (by rw [h]; decide) fun hS hU => ?_
    unfold encodeNat
    simp [placed, parts] at hS hU hf ⊢
    omega

theorem reads_op3E (h : fld w 24 6 = 0x3E) : Reads w (decodeOp3E w) := by
  have hf1 := eq_parts hw (ns := [1, 1, 6, 7, 7, 7, 3]) rfl
  have hf2 := eq_parts hw (ns := [1, 1, 6, 7, 7, 2, 5, 3]) rfl
  rw [decodeOp3E]
  with_reducible repeat' apply Reads.ite
  any_goals exact .error _
  all_goals intro hc
  case hq.hq.hr =>
    split
    · have hRAOp := RAOp.code_of_ofCode ‹_›
      refine .accept rfl (by rw [h]; decide) fun hS hU => ?_
      unfold encodeNat
      simp [placed, parts] at hS hU hf1 hf2 ⊢
      omega
    · exact .error _
  all_goals
    refine .accept rfl (by rw [h]; decide) fun hS hU => ?_
    unfold encodeNat
    simp [placed, parts] at hS hU hf1 hf2 ⊢
    omega

theorem reads_op3F (h : fld w 24 6 = 0x3F) : Reads w (decodeOp3F w) := by
  have hf := eq_parts hw (ns := [1, 1, 6, 7, 7, 7, 3]) rfl
  rw [decodeOp3F]
  with_reducible repeat' apply Reads.ite
  any_goals exact .error _
  all_goals intro hc
  all_goals
    refine .accept rfl (by rw [h]; decide) fun hS hU => ?_
    unfold encodeNat
    simp [placed, parts] at hS hU hf ⊢
    omega

/-- What the decoder reads of any word (R44, R45, R50). -/
theorem reads_decodeNat : Reads w (decodeNat w) := by
  have hop := fld_lt (w := w) 24 6
  interval_cases e : fld w 24 6
  exacts [decodeNat_00 e ▸ reads_op00 hw e, decodeNat_01 e ▸ reads_op01 hw e, decodeNat_02 e ▸ reads_op02 hw e, decodeNat_03 e ▸ reads_op03 hw e,
    decodeNat_04 e ▸ reads_op04 hw e, decodeNat_05 e ▸ reads_op05 hw e, decodeNat_06 e ▸ reads_op06 hw e, decodeNat_07 e ▸ reads_op07 hw e,
    decodeNat_08 e ▸ reads_op08 hw e, decodeNat_09 e ▸ reads_op09 hw e, decodeNat_0A e ▸ reads_op0A hw e, decodeNat_0B e ▸ reads_op0B hw e,
    decodeNat_0C e ▸ reads_op0C hw e, decodeNat_0D e ▸ reads_op0D hw e, decodeNat_0E e ▸ reads_op0E hw e, decodeNat_0F e ▸ reads_op0F hw e,
    decodeNat_10 e ▸ reads_op10 hw e, decodeNat_11 e ▸ reads_op11 hw e, decodeNat_12 e ▸ reads_op12 hw e, decodeNat_13 e ▸ reads_op13 hw e,
    decodeNat_14 e ▸ reads_op14 hw e, decodeNat_15 e ▸ reads_op15 hw e, decodeNat_16 e ▸ reads_op16 hw e, decodeNat_17 e ▸ reads_op17 hw e,
    decodeNat_18 e ▸ reads_op18 hw e, decodeNat_19 e ▸ reads_op19 hw e, decodeNat_1A e ▸ reads_op1A hw e, decodeNat_1B e ▸ reads_op1B hw e,
    decodeNat_1C e ▸ reads_op1C hw e, decodeNat_1D e ▸ reads_op1D hw e, decodeNat_1E e ▸ reads_op1E hw e, decodeNat_1F e ▸ reads_op1F hw e,
    decodeNat_20 e ▸ reads_op20 hw e, decodeNat_21 e ▸ reads_op21 hw e, decodeNat_22 e ▸ reads_op22 hw e, decodeNat_23 e ▸ reads_op23 hw e,
    by rw [decodeNat, e]; exact .error _, by rw [decodeNat, e]; exact .error _, by rw [decodeNat, e]; exact .error _,
    by rw [decodeNat, e]; exact .error _, decodeNat_28 e ▸ reads_op28 hw e, decodeNat_29 e ▸ reads_op29 hw e, decodeNat_2A e ▸ reads_op2A hw e,
    decodeNat_2B e ▸ reads_op2B hw e, decodeNat_2C e ▸ reads_op2C hw e, decodeNat_2D e ▸ reads_op2D hw e, decodeNat_2E e ▸ reads_op2E hw e,
    decodeNat_2F e ▸ reads_op2F hw e, decodeNat_30 e ▸ reads_op30 hw e, decodeNat_31 e ▸ reads_op31 hw e, decodeNat_32 e ▸ reads_op32 hw e,
    decodeNat_33 e ▸ reads_op33 hw e, decodeNat_34 e ▸ reads_op34 hw e, decodeNat_35 e ▸ reads_op35 hw e, decodeNat_36 e ▸ reads_op36 hw e,
    decodeNat_37 e ▸ reads_op37 hw e, decodeNat_38 e ▸ reads_op38 hw e, decodeNat_39 e ▸ reads_op39 hw e, decodeNat_3A e ▸ reads_op3A hw e,
    decodeNat_3B e ▸ reads_op3B hw e, decodeNat_3C e ▸ reads_op3C hw e, decodeNat_3D e ▸ reads_op3D hw e, decodeNat_3E e ▸ reads_op3E hw e,
    decodeNat_3F e ▸ reads_op3F hw e]

end

/-- Settles O58: what each opcode's decoder accepts is put together again from the fields it read (`Reads`); the fields are the word's parts. -/
theorem wordsHaveOneReading : Obligations.WordsHaveOneReading := by
  unfold Obligations.WordsHaveOneReading
  refine ⟨fun w i h => ?_, fun w h => ?_, ?_, fun w h hS i hi => ?_⟩
  · obtain ⟨he, hi, -⟩ := reads_decodeNat w.isLt i h
    exact ⟨BitVec.eq_of_toNat_eq (by rw [encode, chainBit, toNat_fld_beq_one, he, BitVec.toNat_ofNat, Nat.mod_eq_of_lt w.isLt]), hi⟩
  · refine ⟨.unassigned, ?_, rfl, rfl, rfl⟩
    rw [opOf] at h
    rw [decode, decodeNat]
    rcases (by simpa using h : fld w.toNat 24 6 = 0x24 ∨ fld w.toNat 24 6 = 0x25 ∨ fld w.toNat 24 6 = 0x26 ∨ fld w.toNat 24 6 = 0x27)
      with e | e | e | e <;> rw [e] <;> rfl
  · rintro s d a b w rfl
    have hs := s.toNat_lt
    have hd := d.isLt
    have ha := a.isLt
    have hb := b.isLt
    rw [encode]
    unfold encodeNat
    simp only [placed, BitVec.toNat_ofNat, Bool.toNat_false]
    omega
  · obtain ⟨-, -, hs⟩ := reads_decodeNat w.isLt i hi
    have := hs hS
    simp [hasScalar, opOf] at this h
    omega

end Sys2Proof
end

