-- ==== Sys2Proof/Proofs/Landing.lean ====
section
/-!
PROOF. Results on their way and their landing (R41, R42). A landing writes one register of one lane, and whatever the extended registers do, the
group is the one after the landings that are due, in order.
-/

namespace Sys2Proof.Machine

-- One lemma after another, within the memory of the check.
set_option Elab.async false

/-! ### One landing -/

section
variable {g : Group} {l m n : Nat} {dst : Dest} {v : Dword}

theorem Group.lane_modLane (g : Group) (l m : Nat) (f : Lane → Lane) :
    (g.modLane l f).lane m = if m = l ∧ l < g.lanes.length then f (g.lane l) else g.lane m := by
  split
  · obtain ⟨rfl, h⟩ := ‹m = l ∧ _›
    exact Group.lane_setLane_self _ _ _ h
  · by_cases e : m = l
    · subst e
      have h : g.lanes.length ≤ m := by omega
      simp [Group.lane, Group.modLane, Group.setLane, List.set_eq_of_length_le h]
    · exact Group.lane_setLane_ne _ _ _ _ e

@[simp] theorem Group.length_modLane (g : Group) (l : Nat) (f : Lane → Lane) : (g.modLane l f).lanes.length = g.lanes.length := by
  simp [Group.modLane, Group.setLane]

@[simp] theorem Group.pend_land : (g.land l dst v).pend = g.pend := by cases dst <;> rfl
@[simp] theorem Group.key_land : (g.land l dst v).key = g.key := by cases dst <;> rfl
@[simp] theorem Group.length_land : (g.land l dst v).lanes.length = g.lanes.length := by cases dst <;> simp [Group.land]

/-- The lanes after a landing are a matter of the lanes before it. -/
theorem Group.lanes_land {h : Group} (e : g.lanes = h.lanes) : (g.land l dst v).lanes = (h.land l dst v).lanes := by
  cases dst <;> simp [Group.land, Group.modLane, Group.setLane, Group.lane, e]

/-- A landing moves no lane and changes no lane's mode. -/
theorem Group.land_keeps : ((g.land l dst v).lane m).pc = (g.lane m).pc ∧ ((g.land l dst v).lane m).mode = (g.lane m).mode ∧
    ((g.land l dst v).lane m).hold = (g.lane m).hold := by
  cases dst with
  | v _ | m _ | p _ | pw =>
    simp only [Group.land, Group.lane_modLane]
    split
    · obtain ⟨rfl, -⟩ := ‹m = l ∧ _›
      exact ⟨rfl, rfl, rfl⟩
    · exact ⟨rfl, rfl, rfl⟩
  | fpf | q _ | x _ => exact ⟨rfl, rfl, rfl⟩

theorem Group.land_wf_v (h : cellsWf (g.lane m).v = true) : cellsWf ((g.land l dst v).lane m).v = true := by
  cases dst with
  | v _ =>
    simp only [Group.land, Group.lane_modLane]
    split
    · obtain ⟨rfl, -⟩ := ‹m = l ∧ _›
      exact cellsWf_set _ _ h
    · exact h
  | m _ | p _ | pw =>
    simp only [Group.land, Group.lane_modLane]
    split
    · obtain ⟨rfl, -⟩ := ‹m = l ∧ _›
      exact h
    · exact h
  | fpf | q _ | x _ => exact h

theorem Group.land_wf_m (h : cellsWf (g.lane m).m = true) : cellsWf ((g.land l dst v).lane m).m = true := by
  cases dst with
  | m _ =>
    simp only [Group.land, Group.lane_modLane]
    split
    · obtain ⟨rfl, -⟩ := ‹m = l ∧ _›
      exact cellsWf_set _ _ h
    · exact h
  | v _ | p _ | pw =>
    simp only [Group.land, Group.lane_modLane]
    split
    · obtain ⟨rfl, -⟩ := ‹m = l ∧ _›
      exact h
    · exact h
  | fpf | q _ | x _ => exact h

theorem Group.land_wf (h : g.Wf) : (g.land l dst v).Wf := fun m => ⟨Group.land_wf_v (h m).1, Group.land_wf_m (h m).2⟩

/-- A v register holds what landed in it. -/
theorem Group.land_v_self (hl : l < g.lanes.length) (h : cellsWf (g.lane l).v = true) :
    cellGet ((g.land l (.v n) v).lane l).v n = v.setWidth 32 := by
  simp only [Group.land, Group.lane_modLane, hl, and_self, if_true]
  exact cellGet_set_self _ _ h

/-- A v register in which nothing landed is as it was. -/
theorem Group.land_v_ne (h : cellsWf (g.lane m).v = true) (hne : ¬ (l = m ∧ dst = .v n)) :
    cellGet ((g.land l dst v).lane m).v n = cellGet (g.lane m).v n := by
  cases dst with
  | v k =>
    simp only [Group.land, Group.lane_modLane]
    split
    · obtain ⟨rfl, -⟩ := ‹m = l ∧ _›
      exact cellGet_set_ne _ h fun e => hne ⟨rfl, by rw [e]⟩
    · rfl
  | m _ | p _ | pw =>
    simp only [Group.land, Group.lane_modLane]
    split
    · obtain ⟨rfl, -⟩ := ‹m = l ∧ _›
      rfl
    · rfl
  | fpf | q _ | x _ => rfl

end

/-! ### Several landings -/

/-- A group after some landings, in order. -/
def Group.landAll (g : Group) (ps : List Pend) : Group := ps.foldl (fun g p => g.land p.lane p.dst p.val) g

section
variable {g : Group} {ps : List Pend} {p : Pend} {l n : Nat}

@[simp] theorem Group.landAll_nil : g.landAll [] = g := rfl
@[simp] theorem Group.landAll_cons : g.landAll (p :: ps) = (g.land p.lane p.dst p.val).landAll ps := rfl

/-- The lanes after some landings are a matter of the lanes before them. -/
theorem Group.lanes_landAll {h : Group} (e : g.lanes = h.lanes) : (g.landAll ps).lanes = (h.landAll ps).lanes := by
  induction ps generalizing g h with
  | nil => exact e
  | cons p ps ih => exact ih (Group.lanes_land e)

theorem Group.lane_landAll {h : Group} (e : g.lanes = h.lanes) : (g.landAll ps).lane l = (h.landAll ps).lane l := by
  rw [Group.lane, Group.lane, Group.lanes_landAll e]

@[simp] theorem Group.pend_landAll : (g.landAll ps).pend = g.pend := by
  induction ps generalizing g with
  | nil => rfl
  | cons p ps ih => simp [ih]
@[simp] theorem Group.length_landAll : (g.landAll ps).lanes.length = g.lanes.length := by
  induction ps generalizing g with
  | nil => rfl
  | cons p ps ih => simp [ih]

theorem Group.landAll_keeps : ((g.landAll ps).lane l).pc = (g.lane l).pc ∧ ((g.landAll ps).lane l).mode = (g.lane l).mode ∧
    ((g.landAll ps).lane l).hold = (g.lane l).hold := by
  induction ps generalizing g with
  | nil => exact ⟨rfl, rfl, rfl⟩
  | cons p ps ih => simpa only [Group.landAll_cons, Group.land_keeps] using ih (g := g.land p.lane p.dst p.val)

theorem Group.landAll_wf_v (h : cellsWf (g.lane l).v = true) : cellsWf ((g.landAll ps).lane l).v = true := by
  induction ps generalizing g with
  | nil => exact h
  | cons p ps ih => exact ih (Group.land_wf_v h)

theorem Group.landAll_wf (h : g.Wf) : (g.landAll ps).Wf := by
  induction ps generalizing g with
  | nil => exact h
  | cons p ps ih => exact ih (Group.land_wf h)

theorem Group.landAll_v_ne (h : cellsWf (g.lane l).v = true) (hne : ∀ p ∈ ps, ¬ (p.lane = l ∧ p.dst = .v n)) :
    cellGet ((g.landAll ps).lane l).v n = cellGet (g.lane l).v n := by
  induction ps generalizing g with
  | nil => rfl
  | cons p ps ih =>
    rw [List.forall_mem_cons] at hne
    rw [Group.landAll_cons, ih (Group.land_wf_v h) hne.2, Group.land_v_ne h hne.1]

/-- Where all the results that land in a v register agree, it holds their value. -/
theorem Group.landAll_v (hl : l < g.lanes.length) (h : cellsWf (g.lane l).v = true) {x : Dword} (hp : ∃ p ∈ ps, p.lane = l ∧ p.dst = .v n)
    (hx : ∀ p ∈ ps, p.lane = l → p.dst = .v n → p.val = x) : cellGet ((g.landAll ps).lane l).v n = x.setWidth 32 := by
  induction ps generalizing g with
  | nil => simp at hp
  | cons p ps ih =>
    rw [List.forall_mem_cons] at hx
    rw [Group.landAll_cons]
    by_cases hr : ∃ q ∈ ps, q.lane = l ∧ q.dst = .v n
    · exact ih (by simpa using hl) (Group.land_wf_v h) hr hx.2
    · obtain ⟨e1, e2⟩ : p.lane = l ∧ p.dst = .v n := by simpa [hr] using hp
      subst e1
      rw [Group.landAll_v_ne (Group.land_wf_v h) (by simpa using hr), e2, Group.land_v_self hl h, hx.1 rfl e2]

end

/-! ### The landings of a die cycle -/

section
variable {d : Dev} {k : GKey} {g : Group}

/-- A landing puts the group after it in place; the words saved for a group that holds no lock (R141) may change with it. -/
theorem Dev.group?_landIn {l : Nat} {dst : Dest} {v : Dword} {w : Option (Cells 32)} (hg : d.group? k = some { g with xsaved := w }) :
    ∃ w', (d.landIn k l dst v).group? k = some { g.land l dst v with xsaved := w' } := by
  have hk : g.key = k := by simpa using Dev.group?_key hg
  rw [Dev.landIn, hg]
  cases dst with
  | x n =>
    cases w with
    | some u => exact ⟨_, Dev.group?_setGroup_of hk⟩
    | none =>
      cases hp : g.place with
      | none => exact ⟨none, by simp only; exact hg⟩
      | some p =>
        refine ⟨none, ?_⟩
        show (d.writeX _ _ _ _).group? k = _
        rw [Dev.writeX]
        split <;> exact hg
  | v _ | m _ | p _ | pw | fpf | q _ => exact ⟨w, Dev.group?_setGroup_of hk⟩

theorem Dev.group?_landIns (ps : List Pend) {w : Option (Cells 32)} (hg : d.group? k = some { g with xsaved := w }) :
    ∃ w', (ps.foldl (fun d p => d.landIn k p.lane p.dst p.val) d).group? k = some { g.landAll ps with xsaved := w' } := by
  induction ps generalizing d g w with
  | nil => exact ⟨w, hg⟩
  | cons p ps ih =>
    obtain ⟨w', h⟩ := Dev.group?_landIn (l := p.lane) (dst := p.dst) (v := p.val) hg
    exact ih h

/-- The results of a group that are due at a die cycle. -/
def Group.due (g : Group) (cyc : Nat) : List Pend := g.pend.filter fun p => decide (p.land ≤ cyc)

theorem Group.mem_due {cyc : Nat} {p : Pend} : p ∈ g.due cyc ↔ p ∈ g.pend ∧ p.land ≤ cyc := by simp [Group.due]

/-- What lands in a die cycle: the group has the results that are due in its registers, and the others on their way. -/
theorem Dev.group?_landDue (cyc : Nat) (hg : d.group? k = some g) :
    ∃ h, (d.landDue k cyc).group? k = some h ∧ h.pend = g.pend.filter (fun p => decide (cyc < p.land)) ∧ h.lanes.length = g.lanes.length ∧
      ∀ l, h.lane l = (g.landAll (g.due cyc)).lane l := by
  have hk := Dev.group?_key hg
  rw [Dev.landDue, hg]
  obtain ⟨w, h⟩ := Dev.group?_landIns (g := { g with
      pend := g.pend.filter fun p => decide (cyc < p.land), flagCycle := cyc,
      flagBits := ((g.due cyc).filter fun p => decide (p.dst = .fpf)).foldl (fun a p => a ||| p.val.toNat) 0 })
    (g.due cyc) (Dev.group?_setGroup_of (d := d) hk)
  exact ⟨_, h, by simp, by simp, fun l => Group.lane_landAll rfl⟩

/-! ### What the statement says -/

/-- R41, R42: a v register holds the last of the results that are due in it, and is as it was where none is. -/
theorem Dev.landDue_lands (cyc l n : Nat) (hg : d.group? k = some g) (hl : l < g.lanes.length) (hw : cellsWf (g.lane l).v = true) :
    ∃ h, (d.landDue k cyc).group? k = some h ∧ h.pend = g.pend.filter (fun p => decide (cyc < p.land)) ∧ h.lanes.length = g.lanes.length ∧
      (∀ p ∈ g.pend, p.lane = l → p.dst = .v n → p.land ≤ cyc → (∀ q ∈ g.pend, q.lane = l → q.dst = .v n → q.land ≤ cyc → q.val = p.val) →
        cellGet (h.lane l).v n = p.val.setWidth 32) ∧
      ((∀ p ∈ g.pend, p.lane = l → p.dst = .v n → cyc < p.land) → cellGet (h.lane l).v n = cellGet (g.lane l).v n) ∧
      (h.lane l).pc = (g.lane l).pc ∧ (h.lane l).mode = (g.lane l).mode ∧ (h.lane l).hold = (g.lane l).hold := by
  obtain ⟨h, hh, hp, hn, hlane⟩ := Dev.group?_landDue cyc hg
  refine ⟨h, hh, hp, hn, fun p hp hpl hpd hland hval => ?_, fun hnone => ?_, ?_⟩
  · rw [hlane]
    refine Group.landAll_v hl hw ⟨p, Group.mem_due.2 ⟨hp, hland⟩, hpl, hpd⟩ fun q hq hql hqd => ?_
    obtain ⟨hq, hqland⟩ := Group.mem_due.1 hq
    exact hval q hq hql hqd hqland
  · rw [hlane]
    refine Group.landAll_v_ne hw fun p hp ⟨hpl, hpd⟩ => ?_
    obtain ⟨hp, hland⟩ := Group.mem_due.1 hp
    have := hnone p hp hpl hpd
    omega
  · rw [hlane]
    exact Group.landAll_keeps

/-- R42: of two writes to one register that land in different die cycles, the later one leaves its value. -/
theorem Dev.landDue_later {c1 c2 l n : Nat} {p q : Pend} (hg : d.group? k = some g) (hl : l < g.lanes.length) (hw : cellsWf (g.lane l).v = true)
    (hq : q ∈ g.pend) (hql : q.lane = l) (hqd : q.dst = .v n) (h1 : p.land ≤ c1) (h2 : c1 < q.land) (h3 : q.land ≤ c2)
    (only : ∀ x ∈ g.pend, x.lane = l → x.dst = .v n → x = p ∨ x = q) :
    ∃ h, ((d.landDue k c1).landDue k c2).group? k = some h ∧ cellGet (h.lane l).v n = q.val.setWidth 32 := by
  obtain ⟨g', hg', hp', hn', hlane⟩ := Dev.group?_landDue c1 hg
  have hw' : cellsWf (g'.lane l).v = true := by rw [hlane]; exact Group.landAll_wf_v hw
  obtain ⟨h, hh, -, -, hval, -⟩ := Dev.landDue_lands c2 l n hg' (by omega) hw'
  refine ⟨h, hh, hval q (by simp [hp', hq, h2]) hql hqd h3 fun x hx hxl hxd _ => ?_⟩
  obtain ⟨hx, hland⟩ : x ∈ g.pend ∧ c1 < x.land := by simpa [hp'] using hx
  rcases only x hx hxl hxd with rfl | rfl
  · omega
  · rfl

theorem Dev.landDue_wf (cyc : Nat) (hg : d.group? k = some g) (hw : g.Wf) : ∃ h, (d.landDue k cyc).group? k = some h ∧ h.Wf := by
  obtain ⟨h, hh, -, -, hlane⟩ := Dev.group?_landDue cyc hg
  exact ⟨h, hh, fun l => by rw [hlane]; exact Group.landAll_wf hw l⟩

theorem newGroup_wf (la : Launch) (b n : Nat) (p : Place) : (newGroup la b n p).Wf := by
  intro l
  rw [Group.lane, newGroup, List.getD_eq_getElem?_getD, List.getElem?_replicate]
  split <;> exact ⟨rfl, rfl⟩

/-- R41: the results of a word are on their way, and nothing has landed. -/
theorem Dev.group?_retire (lat : Nat) (outs : List Out) (hg : d.group? k = some g) :
    ∃ h, (d.retire k lat outs).group? k = some h ∧ h.lanes = g.lanes ∧ h.gsr = g.gsr ∧ h.q = g.q ∧
      ∀ q, q ∈ h.pend ↔ q ∈ g.pend ∨ ∃ o ∈ outs, q = ⟨o.lane, o.dst, o.val, d.now g + lat⟩ := by
  have hk := Dev.group?_key hg
  rw [Dev.retire, hg]
  exact ⟨_, Dev.group?_setGroup_of hk, rfl, rfl, rfl, fun q => pushPends_mem outs _ _ _ q⟩

/-- R20: p15 reads 1. -/
theorem Lane.preds_p15 (x : Lane) : bitAt x.preds.toNat 15 = true := by
  have h : x.preds.getLsbD 15 = true := by simp [Lane.preds]
  rw [BitVec.getLsbD, Nat.testBit, Nat.shiftRight_eq_div_pow] at h
  simpa [bitAt, Nat.and_comm, Nat.and_one_is_mod] using h

end

/-- R41: the latencies, by opcode. -/
theorem latencyOf_op (op : Nat) :
    (8 ≤ op ∧ op ≤ 0x17 → latencyOf op = 2) ∧ (op = 3 ∨ op = 7 ∨ op = 0x37 ∨ op = 0x3F → latencyOf op = 3) ∧
    (0x18 ≤ op ∧ op ≤ 0x1F ∧ op ≠ 0x1D ∨ 0x30 ≤ op ∧ op ≤ 0x32 → latencyOf op = 4) ∧ (op = 0x20 ∨ op = 0x22 → latencyOf op = 6) ∧
    (op = 0x1D ∨ op = 0x21 → latencyOf op = 10) ∧ (op = 0x33 → latencyOf op = 8) ∧ (op = 0x28 → latencyOf op = 12) := by
  refine ⟨fun h => ?_, ?_, ?_, ?_, ?_, ?_, ?_⟩
  · rw [latencyOf, if_neg (by omega), if_pos (by omega)]
  · rintro (rfl | rfl | rfl | rfl) <;> rfl
  · rintro (h | h)
    · rw [latencyOf, if_neg (by omega), if_neg (by omega), if_neg (by omega), if_neg (by omega), if_pos (by omega)]
    · obtain rfl | rfl | rfl : op = 0x30 ∨ op = 0x31 ∨ op = 0x32 := by omega
      all_goals rfl
  · rintro (rfl | rfl) <;> rfl
  · rintro (rfl | rfl) <;> rfl
  · rintro rfl
    rfl
  · rintro rfl
    rfl

/-- Settles O56, by what a group is after the landings that are due, in order (`Dev.group?_landDue`). -/
theorem resultsLand : Obligations.ResultsLand := by
  unfold Obligations.ResultsLand
  refine ⟨fun d k g cyc l n => Dev.landDue_lands cyc l n,
    fun d k g c1 c2 l n p q hg hl hw _ hq _ hql _ hqd h1 h2 h3 only => Dev.landDue_later hg hl hw hq hql hqd h1 h2 h3 only,
    fun g l dst v => Group.land_wf, fun d k g cyc => Dev.landDue_wf cyc, newGroup_wf, fun d k g lat outs => Dev.group?_retire lat outs,
    Lane.preds_p15, latencyOf_op⟩

end Sys2Proof.Machine
end

