-- ==== Sys2Proof/Proofs/Checks.lean ====
section
/-!
SUPPORT. The checks that all words share (R46, R52, R53): which of them a word breaks first, and that every word is executed as its checks and then
its body.
-/

namespace Sys2Proof.Machine

-- One lemma after another, within the memory of the check.
set_option Elab.async false

/-! ### The lowest field -/

theorem lowestField_eq_none {os : List Opnd} : lowestField os = none ↔ os = [] := by
  cases os with
  | nil => simp [lowestField]
  | cons o os =>
    simp only [lowestField, reduceCtorEq, iff_false]
    split <;> simp

theorem lowestField_mem {os : List Opnd} {f : Nat} (h : lowestField os = some f) : ∃ o ∈ os, o.field = f := by
  induction os generalizing f with
  | nil => cases h
  | cons o os ih =>
    rw [lowestField] at h
    split at h
    · exact ⟨o, by simp, by simpa using h⟩
    · next m hm =>
      obtain ⟨p, hp, rfl⟩ := ih hm
      simp only [Option.some.injEq] at h
      rcases min_choice o.field p.field with e | e
      · exact ⟨o, by simp, e.symm.trans h⟩
      · exact ⟨p, by simp [hp], e.symm.trans h⟩

theorem lowestField_le {os : List Opnd} {f : Nat} (h : lowestField os = some f) : ∀ o ∈ os, f ≤ o.field := by
  induction os generalizing f with
  | nil => simp
  | cons o os ih =>
    rw [lowestField] at h
    split at h
    · have e := lowestField_eq_none.1 ‹_›
      simp_all
    · have := ih ‹_›
      simp only [Option.some.injEq] at h
      rw [List.forall_mem_cons]
      exact ⟨by omega, fun p hp => by have := this p hp; omega⟩

/-! ### Sources that differ (R52) -/

section
variable {d : Dev} {g : Group} {c : Issue}

/-- Whether a source differs between two live lanes that are on. -/
def Differs (d : Dev) (g : Group) (c : Issue) (o : Opnd) : Prop :=
  ∃ k ∈ c.on, ∃ l ∈ c.on, g.isLive k = true ∧ g.isLive l = true ∧ opndWords d g c k o ≠ opndWords d g c l o

/-- A source differs between two live lanes where it differs from the leader's. -/
theorem differs_iff {l : Nat} {ls : List Nat} (h : c.on.filter g.isLive = l :: ls) (o : Opnd) :
    (ls.any fun k => decide (opndWords d g c k o ≠ opndWords d g c l o)) = true ↔ Differs d g c o := by
  have hmem : ∀ k, (k ∈ c.on ∧ g.isLive k = true) ↔ k = l ∨ k ∈ ls := fun k => by rw [← List.mem_filter, h, List.mem_cons]
  simp only [List.any_eq_true, decide_eq_true_eq]
  constructor
  · rintro ⟨k, hk, hne⟩
    obtain ⟨hk, hkl⟩ := (hmem k).2 (.inr hk)
    obtain ⟨hl, hll⟩ := (hmem l).2 (.inl rfl)
    exact ⟨k, hk, l, hl, hkl, hll, hne⟩
  · rintro ⟨k, hk, m, hm, hkl, hml, hne⟩
    by_contra hno
    have same : ∀ x, x ∈ c.on → g.isLive x = true → opndWords d g c x o = opndWords d g c l o := fun x hx hxl => by
      rcases (hmem x).1 ⟨hx, hxl⟩ with rfl | hx
      · rfl
      · exact not_not.1 fun e => hno ⟨x, hx, e⟩
    exact hne ((same k hk hkl).trans (same m hm hml).symm)

theorem nonuniformField_eq_none {os : List Opnd} : nonuniformField d g c os = none ↔ ∀ o ∈ os, ¬ Differs d g c o := by
  rw [nonuniformField]
  split
  · next h =>
    have hmem : ∀ k, ¬ (k ∈ c.on ∧ g.isLive k = true) := fun k => by rw [← List.mem_filter, h]; simp
    exact ⟨fun _ o _ ⟨k, hk, _, _, hkl, _⟩ => hmem k ⟨hk, hkl⟩, fun _ => rfl⟩
  · next h => simp only [lowestField_eq_none, List.filter_eq_nil_iff, differs_iff h]

theorem nonuniformField_eq_some {os : List Opnd} {f : Nat} (h : nonuniformField d g c os = some f) :
    (∃ o ∈ os, o.field = f ∧ Differs d g c o) ∧ ∀ o ∈ os, Differs d g c o → f ≤ o.field := by
  rw [nonuniformField] at h
  split at h
  · cases h
  · next hl =>
    obtain ⟨o, ho, hf⟩ := lowestField_mem h
    obtain ⟨ho, hd⟩ := List.mem_filter.1 ho
    exact ⟨⟨o, ho, hf, (differs_iff hl o).1 hd⟩, fun p hp hpd => lowestField_le h p (List.mem_filter.2 ⟨hp, (differs_iff hl p).2 hpd⟩)⟩

theorem opndWords_of (l : Nat) (o : Opnd) : (o.rd = false → opndWords d g c l o = []) ∧ (o.rd = true →
    (∀ len al, o.cls = .v len al → opndWords d g c l o = (countFrom o.n len).map fun n => (srcV d g c l n).toNat) ∧
    (o.cls = .m → opndWords d g c l o = [(cellGet (g.lane l).m o.n).toNat]) ∧
    (∀ neg, o.cls = .p neg → opndWords d g c l o = [((g.lane l).predF o.n).toNat])) := by
  refine ⟨fun h => ?_, fun h => ⟨fun len al e => ?_, fun e => ?_, fun neg e => ?_⟩⟩ <;> simp [opndWords, *]

/-! ### Sources and destinations that are not ready (R43) -/

theorem guardLate_iff (now : Nat) : guardLate g c now = true ↔
    c.on ≠ [] ∧ c.guard % 16 ≠ 15 ∧ ∃ l ∈ c.lanes, g.lateRead l (.p (c.guard % 16)) now = true := by
  simp [guardLate, and_assoc]

theorem shortField_eq_none {os : List Opnd} {now lat : Nat} {rl : Opnd → List Nat} {ls : List Nat} :
    shortField g os now lat rl ls = none ↔ ∀ o ∈ os,
      (o.rd = true → ∀ l ∈ rl o, ∀ dst ∈ g.opndDests l o, g.lateRead l dst now = false) ∧
      (o.wr = true → ∀ l ∈ ls, ∀ dst ∈ g.opndDests l o, g.lateWrite l dst (now + lat) = false) := by
  simp [shortField, lowestField_eq_none]

theorem shortField_mem {os : List Opnd} {now lat : Nat} {rl : Opnd → List Nat} {ls : List Nat} {f : Nat}
    (h : shortField g os now lat rl ls = some f) : ∃ o ∈ os, o.field = f := by
  obtain ⟨o, ho, hf⟩ := lowestField_mem h
  exact ⟨o, List.mem_of_mem_filter ho, hf⟩

end

/-! ### The checks in their order (R53) -/

section
variable {d : Dev} {g : Group} {la : Launch} {c : Issue} {i : Instr} {lat f : Nat}

theorem commonFault_of_fieldFault {r : Nat} (h : i.fieldFault = some (r, f)) :
    commonFault d g la c i lat = some { code := .illegalOperand, cause := checkCause (pcSlot c.loc) f r } := by
  simp [commonFault, operandFault, h]

theorem commonFault_of_extended (hf : i.fieldFault = none) (hx : d.holdsX g = false) (hc : c.fresh = true)
    (h : extendedField i.operands = some f) :
    commonFault d g la c i lat = some { code := .xregNotHeld, cause := checkCause (pcSlot c.loc) f 13 } := by
  simp [commonFault, operandFault, hf, hx, hc, h]

/-- The lock is there, or it is not asked for. -/
theorem extended_passes (h : d.holdsX g = true ∨ c.fresh = false ∨ extendedField i.operands = none) :
    (if d.holdsX g || !c.fresh then none else extendedField i.operands) = none := by
  rcases h with h | h | h <;> simp [h]

theorem commonFault_of_divReg (hf : i.fieldFault = none) (hx : d.holdsX g = true ∨ c.fresh = false ∨ extendedField i.operands = none)
    (h : divRegField la.divDepth i.operands = some f) :
    commonFault d g la c i lat = some { code := .divReg, cause := checkCause (pcSlot c.loc) f 13 } := by
  simp only [commonFault, operandFault, hf, extended_passes hx, h]

theorem commonFault_of_short (hf : i.fieldFault = none) (hx : d.holdsX g = true ∨ extendedField i.operands = none)
    (hd : divRegField la.divDepth i.operands = none) (hc : c.fresh = true) (hs : g.sbchk = true)
    (h : (if guardLate g c (d.now g) then some 0 else
      shortField g (i.operands.filter fun o => !latchedRun g c i o) (d.now g) lat (g.readLanes c i) c.on) = some f) :
    commonFault d g la c i lat = some { code := .stallShort, cause := checkCause (pcSlot c.loc) f 14 } := by
  unfold commonFault operandFault
  simp only [hf, extended_passes (hx.imp_right .inr), hd]
  simp [hs, hc, h]

theorem commonFault_of_nonuniform (hf : i.fieldFault = none) (hx : d.holdsX g = true ∨ extendedField i.operands = none)
    (hd : divRegField la.divDepth i.operands = none) (hc : c.fresh = true) (hs : g.sbchk = false) (hu : g.uchk = true)
    (h : nonuniformField d g c (i.operands.filter i.compares) = some f) :
    commonFault d g la c i lat = if i.uni = true then some { code := .nonuniform, cause := checkCause (pcSlot c.loc) f 15 } else none := by
  have hnil : nonuniformField d g c [] = none := nonuniformField_eq_none.2 (by simp)
  unfold commonFault operandFault
  simp only [hf, extended_passes (hx.imp_right .inr), hd]
  cases i.uni <;> simp [hs, hc, hu, h, hnil]

/-- Where neither the scoreboard nor uniformity is checked, a word passes where it passes the others. -/
theorem commonFault_eq_none (h : c.fresh = false ∨ g.sbchk = false ∧ g.uchk = false) : commonFault d g la c i lat = none ↔
    i.fieldFault = none ∧ (d.holdsX g = true ∨ c.fresh = false ∨ extendedField i.operands = none) ∧ divRegField la.divDepth i.operands = none := by
  have hs : (g.sbchk && c.fresh) = false := by rcases h with h | h <;> simp [h]
  have hu : (g.uchk && c.fresh) = false := by rcases h with h | h <;> simp [h]
  unfold commonFault operandFault
  cases hf : i.fieldFault with
  | some v => simp
  | none =>
    by_cases hx : d.holdsX g = true ∨ c.fresh = false ∨ extendedField i.operands = none
    · simp only [extended_passes hx, hx, true_and]
      cases divRegField la.divDepth i.operands <;> simp [hs, hu]
    · obtain ⟨h1, h2, h3⟩ : d.holdsX g = false ∧ c.fresh = true ∧ extendedField i.operands ≠ none := by simpa using hx
      obtain ⟨f, hf⟩ := Option.ne_none_iff_exists'.1 h3
      simp [h1, h2, hf]

/-- A cause that a value gives stands against the lowest one of the fields. -/
theorem valuedFault_cause (field : Nat) : valuedFault d g la c i [(12, field)] = some { code := .illegalOperand, cause :=
    match i.fieldFault with
    | some (r, f) => if r < 12 ∨ (r = 12 ∧ f < field) then checkCause (pcSlot c.loc) f r else checkCause (pcSlot c.loc) field 12
    | none => checkCause (pcSlot c.loc) field 12 } := by
  simp only [valuedFault, lowestCause, operandFault]
  cases i.fieldFault with
  | none => rfl
  | some v =>
    obtain ⟨r, f⟩ := v
    by_cases h : r < 12 ∨ r = 12 ∧ f < field
    · have h' : ¬ (12 < r ∨ 12 = r ∧ field ≤ f) := by omega
      simp [lowestCause, h, h']
    · have h' : 12 < r ∨ 12 = r ∧ field ≤ f := by omega
      simp [lowestCause, h, h']

theorem checkCause_eq {slot f r : Nat} (hs : slot < 3) (hf : f < 4) (hr : r < 16) : checkCause slot f r = slot + 4 * f + 16 * r := by
  rw [checkCause, Nat.mod_eq_of_lt (by omega), Nat.mod_eq_of_lt hf, Nat.mod_eq_of_lt hr]
  omega

end

/-! ### Every word is its checks and its body -/

/-- A word is one with no causes from values. -/
theorem word_eq_wordWith (i : Instr) (body : Issue → Group → Launch → Part) (s : State) :
    word i body s = wordWith i (fun _ _ _ _ => []) body s := rfl

/-- Whether a word is executed as its checks, with the causes that its values give, and then its body (R53). -/
def Checked (i : Instr) : Prop :=
  ∃ vals body, (checksValues i = false → vals = fun _ _ _ _ => []) ∧ ∀ s, exec i s = commit s (wordWith i vals body s)

theorem Checked.word {i : Instr} {body : Issue → Group → Launch → Part} (h : ∀ s, exec i s = commit s (word i body s)) : Checked i :=
  ⟨fun _ _ _ _ => [], body, fun _ => rfl, h⟩

theorem Checked.valued {i : Instr} {vals : State → Issue → Group → Launch → List (Nat × Nat)} {body : Issue → Group → Launch → Part}
    (hv : checksValues i = true) (h : ∀ s, exec i s = commit s (wordWith i vals body s)) : Checked i :=
  ⟨vals, body, fun e => by simp [hv] at e, h⟩

theorem checked_of_valued {i : Instr} (hv : checksValues i = true) : Checked i := by
  cases i <;> cases hv <;> exact .valued rfl fun _ => rfl

theorem checked_of_word {i : Instr} (hw : i.isWord = true) (hi : checksItself i = false) (hv : checksValues i = false) : Checked i := by
  cases i <;> cases hw <;> cases hi <;> cases hv <;> exact .word fun _ => rfl

theorem checked {i : Instr} (hw : i.isWord = true) (hi : checksItself i = false) : Checked i := by
  cases hv : checksValues i with
  | true => exact checked_of_valued hv
  | false => exact checked_of_word hw hi hv

/-- Whether no batch issues, or its group or launch is gone. -/
def NoBatch (s : State) : Prop := s.dev.cur = none ∨ ∃ c, s.dev.cur = some c ∧ (s.dev.group? c.g = none ∨ s.dev.launch? c.g.launch = none)

section
variable {s : State} {i : Instr}

theorem wordWith_noBatch (h : NoBatch s) (vals : State → Issue → Group → Launch → List (Nat × Nat)) (body : Issue → Group → Launch → Part) :
    wordWith i vals body s = [] := by
  rcases h with h | ⟨c, h, hg | hl⟩
  · simp [wordWith, h]
  · simp [wordWith, h, hg]
  · simp only [wordWith, h, hl]
    split <;> simp_all

theorem checkedWord_noBatch (h : NoBatch s) (check : State → Issue → Group → Launch → Option FaultInfo) (body : Issue → Group → Launch → Part) :
    checkedWord check body s = [] := by
  rcases h with h | ⟨c, h, hg | hl⟩
  · simp [checkedWord, h]
  · simp [checkedWord, h, hg]
  · simp only [checkedWord, h, hl]
    split <;> simp_all

theorem raise_noBatch {c : Issue} (h : s.dev.group? c.g = none ∨ s.dev.launch? c.g.launch = none) (f : FaultInfo) : raise c f s = [] := by
  rw [raise, takeFault]
  rcases h with h | h <;> split <;> simp_all

theorem exec_noBatch (hw : i.isWord = true) (h : NoBatch s) : exec i s = .next s := by
  cases hi : checksItself i with
  | false =>
    obtain ⟨vals, body, -, he⟩ := checked hw hi
    rw [he, wordWith_noBatch h]
    rfl
  | true =>
    cases i <;> cases hi
    case true.brk.refl k =>
      show execBrk k s = _
      rw [execBrk]
      split
      · next c hc =>
        obtain ⟨hc, -⟩ := Option.filter_eq_some_iff.1 hc
        rw [raise_noBatch (by simpa [NoBatch, hc] using h)]
        rfl
      · exact congrArg (commit s) ((word_eq_wordWith _ _ s).trans (wordWith_noBatch h _ _))
    case true.mxDrain.refl d a t =>
      exact congrArg (commit s) (checkedWord_noBatch h _ _)

end

end Sys2Proof.Machine
end

