-- ==== Sys2Proof/Proofs/Faults.lean ====
section
/-!
PROOF. Taking a fault (R49, R53, R181 to R183, R382): what it leaves, the job's records, and the bytes of a record (R182).
-/

namespace Sys2Proof.Machine

-- One lemma after another, within the memory of the check.
set_option Elab.async false

/-! ### Bytes of a number -/

@[simp] theorem length_leBytes (k n : Nat) : (leBytes k n).length = k := by
  induction k generalizing n with
  | zero => rfl
  | succ k ih => simp [leBytes, ih]

@[simp] theorem leNat_leBytes (k n : Nat) : leNat (leBytes k n) = n % 256 ^ k := by
  induction k generalizing n with
  | zero => simp [leBytes, leNat, Nat.mod_one]
  | succ k ih => rw [leBytes, leNat, ih, BitVec.toNat_ofNat, show 2 ^ 8 = 256 from rfl, Nat.pow_succ', Nat.mod_mul]

/-- What stands behind a number's bytes. -/
@[simp] theorem drop_leBytes_append {k m n : Nat} {bs : List Byte} (h : k ≤ m) : (leBytes k n ++ bs).drop m = bs.drop (m - k) := by
  rw [List.drop_append, length_leBytes, List.drop_eq_nil_of_le (by simpa using h), List.nil_append]

@[simp] theorem take_leBytes_append (k n : Nat) (bs : List Byte) : (leBytes k n ++ bs).take k = leBytes k n :=
  List.take_left' (length_leBytes k n)

@[simp] theorem take_leBytes (k n : Nat) : (leBytes k n).take k = leBytes k n := List.take_of_length_le (by simp)

/-! ### What a trace record leaves -/

/-- Bytes stored in the host's memory change nothing else. -/
theorem State.run_storeBytes_host (s : State) (a : Nat) (bs : List Byte) : ∃ h, s.run (storeBytes .host a bs) = { s with host := h } := by
  induction bs generalizing s a with
  | nil => exact ⟨s.host, rfl⟩
  | cons b bs ih =>
    obtain ⟨h, e⟩ := ih (s.act (.store .host a b)) (a + 1)
    exact ⟨h, e⟩

theorem State.run_stores (s : State) (r : Ring) (k : Nat) (us : List (List Byte)) : ∃ h, s.run (r.stores k us) = { s with host := h } := by
  induction us generalizing s k with
  | nil => exact ⟨s.host, rfl⟩
  | cons u us ih =>
    obtain ⟨h, e⟩ := s.run_storeBytes_host (r.base.toNat + 16 * ((r.prod + k) % r.size)) u
    obtain ⟨h', e'⟩ := ih { s with host := h } (k + 1)
    exact ⟨h', by rw [Ring.stores, State.run_append, e, e']⟩

/-- An entry of a ring, where it is written, and then other records. -/
theorem State.run_entry (s : State) {c : Prop} {dec : Decidable c} (r : Ring) (us : List (List Byte)) (d : Dev) :
    ∃ h, s.run ((if c then r.stores 0 us else []) ++ [.dev d]) = { s with host := h, dev := d } := by
  rw [State.run_append]
  split
  · obtain ⟨h, e⟩ := s.run_stores r 0 us
    exact ⟨h, by rw [e]; rfl⟩
  · exact ⟨s.host, rfl⟩

/-- A trace record goes to the host's memory, and changes of a job its trace ring alone (R377 to R380). -/
theorem State.did_traceRec (s : State) (job die type a0 a1 : Nat) : ∃ h d, s.did (traceRec job die type a0 a1) = { s with host := h, dev := d } ∧
    (d = s.dev ∨ ∃ j trc dies, s.dev.job? job = some j ∧ d = s.dev.setJob { j with trc := trc, dies := dies }) := by
  unfold State.did traceRec
  split
  · exact ⟨s.host, s.dev, rfl, .inl rfl⟩
  · next j hj =>
    split
    · exact ⟨s.host, s.dev, rfl, .inl rfl⟩
    · obtain ⟨h, e⟩ := s.run_entry j.trc _ _
      exact ⟨h, _, e, .inr ⟨j, _, _, hj, rfl⟩⟩

/-! ### What a fault leaves -/

/-- Whether a fault stops its group for the debugger of its job (R181, R382). -/
def FaultInfo.stops (f : FaultInfo) (d : Dev) (j : Job) : Bool := f.code.forDebugger && d.debugged j.id

/-- The job of a group that takes a fault: the record is queued, and the job ends or its debugger is told (R183, R382). -/
def Job.faulted (j : Job) (d : Dev) (g : Group) (l : Launch) (loc : Pc) (precise : Bool) (f : FaultInfo) : Job :=
  let r := faultRecord d g l loc f (!f.stops d j) precise
  let second := secondRecord d g l loc f precise
  if f.stops d j then j.report (r.with_ second) else (j.queue r second).endBy f.code.num d.time

/-- The group: its lanes are back at the word, and it halts. -/
def Group.faulted (g : Group) (ls : List Nat) (loc : Pc) (stop : Bool) : Group :=
  { g.backTo ls loc with run := if stop then .stopped else .faulted }

theorem Dev.setJob_found {d : Dev} {i : Nat} {j : Job} (h : d.job? i = some j) : d.setJob j = d := by
  unfold Dev.setJob
  rw [upsert_found _ _ _ (by rw [Dev.job?_id h]; exact h)]

theorem Dev.setJob_setJob (d : Dev) (i j : Job) (h : i.id = j.id) : (d.setJob i).setJob j = d.setJob j := by
  unfold Dev.setJob
  rw [h]
  simp only [Dev.mk.injEq, true_and, and_true]
  exact upsert_upsert _ _ _ _ (by simp [h])

section
variable {s : State} {k : GKey} {ls : List Nat} {loc : Pc} {precise : Bool} {f : FaultInfo} {g : Group} {la : Launch} {j : Job}

theorem Job.queue_keeps (j : Job) (r : FaultRec) (bs : List Byte) :
    (j.queue r bs).id = j.id ∧ (j.queue r bs).ending = j.ending ∧ (j.queue r bs).code = j.code := by
  simp only [Job.queue]
  split_ifs <;> exact ⟨rfl, rfl, rfl⟩
theorem Job.endBy_id (j : Job) (c n : Nat) : (j.endBy c n).id = j.id := by unfold Job.endBy; split <;> rfl
theorem Job.report_id (j : Job) (r : FaultRec) : (j.report r).id = j.id := by unfold Job.report; split <;> rfl

theorem Job.faulted_id (j : Job) (d : Dev) (g : Group) (l : Launch) (loc : Pc) (precise : Bool) (f : FaultInfo) :
    (j.faulted d g l loc precise f).id = j.id := by
  unfold Job.faulted
  dsimp only
  split
  · exact Job.report_id _ _
  · rw [Job.endBy_id, (Job.queue_keeps ..).1]

/-- The whole of taking a fault (R181 to R183): the job, the group, and a trace record. -/
theorem did_takeFault (hg : s.dev.group? k = some g) (hl : s.dev.launch? k.launch = some la) (hj : s.dev.job? la.job = some j) :
    ∃ h trc dies, s.did (takeFault k ls loc precise f) = { s with
      host := h
      dev := ((s.dev.setJob { j.faulted s.dev g la loc precise f with trc := trc, dies := dies }).setGroup (g.faulted ls loc (f.stops s.dev j))) } := by
  have hid : (j.faulted s.dev g la loc precise f).id = la.job := (Job.faulted_id ..).trans (Dev.job?_id hj)
  let t : State := { s with dev := (s.dev.setJob (j.faulted s.dev g la loc precise f)).setGroup (g.faulted ls loc (f.stops s.dev j)) }
  obtain ⟨h, d, e, hd⟩ := t.did_traceRec la.job (match g.place with | some p => p.die | none => 0) 5 f.code.num la.id.toNat
  have ht : s.did (takeFault k ls loc precise f) =
      t.did (traceRec la.job (match g.place with | some p => p.die | none => 0) 5 f.code.num la.id.toNat) := by
    unfold State.did takeFault
    simp only [hg, hl, hj, Part.andThen]
    rw [State.run_append]
    rfl
  rw [ht, e]
  rcases hd with rfl | ⟨i, trc, dies, hi, rfl⟩
  · exact ⟨h, _, _, rfl⟩
  · obtain rfl : j.faulted s.dev g la loc precise f = i := by
      rw [Dev.job?_setGroup, Dev.job?_setJob_of hid] at hi
      exact Option.some.inj hi
    refine ⟨h, trc, dies, ?_⟩
    rw [← Dev.setJob_setJob s.dev (j.faulted s.dev g la loc precise f) { j.faulted s.dev g la loc precise f with trc := trc, dies := dies } rfl]
    rfl

theorem Job.queue_records {r : FaultRec} {bs : List Byte} (hd : j.deleted = false) (hm : j.recordsMade + 2 ≤ 16) :
    (j.queue r bs).records = j.records ++ [r.with_ bs] := by
  have h1 : ¬ 16 - j.recordsMade < 2 := by omega
  have h2 : ¬ 16 - j.recordsMade = 0 := by omega
  simp [Job.queue, hd, h1, h2]

theorem FaultRec.with_nil (r : FaultRec) : r.with_ [] = r := by simp [FaultRec.with_]

theorem Job.queue_last {r : FaultRec} {bs : List Byte} (hd : j.deleted = false) (hm : j.recordsMade + 1 = 16) :
    (j.queue r bs).records = j.records ++ [r] := by
  have h1 : 16 - j.recordsMade = 1 := by omega
  simp [Job.queue, hd, h1, FaultRec.with_nil]

theorem Job.queue_full {r : FaultRec} {bs : List Byte} (h : j.deleted = true ∨ 16 ≤ j.recordsMade) : j.queue r bs = j := by
  have h0 : (if j.deleted then 0 else 16 - j.recordsMade) = 0 := by
    rcases h with h | h
    · simp [h]
    · split <;> omega
  simp only [Job.queue, h0, if_true]

theorem Job.deleted_of_ending (h : j.ending = none) : j.deleted = false := by simp [Job.deleted, h]

theorem Job.report_ending (j : Job) (r : FaultRec) : (j.report r).ending = j.ending := by unfold Job.report; split <;> rfl
theorem Job.report_records {r : FaultRec} (h : j.deleted = false) : (j.report r).records = j.records ++ [r] := by simp [Job.report, h]

theorem Job.endBy_none (h : j.ending = none) (code now : Nat) :
    (j.endBy code now).ending = some now ∧ (j.endBy code now).code = code ∧ (j.endBy code now).records = j.records := by
  simp [Job.endBy, h]

theorem Job.endBy_some {code now : Nat} (h : j.ending ≠ none) : j.endBy code now = j := by
  unfold Job.endBy
  split
  · rfl
  · exact absurd ‹_› h

theorem Job.faulted_of_stops {d : Dev} (h : f.stops d j = true) : j.faulted d g la loc precise f =
    j.report ((faultRecord d g la loc f false precise).with_ (secondRecord d g la loc f precise)) := by simp [Job.faulted, h]

theorem Job.faulted_of_ends {d : Dev} (h : f.stops d j = false) : j.faulted d g la loc precise f =
    (j.queue (faultRecord d g la loc f true precise) (secondRecord d g la loc f precise)).endBy f.code.num d.time := by simp [Job.faulted, h]

/-- The lanes of a batch that goes back to its word: only the program counter changes. -/
theorem Group.backTo_lane (g : Group) (ls : List Nat) (loc : Pc) (m : Nat) : ∃ pc, (g.backTo ls loc).lane m = { g.lane m with pc := pc } := by
  unfold Group.backTo
  induction ls generalizing g with
  | nil => exact ⟨_, rfl⟩
  | cons l ls ih =>
    obtain ⟨pc, e⟩ := ih (g.modLane l fun x => { x with pc := loc })
    refine ⟨pc, e.trans ?_⟩
    rw [Group.lane_modLane]
    split
    · obtain ⟨rfl, -⟩ := ‹m = l ∧ _›
      rfl
    · rfl

theorem Group.backTo_pc {m : Nat} (hm : m ∈ ls) (hl : m < g.lanes.length) : ((g.backTo ls loc).lane m).pc = loc := by
  unfold Group.backTo
  induction ls generalizing g with
  | nil => simp at hm
  | cons l ls ih =>
    by_cases h : m ∈ ls
    · exact ih (g := g.modLane l fun x => { x with pc := loc }) h (by simpa using hl)
    · obtain rfl : m = l := by simpa [h] using hm
      show ((((g.modLane m fun x => { x with pc := loc }).modLanes ls fun _ x => { x with pc := loc }).lane m).pc = loc)
      rw [Group.modLanes_lane_ne _ _ _ _ h, Group.lane_modLane, if_pos ⟨rfl, hl⟩]

/-- R49, R53, R181 to R183, R382: what a fault of a group leaves. -/
theorem takeFault_leaves (hg : s.dev.group? k = some g) (hl : s.dev.launch? k.launch = some la) (hj : s.dev.job? la.job = some j) :
    let t := s.did (takeFault k ls loc precise f)
    let stop := f.code.forDebugger && s.dev.debugged j.id
    t.pad = s.pad ∧ t.main = s.main ∧ t.blk = s.blk ∧ t.stk = s.stk ∧ t.dev.launches = s.dev.launches ∧ t.dev.blocks = s.dev.blocks ∧
    (∃ h, t.dev.group? k = some h ∧ h.run = (if stop then .stopped else .faulted) ∧ h.gsr = g.gsr ∧ h.q = g.q ∧ h.pend = g.pend ∧ h.acc = g.acc ∧
      (∀ m ∈ ls, m < g.lanes.length → (h.lane m).pc = loc) ∧ (∀ m, m ∉ ls → h.lane m = g.lane m) ∧
      ∀ m, (h.lane m).v = (g.lane m).v ∧ (h.lane m).m = (g.lane m).m ∧ (h.lane m).pw = (g.lane m).pw ∧ (h.lane m).ssp = (g.lane m).ssp) ∧
    (∀ x, x ≠ k → t.dev.group? x = s.dev.group? x) ∧
    ∃ x, t.dev.job? la.job = some x ∧
      (stop = true → x.ending = j.ending ∧ (j.deleted = false →
        x.records = j.records ++ [(faultRecord s.dev g la loc f false precise).with_ (secondRecord s.dev g la loc f precise)])) ∧
      (stop = false → j.ending = none → x.ending = some s.dev.time ∧ x.code = f.code.num ∧ (j.recordsMade + 2 ≤ 16 →
        x.records = j.records ++ [(faultRecord s.dev g la loc f true precise).with_ (secondRecord s.dev g la loc f precise)])) ∧
      (stop = false → j.ending ≠ none → x.ending = j.ending ∧ x.code = j.code) := by
  obtain ⟨h, trc, dies, e⟩ := did_takeFault (ls := ls) (loc := loc) (precise := precise) (f := f) hg hl hj
  have hk := Dev.group?_key hg
  have hgk : (g.faulted ls loc (f.stops s.dev j)).key = k := by rw [Group.faulted, Group.backTo, Group.modLanes_rest]; exact hk
  have hid : (j.faulted s.dev g la loc precise f).id = la.job := (Job.faulted_id ..).trans (Dev.job?_id hj)
  rw [e]
  intro t stop
  refine ⟨rfl, rfl, rfl, rfl, rfl, rfl, ⟨_, Dev.group?_setGroup_of hgk, rfl, ?_, ?_, ?_, ?_, fun m hm hlt => Group.backTo_pc hm hlt,
    fun m hm => Group.modLanes_lane_ne _ _ _ _ hm, fun m => ?_⟩, fun x hx => ?_, ⟨_, Dev.job?_setJob_of hid, fun hs => ?_, fun hs he => ?_, fun hs he => ?_⟩⟩
  iterate 4
    · rw [Group.faulted, Group.backTo, Group.modLanes_rest]
  · obtain ⟨pc, e⟩ := g.backTo_lane ls loc m
    show ((g.backTo ls loc).lane m).v = _ ∧ ((g.backTo ls loc).lane m).m = _ ∧ ((g.backTo ls loc).lane m).pw = _ ∧ ((g.backTo ls loc).lane m).ssp = _
    rw [e]
    exact ⟨rfl, rfl, rfl, rfl⟩
  · exact Dev.group?_setGroup_ne _ _ _ (by rw [hgk]; exact hx)
  · rw [Job.faulted_of_stops hs]
    exact ⟨Job.report_ending _ _, Job.report_records⟩
  · obtain ⟨-, hq, -⟩ := j.queue_keeps (faultRecord s.dev g la loc f true precise) (secondRecord s.dev g la loc f precise)
    rw [Job.faulted_of_ends hs]
    obtain ⟨h1, h2, h3⟩ := Job.endBy_none (hq.trans he) f.code.num s.dev.time
    exact ⟨h1, h2, fun hm => h3.trans (Job.queue_records (Job.deleted_of_ending he) hm)⟩
  · obtain ⟨-, hq, hc⟩ := j.queue_keeps (faultRecord s.dev g la loc f true precise) (secondRecord s.dev g la loc f precise)
    rw [Job.faulted_of_ends hs]
    rw [← hq] at he
    show (Job.endBy _ _ _).ending = _ ∧ (Job.endBy _ _ _).code = _
    rw [Job.endBy_some he]
    exact ⟨hq, hc⟩

end

/-! ### The bytes of a record (R182) -/

section
variable (d : Dev) (g : Group) (la : Launch) (loc : Pc) (f : FaultInfo) (first precise : Bool) (block group : Nat)

theorem length_faultBytes : (faultBytes d g la loc f first precise block group).length = 64 := by
  simp [faultBytes, rawRecord]

/-- The fields of a fault record, each where R182 places it. -/
theorem faultBytes_fields :
    let bs := faultBytes d g la loc f first precise block group
    leNat (bs.take 1) = f.code.num % 2 ^ 8 ∧
    leNat ((bs.drop 1).take 1) = (if precise then 1 else 0) + (if first then 4 else 0) + (if f.extra = [] then 0 else 8) ∧
    leNat ((bs.drop 4).take 4) = la.job % 2 ^ 32 ∧ leNat ((bs.drop 8).take 8) = la.id.toNat ∧ leNat ((bs.drop 16).take 4) = block % 2 ^ 32 ∧
    leNat ((bs.drop 20).take 1) = group % 2 ^ 8 ∧ leNat ((bs.drop 32).take 8) = loc.toNat ∧ leNat ((bs.drop 40).take 8) = f.faddr % 2 ^ 64 ∧
    leNat ((bs.drop 48).take 4) = f.cause % 2 ^ 32 ∧ leNat ((bs.drop 52).take 4) = f.aux % 2 ^ 32 ∧
    leNat ((bs.drop 56).take 8) = d.timeFor la.job d.time % 2 ^ 64 := by
  have hl := la.id.isLt
  have hp := loc.isLt
  simp [faultBytes, rawRecord, List.append_assoc]
  refine ⟨?_, hl, by omega⟩
  cases precise <;> cases first <;> split <;> rfl

end

theorem secondRecord_fields (d : Dev) (g : Group) (la : Launch) (loc : Pc) (f : FaultInfo) (precise : Bool) :
    (f.second = none → secondRecord d g la loc f precise = []) ∧ ∀ b n, f.second = some (b, n) →
      let bs := secondRecord d g la loc f precise
      bs.length = 64 ∧ leNat (bs.take 1) = f.code.num % 2 ^ 8 ∧ leNat ((bs.drop 8).take 8) = la.id.toNat ∧ leNat ((bs.drop 16).take 4) = b % 2 ^ 32 ∧
        leNat ((bs.drop 20).take 1) = n % 2 ^ 8 ∧ leNat ((bs.drop 40).take 8) = f.faddr % 2 ^ 64 ∧
        leNat ((bs.drop 52).take 4) = f.aux % 2 ^ 32 := by
  refine ⟨fun h => by rw [secondRecord, h], fun b n h => ?_⟩
  have e : secondRecord d g la loc f precise = faultBytes d g la loc f false precise b n := by rw [secondRecord, h]
  obtain ⟨hcode, -, -, hid, hblock, hgroup, -, hfaddr, -, haux, -⟩ := faultBytes_fields d g la loc f false precise b n
  rw [e]
  exact ⟨length_faultBytes .., hcode, hid, hblock, hgroup, hfaddr, haux⟩

/-! ### The statement -/

section
variable {s : State} {c : Issue} {g : Group} {la : Launch}

/-- A word that breaks a check of its own, or one that all words share, takes that fault. -/
theorem checkedWord_faults {check : State → Issue → Group → Launch → Option FaultInfo} {f : FaultInfo} (hc : s.dev.cur = some c)
    (hg : s.dev.group? c.g = some g) (hl : s.dev.launch? c.g.launch = some la) (hf : check s c g la = some f)
    (body : Issue → Group → Launch → Part) : commit s (checkedWord check body s) = .next (s.faults c f) := by
  simp only [checkedWord, hc, hg, hl, hf]
  rfl

/-- R53, R94: a `brk` whose stop bit is clear is no word. -/
theorem exec_brk_unstopped (k : BitVec 17) (hc : s.dev.cur = some c) (hs : c.stop = false) :
    exec (.brk k) s = .next (s.faults c { code := .illegalOpcode, cause := checkCause (pcSlot c.loc) 0 4 }) := by
  show execBrk k s = _
  simp only [execBrk, brkUnstopped, hc, Option.filter_some, hs]
  rfl

theorem exec_brk_faults (k : BitVec 17) (hc : s.dev.cur = some c) (hg : s.dev.group? c.g = some g) (hl : s.dev.launch? c.g.launch = some la)
    (hs : c.stop = true) {f : FaultInfo} (hf : commonFault s.dev g la c (.brk k) (Instr.latency (.brk k)) = some f) :
    exec (.brk k) s = .next (s.faults c f) := by
  show execBrk k s = _
  simp only [execBrk, brkUnstopped, hc, Option.filter_some, hs, Bool.not_true, Bool.false_eq_true, if_false]
  rw [word_eq_wordWith]
  exact wordWith_faults hc hg hl (vals := fun _ _ _ _ => []) hf _

end

/-- Settles O55: every word is its checks and then its body (`checked`), and a fault is `did_takeFault`. -/
theorem checksAndFaults : Obligations.ChecksAndFaults := by
  unfold Obligations.ChecksAndFaults
  have faults : ∀ i : Instr, i.isWord = true → checksItself i = false → ∃ vals : State → Issue → Group → Launch → List (Nat × Nat),
      (checksValues i = false → vals = fun _ _ _ _ => []) ∧ ∀ s c g la f, s.dev.cur = some c → s.dev.group? c.g = some g →
        s.dev.launch? c.g.launch = some la → valuedFault s.dev g la c i (vals s c g la) = some f → exec i s = .next (s.faults c f) := by
    intro i hw hi
    obtain ⟨vals, body, hvals, he⟩ := checked hw hi
    exact ⟨vals, hvals, fun s c g la f hc hg hl hf => by rw [he, wordWith_faults hc hg hl hf]⟩
  refine ⟨⟨faults, fun i hw => (roundTrips_of_isWord hw).2.1, fun i => ?_, ?_, fun d g c os => ⟨nonuniformField_eq_none, fun f => nonuniformField_eq_some⟩,
    fun d g c l o => opndWords_of l o, fun s c g la k hc hg hl => ⟨exec_brk_unstopped k hc, fun hs f => exec_brk_faults k hc hg hl hs⟩,
    fun s c g la d a t f hc hg hl hf => checkedWord_faults hc hg hl hf _, fun _ _ _ _ _ => rfl, fun d g la c i => valuedFault_cause,
    fun i s hw h => exec_noBatch hw h, fun d g la c i lat r f => commonFault_of_fieldFault, fun d g la c i lat f => commonFault_of_extended,
    fun d g la c i lat f => commonFault_of_divReg, fun d g la c i lat f => commonFault_of_short, fun g c now => guardLate_iff now,
    fun g os now lat rl ls => ⟨shortField_eq_none, fun f => shortField_mem⟩, fun g l o neg he hn => by simp [Group.opndDests, he, hn],
    fun d g la c i lat f => commonFault_of_nonuniform, fun d g la c i lat => commonFault_eq_none, fun slot f r => checkCause_eq⟩,
    fun s k ls loc precise f g la j => takeFault_leaves, fun j r bs => Job.queue_records, fun j r bs => Job.queue_last, fun j r bs => Job.queue_full,
    fun r bs => ⟨rfl, rfl, rfl⟩, fun d g la loc f precise => secondRecord_fields d g la loc f precise, fun d g la loc f ends precise => ?_⟩
  · unfold Instr.uni
    rw [Bool.or_eq_true]
    exact or_congr Iff.rfl (by cases i <;> simp)
  · intro i s c g la f hw hu hi hv hc hg hl hf hx hd hfr hs huc hn
    obtain ⟨vals, hvals, h⟩ := faults i hw hi
    refine h s c g la _ hc hg hl ?_
    rw [hvals hv]
    exact (commonFault_of_nonuniform hf hx hd hfr hs huc hn).trans (if_pos hu)
  · exact ⟨rfl, _, rfl, length_faultBytes .., faultBytes_fields ..⟩

end Sys2Proof.Machine
end

