-- ==== Sys2Proof/Proofs/Debugger.lean ====
section
/-!
PROOF. The debugger's requests (R54, R382, R384): which group a request names, and what each request does to it and to its blocks.
-/

namespace Sys2Proof.Machine

-- One lemma after another, within the memory of the check.
set_option Elab.async false

/-! ### Counting -/

theorem countFrom_eq_range' (k n : Nat) : countFrom k n = List.range' k n := by
  induction n generalizing k with
  | zero => rfl
  | succ n ih => rw [countFrom, ih, List.range'_succ]

@[simp] theorem mem_countFrom {i k n : Nat} : i ∈ countFrom k n ↔ k ≤ i ∧ i < k + n := by
  rw [countFrom_eq_range', List.mem_range'_1]

theorem nodup_countFrom (k n : Nat) : (countFrom k n).Nodup := by
  rw [countFrom_eq_range']; exact List.nodup_range'

section
variable {d : Dev} {g : Group} {l : Launch} {n : Nat}

/-! ### The group that a request names -/

theorem Dev.mem_dumpGroups {job : Nat} : (g, l) ∈ d.dumpGroups job ↔
    g ∈ d.groups ∧ d.launch? g.key.launch = some l ∧ l.job = job ∧ g.run ≠ .ended := by
  simp only [Dev.dumpGroups, List.mem_filterMap]
  constructor
  · rintro ⟨h, hm, e⟩
    split at e
    next m hl =>
      split at e
      next hc => cases e; exact ⟨hm, hl, hc⟩
      · cases e
    · cases e
  · rintro ⟨hm, hl, hc⟩
    exact ⟨g, hm, by simp [hl, hc]⟩

theorem dbgJob_toNat (d : Dev) : d.regs.dbgJob.toNat = 0 ↔ d.regs.dbgJob = 0 := BitVec.toNat_eq (y := 0).symm

theorem Dev.identGroup_zero (h : d.regs.dbgJob = 0) : d.identGroup n = none := by simp [Dev.identGroup, h]

theorem Dev.identGroup_some (h : d.identGroup n = some (g, l)) : g ∈ d.groups ∧ d.launch? g.key.launch = some l ∧
    l.job = d.regs.dbgJob.toNat ∧ g.run ≠ .ended ∧ g.place ≠ none ∧ identOf g = n := by
  unfold Dev.identGroup at h
  split at h
  · cases h
  · have hp := List.find?_some h
    obtain ⟨hm, hl, hj, hr⟩ := Dev.mem_dumpGroups.mp (List.mem_of_find?_eq_some h)
    simp only [Bool.and_eq_true, decide_eq_true_eq] at hp
    exact ⟨hm, hl, hj, hr, Option.isSome_iff_ne_none.mp hp.1, hp.2⟩

/-- Whether RES with an IDENT names a group. -/
def Dev.resNames (d : Dev) (n : Nat) (g : Group) : Prop := g.place ≠ none ∧ identOf g = n ∧ g.run = .stopped ∧
  (d.jobFor g.key = d.regs.dbgJob.toNat ∨ ∃ pc, g.trap = some (d.regs.dbgJob.toNat, pc))

theorem Dev.resNames_iff (d : Dev) (n : Nat) (g : Group) : d.resNames n g ↔
    (g.place.isSome && decide (identOf g = n) && decide (g.run = .stopped) &&
    (decide (d.jobFor g.key = d.regs.dbgJob.toNat) || decide (g.trap.map Prod.fst = some d.regs.dbgJob.toNat))) = true := by
  simp [Dev.resNames, Option.isSome_iff_ne_none, and_assoc]

theorem Dev.resGroup_some (h : d.resGroup n = some g) : g ∈ d.groups ∧ d.regs.dbgJob ≠ 0 ∧ d.resNames n g := by
  unfold Dev.resGroup at h
  dsimp only at h
  split at h
  · cases h
  next h0 =>
    refine ⟨List.mem_of_find?_eq_some h, fun e => h0 (by simp [e]), (d.resNames_iff n g).mpr ?_⟩
    simpa using List.find?_some h

theorem Dev.resGroup_none (h : (∀ g ∈ d.groups, ¬ d.resNames n g) ∨ d.regs.dbgJob = 0) : d.resGroup n = none := by
  cases e : d.resGroup n with
  | none => rfl
  | some g =>
    obtain ⟨hm, h0, hn⟩ := Dev.resGroup_some e
    exact (h.elim (fun h => h g hm hn) h0).elim

/-! ### A stopped group goes on -/

/-- The lanes that stand at a `brk` word move past it. -/
def Group.overBrk (g : Group) (pc : Pc) : Group :=
  g.modLanes g.laneNos fun _ x => if x.pc = pc ∧ x.hold.isNone ∧ x.mode ≠ LaneMode.free then { x with pc := pcNext pc } else x

theorem Group.overBrk_rest (g : Group) (pc : Pc) : g.overBrk pc = { g with lanes := (g.overBrk pc).lanes } := Group.modLanes_rest _ _ _
theorem Group.overBrk_length (g : Group) (pc : Pc) : (g.overBrk pc).lanes.length = g.lanes.length := Group.modLanes_length _ _ _

theorem Group.overBrk_lane {m : Nat} (pc : Pc) (hm : m < g.lanes.length) : (g.overBrk pc).lane m =
    if (g.lane m).pc = pc ∧ (g.lane m).hold.isNone ∧ (g.lane m).mode ≠ .free then { g.lane m with pc := pcNext pc } else g.lane m :=
  Group.modLanes_lane _ _ _ _ (by simp [Group.laneNos, hm]) (nodup_countFrom _ _) hm

theorem Group.overBrk_lane_beyond {m : Nat} (pc : Pc) (hm : ¬ m < g.lanes.length) : (g.overBrk pc).lane m = g.lane m :=
  Group.modLanes_lane_ne _ _ _ _ (by simpa [Group.laneNos] using hm)

theorem Group.overBrk_lane_keeps (g : Group) (pc : Pc) (m : Nat) :
    ((g.overBrk pc).lane m).v = (g.lane m).v ∧ ((g.overBrk pc).lane m).mode = (g.lane m).mode := by
  by_cases hm : m < g.lanes.length
  · rw [Group.overBrk_lane pc hm]
    split <;> exact ⟨rfl, rfl⟩
  · rw [Group.overBrk_lane_beyond pc hm]
    exact ⟨rfl, rfl⟩

/-- A group past the `brk` word that stopped it, where one did. -/
def Group.pastWord (g : Group) : Group := match g.pastBrk with | some pc => g.overBrk pc | none => g

theorem Group.pastWord_rest (g : Group) : g.pastWord = { g with lanes := g.pastWord.lanes } := by
  unfold Group.pastWord
  split
  · exact g.overBrk_rest _
  · rfl

theorem Group.pastWord_length (g : Group) : g.pastWord.lanes.length = g.lanes.length := by
  unfold Group.pastWord
  split
  · exact g.overBrk_length _
  · rfl

theorem Group.pastWord_lane_keeps (g : Group) (m : Nat) : (g.pastWord.lane m).v = (g.lane m).v ∧ (g.pastWord.lane m).mode = (g.lane m).mode := by
  unfold Group.pastWord
  split
  · exact g.overBrk_lane_keeps _ m
  · exact ⟨rfl, rfl⟩

theorem Group.pastWord_of_none (h : g.pastBrk = none) : g.pastWord = g := by simp [Group.pastWord, h]

theorem Group.pastWord_pc {pc : Pc} {m : Nat} (h : g.pastBrk = some pc) (hm : m < g.lanes.length) (hf : (g.lane m).mode ≠ .free)
    (hh : (g.lane m).hold = none) : (g.pastWord.lane m).pc = if (g.lane m).pc = pc then pcNext pc else (g.lane m).pc := by
  simp only [Group.pastWord, h, Group.overBrk_lane pc hm, hh, Option.isNone_none, hf, ne_eq, not_false_eq_true, and_true]
  split <;> rfl

/-- How a group goes on: halting where its block does. -/
def Dev.runOn (d : Dev) (g : Group) : Run :=
  match d.block? g.key.launch g.key.block with | some b => if b.residency = .halting then .halting else .running | none => .running

theorem Dev.runOn_cases (d : Dev) (g : Group) : d.runOn g = .running ∨ d.runOn g = .halting := by
  unfold Dev.runOn
  split
  · split <;> simp
  · simp

theorem Dev.runOn_running (h : ∀ b, d.block? g.key.launch g.key.block = some b → b.residency ≠ .halting) : d.runOn g = .running := by
  unfold Dev.runOn
  split
  next b hb => rw [if_neg (h b hb)]
  · rfl

theorem Dev.runOn_eq (d : Dev) (g : Group) : d.runOn g =
    if (match d.block? g.key.launch g.key.block with | some b => decide (b.residency = .halting) | none => false) = true then .halting
    else .running := by
  unfold Dev.runOn
  cases d.block? g.key.launch g.key.block <;> simp

theorem Dev.resumeGroup_eq (d : Dev) (g : Group) (x : Option Nat) : d.resumeGroup g x =
    d.setGroup { g.pastWord with run := d.runOn g, pastBrk := none, trap := none, stopAt := x } := by
  unfold Dev.resumeGroup
  rw [Dev.runOn_eq]
  rfl

theorem Dev.group?_resumeGroup (d : Dev) (g : Group) (x : Option Nat) : (d.resumeGroup g x).group? g.key =
    some { g with lanes := g.pastWord.lanes, run := d.runOn g, pastBrk := none, trap := none, stopAt := x } := by
  rw [Dev.resumeGroup_eq, Group.pastWord_rest]
  exact Dev.group?_setGroup_of rfl

/-! ### Every group of the job -/

/-- Groups of a list, each changed by a function that keeps its key and put in place again: the changed ones stand where they stood. -/
theorem upsert_eq_map {f : Group → Group} {gs : List Group} (hk : (gs.map Group.key).Nodup) (hg : g ∈ gs) :
    upsert (fun x => decide (x.key = g.key)) (f g) gs = gs.map fun x => if x.key = g.key then f g else x := by
  induction gs with
  | nil => cases hg
  | cons a r ih =>
    obtain ⟨ha, hr⟩ := List.nodup_cons.mp (show (a.key :: r.map Group.key).Nodup from hk)
    by_cases e : a.key = g.key
    · have hne : ∀ x ∈ r, x.key ≠ g.key := fun x hx ex => ha (by rw [e, ← ex]; exact List.mem_map_of_mem hx)
      simp only [upsert, e, decide_true, if_true, List.map_cons]
      rw [List.map_congr_left fun x hx => if_neg (hne x hx), List.map_id']
    · have hm : g ∈ r := by
        cases hg with
        | head => exact absurd rfl e
        | tail _ h => exact h
      simp [upsert, e, ih hr hm]

theorem map_key_upsert {x : Group} {gs : List Group} (h : x.key ∈ gs.map Group.key) :
    (upsert (fun y => decide (y.key = x.key)) x gs).map Group.key = gs.map Group.key := by
  induction gs with
  | nil => simp at h
  | cons a r ih =>
    by_cases e : a.key = x.key
    · simp [upsert, e]
    · have hr : x.key ∈ r.map Group.key := by
        simp only [List.map_cons, List.mem_cons] at h
        exact h.resolve_left fun e' => e e'.symm
      simp [upsert, e, ih hr]

section
variable {f : Group → Group} {gs : List Group}

theorem Dev.foldl_setGroup_keys (hf : ∀ g, (f g).key = g.key) (hg : ∀ g ∈ gs, g.key ∈ d.groups.map Group.key) :
    (gs.foldl (fun d g => d.setGroup (f g)) d).groups.map Group.key = d.groups.map Group.key := by
  induction gs generalizing d with
  | nil => rfl
  | cons a r ih =>
    have e : (d.setGroup (f a)).groups.map Group.key = d.groups.map Group.key := map_key_upsert (by rw [hf]; exact hg a (by simp))
    rw [List.foldl_cons, ih, e]
    intro g hm
    rw [e]
    exact hg g (by simp [hm])

theorem Dev.foldl_setGroup_groups (hf : ∀ g, (f g).key = g.key) (hk : (d.groups.map Group.key).Nodup) (hs : (gs.map Group.key).Nodup)
    (hg : ∀ g ∈ gs, g ∈ d.groups) :
    (gs.foldl (fun d g => d.setGroup (f g)) d).groups = d.groups.map fun g => if g ∈ gs then f g else g := by
  induction gs generalizing d with
  | nil => simp
  | cons a r ih =>
    obtain ⟨ha, hr⟩ := List.nodup_cons.mp (show (a.key :: r.map Group.key).Nodup from hs)
    have hne : ∀ g ∈ r, g.key ≠ a.key := fun g hm e => ha (by rw [← e]; exact List.mem_map_of_mem hm)
    have hsame : ∀ g ∈ d.groups, g.key = a.key ↔ g = a := fun g hm =>
      ⟨List.inj_on_of_nodup_map hk hm (hg a (by simp)), fun e => by rw [e]⟩
    have e1 : (d.setGroup (f a)).groups = d.groups.map fun g => if g.key = a.key then f a else g := by
      rw [← upsert_eq_map hk (hg a (by simp)), ← hf a]; rfl
    have hmem : ∀ g ∈ r, g ∈ (d.setGroup (f a)).groups := by
      intro g hm
      rw [e1, List.mem_map]
      exact ⟨g, hg g (by simp [hm]), if_neg (hne g hm)⟩
    have hkeys : ((d.setGroup (f a)).groups.map Group.key).Nodup := by
      rw [show (d.setGroup (f a)).groups.map Group.key = d.groups.map Group.key from
        map_key_upsert (by rw [hf]; exact List.mem_map_of_mem (hg a (by simp)))]
      exact hk
    rw [List.foldl_cons, ih hkeys hr hmem, e1, List.map_map]
    refine List.map_congr_left fun g hm => ?_
    by_cases ea : g = a
    · have : f a ∉ r := fun h => hne _ h (hf a)
      simp [ea, this]
    · simp [(hsame g hm).not.mpr ea, ea]

end

/-- Whether STOP with ALL stops a group. -/
def Dev.ofJob (d : Dev) (job : Nat) (g : Group) : Prop := g.run ≠ .ended ∧ ∃ l, d.launch? g.key.launch = some l ∧ l.job = job

theorem Dev.mem_dumpGroups_map {job : Nat} (hm : g ∈ d.groups) : g ∈ (d.dumpGroups job).map Prod.fst ↔ d.ofJob job g := by
  constructor
  · rintro h
    obtain ⟨⟨x, l⟩, he, rfl⟩ := List.mem_map.mp h
    obtain ⟨-, hl, hj, hr⟩ := Dev.mem_dumpGroups.mp he
    exact ⟨hr, l, hl, hj⟩
  · rintro ⟨hr, l, hl, hj⟩
    exact List.mem_map.mpr ⟨(g, l), Dev.mem_dumpGroups.mpr ⟨hm, hl, hj, hr⟩, rfl⟩

theorem Dev.dumpGroups_sublist (d : Dev) (job : Nat) : ((d.dumpGroups job).map Prod.fst).Sublist d.groups := by
  unfold Dev.dumpGroups
  induction d.groups with
  | nil => simp
  | cons a r ih =>
    rw [List.filterMap_cons]
    split
    · exact ih.cons a
    next e he =>
      have : e.1 = a := by
        split at he
        · split at he
          · cases he; rfl
          · cases he
        · cases he
      rw [List.map_cons, this]
      exact ih.cons_cons a

/-- STOP with ALL. -/
def Dev.stopAll (d : Dev) : Dev :=
  ((d.dumpGroups d.regs.dbgJob.toNat).map Prod.fst).foldl (fun d g => d.setGroup { g with stopAt := some 1 }) d

theorem exec_debugStopAll (s : State) : exec .debugStopAll s = .next (s.withDev fun d => if d.regs.dbgJob = 0 then d else d.stopAll) := by
  show Host.Outcome.next (s.did debugStopAll) = _
  simp only [debugStopAll, State.did_mod, Dev.stopAll, List.foldl_map, ← dbgJob_toNat]

theorem Dev.stopAll_keys (d : Dev) : d.stopAll.groups.map Group.key = d.groups.map Group.key :=
  Dev.foldl_setGroup_keys (fun _ => rfl) fun _ hm => List.mem_map_of_mem ((d.dumpGroups_sublist _).mem hm)

theorem Dev.stopAll_groups (hk : (d.groups.map Group.key).Nodup) {dec : DecidablePred (d.ofJob d.regs.dbgJob.toNat)} :
    d.stopAll.groups = d.groups.map fun g => if d.ofJob d.regs.dbgJob.toNat g then { g with stopAt := some 1 } else g := by
  refine (Dev.foldl_setGroup_groups (f := fun g => { g with stopAt := some 1 }) (fun _ => rfl) hk (((d.dumpGroups_sublist _).map _).nodup hk) fun _ hm =>
    (d.dumpGroups_sublist _).mem hm).trans (List.map_congr_left fun g hm => ?_)
  simp only [Dev.mem_dumpGroups_map hm]

end

/-! ### The words of a chain -/

theorem chainFrom_last (l : Launch) (pkt f k : Nat) : ∃ us u, chainFrom l pkt (f + 1) k = us ++ [u] := by
  induction f generalizing k with
  | zero =>
    rw [chainFrom]
    split
    · exact ⟨[], slotted l pkt k, rfl⟩
    · exact ⟨[], slotted l pkt k, rfl⟩
  | succ f ih =>
    rw [chainFrom]
    split
    · obtain ⟨us, u, e⟩ := ih (k + 1)
      exact ⟨slotted l pkt k :: us, u, by rw [e]; rfl⟩
    · exact ⟨[], slotted l pkt k, rfl⟩

theorem Launch.nextWords_last (l : Launch) (loc : Pc) :
    ∃ us u, l.nextWords loc = us ++ [u] ∧ l.afterWord loc = pcNext (mkPc (pcPkt loc) u.slot) := by
  obtain ⟨us, u, e⟩ := chainFrom_last l (pcPkt loc) 2 (pcSlot loc)
  exact ⟨us, u, e, by simp only [Launch.afterWord, Launch.nextWords, e, List.getLastD_concat]⟩

/-! ### Blocks that leave and come back (R302, R384) -/

section
variable {d : Dev} {l : Launch}

@[simp] theorem Dev.modLaunch_groups (d : Dev) (t : Nat) (f : Launch → Launch) : (d.modLaunch t f).groups = d.groups := by
  unfold Dev.modLaunch; split <;> rfl
@[simp] theorem Dev.modLaunch_blocks (d : Dev) (t : Nat) (f : Launch → Launch) : (d.modLaunch t f).blocks = d.blocks := by
  unfold Dev.modLaunch; split <;> rfl
theorem Dev.modLaunch_found {t : Nat} (h : d.launch? t = some l) (f : Launch → Launch) : d.modLaunch t f = d.setLaunch (f l) := by
  simp [Dev.modLaunch, h]

/-- A request for a block of a live job that no dump has halted leaves no block resident of those that leave together. -/
theorem Dev.requestHalt_resident {block : Nat} {r p : Bool} (hj : ∃ j, d.job? l.job = some j ∧ j.ending = none)
    (hg : ∀ g ∈ d.groups, g.key.launch = l.tag → g.key.block ∈ l.together block → g.run ≠ .dumped) {b : Block}
    (hb : b ∈ (d.requestHalt l block r p).blocks) (ht : b.launch = l.tag) (hi : b.index ∈ l.together block) : b.residency ≠ .resident := by
  obtain ⟨j, hj, he⟩ := hj
  have hd : (d.groupsOf l.tag (l.together block)).any (fun g => decide (g.run = .dumped)) = false := by
    simpa [Dev.groupsOf, and_imp] using hg
  unfold Dev.requestHalt at hb
  simp only [hj, he, hd, Option.isSome_none, Bool.false_or, Bool.or_false] at hb
  split at hb
  next hn =>
    simp only [Bool.not_eq_true', List.any_eq_false, Bool.and_eq_true, decide_eq_true_eq, List.contains_iff_mem, not_and] at hn
    exact hn b hb ⟨ht, hi⟩
  next =>
    have hb' : b ∈ d.blocks.map fun b => if decide (b.launch = l.tag) && (l.together block).contains b.index &&
        decide (b.residency = .resident) then { b with residency := .halting, requeue := r, byDebugger := p, preemptedAt := some d.time } else b := by
      split at hb
      · simpa using hb
      · exact hb
    obtain ⟨x, -, rfl⟩ := List.mem_map.mp hb'
    split
    · simp
    next hx =>
      rw [if_neg hx] at ht hi
      simpa [ht, hi] using hx

/-- Whether a block is on its way out with those that leave together. -/
def Block.leavesWith (b : Block) (l : Launch) (bs : List Nat) : Bool :=
  decide (b.launch = l.tag) && bs.contains b.index && decide (b.residency = .halting)

/-- The blocks on their way out are held saved for the debugger. -/
def Dev.holdSaved (d : Dev) (l : Launch) (block : Nat) : Dev :=
  if d.blocks.any fun b : Block => b.leavesWith l (l.together block) then
    ({ d with blocks := d.blocks.map fun b : Block => if b.leavesWith l (l.together block) then { b with requeue := false, byDebugger := true } else b }).modLaunch
      l.tag fun m => { m with back := m.back.filter fun u => decide (u ≠ m.unit block) }
  else d

theorem Dev.mem_holdSaved {block : Nat} {b : Block} (hb : b ∈ (d.holdSaved l block).blocks) : ∃ x ∈ d.blocks,
    b = if x.leavesWith l (l.together block) then { x with requeue := false, byDebugger := true } else x := by
  unfold Dev.holdSaved at hb
  split at hb
  · obtain ⟨x, hx, e⟩ := List.mem_map.mp (Dev.modLaunch_blocks _ _ _ ▸ hb)
    exact ⟨x, hx, e.symm⟩
  next hn =>
    have : b.leavesWith l (l.together block) = false := by
      simp only [Bool.not_eq_true, List.any_eq_false] at hn
      simpa using hn b hb
    exact ⟨b, hb, by simp [this]⟩

theorem exec_debugPreempt {s : State} {i : BitVec 16} {g : Group} (h : s.dev.identGroup i.toNat = some (g, l)) :
    exec (.debugPreempt i) s = .next (s.withDev fun d => (d.requestHalt l g.key.block false true).holdSaved l g.key.block) := by
  show Host.Outcome.next (s.did (debugPreempt i.toNat)) = _
  simp only [debugPreempt, State.did_mod, State.withDev, h]
  rfl

/-- What is held is held for the debugger, and asks for no place in the queue. -/
theorem Dev.holdSaved_halting {block : Nat} {b : Block} (hb : b ∈ (d.holdSaved l block).blocks) (ht : b.launch = l.tag)
    (hi : b.index ∈ l.together block) (hr : b.residency = .halting) : b.byDebugger = true ∧ b.requeue = false := by
  obtain ⟨x, -, rfl⟩ := Dev.mem_holdSaved hb
  split
  · exact ⟨rfl, rfl⟩
  next hx =>
    rw [if_neg hx] at ht hi hr
    simp [Block.leavesWith, ht, hi, hr] at hx

theorem Dev.holdSaved_resident {block : Nat} (h : ∀ b ∈ d.blocks, b.launch = l.tag → b.index ∈ l.together block → b.residency ≠ .resident)
    {b : Block} (hb : b ∈ (d.holdSaved l block).blocks) (ht : b.launch = l.tag) (hi : b.index ∈ l.together block) : b.residency ≠ .resident := by
  obtain ⟨x, hx, rfl⟩ := Dev.mem_holdSaved hb
  by_cases e : x.leavesWith l (l.together block) = true
  · rw [if_pos e] at ht hi ⊢
    exact h x hx ht hi
  · rw [if_neg e] at ht hi ⊢
    exact h x hx ht hi

/-- Whether a debugger holds a block with those that leave together. -/
def Block.heldWith (b : Block) (l : Launch) (bs : List Nat) : Bool := decide (b.launch = l.tag) && bs.contains b.index && b.byDebugger

/-- The blocks that are held are the debugger's no more. -/
def Dev.letGo (d : Dev) (l : Launch) (bs : List Nat) : Dev :=
  { d with blocks := d.blocks.map fun b : Block => if b.heldWith l bs then { b with byDebugger := false } else b }

/-- The blocks that are held go back to their launch's queue. -/
def Dev.letBack (d : Dev) (l : Launch) (block : Nat) : Dev :=
  if ((d.blocks.filter fun b => b.heldWith l (l.together block)).all fun b => decide (b.residency = .saved)) && !l.persistent then
    (d.letGo l (l.together block)).modLaunch l.tag fun x => { x with back := x.back ++ [l.unit block] }
  else d.letGo l (l.together block)

/-- The held group that REL names. -/
def Dev.heldGroup (d : Dev) (n : Nat) : Option (Group × Launch) :=
  (d.dumpGroups d.regs.dbgJob.toNat).find? fun e =>
    (decide (identOf { e.1 with place := if e.1.place.isSome then e.1.place else e.1.was } = n) && (e.1.place.isSome || e.1.was.isSome)) &&
      match d.block? e.1.key.launch e.1.key.block with | some b => b.byDebugger | none => false

theorem exec_debugRelease (s : State) (i : BitVec 16) : exec (.debugRelease i) s = .next (s.withDev fun d =>
    if d.regs.dbgJob.toNat = 0 then d else match d.heldGroup i.toNat with | none => d | some (g, l) => d.letBack l g.key.block) := by
  show Host.Outcome.next (s.did (debugRelease i.toNat)) = _
  rfl

theorem Dev.letBack_groups (d : Dev) (l : Launch) (block : Nat) : (d.letBack l block).groups = d.groups := by
  unfold Dev.letBack
  split <;> simp [Dev.letGo]

theorem Dev.letBack_blocks (d : Dev) (l : Launch) (block : Nat) : (d.letBack l block).blocks =
    d.blocks.map fun b => if b.heldWith l (l.together block) then { b with byDebugger := false } else b := by
  unfold Dev.letBack
  split <;> simp [Dev.letGo]

theorem Dev.letBack_residency (d : Dev) (l : Launch) (block : Nat) : (d.letBack l block).blocks.map (fun b => (b.launch, b.index, b.residency)) =
    d.blocks.map (fun b => (b.launch, b.index, b.residency)) := by
  rw [Dev.letBack_blocks, List.map_map]
  refine List.map_congr_left fun b _ => ?_
  simp only [Function.comp]
  split <;> rfl

/-- Where a launch has no gangs, a block leaves alone. -/
theorem Launch.together_alone (hp : l.persistent = false) (hg : l.gang ≤ 1) (block : Nat) : l.together block = [block] ∧ l.unit block = block := by
  have hm : max l.gang 1 = 1 := by omega
  have hu : l.unit block = block := by simp [Launch.unit, Launch.gangOf, hm]
  exact ⟨by simp [Launch.together, hp, hu, Launch.gangBlocks, Launch.gangSize, hm, countFrom], hu⟩

/-- A block put in other records by a map that keeps the keys is found there. -/
theorem find?_map_block {f : Block → Block} (hf : ∀ b, (f b).launch = b.launch ∧ (f b).index = b.index) (bs : List Block) (t n : Nat) :
    (bs.map f).find? (fun b => decide (b.launch = t) && decide (b.index = n)) =
      (bs.find? fun b => decide (b.launch = t) && decide (b.index = n)).map f := by
  rw [List.find?_map]
  congr 2
  funext b
  simp [hf b]

theorem Dev.block?_letBack {block : Nat} {b : Block} (hb : d.block? l.tag block = some b) (hh : b.byDebugger = true) (hp : l.persistent = false)
    (hg : l.gang ≤ 1) : (d.letBack l block).block? l.tag block = some { b with byDebugger := false } := by
  obtain ⟨ht, hi⟩ := Dev.block?_keys hb
  unfold Dev.block? at hb ⊢
  rw [Dev.letBack_blocks, find?_map_block (by intro x; split <;> exact ⟨rfl, rfl⟩), hb, (Launch.together_alone hp hg block).1]
  simp [Block.heldWith, ht, hi, hh]

theorem Dev.launch?_letBack {block : Nat} {b : Block} (hl : d.launch? l.tag = some l) (hr : b.residency = .saved) (hp : l.persistent = false)
    (hg : l.gang ≤ 1) (ho : ∀ x ∈ d.blocks, x.launch = l.tag → x.index = block → x = b) :
    (d.letBack l block).launch? l.tag = some { l with back := l.back ++ [block] } := by
  obtain ⟨ht, hu⟩ := Launch.together_alone hp hg block
  have hs : ((d.blocks.filter fun b => b.heldWith l (l.together block)).all fun b => decide (b.residency = .saved)) = true := by
    simp only [List.all_eq_true, List.mem_filter, Block.heldWith, ht, Bool.and_eq_true, decide_eq_true_eq, List.contains_iff_mem, List.mem_singleton]
    rintro x ⟨hx, ⟨h1, h2⟩, -⟩
    rw [ho x hx h1 h2, hr]
  unfold Dev.letBack
  rw [if_pos (by rw [hs, hp]; rfl), hu, Dev.modLaunch_found (d := d.letGo l (l.together block)) hl]
  exact Dev.launch?_setLaunch_of rfl

end

/-! ### The requests -/

section
variable {s : State} {i : BitVec 16}

theorem exec_debugResume (s : State) (i : BitVec 16) : exec (.debugResume i) s = .next (s.withDev fun d =>
    match d.resGroup i.toNat with | some g => d.resumeGroup g g.stopAt | none => d) := rfl

theorem exec_debugResume_none (h : s.dev.resGroup i.toNat = none) : exec (.debugResume i) s = .next s := by
  rw [exec_debugResume, State.withDev, h]

theorem exec_debugResume_some {g : Group} (h : s.dev.resGroup i.toNat = some g) :
    exec (.debugResume i) s = .next (s.withDev fun d => d.resumeGroup g g.stopAt) := by
  rw [exec_debugResume, State.withDev, h]; rfl

theorem exec_debugRequest_none (h : s.dev.identGroup i.toNat = none) :
    exec (.debugStep i) s = .next s ∧ exec (.debugStop i) s = .next s ∧ exec (.debugPreempt i) s = .next s := by
  refine ⟨?_, ?_, ?_⟩
  · show Host.Outcome.next (s.did (debugStep i.toNat)) = _
    rw [debugStep, State.did_mod, State.withDev, h]
  · show Host.Outcome.next (s.did (debugStop i.toNat)) = _
    rw [debugStop, State.did_mod, State.withDev, h]
  · show Host.Outcome.next (s.did (debugPreempt i.toNat)) = _
    rw [debugPreempt, State.did_mod, State.withDev, h]

theorem exec_debugStep {g : Group} {l : Launch} (h : s.dev.identGroup i.toNat = some (g, l)) :
    exec (.debugStep i) s = .next (if g.run = .stopped then s.withDev fun d =>
        d.resumeGroup { g with skipSite := match g.trap with | some t => some (l.afterWord t.2) | none => g.skipSite } (some 2)
      else s) := by
  show Host.Outcome.next (s.did (debugStep i.toNat)) = _
  rw [debugStep, State.did_mod, State.withDev, h]
  dsimp only
  split <;> rfl

theorem exec_debugStop {g : Group} {l : Launch} (h : s.dev.identGroup i.toNat = some (g, l)) :
    exec (.debugStop i) s = .next (s.withGroup { g with stopAt := some 1 }) := by
  show Host.Outcome.next (s.did (debugStop i.toNat)) = _
  rw [debugStop, State.did_mod, State.withDev, h]
  rfl

/-- A stopped group that goes on: what changes, and what it keeps. -/
theorem Dev.resumeGroup_leaves (d : Dev) (g : Group) (x : Option Nat) : ∃ h, (d.resumeGroup g x).group? g.key = some h ∧ h.stopAt = x ∧
    h.pastBrk = none ∧ h.trap = none ∧ h.skipSite = g.skipSite ∧ (h.run = .running ∨ h.run = .halting) ∧ h.gsr = g.gsr ∧ h.q = g.q ∧
    h.lanes.length = g.lanes.length ∧ (∀ m, (h.lane m).v = (g.lane m).v ∧ (h.lane m).mode = (g.lane m).mode) ∧
    ((∀ b, d.block? g.key.launch g.key.block = some b → b.residency ≠ .halting) → h.run = .running) ∧
    (g.pastBrk = none → h.lanes = g.lanes) ∧
    ∀ pc m, g.pastBrk = some pc → m < g.lanes.length → (g.lane m).mode ≠ .free → (g.lane m).hold = none →
      (h.lane m).pc = if (g.lane m).pc = pc then pcNext pc else (g.lane m).pc :=
  ⟨_, d.group?_resumeGroup g x, rfl, rfl, rfl, rfl, d.runOn_cases g, rfl, rfl, g.pastWord_length, g.pastWord_lane_keeps, Dev.runOn_running,
    fun h => by rw [Group.pastWord_of_none h], fun _ _ => Group.pastWord_pc⟩

theorem exec_debugStopAll_leaves (s : State) : ∃ d, exec .debugStopAll s = .next { s with dev := d } ∧
    (s.dev.regs.dbgJob = 0 → d = s.dev) ∧ d.groups.map Group.key = s.dev.groups.map Group.key ∧
    ((s.dev.groups.map Group.key).Nodup → s.dev.regs.dbgJob ≠ 0 → d = s.dev.stopAll) := by
  refine ⟨_, exec_debugStopAll s, fun h => if_pos h, ?_, fun _ h => if_neg h⟩
  dsimp only
  split
  · rfl
  · exact s.dev.stopAll_keys

theorem exec_debugRelease_zero (h : s.dev.regs.dbgJob = 0) : exec (.debugRelease i) s = .next s := by
  rw [exec_debugRelease, State.withDev, if_pos ((dbgJob_toNat _).mpr h)]

theorem exec_debugRelease_keeps (s : State) (i : BitVec 16) : ∃ d, exec (.debugRelease i) s = .next { s with dev := d } ∧ d.groups = s.dev.groups ∧
    d.blocks.map (fun b => (b.launch, b.index, b.residency)) = s.dev.blocks.map (fun b => (b.launch, b.index, b.residency)) := by
  refine ⟨_, exec_debugRelease s i, ?_⟩
  dsimp only
  split
  · exact ⟨rfl, rfl⟩
  · split
    · exact ⟨rfl, rfl⟩
    · exact ⟨Dev.letBack_groups _ _ _, Dev.letBack_residency _ _ _⟩

theorem exec_debugRelease_held {g : Group} {l : Launch} (h0 : s.dev.regs.dbgJob ≠ 0) (h : s.dev.heldGroup i.toNat = some (g, l)) :
    exec (.debugRelease i) s = .next { s with dev := s.dev.letBack l g.key.block } := by
  rw [exec_debugRelease, State.withDev, if_neg ((dbgJob_toNat _).not.mpr h0), h]

/-- The block of the group that REL names is one that the debugger holds. -/
theorem Dev.heldGroup_some {d : Dev} {n : Nat} {g : Group} {l : Launch} (h : d.heldGroup n = some (g, l)) : d.launch? g.key.launch = some l ∧
    ∀ b, d.block? l.tag g.key.block = some b → b.byDebugger = true := by
  obtain ⟨-, hl, -⟩ := Dev.mem_dumpGroups.mp (List.mem_of_find?_eq_some h)
  refine ⟨hl, fun b hb => ?_⟩
  rw [Dev.launch?_tag hl] at hb
  have hp := List.find?_some h
  simp only [hb, Bool.and_eq_true] at hp
  exact hp.2

end

/-- Settles O44: each request is one function of the records, and what it changes is said by the lemmas above. -/
theorem debugger : Obligations.Debugger := by
  unfold Obligations.Debugger
  refine ⟨fun d n => ⟨Dev.identGroup_zero, fun g l => Dev.identGroup_some⟩, fun s i h => exec_debugResume_none (Dev.resGroup_none h),
    fun s i g => exec_debugResume_some, fun d n g => Dev.resGroup_some, fun s i => exec_debugRequest_none,
    fun s i g l h => ⟨exec_debugStep h, exec_debugStop h⟩, Launch.nextWords_last, fun d g x _ => d.resumeGroup_leaves g x, fun s => ?_,
    fun s i g l h => ?_, fun s i => exec_debugRelease_zero, exec_debugRelease_keeps, fun s i g l b h0 h hb hr hp hg => ?_⟩
  · obtain ⟨d, he, hz, hk, hd⟩ := exec_debugStopAll_leaves s
    exact ⟨d, he, hz, hk, fun hn h0 => hd hn h0 ▸ Dev.stopAll_groups hn⟩
  · refine ⟨_, exec_debugPreempt h, fun b hb ht hi hh => Dev.holdSaved_halting hb ht hi hh, fun hj hd b hb ht hi => ?_⟩
    exact Dev.holdSaved_resident (fun b hb => Dev.requestHalt_resident hj hd hb) hb ht hi
  · have hh := Dev.heldGroup_some (n := i.toNat) h
    have hl : s.dev.launch? l.tag = some l := Dev.launch?_tag hh.1 ▸ hh.1
    exact ⟨_, exec_debugRelease_held h0 h, ⟨_, Dev.block?_letBack hb (hh.2 b hb) hp hg, rfl⟩, fun ho =>
      ⟨_, Dev.launch?_letBack hl hr hp hg ho, rfl⟩⟩

end Sys2Proof.Machine
end

