-- ==== Sys2Proof/Proofs/Dumps.lean ====
section
/-!
PROOF. Package dumps (R367 to R370): the start, the cut, what makes a package's part complete, the release, and the layout of a group's save (R303).
-/

namespace Sys2Proof.Machine

-- One lemma after another, within the memory of the check.
set_option Elab.async false

/-! ### Fields of bytes that stand in a row -/

section
variable {p r : List Byte} {a n : Nat}

theorem fieldAt_append_right (h : p.length ≤ a) : fieldAt (p ++ r) a n = fieldAt r (a - p.length) n := by
  rw [fieldAt, List.drop_append, List.drop_eq_nil_of_le h, List.nil_append, fieldAt]

/-- The same, counted from where the bytes before end. -/
theorem fieldAt_append_add {k : Nat} (h : p.length = k) : fieldAt (p ++ r) (k + a) n = fieldAt r a n := by
  rw [fieldAt_append_right (by omega), h, Nat.add_sub_cancel_left]

theorem fieldAt_append_left (h : a + n ≤ p.length) : fieldAt (p ++ r) a n = fieldAt p a n := by
  rw [fieldAt, List.drop_append_of_le_length (by omega), List.take_append_of_le_length (by rw [List.length_drop]; omega), fieldAt]

theorem fieldAt_leBytes (k x : Nat) : fieldAt (leBytes k x) 0 k = x % 256 ^ k := by simp [fieldAt]

theorem fieldAt_leBytes_append (k x : Nat) : fieldAt (leBytes k x ++ r) 0 k = x % 256 ^ k := by
  rw [fieldAt_append_left (by simp), fieldAt_leBytes]

end

section
variable {f : Nat → List Byte} {c : Nat}

theorem length_flatMap_countFrom (hf : ∀ i, (f i).length = c) (k n : Nat) : ((countFrom k n).flatMap f).length = c * n := by
  induction n generalizing k with
  | zero => rfl
  | succ n ih => simp [countFrom, hf, ih, Nat.mul_succ, Nat.add_comm]

/-- A field of one of some pieces of the same length. -/
theorem fieldAt_flatMap (hf : ∀ i, (f i).length = c) {b l k m n : Nat} (hb : b + l ≤ c) (hm : m < n) :
    fieldAt ((countFrom k n).flatMap f) (c * m + b) l = fieldAt (f (k + m)) b l := by
  induction n generalizing k m with
  | zero => omega
  | succ n ih =>
    rw [countFrom, List.flatMap_cons]
    cases m with
    | zero => rw [Nat.mul_zero, Nat.zero_add, fieldAt_append_left (by rw [hf]; exact hb), Nat.add_zero]
    | succ m =>
      rw [show c * (m + 1) + b = c + (c * m + b) by rw [Nat.mul_succ]; omega, fieldAt_append_add (hf k), ih (by omega)]
      congr 2
      omega

theorem fieldAt_flatMap_append (hf : ∀ i, (f i).length = c) {r : List Byte} {b l k m n : Nat} (hb : b + l ≤ c) (hm : m < n) :
    fieldAt ((countFrom k n).flatMap f ++ r) (c * m + b) l = fieldAt (f (k + m)) b l := by
  have : c * (m + 1) ≤ c * n := Nat.mul_le_mul_left c hm
  rw [fieldAt_append_left, fieldAt_flatMap hf hb hm]
  rw [length_flatMap_countFrom hf]
  rw [Nat.mul_succ] at this
  omega

end

/-! ### A group's part of a save (R303) -/

/-- A lane's place and state. -/
def Lane.saveHead (x : Lane) : List Byte :=
  leBytes 8 x.pc.toNat ++ leBytes 2 x.pw.toNat ++ leBytes 1 x.wb.toNat ++ leBytes 4 x.ssp.toNat ++ leBytes 1 x.mode.code
/-- A lane's v registers. -/
def Lane.saveV (x : Lane) : List Byte := (countFrom 0 64).flatMap fun n => leBytes 4 (cellGet x.v n).toNat
/-- A lane's moment registers. -/
def Lane.saveM (x : Lane) : List Byte := (countFrom 0 16).flatMap fun n => leBytes 8 (cellGet x.m n).toNat

theorem Lane.length_saveHead (x : Lane) : x.saveHead.length = 16 := by simp [Lane.saveHead]
theorem Lane.length_saveV (x : Lane) : x.saveV.length = 256 := length_flatMap_countFrom (fun _ => length_leBytes _ _) 0 64
theorem Lane.length_saveM (x : Lane) : x.saveM.length = 128 := length_flatMap_countFrom (fun _ => length_leBytes _ _) 0 16

theorem Lane.saveHead_fields (x : Lane) : fieldAt x.saveHead 0 8 = x.pc.toNat ∧ fieldAt x.saveHead 8 2 = x.pw.toNat ∧
    fieldAt x.saveHead 10 1 = x.wb.toNat ∧ fieldAt x.saveHead 11 4 = x.ssp.toNat := by
  have hpc := x.pc.isLt
  have hpw := x.pw.isLt
  have hwb := x.wb.isLt
  have hssp := x.ssp.isLt
  simp only [Lane.saveHead, List.append_assoc]
  refine ⟨?_, ?_, ?_, ?_⟩
  · rw [fieldAt_leBytes_append]; omega
  · rw [fieldAt_append_add (a := 0) (length_leBytes 8 _), fieldAt_leBytes_append]; omega
  · rw [fieldAt_append_add (a := 2) (length_leBytes 8 _), fieldAt_append_add (a := 0) (length_leBytes 2 _), fieldAt_leBytes_append]; omega
  · rw [fieldAt_append_add (a := 3) (length_leBytes 8 _), fieldAt_append_add (a := 1) (length_leBytes 2 _),
      fieldAt_append_add (a := 0) (length_leBytes 1 _), fieldAt_leBytes_append]
    omega

theorem Lane.saveV_field {x : Lane} {n : Nat} (h : n < 64) : fieldAt x.saveV (4 * n) 4 = (cellGet x.v n).toNat := by
  have := fieldAt_flatMap (f := fun n => leBytes 4 (cellGet x.v n).toNat) (fun _ => length_leBytes _ _) (b := 0) (l := 4) (k := 0) (by omega) h
  rw [Nat.add_zero, fieldAt_leBytes, Nat.zero_add] at this
  rw [Lane.saveV, this]
  have := (cellGet x.v n).isLt
  omega

theorem Lane.saveM_field {x : Lane} {n : Nat} (h : n < 16) : fieldAt x.saveM (8 * n) 8 = (cellGet x.m n).toNat := by
  have := fieldAt_flatMap (f := fun n => leBytes 8 (cellGet x.m n).toNat) (fun _ => length_leBytes _ _) (b := 0) (l := 8) (k := 0) (by omega) h
  rw [Nat.add_zero, fieldAt_leBytes, Nat.zero_add] at this
  rw [Lane.saveM, this]
  have := (cellGet x.m n).isLt
  omega

/-- The registers of a group as a whole: 184 bytes, of which the first 144 have a content that the fields below name. -/
def Group.saveHead (g : Group) : List Byte :=
  leBytes 8 g.gsr.toNat ++ (leBytes 4 g.mxs.toNat ++ (leBytes 2 g.sA.toNat ++ (leBytes 2 g.sB.toNat ++
    (((countFrom 0 16).flatMap fun k => leBytes 8 (cellGet g.stall k).toNat) ++ (countFrom 3 5).flatMap fun k => leBytes 8 (cellGet g.q k).toNat))))

theorem Group.length_saveHead (g : Group) : g.saveHead.length = 184 := by
  simp only [Group.saveHead, List.length_append, length_leBytes, length_flatMap_countFrom (fun _ => length_leBytes 8 _)]

theorem Group.saveHead_fields (g : Group) : fieldAt g.saveHead 0 8 = g.gsr.toNat ∧ fieldAt g.saveHead 8 4 = g.mxs.toNat ∧
    fieldAt g.saveHead 12 2 = g.sA.toNat ∧ fieldAt g.saveHead 14 2 = g.sB.toNat := by
  have h1 := g.gsr.isLt
  have h2 := g.mxs.isLt
  have h3 := g.sA.isLt
  have h4 := g.sB.isLt
  simp only [Group.saveHead]
  refine ⟨?_, ?_, ?_, ?_⟩
  · rw [fieldAt_leBytes_append]; omega
  · rw [fieldAt_append_add (a := 0) (length_leBytes 8 _), fieldAt_leBytes_append]; omega
  · rw [fieldAt_append_add (a := 4) (length_leBytes 8 _), fieldAt_append_add (a := 0) (length_leBytes 4 _), fieldAt_leBytes_append]; omega
  · rw [fieldAt_append_add (a := 6) (length_leBytes 8 _), fieldAt_append_add (a := 2) (length_leBytes 4 _),
      fieldAt_append_add (a := 0) (length_leBytes 2 _), fieldAt_leBytes_append]
    omega

theorem Group.saveHead_stall {g : Group} {k : Nat} (h : k < 16) : fieldAt g.saveHead (16 + 8 * k) 8 = (cellGet g.stall k).toNat := by
  rw [Group.saveHead, show 16 + 8 * k = 8 + (4 + (2 + (2 + (8 * k + 0)))) by omega, fieldAt_append_add (length_leBytes 8 _),
    fieldAt_append_add (length_leBytes 4 _), fieldAt_append_add (length_leBytes 2 _), fieldAt_append_add (length_leBytes 2 _),
    fieldAt_flatMap_append (fun _ => length_leBytes 8 _) (by omega) h, fieldAt_leBytes, Nat.zero_add]
  have := (cellGet g.stall k).isLt
  omega

@[simp] theorem length_freeBytes (base n : Nat) : (freeBytes base n).length = n := by
  rw [freeBytes, List.length_map, countFrom_eq_range', List.length_range']

/-- A group's part begins with its own registers, then its lanes' places, v registers and moment registers. -/
theorem groupSave_pieces (s : State) (g : Group) (l : Launch) (base : Nat) : ∃ rest, s.groupSave g l base =
    g.saveHead ++ (freeBytes base 8 ++ (((countFrom 0 g.width).flatMap fun m => (g.lane m).saveHead) ++
      (((countFrom 0 g.width).flatMap fun m => (g.lane m).saveV) ++ (((countFrom 0 g.width).flatMap fun m => (g.lane m).saveM) ++ rest)))) := by
  unfold State.groupSave
  simp only [List.append_assoc, Group.saveHead]
  exact ⟨_, rfl⟩

section
variable {s : State} {g : Group} {l : Launch} {base : Nat}

theorem groupSave_group {a n : Nat} (h : a + n ≤ 184) : fieldAt (s.groupSave g l base) a n = fieldAt g.saveHead a n := by
  obtain ⟨rest, e⟩ := groupSave_pieces s g l base
  rw [e, fieldAt_append_left (by rw [Group.length_saveHead]; exact h)]

theorem groupSave_lane {m a n : Nat} (hm : m < g.width) (h : a + n ≤ 16) :
    fieldAt (s.groupSave g l base) (192 + (16 * m + a)) n = fieldAt (g.lane m).saveHead a n := by
  obtain ⟨rest, e⟩ := groupSave_pieces s g l base
  rw [e, show 192 + (16 * m + a) = 184 + (8 + (16 * m + a)) by omega, fieldAt_append_add g.length_saveHead,
    fieldAt_append_add (length_freeBytes _ _), fieldAt_flatMap_append (fun i => (g.lane i).length_saveHead) h hm, Nat.zero_add]

theorem groupSave_v {m a n : Nat} (hm : m < g.width) (h : a + n ≤ 256) :
    fieldAt (s.groupSave g l base) (192 + 16 * g.width + 256 * m + a) n = fieldAt (g.lane m).saveV a n := by
  obtain ⟨rest, e⟩ := groupSave_pieces s g l base
  rw [e, show 192 + 16 * g.width + 256 * m + a = 184 + (8 + (16 * g.width + (256 * m + a))) by omega, fieldAt_append_add g.length_saveHead,
    fieldAt_append_add (length_freeBytes _ _), fieldAt_append_add (length_flatMap_countFrom (fun i => (g.lane i).length_saveHead) 0 _),
    fieldAt_flatMap_append (fun i => (g.lane i).length_saveV) h hm, Nat.zero_add]

theorem groupSave_m {m a n : Nat} (hm : m < g.width) (h : a + n ≤ 128) :
    fieldAt (s.groupSave g l base) (192 + 272 * g.width + 128 * m + a) n = fieldAt (g.lane m).saveM a n := by
  obtain ⟨rest, e⟩ := groupSave_pieces s g l base
  rw [e, show 192 + 272 * g.width + 128 * m + a = 184 + (8 + (16 * g.width + (256 * g.width + (128 * m + a)))) by omega,
    fieldAt_append_add g.length_saveHead,
    fieldAt_append_add (length_freeBytes _ _), fieldAt_append_add (length_flatMap_countFrom (fun i => (g.lane i).length_saveHead) 0 _),
    fieldAt_append_add (length_flatMap_countFrom (fun i => (g.lane i).length_saveV) 0 _),
    fieldAt_flatMap_append (fun i => (g.lane i).length_saveM) h hm, Nat.zero_add]

/-- Where each register of a group and of its lanes stands in the group's part. -/
theorem groupSave_fields (s : State) (g : Group) (l : Launch) (base : Nat) : let bs := s.groupSave g l base
    fieldAt bs 0 8 = g.gsr.toNat ∧ fieldAt bs 8 4 = g.mxs.toNat ∧ fieldAt bs 12 2 = g.sA.toNat ∧ fieldAt bs 14 2 = g.sB.toNat ∧
    (∀ k, k < 16 → fieldAt bs (16 + 8 * k) 8 = (cellGet g.stall k).toNat) ∧
    (∀ m, m < g.width → fieldAt bs (192 + 16 * m) 8 = (g.lane m).pc.toNat ∧ fieldAt bs (200 + 16 * m) 2 = (g.lane m).pw.toNat ∧
      fieldAt bs (202 + 16 * m) 1 = (g.lane m).wb.toNat ∧ fieldAt bs (203 + 16 * m) 4 = (g.lane m).ssp.toNat) ∧
    (∀ m n, m < g.width → n < 64 → fieldAt bs (192 + 16 * g.width + 256 * m + 4 * n) 4 = (cellGet (g.lane m).v n).toNat) ∧
    ∀ m n, m < g.width → n < 16 → fieldAt bs (192 + 272 * g.width + 128 * m + 8 * n) 8 = (cellGet (g.lane m).m n).toNat := by
  intro bs
  obtain ⟨h1, h2, h3, h4⟩ := g.saveHead_fields
  refine ⟨(groupSave_group (by omega)).trans h1, (groupSave_group (by omega)).trans h2, (groupSave_group (by omega)).trans h3,
    (groupSave_group (by omega)).trans h4, fun k hk => (groupSave_group (by omega)).trans (Group.saveHead_stall hk), fun m hm => ?_,
    fun m n hm hn => (groupSave_v hm (by omega)).trans (Lane.saveV_field hn), fun m n hm hn => (groupSave_m hm (by omega)).trans (Lane.saveM_field hn)⟩
  obtain ⟨k1, k2, k3, k4⟩ := (g.lane m).saveHead_fields
  rw [show 200 + 16 * m = 192 + (16 * m + 8) by omega, show 202 + 16 * m = 192 + (16 * m + 10) by omega,
    show 203 + 16 * m = 192 + (16 * m + 11) by omega]
  exact ⟨(groupSave_lane hm (by omega)).trans k1, (groupSave_lane hm (by omega)).trans k2, (groupSave_lane hm (by omega)).trans k3,
    (groupSave_lane hm (by omega)).trans k4⟩

end

/-! ### DUMPCTL -/

theorem dumpWord_toNat {did job : Nat} (isDone part : Bool) (hd : did < 2 ^ 16) (hj : job < 2 ^ 32) :
    (dumpWord did job isDone part).toNat = did + isDone.toNat * 2 ^ 17 + part.toNat * 2 ^ 18 + job * 2 ^ 32 := by
  have h1 := isDone.toNat_lt
  have h2 := part.toNat_lt
  rw [dumpWord, BitVec.toNat_ofNat]
  omega

theorem dumpWord_fields {did job : Nat} (isDone part : Bool) (hd : did < 2 ^ 16) (hj : job < 2 ^ 32) :
    let w := (dumpWord did job isDone part).toNat
    w % 2 ^ 16 = did ∧ bitAt w 16 = false ∧ bitAt w 17 = isDone ∧ bitAt w 18 = part ∧ w / 2 ^ 19 % 2 ^ 13 = 0 ∧ w / 2 ^ 32 = job := by
  simp only [dumpWord_toNat isDone part hd hj, bitAt]
  cases isDone <;> cases part <;> simp only [Bool.toNat_true, Bool.toNat_false] <;> refine ⟨by omega, ?_, ?_, ?_, by omega, by omega⟩ <;>
    simp <;> omega

/-! ### Markers -/

/-- Changes that touch the links alone touch no more when made one after another. -/
theorem foldl_links {f : Dev → Nat → Dev} (hf : ∀ d n, f d n = { d with links := (f d n).links }) (ns : List Nat) (d : Dev) :
    ns.foldl f d = { d with links := (ns.foldl f d).links } := by
  induction ns generalizing d with
  | nil => rfl
  | cons n ns ih => rw [List.foldl_cons, ih, hf]

theorem Dev.sendMarkers_rest (d : Dev) (did job : Nat) : d.sendMarkers did job = { d with links := (d.sendMarkers did job).links } :=
  foldl_links (fun d _ => foldl_links (fun _ _ => rfl) _ d) _ d

/-! ### The cut -/

/-- The state after bytes are stored in the host's memory and the records are replaced. -/
theorem State.run_host_dev (s : State) (a : Nat) (bs : List Byte) (d : Dev) :
    s.run (storeBytes .host a bs ++ [.dev d]) = { s with host := (s.run (storeBytes .host a bs)).host, dev := d } := by
  obtain ⟨h, e⟩ := State.run_storeBytes_host s a bs
  rw [State.run_append, e]
  rfl

/-- What stands in the dump area behind the header: entries, saves and pad units. -/
def State.dumpContent (s : State) (job : Nat) : List Byte :=
  let gs := s.dev.dumpGroups job
  let blocks := blocksOf gs []
  let first := 64 + 16 * gs.length
  (gs.flatMap fun e => s.dumpEntry e.1 e.2 (first + saveAt e.2.tag e.1.key.block blocks + e.1.key.group * e.2.groupArea)) ++
  (blocks.flatMap fun e => match s.dev.launch? e.1 with
    | some l => s.blockSave l e.2.1 (s.dev.free + saveAt e.1 e.2.1 blocks)
    | none => []) ++
  (match s.dev.job? job with | some j => j.grants | none => []).flatMap fun u => bytesAt s.pad (u * 2 ^ 21) (2 ^ 21)

theorem length_dumpHeader (d : Dev) (x : Dump) (n : Nat) : (dumpHeader d x n).length = 64 := by simp [dumpHeader]

/-- What the cut leaves: the package record in the host's memory, the dump with its cut made, and the markers on their way. -/
theorem did_dumpCut (s : State) (x : Dump) : ∃ header rest y free word links, header.length = 64 ∧
    s.did (dumpCut x) = { s with
      host := (s.run (storeBytes .host s.dev.regs.dumpArea (header ++ (s.dumpContent x.job ++ rest)))).host
      dev := { s.dev with dump := some y, free := free, regs := { s.dev.regs with dumpctl := word }, links := links } } ∧
    y.did = x.did ∧ y.job = x.job ∧ y.cut = some s.dev.time ∧ y.entries = (s.dev.dumpGroups x.job).length ∧
    y.part = (x.part || (s.dev.dumpGroups x.job).any fun e => e.1.onWay) := by
  iterate 6 apply Exists.intro
  refine ⟨?_, ?_, ?_⟩
  rotate_left
  · unfold State.did dumpCut
    dsimp only
    rw [State.run_host_dev, Dev.sendMarkers_rest]
    unfold State.dumpContent
    simp only [List.append_assoc]
    rfl
  · exact ⟨rfl, rfl, rfl, rfl, rfl⟩
  · exact length_dumpHeader _ _ _

theorem State.wf_act_host {s : State} (h : s.host.wf = true) (a : Nat) (b : Byte) : (s.act (.store .host a b)).host.wf = true :=
  cellsWf_set a b h

/-- Bytes stored from an address on leave what stands below. -/
theorem State.run_storeBytes_host_below {s : State} (h : s.host.wf = true) {n a : Nat} (hn : n < a) (bs : List Byte) :
    cellGet (s.run (storeBytes .host a bs)).host n = cellGet s.host n := by
  induction bs generalizing s a with
  | nil => rfl
  | cons b bs ih =>
    show cellGet ((s.act (.store .host a b)).run (storeBytes .host (a + 1) bs)).host n = _
    rw [ih (State.wf_act_host h a b) (by omega)]
    exact (cellGet_memory_set h a n b).trans (if_neg (by omega))

/-- Bytes stored in the host's memory stand there in order. -/
theorem State.run_storeBytes_host_cell {s : State} (h : s.host.wf = true) {a k : Nat} {bs : List Byte} {v : Byte} (hv : bs[k]? = some v) :
    cellGet (s.run (storeBytes .host a bs)).host (a + k) = v := by
  induction bs generalizing s a k with
  | nil => simp at hv
  | cons b bs ih =>
    show cellGet ((s.act (.store .host a b)).run (storeBytes .host (a + 1) bs)).host (a + k) = v
    have hw := State.wf_act_host h a b
    cases k with
    | zero =>
      rw [State.run_storeBytes_host_below hw (by omega)]
      exact (cellGet_memory_set h a a b).trans ((if_pos rfl).trans (by simpa using hv))
    | succ k =>
      rw [show a + (k + 1) = a + 1 + k by omega]
      exact ih hw (by simpa using hv)

theorem did_dumpCut_content (s : State) (x : Dump) (h : s.host.wf = true) {k : Nat} {v : Byte} (hv : (s.dumpContent x.job)[k]? = some v) :
    cellGet (s.did (dumpCut x)).host (s.dev.regs.dumpArea + 64 + k) = v := by
  obtain ⟨header, rest, y, free, word, links, hl, e, -⟩ := did_dumpCut s x
  rw [e, Nat.add_assoc]
  refine State.run_storeBytes_host_cell h ?_
  rw [List.getElem?_append_right (by omega), hl, Nat.add_sub_cancel_left,
    List.getElem?_append_left (by have := List.getElem?_eq_some_iff.mp hv; exact this.1), hv]

theorem did_dumpCut_keeps (s : State) (x : Dump) : let t := s.did (dumpCut x)
    t.pad = s.pad ∧ t.main = s.main ∧ t.blk = s.blk ∧ t.stk = s.stk ∧ t.dev.groups = s.dev.groups ∧ t.dev.ops = s.dev.ops ∧
    ∃ y, t.dev.dump = some y ∧ y.did = x.did ∧ y.job = x.job ∧ y.cut = some s.dev.time ∧ y.entries = (s.dev.dumpGroups x.job).length ∧
      y.part = (x.part || (s.dev.dumpGroups x.job).any fun e => e.1.onWay) := by
  intro t
  obtain ⟨header, rest, y, free, word, links, -, e, hy⟩ := did_dumpCut s x
  refine (show t = _ from e) ▸ ⟨rfl, rfl, rfl, rfl, rfl, rfl, y, rfl, hy⟩

/-! ### A dump goes on -/

/-- Two parts in order. -/
theorem State.did_seq_pair (s : State) (p q : Part) : s.did (Part.seq [p, q]) = (s.did p).did q := by
  rw [State.did_seq_cons, State.did_seq_cons, State.did_seq_nil]

/-- The channels that a dump waits for. -/
def Dump.waits (x : Dump) (r : Regs) : Prop := ∃ n, n < 18 ∧ r.linkUp n = true ∧ ∃ v, v < 3 ∧ (n, v) ∉ x.marked ∧ (n, v) ∉ x.lost

theorem Dump.waits_iff (x : Dump) (r : Regs) : x.waits r ↔ (((countFrom 0 18).filter r.linkUp).any fun n =>
    (countFrom 0 3).any fun v => !x.marked.contains (n, v) && !x.lost.contains (n, v)) = true := by
  simp [Dump.waits, List.any_eq_true]

/-- A dump goes on: the cut. -/
def dumpCuts : Part := fun s => match s.dev.dump with
  | some x => if x.cut.isNone && !(s.dev.dumpGroups x.job).any (fun e => e.1.onWay) then dumpCut x s else []
  | none => []

/-- A dump goes on: DONE. -/
def dumpEnds : Part := fun s => match s.dev.dump with
  | some x =>
    let open_ : Bool := ((countFrom 0 18).filter s.dev.regs.linkUp).any fun n =>
      (countFrom 0 3).any fun v => !x.marked.contains (n, v) && !x.lost.contains (n, v)
    if x.cut.isNone || x.complete || open_ then []
    else
      storeBytes .host s.dev.regs.dumpArea (dumpHeader s.dev x x.channels.length) ++
      storeBytes .host (s.dev.regs.dumpArea + x.saved) x.records ++
      [.dev { s.dev with
        dump := some { x with complete := true }
        regs := { s.dev.regs with dumpctl := dumpWord x.did x.job true x.part } }]
  | none => []

section
variable {s : State} {x : Dump}

theorem did_dumpGoesOn (s : State) : s.did dumpGoesOn = (s.did dumpCuts).did dumpEnds := State.did_andThen s dumpCuts dumpEnds

theorem did_dumpCuts_none (h : s.dev.dump = none) : s.did dumpCuts = s := by simp [State.did, dumpCuts, h]
theorem did_dumpEnds_none (h : s.dev.dump = none) : s.did dumpEnds = s := by simp [State.did, dumpEnds, h]

/-- No cut is made once one is made, or while a group is on its way to a stop site. -/
theorem did_dumpCuts_idle (h : s.dev.dump = some x) (hc : x.cut ≠ none ∨ ∃ e ∈ s.dev.dumpGroups x.job, e.1.onWay = true) : s.did dumpCuts = s := by
  have : (x.cut.isNone && !(s.dev.dumpGroups x.job).any (fun e => e.1.onWay)) = false := by
    rcases hc with hc | hc
    · simp [hc]
    · simp [List.any_eq_true.mpr hc]
  simp [State.did, dumpCuts, h, this]

theorem did_dumpCuts_cut (h : s.dev.dump = some x) (hc : x.cut = none) (hg : ∀ e ∈ s.dev.dumpGroups x.job, e.1.onWay = false) :
    s.did dumpCuts = s.did (dumpCut x) := by
  have : (s.dev.dumpGroups x.job).any (fun e => e.1.onWay) = false := by simpa using hg
  simp [State.did, dumpCuts, h, hc, this]

theorem did_dumpEnds_uncut (h : s.dev.dump = some x) (hc : x.cut = none) : s.did dumpEnds = s := by simp [State.did, dumpEnds, h, hc]

theorem did_dumpEnds_waits (h : s.dev.dump = some x) (hw : x.waits s.dev.regs) : s.did dumpEnds = s := by
  rw [Dump.waits_iff] at hw
  simp only [State.did, dumpEnds, h, hw, Bool.or_true, if_true, State.run_nil]

theorem did_dumpEnds_done (h : s.dev.dump = some x) (hc : x.cut ≠ none) (hf : x.complete = false) (hw : ¬ x.waits s.dev.regs) :
    ∃ h, s.did dumpEnds = { s with host := h, dev := { s.dev with
      dump := some { x with complete := true }
      regs := { s.dev.regs with dumpctl := dumpWord x.did x.job true x.part } } } := by
  rw [Dump.waits_iff, Bool.not_eq_true] at hw
  simp only [State.did, dumpEnds, h, hw, hf, Option.isNone_eq_false_iff.mpr (Option.isSome_iff_ne_none.mpr hc), Bool.or_false, Bool.false_eq_true,
    if_false]
  rw [List.append_assoc, State.run_append]
  obtain ⟨m, e⟩ := State.run_storeBytes_host s s.dev.regs.dumpArea (dumpHeader s.dev x x.channels.length)
  rw [e, State.run_host_dev]
  exact ⟨_, rfl⟩

/-! ### Requests, markers and the time-out -/

theorem dumpStart_live {did job : Nat} {marked : List (Nat × Nat)} : s.did (dumpStart did job marked) = (
    if ∃ j, s.dev.job? job = some j ∧ j.ending = none then
      (s.withDev fun d => { d with
        regs := { d.regs with dumpctl := dumpWord did job false false }
        dump := some ⟨did, job, d.time, none, marked, [], [], false, 0, 0, false⟩ }).did dumpGoesOn
    else s.withDev fun d => ({ d with regs := { d.regs with dumpctl := dumpWord did job true false } }.sendMarkers did job)) := by
  have hl : s.dev.live job = true ↔ ∃ j, s.dev.job? job = some j ∧ j.ending = none := by
    unfold Dev.live
    cases s.dev.job? job <;> simp
  by_cases hj : ∃ j, s.dev.job? job = some j ∧ j.ending = none
  · rw [if_pos hj, State.did, dumpStart, if_pos (hl.mpr hj)]
    exact State.did_seq_pair s _ _
  · rw [if_neg hj, State.did, dumpStart, if_neg (hl.not.mpr hj)]
    rfl

theorem exec_dumpGo_idle (v : Dword) (h : s.dev.dump ≠ none) : exec (.dumpGo v) s = .next s := by
  show Host.Outcome.next (s.run (dumpGo v.toNat s)) = _
  rw [dumpGo, if_pos (Option.isSome_iff_ne_none.mpr h), State.run_nil]

theorem exec_dumpGo (v : Dword) (h : s.dev.dump = none) : exec (.dumpGo v) s = .next
    ((s.withDev fun d => { d with abandoned := d.abandoned.filter fun e => decide (e ≠ (v.toNat % 2 ^ 16, v.toNat / 2 ^ 32)) }).did
      (dumpStart (v.toNat % 2 ^ 16) (v.toNat / 2 ^ 32) [])) := by
  show Host.Outcome.next (s.run (dumpGo v.toNat s)) = _
  rw [dumpGo, if_neg (by simp [h])]
  exact congrArg _ (State.did_seq_pair s _ _)

theorem exec_dumpRel_none (h : s.dev.dump = none) : exec .dumpRel s = .next s := by
  show Host.Outcome.next (s.run (dumpRelease s)) = _
  rw [dumpRelease, h, State.run_nil]

theorem exec_dumpRel (h : s.dev.dump = some x) : exec .dumpRel s = .next ((s.withDev fun d => { d with
      dump := none
      groups := d.groups.map fun g =>
        if g.run = .dumped ∧ (∃ l, d.launch? g.key.launch = some l ∧ l.job = x.job) then { g with run := .running } else g }).did serveHeld) := by
  have hm : ∀ g : Group, (match s.dev.launch? g.key.launch with | some l => decide (l.job = x.job) | none => false) = true ↔
      ∃ l, s.dev.launch? g.key.launch = some l ∧ l.job = x.job := by
    intro g
    cases s.dev.launch? g.key.launch <;> simp
  show Host.Outcome.next (s.run (dumpRelease s)) = _
  rw [dumpRelease, h]
  refine congrArg _ ((State.did_seq_pair s _ _).trans (congrArg
    (fun gs => ({ s with dev := { s.dev with dump := none, groups := gs } } : State).did serveHeld) (List.map_congr_left fun g _ => ?_)))
  exact if_congr (and_congr_right' (hm g)) rfl rfl

theorem exec_dumpMarker (s : State) (n v did job : Nat) : exec (.dumpMarker n v did job) s = .next (
    if 18 ≤ n ∨ 3 ≤ v ∨ s.dev.regs.linkUp n = false then s
    else match s.dev.dump with
      | some x =>
        if x.did ≠ did ∨ x.job ≠ job ∨ (n, v) ∈ x.marked then s
        else (s.withDev fun d => { d with dump := some { x with marked := x.marked ++ [(n, v)] } }).did dumpGoesOn
      | none =>
        let c := s.dev.regs.dumpctl.toNat
        if (did, job) ∈ s.dev.abandoned ∨ (bitAt c 17 = true ∧ c % 2 ^ 16 = did ∧ c / 2 ^ 32 = job) then s else s.did (dumpStart did job [(n, v)])) := by
  show execDumpMarker n v did job s = _
  unfold execDumpMarker commit
  simp only [List.contains_iff_mem]
  split
  · rfl
  · cases s.dev.dump with
    | none =>
      dsimp only
      split <;> rfl
    | some x =>
      dsimp only
      split
      · rfl
      · exact congrArg _ (State.did_seq_pair s _ _)

theorem exec_dumpHaltTimeout_none (h : s.dev.dump = none) : exec .dumpHaltTimeout s = .next s := by
  show execDumpHaltTimeout s = _
  rw [execDumpHaltTimeout, h]
  rfl

theorem exec_dumpHaltTimeout (h : s.dev.dump = some x) : exec .dumpHaltTimeout s = .next (
    if x.cut ≠ none ∨ s.dev.time < x.started + 1000 * s.dev.regs.dumpw.toNat then s else (s.did (dumpCut x)).did dumpGoesOn) := by
  show execDumpHaltTimeout s = _
  rw [execDumpHaltTimeout, h]
  simp only [Option.isSome_iff_ne_none]
  split
  · rfl
  · exact congrArg _ (State.did_andThen s (dumpCut x) dumpGoesOn)

end

/-- Settles O43: a request or a marker starts a dump or does not (`dumpStart_live`), the dump goes on by its cut and by DONE (`did_dumpGoesOn`), and
the cut is the record stored and the markers sent (`did_dumpCut`). -/
theorem dumps : Obligations.Dumps := by
  unfold Obligations.Dumps
  refine ⟨fun s v h => exec_dumpGo_idle v h, fun s v h => exec_dumpGo v h, fun s did job marked => dumpStart_live, fun s => ⟨fun h => ?_, fun x h hc hg => ?_⟩,
    fun s x h hc hg => ?_, fun s x h hc hf => ⟨fun hw => ?_, fun hw => ?_⟩, fun s x _ => did_dumpCut_keeps s x,
    fun s x _ hw k v hv => did_dumpCut_content s x hw hv, groupSave_fields, fun did job b p hd hj => dumpWord_fields b p hd hj,
    fun s h => exec_dumpRel_none h, fun s x h => exec_dumpRel h, exec_dumpMarker, fun s h => exec_dumpHaltTimeout_none h,
    fun s x h => exec_dumpHaltTimeout h⟩
  · rw [did_dumpGoesOn, did_dumpCuts_none h, did_dumpEnds_none h]
  · rw [did_dumpGoesOn, did_dumpCuts_idle h (.inr hg), did_dumpEnds_uncut h hc]
  · obtain ⟨-, -, -, -, -, -, y, hy, -, -, hcut, -⟩ := did_dumpCut_keeps s x
    rw [did_dumpGoesOn, did_dumpCuts_cut h hc hg, did_dumpGoesOn (s.did (dumpCut x)), did_dumpCuts_idle hy (.inl (by simp [hcut]))]
  · rw [did_dumpGoesOn, did_dumpCuts_idle h (.inl hc), did_dumpEnds_waits h hw]
  · rw [did_dumpGoesOn, did_dumpCuts_idle h (.inl hc)]
    exact did_dumpEnds_done h hc hf hw

end Sys2Proof.Machine
end

