-- ==== Sys2Proof/Proofs/Launches.lean ====
section
/-!
PROOF. The start of a launch (R56 to R58, R241, R242, R247, R303, R338): what its record and its image's header have to be, what its reservations have
left, its tag, and the launch that then stands.
-/

namespace Sys2Proof.Machine

-- One lemma after another, within the memory of the check.
set_option Elab.async false

/-! ### The record and the header -/

theorem launchFields_clear (bs : List Byte) : let f := fieldAt bs
    let nb := f 0x20 4 * f 0x24 2 * f 0x26 2
    (∀ e ∈ launchFields bs, e.2 = false) ↔
      f 1 1 / 2 ^ 7 % 2 = 0 ∧ f 2 1 ≤ 32 ∧ 1 ≤ f 3 1 ∧ f 3 1 ≤ 4 ∧ f 8 8 % 4096 = 0 ∧ f 0x10 8 < 2 ^ 57 ∧ 1 ≤ f 0x20 4 ∧ 1 ≤ f 0x24 2 ∧
      1 ≤ f 0x26 2 ∧ nb ≤ 2 ^ 32 - 1 ∧ nb % f 3 1 = 0 ∧ f 0x28 1 / 4 % 4 = 0 ∧ f 0x29 1 = 0 ∧ (f 1 1 / 2 ^ 2 % 2 = 1 → 1000 ≤ f 0x30 4) ∧ f 0x3C 4 = 0 := by
  dsimp only
  have hmax : 1 ≤ fieldAt bs 3 1 → max (fieldAt bs 3 1) 1 = fieldAt bs 3 1 := max_eq_left
  simp only [launchFields, List.forall_mem_cons, List.not_mem_nil, false_imp_iff, implies_true, and_true, bitAt, Bool.or_eq_false_iff,
    Bool.and_eq_false_iff, decide_eq_false_iff_not, beq_eq_false_iff_ne]
  constructor
  · rintro ⟨h1, h2, ⟨h3, h4⟩, h5, h6, ⟨⟨h7, h8⟩, h9⟩, h10, h11, h12, h13, h14, h15⟩
    have h3 : 1 ≤ fieldAt bs 3 1 := Nat.pos_of_ne_zero h3
    rw [hmax h3] at h9
    exact ⟨by omega, by omega, h3, by omega, by omega, by omega, by omega, by omega, by omega, by omega, not_not.mp h9, by omega, by omega,
      by omega, by omega⟩
  · rintro ⟨h1, h2, h3, h4, h5, h6, h7, h8, h9, h10, h11, h12, h13, h14, h15⟩
    rw [hmax h3]
    exact ⟨by omega, by omega, ⟨by omega, by omega⟩, by omega, by omega, ⟨⟨by omega, by omega⟩, not_not.mpr h11⟩, by omega, by omega, by omega,
      by omega, by omega, by omega⟩

theorem headerFields_clear (h : List Byte) : let f := fieldAt h
    (∀ e ∈ headerFields h, e.2 = false) ↔
      f 0 4 = 0x4A524B4E ∧ f 4 2 = 1 ∧ f 6 1 ≤ 3 ∧ f 7 1 ≤ 16 ∧ f 8 4 % 256 = 0 ∧ f 8 4 ≤ 262144 ∧ f 0xC 1 ≤ 1 ∧ 1 ≤ f 0xD 1 ∧ f 0xD 1 ≤ 16 ∧
      f 0xE 2 % 8 = 0 ∧ f 0x10 4 % 16 = 0 ∧ 0x80 ≤ f 0x10 4 ∧ f 0x14 4 % 16 = 0 ∧ 16 ≤ f 0x14 4 ∧ f 0x10 4 / 16 ≤ f 0x18 4 ∧
      f 0x18 4 < (f 0x10 4 + f 0x14 4) / 16 ∧ f 0x1C 4 % 32 = 0 ∧ f 0x20 4 ≠ 0 ∧ f 0x30 1 ≤ 8 ∧ f 0x31 1 ≤ 15 ∧ f 0x32 2 = 0 ∧ f 0x40 64 = 0 := by
  dsimp only
  simp only [headerFields, List.forall_mem_cons, List.not_mem_nil, false_imp_iff, implies_true, and_true, Bool.or_eq_false_iff,
    decide_eq_false_iff_not, not_lt, not_le, ne_eq, not_not, and_assoc, Nat.one_le_iff_ne_zero]

/-! ### The tag and the reservations -/

theorem Dev.nextTag_some {d : Dev} {tag : Nat} (h : d.nextTag = some tag) : tag < 2 ^ 16 ∧ d.launch? tag = none ∧
    ∀ t, t < (tag + 2 ^ 16 - d.tagCounter % 2 ^ 16) % 2 ^ 16 → d.launch? ((d.tagCounter + t) % 2 ^ 16) ≠ none := by
  obtain ⟨k, hk, rfl⟩ := Option.map_eq_some_iff.mp h
  rw [countFrom_eq_range', List.find?_range'_eq_some] at hk
  obtain ⟨hp, hm, hb⟩ := hk
  have hlt := (List.mem_range'_1.mp hm).2
  refine ⟨Nat.mod_lt _ (by decide), by simpa using hp, fun t ht => ?_⟩
  have := hb t (Nat.zero_le t) (by omega)
  simpa [Option.isSome_iff_ne_none] using this

theorem Dev.launchRefused_eq (d : Dev) (j : Job) (la : Launch) : d.launchRefused j la = (
    if fieldAt j.desc 0x20 4 < natSum ((d.launches.filter fun l => decide (l.job = j.id)).map Launch.cellHeld) + la.cellHeld then some (.access, 4, 0)
    else if fieldAt j.desc 0x28 4 < natSum ((d.launches.filter fun l => decide (l.job = j.id)).map Launch.saveHeld) + la.saveHeld then
      some (.access, 5, 0)
    else if 16 < la.groups ∨ 262144 < la.blkMem ∨ 32 < la.acct ∨ 4 < la.gang ∨ (la.persistent = true ∧ d.findDie la la.gangs = none) then
      some (.illegalOperand, 6, 0)
    else none) := by
  have hf : (la.persistent = true ∧ (d.findDie la la.gangs).isNone = true) ↔ la.persistent = true ∧ d.findDie la la.gangs = none := by
    rw [Option.isNone_iff_eq_none]
  unfold Dev.launchRefused
  refine if_congr Iff.rfl rfl (if_congr Iff.rfl rfl ?_)
  by_cases hr : 16 < la.groups ∨ 262144 < la.blkMem ∨ 32 < la.acct ∨ 4 < la.gang
  · rw [if_pos hr, if_pos (by tauto)]
  · rw [if_neg hr]
    exact if_congr (by rw [hf]; tauto) rfl rfl

/-! ### The start -/

section
variable {s : State} {job n : Nat} {j : Job} {q : Queue} {r : NextRec}

/-- Where a record stands next whose turn has come and whose KIND is the event's, its fields and its dependence are checked, and it starts. -/
theorem startRecord_reads {kind dep : Nat} {fields : List Byte → List (Nat × Bool)} {go : Job → Queue → NextRec → Part}
    (hj : s.dev.job? job = some j) (hq : s.dev.queue? job n = some q) (he : j.ending = none) (hs : q.slot ≠ none)
    (hd : s.dev.dumpHolds job = false) (hr : s.nextRec j q = some r) (ht : r.turn q = true) (hk : fieldAt r.raw 0 1 = kind) (h1 : 1 ≤ kind)
    (h4 : kind ≤ 4) : s.did (startRecord job n kind dep fields go) =
      match badField ((fields r.raw).filter (fun f => decide (f.1 < dep)) ++ [(dep, s.dev.depBad q r (fieldAt r.raw dep 8))] ++
        (fields r.raw).filter fun f => decide (dep < f.1)) with
      | some off => s.did (refuse job r.grid r.faddr .illegalOperand 0 off)
      | none => if s.dev.depMet q (fieldAt r.raw dep 8) = true then (s.did (noteTranslation job r.faddr false)).did (go j q r) else s := by
  have hcan : ¬ (j.ending.isSome ∨ q.slot.isNone ∨ s.dev.dumpHolds job = true) := by simp [he, hs, hd]
  have hkind : ¬ (fieldAt r.raw 0 1 = 0 ∨ 4 < fieldAt r.raw 0 1) := by omega
  unfold State.did startRecord
  rw [hj, hq]
  dsimp only
  rw [if_neg hcan, hr]
  dsimp only
  rw [ht, if_neg (by simp), if_neg hkind, if_neg (by rw [hk]; simp)]
  generalize badField _ = bad
  cases bad with
  | some off => rfl
  | none =>
    dsimp only
    split
    · exact State.did_seq_pair s _ _
    · rfl

/-- The records once a launch has begun that places no block: its launch, its tag counted, its records of races reset. -/
def Dev.begun (d : Dev) (q : Queue) (r : NextRec) (la : Launch) : Dev :=
  { ((d.startRec q r).setLaunch { la with fresh := 0 }) with
    tagCounter := (la.tag + 1) % 2 ^ 16
    padRaces := d.padRaces.filter fun x => decide (x.ls ≠ la.tag)
    free := d.free + 1 }

theorem did_beginLaunch_eq {la : Launch} (hp : la.persistent = false) :
    s.did (beginLaunch q r la) = (s.withDev fun d => d.begun q r la).did (traceRec la.job s.dev.anyDie 1 0 la.id.toNat) := by
  have hn : ¬ la.persistent = true := by simp [hp]
  unfold State.did beginLaunch
  simp only [if_neg hn]
  exact (State.did_seq_cons s _ _).trans (State.did_seq_pair _ _ Part.none)

theorem upsert_absent {α : Type} {p : α → Bool} {xs : List α} (x : α) (h : xs.find? p = none) : upsert p x xs = xs ++ [x] := by
  induction xs with
  | nil => rfl
  | cons a r ih =>
    rw [List.find?_cons] at h
    split at h
    · cases h
    next ha => simp [upsert, ha, ih h]

/-- A launch begins: what stands of it, and what is as it was. -/
theorem did_beginLaunch {la : Launch} (hp : la.persistent = false) (hl : s.dev.launch? la.tag = none) :
    let t := s.did (beginLaunch q r la)
    t.pad = s.pad ∧ t.main = s.main ∧ t.blk = s.blk ∧ t.stk = s.stk ∧ t.dev.groups = s.dev.groups ∧ t.dev.blocks = s.dev.blocks ∧
    t.dev.launches = s.dev.launches ++ [{ la with fresh := 0 }] ∧ t.dev.tagCounter = (la.tag + 1) % 2 ^ 16 ∧
    (∀ x ∈ t.dev.padRaces, x.ls ≠ la.tag) := by
  intro t
  have hlaunches : (s.dev.begun q r la).launches = s.dev.launches ++ [{ la with fresh := 0 }] := upsert_absent _ hl
  have hraces : ∀ x ∈ (s.dev.begun q r la).padRaces, x.ls ≠ la.tag := fun x hx => by simpa using (List.mem_filter.mp hx).2
  obtain ⟨h, d, e, hd⟩ := (s.withDev fun d => d.begun q r la).did_traceRec la.job s.dev.anyDie 1 0 la.id.toNat
  have ht : t = _ := (did_beginLaunch_eq hp).trans e
  rw [ht]
  rcases hd with rfl | ⟨j, trc, dies, -, rfl⟩
  · exact ⟨rfl, rfl, rfl, rfl, rfl, rfl, hlaunches, rfl, hraces⟩
  · exact ⟨rfl, rfl, rfl, rfl, rfl, rfl, hlaunches, rfl, hraces⟩

end

/-- Settles O38: the record is read (`startRecord_reads`), then each check is met or ends the job, in the order of the cases below, and where all are met
the launch begins (`did_beginLaunch`). -/
theorem launchesStart : Obligations.LaunchesStart := by
  unfold Obligations.LaunchesStart
  refine ⟨fun s job n j q r hj hq he hs hd hr ht hk => ?_, launchFields_clear, headerFields_clear, Dev.launchRefused_eq,
    fun d tag => Dev.nextTag_some,
    fun tag job now q r i => ⟨rfl, rfl, rfl, rfl, rfl, rfl, rfl, rfl, rfl, rfl, rfl, rfl, rfl, rfl⟩, fun s q r la hp _ => did_beginLaunch hp⟩
  dsimp only
  show Host.Outcome.next (s.did (startRecord job n 1 0x34 launchFields _)) = _
  rw [startRecord_reads hj hq he hs hd hr ht hk (by decide) (by decide)]
  have hlow : (launchFields r.raw).filter (fun f => decide (f.1 < 0x34)) = (launchFields r.raw).take 11 := rfl
  have hhigh : (launchFields r.raw).filter (fun f => decide (0x34 < f.1)) = (launchFields r.raw).drop 11 := rfl
  rw [hlow, hhigh]
  congr 1
  generalize badField _ = bad
  cases bad with
  | some off => rfl
  | none =>
    dsimp only
    cases s.dev.depMet q (fieldAt r.raw 0x34 8) with
    | false => rfl
    | true =>
      generalize s.did (noteTranslation job r.faddr false) = t
      rw [if_pos rfl, if_neg (by decide), State.did]
      by_cases hm : (t.firstBad j false [fieldAt r.raw 8 8]).isSome = true
      · rw [if_pos hm, if_pos hm]
        rfl
      rw [if_neg hm, if_neg hm]
      generalize t.vaBytes j none (fieldAt r.raw 8 8) 128 = h
      cases badField (headerFields h) with
      | some off => rfl
      | none =>
        dsimp only
        split
        · rfl
        cases t.readImage j (fieldAt r.raw 8 8) h with
        | none => rfl
        | some image =>
          cases t.dev.nextTag with
          | none => rfl
          | some tag =>
            dsimp only
            cases image.1.bad j with
            | some x => rfl
            | none =>
              dsimp only
              cases t.dev.launchRefused j (newLaunch tag job t.dev.time q r image.1) with
              | some x => rfl
              | none => exact State.did_seq_pair t _ _

end Sys2Proof.Machine
end

