-- ==== Sys2Proof/Proofs/FloatWords.lean ====
section
/-!
PROOF. The computing words of the FPU, the SFU and the counter-based generator (R77, R106 to R120, R130): a word that meets no check puts the
results of its rule on their way and changes nothing else; and the words that the rules write out decode as they say.
-/

namespace Sys2Proof.Machine

-- One lemma after another, within the memory of the check.
set_option Elab.async false

/-! ### Words that put results on their way -/

/-- R41, R52: an instruction whose sources have to be uniform as its rule says, and which, where it meets no check, leaves the state as it was but
for its results, on their way with the rule's latency. -/
def Retires (i : Instr) (r : ResultRule) : Prop :=
  i.uni = r.uni ∧ ∀ s c g la, Issues s i c g la → exec i s = .next (s.after c.g r.lat (r.outs s c g la))

/-- A word whose body puts the results of a rule on their way. -/
theorem Retires.of_word {i : Instr} {r : ResultRule} (hu : i.uni = r.uni) (hl : i.latency = r.lat)
    (he : ∀ s, exec i s = commit s (word i (fun c g la s => retire c.g i.latency (r.outs s c g la) s) s)) : Retires i r := by
  refine ⟨hu, fun s c g la h => ?_⟩
  rw [he, word_issues h, commit_retire, hl]

/-- The bodies of the three forms of a computing word, by the results that they put on their way. -/
theorem laneWord_eq (i : Instr) (sc : Bool) (d : Reg) (k : Nat) (f : (Nat → Word) → Nat) (s : State) :
    laneWord i sc d k f s = word i (fun c g la s => retire c.g i.latency (laneOuts sc d k f s c g la) s) s := rfl
theorem fpWord_eq (i : Instr) (sc : Bool) (d : Reg) (f : Rm → (Nat → Word) → Nat × Flags) (s : State) :
    fpWord i sc d 1 f s = word i (fun c g la s => retire c.g i.latency (fpOuts sc d f s c g la) s) s := rfl
theorem srWord_eq (i : Instr) (d a b : Reg) (dst : Fmt) (n : Nat) (s : State) :
    srWord i d a b dst n s = word i (fun c g la s => retire c.g i.latency (srOuts d a b dst n s c g la) s) s := rfl

section
variable {i : Instr} {sc : Bool} {d : Reg} {lat : Nat}

theorem Retires.of_laneWord {k : Nat} {f : (Nat → Word) → Nat} (hu : i.uni = sc) (hl : i.latency = lat)
    (he : ∀ s, exec i s = commit s (laneWord i sc d k f s)) : Retires i ⟨sc, lat, laneOuts sc d k f⟩ :=
  .of_word hu hl fun s => (he s).trans (by rw [laneWord_eq])

theorem Retires.of_fpWord {f : Rm → (Nat → Word) → Nat × Flags} (hu : i.uni = sc) (hl : i.latency = lat)
    (he : ∀ s, exec i s = commit s (fpWord i sc d 1 f s)) : Retires i ⟨sc, lat, fpOuts sc d f⟩ :=
  .of_word hu hl fun s => (he s).trans (by rw [fpWord_eq])

theorem Retires.of_srWord {a b : Reg} {dst : Fmt} {n : Nat} (hu : i.uni = false) (hl : i.latency = lat)
    (he : ∀ s, exec i s = commit s (srWord i d a b dst n s)) : Retires i ⟨false, lat, srOuts d a b dst n⟩ :=
  .of_word hu hl fun s => (he s).trans (by rw [srWord_eq])

end

/-! ### Flags of results that set none -/

/-- Results without a flag leave no sticky bit on its way (R107). -/
theorem joinBits_replicate_empty (n : Nat) : joinBits (List.replicate n {}) = 0 := by
  have h : (List.replicate n ({} : Flags)).foldl Flags.join {} = {} := by
    induction n with
    | zero => rfl
    | succ n ih => exact ih
  rw [joinBits, h]
  rfl

/-- A word that sets no flag has the results of its lanes alone. -/
theorem fpOuts_of_no_flags (sc : Bool) (d : Reg) (f : (Nat → Word) → Nat) : fpOuts sc d (fun _ r => (f r, {})) = laneOuts sc d 1 f := by
  funext s c g la
  simp [fpOuts, joinBits_replicate_empty, outFlags]

/-! ### The rules of the floating-point words -/

theorem uni_of_fpRule {i : Instr} {r : ResultRule} (h : fpRule i = some r) : i.uni = r.uni := by
  cases i <;> cases h <;> exact Bool.or_false _

/-- R41: the opcodes 0x18 to 0x1C and 0x1E take 4 die cycles, and 0x1D takes 10. -/
theorem latency_of_fpRule {i : Instr} {r : ResultRule} (h : fpRule i = some r) : i.latency = r.lat := by
  cases i <;> cases h
  case fmulF32.refl t | fmulF16x2.refl t | fmulBf16x2.refl t =>
    have := t.toNat_lt
    exact latency_of _ 0x19 4 (by simp only [encodeNat, placed]; omega) rfl
  case ffmaF32.refl t | ffmaF16x2.refl t | ffmaBf16x2.refl t =>
    have := t.toNat_lt
    exact latency_of _ 0x1A 4 (by simp only [encodeNat, placed]; omega) rfl
  case fmin.refl t | fmax.refl t =>
    have := t.code_lt
    exact latency_of _ 0x1B 4 (by simp only [encodeNat, placed]; omega) rfl
  case fclass.refl => exact latency_of _ 0x1C 4 (by simp only [encodeNat, placed]; omega) rfl
  case fcmp.refl k =>
    have := k.code_lt
    exact latency_of _ 0x1C 4 (by simp only [encodeNat, placed]; omega) rfl
  case rcp.refl t | rsq.refl t | sqrt.refl t | exp2.refl t | log2.refl t | sin.refl t | cos.refl t | tanh.refl t | erf.refl t | ncdf.refl t |
      npdf.refl t =>
    have := t.code_lt
    exact latency_of _ 0x1D 10 (by simp only [encodeNat, placed]; omega) rfl
  case packE4m3F32.refl r | packE5m2F32.refl r | packE2m1F32.refl r =>
    have := r.code_lt
    exact latency_of _ 0x1E 4 (by simp only [encodeNat, placed]; omega) rfl
  case unpackF32E4m3.refl | unpackF32E5m2.refl | unpackF32E2m1.refl => exact latency_of _ 0x1E 4 (by simp only [encodeNat, placed]; omega) rfl
  case cvt.refl v r =>
    have := v.code_lt
    have := r.code_lt
    exact latency_of _ 0x1E 4 (by simp only [encodeNat, placed]; omega) rfl
  all_goals exact latency_of _ 0x18 4 (by simp only [encodeNat, placed]; omega) rfl

/-- R106 to R117: each floating-point word does what its rule says. -/
theorem retires_of_fpRule {i : Instr} {r : ResultRule} (h : fpRule i = some r) : Retires i r := by
  have hu := uni_of_fpRule h
  have hl := latency_of_fpRule h
  cases i <;> cases h
  case fclass.refl sc d a =>
    rw [← fpOuts_of_no_flags]
    exact .of_fpWord hu hl fun _ => rfl
  case fcmp.refl sc d a b k => exact .of_word hu hl fun _ => rfl
  case unpackF32E4m3.refl | unpackF32E5m2.refl | unpackF32E2m1.refl => exact .of_laneWord hu hl fun _ => rfl
  all_goals exact .of_fpWord hu hl fun _ => rfl

/-! ### The rules of the words that draw -/

theorem uni_of_drawRule {i : Instr} {r : ResultRule} (h : drawRule i = some r) : i.uni = r.uni := by
  cases i <;> cases h <;> rfl

/-- R41: the opcode 0x1F takes 4 die cycles, and 0x22 takes 6. -/
theorem latency_of_drawRule {i : Instr} {r : ResultRule} (h : drawRule i = some r) : i.latency = r.lat := by
  cases i <;> cases h
  case mcolSmp.refl => exact latency_of _ 0x22 6 (by simp only [encodeNat, placed]; omega) rfl
  all_goals exact latency_of _ 0x1F 4 (by simp only [encodeNat, placed]; omega) rfl

/-- R77, R119, R120, R130: each word that draws does what its rule says. -/
theorem retires_of_drawRule {i : Instr} {r : ResultRule} (h : drawRule i = some r) : Retires i r := by
  have hu := uni_of_drawRule h
  have hl := latency_of_drawRule h
  cases i <;> cases h
  case rngB128.refl | rngF32.refl | mcolSmp.refl => exact .of_word hu hl fun _ => rfl
  all_goals exact .of_srWord hu hl fun _ => rfl

/-- Settles O2: each word's meaning is the checks that all words share and then its results, on their way with the latency of its opcode. -/
theorem floatResults : Obligations.FloatResults := by
  unfold Obligations.FloatResults
  exact ⟨fun _ _ => retires_of_fpRule, fun _ _ => retires_of_drawRule⟩

/-! ### The words that the rules write out -/

/-- The word of an instruction decodes to it (R44). -/
theorem decode_of_encode {w : Word} {i : Instr} (hw : i.isWord = true) (he : encode false i = w) : decode w = .ok i := by
  obtain ⟨hd, -⟩ := encodingRoundTrip i false hw
  rw [← he, hd]

/-- Settles O59: each word is that of its instruction, and so decodes to it (`decode_of_encode`). -/
theorem writtenOutWords : Obligations.WrittenOutWords := by
  unfold Obligations.WrittenOutWords
  refine ⟨?_, ?_, ?_, ?_, ?_, ?_, ?_, ?_, ?_⟩ <;> exact decode_of_encode rfl rfl

end Sys2Proof.Machine
end

