-- ==== Sys2Proof/Proofs/MomentWords.lean ====
section
/-!
PROOF. The moment words in registers (R122 to R129): CheckVar on the live lanes and its fault, else the moments on their way with the flags; and the
words that read a moment's mean or variance.
-/

namespace Sys2Proof.Machine

-- One lemma after another, within the memory of the check.
set_option Elab.async false

/-! ### Words that write moments -/

section
variable (s : State) (c : Issue) (g : Group) (r : Nat → MomRes)

/-- R122: the lowest live lane whose variance CheckVar refuses, where NVF makes that a fault. -/
def Issue.negvarLane : Option Nat := if g.nvf then (c.voters g).find? fun l => badVar (r l).var else none

/-- R122, R123: the moments of the lanes, a refused variance replaced by 0, and the flags of the live lanes, VCL among them. -/
def Issue.momOuts (d : Reg) : List Out :=
  (c.on.flatMap fun l => outMom l d.toNat (r l).mean (if badVar (r l).var then 0 else (r l).var)) ++
    outFlags (joinBits ((c.voters g).map fun l => (r l).fl) + if (c.voters g).any fun l => badVar (r l).var then 32 else 0)

/-- The state after a word that writes moments. -/
def State.moments (d : Reg) (origin lat : Nat) : State :=
  match c.negvarLane g r with
  | some l => s.faults c { code := .negvar, cause := l % 64 + 64 * origin }
  | none => s.after c.g lat (c.momOuts g r d)

end

theorem negvarCause_eq (l origin : Nat) : negvarCause l origin = l % 64 + 64 * origin := by rw [negvarCause, Nat.mul_comm]

/-- A word that writes moments and meets no check of R53 applies CheckVar, and then faults or puts its moments on their way. -/
theorem commit_momWord {s : State} {i : Instr} {c : Issue} {g : Group} {la : Launch} (h : Issues s i c g la) (d : Reg) (origin : Nat)
    (f : State → Issue → Group → Nat → MomRes) :
    commit s (momWord i d origin f s) = .next (s.moments c g (f s c g) d origin i.latency) := by
  rw [momWord, word_issues h, State.moments, Issue.negvarLane]
  simp only [badLane, negvarCause_eq]
  change commit s (match (if g.nvf = true then (c.voters g).find? fun l => badVar (f s c g l).var else none) with
    | some l => raise c { code := .negvar, cause := l % 64 + 64 * origin } s
    | none => retire c.g i.latency (c.momOuts g (f s c g) d) s) = _
  split
  · rfl
  · exact commit_retire ..

/-- A word that `momRule` lists is no uniform word, has the latency of its opcode (R41: 0x20 takes 6 die cycles, 0x21 takes 10, 0x22 takes 6), and
means what its rule says. -/
theorem momRule_eq_some {i : Instr} {d : Reg} {origin lat : Nat} {f : State → Issue → Group → Nat → MomRes}
    (h : momRule i = some (d, origin, lat, f)) :
    i.uni = false ∧ i.latency = lat ∧ ∀ s, exec i s = commit s (momWord i d origin f s) := by
  unfold momRule at h
  split at h <;> cases h
  case h_6 | h_7 | h_8 | h_9 => exact ⟨rfl, latency_of _ 0x21 10 (by simp only [encodeNat, placed]; omega) rfl, fun _ => rfl⟩
  case h_10 => exact ⟨rfl, latency_of _ 0x22 6 (by simp only [encodeNat, placed]; omega) rfl, fun _ => rfl⟩
  all_goals exact ⟨rfl, latency_of _ 0x20 6 (by simp only [encodeNat, placed]; omega) rfl, fun _ => rfl⟩

/-! ### Words that read a mean or a variance -/

/-- R129: `mcol.mean` and `mcol.var` put what their rule says on its way. -/
theorem retires_of_collapseRule {i : Instr} {r : ResultRule} (h : collapseRule i = some r) : Retires i r := by
  unfold collapseRule at h
  split at h <;> cases h <;>
    exact .of_word rfl (latency_of _ 0x22 6 (by simp only [encodeNat, placed]; omega) rfl) fun _ => rfl

/-- Settles O4: a moment word is the checks that all words share, CheckVar, and then its fault or its results (`commit_momWord`). -/
theorem momentResults : Obligations.MomentResults := by
  unfold Obligations.MomentResults
  refine ⟨fun i d o lat f h => ?_, fun i r => retires_of_collapseRule⟩
  obtain ⟨huni, hlat, hexec⟩ := momRule_eq_some h
  refine ⟨huni, fun s c g la hi => ?_⟩
  have he : exec i s = .next (s.moments c g (f s c g) d o lat) := by rw [hexec, commit_momWord hi, hlat]
  split
  next l hl => rw [he, State.moments, Issue.negvarLane, hl]
  next hn => rw [he, State.moments, Issue.negvarLane, hn]; rfl

end Sys2Proof.Machine
end

