-- ==== Sys2Proof/Proofs/Accesses.lean ====
section
/-!
SUPPORT. What the operations of memory words leave: the race records (R179, R240), the accesses of a word on their way (R152, R285), bytes stored
in a memory, and the waiters that a plain write wakes (R103, R283).
-/

namespace Sys2Proof.Machine

-- One lemma after another, within the memory of the check.
set_option Elab.async false

/-! ### Parts for each item -/

theorem State.did_each_cons {α : Type} (s : State) (x : α) (xs : List α) (f : α → Part) :
    s.did (Part.each (x :: xs) f) = (s.did (f x)).did (Part.each xs f) := State.did_seq_cons ..
theorem State.did_each_one {α : Type} (s : State) (x : α) (f : α → Part) : s.did (Part.each [x] f) = s.did (f x) := State.did_each_cons ..

/-! ### Race records -/

section
variable {d : Dev} {g : Group} {la : Launch} {k : GKey}

theorem Dev.modBlock_rest (d : Dev) (t n : Nat) (f : Block → Block) : d.modBlock t n f = { d with blocks := (d.modBlock t n f).blocks } := by
  unfold Dev.modBlock
  split <;> rfl

/-- An access changes no records but those of races: a block's own, or those of the pad. -/
theorem Dev.touchRace_rest (d : Dev) (g : Group) (la : Launch) (a : LaneAccess) (k : RaceKind) :
    d.touchRace g la a k = { d with blocks := (d.touchRace g la a k).blocks, padRaces := (d.touchRace g la a k).padRaces } := by
  unfold Dev.touchRace
  split
  · rfl
  · split
    · rfl
    · rw [Dev.modBlock_rest]

theorem Dev.touched_rest (d : Dev) (g : Group) (la : Launch) (xs : List LaneAccess) (k : RaceKind) :
    d.touched g la xs k = { d with blocks := (d.touched g la xs k).blocks, padRaces := (d.touched g la xs k).padRaces } := by
  induction xs generalizing d with
  | nil => rfl
  | cons a xs ih =>
    show (d.touchRace g la a k).touched g la xs k = { d with
      blocks := ((d.touchRace g la a k).touched g la xs k).blocks, padRaces := ((d.touchRace g la a k).touched g la xs k).padRaces }
    rw [ih, Dev.touchRace_rest]

@[simp] theorem Dev.group?_touched (xs : List LaneAccess) (r : RaceKind) : (d.touched g la xs r).group? k = d.group? k := by
  rw [Dev.touched_rest]
  rfl

@[simp] theorem Dev.group?_touchRace (a : LaneAccess) (r : RaceKind) : (d.touchRace g la a r).group? k = d.group? k :=
  Dev.group?_touched [a] r

/-! ### Accesses and results on their way -/

@[simp] theorem Group.key_with (c : Issue) (counted acq rel : Bool) (near scope : Nat) (xs : List (LaneAccess × AccOp)) (dsts : List (Nat × Dest)) :
    (g.with_ c counted near acq rel scope xs dsts).key = g.key := rfl

/-- A word's accesses stand with those of its group, and no other record differs. -/
theorem Dev.issueAccesses_found {c : Issue} (hg : d.group? c.g = some g) (counted acq rel : Bool) (near scope : Nat)
    (xs : List (LaneAccess × AccOp)) (dsts : List (Nat × Dest)) :
    d.issueAccesses c counted near acq rel scope xs dsts = d.setGroup (g.with_ c counted near acq rel scope xs dsts) :=
  Dev.modGroup_found hg _

theorem Dev.group?_issueAccesses {c : Issue} (hg : d.group? c.g = some g) (counted acq rel : Bool) (near scope : Nat)
    (xs : List (LaneAccess × AccOp)) (dsts : List (Nat × Dest)) :
    (d.issueAccesses c counted near acq rel scope xs dsts).group? c.g = some (g.with_ c counted near acq rel scope xs dsts) := by
  rw [Dev.issueAccesses_found hg]
  exact Dev.group?_setGroup_of ((Group.key_with ..).trans (Dev.group?_key hg))

/-- Without a result nothing is put on its way. -/
@[simp] theorem Dev.retire_nil (d : Dev) (k : GKey) (lat : Nat) : d.retire k lat [] = d := by
  unfold Dev.retire
  split
  · rfl
  next g hg => exact Dev.setGroup_found hg

/-- Results put on their way in one act of the records are those of the part that does so. -/
theorem State.did_retire_dev (s : State) (x : Dev) (k : GKey) (lat : Nat) (outs : List Out) :
    State.did { s with dev := x } (retire k lat outs) = { s with dev := x.retire k lat outs } := by
  rw [State.did_retire, State.after]
  split
  next h => rw [List.isEmpty_iff.1 h, Dev.retire_nil]
  next => rfl

/-! ### The accesses that a statement names -/

section
variable {a : LaneAccess} {xs : List LaneAccess}

theorem LaneAccess.own.notTagged (h : a.own la g) : a.tagged = false := h.1
theorem LaneAccess.far.notTagged (h : a.far) : a.tagged = false := h.1
theorem LaneAccess.far.counted (h : a.far) : countedTarget a = true := h.2

/-- R152: an access of the group's own block memory is not counted. -/
theorem LaneAccess.own.notCounted (h : a.own la g) : countedTarget a = false := by
  obtain ⟨-, hspace, hstore⟩ := h
  simp [countedTarget, hspace, hstore]

theorem LaneAccess.own.atOnce (h : a.own la g) : a.atOnce = true := by simp [LaneAccess.atOnce, h.notCounted]
theorem LaneAccess.far.notAtOnce (h : a.far) : a.atOnce = false := by simp [LaneAccess.atOnce, h.notTagged, h.counted]

/-- What such an access reads is what block memory holds there. -/
theorem LaneAccess.own.accRead (h : a.own la g) (s : State) (vt : Nat) :
    s.accRead a vt = natAt s.blk (blkAddr la.tag g.key.block a.off) a.size := by
  obtain ⟨htag, -, hstore⟩ := h
  rw [State.accRead, htag, if_neg (by simp), hstore]
  rfl

theorem filter_counted_of_own (h : ∀ a ∈ xs, a.own la g) : xs.filter countedTarget = [] :=
  List.filter_eq_nil_iff.2 fun a ha => by simp [(h a ha).notCounted]
theorem filter_notCounted_of_own (h : ∀ a ∈ xs, a.own la g) : (xs.filter fun a => !countedTarget a) = xs :=
  List.filter_eq_self.2 fun a ha => by simp [(h a ha).notCounted]
theorem filter_counted_of_far (h : ∀ a ∈ xs, a.far) : xs.filter countedTarget = xs :=
  List.filter_eq_self.2 fun a ha => (h a ha).counted
theorem filter_notCounted_of_far (h : ∀ a ∈ xs, a.far) : (xs.filter fun a => !countedTarget a) = [] :=
  List.filter_eq_nil_iff.2 fun a ha => by simp [(h a ha).counted]

end

end

/-! ### Bytes stored -/

theorem State.setBank_setBank (s : State) (m n : Memory) (b : Bank) : (s.setBank m b).setBank n b = s.setBank n b := by cases b <;> rfl
theorem State.bank_setBank (s : State) (m : Memory) (b : Bank) : (s.setBank m b).bank b = m := by cases b <;> rfl
theorem State.setBank_bank (s : State) (b : Bank) : s.setBank (s.bank b) b = s := by cases b <;> rfl

/-- Stores of a list's bytes put them into the memory, and change nothing else. -/
theorem State.run_storeBytes (s : State) (b : Bank) (a : Nat) (bs : List Byte) :
    s.run (storeBytes b a bs) = s.setBank (putBytes (s.bank b) a bs) b := by
  induction bs generalizing s a with
  | nil => exact (s.setBank_bank b).symm
  | cons v vs ih =>
    show (s.setBank (cellSet (s.bank b) a v) b).run (storeBytes b (a + 1) vs) = _
    rw [ih, State.setBank_setBank, State.bank_setBank]
    rfl

/-! ### A plain write -/

/-- The records after a plain write of `n` bytes: what the releases there are, and which lanes it wakes. -/
def Dev.written (d : Dev) (by_ : Option GKey) (st : Store) (off n : Nat) : Dev := (d.plainOver st 0 off n).wake by_ st off n

/-- A plain write stores its bytes and changes no other memory. -/
theorem State.did_plainWrite (s : State) (by_ : Option GKey) (st : Store) (off : Nat) (data : List Byte) :
    s.did (plainWrite by_ st off data) = { s.setBank (putBytes (s.bank st.bank) (st.at_ off) data) st.bank with
      dev := s.dev.written by_ st off data.length } := by
  rw [State.did, plainWrite, State.run_append, State.run_storeBytes]
  rfl

/-- Outside every vintage a store is a plain write. -/
theorem accStore_of_not_tagged {a : LaneAccess} (h : a.tagged = false) (k : GKey) (vt launch : Nat) (data : List Byte) :
    accStore k a vt launch data = plainWrite (some k) a.store a.off data := by
  simp [accStore, h]

/-- A group in a list changed by a map that keeps the keys is the group found, changed. -/
theorem find?_map_group {f : Group → Group} (hf : ∀ g, (f g).key = g.key) (gs : List Group) (k : GKey) :
    (gs.map f).find? (fun g => decide (g.key = k)) = (gs.find? fun g => decide (g.key = k)).map f := by
  rw [List.find?_map]
  congr 2
  funext g
  simp [hf g]

/-- R103: a write wakes no lane of the writing group. -/
theorem Dev.group?_written_self (d : Dev) (k : GKey) (st : Store) (off n : Nat) : (d.written (some k) st off n).group? k = d.group? k := by
  refine (find?_map_group ?_ d.groups k).trans ?_
  · exact fun g => (apply_ite Group.key _ _ _).trans (ite_self _)
  show Option.map _ (d.group? k) = d.group? k
  cases hg : d.group? k with
  | none => rfl
  | some g => simp [Dev.group?_key hg]

end Sys2Proof.Machine
end

