-- ==== Sys2Proof/Proofs/MomentMemory.lean ====
section
/-!
PROOF. Moments and masks in memory (R131, R132, R162): what their words do with the accesses of their lanes, or with the one at the leader's address.
-/

namespace Sys2Proof.Machine

-- One lemma after another, within the memory of the check.
set_option Elab.async false

section
variable {s : State} {i : Instr} {c : Issue} {g : Group} {la : Launch} {d b : Reg} {o : BitVec 7} {f : FaultInfo} {xs : List LaneAccess}

/-! ### Moments -/

/-- R131: the accesses of a word that loads or stores moments, 8 bytes for each lane. -/
def State.momAccesses (s : State) (c : Issue) (g : Group) (la : Launch) (ls : List Nat) (pad : Bool) (b : Reg) (o : BitVec 7) (u : Use) :
    Except FaultInfo (List LaneAccess) :=
  s.accesses c g la ls pad (fun l => offAddr (srcV s.dev g c l b.toNat) o 8) 8 3 u

/-- R131: a word that stores moments faults as its lanes do, or stores each live lane's mean and variance. -/
theorem commit_mstWord (h : Issues s i c g la) (pad : Bool) : commit s (mstWord i d b o pad s) = .next (s.accessed c
    (s.momAccesses c g la (c.voters g) pad b o .write)
    fun xs => Part.when (xs ≠ []) (doStores c (xs.map fun a => (a, leBytes 8 (cellGet (g.lane a.lane).m d.toNat).toNat)))) := by
  rw [mstWord, word_issues h]
  change commit s (match s.momAccesses c g la (c.voters g) pad b o .write with | .error f => _ | .ok xs => _) = _
  cases s.momAccesses c g la (c.voters g) pad b o .write with
  | error f => rfl
  | ok xs => cases xs <;> rfl

/-- The lanes of a moment load that make no access: each receives 0. -/
def Issue.momZeros (c : Issue) (d : Reg) (xs : List LaneAccess) : List Out :=
  (c.on.filter fun m => !xs.any fun a => decide (a.lane = m)).flatMap fun m => outMom m d.toNat 0 0

theorem commit_mldWord_error {pad : Bool} (h : Issues s i c g la) (hx : s.momAccesses c g la c.on pad b o .read = .error f) :
    commit s (mldWord i d b o pad s) = .next (s.faults c f) := by
  rw [mldWord, word_issues h]
  change commit s (match s.momAccesses c g la c.on pad b o .read with | .error f => _ | .ok xs => _) = _
  rw [hx]
  rfl

/-- The records once the moment loads of the pad or the gang window are on their way; the other lanes land after 12 die cycles (R153). -/
def State.momLoads (s : State) (c : Issue) (g : Group) (la : Launch) (d : Reg) (xs : List LaneAccess) : Dev :=
  (s.dev.touched g la xs .other).issueAccesses c true (s.dev.nearOf g (c.momZeros d xs)) false false 0
    (xs.map fun a => (a, .loadMom g.nvf none [⟨a.lane, .m d.toNat, 0⟩])) (xs.map fun a => (a.lane, .m d.toNat))

/-- R132: in the pad or the gang window the moments are counted loads on their way. -/
theorem commit_mldWord_far {pad : Bool} (h : Issues s i c g la) (hx : s.momAccesses c g la c.on pad b o .read = .ok xs) (hn : xs ≠ [])
    (hf : ∀ a ∈ xs, a.far) :
    commit s (mldWord i d b o pad s) = .next (State.did { s with dev := s.momLoads c g la d xs } (retire c.g 12 (c.momZeros d xs))) := by
  have hops : (xs.map fun a => (a, AccOp.loadMom g.nvf (if a.tagged then some (s.accRead a g.vt) else none) [⟨a.lane, .m d.toNat, 0⟩])) =
      xs.map fun a => (a, .loadMom g.nvf none [⟨a.lane, .m d.toNat, 0⟩]) :=
    List.map_congr_left fun a ha => by simp [(hf a ha).notTagged]
  rw [mldWord, word_issues h, State.did_retire_dev]
  change commit s (match s.momAccesses c g la c.on pad b o .read with | .error f => _ | .ok xs => _) = _
  rw [hx]
  simp only [filter_notCounted_of_far hf, filter_counted_of_far hf, hops]
  simp [hn, outFlags, commit, State.momLoads, Issue.momZeros, Dev.touched]

/-- R122, R132: in the block's own memory CheckVar looks at every variance, and faults or puts the moments on their way with 12 die cycles. -/
theorem commit_mldWord_own {pad : Bool} (h : Issues s i c g la) (hx : s.momAccesses c g la c.on pad b o .read = .ok xs)
    (ho : ∀ a ∈ xs, a.own la g) :
    let val (a : LaneAccess) : Nat := natAt s.blk (blkAddr la.tag g.key.block a.off) a.size
    let bad (a : LaneAccess) : Bool := badVar (val a / 2 ^ 32)
    commit s (mldWord i d b o pad s) = .next (match (if g.nvf then xs.find? fun a => g.isLive a.lane && bad a else none) with
      | some a => s.faults c { code := .negvar, faddr := a.addr, cause := a.lane % 64 + 128 }
      | none => { s with dev := (s.dev.touched g la xs .other).retire c.g 12 (c.momZeros d xs ++
          (xs.flatMap fun a => outMom a.lane d.toNat (val a) (if bad a then 0 else val a / 2 ^ 32)) ++
          outFlags (if xs.any fun a => g.isLive a.lane && bad a then 32 else 0)) }) := by
  intro val bad
  have hval : ∀ a ∈ xs, s.accRead a g.vt = val a := fun a ha => (ho a ha).accRead s g.vt
  have hfind : (xs.find? fun a => g.isLive a.lane && badVar (s.accRead a g.vt / 2 ^ 32)) = xs.find? fun a => g.isLive a.lane && bad a :=
    List.find?_congr fun a ha => by rw [hval a ha]
  have hany : (xs.any fun a => g.isLive a.lane && badVar (s.accRead a g.vt / 2 ^ 32)) = xs.any fun a => g.isLive a.lane && bad a := by
    rw [← List.isSome_find?, hfind, List.isSome_find?]
  have houts : (xs.flatMap fun a => outMom a.lane d.toNat (s.accRead a g.vt)
      (if badVar (s.accRead a g.vt / 2 ^ 32) then 0 else s.accRead a g.vt / 2 ^ 32)) =
      xs.flatMap fun a => outMom a.lane d.toNat (val a) (if bad a then 0 else val a / 2 ^ 32) :=
    List.flatMap_congr fun a ha => by rw [hval a ha]
  rw [mldWord, word_issues h]
  change commit s (match s.momAccesses c g la c.on pad b o .read with | .error f => _ | .ok xs => _) = _
  rw [hx]
  simp only [filter_notCounted_of_own ho, filter_counted_of_own ho, hfind, hany, houts]
  cases (if g.nvf = true then xs.find? fun a => g.isLive a.lane && bad a else none) <;> rfl

/-- The moment words of the pad and of block memory differ in where their addresses lie alone. -/
theorem exec_mst (pad : Bool) : exec (if pad then .mstPad d b o else .mstBlk d b o) s =
    commit s (mstWord (if pad then .mstPad d b o else .mstBlk d b o) d b o pad s) := by cases pad <;> rfl
theorem exec_mld (pad : Bool) : exec (if pad then .mldPad d b o else .mldBlk d b o) s =
    commit s (mldWord (if pad then .mldPad d b o else .mldBlk d b o) d b o pad s) := by cases pad <;> rfl

/-! ### Masks -/

/-- R162: the one access of a mask word, at the leader's address. -/
def State.maskAccess (s : State) (c : Issue) (g : Group) (la : Launch) (ld : Nat) (pad : Bool) (b : Reg) (o : BitVec 7) (u : Use) :
    Except FaultInfo (List LaneAccess) :=
  s.accesses c g la [ld] pad (fun _ => offAddr (srcV s.dev g c ld b.toNat) o (g.width / 8)) (g.width / 8) 7 u

theorem Group.leader_none (h : c.voters g = []) : g.leader c.on = none := by
  simpa [Group.leader, Issue.voters, List.filter_eq_nil_iff] using h

theorem exec_stMask_none {y : Bool} (h : Issues s (.stMask d b o y) c g la) (hv : c.voters g = []) : exec (.stMask d b o y) s = .next s := by
  show execStMask d b o y s = _
  rw [execStMask, word_issues h]
  simp only [Group.leader_none hv]
  rfl

theorem exec_ldMask_none {y : Bool} (h : Issues s (.ldMask d b o y) c g la) (hv : c.voters g = []) : exec (.ldMask d b o y) s = .next s := by
  show execLdMask d b o y s = _
  rw [execLdMask, word_issues h]
  simp only [Group.leader_none hv]
  rfl

/-- The bits of the qualifying lanes, and those of them whose predicate is true. -/
def Issue.maskBits (c : Issue) (g : Group) : Nat := natSum ((c.voters g).map fun k => 2 ^ k)
def Issue.dataBits (c : Issue) (g : Group) (d : Reg) : Nat := natSum (((c.voters g).filter fun k => (g.lane k).predF d.toNat).map fun k => 2 ^ k)

/-- What `st.mask` does with its access: at once in the block's own memory or in a vintage, else on its way. -/
def storeMask (c : Issue) (g : Group) (la : Launch) (d : Reg) (a : LaneAccess) : Part := fun s =>
  if a.atOnce then
    Part.seq [Part.mod fun x => x.touchRace g la a .plainWrite,
      execStMask.maskNow c g la a (c.maskBits g) (c.dataBits g d) (s.accRead a g.vt)] s
  else [.dev ((s.dev.touchRace g la a .plainWrite).issueAccesses c false 0 false false 0 [(a, .storeMask (c.maskBits g) (c.dataBits g d))] [])]

/-- The predicates that a counted `ld.mask` gives, by lane. -/
def Issue.maskDests (c : Issue) (d : Reg) : List (Nat × Nat) := if d.toNat % 16 = 15 then [] else c.on.map fun k => (k, d.toNat)

/-- What `ld.mask` does with its access: it is counted, or its bits are on their way to the predicates. -/
def loadMask (c : Issue) (g : Group) (la : Launch) (d : Reg) (a : LaneAccess) : Part := fun s =>
  if countedTarget a then
    [.dev ((s.dev.touchRace g la a .other).issueAccesses c true 0 false false 0
      [(a, .loadMask (if a.tagged then some (s.accRead a g.vt) else none) (c.maskDests d))] ((c.maskDests d).map fun e => (e.1, .p e.2)))]
  else [.dev ((s.dev.touchRace g la a .other).retire c.g 12 (c.on.flatMap fun k => outPred k d.toNat (bitAt (s.accRead a g.vt) k)))]

variable {ld : Nat} {a : LaneAccess} {y : Bool}

/-- A mask word with a leader faults as its access does, or does what it does with it. -/
theorem exec_stMask (h : Issues s (.stMask d b o y) c g la) (hld : g.leader c.on = some ld) :
    exec (.stMask d b o y) s = .next (s.accessed c (s.maskAccess c g la ld y b o .write) fun xs => Part.each xs (storeMask c g la d)) := by
  show execStMask d b o y s = _
  rw [execStMask, word_issues h]
  simp only [hld]
  change commit s (match s.maskAccess c g la ld y b o .write with | .error f => _ | .ok xs => _) = _
  cases s.maskAccess c g la ld y b o .write <;> rfl

theorem exec_ldMask (h : Issues s (.ldMask d b o y) c g la) (hld : g.leader c.on = some ld) :
    exec (.ldMask d b o y) s = .next (s.accessed c (s.maskAccess c g la ld y b o .read) fun xs => Part.each xs (loadMask c g la d)) := by
  show execLdMask d b o y s = _
  rw [execLdMask, word_issues h]
  simp only [hld]
  change commit s (match s.maskAccess c g la ld y b o .read with | .error f => _ | .ok xs => _) = _
  cases s.maskAccess c g la ld y b o .read <;> rfl

theorem exec_stMask_one (h : Issues s (.stMask d b o y) c g la) (hld : g.leader c.on = some ld)
    (hx : s.maskAccess c g la ld y b o .write = .ok [a]) : exec (.stMask d b o y) s = .next (s.did (storeMask c g la d a)) := by
  rw [exec_stMask h hld, hx, State.accessed, State.did_each_one]
theorem exec_ldMask_one (h : Issues s (.ldMask d b o y) c g la) (hld : g.leader c.on = some ld)
    (hx : s.maskAccess c g la ld y b o .read = .ok [a]) : exec (.ldMask d b o y) s = .next (s.did (loadMask c g la d a)) := by
  rw [exec_ldMask h hld, hx, State.accessed, State.did_each_one]

/-- A mask stored in the pad or the gang window is on its way. -/
theorem did_storeMask_far (hf : a.far) : s.did (storeMask c g la d a) = s.withDev fun x =>
    (x.touchRace g la a .plainWrite).issueAccesses c false 0 false false 0 [(a, .storeMask (c.maskBits g) (c.dataBits g d))] [] := by
  simp only [State.did, storeMask, hf.notAtOnce]
  rfl

/-- A mask loaded from the pad or the gang window is a counted load on its way. -/
theorem did_loadMask_far (hf : a.far) : s.did (loadMask c g la d a) = s.withDev fun x =>
    (x.touchRace g la a .other).issueAccesses c true 0 false false 0 [(a, .loadMask none (c.maskDests d))]
      ((c.maskDests d).map fun e => (e.1, .p e.2)) := by
  simp only [State.did, loadMask, hf.counted, hf.notTagged]
  rfl

/-- A mask loaded from the block's own memory is on its way to the predicates with 12 die cycles. -/
theorem did_loadMask_own (ho : a.own la g) : s.did (loadMask c g la d a) = s.withDev fun x =>
    (x.touched g la [a] .other).retire c.g 12 (c.on.flatMap fun k =>
      outPred k d.toNat (bitAt (natAt s.blk (blkAddr la.tag g.key.block a.off) a.size) k)) := by
  simp only [State.did, loadMask, ho.notCounted, ho.accRead]
  rfl

/-- The bytes of a mask that hold a bit of a qualifying lane, put into a memory; the others stay. -/
def putMask (m : Memory) (at_ mask new : Nat) (ks : List Nat) : Memory :=
  ks.foldl (fun m k => if mask / 2 ^ (8 * k) % 2 ^ 8 = 0 then m else putBytes m (at_ + k) [BitVec.ofNat 8 (new / 2 ^ (8 * k))]) m

/-- What writes byte `k` of a mask at once, where it holds a bit of a qualifying lane. -/
def maskByte (c : Issue) (g : Group) (la : Launch) (a : LaneAccess) (mask new k : Nat) : Part :=
  if mask / 2 ^ (8 * k) % 2 ^ 8 = 0 then Part.none
  else accStore c.g { a with off := a.off + k, size := 1 } g.vt la.tag [BitVec.ofNat 8 (new / 2 ^ (8 * k))]

/-- A byte of a mask in the block's own memory is put there, and the writing group stays as it is (R103). -/
theorem did_maskByte (ho : a.own la g) (mask new k : Nat) (s : State) : ∃ x, x.group? c.g = s.dev.group? c.g ∧
    s.did (maskByte c g la a mask new k) = { s with blk := putMask s.blk (blkAddr la.tag g.key.block a.off) mask new [k], dev := x } := by
  obtain ⟨htag, -, hstore⟩ := ho
  by_cases h0 : mask / 2 ^ (8 * k) % 2 ^ 8 = 0
  · refine ⟨s.dev, rfl, ?_⟩
    rw [maskByte, putMask, if_pos h0, List.foldl_cons, if_pos h0]
    rfl
  · refine ⟨_, Dev.group?_written_self s.dev c.g a.store (a.off + k) 1, ?_⟩
    rw [maskByte, if_neg h0, accStore_of_not_tagged (a := { a with off := a.off + k, size := 1 }) htag, State.did_plainWrite]
    simp only [hstore, putMask, h0, List.foldl, if_false, blkAddr, Nat.add_assoc]
    rfl

/-- So are all of them, one after another. -/
theorem did_maskBytes (ho : a.own la g) (mask new : Nat) (ks : List Nat) (s : State) : ∃ x, x.group? c.g = s.dev.group? c.g ∧
    s.did (Part.each ks (maskByte c g la a mask new)) =
      { s with blk := putMask s.blk (blkAddr la.tag g.key.block a.off) mask new ks, dev := x } := by
  induction ks generalizing s with
  | nil => exact ⟨s.dev, rfl, rfl⟩
  | cons k ks ih =>
    obtain ⟨x, hx, ex⟩ := did_maskByte (c := c) ho mask new k s
    obtain ⟨y, hy, ey⟩ := ih (s.did (maskByte c g la a mask new k))
    rw [ex] at hy
    refine ⟨y, hy.trans hx, ?_⟩
    rw [State.did_each_cons]
    refine ey.trans ?_
    rw [ex]
    rfl

/-- A mask stored in the block's own memory: its bytes are written at once, from what stood there before (R162). -/
theorem did_storeMask_own (hg : s.dev.group? c.g = some g) (ho : a.own la g) :
    let at_ := blkAddr la.tag g.key.block a.off
    ∃ x, x.group? c.g = some g ∧ s.did (storeMask c g la d a) = { s with
      blk := putMask s.blk at_ (c.maskBits g) (mergeMask (natAt s.blk at_ a.size) (c.maskBits g) (c.dataBits g d) a.size) (countFrom 0 a.size)
      dev := x } := by
  intro at_
  obtain ⟨x, hx, ex⟩ := did_maskBytes (c := c) ho (c.maskBits g) (mergeMask (natAt s.blk at_ a.size) (c.maskBits g) (c.dataBits g d) a.size)
    (countFrom 0 a.size) (s.withDev fun x => x.touchRace g la a .plainWrite)
  refine ⟨x, hx.trans ((Dev.group?_touchRace a _).trans hg), Eq.trans ?_ ex⟩
  rw [State.did, storeMask, if_pos ho.atOnce, ho.accRead]
  exact State.did_seq_pair ..

end

/-- Settles O15: the two forms of a moment access and of a mask access, each by where its accesses lie. -/
theorem momentAndMaskAccesses : Obligations.MomentAndMaskAccesses := by
  unfold Obligations.MomentAndMaskAccesses
  refine ⟨⟨fun pad d b o s c g la h => ?_, fun pad d b o s c g la f h hx => ?_, fun d b o s c g la xs h hx hn hf => ?_,
      fun d b o s c g la xs h hx ho => commit_mldWord_own h hx ho⟩,
    fun d b o y s c g la => exec_stMask_none, fun d b o y s c g la => exec_ldMask_none, fun d b o y s c g la ld f h hld hx => ?_,
    fun d b o y s c g la ld f h hld hx => ?_, fun d b o s c g la ld a h hld hx hf => ?_, fun d b o s c g la ld a h hld hx ho => ?_,
    fun d b o s c g la ld a h hld hx ho => ?_, fun d b o s c g la ld a h hld hx hf => ?_⟩
  · rw [exec_mst]
    exact commit_mstWord h pad
  · rw [exec_mld]
    exact commit_mldWord_error h hx
  · intro zero
    refine ⟨s.momLoads c g la d xs, commit_mldWord_far h hx hn hf, ?_⟩
    rw [State.momLoads, Dev.group?_issueAccesses (by simpa using h.group)]
    simp only [Dev.nearOf, List.isEmpty_iff]
    rfl
  · rw [exec_stMask h hld, State.maskAccess, hx]
    rfl
  · rw [exec_ldMask h hld, State.maskAccess, hx]
    rfl
  · rw [exec_stMask_one h hld hx, did_storeMask_far hf]
    exact ⟨_, rfl, Dev.group?_issueAccesses ((Dev.group?_touchRace a _).trans h.group) ..⟩
  · rw [exec_ldMask_one h hld hx, did_loadMask_own ho]
    rfl
  · obtain ⟨x, hg, e⟩ := did_storeMask_own (d := d) h.group ho
    rw [exec_stMask_one h hld hx, e]
    exact ⟨x, rfl, hg⟩
  · rw [exec_ldMask_one h hld hx, did_loadMask_far hf]
    exact ⟨_, rfl, Dev.group?_issueAccesses ((Dev.group?_touchRace a _).trans h.group) ..⟩

end Sys2Proof.Machine
end

