-- ==== Sys2Proof/Proofs/Performed.lean ====
section
/-!
PROOF. An access of a group that is on its way (R132, R153, R258, R270, R285): when it is performed, what it leaves in the registers, and which bytes
it changes.
-/

namespace Sys2Proof.Machine

-- One lemma after another, within the memory of the check.
set_option Elab.async false

/-! ### Parts that change no byte of the device -/

/-- No byte of the pad, of main memory, of the block memories and of the spill stacks differs. -/
def State.SameBytes (s t : State) : Prop := t.pad = s.pad ∧ t.main = s.main ∧ t.blk = s.blk ∧ t.stk = s.stk

theorem State.SameBytes.refl (s : State) : s.SameBytes s := ⟨rfl, rfl, rfl, rfl⟩
theorem State.SameBytes.host_dev (s : State) (h : Memory) (d : Dev) : s.SameBytes { s with host := h, dev := d } := ⟨rfl, rfl, rfl, rfl⟩

theorem State.SameBytes.trans {s t u : State} (h : s.SameBytes t) (h' : t.SameBytes u) : s.SameBytes u := by
  obtain ⟨h1, h2, h3, h4⟩ := h
  obtain ⟨h1', h2', h3', h4'⟩ := h'
  exact ⟨h1'.trans h1, h2'.trans h2, h3'.trans h3, h4'.trans h4⟩

/-- A part that changes the records and the host's memory alone, from any state. -/
def Part.Quiet (p : Part) : Prop := ∀ s : State, s.SameBytes (s.did p)

theorem Part.Quiet.none : Part.none.Quiet := State.SameBytes.refl
theorem Part.Quiet.mod (f : Dev → Dev) : (Part.mod f).Quiet := fun s => .host_dev s _ _

theorem Part.Quiet.seq {ps : List Part} (h : ∀ p ∈ ps, p.Quiet) : (Part.seq ps).Quiet := by
  induction ps with
  | nil => exact State.SameBytes.refl
  | cons p ps ih =>
    rw [List.forall_mem_cons] at h
    intro s
    rw [State.did_seq_cons]
    exact (h.1 s).trans (ih h.2 _)

theorem Part.Quiet.each {α : Type} {xs : List α} {f : α → Part} (h : ∀ x ∈ xs, (f x).Quiet) : (Part.each xs f).Quiet :=
  .seq (by simpa using h)

theorem Part.Quiet.andThen {p q : Part} (hp : p.Quiet) (hq : q.Quiet) : (p.andThen q).Quiet := fun s => by
  rw [State.did_andThen]
  exact (hp s).trans (hq _)

theorem Part.Quiet.ite {c : Prop} [Decidable c] {p q : Part} (hp : p.Quiet) (hq : q.Quiet) : (if c then p else q).Quiet := by
  split <;> assumption

theorem traceRec_quiet {job die type a0 a1 : Nat} : (traceRec job die type a0 a1).Quiet := fun s => by
  obtain ⟨h, d, e, -⟩ := s.did_traceRec job die type a0 a1
  rw [e]
  exact .host_dev s h d

/-- A fault changes records alone, and its trace record stands in the host's memory (R181 to R183, R379). -/
theorem takeFault_quiet {k : GKey} {ls : List Nat} {loc : Pc} {precise : Bool} {f : FaultInfo} : (takeFault k ls loc precise f).Quiet := fun s => by
  have nothing (h : takeFault k ls loc precise f s = []) : s.SameBytes (s.did (takeFault k ls loc precise f)) := by
    rw [State.did, h]
    exact .refl s
  cases hg : s.dev.group? k with
  | none => exact nothing (by simp [takeFault, hg])
  | some g =>
    cases hl : s.dev.launch? k.launch with
    | none => exact nothing (by simp [takeFault, hg, hl])
    | some la =>
      cases hj : s.dev.job? la.job with
      | none => exact nothing (by simp [takeFault, hg, hl, hj])
      | some j =>
        obtain ⟨h, trc, dies, e⟩ := did_takeFault (ls := ls) (loc := loc) (precise := precise) (f := f) hg hl hj
        rw [e]
        exact .host_dev s _ _

theorem takeWatch_quiet {k : GKey} {loc : Pc} {hit : Nat × Nat × Nat × Nat} : (takeWatch k loc hit).Quiet := fun s => by
  rw [State.did, takeWatch]
  split
  · refine Part.Quiet.seq (List.forall_mem_cons.2 ⟨?_, List.forall_mem_singleton.2 ?_⟩) s
    · exact .ite takeFault_quiet (.andThen (.mod _) traceRec_quiet)
    · exact .ite (.mod _) .none
  · exact .refl s

/-- The reports of watchpoints change no byte of the device (R373, R374). -/
theorem settleWatch_quiet (k : GKey) : (settleWatch k).Quiet := fun s => by
  rw [State.did, settleWatch]
  split
  · exact .refl s
  · dsimp only
    split
    · exact .refl s
    · refine Part.Quiet.seq (List.forall_mem_cons.2 ⟨.mod _, List.forall_mem_singleton.2 (.each fun w _ => ?_)⟩) s
      split
      · exact takeWatch_quiet
      · exact .none

/-! ### Performing one access -/

section
variable {s : State} {k : GKey} {id : Nat} {g : Group} {la : Launch} {a b : Access}

/-- R258: an `ld.vtw` whose tag has retired leaves its fault for the word that retires the load. -/
theorem did_performOne_orphaned {t : Nat} (h : s.vtOrphaned la.tag a = some t) : s.did (performOne k la a) = s.withDev fun d =>
    d.modGroup k fun g => (g.dropAccess a.id).defer ⟨a.seq, a.lane, 0x23, a.faddr la, pcSlot a.loc, t, false⟩ := by
  simp only [State.did, performOne, h]
  rfl

/-- The state in which an access acts: the writes that watchpoints match are noted, and it has left the queue. -/
def State.dequeued (s : State) (k : GKey) (job : Nat) (a : Access) : State :=
  (s.did (noteWatch k job a (s.written a))).withDev fun d => d.modGroup k fun g => g.dropAccess a.id

theorem did_performOne (h : s.vtOrphaned la.tag a = none) :
    s.did (performOne k la a) = ((s.dequeued k la.job a).did (performOp k la a)).did (settleWatch k) := by
  rw [State.did, performOne, h]
  simp only
  exact (State.did_seq_cons ..).trans ((State.did_seq_cons ..).trans (State.did_seq_pair ..))

/-- The matched writes are records of the group. -/
theorem State.dequeued_rest (s : State) (k : GKey) (job : Nat) (a : Access) :
    s.dequeued k job a = { s with dev := (s.dequeued k job a).dev } := by
  rw [State.dequeued, State.did, noteWatch]
  split <;> rfl

theorem momLoad_quiet {nvf : Bool} {m : Nat} {ss : List Slot} : (momLoad k la a nvf m ss).Quiet := fun s => by
  rw [State.did, momLoad]
  dsimp only
  split_ifs <;> exact .host_dev s _ _

/-- What an access does that writes nothing is a change of records alone. -/
theorem performOp_quiet (h : a.op.writes = false) : (performOp k la a).Quiet := fun s => by
  cases ho : a.op with
  | store | storeMask | atom | acc | cas => simp [ho, AccOp.writes] at h
  | value | load | loadMask | loadVt =>
    simp only [State.did, performOp, ho]
    exact .host_dev s _ _
  | loadMom nvf known ss =>
    simp only [State.did, performOp, ho]
    exact momLoad_quiet s
  | due =>
    simp only [State.did, performOp, ho]
    exact .refl s

/-- Without matched writes there is no report to make. -/
theorem did_settleWatch_none (hg : s.dev.group? k = some g) (hw : g.watch = []) : s.did (settleWatch k) = s := by
  simp [State.did, settleWatch, hg, hw]

/-- R285: an access that writes nothing changes no byte. -/
theorem performOne_quiet (h : a.op.writes = false) : (performOne k la a).Quiet := fun s => by
  cases ht : s.vtOrphaned la.tag a with
  | some t =>
    rw [did_performOne_orphaned ht]
    exact .host_dev s _ _
  | none =>
    rw [did_performOne ht, State.dequeued_rest]
    exact (State.SameBytes.host_dev s _ _).trans ((performOp_quiet h _).trans (settleWatch_quiet k _))

/-! ### The accesses that are performed together -/

/-- R153: the accesses performed with one that writes nothing write nothing either. -/
theorem Group.sector_reads (ha : a.op.writes = false) (hb : b ∈ g.sector a) : b.op.writes = false := by
  unfold Group.sector at hb
  split at hb
  · simp only [List.mem_filter, Bool.and_eq_true, Access.reads, Bool.not_eq_true'] at hb
    exact hb.2.1.2
  · rw [List.mem_singleton.1 hb, ha]

/-- R153: the reads of one word in one sector of the pad. -/
theorem Group.mem_sector (hs : a.store = .pad) (ha : a.op.writes = false) : b ∈ g.sector a ↔
    b ∈ g.acc ∧ b.seq = a.seq ∧ b.store = .pad ∧ b.op.writes = false ∧ b.addr / 32 = a.addr / 32 := by
  simp [Group.sector, Access.reads, hs, ha, and_assoc]

theorem Group.sector_of_store {bs : List Byte} (h : a.op = .store bs) : g.sector a = [a] := by
  simp [Group.sector, Access.reads, h, AccOp.writes]

/-- R285: the order among a group's accesses that have still to act in memory. -/
theorem Group.mayPerform_false (hb : b ∈ g.acc) (hid : b.id < a.id) (ha : a.taken = false) (hbt : b.taken = false)
    (h : a.samePlace b = true ∨ b.acq = true ∨ a.rel = true) : g.mayPerform a = false := by
  have hbefore : b ∈ g.acc.filter fun x => decide (x.id < a.id) := List.mem_filter.2 ⟨hb, by simpa using hid⟩
  have horder : (a.samePlace b || b.acq || a.rel) = true := by simpa only [Bool.or_eq_true, or_assoc] using h
  rw [Group.mayPerform, Access.mayFollow, ha, Bool.false_or]
  exact List.all_eq_false.2 ⟨b, hbefore, by rw [hbt, horder]; decide⟩

/-! ### When they are performed -/

/-- R258, R270, R285: whether an access and those performed with it may be performed now. -/
def State.mayLand (s : State) (k : GKey) (g : Group) (la : Launch) (a : Access) : Prop :=
  g.run ≠ .faulted ∧ (∃ x, (g.sector a).head? = some x ∧ g.mayPerform x = true) ∧
    ∀ y ∈ g.sector a, y.isDue = false ∧ s.vtWaits la.tag y = false ∧ s.dev.readGated k y = false

theorem State.mayLand_iff : s.mayLand k g la a ↔ ¬ (g.run = .faulted ∨ (g.sector a).any Access.isDue = true ∨
    (!((g.sector a).head?.any g.mayPerform)) = true ∨ (g.sector a).any (s.vtWaits la.tag) = true ∨
    (g.sector a).any (s.dev.readGated k) = true) := by
  simp only [State.mayLand, not_or, List.any_eq_true, Option.any_eq_true, Bool.not_eq_true', Bool.not_eq_false, Bool.not_eq_true, not_exists, not_and,
    forall_and]
  tauto

section
variable (hg : s.dev.group? k = some g) (hl : s.dev.launch? k.launch = some la) (ha : (g.acc.find? fun x => decide (x.id = id)) = some a)
include hg hl ha

theorem did_performAccess (h : s.mayLand k g la a) : s.did (performAccess k id) = s.did (Part.each (g.sector a) (performOne k la)) := by
  simp only [State.did, performAccess, hg, hl, ha]
  rw [if_neg (State.mayLand_iff.1 h)]

theorem did_performAccess_waits (h : ¬ s.mayLand k g la a) : s.did (performAccess k id) = s := by
  simp only [State.did, performAccess, hg, hl, ha]
  rw [if_pos (not_not.1 (mt State.mayLand_iff.2 h))]
  rfl

end

/-- R285: where an access writes nothing, nothing performed with it changes a byte. -/
theorem performAccess_quiet (hg : s.dev.group? k = some g) (ha : (g.acc.find? fun x => decide (x.id = id)) = some a) (hr : a.op.writes = false) :
    s.SameBytes (s.did (performAccess k id)) := by
  cases hl : s.dev.launch? k.launch with
  | none =>
    simp only [State.did, performAccess, hg, hl]
    exact .refl s
  | some la =>
    by_cases h : s.mayLand k g la a
    · rw [did_performAccess hg hl ha h]
      exact Part.Quiet.each (fun b hb => performOne_quiet (Group.sector_reads hr hb)) s
    · rw [did_performAccess_waits hg hl ha h]
      exact .refl s

/-! ### The completion of a load (R153) -/

theorem exec_loadComplete_gone (hg : s.dev.group? k = none) : exec (.loadComplete k id) s = .next s := by
  show execLoadComplete k id s = _
  simp [execLoadComplete, hg, commit]

/-- A store is not a load that completes. -/
theorem exec_loadComplete_store (hg : s.dev.group? k = some g) (h : ∀ a, (g.acc.find? fun x => decide (x.id = id)) = some a →
    (∃ bs, a.op = .store bs) ∨ ∃ m d, a.op = .storeMask m d) : exec (.loadComplete k id) s = .next s := by
  show execLoadComplete k id s = _
  cases ha : g.acc.find? fun x => decide (x.id = id) with
  | none => simp [execLoadComplete, hg, ha, commit]
  | some a => rcases h a ha with ⟨bs, ho⟩ | ⟨m, d, ho⟩ <;> simp [execLoadComplete, hg, ha, ho, commit]

theorem exec_loadComplete (hg : s.dev.group? k = some g) (ha : (g.acc.find? fun x => decide (x.id = id)) = some a)
    (h1 : ∀ bs, a.op ≠ .store bs) (h2 : ∀ m d, a.op ≠ .storeMask m d) : exec (.loadComplete k id) s = .next (s.did (performAccess k id)) := by
  show execLoadComplete k id s = _
  simp only [execLoadComplete, hg, ha]
  cases ho : a.op with
  | store bs => exact absurd ho (h1 bs)
  | storeMask m d => exact absurd ho (h2 m d)
  | load | loadMom | loadMask | atom | acc | cas | loadVt | value | due => rfl

theorem exec_loadComplete_read (hg : s.dev.group? k = some g) (ha : (g.acc.find? fun x => decide (x.id = id)) = some a) (hr : a.op.writes = false) :
    exec (.loadComplete k id) s = .next (s.did (performAccess k id)) :=
  exec_loadComplete hg ha (fun bs h => by simp [h, AccOp.writes] at hr) fun m d h => by simp [h, AccOp.writes] at hr

/-- An access that may not be performed now stays where it is. -/
theorem exec_loadComplete_waits (hg : s.dev.group? k = some g) (hl : s.dev.launch? k.launch = some la)
    (ha : (g.acc.find? fun x => decide (x.id = id)) = some a) (h : ¬ s.mayLand k g la a) : exec (.loadComplete k id) s = .next s := by
  by_cases hs : (∃ bs, a.op = .store bs) ∨ ∃ m d, a.op = .storeMask m d
  · exact exec_loadComplete_store hg fun b hb => by rwa [← Option.some.inj (ha.symm.trans hb)]
  · push Not at hs
    rw [exec_loadComplete hg ha hs.1 hs.2, did_performAccess_waits hg hl ha h]

/-! ### What lands in registers -/

@[simp] theorem Group.key_dropAccess (g : Group) (id : Nat) : (g.dropAccess id).key = g.key := rfl

@[simp] theorem Group.watch_land {l : Nat} {dst : Dest} {v : Dword} : (g.land l dst v).watch = g.watch := by cases dst <;> rfl

/-- The words of a load land in registers alone: no match of a watchpoint comes or goes. -/
theorem group?_landSlots (ss : List Slot) (x : Nat) (hg : s.dev.group? k = some g) :
    ∃ h, (s.did (landSlots k ss x)).dev.group? k = some h ∧ h.watch = g.watch := by
  rw [landSlots, State.did_mod]
  show ∃ h, (List.foldl (fun d e => d.landIn k e.lane e.dst (e.part x)) s.dev ss).group? k = some h ∧ h.watch = g.watch
  generalize s.dev = d at hg ⊢
  induction ss generalizing d g with
  | nil => exact ⟨g, hg, rfl⟩
  | cons e ss ih =>
    obtain ⟨w, hw⟩ := Dev.group?_landIn (l := e.lane) (dst := e.dst) (v := e.part x) (w := g.xsaved) hg
    obtain ⟨h, hh, hhw⟩ := ih _ hw
    exact ⟨h, hh, hhw.trans Group.watch_land⟩

/-- R153, R155: a load leaves the queue, and the registers of its slots hold the words of what memory holds. -/
theorem did_performOne_load {ty : LdTy} {ss : List Slot} (hg : s.dev.group? k = some g) (ho : a.op = .load ty ss) (hw : g.watch = []) :
    s.did (performOne k la a) = (s.withGroup (g.dropAccess a.id)).did (landSlots k ss (loadWords ty (s.nat a.store a.addr a.size))) := by
  have hq : s.dequeued k la.job a = s.withGroup (g.dropAccess a.id) := by
    have hn : s.did (noteWatch k la.job a (s.written a)) = s := by simp [State.did, noteWatch, State.written, ho]
    rw [State.dequeued, hn, State.withDev, Dev.modGroup_found hg]
    rfl
  have hgd : (s.withGroup (g.dropAccess a.id)).dev.group? k = some (g.dropAccess a.id) :=
    Dev.group?_setGroup_of ((Group.key_dropAccess g a.id).trans (Dev.group?_key hg))
  have hp : (s.withGroup (g.dropAccess a.id)).did (performOp k la a) =
      (s.withGroup (g.dropAccess a.id)).did (landSlots k ss (loadWords ty (s.nat a.store a.addr a.size))) := by
    simp only [State.did, performOp, ho]
    rfl
  obtain ⟨h, hh, hhw⟩ := group?_landSlots ss (loadWords ty (s.nat a.store a.addr a.size)) hgd
  rw [did_performOne (by simp [State.vtOrphaned, ho]), hq, hp, did_settleWatch_none hh (hhw.trans hw)]

/-! ### A plain store -/

/-- R153, R285: a plain store that is performed puts its bytes where it stores, and then changes no byte. -/
theorem did_performAccess_store {bs : List Byte} (hg : s.dev.group? k = some g) (hl : s.dev.launch? k.launch = some la)
    (ha : (g.acc.find? fun x => decide (x.id = id)) = some a) (ho : a.op = .store bs) (hr : g.run ≠ .faulted) (hm : g.mayPerform a = true) :
    (s.setBank (putBytes (s.bank a.store.bank) (a.store.at_ a.addr) bs) a.store.bank).SameBytes (s.did (performAccess k id)) := by
  have hsec := Group.sector_of_store (g := g) ho
  have hland : s.mayLand k g la a := by
    refine ⟨hr, ⟨a, by rw [hsec]; rfl, hm⟩, ?_⟩
    rw [hsec]
    simp [Access.isDue, State.vtWaits, Dev.vtWaits, Dev.readGated, ho]
  rw [did_performAccess hg hl ha hland, hsec, State.did_each_one, did_performOne (by simp [State.vtOrphaned, ho])]
  refine State.SameBytes.trans ?_ (settleWatch_quiet k _)
  rw [State.dequeued_rest]
  have hp (t : State) : t.did (performOp k la a) = t.did (plainWrite (some k) a.store a.addr bs) := by
    simp only [State.did, performOp, ho]
  rw [hp, State.did_plainWrite]
  cases a.store <;> exact ⟨rfl, rfl, rfl, rfl⟩

end

/-- Settles O27: when the accesses of a sector may be performed is `State.mayLand`; a load lands (`did_performOne_load`) and changes no byte
(`performAccess_quiet`), and a store puts its own (`did_performAccess_store`). -/
theorem accessesPerformed : Obligations.AccessesPerformed := by
  unfold Obligations.AccessesPerformed
  refine ⟨⟨fun s k id g la a hg hl ha h => exec_loadComplete_waits hg hl ha fun hm => ?_, fun s k id g => exec_loadComplete_store,
    fun s k id => exec_loadComplete_gone, fun s k id g la a x xs hg hl ha hr hsec hrun hmay hall => ?_, fun g a b => Group.mem_sector,
    fun s k g la a ty ss => did_performOne_load, fun s k g la a tag w ss t hg _ ht => ?_, fun s k id g a hg ha hr => ?_,
    fun g a b => Group.mayPerform_false⟩, fun s k id g la a bs hg hl ha ho hrun hmay => ?_⟩
  · obtain ⟨hrun, ⟨x, hx, hmay⟩, hall⟩ := hm
    rcases h with h | ⟨y, hy, hf⟩ | ⟨y, hy, h⟩
    · exact hrun h
    · rw [hx, Option.some.injEq] at hy
      simp [← hy, hmay] at hf
    · simp [hall y hy] at h
  · rw [exec_loadComplete_read hg ha hr, did_performAccess hg hl ha ⟨hrun, ⟨x, by rw [hsec]; rfl, hmay⟩, by rwa [hsec]⟩, hsec]
  · rw [did_performOne_orphaned ht, State.withDev, Dev.modGroup_found hg]
    rfl
  · exact ⟨_, exec_loadComplete_read hg ha hr, performAccess_quiet hg ha hr⟩
  · have h := did_performAccess_store hg hl ha ho hrun hmay
    cases hs : a.store with
    | pad =>
      rw [hs] at h
      obtain ⟨hpad, hmain, hblk, hstk⟩ := h
      exact ⟨fun _ => ⟨hpad, hblk⟩, fun _ _ e => (nomatch e), hmain, hstk⟩
    | blk l b =>
      rw [hs] at h
      obtain ⟨hpad, hmain, hblk, hstk⟩ := h
      exact ⟨fun e => (nomatch e), fun _ _ e => by cases e; exact ⟨hblk, hpad⟩, hmain, hstk⟩

end Sys2Proof.Machine
end

