-- ==== Sys2Proof/Proofs/Arbiter.lean ====
section
/-!
PROOF. The arbiter of a core (R103, R134 to R138): which yields are over, which groups are ready and with which batch, the order of choice, and what an
issue opportunity leaves.
-/

namespace Sys2Proof.Machine

-- One lemma after another, within the memory of the check.
set_option Elab.async false

/-! ### The end of yields changes no group's readiness (R103) -/

section
variable (s : State) (d : Dev) (g : Group) (l : Launch) (die core : Nat) (slots : List Nat)

/-- A group of a core as the end of its yield leaves it. -/
def Group.yieldSettled : Group :=
  match g.place with
  | some p => if p.die = die ∧ p.core = core then g.yieldOver slots else g
  | none => g

theorem Dev.endYields_eq : d.endYields die core slots = { d with groups := d.groups.map fun g => g.yieldSettled die core slots } := rfl

/-- What a word's wait reads of a group is none of its yield's fields. -/
theorem Group.yieldSettled_cases : g.yieldSettled die core slots = g ∨ g.yieldSettled die core slots = g.endYield := by
  unfold Group.yieldSettled Group.yieldOver
  cases g.place with
  | none => exact .inl rfl
  | some p => dsimp only; split_ifs <;> simp

theorem Dev.tileAhead_endYields (c : Issue) (k : GKey) (ts : List Nat) :
    (d.endYields die core slots).tileAhead c k l ts = d.tileAhead c k l ts := by
  simp only [Dev.tileAhead, Dev.endYields_eq, List.any_map]
  refine congrArg (d.groups.any ·) (funext fun g => ?_)
  rcases g.yieldSettled_cases die core slots with h | h
  · simp only [Function.comp_apply, h]
  · simp only [Function.comp_apply, h]
    rfl

/-- Of the reasons for which a word waits only that of a tile's order looks at other groups. -/
theorem matrixBlocked_endYields (c : Issue) (i : Instr) :
    matrixBlocked { s with dev := s.dev.endYields die core slots } c g l i = matrixBlocked s c g l i := by
  simp only [matrixBlocked, State.tilesFree, Dev.tileAhead_endYields]
  rfl

theorem wordBlocked_endYields (c : Issue) (i : Instr) :
    wordBlocked { s with dev := s.dev.endYields die core slots } c g l i = wordBlocked s c g l i := by
  simp only [wordBlocked, List.foldl, matrixBlocked_endYields]
  rfl

theorem State.batchWaits_endYields (m : Nat) :
    State.batchWaits { s with dev := s.dev.endYields die core slots } g l m = s.batchWaits g l m := by
  simp only [State.batchWaits, wordBlocked_endYields]
  rfl

theorem State.readyBatches_endYields (p : Place) :
    State.readyBatches { s with dev := s.dev.endYields die core slots } (g.yieldSettled die core slots) l p = s.readyBatches g l p := by
  rcases g.yieldSettled_cases die core slots with h | h
  all_goals simp only [h, State.readyBatches, State.batchWaits_endYields]; rfl

/-- A yield is over where the group yields and every other ready group of its core has issued (R103). -/
theorem Group.yieldUntil_yieldSettled : (g.yieldSettled die core slots).yieldUntil = none ↔ g.yieldUntil = none ∨
    ∃ p, g.place = some p ∧ p.die = die ∧ p.core = core ∧ ∀ k ∈ slots, k = p.slot ∨ k ∈ g.yieldSlots := by
  unfold Group.yieldSettled Group.yieldOver
  cases hp : g.place with
  | none => simp
  | some p =>
    dsimp only
    by_cases hc : p.die = die ∧ p.core = core
    · by_cases ha : ∀ k ∈ slots, k = p.slot ∨ k ∈ g.yieldSlots
      · have hall : (slots.all fun k => decide (k = p.slot) || g.yieldSlots.contains k) = true := by simpa using ha
        rw [if_pos hc, hall]
        cases hy : g.yieldUntil with
        | none => simp [hy]
        | some t => simpa [Group.endYield, and_assoc] using ⟨hc.1, hc.2, ha⟩
      · simp [hc, ha]
    · rw [if_neg hc]
      refine (or_iff_left ?_).symm
      rintro ⟨q, hq, hd, hk, -⟩
      obtain rfl := Option.some.inj hq
      exact hc ⟨hd, hk⟩

@[simp] theorem Group.key_yieldSettled : (g.yieldSettled die core slots).key = g.key := by
  rcases g.yieldSettled_cases die core slots with h | h
  · rw [h]
  · rw [h]; rfl

@[simp] theorem Group.place_yieldSettled : (g.yieldSettled die core slots).place = g.place := by
  rcases g.yieldSettled_cases die core slots with h | h
  · rw [h]
  · rw [h]; rfl

end

/-! ### The batch of a group that has waited the most (R137) -/

section
variable {g : Group}

theorem Group.oldest_eq_none {ms : List Nat} : g.oldest ms = none ↔ ms = [] := by
  cases ms with
  | nil => simp [Group.oldest]
  | cons m ms =>
    unfold Group.oldest
    split
    · simp
    · split_ifs <;> simp

/-- The choice among batches in rising order of their leaders: the longest wait, then the lowest leader. -/
theorem Group.oldest_first {ms : List Nat} {m : Nat} (hs : ms.Pairwise (· < ·)) (h : g.oldest ms = some m) :
    m ∈ ms ∧ ∀ k ∈ ms, (g.lane k).waited < (g.lane m).waited ∨ (g.lane k).waited = (g.lane m).waited ∧ m ≤ k := by
  induction ms generalizing m with
  | nil => simp [Group.oldest] at h
  | cons a ms ih =>
    obtain ⟨ha, hs⟩ := List.pairwise_cons.1 hs
    unfold Group.oldest at h
    split at h
    next hn =>
      obtain rfl := Option.some.inj h
      simp [Group.oldest_eq_none.1 hn]
    next n hn =>
      obtain ⟨hmem, hmax⟩ := ih hs hn
      have hlt := ha n hmem
      split_ifs at h with hle <;> obtain rfl := Option.some.inj h
      · refine ⟨List.mem_cons_self, fun k hk => ?_⟩
        rcases List.mem_cons.1 hk with rfl | hk
        · exact .inr ⟨rfl, le_rfl⟩
        · have := ha k hk
          have := hmax k hk
          omega
      · refine ⟨List.mem_cons_of_mem a hmem, fun k hk => ?_⟩
        rcases List.mem_cons.1 hk with rfl | hk
        · exact .inl (by omega)
        · exact hmax k hk

theorem Group.batches_sorted (g : Group) : g.batches.Pairwise (· < ·) := by
  refine (((List.Pairwise.filter _ ?_).filter _).filter _)
  rw [Group.laneNos, countFrom_eq_range']
  exact List.pairwise_lt_range'

theorem State.readyBatches_sorted (s : State) (l : Launch) (p : Place) : (s.readyBatches g l p).Pairwise (· < ·) := by
  unfold State.readyBatches
  split
  · exact .nil
  · exact g.batches_sorted.filter _

theorem State.mem_readyBatches {s : State} {l : Launch} {p : Place} {m : Nat} (h : m ∈ s.readyBatches g l p) :
    g.mayIssue = true ∧ s.batchWaits g l m = none ∧ s.dev.pipesFree p (l.nextWords (g.lane m).pc) = true := by
  unfold State.readyBatches at h
  split at h
  · simp at h
  next hi => simpa using And.intro hi (List.mem_filter.1 h).2

end

/-! ### The groups that are ready (R134, R136) -/

section
variable {s : State} {die core : Nat} {c : Candidate}

/-- The candidate that a group of a core gives. -/
def State.candidateOf (s : State) (die core : Nat) (g : Group) : Option Candidate :=
  match g.place, s.dev.launch? g.key.launch with
  | some p, some l =>
    if p.die = die ∧ p.core = core then
      (g.oldest (s.readyBatches g l p)).map fun m => ⟨g.key, p.slot, g.age, g.yielding, g.width, m, l.nextWords (g.lane m).pc⟩
    else none
  | _, _ => none

theorem State.candidates_eq (s : State) (die core : Nat) : s.candidates die core = s.dev.groups.filterMap (s.candidateOf die core) := rfl

theorem State.candidateOf_eq_some {g : Group} : s.candidateOf die core g = some c ↔ ∃ p l m, g.place = some p ∧ p.die = die ∧ p.core = core ∧
    s.dev.launch? g.key.launch = some l ∧ g.oldest (s.readyBatches g l p) = some m ∧
    c = ⟨g.key, p.slot, g.age, g.yielding, g.width, m, l.nextWords (g.lane m).pc⟩ := by
  unfold State.candidateOf
  cases g.place <;> cases s.dev.launch? g.key.launch <;> simp [and_assoc, eq_comm]

theorem State.candidateOf_eq_none {g : Group} : s.candidateOf die core g = none ↔
    ∀ p l, g.place = some p → p.die = die → p.core = core → s.dev.launch? g.key.launch = some l → s.readyBatches g l p = [] := by
  unfold State.candidateOf
  cases g.place with
  | none => simp
  | some p =>
    cases s.dev.launch? g.key.launch with
    | none => simp
    | some l =>
      dsimp only
      split_ifs with hc
      · simpa [Group.oldest_eq_none] using ⟨fun h _ _ e _ _ e' => e ▸ e' ▸ h, fun h => h p l rfl hc.1 hc.2 rfl⟩
      · simp only [true_iff]
        intro q k hq hd hk
        obtain rfl := Option.some.inj hq
        exact absurd ⟨hd, hk⟩ hc

/-- Which groups are ready does not turn on their yields. -/
theorem State.candidates_endYields (slots : List Nat) :
    State.candidates { s with dev := s.dev.endYields die core slots } die core = [] ↔ s.candidates die core = [] := by
  simp only [State.candidates_eq, List.filterMap_eq_nil_iff, State.candidateOf_eq_none, Dev.endYields_eq, List.forall_mem_map]
  refine forall₂_congr fun g _ => ?_
  simp only [Group.place_yieldSettled, Group.key_yieldSettled]
  exact forall₂_congr fun p l => by rw [← State.readyBatches_endYields s g l die core slots p]; rfl

/-- R134, R136, R137: a candidate is a ready group of the core with the batch that has waited the most. -/
theorem State.mem_candidates (h : c ∈ s.candidates die core) : ∃ g la p, g ∈ s.dev.groups ∧ g.place = some p ∧ p.die = die ∧ p.core = core ∧
    s.dev.launch? g.key.launch = some la ∧ c.key = g.key ∧ c.slot = p.slot ∧ c.age = g.age ∧ g.mayIssue = true ∧ s.batchWaits g la c.lane = none ∧
    s.dev.pipesFree p (la.nextWords (g.lane c.lane).pc) = true ∧
    ∀ m ∈ s.readyBatches g la p, (g.lane m).waited < (g.lane c.lane).waited ∨ (g.lane m).waited = (g.lane c.lane).waited ∧ c.lane ≤ m := by
  obtain ⟨g, hg, hc⟩ := List.mem_filterMap.1 h
  obtain ⟨p, l, m, hp, hd, hk, hl, hm, rfl⟩ := State.candidateOf_eq_some.1 hc
  obtain ⟨hmem, hmax⟩ := Group.oldest_first (s.readyBatches_sorted l p) hm
  obtain ⟨hi, hw, hf⟩ := State.mem_readyBatches hmem
  exact ⟨g, l, p, hg, hp, hd, hk, hl, rfl, rfl, rfl, hi, hw, hf, hmax⟩

end

/-! ### The order of choice (R135, R137, R138) -/

section
variable {n : Nat} {a b c : Candidate} {cs : List Candidate}

/-- Urgent before any other, then a normal one before a yielding one, then the older, then the lower slot. -/
theorem Candidate.before_iff : a.before n b = true ↔
    (n ≤ a.age ∧ b.age < n) ∨ ((n ≤ a.age ↔ n ≤ b.age) ∧
      ((a.age < n ∧ a.yields = false ∧ b.yields = true) ∨ ((n ≤ a.age ∨ a.yields = b.yields) ∧ (b.age < a.age ∨ b.age = a.age ∧ a.slot < b.slot)))) := by
  unfold Candidate.before
  cases a.yields <;> cases b.yields <;> by_cases ha : n ≤ a.age <;> by_cases hb : n ≤ b.age <;>
    simp [ha, hb] <;> omega

theorem Candidate.before_irrefl (n : Nat) (a : Candidate) : a.before n a = false := by
  rw [Bool.eq_false_iff, Ne, Candidate.before_iff]
  grind

theorem Candidate.before_trans (h : a.before n b = true) (h' : b.before n c = true) : a.before n c = true := by
  rw [Candidate.before_iff] at *
  grind

theorem mem_put {x : Candidate} : x ∈ sortCandidates.put n a cs ↔ x = a ∨ x ∈ cs := by
  induction cs with
  | nil => simp [sortCandidates.put]
  | cons b r ih =>
    unfold sortCandidates.put
    split
    · simp
    · simp [ih, or_left_comm]

theorem mem_sortCandidates {x : Candidate} : x ∈ sortCandidates n cs ↔ x ∈ cs := by
  induction cs with
  | nil => simp [sortCandidates]
  | cons b r ih => simp [sortCandidates, mem_put, ih]

theorem sortCandidates_eq_nil : sortCandidates n cs = [] ↔ cs = [] := by
  simp only [List.eq_nil_iff_forall_not_mem, mem_sortCandidates]

/-- Nothing that is chosen stands behind something that comes before it. -/
theorem sortCandidates_first {r : List Candidate} (h : sortCandidates n cs = c :: r) : ∀ x ∈ cs, x.before n c = false := by
  induction cs generalizing c r with
  | nil => simp
  | cons a cs ih =>
    rw [sortCandidates] at h
    cases hs : sortCandidates n cs with
    | nil =>
      rw [hs, sortCandidates.put] at h
      obtain rfl := (List.cons.inj h).1
      simp [sortCandidates_eq_nil.1 hs, Candidate.before_irrefl]
    | cons b r' =>
      have hb := ih hs
      rw [hs, sortCandidates.put] at h
      split at h
      next hab =>
        obtain rfl := (List.cons.inj h).1
        refine List.forall_mem_cons.2 ⟨Candidate.before_irrefl n a, fun x hx => ?_⟩
        rw [Bool.eq_false_iff]
        exact fun hxa => by simpa [Candidate.before_trans hxa hab] using hb x hx
      next hab =>
        obtain rfl := (List.cons.inj h).1
        exact List.forall_mem_cons.2 ⟨by simpa using hab, hb⟩

/-! ### The groups packed with it (R135) -/

theorem packWith_sub {pipe : Option Pipe} {room : Nat} {x : Candidate} (h : x ∈ packWith pipe room cs) :
    x ∈ cs ∧ ∃ w, x.words = [w] ∧ w.pipe = pipe := by
  induction cs generalizing room with
  | nil => simp [packWith] at h
  | cons c cs ih =>
    have later {room : Nat} (h : x ∈ packWith pipe room cs) : x ∈ c :: cs ∧ ∃ w, x.words = [w] ∧ w.pipe = pipe :=
      (ih h).imp_left (List.mem_cons_of_mem c)
    unfold packWith at h
    split at h
    next u hu =>
      split_ifs at h with hp
      · rcases List.mem_cons.1 h with rfl | h
        · exact ⟨List.mem_cons_self, u, hu, hp.2.1⟩
        · exact later h
      · exact later h
    · exact later h

theorem packWith_width (pipe : Option Pipe) (room : Nat) (cs : List Candidate) :
    natSum ((packWith pipe room cs).map Candidate.width) ≤ room := by
  induction cs generalizing room with
  | nil => simp [packWith, natSum]
  | cons c cs ih =>
    unfold packWith
    split
    · split_ifs with hp
      · have := ih (room - c.width)
        simp only [List.map_cons, natSum]
        omega
      · exact ih room
    · exact ih room

end

/-! ### An issue opportunity (R103, R134 to R138) -/

section
variable {s : State} {die core : Nat}

/-- The ages after an opportunity: a group that was ready and not chosen grows older, and every other one's age is 0 (R137). -/
def Group.aged (g : Group) (die core : Nat) (ready chosen : List Candidate) : Group :=
  match g.place with
  | some p => if p.die = die ∧ p.core = core then
      { g with age := if ∃ x ∈ chosen, x.key = g.key then 0 else if ∃ x ∈ ready, x.key = g.key then g.age + 1 else 0 } else g
  | none => g

theorem Dev.ageGroups_eq (d : Dev) (die core : Nat) (ready chosen : List Candidate) :
    d.ageGroups die core ready chosen = { d with groups := d.groups.map fun g => g.aged die core ready chosen } := by
  unfold Dev.ageGroups Group.aged
  simp only [Dev.mk.injEq, true_and, and_true]
  refine List.map_congr_left fun g _ => ?_
  cases g.place with
  | none => rfl
  | some p =>
    simp only [List.any_eq_true, decide_eq_true_eq]
    split_ifs <;> rfl

theorem Group.aged_congr (g : Group) (die core : Nat) {ready ready' : List Candidate} (chosen : List Candidate) (h : ∀ x, x ∈ ready ↔ x ∈ ready') :
    g.aged die core ready chosen = g.aged die core ready' chosen := by
  simp only [Group.aged, h]

/-- The state after the yields of a core that are over have ended. -/
def State.yieldsEnded (s : State) (die core : Nat) : State :=
  { s with dev := s.dev.endYields die core ((s.candidates die core).map Candidate.slot) }

/-- The candidates packed with the chosen one: those of one word of its pipe, while octets remain (R135, R137). -/
def Candidate.packed (c : Candidate) (cs : List Candidate) : List Candidate :=
  match c.words with
  | [u] => if c.width < 64 then packWith u.pipe (64 - c.width) cs else []
  | _ => []

theorem Candidate.mem_packed {c x : Candidate} {cs : List Candidate} (h : x ∈ c.packed cs) :
    x ∈ cs ∧ ∃ u w, c.words = [u] ∧ x.words = [w] ∧ w.pipe = u.pipe := by
  unfold Candidate.packed at h
  split at h
  next u hu =>
    split at h
    · obtain ⟨hx, w, hw, hp⟩ := packWith_sub h
      exact ⟨hx, u, w, hu, hw, hp⟩
    · simp at h
  · simp at h

theorem Candidate.packed_width (c : Candidate) (cs : List Candidate) : c.width + natSum ((c.packed cs).map Candidate.width) ≤ max 64 c.width := by
  unfold Candidate.packed
  split
  next u _ =>
    split
    · have := packWith_width u.pipe (64 - c.width) cs
      omega
    · simp [natSum]
  · simp [natSum]

/-- Where no group of the core is ready, nothing issues. -/
theorem did_opportunity_idle (h : s.candidates die core = []) : s.did (opportunity die core) =
    { s with dev := (s.yieldsEnded die core).dev.ageGroups die core [] [] } := by
  have h' : (s.yieldsEnded die core).candidates die core = [] := (State.candidates_endYields _).2 h
  unfold State.yieldsEnded at h'
  simp only [State.did, opportunity, h', sortCandidates]
  rfl

/-- The first in the order of choice issues, with those that are packed with it. -/
theorem did_opportunity {c : Candidate} {cs : List Candidate} (h : sortCandidates ((s.yieldsEnded die core).dev.onCore die core).length
    ((s.yieldsEnded die core).candidates die core) = c :: cs) :
    let t := s.yieldsEnded die core
    let d := t.dev.ageGroups die core (c :: cs) (c :: c.packed cs)
    s.did (opportunity die core) = { t with dev := { d with
      used := d.used ++ (c.words.filterMap Slotted.pipe).map fun q => (die, core, q)
      moves := (c :: c.packed cs).map (fun x => .word x.key x.lane) ++ t.dev.moves } } := by
  unfold State.yieldsEnded at h
  simp only [State.did, opportunity, h, Candidate.packed]
  rcases c.words with _ | ⟨u, _ | ⟨v, us⟩⟩
  · rfl
  · by_cases hw : c.width < 64
    · simp only [if_pos hw]
      rfl
    · simp only [if_neg hw]
      rfl
  · rfl

end

/-- Settles O54: the yields that are over end (`Group.yieldUntil_yieldSettled`), the first in the order of choice issues (`did_opportunity`), and a
candidate is what `State.mem_candidates` says. -/
theorem arbiter : Obligations.Arbiter := by
  unfold Obligations.Arbiter
  refine ⟨fun s die core ms hm => step_of_move hm, fun s die core h => ⟨_, did_opportunity_idle h, rfl⟩, fun s die core => ⟨_, rfl, fun g hg => ?_⟩,
    fun s die core h => ?_, fun n a b => Candidate.before_iff, fun s die core c h => State.mem_candidates h⟩
  · refine ⟨_, List.mem_map_of_mem hg, g.key_yieldSettled die core _, (g.yieldUntil_yieldSettled die core _).trans ?_⟩
    simp only [List.forall_mem_map]
  · obtain ⟨c, cs, hs⟩ := List.exists_cons_of_ne_nil (mt sortCandidates_eq_nil.1 (mt (State.candidates_endYields _).1 h) :
      sortCandidates ((s.yieldsEnded die core).dev.onCore die core).length ((s.yieldsEnded die core).candidates die core) ≠ [])
    have hmem (x : Candidate) : x ∈ c :: cs ↔ x ∈ (s.yieldsEnded die core).candidates die core := by rw [← hs, mem_sortCandidates]
    refine ⟨_, c, c.packed cs, did_opportunity hs, (hmem c).1 List.mem_cons_self, rfl, sortCandidates_first hs, fun x hx => ?_, c.packed_width cs, ?_⟩
    · obtain ⟨hx, hw⟩ := Candidate.mem_packed hx
      exact ⟨(hmem x).1 (List.mem_cons_of_mem c hx), hw⟩
    · rw [Dev.ageGroups_eq]
      refine List.map_congr_left fun g _ => ?_
      rw [Group.aged_congr g die core _ hmem]
      rfl

end Sys2Proof.Machine
end

