-- ==== Sys2Proof/Proofs/Fences.lean ====
section
/-!
PROOF. `fence` and `wait.ld` (R163), and the lock of the extended registers (R139 to R141): its words, the order of requests, and the sets of a die after a
die cycle.
-/

namespace Sys2Proof.Machine

-- One lemma after another, within the memory of the check.
set_option Elab.async false

/-! ### Leaders -/

/-- The leader of a batch is the first of its live lanes whose guard is true (R51). -/
theorem Group.leader_eq_head? (c : Issue) (g : Group) : g.leader c.on = (c.voters g).head? := (List.head?_filter ..).symm

theorem Group.leader_isSome {c : Issue} {g : Group} (h : c.voters g ≠ []) : (g.leader c.on).isSome = true := by
  rw [Group.leader_eq_head?]
  exact List.isSome_head?.2 h

/-! ### Words that wait for accesses, and then retire loads (R163) -/

section
variable {s : State} {c : Issue} {g : Group} {la : Launch} {i : Instr}

/-- What `fence` and `wait.ld` do: hold until the wait is over, then raise a late fault or change the group's counted loads, and go on. -/
def Issue.awaits (c : Issue) (i : Instr) (ready : Bool) (late : Option Deferred) (retired : Group → Group) : Part := fun s =>
  if c.on.isEmpty then []
  else if ready then
    match late with
    | some x => raiseDeferred c x s
    | none => Part.seq [Part.mod fun d => d.modGroup c.g retired, if c.resume.isSome then releaseLanes c.g c.lanes (pcNext c.loc) else Part.none] s
  else if c.resume.isSome then []
  else holdLanes c i c.lanes .retry 4 .none s

/-- R163: the wait that is over, with what it retires or raises, and the wait that is not. -/
theorem did_awaits (hg : s.dev.group? c.g = some g) (ready : Bool) (late : Option Deferred) (retired : Group → Group) :
    s.did (c.awaits i ready late retired) =
      if c.on = [] then s
      else if ready = true then late.elim ((s.withGroup (retired g)).did (Part.when (c.resume.isSome = true) (releaseLanes c.g c.lanes (pcNext c.loc))))
        fun x => s.did (raiseDeferred c x)
      else s.did (Part.when (c.resume.isNone = true) (holdLanes c i c.lanes .retry 4 .none)) := by
  by_cases hon : c.on = []
  · simp [State.did, Issue.awaits, hon]
  cases ready with
  | true =>
    cases late with
    | some x => simp [State.did, Issue.awaits, hon]
    | none =>
      have hm : s.withDev (fun d => d.modGroup c.g retired) = s.withGroup (retired g) := by simp [State.withDev, State.withGroup, Dev.modGroup_found hg]
      simp only [State.did, Issue.awaits, List.isEmpty_iff, hon, if_false, if_true, Option.elim]
      exact (State.did_seq_pair ..).trans (by rw [State.did_mod, hm]; rfl)
  | false => cases hr : c.resume <;> simp [State.did, Issue.awaits, hon, hr, Part.when, Part.none]

/-- The wait of a fence (R163). -/
theorem Group.fenceOver_iff {mark : Nat} : g.fenceOver mark = true ↔
    g.outstanding = 0 ∧ ∀ a ∈ g.acc, a.op.writes = true ∨ a.isDue = true ∧ a.taken = false → mark ≤ a.seq := by
  simp only [Group.fenceOver, Group.storesBefore, Bool.and_eq_true, decide_eq_true_eq, List.all_eq_true]
  refine and_congr_right fun _ => forall₂_congr fun a _ => ?_
  cases a.op.writes <;> cases a.isDue <;> cases a.taken <;> simp

theorem exec_fence (hi : i ∈ [Instr.fenceGrp, .fenceBlk, .fenceGang, .fenceDev, .fenceSys]) (h : Issues s i c g la) :
    exec i s = .next (s.did (c.awaits i (g.fenceOver (c.mark g)) (g.timedOut false) fun g => { g with counted := [] })) := by
  have hw : exec i s = commit s (fenceWord i s) := by
    simp only [List.mem_cons, List.not_mem_nil, or_false] at hi
    rcases hi with rfl | rfl | rfl | rfl | rfl <;> rfl
  rw [hw, fenceWord, word_issues h]
  rfl

theorem exec_waitLd {n : BitVec 7} (h : Issues s (.waitLd n) c g la) :
    exec (.waitLd n) s = .next (s.did (c.awaits (.waitLd n) (decide (g.outstanding ≤ n.toNat))
      (firstDeferred (g.deferred.filter fun x => !x.store && (g.counted.takeWhile g.complete).any fun q => decide (q.seq = x.seq)))
      fun g => { g with counted := g.unretired })) := by
  show execWaitLd n s = _
  rw [execWaitLd, word_issues h]
  simp only [commit, State.did, Issue.awaits, decide_eq_true_eq] <;> rfl

theorem Group.complete_iff {q : Counted} : g.complete q = true ↔ (∀ a ∈ g.acc, a.seq ≠ q.seq) ∧ ∀ p ∈ g.pend, p.land ≠ q.near := by
  simp [Group.complete]

end

/-! ### The words of the lock (R139, R140) -/

section
variable {s : State} {c : Issue} {g : Group} {la : Launch}

theorem noXregs_passes (h : c.voters g = [] ∨ la.xregs = true) : lowestCause (noXregs s c g la) = none := by
  rcases h with h | h <;> simp [noXregs, Group.leader_none, h, causeIf, lowestCause]

theorem noXregs_cause (hv : c.voters g ≠ []) (hx : la.xregs = false) : noXregs s c g la = [(12, 0)] := by
  simp [noXregs, Group.leader_isSome hv, hx, causeIf]

/-- ILLEGAL_OPERAND by reason 12, of a word whose fields are legal. -/
theorem valuedFault_illegalValue {d : Dev} {i : Instr} (hi : i.fieldFault = none) (field : Nat) (hf : field < 4) :
    valuedFault d g la c i [(12, field)] = some (illegalValue c field) := by
  have hs : pcSlot c.loc % 4 = pcSlot c.loc := Nat.mod_mod ..
  simp only [valuedFault_cause, hi, illegalValue, checkCause, hs, Nat.mod_eq_of_lt hf, Nat.mul_comm]

theorem exec_xreg_illegal {i : Instr} (hi : i = .xregAcq ∨ i = .xregRel) (h : Issues s i c g la) (hv : c.voters g ≠ []) (hx : la.xregs = false) :
    exec i s = .next (s.faults c (illegalValue c 0)) := by
  have hf : valuedFault s.dev g la c i (noXregs s c g la) = some (illegalValue c 0) := by
    rw [noXregs_cause hv hx]
    exact valuedFault_illegalValue (by rcases hi with rfl | rfl <;> rfl) 0 (by decide)
  rcases hi with rfl | rfl <;> exact wordWith_faults h.cur h.group h.launch hf _

theorem exec_xregAcq (h : Issues s .xregAcq c g la) (hx : c.voters g = [] ∨ la.xregs = true) : exec .xregAcq s = .next (
    if c.voters g = [] then s
    else if s.dev.holdsX g then s.did (Part.when (c.resume.isSome = true) (releaseLanes c.g c.lanes (pcNext c.loc)))
    else if c.resume.isSome then s
    else (s.withDev fun d => d.requestX g).did (holdLanes c .xregAcq c.lanes .xreg 12 (.bar 0xFE 0))) := by
  show execXregAcq s = _
  rw [execXregAcq, wordWith_issues h (noXregs_passes hx)]
  by_cases hv : c.voters g = []
  · simp [hv, Group.leader_none hv, commit]
  · have hn : (g.leader c.on).isNone = false := by simpa using Group.leader_isSome hv
    simp only [hn, hv, if_false, Bool.false_eq_true]
    by_cases hh : s.dev.holdsX g = true
    · cases hr : c.resume <;> simp [hh, commit, State.did, Part.when, Part.none]
    · cases hr : c.resume with
      | some x => simp [hh, commit]
      | none =>
        simp only [hh, Bool.false_eq_true, Option.isSome, if_false]
        exact congrArg Host.Outcome.next (State.did_seq_pair ..)

theorem exec_xregRel (h : Issues s .xregRel c g la) (hx : c.voters g = [] ∨ la.xregs = true) : exec .xregRel s = .next (
    if c.voters g = [] then s
    else if s.dev.holdsX g = false then s.faults c { code := .xregNotHeld, cause := checkCause (pcSlot c.loc) 0 13 }
    else g.place.elim s fun p => s.withDev fun d => d.setXset { d.xsetAt p with releasing := true }) := by
  show execXregRel s = _
  rw [execXregRel, wordWith_issues h (noXregs_passes hx)]
  by_cases hv : c.voters g = []
  · simp [hv, Group.leader_none hv, commit]
  · have hn : (g.leader c.on).isNone = false := by simpa using Group.leader_isSome hv
    simp only [hn, hv, if_false, Bool.false_eq_true]
    cases hh : s.dev.holdsX g with
    | false => simp [commit, State.faults, State.did]
    | true => cases hp : g.place <;> simp [commit, State.withDev]

end

/-! ### Requests, in their order (R140) -/

section
variable {d e : Dev} {x : XSet} {k : GKey} {t : Nat}

/-- The slot by which a request is ranked; one of a group that is nowhere comes last. -/
def Dev.requestSlot (d : Dev) (k : GKey) : Nat := match (d.group? k).bind Group.place with | some p => p.slot | none => 16

theorem firstRequest_cons (d : Dev) (r : GKey × Nat) (rs : List (GKey × Nat)) : firstRequest d (r :: rs) = (match firstRequest d rs with
    | none => some r
    | some f => if r.2 < f.2 ∨ (r.2 = f.2 ∧ d.requestSlot r.1 ≤ d.requestSlot f.1) then some r else some f) := by
  have hs (k : GKey) : (match d.group? k with | some g => (match g.place with | some p => p.slot | none => 16) | none => 16) = d.requestSlot k := by
    unfold Dev.requestSlot
    cases d.group? k with
    | none => rfl
    | some g => cases hp : g.place <;> simp [hp]
  simp only [← hs]
  rfl

theorem firstRequest_eq_none {rs : List (GKey × Nat)} : firstRequest d rs = none ↔ rs = [] := by
  cases rs with
  | nil => simp [firstRequest]
  | cons r rs =>
    rw [firstRequest_cons]
    split
    · simp
    · split_ifs <;> simp

theorem firstRequest_min {rs : List (GKey × Nat)} {r : GKey × Nat} (h : firstRequest d rs = some r) :
    r ∈ rs ∧ ∀ f ∈ rs, r.2 < f.2 ∨ r.2 = f.2 ∧ d.requestSlot r.1 ≤ d.requestSlot f.1 := by
  induction rs generalizing r with
  | nil => simp [firstRequest] at h
  | cons a rs ih =>
    rw [firstRequest_cons] at h
    split at h
    next hn =>
      obtain rfl := Option.some.inj h
      simp [firstRequest_eq_none.1 hn]
    next f hf =>
      obtain ⟨hmem, hmin⟩ := ih hf
      split_ifs at h with hle <;> obtain rfl := Option.some.inj h
      · refine ⟨List.mem_cons_self, List.forall_mem_cons.2 ⟨.inr ⟨rfl, le_rfl⟩, fun q hq => ?_⟩⟩
        have := hmin q hq
        omega
      · refine ⟨List.mem_cons_of_mem a hmem, List.forall_mem_cons.2 ⟨?_, hmin⟩⟩
        omega

theorem firstRequest_congr (h : ∀ k, e.requestSlot k = d.requestSlot k) (rs : List (GKey × Nat)) : firstRequest e rs = firstRequest d rs := by
  induction rs with
  | nil => rfl
  | cons r rs ih => simp only [firstRequest_cons, ih, h]

/-! ### A grant (R139 to R141) -/

/-- The set as its next holder finds it. -/
def XSet.granted (x : XSet) (k : GKey) (saved : Option (Cells 32)) : XSet :=
  { x with holder := some k, releasing := false, queue := x.queue.filter fun r => decide (r.1 ≠ k), words := grantWords x k saved
           lastLaunch := some k.launch }

/-- A group without saved extended words. -/
def Group.unsaved (g : Group) : Group := { g with xsaved := none }

/-- Whether a set is that of the same slot pair. -/
def XSet.same (x z : XSet) : Bool := decide (z.die = x.die) && decide (z.core = x.core) && decide (z.pair = x.pair)

theorem XSet.same_comm (x z : XSet) : x.same z = z.same x := by
  simp only [XSet.same, decide_eq_decide.2 (eq_comm (a := z.die)), decide_eq_decide.2 (eq_comm (a := z.core)), decide_eq_decide.2 (eq_comm (a := z.pair))]

theorem XSet.same_self (x : XSet) : x.same x = true := by simp [XSet.same]

theorem Dev.grantX_granted (h : x.holder = none) (hf : firstRequest d x.queue = some (k, t)) :
    d.grantX x = (d.setXset (x.granted k ((d.group? k).bind Group.xsaved))).modGroup k Group.unsaved := by
  unfold Dev.grantX
  rw [h, hf]
  simp only [XSet.granted]
  cases d.group? k <;> rfl

theorem Dev.grantX_keeps (h : x.holder ≠ none ∨ firstRequest d x.queue = none) : d.grantX x = d := by
  unfold Dev.grantX
  split
  next hn hf => simp [hn, hf] at h
  · rfl

@[simp] theorem Dev.modGroup_xsets (d : Dev) (k : GKey) (f : Group → Group) : (d.modGroup k f).xsets = d.xsets := by
  unfold Dev.modGroup
  split <;> rfl

@[simp] theorem Dev.modGroup_launches (d : Dev) (k : GKey) (f : Group → Group) : (d.modGroup k f).launches = d.launches := by
  unfold Dev.modGroup
  split <;> rfl

theorem Dev.setXset_xsets (d : Dev) (x : XSet) : (d.setXset x).xsets = upsert x.same x d.xsets := rfl

@[simp] theorem Dev.group?_setXset (d : Dev) (x : XSet) (k : GKey) : (d.setXset x).group? k = d.group? k := rfl

/-! ### The locks of a die after a die cycle (R140) -/

/-- Whether a set stays with its holder: it is not released, or its group has still to write there. -/
def Dev.keepsX (d : Dev) (x : XSet) : Prop :=
  ∃ k, x.holder = some k ∧ (x.releasing = true → ∃ g, d.group? k = some g ∧ d.xBusy g = true)

/-- What a set is after its die's cycle, its words aside. -/
def Dev.SettledX (d : Dev) (x y : XSet) : Prop :=
  y.die = x.die ∧ y.core = x.core ∧ y.pair = x.pair ∧ (d.keepsX x → y = x) ∧
    (¬ d.keepsX x → y.releasing = false ∧ y.holder = (firstRequest d x.queue).map Prod.fst)

/-- Whether the holder of a set has still to write there. -/
def Dev.busyX (d : Dev) (x : XSet) : Bool := match x.holder with | some k => (d.group? k).any d.xBusy | none => false

/-- A set without its holder. -/
def XSet.freed (x : XSet) : XSet := { x with holder := none, releasing := false }

/-- A set after its release, where that is due. -/
def Dev.freedX (d : Dev) (x : XSet) : XSet := if x.releasing ∧ d.busyX x = false then x.freed else x

/-- One set of a die after a die cycle. -/
def Dev.settleOne (d : Dev) (x : XSet) : Dev := (d.setXset (d.freedX x)).grantX (d.freedX x)

theorem Dev.settleX_eq (d : Dev) (die : Nat) : d.settleX die = (d.xsets.filter fun x => decide (x.die = die)).foldl Dev.settleOne d := rfl

theorem Dev.freedX_of_keeps (h : d.keepsX x) : d.freedX x = x := by
  obtain ⟨k, hk, hb⟩ := h
  refine if_neg fun ⟨hr, hn⟩ => ?_
  obtain ⟨g, hg, hbusy⟩ := hb hr
  simp [Dev.busyX, hk, hg, hbusy] at hn

theorem Dev.freedX_of_not_keeps (h : ¬ d.keepsX x) : d.freedX x = x.freed := by
  unfold Dev.freedX
  split_ifs with hc
  · rfl
  · cases hk : x.holder with
    | none =>
      have hr : x.releasing = false := by simpa [Dev.busyX, hk] using hc
      rw [XSet.freed, ← hk, ← hr]
    | some k =>
      refine absurd ⟨k, hk, fun hr => ?_⟩ h
      simpa [Dev.busyX, hk, hr, Option.any_eq_true] using hc

/-- One set's turn puts the settled set in its place. -/
theorem Dev.settleOne_xsets (d : Dev) (x : XSet) : ∃ y, d.SettledX x y ∧ (d.settleOne x).xsets = upsert x.same y d.xsets := by
  unfold Dev.settleOne
  by_cases hkeep : d.keepsX x
  · have hh : x.holder ≠ none := by
      obtain ⟨k, hk, -⟩ := hkeep
      simp [hk]
    rw [Dev.freedX_of_keeps hkeep, Dev.grantX_keeps (.inl hh)]
    exact ⟨x, ⟨rfl, rfl, rfl, fun _ => rfl, fun h => absurd hkeep h⟩, rfl⟩
  · rw [Dev.freedX_of_not_keeps hkeep]
    have hcongr : firstRequest (d.setXset x.freed) x.freed.queue = firstRequest d x.queue :=
      firstRequest_congr (d := d) (e := d.setXset x.freed) (fun _ => rfl) _
    cases hf : firstRequest d x.queue with
    | none =>
      rw [Dev.grantX_keeps (.inr (hcongr.trans hf))]
      exact ⟨x.freed, ⟨rfl, rfl, rfl, fun h => absurd h hkeep, fun _ => ⟨rfl, by rw [hf]; rfl⟩⟩, rfl⟩
    | some r =>
      rw [Dev.grantX_granted rfl (hcongr.trans hf), Dev.modGroup_xsets, Dev.setXset_xsets, Dev.setXset_xsets]
      generalize ((d.setXset x.freed).group? r.1).bind Group.xsaved = w
      exact ⟨x.freed.granted r.1 w, ⟨rfl, rfl, rfl, fun h => absurd h hkeep, fun _ => ⟨rfl, by rw [hf]; rfl⟩⟩,
        upsert_upsert x.same x.freed _ _ x.same_self⟩

/-! What a grant takes from a group are its saved words: its place and what it has to write stay. -/

/-- The same groups and launches, saved extended words aside. -/
def Dev.SameUnsaved (d e : Dev) : Prop := e.launches = d.launches ∧ ∀ k, (e.group? k).map Group.unsaved = (d.group? k).map Group.unsaved

theorem Dev.SameUnsaved.trans {f : Dev} (h : d.SameUnsaved e) (h' : e.SameUnsaved f) : d.SameUnsaved f :=
  ⟨h'.1.trans h.1, fun k => (h'.2 k).trans (h.2 k)⟩

theorem Dev.SameUnsaved.requestSlot (h : d.SameUnsaved e) (k : GKey) : e.requestSlot k = d.requestSlot k := by
  have hp (d : Dev) : (d.group? k).bind Group.place = ((d.group? k).map Group.unsaved).bind Group.place := by cases d.group? k <;> rfl
  rw [Dev.requestSlot, Dev.requestSlot, hp, hp, h.2 k]

theorem Dev.SameUnsaved.keepsX (h : d.SameUnsaved e) : e.keepsX x ↔ d.keepsX x := by
  have hb (d : Dev) (k : GKey) : (∃ g, d.group? k = some g ∧ d.xBusy g = true) ↔ ∃ g, (d.group? k).map Group.unsaved = some g ∧ d.xBusy g = true := by
    cases d.group? k with
    | none => simp
    | some g =>
      have : d.xBusy g.unsaved = d.xBusy g := rfl
      simp [this]
  have hx (g : Group) : e.xBusy g = d.xBusy g := by simp only [Dev.xBusy, Dev.launch?, h.1]
  refine exists_congr fun k => and_congr_right fun _ => imp_congr_right fun _ => ?_
  rw [hb, hb, h.2]
  simp only [hx]

theorem Dev.SameUnsaved.settled {y : XSet} (h : d.SameUnsaved e) (hy : e.SettledX x y) : d.SettledX x y := by
  unfold Dev.SettledX at *
  rwa [h.keepsX, firstRequest_congr h.requestSlot] at hy

theorem Dev.group?_modGroup_unsaved (d : Dev) (k j : GKey) :
    ((d.modGroup k Group.unsaved).group? j).map Group.unsaved = (d.group? j).map Group.unsaved := by
  cases hg : d.group? k with
  | none => simp [Dev.modGroup, hg]
  | some g =>
    have hk : g.unsaved.key = k := (Dev.group?_key hg : g.key = k)
    rw [Dev.modGroup_found hg]
    by_cases hj : j = k
    · rw [hj, Dev.group?_setGroup_of hk, hg]
      rfl
    · rw [Dev.group?_setGroup_ne _ _ _ fun e => hj (e.trans hk)]

theorem Dev.settleOne_sameUnsaved (d : Dev) (x : XSet) : d.SameUnsaved (d.settleOne x) := by
  unfold Dev.settleOne
  generalize d.freedX x = y
  by_cases h : y.holder = none ∧ firstRequest (d.setXset y) y.queue ≠ none
  · obtain ⟨hn, hf⟩ := h
    obtain ⟨⟨k, t⟩, hf⟩ := Option.ne_none_iff_exists'.1 hf
    rw [Dev.grantX_granted hn hf]
    exact ⟨Dev.modGroup_launches .., fun j => Dev.group?_modGroup_unsaved _ k j⟩
  · rw [Dev.grantX_keeps (by tauto)]
    exact ⟨rfl, fun _ => rfl⟩

theorem mem_upsert_self {α : Type} (p : α → Bool) (a : α) (xs : List α) : a ∈ upsert p a xs := by
  induction xs with
  | nil => simp [upsert]
  | cons b r ih => unfold upsert; split <;> simp [ih]

theorem mem_upsert_of_ne {α : Type} {p : α → Bool} {a b : α} {xs : List α} (h : b ∈ xs) (hb : p b = false) : b ∈ upsert p a xs := by
  induction xs with
  | nil => simp at h
  | cons c r ih =>
    unfold upsert
    rcases List.mem_cons.1 h with rfl | h
    · simp [hb]
    · split
      · exact List.mem_cons_of_mem a h
      · exact List.mem_cons_of_mem c (ih h)

theorem Dev.foldl_settleOne_keeps {xs : List XSet} {y : XSet} (hy : y ∈ d.xsets) (h : ∀ x ∈ xs, x.same y = false) :
    y ∈ (xs.foldl Dev.settleOne d).xsets := by
  induction xs generalizing d with
  | nil => exact hy
  | cons x xs ih =>
    obtain ⟨hx, hxs⟩ := List.forall_mem_cons.1 h
    obtain ⟨z, -, hz⟩ := d.settleOne_xsets x
    exact ih (by rw [hz]; exact mem_upsert_of_ne hy hx) hxs

/-- Each set of a die has its turn: no other one's turn touches it. -/
theorem Dev.foldl_settleOne {xs : List XSet} (h : d.SameUnsaved e) (hx : x ∈ xs) (hp : xs.Pairwise fun a b => a.same b = false) :
    ∃ y ∈ (xs.foldl Dev.settleOne e).xsets, d.SettledX x y := by
  induction xs generalizing e with
  | nil => simp at hx
  | cons a xs ih =>
    obtain ⟨ha, hp⟩ := List.pairwise_cons.1 hp
    rcases List.mem_cons.1 hx with rfl | hx
    · obtain ⟨y, hy, hys⟩ := e.settleOne_xsets x
      refine ⟨y, Dev.foldl_settleOne_keeps (d := e.settleOne x) (by rw [hys]; exact mem_upsert_self ..) fun z hz => ?_, h.settled hy⟩
      obtain ⟨hd, hc, hp, -⟩ := hy
      have hzy : z.same y = z.same x := by simp only [XSet.same, hd, hc, hp]
      rw [hzy, XSet.same_comm, ha z hz]
    · exact ih (h.trans (e.settleOne_sameUnsaved a)) hx hp

/-! ### What is still to be written (R140) -/

/-- Whether a result goes to an extended register. -/
def Dest.extended : Dest → Bool
  | .x _ => true
  | _ => false

theorem Dest.extended_iff {t : Dest} : t.extended = true ↔ ∃ n, t = .x n := by cases t <;> simp [Dest.extended]

theorem Group.xBusy_eq (g : Group) (la : Launch) : g.xBusy la = ((g.pend.any fun p => p.dst.extended) ||
    (g.unretired.any fun q => q.dsts.any fun r => r.2.extended) || g.lanes.any fun x => x.hold.isSome && (heldWord la x).any fun i =>
      i.operands.any fun o => o.wr && o.vregs.any fun n => decide (64 ≤ n)) := rfl

theorem Group.xBusy_iff {g : Group} {la : Launch} : g.xBusy la = true ↔ (∃ p ∈ g.pend, ∃ n, p.dst = .x n) ∨
    (∃ q ∈ g.unretired, ∃ r ∈ q.dsts, ∃ n, r.2 = .x n) ∨
    ∃ x ∈ g.lanes, x.hold.isSome = true ∧ ∃ i, heldWord la x = some i ∧ ∃ o ∈ i.operands, o.wr = true ∧ ∃ n ∈ o.vregs, 64 ≤ n := by
  simp only [Group.xBusy_eq, Bool.or_eq_true, List.any_eq_true, Dest.extended_iff, Bool.and_eq_true, Option.any_eq_true, decide_eq_true_eq, or_assoc]

end

/-- Settles O17: the fences and `wait.ld` are `Issue.awaits`, the words of the lock have an equation each, and the sets of a die have their turns one by
one (`Dev.foldl_settleOne`). -/
theorem fencesAndLocks : Obligations.FencesAndLocks := by
  unfold Obligations.FencesAndLocks
  refine ⟨⟨fun i hi s c g la h => ?_, fun n s c g la h => ?_, fun g q => Group.complete_iff, fun g => rfl⟩, fun s c g la h => ?_, fun s c g la h => ?_,
    fun d x k t h hf => ?_, fun d q => ⟨firstRequest_eq_none, fun e => firstRequest_min⟩, fun d die x hx hd hp => ?_, fun g la => Group.xBusy_iff⟩
  · rw [exec_fence hi h, did_awaits h.group]
    have hm : c.mark g = (match c.resume with | none => g.accesses | some h => h.mark) := by rw [Issue.mark]; cases c.resume <;> rfl
    have ht : g.timedOut false = firstDeferred (g.deferred.filter fun x => decide (x.code = 0x34)) := by simp [Group.timedOut]
    simp only [Group.fenceOver_iff, hm, ht]
    generalize firstDeferred _ = late
    cases late <;> rfl
  · rw [exec_waitLd h, did_awaits h.group]
    simp only [decide_eq_true_eq]
    generalize firstDeferred _ = late
    cases late <;> rfl
  · by_cases hv : c.voters g = []
    · rw [exec_xregAcq h (.inl hv), if_pos hv, if_pos hv]
    · cases hx : la.xregs with
      | false => rw [exec_xreg_illegal (.inl rfl) h hv hx, if_neg hv, if_pos rfl]
      | true => rw [exec_xregAcq h (.inr hx)]; rfl
  · by_cases hv : c.voters g = []
    · rw [exec_xregRel h (.inl hv), if_pos hv, if_pos hv]
    · cases hx : la.xregs with
      | false => rw [exec_xreg_illegal (.inr rfl) h hv hx, if_neg hv, if_pos rfl]
      | true => rw [exec_xregRel h (.inr hx)]; cases g.place <;> rfl
  · rw [Dev.grantX_granted h hf]
    refine ⟨?_, fun g hg => ?_⟩
    · rw [Dev.modGroup_xsets, Dev.setXset_xsets]
      exact find?_upsert_self x.same _ _ x.same_self
    · rw [Dev.modGroup_found (by exact hg)]
      exact Dev.group?_setGroup_of (g := g.unsaved) (Dev.group?_key hg : g.key = k)
  · rw [Dev.settleX_eq]
    have hne : (d.xsets.filter fun x => decide (x.die = die)).Pairwise fun a b => a.same b = false :=
      (hp.imp fun {a b} h => by rw [XSet.same_comm]; simpa [XSet.same] using h).filter _
    obtain ⟨y, hy, hys⟩ := Dev.foldl_settleOne (d := d) (e := d) ⟨rfl, fun _ => rfl⟩ (List.mem_filter.2 ⟨hx, by simpa using hd⟩) hne
    exact ⟨y, hy, hys⟩

end Sys2Proof.Machine
end

