-- ==== Sys2Proof/Proofs/Preemption.lean ====
section
/-!
PROOF. Pre-emption (R302 to R305): the request, the blocks that leave their core, their lock of the extended registers (R141), and the blocks that come back
with the slots that are copied for them (R206).
-/

namespace Sys2Proof.Machine

-- One lemma after another, within the memory of the check.
set_option Elab.async false

section
variable {s : State} {d : Dev} {la : Launch} {tag b : Nat}

/-! ### A pre-emption request (R302, R305) -/

/-- Whether a request leaves a block and those that leave with it alone: its job ends, none is resident, or a dump has halted a group. -/
def Dev.haltIdle (d : Dev) (la : Launch) (bs : List Nat) : Prop :=
  (∀ j, d.job? la.job = some j → j.ending ≠ none) ∨ (∀ x ∈ d.blocks, ¬ (x.launch = la.tag ∧ x.index ∈ bs ∧ x.residency = .resident)) ∨
    ∃ g ∈ d.groups, g.key.launch = la.tag ∧ g.key.block ∈ bs ∧ g.run = .dumped

/-- The blocks that leave together, halting, and their groups with them. -/
def Dev.halted (d : Dev) (la : Launch) (bs : List Nat) (requeue dbg : Bool) : Dev :=
  { d with
    blocks := d.blocks.map fun x => if x.launch = la.tag ∧ x.index ∈ bs ∧ x.residency = .resident then
      { x with residency := .halting, requeue := requeue, byDebugger := dbg, preemptedAt := some d.time } else x
    groups := d.groups.map fun g => if g.key.launch = la.tag ∧ g.key.block ∈ bs ∧ g.run = .running then { g with run := .halting } else g }

/-- Whether a job ends, or is none. -/
def Dev.endsJob (d : Dev) (job : Nat) : Bool := match d.job? job with | some j => j.ending.isSome | none => true

theorem Dev.endsJob_iff {job : Nat} : d.endsJob job = true ↔ ∀ j, d.job? job = some j → j.ending ≠ none := by
  unfold Dev.endsJob
  cases d.job? job with
  | none => simp
  | some j => simp [Option.isSome_iff_ne_none]

theorem Dev.endsJob_eq_false {job : Nat} : d.endsJob job = false ↔ ∃ j, d.job? job = some j ∧ j.ending = none := by
  rw [← Bool.not_eq_true, Dev.endsJob_iff]
  push Not
  rfl

theorem Dev.requestHalt_idle {r p : Bool} (h : d.haltIdle la (la.together b)) : d.requestHalt la b r p = d := by
  unfold Dev.requestHalt
  refine if_pos ?_
  show (d.endsJob la.job || _ || _) = true
  simp only [Bool.or_eq_true, Dev.endsJob_iff, or_assoc]
  refine h.imp_right (Or.imp ?_ ?_)
  · simp +contextual
  · rintro ⟨g, hg, ht, hb, hr⟩
    simp only [Dev.groupsOf, List.any_filter, List.any_eq_true]
    exact ⟨g, hg, by simp [ht, hb, hr]⟩

theorem Dev.requestHalt_halts {r p : Bool} (h : ¬ d.haltIdle la (la.together b)) : d.requestHalt la b r p =
    if r = true ∧ la.persistent = false then (d.halted la (la.together b) r p).modLaunch la.tag fun l => { l with back := l.back ++ [l.unit b] }
    else d.halted la (la.together b) r p := by
  unfold Dev.requestHalt
  refine (if_neg ?_).trans ?_
  · show ¬ (d.endsJob la.job || _ || _) = true
    simp only [Bool.or_eq_true, Dev.endsJob_iff, or_assoc]
    refine mt (Or.imp_right (Or.imp ?_ ?_)) h
    · simp
    · simp only [Dev.groupsOf, List.any_filter, List.any_eq_true]
      rintro ⟨g, hg, he⟩
      exact ⟨g, hg, by simpa [and_assoc] using he⟩
  · simp [Dev.halted, and_assoc]

/-! ### The lock that a group gives up (R141) -/

@[simp] theorem Dev.dropX_groups (d : Dev) (g : Group) (sv : Bool) : (d.dropX g sv).groups = d.groups := by unfold Dev.dropX; split <;> [rfl; split <;> rfl]
@[simp] theorem Dev.dropX_blocks (d : Dev) (g : Group) (sv : Bool) : (d.dropX g sv).blocks = d.blocks := by unfold Dev.dropX; split <;> [rfl; split <;> rfl]

theorem Dev.dropXs_groups (gs : List Group) (sv : Bool) (d : Dev) : (gs.foldl (fun d g => d.dropX g sv) d).groups = d.groups := by
  induction gs generalizing d with
  | nil => rfl
  | cons g gs ih => rw [List.foldl_cons, ih, Dev.dropX_groups]

theorem Dev.dropXs_blocks (gs : List Group) (sv : Bool) (d : Dev) : (gs.foldl (fun d g => d.dropX g sv) d).blocks = d.blocks := by
  induction gs generalizing d with
  | nil => rfl
  | cons g gs ih => rw [List.foldl_cons, ih, Dev.dropX_blocks]

theorem Dev.dropX_of {g : Group} {p : Place} {x : XSet} (sv : Bool) (hp : g.place = some p) (hx : d.xset? p = some x) :
    let y := { x with queue := x.queue.filter fun e => decide (e.1 ≠ g.key) }
    d.dropX g sv = d.setXset (if x.holder = some g.key then
      (if sv = false ∧ d.xBusy g = true then { y with releasing := true } else { y with holder := none, releasing := false }) else y) := by
  simp [Dev.dropX, hp, hx]

/-! ### Blocks that are saved (R302, R303) -/

/-- Whether blocks that leave together stay where they are: their job ends, the block is none of them, one does not halt, or a group is not
drained. -/
def State.saveIdle (s : State) (la : Launch) (tag b : Nat) (bs : List Nat) : Prop :=
  (∀ j, s.dev.job? la.job = some j → j.ending ≠ none) ∨ s.dev.unended tag bs = [] ∨ b ∉ bs ∨ (∃ x ∈ s.dev.unended tag bs, x.residency ≠ .halting) ∨
    ∃ g ∈ s.dev.groupsOf tag bs, s.drained g = false

/-- A group that leaves its core with its block. -/
def Dev.savedGroup (d : Dev) (h : Group) : Group :=
  { h with place := none, was := h.place, xsaved := d.savedX h, xwait := if h.xsaved.isSome then h.xwait else none }

/-- A group without its place, with the saved words that a list gives it. -/
def Group.leaves (g : Group) (saved : List (GKey × Option (Cells 32))) : Group :=
  { g with
    place := none
    was := g.place
    xsaved := match saved.find? fun e => decide (e.1 = g.key) with | some e => e.2 | none => none
    xwait := if g.xsaved.isSome then g.xwait else none }

/-- Whether blocks that leave together are parked, and not saved (R300). -/
def Dev.parks (d : Dev) (la : Launch) (tag : Nat) (bs : List Nat) : Bool :=
  ((d.unended tag bs).all fun x => !x.requeue && !x.byDebugger) && !la.persistent && d.parkedNow tag bs

/-- The blocks and groups that have left their core. -/
def Dev.leaveCore (d : Dev) (la : Launch) (tag : Nat) (bs : List Nat) : Dev :=
  { (d.groupsOf tag bs).foldl (fun d g => d.dropX g true) d with
    blocks := d.blocks.map fun x => if x.launch = tag ∧ x.index ∈ bs ∧ x.residency = .halting then
      { x with residency := if d.parks la tag bs then .parked else .saved } else x
    groups := d.groups.map fun g =>
      if g.key.launch = tag ∧ g.key.block ∈ bs then g.leaves ((d.groupsOf tag bs).map fun g => (g.key, d.savedX g)) else g }

theorem exec_preemptSave_idle (hl : s.dev.launch? tag = some la) (h : s.saveIdle la tag b (la.together b)) : exec (.preemptSave tag b) s = .next s := by
  show commit s _ = _
  simp only [hl]
  rw [if_pos]
  · rfl
  show (s.dev.endsJob la.job || _ || _ || _ || _) = true
  simp only [Bool.or_eq_true, Dev.endsJob_iff, or_assoc]
  refine h.imp_right (Or.imp (by simp) (Or.imp (by simp) (Or.imp ?_ ?_)))
  · rintro ⟨x, hx, hr⟩
    rw [Bool.not_eq_true', List.all_eq_false]
    exact ⟨x, hx, by simpa using hr⟩
  · rintro ⟨g, hg, hr⟩
    rw [Bool.not_eq_true', List.all_eq_false]
    exact ⟨g, hg, by simp [hr]⟩

theorem Dev.parks_eq {bs : List Nat} : (!((d.unended tag bs).any fun x => x.requeue || x.byDebugger) && !la.persistent && d.parkedNow tag bs) =
    d.parks la tag bs := by
  simp [Dev.parks, List.not_any_eq_all_not]

/-- Blocks that leave: they go to the tail of the queue where no one has asked for them and they are not parked. -/
theorem exec_preemptSave_saves (hl : s.dev.launch? tag = some la) (h : ¬ s.saveIdle la tag b (la.together b)) :
    ∃ back : Launch → Launch, exec (.preemptSave tag b) s = .next (s.withDev fun d => d.leaveCore la tag (la.together b)) ∨
      exec (.preemptSave tag b) s = .next (s.withDev fun d => (d.leaveCore la tag (la.together b)).modLaunch tag back) := by
  refine ⟨fun l => { l with back := l.back ++ [l.unit b] }, ?_⟩
  show commit s _ = _ ∨ commit s _ = _
  simp only [hl]
  rw [if_neg]
  · simp only [Dev.parks_eq, Dev.dropXs_groups, Dev.dropXs_blocks, List.contains_iff_mem]
    split
    · exact .inl rfl
    · exact .inr rfl
  show ¬ (s.dev.endsJob la.job || _ || _ || _ || _) = true
  simp only [Bool.or_eq_true, Dev.endsJob_iff, or_assoc]
  refine mt (Or.imp_right (Or.imp (by simp) (Or.imp (by simp) (Or.imp ?_ ?_)))) h
  · rw [Bool.not_eq_true', List.all_eq_false]
    rintro ⟨x, hx, hr⟩
    exact ⟨x, hx, by simpa using hr⟩
  · rw [Bool.not_eq_true', List.all_eq_false]
    rintro ⟨g, hg, hr⟩
    exact ⟨g, hg, by simpa using hr⟩

theorem mem_groupsOf {bs : List Nat} {g : Group} : g ∈ d.groupsOf tag bs ↔ g ∈ d.groups ∧ g.key.launch = tag ∧ g.key.block ∈ bs := by
  simp [Dev.groupsOf]

/-- The groups of some blocks hold every group of theirs that is found. -/
theorem find?_groupsOf {bs : List Nat} {k : GKey} (ht : k.launch = tag) (hb : k.block ∈ bs) :
    (d.groupsOf tag bs).find? (fun g => decide (g.key = k)) = d.group? k := by
  rw [Dev.groupsOf, List.find?_filter]
  congr 1
  funext g
  by_cases e : g.key = k <;> simp [e, ht, hb]

theorem Group.leaves_found {bs : List Nat} {h : Group} (hh : d.group? h.key = some h) (ht : h.key.launch = tag) (hb : h.key.block ∈ bs) :
    h.leaves ((d.groupsOf tag bs).map fun g => (g.key, d.savedX g)) = d.savedGroup h := by
  have hf : ((d.groupsOf tag bs).map fun g => (g.key, d.savedX g)).find? (fun e => decide (e.1 = h.key)) = some (h.key, d.savedX h) := by
    rw [List.find?_map]
    exact congrArg (Option.map fun g => (g.key, d.savedX g)) ((find?_groupsOf ht hb).trans hh)
  simp only [Group.leaves, hf, Dev.savedGroup]

/-- What leaving the core does to each group. -/
def Dev.leaveGroup (d : Dev) (tag : Nat) (bs : List Nat) (g : Group) : Group :=
  if g.key.launch = tag ∧ g.key.block ∈ bs then g.leaves ((d.groupsOf tag bs).map fun g => (g.key, d.savedX g)) else g

@[simp] theorem Dev.leaveGroup_key (d : Dev) (bs : List Nat) (g : Group) : (d.leaveGroup tag bs g).key = g.key := by
  unfold Dev.leaveGroup; split <;> rfl

theorem Dev.leaveCore_place {bs : List Nat} {g : Group} (hg : g ∈ (d.leaveCore la tag bs).groups) (ht : g.key.launch = tag) (hb : g.key.block ∈ bs) :
    g.place = none := by
  obtain ⟨x, -, rfl⟩ : ∃ x ∈ d.groups, d.leaveGroup tag bs x = g := List.mem_map.mp hg
  rw [Dev.leaveGroup_key] at ht hb
  rw [Dev.leaveGroup, if_pos ⟨ht, hb⟩]
  rfl

theorem Dev.leaveCore_group {bs : List Nat} {h : Group} (hh : d.group? h.key = some h) (ht : h.key.launch = tag) (hb : h.key.block ∈ bs) :
    (d.leaveCore la tag bs).group? h.key = some (d.savedGroup h) :=
  calc (d.groups.map (d.leaveGroup tag bs)).find? (fun g => decide (g.key = h.key))
      = (d.group? h.key).map (d.leaveGroup tag bs) := find?_map_group (d.leaveGroup_key bs) d.groups h.key
    _ = some (d.savedGroup h) := by rw [hh, Option.map_some, Dev.leaveGroup, if_pos ⟨ht, hb⟩, Group.leaves_found hh ht hb]

/-- The registers of groups stay as they are. -/
theorem Dev.leaveCore_registers {bs : List Nat} : (d.leaveCore la tag bs).groups.map (fun g => (g.key, g.lanes, g.gsr, g.q)) =
    d.groups.map fun g => (g.key, g.lanes, g.gsr, g.q) := by
  refine List.map_map.trans (List.map_congr_left fun g _ => ?_)
  show (fun g : Group => (g.key, g.lanes, g.gsr, g.q)) (d.leaveGroup tag bs g) = _
  unfold Dev.leaveGroup
  split <;> rfl

@[simp] theorem Dev.modLaunch_xsets (d : Dev) (t : Nat) (f : Launch → Launch) : (d.modLaunch t f).xsets = d.xsets := by
  unfold Dev.modLaunch; split <;> rfl
@[simp] theorem Dev.group?_modLaunch (d : Dev) (t : Nat) (f : Launch → Launch) (k : GKey) : (d.modLaunch t f).group? k = d.group? k := by
  unfold Dev.group?; rw [Dev.modLaunch_groups]

theorem drained_iff {g : Group} : s.drained g = true ↔ g.pend = [] ∧ g.watch = [] ∧ (∀ a ∈ g.acc, s.vtWaits g.key.launch a = true ∨ a.isDue = true) ∧
    (∀ x ∈ g.lanes, ∀ h, x.hold = some h → ∀ n, h.kind ≠ .cuvee n ∧ h.kind ≠ .slot n ∧ h.kind ≠ .bist n) ∧
    ∀ c ∈ s.dev.clusters, ∀ e ∈ c.all, e.g ≠ g.key := by
  have hold (x : Lane) : (match x.hold.map Hold.kind with
      | some (.cuvee _) | some (.slot _) | some (.bist _) => false
      | _ => true) = true ↔ ∀ h, x.hold = some h → ∀ n, h.kind ≠ .cuvee n ∧ h.kind ≠ .slot n ∧ h.kind ≠ .bist n := by
    cases hx : x.hold with
    | none => simp
    | some h =>
      cases hk : h.kind with
      | slot n => simpa [hk] using ⟨n.toNat, by simp⟩
      | _ => simp [hk]
  have sluice : (!s.dev.clusters.any fun c => c.all.any fun e => decide (e.g = g.key)) = true ↔ ∀ c ∈ s.dev.clusters, ∀ e ∈ c.all, e.g ≠ g.key := by
    simp
  simp only [State.drained, Bool.and_eq_true, List.isEmpty_iff, List.all_eq_true, Bool.or_eq_true, sluice, and_assoc, ← hold] <;> rfl

theorem Dev.savedX_placed {g : Group} {p : Place} (hp : g.place = some p) : d.savedX g = if d.holdsX g = true then some (d.xsetAt p).words else g.xsaved := by
  simp only [Dev.savedX, hp]

theorem Dev.savedX_unplaced {g : Group} (hp : g.place = none) : d.savedX g = g.xsaved := by simp only [Dev.savedX, hp]

/-! ### The copies of cuvée slots (R206) -/

theorem Dev.copySlots_same (d : Dev) (job : Nat) (c : Nat × Nat) : d.copySlots job c c = some d := if_pos rfl

/-- The slots of a job in a cluster. -/
def Dev.jobSlots (d : Dev) (job : Nat) (c : Nat × Nat) : List CuvSlot :=
  (d.cluster c.1 c.2).slots.filter fun x => decide (d.slotOwner x.n = some job) && decide (x.state ≠ .empty)

theorem Dev.copySlots_ne {job : Nat} {old new : Nat × Nat} (h : old ≠ new) : d.copySlots job old new =
    if ∃ x ∈ d.jobSlots job old, (d.cluster new.1 new.2).unnamed x.n = false then none
    else some (d.setCluster ((d.jobSlots job old).foldl Cluster.setSlot (d.cluster new.1 new.2))) := by
  refine (if_neg h).trans (if_congr ?_ rfl rfl)
  simp [Dev.jobSlots, and_assoc]

/-- Whether slots can be copied is said by the clusters and the owners of slots alone. -/
theorem Dev.copySlots_isSome_congr {e : Dev} {job : Nat} {old new : Nat × Nat} (hc : e.clusters = d.clusters) (ho : e.cuvOwner = d.cuvOwner) :
    (e.copySlots job old new).isSome = (d.copySlots job old new).isSome := by
  by_cases h : old = new
  · rw [h, Dev.copySlots_same, Dev.copySlots_same]; rfl
  · have hk (c : Nat × Nat) : e.cluster c.1 c.2 = d.cluster c.1 c.2 := by simp only [Dev.cluster, hc]
    have hs : e.jobSlots job old = d.jobSlots job old := by
      have hn (n : Nat) : e.slotOwner n = d.slotOwner n := by simp only [Dev.slotOwner, ho]
      rw [Dev.jobSlots, hk]
      exact List.filter_congr fun x _ => by rw [hn]
    rw [Dev.copySlots_ne h, Dev.copySlots_ne h, hs, hk new]
    split <;> rfl

/-- A copy changes clusters alone. -/
theorem Dev.copySlots_rest {e : Dev} {job : Nat} {old new : Nat × Nat} (h : d.copySlots job old new = some e) : e = { d with clusters := e.clusters } := by
  by_cases ho : old = new
  · subst ho
    cases (Dev.copySlots_same d job old).symm.trans h
    rfl
  · rw [Dev.copySlots_ne ho] at h
    split at h
    · cases h
    · cases h
      rfl

theorem Dev.block?_modBlock {x : Block} {n : Nat} {f : Block → Block} (hb : d.block? tag n = some x) (hf : (f x).launch = x.launch ∧ (f x).index = x.index) :
    (d.modBlock tag n f).block? tag n = some (f x) := by
  obtain ⟨rfl, rfl⟩ := Dev.block?_keys hb
  rw [Dev.modBlock, hb, ← hf.1, ← hf.2]
  exact Dev.block?_setBlock d (f x)

/-- A block whose copy is made, or has still to wait, stays as it is otherwise. -/
theorem Dev.settleCopy_waits {x : Block} (h : ∀ old new, x.copyFrom = some old → x.cluster = some new →
    d.copySlots (d.jobFor ⟨x.launch, x.index, 0⟩) old new = none) : d.settleCopy x = d := by
  unfold Dev.settleCopy
  split
  · rename_i old new ho hn
    rw [h old new ho hn]
  · rfl

theorem Dev.settleCopy_copies {x : Block} {old new : Nat × Nat} {e : Dev} (ho : x.copyFrom = some old) (hn : x.cluster = some new)
    (h : d.copySlots (d.jobFor ⟨x.launch, x.index, 0⟩) old new = some e) : d.settleCopy x =
      { e.modBlock x.launch x.index fun x => { x with copyFrom := none } with
        groups := e.groups.map fun g => if g.key.launch = x.launch ∧ g.key.block = x.index then { g with copying := false } else g } := by
  simp only [Dev.settleCopy, ho, hn, h]

theorem Dev.block?_settleCopy_copies {x : Block} {old new : Nat × Nat} {e : Dev} {n : Nat} (hb : d.block? tag n = some x) (ho : x.copyFrom = some old)
    (hn : x.cluster = some new) (h : d.copySlots (d.jobFor ⟨x.launch, x.index, 0⟩) old new = some e) :
    (d.settleCopy x).block? tag n = some { x with copyFrom := none } := by
  obtain ⟨rfl, rfl⟩ := Dev.block?_keys hb
  have he : e.block? x.launch x.index = some x := by rw [Dev.copySlots_rest h]; exact hb
  rw [Dev.settleCopy_copies ho hn h]
  exact Dev.block?_modBlock (f := fun x => { x with copyFrom := none }) he ⟨rfl, rfl⟩

theorem Dev.block?_settleCopy {x : Block} {n : Nat} (hb : d.block? tag n = some x) :
    ∃ c, (d.settleCopy x).block? tag n = some { x with copyFrom := c } := by
  by_cases h : ∀ old new, x.copyFrom = some old → x.cluster = some new → d.copySlots (d.jobFor ⟨x.launch, x.index, 0⟩) old new = none
  · exact ⟨x.copyFrom, by rw [Dev.settleCopy_waits h]; exact hb⟩
  · push Not at h
    obtain ⟨old, new, ho, hn, h⟩ := h
    obtain ⟨e, he⟩ := Option.ne_none_iff_exists'.mp h
    exact ⟨none, Dev.block?_settleCopy_copies hb ho hn he⟩

/-! ### A block that is put back (R206, R304) -/

theorem Dev.requestX_rest (d : Dev) (g : Group) : d.requestX g = { d with xsets := (d.requestX g).xsets } := by
  unfold Dev.requestX
  split
  · rfl
  · dsimp only
    split <;> rfl

/-- The requests of groups for their pair's lock, where they want it. -/
def Dev.requestXs (d : Dev) (gs : List Group) : Dev := gs.foldl (fun d g => if g.run ≠ .ended ∧ g.wantsX then d.requestX g else d) d

theorem Dev.requestXs_rest (d : Dev) (gs : List Group) : d.requestXs gs = { d with xsets := (d.requestXs gs).xsets } := by
  induction gs generalizing d with
  | nil => rfl
  | cons g gs ih =>
    show Dev.requestXs _ gs = { d with xsets := (Dev.requestXs _ gs).xsets }
    rw [ih]
    dsimp only
    split
    · rw [Dev.requestX_rest]
    · rfl

/-- Groups put in place. -/
def Dev.setGroups (d : Dev) (gs : List Group) : Dev := gs.foldl Dev.setGroup d

theorem Dev.setGroups_rest (d : Dev) (gs : List Group) : d.setGroups gs = { d with groups := (d.setGroups gs).groups } := by
  induction gs generalizing d with
  | nil => rfl
  | cons g gs ih =>
    show (d.setGroup g).setGroups gs = { d with groups := ((d.setGroup g).setGroups gs).groups }
    rw [ih]
    rfl

/-- A group that is found is one of those put in place, or none of them has its key. -/
theorem Dev.group?_setGroups {gs : List Group} {k : GKey} {g : Group} (h : (d.setGroups gs).group? k = some g) :
    g ∈ gs ∨ d.group? k = some g ∧ ∀ x ∈ gs, x.key ≠ k := by
  induction gs generalizing d with
  | nil => exact .inr ⟨h, by simp⟩
  | cons a gs ih =>
    rcases ih (d := d.setGroup a) h with hm | ⟨hd, hn⟩
    · exact .inl (.tail _ hm)
    · by_cases e : k = a.key
      · rw [e, Dev.group?_setGroup, Option.some.injEq] at hd
        exact .inl (hd ▸ .head _)
      · rw [Dev.group?_setGroup_ne _ _ _ e] at hd
        exact .inr ⟨hd, by simpa using ⟨fun h => e h.symm, hn⟩⟩

/-- The cluster that a block's slots are to be copied from, where it is another than the new one. -/
def Dev.oldCluster (d : Dev) (tag b : Nat) (new : Nat × Nat) : Option (Nat × Nat) := ((d.block? tag b).bind Block.slotsFrom).filter fun c => decide (c ≠ new)

/-- A block on its new core. -/
def Block.putBack (x : Block) (die core : Nat) (old : Option (Nat × Nat)) : Block :=
  { x with
    residency := .resident
    cluster := some (die, core / 4)
    core := core
    quantum := 0
    requeue := false
    byDebugger := false
    copyFrom := old }

/-- The groups of a block on its new core. -/
def Dev.backGroups (d : Dev) (tag b die core : Nat) : List Group :=
  (d.groupsOf tag [b]).map fun g =>
    let p : Place := ⟨die, core, (d.slotsFree die core).getD g.key.group 0⟩
    if g.run = .ended then { g with place := some p, was := none } else g.restored p d.time (d.oldCluster tag b (die, core / 4)).isSome

/-- A block and its groups on a new core, before any slot is copied. -/
def Dev.putBack (d : Dev) (tag b die core : Nat) : Dev :=
  ((d.modBlock tag b fun x => x.putBack die core (d.oldCluster tag b (die, core / 4))).setGroups (d.backGroups tag b die core)).requestXs
    (d.backGroups tag b die core)

theorem did_restoreBlock (s : State) (tag b die core : Nat) : s.did (restoreBlock tag b die core) = s.withDev fun d =>
    ((d.putBack tag b die core).block? tag b).elim (d.putBack tag b die core) (d.putBack tag b die core).settleCopy := by
  show { s with dev := _ } = _
  refine congrArg (fun e => { s with dev := e }) ?_
  show (match (s.dev.putBack tag b die core).block? tag b with
    | some x => (s.dev.putBack tag b die core).settleCopy x
    | none => s.dev.putBack tag b die core) = ((s.dev.putBack tag b die core).block? tag b).elim (s.dev.putBack tag b die core)
      (s.dev.putBack tag b die core).settleCopy
  cases (s.dev.putBack tag b die core).block? tag b <;> rfl

theorem Dev.putBack_rest (d : Dev) (tag b die core : Nat) : d.putBack tag b die core = { d with
    blocks := (d.modBlock tag b fun x => x.putBack die core (d.oldCluster tag b (die, core / 4))).blocks
    groups := (d.putBack tag b die core).groups
    xsets := (d.putBack tag b die core).xsets } := by
  unfold Dev.putBack
  rw [Dev.requestXs_rest, Dev.setGroups_rest, Dev.modBlock_rest]

theorem Dev.block?_putBack {die core : Nat} {x : Block} (hb : d.block? tag b = some x) :
    (d.putBack tag b die core).block? tag b = some (x.putBack die core (d.oldCluster tag b (die, core / 4))) := by
  rw [Dev.putBack_rest]
  exact Dev.block?_modBlock hb ⟨rfl, rfl⟩

theorem Dev.putBack_copies {die core job : Nat} {old new : Nat × Nat} :
    ((d.putBack tag b die core).copySlots job old new).isSome = (d.copySlots job old new).isSome :=
  Dev.copySlots_isSome_congr (by rw [Dev.putBack_rest]) (by rw [Dev.putBack_rest])

theorem Dev.putBack_jobFor {die core : Nat} {k : GKey} : (d.putBack tag b die core).jobFor k = d.jobFor k := by rw [Dev.putBack_rest]; rfl

theorem Dev.group?_putBack {die core n : Nat} {g : Group} (h : (d.putBack tag b die core).group? ⟨tag, b, n⟩ = some g) :
    g ∈ d.backGroups tag b die core := by
  have h' : ((d.modBlock tag b fun x => x.putBack die core (d.oldCluster tag b (die, core / 4))).setGroups (d.backGroups tag b die core)).group?
      ⟨tag, b, n⟩ = some g := by
    unfold Dev.putBack at h
    rw [Dev.requestXs_rest] at h
    exact h
  rcases Dev.group?_setGroups h' with hm | ⟨hd, hn⟩
  · exact hm
  · rw [Dev.modBlock_rest] at hd
    have hg : d.group? ⟨tag, b, n⟩ = some g := hd
    have hk := Dev.group?_key hg
    refine absurd ?_ (hn _ (List.mem_map_of_mem (mem_groupsOf.mpr ⟨List.mem_of_find?_eq_some hg, by simp [hk]⟩)))
    dsimp only
    split <;> exact hk

theorem mem_backGroups {die core : Nat} {g : Group} (h : g ∈ d.backGroups tag b die core) (hr : g.run ≠ .ended) :
    g.copying = (d.oldCluster tag b (die, core / 4)).isSome := by
  obtain ⟨x, -, rfl⟩ := List.mem_map.mp h
  dsimp only at hr ⊢
  split at hr
  next hx => exact absurd hx hr
  next hx => rw [if_neg hx]; rfl

theorem restoreBlock_block {die core : Nat} {x : Block} (hb : s.dev.block? tag b = some x) : ∃ c,
    (s.did (restoreBlock tag b die core)).dev.block? tag b = some { x.putBack die core c with copyFrom := c } := by
  rw [did_restoreBlock]
  simp only [State.withDev, Dev.block?_putBack hb, Option.elim]
  obtain ⟨c, hc⟩ := Dev.block?_settleCopy (Dev.block?_putBack hb)
  exact ⟨c, hc⟩

theorem Dev.oldCluster_some {new old : Nat × Nat} {x : Block} (hb : d.block? tag b = some x)
    (ho : x.copyFrom = some old ∨ x.copyFrom = none ∧ x.cluster = some old) (hn : old ≠ new) : d.oldCluster tag b new = some old := by
  have hs : x.slotsFrom = some old := by
    rcases ho with h | ⟨h, hc⟩
    · simp only [Block.slotsFrom, h]
    · simp only [Block.slotsFrom, h, hc]
  simp [Dev.oldCluster, hb, hs, hn]

theorem restoreBlock_copies {die core : Nat} {x : Block} {old : Nat × Nat} (hb : s.dev.block? tag b = some x)
    (ho : x.copyFrom = some old ∨ x.copyFrom = none ∧ x.cluster = some old) (hn : old ≠ (die, core / 4)) :
    let t := s.did (restoreBlock tag b die core)
    let now := (s.dev.copySlots (s.dev.jobFor ⟨tag, b, 0⟩) old (die, core / 4)).isSome
    (∃ y, t.dev.block? tag b = some y ∧ y.copyFrom = if now then none else some old) ∧
      ∀ n g, t.dev.group? ⟨tag, b, n⟩ = some g → g.run ≠ .ended → g.copying = !now := by
  intro t now
  have hold := Dev.oldCluster_some hb ho hn
  have hp := Dev.block?_putBack (die := die) (core := core) hb
  obtain ⟨ht, hi⟩ := Dev.block?_keys hb
  have hnow : ((s.dev.putBack tag b die core).copySlots ((s.dev.putBack tag b die core).jobFor ⟨tag, b, 0⟩) old (die, core / 4)).isSome = now := by
    rw [Dev.putBack_copies, Dev.putBack_jobFor]
  have htd : t.dev = (s.dev.putBack tag b die core).settleCopy (x.putBack die core (some old)) := by
    show (s.did (restoreBlock tag b die core)).dev = _
    rw [did_restoreBlock, State.withDev, hp, hold]
    rfl
  rw [hold] at hp
  rw [htd]
  have hkey : (⟨(x.putBack die core (some old)).launch, (x.putBack die core (some old)).index, 0⟩ : GKey) = ⟨tag, b, 0⟩ := by
    simp [Block.putBack, ht, hi]
  cases hc : (s.dev.putBack tag b die core).copySlots ((s.dev.putBack tag b die core).jobFor ⟨tag, b, 0⟩) old (die, core / 4) with
  | none =>
    rw [hc, Option.isSome_none] at hnow
    rw [Dev.settleCopy_waits fun o n h1 h2 => by
      cases Option.some.inj h1
      cases Option.some.inj h2
      rw [hkey]
      exact hc]
    refine ⟨⟨_, hp, by rw [← hnow]; rfl⟩, fun n g hg hr => ?_⟩
    rw [← hnow, mem_backGroups (Dev.group?_putBack hg) hr, hold]
    rfl
  | some e =>
    rw [hc, Option.isSome_some] at hnow
    have hc' := hkey ▸ hc
    refine ⟨⟨_, Dev.block?_settleCopy_copies hp rfl rfl hc', by rw [← hnow]; rfl⟩, fun n g hg _ => ?_⟩
    rw [Dev.settleCopy_copies rfl rfl hc'] at hg
    have hk := Dev.group?_key hg
    obtain ⟨y, -, hy⟩ := List.mem_map.mp (List.mem_of_find?_eq_some hg)
    rw [← hnow]
    split at hy
    next => rw [← hy]; rfl
    next hne =>
      refine absurd ?_ hne
      rw [hy, hk]
      exact ⟨ht.symm, hi.symm⟩

theorem Group.lane_restored (g : Group) (p : Place) (now : Nat) (c : Bool) (m : Nat) : let x := (g.restored p now c).lane m
    x.starve = (g.lane m).starve ∧ x.v = (g.lane m).v ∧ x.m = (g.lane m).m ∧ x.pw = (g.lane m).pw ∧ x.mode = (g.lane m).mode ∧
      x.ssp = (g.lane m).ssp ∧ x.pending = (g.lane m).pending := by
  have hr (x : Lane) : x.restored.starve = x.starve ∧ x.restored.v = x.v ∧ x.restored.m = x.m ∧ x.restored.pw = x.pw ∧ x.restored.mode = x.mode ∧
      x.restored.ssp = x.ssp ∧ x.restored.pending = x.pending := by
    unfold Lane.restored
    dsimp only
    split <;> exact ⟨rfl, rfl, rfl, rfl, rfl, rfl, rfl⟩
  have hl : (g.restored p now c).lane m = (g.lane m).restored := by
    show (g.lanes.map Lane.restored).getD m Lane.empty = (g.lanes.getD m Lane.empty).restored
    exact List.getD_map g.lanes Lane.empty Lane.restored
  dsimp only
  rw [hl]
  exact hr _

/-! ### The head of a queue, restored (R304) -/

theorem mem_sortNat {n : Nat} {xs : List Nat} : n ∈ sortNat xs ↔ n ∈ xs := by
  have hi (a : Nat) (ys : List Nat) : n ∈ insertNat a ys ↔ n = a ∨ n ∈ ys := by
    induction ys with
    | nil => simp [insertNat]
    | cons y ys ih =>
      unfold insertNat
      split
      · simp
      · split
        next e => simp [e]
        · simp [ih, or_left_comm]
  induction xs with
  | nil => rfl
  | cons x xs ih => rw [sortNat, List.foldr_cons, hi, List.mem_cons]; exact or_congr_right ih

theorem mem_unended {bs : List Nat} {x : Block} : x ∈ d.unended tag bs ↔ x ∈ d.blocks ∧ x.launch = tag ∧ x.index ∈ bs ∧ x.residency ≠ .ended := by
  simp [Dev.unended, and_assoc]

/-- The blocks that have not ended are those of their own numbers. -/
theorem unended_index {bs : List Nat} : d.unended tag (sortNat ((d.unended tag bs).map Block.index)) = d.unended tag bs := by
  refine List.filter_congr fun x hx => ?_
  rw [Bool.eq_iff_iff]
  simp only [Bool.and_eq_true, decide_eq_true_eq, List.contains_iff_mem, mem_sortNat, List.mem_map, mem_unended]
  constructor
  · rintro ⟨⟨ht, y, ⟨-, -, hy, -⟩, e⟩, hr⟩
    exact ⟨⟨ht, e ▸ hy⟩, hr⟩
  · rintro ⟨⟨ht, hi⟩, hr⟩
    exact ⟨⟨ht, x, ⟨hx, ht, hi, hr⟩, rfl⟩, hr⟩

theorem exec_blockRestore_idle {cl : Nat} {cores : List Nat} (h : s.dev.launch? tag = none ∨ ∃ la, s.dev.launch? tag = some la ∧ s.dev.mayPlace la = false) :
    exec (.blockRestore tag cl cores) s = .next s := by
  show commit s _ = _
  rcases h with h | ⟨la, h, hm⟩
  · rw [h]; rfl
  · simp only [h, hm, if_true]; rfl

/-- Whether blocks are saved, and no debugger holds one. -/
def readyBlocks (xs : List Block) : Prop := ∀ x ∈ xs, x.residency = .saved ∧ x.byDebugger = false

theorem all_ready {xs : List Block} : (xs.all fun b => decide (b.residency = .saved) && !b.byDebugger) = true ↔ readyBlocks xs := by
  simp [readyBlocks]

theorem all_ready_eq_false {xs : List Block} : (xs.all fun b => decide (b.residency = .saved) && !b.byDebugger) = false ↔
    ∃ x ∈ xs, x.residency ≠ .saved ∨ x.byDebugger = true := by
  simp only [List.all_eq_false, Bool.and_eq_true, decide_eq_true_eq, Bool.not_eq_true', not_and_or, Bool.not_eq_false]

/-- Whether the gang of a queue's head is restored to some cores of a cluster. -/
def Dev.restores (d : Dev) (la : Launch) (u cl : Nat) (cores : List Nat) : Prop :=
  let mine := d.unended la.tag (la.gangBlocks u)
  let bs := sortNat (mine.map Block.index)
  u ≠ la.fresh ∧ bs ≠ [] ∧ readyBlocks mine ∧ (la.resLimit = 0 ∨ d.residents la.tag + bs.length ≤ la.resLimit) ∧
    d.coresFit la cl cores bs.length = true

theorem exec_blockRestore_empty {cl : Nat} {cores : List Nat} (hl : s.dev.launch? tag = some la) (hm : s.dev.mayPlace la = true)
    (hp : la.persistent = false) (hu : s.dev.nextGang la = none) : exec (.blockRestore tag cl cores) s = .next s := by
  show commit s _ = _
  simp only [hl, hm, hp, hu, Bool.true_eq_false, Bool.false_eq_true, if_false]
  rfl

theorem exec_blockRestore_gang {cl u : Nat} {cores : List Nat} (hl : s.dev.launch? tag = some la) (hm : s.dev.mayPlace la = true)
    (hp : la.persistent = false) (hu : s.dev.nextGang la = some u) :
    (s.dev.restores la u cl cores → exec (.blockRestore tag cl cores) s = .next (s.did (restoreBlocks la (cl / 24)
      ((sortNat ((s.dev.unended la.tag (la.gangBlocks u)).map Block.index)).zip (cores.map fun k => 4 * (cl % 24) + k))))) ∧
    (¬ s.dev.restores la u cl cores → exec (.blockRestore tag cl cores) s = .next s) := by
  cases Dev.launch?_tag hl
  constructor
  · rintro ⟨h1, h2, h3, h4, h5⟩
    show commit s _ = _
    simp only [hl, hm, hp, hu, Bool.true_eq_false, Bool.false_eq_true, if_false, unended_index]
    rw [if_neg]
    · rfl
    simp only [not_or, Bool.not_eq_false, List.isEmpty_iff, all_ready]
    exact ⟨h1, h2, h3, by simpa [Dev.admits] using h4, h5⟩
  · intro h
    show commit s _ = _
    simp only [hl, hm, hp, hu, Bool.true_eq_false, Bool.false_eq_true, if_false, unended_index]
    rw [if_pos]
    · rfl
    by_contra hn
    simp only [not_or, Bool.not_eq_false, List.isEmpty_iff, all_ready] at hn
    obtain ⟨h1, h2, h3, h4, h5⟩ := hn
    exact h ⟨h1, h2, h3, by simpa [Dev.admits] using h4, h5⟩

theorem exec_blockRestore_persistent {cl : Nat} {cores : List Nat} (hl : s.dev.launch? tag = some la) (hm : s.dev.mayPlace la = true)
    (hp : la.persistent = true) : let gangs := s.dev.gangsLeft la
    exec (.blockRestore tag cl cores) s = .next (
      if gangs = [] ∨ (∃ x ∈ s.dev.unended tag gangs.flatten, x.residency ≠ .saved ∨ x.byDebugger = true) then s
      else (s.dev.findDie la gangs).elim (s.withDev fun d => { d with free := d.free + 1 }) fun e =>
        (s.withDev fun d => { d with free := d.free + 1 }).did (restoreBlocks la e.1 e.2)) := by
  intro gangs
  show commit s _ = _
  simp only [hl, hm, hp, Bool.true_eq_false, if_false, if_true, Bool.or_eq_true, List.isEmpty_iff, Bool.not_eq_true', all_ready_eq_false]
  split
  · rfl
  · show commit s (match s.dev.findDie la gangs with
      | none => [.dev { s.dev with free := s.dev.free + 1 }]
      | some (die, xs) => Part.seq [Part.mod (fun d => { d with free := d.free + 1 }), restoreBlocks la die xs] s) = _
    cases s.dev.findDie la gangs with
    | none => rfl
    | some e => exact congrArg Host.Outcome.next (State.did_seq_pair ..)

/-! ### The time of a group that is saved (R304) -/

theorem passLane_fields (s : State) (g : Group) (n m : Nat) : let x := s.passLane g n m
    x.pc = (g.lane m).pc ∧ x.v = (g.lane m).v ∧ x.m = (g.lane m).m ∧ x.pw = (g.lane m).pw ∧ x.hold = (g.lane m).hold.map (s.dev.passHold g n m) ∧
    x.starve = if g.counts = false ∨ g.xsaved.isSome = true ∨ g.copying = true then (g.lane m).starve
      else if s.cellWait g m = true then (g.lane m).starve + n else 0 := by
  refine ⟨rfl, rfl, rfl, rfl, rfl, ?_⟩
  simp only [State.passLane, Bool.or_eq_true, Bool.not_eq_true', or_assoc]

end

/-! ### O35 -/

/-- Settles O35: R302 to R306. -/
theorem preemption : Obligations.Preemption := by
  unfold Obligations.Preemption
  refine ⟨?_, ?_, ?_, ?_, fun s g => drained_iff, ?_, ?_, ?_, ?_, ?_, ?_, ?_, ?_, fun d job c => Dev.copySlots_same d job c,
    fun d job old new h => Dev.copySlots_ne h, fun s g n m => passLane_fields s g n m⟩
  · intro s tag b h
    show commit s _ = _
    rw [h]
    rfl
  · intro s tag b la hl bs here
    have he : exec (.preemptRequest tag b) s = .next { s with dev := s.dev.requestHalt la b true false } := by
      show commit s _ = _
      rw [hl]
      rfl
    refine ⟨fun h => by rw [he, Dev.requestHalt_idle (show s.dev.haltIdle la bs from h)], fun hj hb hg => ?_⟩
    have hn : ¬ s.dev.haltIdle la bs := by
      obtain ⟨j, hj, hje⟩ := hj
      obtain ⟨x, hx, hh⟩ := hb
      rintro (h | h | ⟨g, hm, ht, hi, hr⟩)
      · exact h j hj hje
      · exact h x hx hh
      · exact hg g hm ht hi hr
    refine ⟨_, he, ?_⟩
    rw [Dev.requestHalt_halts hn]
    have hh : (s.dev.halted la (la.together b) true false).launch? tag = some la := hl
    split
    next hp =>
      cases Dev.launch?_tag hl
      exact ⟨Dev.modLaunch_blocks .., Dev.modLaunch_groups .., fun _ => ⟨_, by rw [Dev.modLaunch_found hh]; exact Dev.launch?_setLaunch_of rfl, rfl⟩⟩
    next hp => exact ⟨rfl, rfl, fun h => absurd ⟨rfl, h⟩ hp⟩
  · intro s tag b h
    show commit s _ = _
    rw [h]
    rfl
  · intro s tag b la hl bs gs mine
    refine ⟨fun h => exec_preemptSave_idle hl h, ?_⟩
    intro hj hm hb hr hd parked
    have hn : ¬ s.saveIdle la tag b bs := by
      obtain ⟨j, hj, hje⟩ := hj
      rintro (h | h | h | ⟨x, hx, h⟩ | ⟨g, hg, h⟩)
      · exact h j hj hje
      · exact hm h
      · exact h hb
      · exact h (hr x hx)
      · exact absurd (hd g hg) (by simp [h])
    obtain ⟨back, h | h⟩ := exec_preemptSave_saves hl hn
    · exact ⟨_, h, rfl, fun g => Dev.leaveCore_place, rfl, fun h => Dev.leaveCore_group, Dev.leaveCore_registers⟩
    · refine ⟨_, h, Dev.modLaunch_blocks .., fun g hg => Dev.leaveCore_place (by rwa [Dev.modLaunch_groups] at hg), Dev.modLaunch_xsets ..,
        fun h hh ht hb => (Dev.group?_modLaunch ..).trans (Dev.leaveCore_group hh ht hb), ?_⟩
      rw [Dev.modLaunch_groups]
      exact Dev.leaveCore_registers
  · exact fun d g => ⟨Dev.savedX_unplaced, fun p => Dev.savedX_placed⟩
  · exact fun d g sv p x => Dev.dropX_of sv
  · exact fun s tag cl cores => exec_blockRestore_idle
  · intro s tag cl cores la hl hm hp
    cases Dev.launch?_tag hl
    cases hu : s.dev.nextGang la with
    | none => exact exec_blockRestore_empty hl hm hp hu
    | some u =>
      obtain ⟨hy, hn⟩ := exec_blockRestore_gang (cl := cl) (cores := cores) hl hm hp hu
      dsimp only
      split
      next h => exact hy h
      next h => exact hn h
  · intro s tag cl cores la hl hm hp gangs
    rw [exec_blockRestore_persistent hl hm hp]
    refine congrArg Host.Outcome.next (if_congr Iff.rfl rfl ?_)
    cases s.dev.findDie la gangs <;> rfl
  · intro g p now c
    exact ⟨rfl, rfl, rfl, rfl, rfl, List.length_map .., rfl, rfl, rfl, rfl, rfl, rfl, fun h => if_neg h, fun h => if_pos h, Group.lane_restored g p now c⟩
  · intro s tag b die core t
    have ht : t = s.withDev _ := did_restoreBlock s tag b die core
    refine ⟨by rw [ht]; rfl, by rw [ht]; rfl, by rw [ht]; rfl, by rw [ht]; rfl, fun x hx => ?_⟩
    obtain ⟨c, hc⟩ := restoreBlock_block hx
    exact ⟨_, hc, rfl, rfl, rfl, rfl, rfl, rfl, rfl⟩
  · exact fun s tag b die core x old hb ho hn => restoreBlock_copies hb ho hn

end Sys2Proof.Machine
end

