-- ==== Sys2Proof/Proofs/RemoteStart.lean ====
section
/-!
PROOF. Why the statement on words that complete does not hold as it stands: its clauses on `rcp.put`, `rcp.get` and `ratom` leave the operation
unsent, where one that nothing keeps puts its request on its way at once (R362).
-/

namespace Sys2Proof.Machine

/-! ### A copy of 16 bytes to the pad of this package -/

/-- The launch of one block of one group, without code. -/
def putLaunch : Launch := fetchLaunch 0

/-- The operand group from v16 on, in lane 0: 16 bytes of block memory from address 0, to pad address 0 of package 0, with the object at block
address 0 (R359). -/
def putOperands : Cells 32 := [(17, 0x80000000), (20, 16)]

def putGroup : Group := (newGroup putLaunch 0 0 ⟨0, 0, 0⟩).modLane 0 fun x => { x with v := putOperands }

/-- All eight lanes at slot 0 of packet 8, a stop site. -/
def putIssue : Issue := ⟨⟨0, 0, 0⟩, 0x80, countFrom 0 8, countFrom 0 8, false, true, none, 15, false⟩

/-- No operation is in flight, and the batch issues its word. -/
def putState : State := { State.reset with dev := { Dev.reset with
  launches := [putLaunch], jobs := [fetchJob], blocks := [newBlock putLaunch 0 0 0], groups := [putGroup], cur := some putIssue } }

theorem putState_issues : Issues putState (.rcpPut 16) putIssue putGroup putLaunch := ⟨rfl, rfl, rfl, by decide⟩

/-- For each operation in flight in the state that an outcome leaves, whether its request has been sent. -/
def sentOps : Host.Outcome State Fault Refusal → Option (List Bool)
  | .next t => some (t.dev.ops.map EngineOp.sent)
  | _ => none

/-- The word's operation is the only one in flight, and it has started. -/
theorem sentOps_put : sentOps (exec (.rcpPut 16) putState) = some [true] := by decide +kernel

/-- Refutes O60: its clause on `rcp.get` and `rcp.put` makes the operation that such a word leaves one whose request has not been sent, where the
model sends it with the word if nothing before it keeps it (R362, `startRemote`). -/
theorem not_wordsComplete : ¬ Obligations.WordsComplete := by
  unfold Obligations.WordsComplete
  rintro ⟨-, -, -, -, -, -, -, -, -, -, -, -, -, -, remote, -⟩
  obtain ⟨u, he, ho, -⟩ := remote false 16 putState putIssue putGroup putLaunch 0 0 putState_issues rfl (by decide) (by decide) (by decide)
    (by decide +kernel) (by decide +kernel) (by decide +kernel)
  have hs := sentOps_put
  have he' : exec (.rcpPut 16) putState = .next u := he
  rw [he', sentOps, ho] at hs
  exact absurd hs (by decide)

end Sys2Proof.Machine
end

