-- ==== Sys2Proof/Proofs/Exchanges.lean ====
section
/-!
PROOF. The group exchanges (R164 to R168): each is the checks that all words share and then the results of its rule on their way, with the latency of
its opcode.
-/

namespace Sys2Proof.Machine

-- One lemma after another, within the memory of the check.
set_option Elab.async false

/-! ### Exchanges of one register -/

/-- R164: a receiver's value is that of its source lane where that lane is a source, and its own otherwise. -/
theorem exchanged_eq (d : Dev) (g : Group) (c : Issue) (n k : Nat) (j : Option Nat) : exchanged d g c n k j = match j with
    | some m => if m ∈ c.on then srcV d g c m n else srcV d g c k n
    | none => srcV d g c k n := by
  cases j with
  | none => rfl
  | some m => simp [exchanged]

/-- An exchange whose source lane, from a receiver's own registers and its index, is the one that its rule names. -/
theorem Retires.of_exchangeWord {i : Instr} {d a : Reg} {src : Dev → Group → Issue → Nat → Option Nat}
    {rule : (Nat → Word) → Group → Nat → Option Nat} (hsrc : ∀ dv g c k, src dv g c k = rule (srcV dv g c k) g k)
    (hu : i.uni = false) (hl : i.latency = 4) (he : ∀ s, exec i s = commit s (exchangeWord i d a src s)) :
    Retires i ⟨false, 4, exchangeOuts d a rule⟩ := by
  refine .of_word hu hl fun s => ?_
  rw [he, exchangeWord]
  simp only [exchanged_eq, hsrc]
  rfl

/-! ### The rules -/

/-- R41, R164 to R168: each exchange does what its rule says; the opcodes 0x30 to 0x32 take 4 die cycles, and 0x33 takes 8. -/
theorem retires_of_exchangeRule {i : Instr} {r : ResultRule} (h : exchangeRule i = some r) : Retires i r := by
  unfold exchangeRule at h
  split at h <;> cases h
  case h_1 | h_2 | h_3 =>
    exact .of_exchangeWord (fun _ _ _ _ => rfl) rfl (latency_of _ 0x30 4 (by simp only [encodeNat, placed]; omega) rfl) fun _ => rfl
  case h_4 =>
    exact .of_exchangeWord (fun _ _ _ k => by rw [Nat.mul_comm]) rfl (latency_of _ 0x30 4 (by simp only [encodeNat, placed]; omega) rfl) fun _ => rfl
  case h_10 | h_11 | h_12 | h_13 => exact .of_word rfl (latency_of _ 0x32 4 (by simp only [encodeNat, placed]; omega) rfl) fun _ => rfl
  case h_14 k | h_15 k | h_16 k =>
    have := k.code_lt
    exact .of_word rfl (latency_of _ 0x33 8 (by simp only [encodeNat, placed]; omega) rfl) fun _ => rfl
  all_goals
    exact .of_exchangeWord (fun _ _ _ _ => rfl) rfl (latency_of _ 0x31 4 (by simp only [encodeNat, placed]; omega) rfl) fun _ => rfl

/-- Settles O3: each exchange puts the results of its rule on their way (`retires_of_exchangeRule`). -/
theorem exchangeResults : Obligations.ExchangeResults := by
  unfold Obligations.ExchangeResults
  exact fun _ _ => retires_of_exchangeRule

end Sys2Proof.Machine
end

