-- ==== Sys2Proof/Proofs/AccessChecks.lean ====
section
/-!
PROOF. The accesses of a word's lanes (R146 to R150): which bytes the access of one lane reaches or which fault it meets, and which of the lanes'
faults the word raises.
-/

namespace Sys2Proof.Machine

-- One lemma after another, within the memory of the check.
set_option Elab.async false

/-! ### The fault that stands first -/

/-- The place of a lane's fault in the order of R149. -/
def faultRank (x : Nat × Nat × AccFault × Space) : Nat := x.2.2.1.rank

theorem worstFault_eq_none {xs : List (Nat × Nat × AccFault × Space)} (h : worstFault xs = none) : xs = [] := by
  cases xs with
  | nil => rfl
  | cons x xs =>
    rw [worstFault] at h
    split at h
    · cases h
    · split at h <;> cases h

/-- The fault raised stands before every other in the order of R149, or at a lower lane than those of its own place in it. -/
theorem worstFault_eq_some {xs : List (Nat × Nat × AccFault × Space)} {f : Nat × Nat × AccFault × Space} (h : worstFault xs = some f) :
    ∃ pre post, xs = pre ++ f :: post ∧ (∀ x ∈ pre, faultRank f < faultRank x) ∧ ∀ x ∈ post, faultRank f ≤ faultRank x := by
  induction xs generalizing f with
  | nil => cases h
  | cons x xs ih =>
    rw [worstFault] at h
    split at h
    next hn =>
      cases h
      exact ⟨[], xs, rfl, by simp, by simp [worstFault_eq_none hn]⟩
    next m hm =>
      obtain ⟨pre, post, rfl, hpre, hpost⟩ := ih hm
      split at h
      next hle =>
        cases h
        refine ⟨[], _, rfl, by simp, fun y hy => ?_⟩
        have hle' : faultRank x ≤ faultRank m := hle
        rcases List.mem_append.1 hy with hy | hy
        · exact hle'.trans (hpre y hy).le
        · rcases List.mem_cons.1 hy with rfl | hy
          · exact hle'
          · exact hle'.trans (hpost y hy)
      next hlt =>
        cases h
        exact ⟨x :: pre, post, rfl, List.forall_mem_cons.2 ⟨not_le.1 hlt, hpre⟩, hpost⟩

/-! ### The lanes of a word -/

section
variable {g : Group} {addr : Nat → Nat} {acc : Nat → Except (AccFault × Space) LaneAccess} {ls : List Nat} {l : Nat}

/-- The fault that a lane raises, by what its access comes to; a helper raises none (R150). -/
def laneFault (g : Group) (addr : Nat → Nat) (acc : Nat → Except (AccFault × Space) LaneAccess) (l : Nat) :
    Option (Nat × Nat × AccFault × Space) :=
  match acc l with
  | .error f => if g.isHelper l then none else some (l, addr l, f.1, f.2)
  | .ok _ => none

theorem laneFault_of_error {x : AccFault} {sp : Space} (hl : g.isHelper l = false) (h : acc l = .error (x, sp)) :
    laneFault g addr acc l = some (l, addr l, x, sp) := by
  simp [laneFault, h, hl]

theorem laneFault_eq_some {f : Nat × Nat × AccFault × Space} (h : laneFault g addr acc l = some f) :
    g.isHelper l = false ∧ ∃ x sp, acc l = .error (x, sp) ∧ f = (l, addr l, x, sp) := by
  rw [laneFault] at h
  split at h
  next e he =>
    split at h
    · cases h
    next hl =>
      cases h
      exact ⟨by simpa using hl, e.1, e.2, he, rfl⟩
  next => cases h

/-- A lane that is no helper and raises no fault has its access. -/
theorem acc_of_laneFault_none (hl : g.isHelper l = false) (h : laneFault g addr acc l = none) : ∃ a, acc l = .ok a := by
  cases ha : acc l with
  | ok a => exact ⟨a, rfl⟩
  | error f => simp [laneFault, ha, hl] at h

/-- R149: the fault raised is that of a lane; before that lane every fault stands later in the order, and after it none stands earlier. -/
theorem worstFault_lanes {f : Nat × Nat × AccFault × Space} (h : worstFault (ls.filterMap (laneFault g addr acc)) = some f) :
    ∃ pre l post x sp, ls = pre ++ l :: post ∧ g.isHelper l = false ∧ acc l = .error (x, sp) ∧ f = (l, addr l, x, sp) ∧
      (∀ m ∈ pre, g.isHelper m = false → ∀ y sp', acc m = .error (y, sp') → x.rank < y.rank) ∧
      ∀ m ∈ post, g.isHelper m = false → ∀ y sp', acc m = .error (y, sp') → x.rank ≤ y.rank := by
  obtain ⟨fpre, fpost, heq, hpre, hpost⟩ := worstFault_eq_some h
  obtain ⟨ls1, ls2, rfl, h1, h2⟩ := List.filterMap_eq_append_iff.1 heq
  obtain ⟨skip, l, post, rfl, hskip, hl, h3⟩ := List.filterMap_eq_cons_iff.1 h2
  obtain ⟨hlive, x, sp, hx, rfl⟩ := laneFault_eq_some hl
  refine ⟨ls1 ++ skip, l, post, x, sp, by simp, hlive, hx, rfl, fun m hm hml y sp' hy => ?_, fun m hm hml y sp' hy => ?_⟩
  · have hf := laneFault_of_error (addr := addr) hml hy
    rcases List.mem_append.1 hm with hm | hm
    · exact hpre (m, addr m, y, sp') (h1 ▸ List.mem_filterMap.2 ⟨m, hm, hf⟩)
    · simp [hskip m hm] at hf
  · exact hpost (m, addr m, y, sp') (h3 ▸ List.mem_filterMap.2 ⟨m, hm, laneFault_of_error hml hy⟩)

end

theorem toOption_eq_some {ε α : Type} {x : Except ε α} {a : α} : x.toOption = some a ↔ x = .ok a := by
  cases x <;> simp [Except.toOption]

/-- A word's lanes raise the first of their faults, or make their accesses. -/
theorem accessLanes_eq {d : Dev} {g : Group} {la : Launch} {j : Job} {pad : Bool} {addr : Nat → Nat} {n align : Nat} {u : Use}
    {acc : Nat → Except (AccFault × Space) LaneAccess} (h : ∀ l, acc l = accessOf d g la j l pad (addr l) n align u) (slot code : Nat)
    (ls : List Nat) : accessLanes d g la j slot ls pad addr n align code u =
      (worstFault (ls.filterMap (laneFault g addr acc))).elim (.ok (ls.filterMap fun l => (acc l).toOption))
        fun f => .error (fibreFault slot code f) := by
  obtain rfl := funext h
  rw [accessLanes, List.filterMap_map, List.filterMap_map]
  change (match worstFault (ls.filterMap (laneFault g addr _)) with | some f => _ | none => _) = _
  split
  next hf => rw [hf]; rfl
  next hn =>
    rw [hn]
    refine congrArg Except.ok (List.filterMap_congr fun l _ => ?_)
    show (match accessOf d g la j l pad (addr l) n align u with | .ok a => some a | .error _ => none) =
      (accessOf d g la j l pad (addr l) n align u).toOption
    cases accessOf d g la j l pad (addr l) n align u <;> rfl

/-! ### Where an address of block memory lies (R146) -/

section
variable {la : Launch} {b a n : Nat}

/-- The addresses that are no place in block memory or in the gang window. -/
theorem blkTarget_none (h : 2 ^ 21 ≤ a ∨ la.blkMem < a % 2 ^ 18 + n ∨ (a / 2 ^ 20 % 2 = 0 ∧ a / 2 ^ 18 % 4 ≠ 0) ∨
    (a / 2 ^ 20 % 2 = 1 ∧ la.gang ≤ a / 2 ^ 18 % 4)) : (blkTarget la b a n).2 = none := by
  unfold blkTarget
  simp only [bits, bitAt, Nat.pow_zero, Nat.div_one, beq_iff_eq]
  split
  · rfl
  next hout =>
    split
    next hgang => rw [if_neg (by omega)]
    next hown => rw [if_pos (by omega)]

/-- The others name a byte of the group's own block, or of the block at a position of its gang. -/
theorem blkTarget_some {t : Target} (h : (blkTarget la b a n).2 = some t) : t.off = a % 2 ^ 18 ∧
    if a / 2 ^ 20 % 2 = 0 then t.space = .blk ∧ t.store = .blk la.tag b
    else t.space = .gang ∧ t.store = .blk la.tag (la.gangOf b * la.gang + a / 2 ^ 18 % 4) := by
  unfold blkTarget at h
  simp only [bits, bitAt, Nat.pow_zero, Nat.div_one, beq_iff_eq] at h
  split at h
  · cases h
  split at h
  next hgang =>
    split at h <;> cases h
    rw [if_neg (by omega)]
    exact ⟨rfl, rfl, rfl⟩
  next hown =>
    split at h <;> cases h
    rw [if_pos (by omega)]
    exact ⟨rfl, rfl, rfl⟩

theorem padTarget_some {t : Target} (h : (padTarget a n).2 = some t) : t = ⟨.pad, .pad, a⟩ := by
  unfold padTarget at h
  split at h <;> cases h
  rfl

end

/-! ### The access of one lane -/

section
variable {d : Dev} {g : Group} {la : Launch} {j : Job} {l a n align : Nat} {pad : Bool} {u : Use}

theorem accessOf_misaligned (h : a % align ≠ 0) :
    accessOf d g la j l pad a n align u = .error (.misaligned, (memTarget la g.key.block pad a n).1) := by
  simp [accessOf, h]

theorem accessOf_bounds (h : a % align = 0) (ht : (memTarget la g.key.block pad a n).2 = none) :
    accessOf d g la j l pad a n align u = .error (.bounds, (memTarget la g.key.block pad a n).1) := by
  simp [accessOf, h, ht]

/-- An access that meets no fault is of the bytes of its target, and of bytes of the pad that are granted to the job (R237). -/
theorem accessOf_ok {x : LaneAccess} (h : accessOf d g la j l pad a n align u = .ok x) :
    ∃ t, (memTarget la g.key.block pad a n).2 = some t ∧ (pad = true → j.granted a n = true) ∧ ∃ tagged,
      x = ⟨l, a, t.space, t.store, t.off, n, tagged⟩ := by
  unfold accessOf at h
  dsimp only at h
  split at h
  · cases h
  cases ht : (memTarget la g.key.block pad a n).2 with
  | none => simp [ht] at h
  | some t =>
    simp only [ht] at h
    split at h
    · cases h
    next hgrant =>
      have hpad : pad = true → j.granted a n = true := fun hp => by
        simp only [hp, Bool.true_and, Bool.or_eq_true, Bool.not_eq_true', not_or, Bool.not_eq_false] at hgrant
        exact hgrant.1
      repeat' split at h
      all_goals cases h
      all_goals exact ⟨t, rfl, hpad, _, rfl⟩

end

/-- Settles O12: the word's fault is that of `worstFault_lanes`; one lane's access is `accessOf`, by where its address lies. -/
theorem accessChecks : Obligations.AccessChecks := by
  unfold Obligations.AccessChecks
  refine ⟨fun d g la j slot ls pad addr n align code u => ?_, fun d g la j l pad a n align u h => ⟨_, accessOf_misaligned h⟩,
    fun d g la j l a n align u h hp => ?_, fun d g la j l a n align u h hb => ⟨_, accessOf_bounds h (blkTarget_none hb)⟩,
    fun d g la j l a n align u x h => ?_, fun d g la j l a n align u x h => ?_⟩
  · rw [accessLanes_eq fun _ => rfl]
    cases hw : worstFault (ls.filterMap (laneFault g addr fun l => accessOf d g la j l pad (addr l) n align u)) with
    | some f =>
      obtain ⟨pre, l, post, x, sp, hls, hl, hx, rfl, hpre, hpost⟩ := worstFault_lanes hw
      exact ⟨pre, l, post, x, sp, hls, hl, hx, rfl, hpre, hpost⟩
    | none =>
      have hnone := List.filterMap_eq_nil_iff.1 (worstFault_eq_none hw)
      refine ⟨fun l hl hlive => ?_, fun a ha => ?_⟩
      · obtain ⟨a, ha⟩ := acc_of_laneFault_none hlive (hnone l hl)
        exact ⟨a, List.mem_filterMap.2 ⟨l, hl, toOption_eq_some.2 ha⟩, ha⟩
      · obtain ⟨l, hl, ha⟩ := List.mem_filterMap.1 ha
        exact ⟨l, hl, toOption_eq_some.1 ha⟩
  · have ht : memTarget la g.key.block true a n = (.pad, none) := by simp [memTarget, padTarget, hp]
    rw [accessOf_bounds h (by rw [ht]), ht]
  · obtain ⟨t, ht, hgrant, tagged, rfl⟩ := accessOf_ok h
    cases padTarget_some ht
    exact ⟨rfl, rfl, rfl, rfl, rfl, rfl, hgrant rfl⟩
  · obtain ⟨t, ht, -, tagged, rfl⟩ := accessOf_ok h
    obtain ⟨hoff, hplace⟩ := blkTarget_some ht
    exact ⟨rfl, rfl, hoff, rfl, hplace⟩

end Sys2Proof.Machine
end

