-- ==== Sys2Proof/Proofs/Stores.lean ====
section
/-!
PROOF. `st` (R150, R151, R155): its faults, the bytes that it writes at once on the stack and in the group's own block memory, and the stores that it
leaves on their way.
-/

namespace Sys2Proof.Machine

-- One lemma after another, within the memory of the check.
set_option Elab.async false

section
variable {s : State} {c : Issue} {g : Group} {la : Launch} {d b : Reg} {o : BitVec 5} {t : StTy}

/-! ### The word -/

/-- R150, R155: the accesses of `st` in block memory or the pad, one for each live lane whose guard is true. -/
def State.stAccesses (s : State) (c : Issue) (g : Group) (la : Launch) (b : Reg) (p : Space3) (o : BitVec 5) (t : StTy) :
    Except FaultInfo (List LaneAccess) :=
  s.accesses c g la (c.voters g) (decide (p = .pad)) (fun l => offAddr (srcV s.dev g c l b.toNat) o (stSize t)) (stSize t)
    (sizeCode (stSize t)) .write

/-- R150, R155: in block memory and the pad the word faults as its live lanes do, or stores the low bytes of each one's registers. -/
theorem exec_st {p : Space3} (hp : p ≠ .stk) (h : Issues s (.st d b p o t) c g la) : exec (.st d b p o t) s = .next (s.accessed c
    (s.stAccesses c g la b p o t)
    fun xs => Part.when (xs ≠ []) (doStores c (xs.map fun a => (a, regBytes (srcV s.dev g c a.lane) d.toNat t.regs (stSize t))))) := by
  show execSt d b p o t s = _
  rw [execSt, word_issues h]
  cases p with
  | stk => exact absurd rfl hp
  | blk | pad =>
    change commit s (match s.stAccesses c g la b _ o t with | .error f => _ | .ok xs => _) = _
    cases s.stAccesses c g la b _ o t with
    | error f => rfl
    | ok xs => cases xs <;> rfl

/-! ### Stores on the stack -/

/-- Stores of the bytes of several lanes, one after another, put them into the memory and change nothing else. -/
theorem State.run_flatMap_storeBytes (s : State) (b : Bank) (ls : List Nat) (at_ : Nat → Nat) (data : Nat → List Byte) :
    s.run (ls.flatMap fun l => storeBytes b (at_ l) (data l)) = s.setBank (ls.foldl (fun m l => putBytes m (at_ l) (data l)) (s.bank b)) b := by
  induction ls generalizing s with
  | nil => exact (s.setBank_bank b).symm
  | cons l ls ih =>
    rw [List.flatMap_cons, State.run_append, State.run_storeBytes, ih, State.setBank_setBank, State.bank_setBank]
    rfl

/-- A stack access is possible where it is aligned and ends within the spill region (R146, R148). -/
theorem stackFault_isNone (la : Launch) (off n : Nat) :
    (stackFault la off n).isNone = (decide (off % n = 0) && decide (off + n ≤ la.spill)) := by
  by_cases hal : off % n = 0
  · by_cases hb : la.spill < off + n
    · simp [stackFault, hal, hb]
    · simp [stackFault, hal, hb, Nat.le_of_not_lt hb]
  · simp [stackFault, hal]

/-- R155: on the stack the word faults as its live lanes do, or each lane whose access is possible stores in its own region at once. -/
theorem exec_st_stk (h : Issues s (.st d b .stk o t) c g la) :
    let addr (l : Nat) : Nat := offAddr (srcV s.dev g c l b.toNat) o (stSize t)
    exec (.st d b .stk o t) s = .next (match stackFaults g la c.on addr (stSize t) with
      | some f => s.faults c f
      | none => { s with stk := (List.foldl
          (fun m l => putBytes m (stkAddr c.g l (addr l)) (regBytes (srcV s.dev g c l) d.toNat t.regs (stSize t))) s.stk
          (c.on.filter fun l => decide (addr l % stSize t = 0) && decide (addr l + stSize t ≤ la.spill))) }) := by
  intro addr
  show execSt d b .stk o t s = _
  rw [execSt, word_issues h]
  change commit s (match stackFaults g la c.on addr (stSize t) with | some f => _ | none => _) = _
  cases stackFaults g la c.on addr (stSize t) with
  | some f => rfl
  | none =>
    simp only [stackFault_isNone]
    exact congrArg Host.Outcome.next (State.run_flatMap_storeBytes s .stk ..)

/-! ### Which stores act at once (R151) -/

variable {xs : List (LaneAccess × List Byte)}

/-- Beside an access to the group's own block memory, those of its word to the same block through the gang window act at once as well. -/
theorem atOnceIn_of_own {as : List LaneAccess} {a : LaneAccess} (ho : ∃ x ∈ as, x.own la g) (ha : a.store = .blk la.tag g.key.block) :
    atOnceIn as a = true := by
  obtain ⟨x, hx, hown⟩ := ho
  obtain ⟨-, -, hstore⟩ := id hown
  have hany : (as.any fun y => !countedTarget y && decide (y.store = a.store)) = true :=
    List.any_eq_true.2 ⟨x, hx, by simp [hown.notCounted, hstore, ha]⟩
  rw [atOnceIn, hany, Bool.or_true]

/-- Among accesses to the pad and the gang window alone, none acts at once. -/
theorem atOnceIn_of_far {as : List LaneAccess} {a : LaneAccess} (hf : ∀ x ∈ as, x.far) (ha : a.far) : atOnceIn as a = false := by
  have hany : (as.any fun y => !countedTarget y && decide (y.store = a.store)) = false :=
    List.any_eq_false.2 fun x hx => by simp [(hf x hx).counted]
  rw [atOnceIn, hany, ha.notAtOnce, Bool.or_false]

/-- What the accesses of a word's stores leave of the records before any acts. -/
theorem foldl_touchRace (dev : Dev) (g : Group) (la : Launch) (xs : List (LaneAccess × List Byte)) :
    xs.foldl (fun d e => d.touchRace g la e.1 .plainWrite) dev = dev.touched g la (xs.map Prod.fst) .plainWrite := by
  rw [Dev.touched, List.foldl_map]

/-- Where every store of a word acts at once, they do so one after another. -/
theorem did_doStores_now (hg : s.dev.group? c.g = some g) (hl : s.dev.launch? c.g.launch = some la)
    (h : ∀ e ∈ xs, atOnceIn (xs.map Prod.fst) e.1 = true) : s.did (doStores c xs) =
      (s.withDev fun dev => dev.touched g la (xs.map Prod.fst) .plainWrite).did (Part.each xs fun e => accStore c.g e.1 g.vt la.tag e.2) := by
  have hnow : (xs.filter fun e => atOnceIn (xs.map Prod.fst) e.1) = xs := List.filter_eq_self.2 h
  have hlater : (xs.filter fun e => !atOnceIn (xs.map Prod.fst) e.1) = [] := List.filter_eq_nil_iff.2 fun e he => by simp [h e he]
  simp only [State.did, doStores, hg, hl, hnow, hlater, foldl_touchRace]
  exact (State.did_seq_cons ..).trans (State.did_seq_pair ..)

/-- Where none does, they are all on their way, in order. -/
theorem did_doStores_later (hg : s.dev.group? c.g = some g) (hl : s.dev.launch? c.g.launch = some la) (hn : xs ≠ [])
    (h : ∀ e ∈ xs, atOnceIn (xs.map Prod.fst) e.1 = false) : s.did (doStores c xs) = s.withDev fun dev =>
      (dev.touched g la (xs.map Prod.fst) .plainWrite).issueAccesses c false 0 false false 0 (xs.map fun e => (e.1, .store e.2)) [] := by
  have hnow : (xs.filter fun e => atOnceIn (xs.map Prod.fst) e.1) = [] := List.filter_eq_nil_iff.2 fun e he => by simp [h e he]
  have hlater : (xs.filter fun e => !atOnceIn (xs.map Prod.fst) e.1) = xs := List.filter_eq_self.2 fun e he => by simp [h e he]
  have hne : xs.isEmpty = false := by simpa using hn
  simp only [State.did, doStores, hg, hl, hnow, hlater, foldl_touchRace, hne]
  rfl

/-! ### Stores that act at once -/

/-- What the stores of a group that act at once leave of the records: the group itself, the jobs, the launches, the extended registers and the
registers of the port. -/
structure Dev.StoresLeave (k : GKey) (d e : Dev) : Prop where
  group : e.group? k = d.group? k
  jobs : e.jobs = d.jobs
  launches : e.launches = d.launches
  xsets : e.xsets = d.xsets
  regs : e.regs = d.regs

theorem Dev.StoresLeave.refl (k : GKey) (d : Dev) : d.StoresLeave k d := ⟨rfl, rfl, rfl, rfl, rfl⟩

theorem Dev.StoresLeave.trans {k : GKey} {d e f : Dev} (h : d.StoresLeave k e) (h' : e.StoresLeave k f) : d.StoresLeave k f :=
  ⟨h'.group.trans h.group, h'.jobs.trans h.jobs, h'.launches.trans h.launches, h'.xsets.trans h.xsets, h'.regs.trans h.regs⟩

theorem Dev.touched_leaves (dev : Dev) (g : Group) (la : Launch) (as : List LaneAccess) (r : RaceKind) (k : GKey) :
    dev.StoresLeave k (dev.touched g la as r) := by
  rw [Dev.touched_rest]
  exact ⟨rfl, rfl, rfl, rfl, rfl⟩

theorem Dev.written_leaves (dev : Dev) (k : GKey) (st : Store) (off n : Nat) : dev.StoresLeave k (dev.written (some k) st off n) :=
  ⟨Dev.group?_written_self .., rfl, rfl, rfl, rfl⟩

/-- A store outside every vintage in a block's memory puts its bytes there, and changes no other byte. -/
theorem did_accStore_blk {a : LaneAccess} {l n : Nat} (ht : a.tagged = false) (hs : a.store = .blk l n) (s : State) (k : GKey) (vt launch : Nat)
    (bs : List Byte) : s.did (accStore k a vt launch bs) =
      { s with blk := putBytes s.blk (blkAddr l n a.off) bs, dev := s.dev.written (some k) a.store a.off bs.length } := by
  rw [accStore_of_not_tagged ht, State.did_plainWrite, hs]
  rfl

/-- R151: so do several, in their order. -/
theorem did_accStores_blk {l n : Nat} (h : ∀ e ∈ xs, e.1.tagged = false ∧ e.1.store = .blk l n) (s : State) (k : GKey) (vt launch : Nat) :
    ∃ dev, s.did (Part.each xs fun e => accStore k e.1 vt launch e.2) =
        { s with blk := xs.foldl (fun m e => putBytes m (blkAddr l n e.1.off) e.2) s.blk, dev := dev } ∧ s.dev.StoresLeave k dev := by
  induction xs generalizing s with
  | nil => exact ⟨s.dev, rfl, .refl k s.dev⟩
  | cons e xs ih =>
    obtain ⟨⟨ht, hs⟩, hrest⟩ := List.forall_mem_cons.1 h
    obtain ⟨dev, he, hk⟩ := ih hrest (s.did (accStore k e.1 vt launch e.2))
    rw [did_accStore_blk ht hs] at he hk
    refine ⟨dev, ?_, (Dev.written_leaves ..).trans hk⟩
    rw [State.did_each_cons, did_accStore_blk ht hs, he]
    rfl

end

/-- Settles O14: the word is `exec_st` or `exec_st_stk`; beside an access to the group's own block memory its stores act at once
(`did_accStores_blk`), and in the pad and the gang window alone they are on their way (`did_doStores_later`). -/
theorem stores : Obligations.Stores := by
  unfold Obligations.Stores
  refine ⟨⟨fun d b o t p s c g la => exec_st, fun d b o t s c g la => exec_st_stk⟩, fun s c g la xs hg hl ho hb => ?_,
    fun s c g la xs hg hl hn hf => ?_⟩
  · have hown : ∃ x ∈ xs.map Prod.fst, x.own la g := by simpa using ho
    obtain ⟨dev, he, hk⟩ := did_accStores_blk hb (s.withDev fun dev => dev.touched g la (xs.map Prod.fst) .plainWrite) c.g g.vt la.tag
    have hleave := (Dev.touched_leaves s.dev g la (xs.map Prod.fst) .plainWrite c.g).trans hk
    refine ⟨dev, ?_, hleave.group.trans hg, hleave.jobs, hleave.launches, hleave.xsets, hleave.regs⟩
    rw [did_doStores_now hg hl fun e he => atOnceIn_of_own hown (hb e he).2, he]
    rfl
  · have hfar : ∀ x ∈ xs.map Prod.fst, x.far := by simpa using hf
    rw [did_doStores_later hg hl hn fun e he => atOnceIn_of_far hfar (hf e he)]
    exact ⟨_, rfl, Dev.group?_issueAccesses ((Dev.group?_touched ..).trans hg) ..⟩

end Sys2Proof.Machine
end

