-- ==== Sys2Proof/Proofs/Atomics.lean ====
section
/-!
PROOF. Why the statement on atomics does not hold as it stands: it says that an atomic at the group's own block memory leaves the group's record as it
was but for the results on their way, for an acquire too; an acquire that observes a release gives the group the operations whose staged writes the
release carries (`Group.knows`; R287, log 61).
-/

namespace Sys2Proof.Machine

-- One lemma after another, within the memory of the check.
set_option Elab.async false

/-- Results put on their way leave the operations that a group has before it. -/
theorem State.knows_did_retire {s : State} {k : GKey} {g : Group} (hg : s.dev.group? k = some g) (lat : Nat) (outs : List Out) :
    ((s.did (retire k lat outs)).dev.group? k).map Group.knows = some g.knows := by
  have hk := Dev.group?_key hg
  rw [State.did_retire, State.after]
  split
  · rw [hg]
    rfl
  · obtain ⟨h, hh, hknows⟩ : ∃ h, (s.dev.retire k lat outs).group? k = some h ∧ h.knows = g.knows := by
      rw [Dev.retire, hg]
      exact ⟨_, Dev.group?_setGroup_of hk, rfl⟩
    exact (congrArg (Option.map Group.knows) hh).trans (congrArg some hknows)

/-- The launch of one block of two groups. -/
def pairLaunch : Launch := { putLaunch with groups := 2 }

/-- The release, with device scope, that the block's group 1 has made at the first word of block memory, with operation 7 before it. -/
def releasedWord : SyncRec := ⟨.blk 0 0, 0, 0, 4, false, [⟨some ⟨0, 0, 1⟩, 3, [7]⟩]⟩

/-- Group 0 of that block, as in `putState`, once group 1 has made its release and ended. -/
def releasedState : State := putState.withDev fun d => { d with launches := [pairLaunch], syncs := [releasedWord] }

/-- Lane 0 of `atom.add.z32` with v8 as its destination, at that word. -/
def acquiringLane : AtomLane :=
  ⟨⟨0, 0, .blk, .blk 0 0, 0, 4, false⟩, .atom .addZ32 1 (putGroup.slots 0 8 1), putGroup.slots 0 8 1⟩

/-- The state after the atomic, as an acquire with device scope. -/
def acquiredState : State := releasedState.did (doAtomics putIssue true false 3 [] [acquiringLane])

/-- The group has operation 7 before it, where it had none. -/
theorem knows_acquiredState : (acquiredState.dev.group? putIssue.g).map Group.knows = some [7] := by decide +kernel

/-- Refutes O16: its clause on a single atomic of the group's own block memory makes the group's record the old one but for the results on their way,
whatever the word acquires; an acquire that observes a release changes what the group knows (`acquiredState`). -/
theorem not_atomics : ¬ Obligations.Atomics := by
  unfold Obligations.Atomics
  rintro ⟨-, ⟨single, -, -⟩, -⟩
  obtain ⟨t, d, he, ht, hd⟩ := single releasedState putIssue putGroup pairLaunch true false 3 [] acquiringLane rfl rfl ⟨rfl, rfl, rfl⟩
  have hgroup : t.dev.group? putIssue.g = some putGroup := by rw [ht]; exact hd
  have hk := knows_acquiredState
  rw [acquiredState, he, State.knows_did_retire hgroup] at hk
  exact absurd hk (by decide)

end Sys2Proof.Machine
end

