-- ==== Sys2Proof/Proofs/BarrierWords.lean ====
section
/-!
PROOF. The words of barriers (R170, R172, R173): what each does with the lanes of its batch. Before them, what words share whose values can make them
ILLEGAL_OPERAND, and parts that are done for a list that is not empty.
-/

namespace Sys2Proof.Machine

-- One lemma after another, within the memory of the check.
set_option Elab.async false

section
variable {s : State} {i : Instr} {c : Issue} {g : Group} {la : Launch}

theorem State.did_when (s : State) (b : Prop) [Decidable b] (p : Part) : s.did (Part.when b p) = if b then s.did p else s := by
  unfold Part.when
  split <;> rfl

/-- A part for a list that is not empty. -/
theorem Part.ite_isEmpty {α : Type} (xs : List α) [Decidable (xs ≠ [])] (p : Part) :
    (if xs.isEmpty then Part.none else p) = Part.when (xs ≠ []) p := by
  cases xs <;> simp [Part.when]

theorem State.run_ite_isEmpty {α : Type} (s : State) (xs : List α) [Decidable (xs ≠ [])] (p : Part) :
    s.run (if xs.isEmpty then [] else p s) = s.did (Part.when (xs ≠ []) p) := by
  rw [State.did_when]
  cases xs <;> simp [State.did]

theorem Issues.fieldFault (h : Issues s i c g la) : i.fieldFault = none := by
  cases hf : i.fieldFault with
  | none => rfl
  | some v => simpa [commonFault_of_fieldFault hf] using h.checks

theorem lowestCause_causeIf (field : Nat) (bad : Bool) : lowestCause (causeIf field bad) = if bad = true then some (12, field) else none := by
  cases bad <;> rfl

theorem lowestCause_causeIf_two {f f' : Nat} (hf : f ≤ f') (bad bad' : Bool) : lowestCause (causeIf f bad ++ causeIf f' bad') =
    if bad = true then some (12, f) else if bad' = true then some (12, f') else none := by
  cases bad <;> cases bad' <;> simp [causeIf, lowestCause, hf]

/-- A word that its values make ILLEGAL_OPERAND (R53, reason 12). -/
theorem wordWith_illegal (h : Issues s i c g la) {vals : State → Issue → Group → Launch → List (Nat × Nat)} {field : Nat}
    (hv : lowestCause (vals s c g la) = some (12, field)) (hf : field < 4) (body : Issue → Group → Launch → Part) :
    commit s (wordWith i vals body s) = .next (s.faults c (illegalValue c field)) := by
  have hval : valuedFault s.dev g la c i (vals s c g la) = valuedFault s.dev g la c i [(12, field)] := by
    simp only [valuedFault, hv, lowestCause]
  exact wordWith_faults h.cur h.group h.launch (hval.trans (valuedFault_illegalValue h.fieldFault field hf)) body

theorem Dev.barBusy_iff {d : Dev} {k : GKey} {b : Nat} : d.barBusy k b = true ↔ (d.barrier k b).arr ≠ 0 ∨
    ∃ h ∈ d.groups, h.key.launch = k.launch ∧ h.key.block = k.block ∧ ∃ x ∈ h.lanes, x.isPending b = true := by
  simp [Dev.barBusy, and_assoc]

theorem exec_barInit {n : BitVec 6} {b : BitVec 4} (h : Issues s (.barInit n b) c g la) : exec (.barInit n b) s = .next (
    if c.voters g = [] then s
    else if la.groups < n.toNat ∨ s.dev.barBusy c.g b.toNat = true then s.faults c (illegalValue c 3)
    else s.withDev fun d => d.setBarrier c.g b.toNat { s.dev.barrier c.g b.toNat with exp := n.toNat }) := by
  show execBarInit n b s = _
  rw [execBarInit]
  by_cases hv : c.voters g = []
  · rw [if_pos hv, wordWith_issues h (by simp [Group.leader_none hv, causeIf, lowestCause])]
    simp [Group.leader_none hv, commit]
  · have hld := Group.leader_isSome hv
    have hn : (g.leader c.on).isNone = false := by simpa using hld
    by_cases hbad : la.groups < n.toNat ∨ s.dev.barBusy c.g b.toNat = true
    · rw [if_neg hv, if_pos hbad]
      exact wordWith_illegal h (by rw [lowestCause_causeIf, if_pos (by simpa [hld] using hbad)]) (by decide) _
    · rw [if_neg hv, if_neg hbad, wordWith_issues h (by rw [lowestCause_causeIf, if_neg (by simpa [hld] using hbad)])]
      simp [hn, commit, State.withDev]

/-- A held batch that was waiting at a barrier: its lanes that are not pending any more go on. -/
theorem exec_barWord_held {n : Nat} {sync : Bool} {hd : Hold} {m : Nat} (h : Issues s i c g la) (hr : c.resume = some hd) (hk : hd.kind = .barrier m) :
    let go := (c.voters g).filter fun f => !(g.lane f).isPending n
    commit s (barWord i n sync s) = .next (s.did (Part.when (go ≠ []) (releaseLanes c.g go (pcNext c.loc)))) := by
  intro go
  rw [barWord, word_issues h]
  simp only [hr, hk, Option.map_some]
  change Host.Outcome.next (s.run (if (c.voters g).isEmpty then [] else if go.isEmpty then [] else releaseLanes c.g go (pcNext c.loc) s)) = _
  rw [← State.run_ite_isEmpty]
  by_cases hv : c.voters g = [] <;> simp [hv, go]

theorem did_waitBarrier (n : Nat) {ls stay go : List Nat} {s : State} (hstay : s.dev.pendingLanes c.g n ls = stay)
    (hgo : (ls.filter fun f => !stay.contains f) = go) : s.did (waitBarrier c i n ls) =
    (s.did (Part.when (stay ≠ []) (holdLanes c i stay (.barrier n) 5 (.bar n 0)))).did
      (Part.when (c.resume.isSome = true ∧ go ≠ []) (releaseLanes c.g go (pcNext c.loc))) := by
  subst hstay hgo
  refine (State.did_seq_pair ..).trans ?_
  rw [Part.ite_isEmpty]
  unfold Part.when
  congr 2
  simp only [List.isEmpty_eq_false_iff]

/-- What a batch does that arrives at a barrier (R170, R172, R173). -/
def Issue.arrives (c : Issue) (g : Group) (i : Instr) (n : Nat) (sync : Bool) (s : State) : State :=
  let again := (c.voters g).filter fun f => (g.lane f).isPending n
  let now := (c.voters g).filter fun f => !(g.lane f).isPending n
  let s1 := (s.did (releaseReads c.g)).withDev fun d => d.arrive c.g n now
  let s2 := s1.did (Part.when (again ≠ []) (holdLanes c i again (.arrive n sync) 5 (.bar n 0)))
  let stay := if sync then s2.dev.pendingLanes c.g n now else []
  let s3 := s2.did (Part.when (stay ≠ []) (holdLanes c i stay (.barrier n) 5 (.bar n 0)))
  let go := now.filter fun f => !stay.contains f
  s3.did (Part.when (c.resume.isSome = true ∧ go ≠ []) (releaseLanes c.g go (pcNext c.loc)))

theorem Dev.pendingLanes_nil (d : Dev) (k : GKey) (n : Nat) : d.pendingLanes k n [] = [] := by
  unfold Dev.pendingLanes
  split <;> rfl

/-- What the lanes that have arrived do: those of a `sync` that are still pending wait, and the others go on. -/
theorem did_afterArrival (n : Nat) (sync : Bool) (now : List Nat) (t : State) :
    t.did (if now.isEmpty then Part.none
      else if sync then waitBarrier c i n now
      else if c.resume.isSome then releaseLanes c.g now (pcNext c.loc) else Part.none) =
    let stay := if sync then t.dev.pendingLanes c.g n now else []
    let go := now.filter fun f => !stay.contains f
    (t.did (Part.when (stay ≠ []) (holdLanes c i stay (.barrier n) 5 (.bar n 0)))).did
      (Part.when (c.resume.isSome = true ∧ go ≠ []) (releaseLanes c.g go (pcNext c.loc))) := by
  by_cases hn : now = []
  · simp [hn, State.did_when, Dev.pendingLanes_nil]
  rw [if_neg (by simpa using hn)]
  cases sync with
  | true => exact did_waitBarrier n rfl rfl
  | false =>
    simp only [State.did_when]
    cases c.resume <;> simp [hn]

theorem exec_barWord_arrives {n : Nat} {sync : Bool} (h : Issues s i c g la) (hr : ∀ x, c.resume = some x → ∀ m, x.kind ≠ .barrier m) :
    commit s (barWord i n sync s) = .next (
      if c.voters g = [] then s
      else if g.storesDone c = false then s.did (Part.when (c.resume.isNone = true) (holdLanes c i (c.voters g) .retry 5 .none))
      else (g.timedOut true).elim (c.arrives g i n sync s) fun x => s.did (raiseDeferred c x)) := by
  have hkind : ∀ m, c.resume.map Hold.kind ≠ some (.barrier m) := fun m hm => by
    obtain ⟨x, hx, hk⟩ := Option.map_eq_some_iff.1 hm
    exact hr x hx m hk
  rw [barWord, word_issues h]
  change commit s ((if (c.voters g).isEmpty then [] else _) : List Act) = _
  by_cases hv : c.voters g = []
  · simp [hv, commit]
  rw [if_neg (by simpa using hv), if_neg hv]
  split
  next m hm => exact absurd hm (hkind m)
  next =>
    cases hs : g.storesDone c with
    | false =>
      simp only [State.did_when, Bool.not_false, if_true]
      cases c.resume <;> rfl
    | true =>
      cases ht : g.timedOut true with
      | some x => rfl
      | none =>
        simp only [Bool.not_true, Bool.false_eq_true, if_false, Option.elim_none, reduceCtorEq]
        refine congrArg Host.Outcome.next ?_
        show s.did (Part.seq _) = _
        rw [State.did_seq_cons, State.did_seq_cons, State.did_seq_cons, State.did_seq_cons, State.did_seq_nil, State.did_mod, Part.ite_isEmpty]
        unfold Issue.arrives
        exact did_afterArrival n sync _ _

theorem exec_barWait {b : BitVec 4} (h : Issues s (.barWait b) c g la) :
    exec (.barWait b) s = .next (
      let stay := (c.voters g).filter fun f => (g.lane f).isPending b.toNat
      let go := (c.voters g).filter fun f => !(g.lane f).isPending b.toNat
      if c.resume.isSome then s.did (Part.when (go ≠ []) (releaseLanes c.g go (pcNext c.loc)))
      else s.did (Part.when (stay ≠ []) (holdLanes c (.barWait b) stay (.barrier b.toNat) 5 (.bar b.toNat 0)))) := by
  show execBarWait b s = _
  rw [execBarWait, word_issues h]
  change Host.Outcome.next (s.run (if (c.voters g).isEmpty then [] else if c.resume.isSome
    then (if ((c.voters g).filter fun f => !(g.lane f).isPending b.toNat).isEmpty then [] else _)
    else (if ((c.voters g).filter fun f => (g.lane f).isPending b.toNat).isEmpty then [] else _))) = _
  by_cases hv : c.voters g = []
  · simp [hv, State.did_when]
  rw [if_neg (by simpa using hv), apply_ite s.run, State.run_ite_isEmpty, State.run_ite_isEmpty]
  rfl

end

end Sys2Proof.Machine
end

