-- ==== Sys2Proof/Proofs/BarrierPhases.lean ====
section
/-!
PROOF. Arrivals at a barrier and the end of its phases (R169, R170, R174).
-/

namespace Sys2Proof.Machine

-- One lemma after another, within the memory of the check.
set_option Elab.async false

/-! ### Pending fibres (R169) -/

theorem bitAt_toNat {w : Nat} (x : BitVec w) (k : Nat) : bitAt x.toNat k = x.getLsbD k := by
  rw [bitAt, BitVec.getLsbD, Nat.testBit_eq_decide_div_mod_eq]
  rfl

theorem getLsbD_ofNat_two_pow {w n : Nat} (k : Nat) (hn : n < w) : (BitVec.ofNat w (2 ^ n)).getLsbD k = decide (k = n) := by
  rw [BitVec.getLsbD_ofNat, Nat.testBit_two_pow]
  by_cases h : k = n
  · simp [h, hn]
  · simp [h, Ne.symm h]

theorem Lane.isPending_setPending (x : Lane) {n : Nat} (hn : n < 18) (b : Bool) (m : Nat) :
    (x.setPending n b).isPending m = if m = n then b else x.isPending m := by
  unfold Lane.isPending Lane.setPending
  rw [bitAt_toNat, bitAt_toNat]
  cases b with
  | true =>
    simp only [if_true, BitVec.getLsbD_or, getLsbD_ofNat_two_pow m hn]
    by_cases h : m = n <;> simp [h]
  | false =>
    simp only [Bool.false_eq_true, if_false, BitVec.getLsbD_and, BitVec.getLsbD_not, getLsbD_ofNat_two_pow m hn]
    by_cases h : m = n
    · simp [h]
    · by_cases hm : m < 18
      · simp [h, hm]
      · simp [h, BitVec.getLsbD_of_ge x.pending m (by omega)]

@[simp] theorem Lane.setPending_mode (x : Lane) (n : Nat) (b : Bool) : (x.setPending n b).mode = x.mode := rfl

/-! ### Lists -/

@[simp] theorem length_modAt {α : Type} (f : α → α) (n : Nat) (xs : List α) : (modAt f n xs).length = xs.length := by
  induction xs generalizing n with
  | nil => cases n <;> rfl
  | cons a r ih => cases n <;> simp [modAt, ih]

theorem getD_modAt {α : Type} (f : α → α) {n : Nat} {xs : List α} (a : α) (h : n < xs.length) : (modAt f n xs).getD n a = f (xs.getD n a) := by
  induction xs generalizing n with
  | nil => simp at h
  | cons b r ih =>
    cases n with
    | zero => rfl
    | succ n => exact ih (by simpa using h)

/-! ### Arrivals (R169, R170) -/

section
variable {d : Dev} {k : GKey} {n : Nat} {g : Group} {la : Launch} {b : Block}

theorem Dev.arrive_nil (d : Dev) (k : GKey) (n : Nat) : d.arrive k n [] = d := rfl

theorem Dev.barRelease_rest (d : Dev) (k : GKey) (n : Nat) : d.barRelease k n = { d with syncs := (d.barRelease k n).syncs } := by
  unfold Dev.barRelease
  simp only
  split <;> rfl

theorem Group.isPending_modLanes (g : Group) (ls : List Nat) (hn : n < 18) (l : Nat) (hl : l < g.lanes.length) (m : Nat) :
    ((g.modLanes ls fun _ x => x.setPending n true).lane l).isPending m = (decide (l ∈ ls ∧ m = n) || (g.lane l).isPending m) := by
  induction ls generalizing g with
  | nil => simp [Group.modLanes]
  | cons a ls ih =>
    have hlen : (g.modLane a fun x => x.setPending n true).lanes.length = g.lanes.length := Group.length_modLane ..
    show (((g.modLane a fun x => x.setPending n true).modLanes ls fun _ x => x.setPending n true).lane l).isPending m = _
    rw [ih _ (by omega), Group.lane_modLane]
    by_cases ha : l = a
    · subst ha
      by_cases hm : m = n <;> simp [hl, Lane.isPending_setPending _ hn, hm]
    · simp [ha]

/-- A property of a lane that a change of lanes leaves. -/
theorem Group.modLanes_lane_keeps {α : Type} (p : Lane → α) {f : Nat → Lane → Lane} (hf : ∀ l x, p (f l x) = p x) (g : Group) (ls : List Nat) (m : Nat) :
    p ((g.modLanes ls f).lane m) = p (g.lane m) := by
  induction ls generalizing g with
  | nil => rfl
  | cons l r ih =>
    show p (((g.modLane l (f l)).modLanes r f).lane m) = _
    rw [ih, Group.lane_modLane]
    split
    · next h => rw [hf]; simp_all
    · rfl

theorem Group.liveLanes_modLanes {f : Nat → Lane → Lane} (hf : ∀ l x, (f l x).mode = x.mode) (g : Group) (ls : List Nat) :
    (g.modLanes ls f).liveLanes = g.liveLanes := by
  have hlive : (g.modLanes ls f).isLive = g.isLive := by
    funext m
    rw [Group.isLive, Group.isLive, Group.modLanes_lane_keeps Lane.mode hf]
  simp only [Group.liveLanes, Group.laneNos, Group.modLanes_length, hlive]

/-- Lanes that arrive are pending, and then the group's arrival is tried. -/
theorem Dev.arrive_found {ls : List Nat} (hg : d.group? k = some g) (hls : ls ≠ []) : d.arrive k n ls =
    ((d.barRelease k n).setGroup (g.modLanes ls fun _ x => x.setPending n true)).tryComplete k n := by
  have hg' : (d.barRelease k n).group? k = some g := by rw [Dev.barRelease_rest]; exact hg
  rw [Dev.arrive, if_neg (by simpa using hls), Dev.modGroup_found hg']

theorem Dev.barrier_congr {e : Dev} (hl : e.launches = d.launches) (hb : e.blocks = d.blocks) : e.barrier k n = d.barrier k n := by
  simp only [Dev.barrier, Dev.launch?, Dev.block?, hl, hb]

theorem Dev.arrm_congr {e : Dev} (hb : e.blocks = d.blocks) : e.arrm k n = d.arrm k n := by
  simp only [Dev.arrm, Dev.block?, hb]

/-! ### The counts of a barrier (R169, R174) -/

@[simp] theorem Dev.modBlock_launches (d : Dev) (t m : Nat) (f : Block → Block) : (d.modBlock t m f).launches = d.launches := by
  rw [Dev.modBlock_rest]
@[simp] theorem Dev.modBlock_groups (d : Dev) (t m : Nat) (f : Block → Block) : (d.modBlock t m f).groups = d.groups := by
  rw [Dev.modBlock_rest]

theorem Dev.setBarrier_of_lt {x : Barrier} (hn : n < 16) (d : Dev) (k : GKey) :
    d.setBarrier k n x = d.modBlock k.launch k.block fun b => { b with bars := b.bars.set n x } := if_pos hn

/-- The launch with the counts of a gang's or the grid's barrier replaced. -/
def Launch.setBar (la : Launch) (block n : Nat) (x : Barrier) : Launch :=
  if n = 16 then { la with gangBars := upsert (fun e => decide (e.gang = la.gangOf block)) ⟨la.gangOf block, x⟩ la.gangBars }
  else { la with gridBar := x }

/-- The counts of a gang's or the grid's barrier. -/
def Launch.bar (la : Launch) (block n : Nat) : Barrier :=
  if n = 16 then ((la.gangBars.find? fun e => decide (e.gang = la.gangOf block)).map GangBar.bar).getD (.fresh (la.gang * la.groups)) else la.gridBar

@[simp] theorem Launch.setBar_tag (la : Launch) (block n : Nat) (x : Barrier) : (la.setBar block n x).tag = la.tag := by unfold Launch.setBar; split <;> rfl

theorem Launch.bar_setBar (la : Launch) (block n : Nat) (x : Barrier) : (la.setBar block n x).bar block n = x := by
  by_cases h : n = 16
  · have hfind := find?_upsert_self (fun e : GangBar => decide (e.gang = la.gangOf block)) ⟨la.gangOf block, x⟩ la.gangBars (by simp)
    rw [Launch.setBar, if_pos h, Launch.bar, if_pos h]
    exact congrArg (fun o : Option GangBar => (o.map GangBar.bar).getD (.fresh (la.gang * la.groups))) hfind
  · rw [Launch.setBar, if_neg h, Launch.bar, if_neg h]

theorem Dev.setBarrier_of_ge {x : Barrier} (hn : ¬ n < 16) (hl : d.launch? k.launch = some la) :
    d.setBarrier k n x = d.setLaunch (la.setBar k.block n x) := by
  rw [Dev.setBarrier, if_neg hn, Dev.modLaunch_found hl]
  rfl

theorem Dev.barrier_of_lt (hn : n < 16) (hl : d.launch? k.launch = some la) (hb : d.block? k.launch k.block = some b) :
    d.barrier k n = b.bars.getD n (.fresh la.groups) := by
  simp only [Dev.barrier, hl, hb, hn, if_true]

theorem Dev.barrier_of_ge (hn : ¬ n < 16) (hl : d.launch? k.launch = some la) : d.barrier k n = la.bar k.block n := by
  simp only [Dev.barrier, hl, hn, if_false, Launch.bar]
  split
  · cases la.gangBars.find? fun e => decide (e.gang = la.gangOf k.block) <;> rfl
  · rfl

theorem Dev.arrm_found (hb : d.block? k.launch k.block = some b) : d.arrm k n = (b.bars.getD n (.fresh 0)).arrm := by
  simp only [Dev.arrm, hb]

/-- The counts of a barrier replaced: they are in place, and the groups and the launches' tags are as they were. -/
theorem Dev.setBarrier_found {x : Barrier} (hl : d.launch? k.launch = some la) (hb : d.block? k.launch k.block = some b)
    (hlen : b.bars.length = 18) (hn : n < 18) : let e := d.setBarrier k n x
    e.barrier k n = x ∧ e.groups = d.groups ∧ (∃ l, e.launch? k.launch = some l ∧ l.tag = la.tag) ∧
    ∃ b1, e.block? k.launch k.block = some b1 ∧ b1.bars.length = 18 := by
  have hk := Dev.block?_keys hb
  by_cases h : n < 16
  · rw [Dev.setBarrier_of_lt h]
    have hb1 := Dev.block?_modBlock (f := fun b : Block => { b with bars := b.bars.set n x }) hb ⟨rfl, rfl⟩
    have hl1 : (d.modBlock k.launch k.block fun b : Block => { b with bars := b.bars.set n x }).launch? k.launch = some la := by
      rw [Dev.modBlock_rest]; exact hl
    refine ⟨?_, Dev.modBlock_groups .., ⟨la, hl1, rfl⟩, _, hb1, by simpa using hlen⟩
    rw [Dev.barrier_of_lt h hl1 hb1]
    simp [List.getD_eq_getElem?_getD, hlen, hn]
  · rw [Dev.setBarrier_of_ge h hl]
    have hl1 : (d.setLaunch (la.setBar k.block n x)).launch? k.launch = some (la.setBar k.block n x) :=
      Dev.launch?_setLaunch_of (by simpa using Dev.launch?_tag hl)
    exact ⟨by rw [Dev.barrier_of_ge h hl1, Launch.bar_setBar], rfl, ⟨_, hl1, by simp⟩, b, hb, hlen⟩

/-! ### TryComplete (R170) -/

/-- A group's bit of ARRM set (R169). -/
def Block.marked (b : Block) (n group : Nat) : Block :=
  { b with bars := modAt (fun x => { x with arrm := x.arrm ||| BitVec.ofNat 16 (2 ^ group) }) n b.bars }

/-- The records after a group's arrival, before the phase completes. -/
def Dev.arrived (d : Dev) (k : GKey) (n : Nat) : Dev :=
  (d.setBarrier k n { d.barrier k n with arr := (d.barrier k n).arr + 1 }).modBlock k.launch k.block fun b => b.marked n k.group

/-- Whether a group's arrival at a barrier counts: its live fibres are all pending, and it has not arrived before. -/
def Group.arrives (g : Group) (d : Dev) (n : Nat) : Prop :=
  bitAt (d.arrm g.key n).toNat g.key.group = false ∧ g.liveLanes ≠ [] ∧ ∀ f ∈ g.liveLanes, (g.lane f).isPending n = true

/-- Whether a group's arrival completes the phase: a grid phase only without a staged write (R280). -/
def Dev.fills (d : Dev) (k : GKey) (n : Nat) : Prop :=
  (d.barrier k n).arr + 1 = (d.barrier k n).exp ∧ ¬ (n = 17 ∧ ∃ w ∈ d.staged, w.launch = k.launch)

theorem Dev.tryComplete_waits (hg : d.group? k = some g) (h : ¬ g.arrives d n) : d.tryComplete k n = d := by
  have hk := Dev.group?_key hg
  subst hk
  rw [Dev.tryComplete, hg]
  refine if_neg fun hc => h ?_
  simpa [Group.arrives] using hc

theorem Dev.tryComplete_arrives (hg : d.group? k = some g) (h : g.arrives d n) :
    (¬ d.fills k n → d.tryComplete k n = d.arrived k n) ∧ (d.fills k n → d.tryComplete k n = (d.arrived k n).completePhase k n) := by
  have hk := Dev.group?_key hg
  subst hk
  have hfull : d.fills g.key n ↔ ((d.barrier g.key n).arr + 1 = (d.barrier g.key n).exp ∧ !(decide (n = 17) && d.stagedIn g.key.launch)) := by
    simp [Dev.fills, Dev.stagedIn, imp_iff_not_or]
  rw [hfull, Dev.tryComplete, hg]
  simp only
  rw [if_pos (by simpa [Group.arrives] using h)]
  exact ⟨fun hf => if_neg hf, fun hf => if_pos hf⟩

theorem Dev.arrived_found (hl : d.launch? k.launch = some la) (hb : d.block? k.launch k.block = some b) (hlen : b.bars.length = 18) (hn : n < 18)
    (hk : k.group < 16) : let e := d.arrived k n
    (e.barrier k n).arr = (d.barrier k n).arr + 1 ∧ (e.barrier k n).exp = (d.barrier k n).exp ∧ (e.barrier k n).phase = (d.barrier k n).phase ∧
    bitAt (e.arrm k n).toNat k.group = true ∧ e.groups = d.groups ∧ e.launch? k.launch ≠ none ∧
    ∃ b1, e.block? k.launch k.block = some b1 ∧ b1.bars.length = 18 := by
  obtain ⟨hbar, hgroups, ⟨l, hl1, -⟩, b1, hb1, hlen1⟩ :=
    Dev.setBarrier_found (x := { d.barrier k n with arr := (d.barrier k n).arr + 1 }) hl hb hlen hn
  rw [Dev.arrived]
  generalize d.setBarrier k n _ = e1 at hbar hgroups hl1 hb1 ⊢
  have hb2 : (e1.modBlock k.launch k.block fun b => b.marked n k.group).block? k.launch k.block = some (b1.marked n k.group) :=
    Dev.block?_modBlock hb1 ⟨rfl, rfl⟩
  have hl2 : (e1.modBlock k.launch k.block fun b => b.marked n k.group).launch? k.launch = some l := by rw [Dev.modBlock_rest]; exact hl1
  have hn1 : n < b1.bars.length := by omega
  obtain ⟨m, hm⟩ : ∃ m, (e1.modBlock k.launch k.block fun b => b.marked n k.group).barrier k n = { e1.barrier k n with arrm := m } := by
    by_cases h : n < 16
    · exact ⟨_, by rw [Dev.barrier_of_lt h hl2 hb2, Dev.barrier_of_lt h hl1 hb1, Block.marked, getD_modAt _ _ hn1]⟩
    · exact ⟨_, by rw [Dev.barrier_of_ge h hl2, Dev.barrier_of_ge h hl1]⟩
  have hbit : bitAt ((e1.modBlock k.launch k.block fun b => b.marked n k.group).arrm k n).toNat k.group = true := by
    rw [Dev.arrm_found hb2, Block.marked, getD_modAt _ _ hn1, bitAt_toNat, BitVec.getLsbD_or, getLsbD_ofNat_two_pow _ hk]
    simp
  exact ⟨by rw [hm, hbar], by rw [hm, hbar], by rw [hm, hbar], hbit, (Dev.modBlock_groups ..).trans hgroups, by simp [hl2], _, hb2,
    by simpa [Block.marked] using hlen1⟩

/-! ### A phase completes (R170, R174) -/

theorem foldl_groups {α : Type} {f : Dev → α → Dev} (hf : ∀ d a, f d a = { d with groups := (f d a).groups }) (xs : List α) (d : Dev) :
    xs.foldl f d = { d with groups := (xs.foldl f d).groups } := by
  induction xs generalizing d with
  | nil => rfl
  | cons a xs ih => rw [List.foldl_cons, ih, hf]

theorem Dev.modGroup_rest (d : Dev) (k : GKey) (f : Group → Group) : d.modGroup k f = { d with groups := (d.modGroup k f).groups } := by
  unfold Dev.modGroup
  split <;> rfl

theorem Dev.syncWith_rest (d : Dev) (y : GKey) (scope : Nat) (hs : List Release) :
    d.syncWith y scope hs = { d with groups := (d.syncWith y scope hs).groups } := by
  unfold Dev.syncWith
  simp only
  split
  · rfl
  · exact Dev.modGroup_rest ..

theorem Dev.barAcquire_rest (d : Dev) (k : GKey) (n : Nat) (meets : GKey → Bool) :
    d.barAcquire k n meets = { d with groups := (d.barAcquire k n meets).groups, syncs := (d.barAcquire k n meets).syncs } := by
  unfold Dev.barAcquire
  simp only
  split
  · rfl
  · rw [foldl_groups fun d y => Dev.syncWith_rest ..]
    rfl

/-- Whether a group's or a block's fibres meet at a barrier with those of a block. -/
def Launch.meetsAt (la : Launch) (block n launch index : Nat) : Bool := decide (launch = la.tag) && la.meets block n index

/-- A group without a fibre that is pending at a barrier. -/
def Group.unpend (g : Group) (n : Nat) : Group := { g with lanes := g.lanes.map fun x => x.setPending n false }

/-- A block as a phase of a barrier ends. -/
def Block.nextPhase (b : Block) (n : Nat) : Block :=
  { b with phase := b.phase + 1, bars := modAt (fun x => { x with arrm := 0 }) n b.bars }

/-- The groups and blocks that meet at a barrier as its phase ends. -/
def Dev.endBarrier (d : Dev) (la : Launch) (block n : Nat) : Dev :=
  { d with
    groups := d.groups.map fun g => if la.meetsAt block n g.key.launch g.key.block then g.unpend n else g
    blocks := d.blocks.map fun b => if la.meetsAt block n b.launch b.index then b.nextPhase n else b }

/-- The counts of a barrier as a phase ends. -/
def Barrier.nextPhase (x : Barrier) : Barrier := { x with arr := 0, arrm := 0, phase := x.phase + 1 }

/-- A launch after a phase of its grid's barrier. -/
def Launch.nextGrid (l : Launch) : Launch := { l with gp := (l.gp + 1) % 2 ^ 16, gridPhase := l.gridPhase + 1 }

/-- The records after a phase of a grid's barrier. -/
def Dev.gridEnds (d : Dev) (tag : Nat) : Dev :=
  let e := d.modLaunch tag Launch.nextGrid
  { e with mergeRecs := e.mergeRecs.filter fun r => decide (r.launch ≠ tag) }.unpark tag

/-- A barrier, its groups and its blocks after the acquire that a phase's end is (R172, R286). -/
def Dev.endPhaseAt (d : Dev) (la : Launch) (k : GKey) (n : Nat) : Dev :=
  ((d.barAcquire k n fun y => la.meetsAt k.block n y.launch y.block).setBarrier k n (d.barrier k n).nextPhase).endBarrier la k.block n

theorem Dev.completePhase_eq (hl : d.launch? k.launch = some la) :
    d.completePhase k n = if n = 17 then (d.endPhaseAt la k n).gridEnds la.tag else d.endPhaseAt la k n := by
  unfold Dev.completePhase
  rw [hl]
  rfl

theorem Launch.meetsAt_self (ht : la.tag = k.launch) : la.meetsAt k.block n k.launch k.block = true := by
  unfold Launch.meetsAt Launch.meets
  split_ifs <;> simp [ht]

theorem Dev.endBarrier_found {block : Nat} {l : Launch} (hself : la.meetsAt block n k.launch k.block = true) (hl : d.launch? k.launch = some l)
    (hb : d.block? k.launch k.block = some b) (hn : n < b.bars.length) (ha : (d.barrier k n).arrm = 0) : let e := d.endBarrier la block n
    e.barrier k n = d.barrier k n ∧ e.arrm k n = 0 ∧ e.launch? k.launch = some l ∧ e.block? k.launch k.block = some (b.nextPhase n) := by
  have hl1 : (d.endBarrier la block n).launch? k.launch = some l := hl
  have hb1 : (d.endBarrier la block n).block? k.launch k.block = some (b.nextPhase n) := by
    obtain ⟨h1, h2⟩ := Dev.block?_keys hb
    refine (find?_map_block (fun b => by split <;> exact ⟨rfl, rfl⟩) d.blocks k.launch k.block).trans ?_
    rw [show d.blocks.find? _ = some b from hb, Option.map_some, h1, h2, hself, if_pos rfl]
  refine ⟨?_, ?_, hl1, hb1⟩
  · by_cases h : n < 16
    · rw [Dev.barrier_of_lt h hl hb] at ha ⊢
      rw [Dev.barrier_of_lt h hl1 hb1, Block.nextPhase, getD_modAt _ _ hn, ← ha]
    · rw [Dev.barrier_of_ge h hl1, Dev.barrier_of_ge h hl]
  · rw [Dev.arrm_found hb1, Block.nextPhase, getD_modAt _ _ hn]

theorem Dev.endBarrier_unpends {block : Nat} {h : Group} (hn : n < 18) (hh : h ∈ (d.endBarrier la block n).groups)
    (hm : la.meetsAt block n h.key.launch h.key.block = true) : ∀ x ∈ h.lanes, x.isPending n = false := by
  obtain ⟨g, -, rfl⟩ := List.mem_map.1 hh
  intro x hx
  by_cases hg : la.meetsAt block n g.key.launch g.key.block = true
  · simp only [hg, if_true, Group.unpend, List.mem_map] at hx
    obtain ⟨y, -, rfl⟩ := hx
    simp [Lane.isPending_setPending y hn]
  · simp only [hg] at hm
    exact absurd hm hg

/-- A block of a launch whose parked blocks enter its queue (R300). -/
def Block.unparked (b : Block) (tag : Nat) : Block :=
  if (decide (b.launch = tag) && b.parks) = false then b
  else if b.residency = .parked then { b with residency := .saved }
  else { b with requeue := true }

theorem Block.unparked_keeps (b : Block) (tag : Nat) : ((b.unparked tag).launch = b.launch ∧ (b.unparked tag).index = b.index) ∧
    (b.unparked tag).bars = b.bars := by
  unfold Block.unparked
  split_ifs <;> exact ⟨⟨rfl, rfl⟩, rfl⟩

theorem Dev.unpark_eq (d : Dev) (tag : Nat) : ∃ ps : List Nat, d.unpark tag =
    ({ d with blocks := d.blocks.map fun b => b.unparked tag } : Dev).modLaunch tag fun l => { l with back := l.back ++ sortNat (ps.map l.unit) } :=
  ⟨_, rfl⟩

theorem Dev.unpark_found {l : Launch} {tag : Nat} (hl : d.launch? tag = some l) : (d.unpark tag).groups = d.groups ∧
    (d.unpark tag).blocks = d.blocks.map (fun b => b.unparked tag) ∧ ∃ l1, (d.unpark tag).launch? tag = some l1 ∧ l1.gridBar = l.gridBar := by
  obtain ⟨ps, he⟩ := d.unpark_eq tag
  rw [he, Dev.modLaunch_found (d := { d with blocks := d.blocks.map fun b => b.unparked tag }) (l := l) hl]
  exact ⟨rfl, rfl, _, Dev.launch?_setLaunch_of (Dev.launch?_tag hl : l.tag = tag), rfl⟩

theorem Dev.gridEnds_found {l : Launch} (hl : d.launch? k.launch = some l) (hb : d.block? k.launch k.block = some b) : let e := d.gridEnds k.launch
    e.groups = d.groups ∧ (∃ l1, e.launch? k.launch = some l1 ∧ l1.gridBar = l.gridBar) ∧ ∃ b1, e.block? k.launch k.block = some b1 ∧ b1.bars = b.bars := by
  unfold Dev.gridEnds
  rw [Dev.modLaunch_found hl]
  obtain ⟨hg, hbs, hgrid⟩ := Dev.unpark_found (l := l.nextGrid)
    (d := { d.setLaunch l.nextGrid with mergeRecs := (d.setLaunch l.nextGrid).mergeRecs.filter fun r => decide (r.launch ≠ k.launch) })
    (Dev.launch?_setLaunch_of (Dev.launch?_tag hl : l.tag = k.launch))
  refine ⟨hg, hgrid, b.unparked k.launch, ?_, (b.unparked_keeps _).2⟩
  rw [Dev.block?, hbs, find?_map_block fun b => (b.unparked_keeps _).1]
  exact congrArg (Option.map _) hb

theorem Dev.endPhaseAt_found (hl : d.launch? k.launch = some la) (hb : d.block? k.launch k.block = some b) (hlen : b.bars.length = 18)
    (hn : n < 18) : let e := d.endPhaseAt la k n
    e.barrier k n = (d.barrier k n).nextPhase ∧ e.arrm k n = 0 ∧ (∃ l, e.launch? k.launch = some l) ∧ ∃ b1, e.block? k.launch k.block = some b1 := by
  have hl0 : (d.barAcquire k n fun y => la.meetsAt k.block n y.launch y.block).launch? k.launch = some la := by rw [Dev.barAcquire_rest]; exact hl
  have hb0 : (d.barAcquire k n fun y => la.meetsAt k.block n y.launch y.block).block? k.launch k.block = some b := by rw [Dev.barAcquire_rest]; exact hb
  obtain ⟨hbar1, -, ⟨l, hl1, -⟩, b1, hb1, hlen1⟩ := Dev.setBarrier_found (x := (d.barrier k n).nextPhase) hl0 hb0 hlen hn
  obtain ⟨hbar, harrm, hl2, hb2⟩ :=
    Dev.endBarrier_found (Launch.meetsAt_self (Dev.launch?_tag hl)) hl1 hb1 (n := n) (by omega) (by rw [hbar1]; rfl)
  exact ⟨hbar.trans hbar1, harrm, ⟨l, hl2⟩, _, hb2⟩

/-- R170, R174: a phase that completes. -/
theorem Dev.completePhase_found (hl : d.launch? k.launch = some la) (hb : d.block? k.launch k.block = some b) (hlen : b.bars.length = 18) (hn : n < 18) :
    let e := d.completePhase k n
    e.barrier k n = (d.barrier k n).nextPhase ∧ e.arrm k n = 0 ∧
      ∀ h ∈ e.groups, la.meetsAt k.block n h.key.launch h.key.block = true → ∀ x ∈ h.lanes, x.isPending n = false := by
  obtain ⟨hbar, harrm, ⟨l, hl2⟩, b1, hb1⟩ := Dev.endPhaseAt_found hl hb hlen hn
  have hun : ∀ h ∈ (d.endPhaseAt la k n).groups, la.meetsAt k.block n h.key.launch h.key.block = true → ∀ x ∈ h.lanes, x.isPending n = false :=
    fun h hh => Dev.endBarrier_unpends hn hh
  rw [Dev.completePhase_eq hl]
  split
  · next h17 =>
    subst h17
    obtain ⟨hg3, ⟨l3, hl3, hgrid⟩, b3, hb3, hbars⟩ := Dev.gridEnds_found hl2 hb1
    rw [Dev.launch?_tag hl]
    refine ⟨?_, ?_, by rwa [hg3]⟩
    · rw [← hbar, Dev.barrier_of_ge (by decide) hl3, Dev.barrier_of_ge (by decide) hl2]
      exact hgrid
    · rw [← harrm, Dev.arrm_found hb3, hbars, ← Dev.arrm_found hb1]
  · exact ⟨hbar, harrm, hun⟩

end

/-- Settles O18: the words are `exec_barInit`, `barWord` and `exec_barWait`; an arrival is `Dev.tryComplete` after the lanes became pending, and a phase
ends as `Dev.completePhase_found` says. -/
theorem blockBarriers : Obligations.BlockBarriers := by
  unfold Obligations.BlockBarriers
  refine ⟨⟨fun n b s c g la h => ?_, fun i n sync hi s c g la h => ?_, fun b s c g la h => exec_barWait h⟩, Dev.arrive_nil,
    fun d k n g ls hg hls hn => ?_, fun d k n g hg hw => Dev.tryComplete_waits hg ?_, fun d k n g la b hg hl hb hlen hn hk hlive hpend hbit => ?_,
    fun d k n la b hl hb hlen hn => ?_⟩
  · rw [exec_barInit h]
    simp only [Dev.barBusy_iff]
  · have hx : exec i s = commit s (barWord i n sync s) := by
      rcases hi with ⟨b, rfl, ⟨rfl, rfl⟩ | ⟨rfl, rfl⟩⟩ | ⟨rfl, rfl, rfl⟩ | ⟨rfl, rfl, rfl⟩ <;> rfl
    rw [hx]
    refine ⟨fun hr => ?_, fun x m hr hk => exec_barWord_held h hr hk⟩
    rw [exec_barWord_arrives h hr]
    cases g.timedOut true <;> rfl
  · refine ⟨_, _, Dev.arrive_found hg hls, Dev.group?_setGroup_of (by rw [Group.modLanes_key, Dev.group?_key hg]),
      fun l hl m => Group.isPending_modLanes g ls hn l hl m, ?_, ?_, Group.liveLanes_modLanes (fun _ x => x.setPending_mode n true) g ls, ?_⟩
    · exact Dev.barrier_congr (by rw [Dev.barRelease_rest]; rfl) (by rw [Dev.barRelease_rest]; rfl)
    · exact Dev.arrm_congr (by rw [Dev.barRelease_rest]; rfl)
    · rw [Dev.barRelease_rest]
      rfl
  · rintro ⟨hbit, hlive, hpend⟩
    rw [Dev.group?_key hg] at hbit
    rcases hw with hw | ⟨f, hf, hp⟩ | hw
    · exact hlive hw
    · simp [hpend f hf] at hp
    · simp [hw] at hbit
  · have harr : g.arrives d n := ⟨by rwa [Dev.group?_key hg], hlive, hpend⟩
    obtain ⟨hwaits, hfull⟩ := Dev.tryComplete_arrives hg harr
    exact ⟨d.arrived k n, hwaits, hfull, Dev.arrived_found hl hb hlen hn hk⟩
  · obtain ⟨hbar, harrm, hun⟩ := Dev.completePhase_found hl hb hlen hn
    exact ⟨by rw [hbar]; rfl, by rw [hbar]; rfl, by rw [hbar]; rfl, harrm, fun h hh ht hm => hun h hh (by simp [Launch.meetsAt, ht, hm])⟩

end Sys2Proof.Machine
end

