-- ==== Sys2Proof/Proofs/ObjectWords.lean ====
section
/-!
PROOF. The words of barrier objects, and what an arrival does to an object's bytes (R272, R273).
-/

namespace Sys2Proof.Machine

-- One lemma after another, within the memory of the check.
set_option Elab.async false

section
variable {s : State} {i : Instr} {c : Issue} {g : Group} {la : Launch} {ld : Nat} {a b d : Reg}

/-- A word that has no cause of a fault and nothing to do. -/
theorem wordWith_nothing (h : Issues s i c g la) {vals : State → Issue → Group → Launch → List (Nat × Nat)} {body : Issue → Group → Launch → Part}
    (hv : vals s c g la = []) (hb : body c g la s = []) : commit s (wordWith i vals body s) = .next s := by
  rw [wordWith_issues h (by rw [hv]; rfl), hb]
  rfl

theorem word_nothing (h : Issues s i c g la) {body : Issue → Group → Launch → Part} (hb : body c g la s = []) :
    commit s (word i body s) = .next s := by
  rw [word_issues h, hb]
  rfl

theorem State.did_seq_three (s : State) (p q r : Part) : s.did (Part.seq [p, q, r]) = ((s.did p).did q).did r := by
  rw [State.did_seq_cons, State.did_seq_pair]

theorem State.did_seq_four (s : State) (p q r u : Part) : s.did (Part.seq [p, q, r, u]) = (((s.did p).did q).did r).did u := by
  rw [State.did_seq_cons, State.did_seq_three]

/-- A part that reads the state it meets before it is chosen. -/
theorem State.did_of_state (p : State → Part) (s : State) : s.did (fun t => p t t) = s.did (p s) := rfl

theorem leadVals_none (f : State → Group → Launch → Issue → Nat → List (Nat × Nat)) (hld : g.leader c.on = none) : leadVals f s c g la = [] := by
  simp only [leadVals, hld]

theorem leadVals_some (f : State → Group → Launch → Issue → Nat → List (Nat × Nat)) (hld : g.leader c.on = some ld) :
    leadVals f s c g la = f s g la c ld := by
  simp only [leadVals, hld]

theorem valueFault_eq (c : Issue) {field : Nat} (hf : field < 4) : valueFault c field = illegalValue c field := by
  have hs : pcSlot c.loc % 4 = pcSlot c.loc := Nat.mod_mod ..
  simp only [valueFault, illegalValue, checkCause, hs, Nat.mod_eq_of_lt hf, Nat.mul_comm]

/-- The state after a word that accesses an object or a cistern: its fault, or what it does with its access. -/
def State.reached (s : State) (c : Issue) (r : Except FaultInfo LaneAccess) (f : LaneAccess → State) : State :=
  match r with
  | .error x => s.faults c x
  | .ok a => f a

/-! ### The words without a leader (R273, R279) -/

theorem exec_object_none (hi : (∃ a b, i = Instr.objInit a b ∨ i = .objArrive a b ∨ i = .objWait a b) ∨ ∃ d a b, i = Instr.objWaitSt d a b ∨ i = .objPoll d a)
    (h : Issues s i c g la) (hv : c.voters g = []) : exec i s = .next s := by
  have hld : g.leader c.on = none := Group.leader_none hv
  rcases hi with ⟨a, b, rfl | rfl | rfl⟩ | ⟨d, a, b, rfl | rfl⟩
  · exact wordWith_nothing h (leadVals_none _ hld) (by simp only [hld])
  · exact wordWith_nothing h (leadVals_none _ hld) (by simp only [hld])
  · exact word_nothing h (by simp only [hld])
  · exact word_nothing h (by simp only [hld])
  · exact word_nothing h (by simp only [hld])

theorem exec_cistern_none (hi : (∃ a b, i = Instr.cstInit a b ∨ i = .cstPut a) ∨ ∃ d a, i = Instr.cstTake d a)
    (h : Issues s i c g la) (hv : c.voters g = []) : exec i s = .next s := by
  have hld : g.leader c.on = none := Group.leader_none hv
  have hcauses (f : State → Group → Launch → Issue → Nat → List (Nat × Nat)) : leadCauses f s c g la = [] := by
    rw [leadCauses, leadVals_none f hld, ite_self]
  rcases hi with ⟨a, b, rfl | rfl⟩ | ⟨d, a, rfl⟩
  · exact wordWith_nothing h (leadVals_none _ hld) (by simp only [hld])
  · exact wordWith_nothing h (hcauses _) (by simp only [hld])
  · exact wordWith_nothing h (hcauses _) (by simp only [hld])

/-! ### The words of objects (R273) -/

theorem exec_objInit (h : Issues s (.objInit a b) c g la) (hld : g.leader c.on = some ld) : exec (.objInit a b) s = .next (
    if (objRefOf la g.key.block (leadV s g c ld a)).any s.dev.objNamed = true then s.faults c (illegalValue c 2)
    else if leadV s g c ld b = 0 then s.faults c (illegalValue c 3)
    else s.reached c (objAccess s.dev g la ld (leadV s g c ld a) true) fun x =>
      ((s.withDev fun d => ((d.touchRace g la x .other).plainOver x.store 0 x.off 16).clearObjHeads ⟨x.store, x.off⟩).did
        (objStore (some c.g) ⟨x.store, x.off⟩ 0 (leBytes 4 (leadV s g c ld b) ++ List.replicate 12 0))).did
        (watchWord c la.job (ObjRef.padBytes ⟨x.store, x.off⟩ 0 16))) := by
  have hcause : lowestCause (objInitCauses a b s c g la) =
      if (objRefOf la g.key.block (leadV s g c ld a)).any s.dev.objNamed = true then some (12, 2)
      else if leadV s g c ld b = 0 then some (12, 3) else none := by
    rw [objInitCauses, leadVals_some _ hld, lowestCause_causeIf_two (by decide)]
    simp only [decide_eq_true_eq]
  show execObjInit a b s = _
  rw [execObjInit]
  split_ifs with hnamed hexp
  · exact wordWith_illegal h (by rw [hcause, if_pos hnamed]) (by decide) _
  · exact wordWith_illegal h (by rw [hcause, if_neg hnamed, if_pos hexp]) (by decide) _
  · rw [wordWith_issues h (by rw [hcause, if_neg hnamed, if_neg hexp])]
    simp only [hld]
    cases objAccess s.dev g la ld (leadV s g c ld a) true with
    | error f => rfl
    | ok x => exact congrArg Host.Outcome.next (State.did_seq_three ..)

theorem exec_objArrive (h : Issues s (.objArrive a b) c g la) (hld : g.leader c.on = some ld) : exec (.objArrive a b) s = .next (
    if leadV s g c ld b = 0 then s.faults c (illegalValue c 3)
    else s.reached c (objAccess s.dev g la ld (leadV s g c ld a) true) fun x => match g.timedOut true with
      | some t => s.did (raiseDeferred c t)
      | none =>
        let o : ObjRef := ⟨x.store, x.off⟩
        let s1 := (s.did (releaseReads c.g)).withDev fun d => d.touchRace g la x .other
        (s1.did (objArriveN (s1.dev.releaseOf c.g x.space.scope) o (leadV s g c ld b))).did
          (watchWord c la.job (o.padBytes 4 (if s.completes o (leadV s g c ld b) then 12 else 4)))) := by
  have hcause : lowestCause (leadVals (fun s g _ c ld => causeIf 3 (decide (leadV s g c ld b = 0))) s c g la) =
      if leadV s g c ld b = 0 then some (12, 3) else none := by
    rw [leadVals_some _ hld, lowestCause_causeIf]
    simp only [decide_eq_true_eq]
  show execObjArrive a b s = _
  rw [execObjArrive]
  split_ifs with hn
  · exact wordWith_illegal h (by rw [hcause, if_pos hn]) (by decide) _
  · rw [wordWith_issues h (by rw [hcause, if_neg hn])]
    simp only [hld]
    cases objAccess s.dev g la ld (leadV s g c ld a) true with
    | error f => rfl
    | ok x =>
      cases ht : g.timedOut true with
      | some t => rfl
      | none =>
        refine congrArg Host.Outcome.next ((State.did_seq_four ..).trans ?_)
        simp only [State.did_mod, State.reached]
        rw [State.did_of_state fun t => objArriveN (t.dev.releaseOf c.g x.space.scope) ⟨x.store, x.off⟩ (leadV s g c ld b)]

theorem exec_objPoll (h : Issues s (.objPoll d a) c g la) (hld : g.leader c.on = some ld) : exec (.objPoll d a) s = .next (
    s.reached c (objAccess s.dev g la ld (leadV s g c ld a) false) fun x => (s.withDev fun dv => dv.touchRace g la x .other).after c.g 4
      (c.on.flatMap fun m => outRun g m d.toNat 2 (s.objStatus ⟨x.store, x.off⟩))) := by
  have hlat : (Instr.objPoll d a).latency = 4 := latency_of _ 0x3D 4 (by simp only [encodeNat, placed]; omega) rfl
  show execObjPoll d a s = _
  rw [execObjPoll, word_issues h]
  simp only [hld]
  cases objAccess s.dev g la ld (leadV s g c ld a) false with
  | error f => rfl
  | ok x =>
    refine congrArg Host.Outcome.next ((State.did_seq_pair ..).trans ?_)
    rw [State.did_retire, hlat]
    rfl

/-! ### The wait on an object (R178, R273) -/

/-- What a wait on an object does once its phase is over: the fault that its completion raises, or the acquire and what follows it. -/
def State.objMet (s : State) (c : Issue) (g : Group) (la : Launch) (ld code : Nat) (b : Reg) (fails : State → Issue → ObjRef → Nat → Option FaultInfo)
    (done : Issue → Group → ObjRef → Part) (o : ObjRef) : Option State :=
  let v := leadV s g c ld b % 2 ^ 16
  if s.objPhase o ≠ v ∧ g.objBusy o = false then
    some ((fails s c o (code)).elim
      ((s.withDev fun d => d.acquire c.g (codeScope la g.key.block (code)) (d.arrivers o v (s.objPhase o))).did (done c g o)) (s.faults c))
  else none

section
variable {fails : State → Issue → ObjRef → Nat → Option FaultInfo} {done : Issue → Group → ObjRef → Part}

/-- The part of a wait once its object is known: `otherwise` where its phase goes on. -/
theorem run_objMet (code : Nat) (o : ObjRef) (otherwise : Part) :
    s.run (
      let v := leadV s g c ld b % 2 ^ 16
      if s.objPhase o ≠ v ∧ g.objBusy o = false then
        match fails s c o (code) with
        | some f => raise c f s
        | none => Part.seq [
            Part.mod (fun d => d.acquire c.g (codeScope la g.key.block (code)) (d.arrivers o v (s.objPhase o))),
            done c g o] s
      else otherwise s) =
    (s.objMet c g la ld code b fails done o).getD (s.did otherwise) := by
  simp only [State.objMet]
  split
  · cases fails s c o (code) with
    | some f => rfl
    | none => exact State.did_seq_pair ..
  · rfl

theorem commit_objWaitWord (h : Issues s i c g la) (hld : g.leader c.on = some ld) (hr : c.resume = none) :
    commit s (objWaitWord i a b fails done s) = .next (s.reached c (objAccess s.dev g la ld (leadV s g c ld a) false) fun x =>
      let s1 := s.withDev fun d => d.touchRace g la x .other
      (s1.objMet c g la ld (leadV s g c ld a) b fails done ⟨x.store, x.off⟩).getD
        (s1.did (holdLanes c i c.lanes (.obj (leadV s g c ld a)) 6 (.bar 0xFD (codeAddr (leadV s g c ld a)))))) := by
  rw [objWaitWord, word_issues h]
  simp only [hld, hr, Option.isSome_none, Bool.false_eq_true, if_false, Option.map_none]
  cases objAccess s.dev g la ld (leadV s g c ld a) false with
  | error f => rfl
  | ok x => exact congrArg Host.Outcome.next ((State.did_seq_pair ..).trans (run_objMet (s := s.withDev fun d => d.touchRace g la x .other) ..))

theorem commit_objWaitWord_held {hd : Hold} {code : Nat} (h : Issues s i c g la) (hld : g.leader c.on = some ld) (hr : c.resume = some hd)
    (hk : hd.kind = .obj code) : commit s (objWaitWord i a b fails done s) =
      .next ((objRefOf la g.key.block (leadV s g c ld a)).elim s fun o => (s.objMet c g la ld (leadV s g c ld a) b fails done o).getD s) := by
  rw [objWaitWord, word_issues h]
  simp only [hld, hr, hk, Option.isSome_some, if_true, Option.map_some]
  cases objRefOf la g.key.block (leadV s g c ld a) with
  | none => rfl
  | some o => exact congrArg Host.Outcome.next (run_objMet _ o Part.none)

end

/-! ### An arrival at an object (R272) -/

theorem did_objStore (s : State) (by_ : Option GKey) (o : ObjRef) (off : Nat) (data : List Byte) : s.did (objStore by_ o off data) =
    { s.setBank (putBytes (s.bank o.store.bank) (o.store.at_ (o.addr + off)) data) o.store.bank with
      dev := s.dev.wake by_ o.store (o.addr + off) data.length } := by
  rw [State.did, objStore, State.run_append, State.run_storeBytes]
  rfl

/-- The bytes of an object from ARR on after an arrival that makes its count `t` (R272). -/
def State.arrivedBytes (s : State) (o : ObjRef) (t : Nat) : List Byte :=
  if t < s.objExp o then leBytes 4 t
  else leBytes 4 0 ++ leBytes 2 (s.objPhase o + 1) ++ (if t = s.objExp o then List.replicate 6 0 else [3, 3] ++ leBytes 4 t)

theorem phaseBytes_clear (phase : Nat) : phaseBytes phase 0 0 0 = leBytes 4 0 ++ leBytes 2 (phase + 1) ++ List.replicate 6 0 := by
  simp only [phaseBytes, List.append_assoc]
  rfl

theorem phaseBytes_over (phase detail : Nat) : phaseBytes phase 3 3 detail = leBytes 4 0 ++ leBytes 2 (phase + 1) ++ ([3, 3] ++ leBytes 4 detail) := by
  simp only [phaseBytes, List.append_assoc]
  rfl

theorem did_objArriveN (s : State) (r : Release) (o : ObjRef) (n : Nat) : ∃ d, s.did (objArriveN r o n) =
    { s.setBank (putBytes (s.bank o.store.bank) (o.store.at_ (o.addr + 4)) (s.arrivedBytes o (s.objArr o + n))) o.store.bank with dev := d } := by
  by_cases hlt : s.objArr o + n < s.objExp o
  · have hp : s.did (objArriveN r o n) = s.did (Part.seq [objStore r.who o 4 (leBytes 4 (s.objArr o + n)), Part.mod fun d => d.addArrival o r]) :=
      congrArg s.run (if_pos hlt)
    rw [hp, State.did_seq_pair, did_objStore, State.arrivedBytes, if_pos hlt]
    exact ⟨_, rfl⟩
  · have hbytes : s.arrivedBytes o (s.objArr o + n) = phaseBytes (s.objPhase o) (if decide (s.objExp o < s.objArr o + n) then 3 else 0)
        (if decide (s.objExp o < s.objArr o + n) then 3 else 0) (if decide (s.objExp o < s.objArr o + n) then s.objArr o + n else 0) := by
      rw [State.arrivedBytes, if_neg hlt]
      by_cases heq : s.objArr o + n = s.objExp o
      · simp [heq, phaseBytes_clear]
      · have hgt : s.objExp o < s.objArr o + n := by omega
        simp [heq, hgt, phaseBytes_over]
    have hp : s.did (objArriveN r o n) = s.did (Part.seq [objStore r.who o 4 (s.arrivedBytes o (s.objArr o + n)),
        Part.mod fun d => (d.addArrival o r).endPhase o (s.objPhase o)]) := by
      rw [hbytes]
      exact congrArg s.run (if_neg hlt)
    rw [hp, State.did_seq_pair, did_objStore]
    exact ⟨_, rfl⟩

end

end Sys2Proof.Machine
end

