-- ==== Sys2Proof/Proofs/Cisterns.lean ====
section
/-!
PROOF. The words of cisterns (R279), and the statement about objects and cisterns.
-/

namespace Sys2Proof.Machine

-- One lemma after another, within the memory of the check.
set_option Elab.async false

section
variable {s : State} {i : Instr} {c : Issue} {g : Group} {la : Launch} {ld : Nat} {a b d : Reg}

theorem exec_cstInit (h : Issues s (.cstInit a b) c g la) (hld : g.leader c.on = some ld) : exec (.cstInit a b) s = .next (
    if ((objRefOf la g.key.block (leadV s g c ld a)).any fun o => !s.cstOk o || decide (s.dev.cstWaiters o ≠ [])) = true then s.faults c (illegalValue c 2)
    else if leadV s g c ld b = 0 ∨ 2 ^ 31 < leadV s g c ld b then s.faults c (illegalValue c 3)
    else s.reached c (objAccess s.dev g la ld (leadV s g c ld a) true) fun x =>
      ((s.withDev fun d => (d.touchRace g la x .other).clearObjHeads ⟨x.store, x.off⟩).did
        (objStore (some c.g) ⟨x.store, x.off⟩ 0 (leBytes 4 0 ++ leBytes 4 (leadV s g c ld b)))).did
        (watchWord c la.job (ObjRef.padBytes ⟨x.store, x.off⟩ 0 8))) := by
  have hcause : lowestCause (cstInitCauses a b s c g la) =
      if ((objRefOf la g.key.block (leadV s g c ld a)).any fun o => !s.cstOk o || decide (s.dev.cstWaiters o ≠ [])) = true then some (12, 2)
      else if leadV s g c ld b = 0 ∨ 2 ^ 31 < leadV s g c ld b then some (12, 3) else none := by
    have hwaits (o : ObjRef) : (!(s.dev.cstWaiters o).isEmpty) = decide (s.dev.cstWaiters o ≠ []) := by
      cases s.dev.cstWaiters o <;> simp
    rw [cstInitCauses, leadVals_some _ hld, lowestCause_causeIf_two (by decide)]
    simp only [decide_eq_true_eq, hwaits]
  show execCstInit a b s = _
  rw [execCstInit]
  split_ifs with hbad hcap
  · exact wordWith_illegal h (by rw [hcause, if_pos hbad]) (by decide) _
  · exact wordWith_illegal h (by rw [hcause, if_neg hbad, if_pos hcap]) (by decide) _
  · rw [wordWith_issues h (by rw [hcause, if_neg hbad, if_neg hcap])]
    simp only [hld]
    cases objAccess s.dev g la ld (leadV s g c ld a) true with
    | error f => rfl
    | ok x => exact congrArg Host.Outcome.next (State.did_seq_three ..)

/-! ### The turn of a put and of a take (R279) -/

/-- Whether a put or a take goes on at once: there is room or a count, none of its accesses to the place is on its way, and it is the first of its kind. -/
def State.cstReady (s : State) (c : Issue) (g : Group) (take : Bool) (o : ObjRef) : Bool :=
  (if take then decide (0 < s.nat o.store o.addr 4) else decide (s.nat o.store o.addr 4 < s.nat o.store (o.addr + 4) 4)) &&
  !g.objBusy o && cstFirst s.dev g o take c

/-- What a put or a take does at its cistern: a put waits for its stores and raises a store's time-out, a ready one acts, and of the others a new one is held. -/
def State.cstTurn (s : State) (c : Issue) (g : Group) (i : Instr) (take : Bool) (code : Nat) (o : ObjRef) (first act : Part) : State :=
  if (!take && !g.storesDone c) = true then
    s.did (Part.when (c.resume.isNone = true) (holdLanes c i c.lanes .retry 9 (.bar 0xFC (codeAddr code))))
  else match (if take then none else g.timedOut true) with
    | some t => s.did (raiseDeferred c t)
    | none =>
      if s.cstReady c g take o = true then (s.did act).did (goOn c)
      else match c.resume.map Hold.kind with
        | some (.cst _ _ _ _) => s
        | _ => (s.did (holdLanes c i c.lanes (.cst take code s.dev.time (s.dev.now g)) 9 (.bar 0xFC (codeAddr code)))).did first

section
variable {take : Bool} {first : Issue → Group → ObjRef → Part} {act : Issue → Group → Launch → ObjRef → Nat → Nat → Part}

/-- The part of a put or a take once its cistern is known, as `cstWord` writes it. -/
def cstPart (c : Issue) (g : Group) (la : Launch) (i : Instr) (take : Bool) (code : Nat) (first : Issue → Group → ObjRef → Part)
    (act : Issue → Group → Launch → ObjRef → Nat → Nat → Part) (o : ObjRef) : Part := fun s =>
  if !take && !g.storesDone c then
    (if c.resume.isSome then [] else holdLanes c i c.lanes .retry 9 (.bar 0xFC (codeAddr code)) s)
  else match (if take then none else g.timedOut true) with
    | some t => raiseDeferred c t s
    | none =>
      if s.cstReady c g take o then Part.seq [act c g la o (codeScope la g.key.block code) (s.nat o.store o.addr 4), goOn c] s
      else match c.resume.map Hold.kind with
        | some (.cst _ _ _ _) => []
        | _ => Part.seq [
            holdLanes c i c.lanes (.cst take code s.dev.time (s.dev.now g)) 9 (.bar 0xFC (codeAddr code)),
            first c g o] s

theorem cstWord_eq : cstWord i a take first act = wordWith i
    (leadCauses fun s g l c ld => causeIf 2 ((objRefOf l g.key.block (leadV s g c ld a)).any fun o => !s.cstOk o))
    (fun c g l s =>
      match g.leader c.on with
      | none => []
      | some ld =>
        if c.resume.isSome then
          match objRefOf l g.key.block (leadV s g c ld a) with
          | some o => cstPart c g l i take (leadV s g c ld a) first act o s
          | none => []
        else match objAccess s.dev g l ld (leadV s g c ld a) true with
          | .error f => raise c f s
          | .ok x => Part.seq [Part.mod (fun d => d.touchRace g l x .other), cstPart c g l i take (leadV s g c ld a) first act ⟨x.store, x.off⟩] s) :=
  rfl

theorem did_cstPart (s : State) (code : Nat) (o : ObjRef) : s.did (cstPart c g la i take code first act o) =
    s.cstTurn c g i take code o (first c g o) (act c g la o (codeScope la g.key.block code) (s.nat o.store o.addr 4)) := by
  rw [State.did, cstPart, State.cstTurn]
  split
  · rw [State.did_when]
    cases c.resume <;> rfl
  · split
    · rfl
    · split
      · exact State.did_seq_pair ..
      · split
        · rfl
        · exact State.did_seq_pair ..

theorem leadCauses_resumed {hd : Hold} (f : State → Group → Launch → Issue → Nat → List (Nat × Nat)) (hr : c.resume = some hd) :
    leadCauses f s c g la = [] := by
  rw [leadCauses, hr]
  rfl

theorem leadCauses_new (f : State → Group → Launch → Issue → Nat → List (Nat × Nat)) (hr : c.resume = none) (hld : g.leader c.on = some ld) :
    leadCauses f s c g la = f s g la c ld := by
  rw [leadCauses, hr, leadVals_some f hld]
  rfl

theorem commit_cstWord_held {hd : Hold} (h : Issues s i c g la) (hld : g.leader c.on = some ld) (hr : c.resume = some hd) :
    commit s (cstWord i a take first act s) = .next ((objRefOf la g.key.block (leadV s g c ld a)).elim s fun o =>
      s.cstTurn c g i take (leadV s g c ld a) o (first c g o) (act c g la o (codeScope la g.key.block (leadV s g c ld a)) (s.nat o.store o.addr 4))) := by
  rw [cstWord_eq, wordWith_issues h (by rw [leadCauses_resumed _ hr]; rfl)]
  simp only [hld, if_pos (show c.resume.isSome = true by rw [hr]; rfl)]
  cases objRefOf la g.key.block (leadV s g c ld a) with
  | none => rfl
  | some o => exact congrArg Host.Outcome.next (did_cstPart ..)

theorem commit_cstWord_new (h : Issues s i c g la) (hld : g.leader c.on = some ld) (hr : c.resume = none) :
    commit s (cstWord i a take first act s) = .next (
      if ((objRefOf la g.key.block (leadV s g c ld a)).any fun o => !s.cstOk o) = true then s.faults c (illegalValue c 2)
      else s.reached c (objAccess s.dev g la ld (leadV s g c ld a) true) fun x =>
        let s1 := s.withDev fun d => d.touchRace g la x .other
        let o : ObjRef := ⟨x.store, x.off⟩
        s1.cstTurn c g i take (leadV s g c ld a) o (first c g o)
          (act c g la o (codeScope la g.key.block (leadV s g c ld a)) (s1.nat o.store o.addr 4))) := by
  have hcause : lowestCause (leadCauses (fun s g l c ld => causeIf 2 ((objRefOf l g.key.block (leadV s g c ld a)).any fun o => !s.cstOk o)) s c g la) =
      if ((objRefOf la g.key.block (leadV s g c ld a)).any fun o => !s.cstOk o) = true then some (12, 2) else none := by
    rw [leadCauses_new _ hr hld, lowestCause_causeIf]
  rw [cstWord_eq]
  by_cases hbad : ((objRefOf la g.key.block (leadV s g c ld a)).any fun o => !s.cstOk o) = true
  · rw [if_pos hbad]
    exact wordWith_illegal h (by rw [hcause, if_pos hbad]) (by decide) _
  · rw [if_neg hbad, wordWith_issues h (by rw [hcause, if_neg hbad])]
    simp only [hld, if_neg (show ¬ c.resume.isSome = true by rw [hr]; exact Bool.false_ne_true)]
    cases objAccess s.dev g la ld (leadV s g c ld a) true with
    | error f => rfl
    | ok x => exact congrArg Host.Outcome.next ((State.did_seq_pair ..).trans (did_cstPart ..))

end

/-- What a put does in its turn (R279). -/
def putAct (c : Issue) (la : Launch) (o : ObjRef) (scope n : Nat) : Part := Part.seq [
  releaseReads c.g,
  Part.mod (fun d => d.setObjHeads o 0 (d.objHeads o 0 ++ [d.releaseOf c.g scope])),
  objStore (some c.g) o 0 (leBytes 4 (n + 1)),
  watchWord c la.job (o.padBytes 0 4)]

/-- The count that a take takes, as its counted load; a held one counts as a load since it was held (R152, R279). -/
def takeCount (c : Issue) (g : Group) (ss : List Slot) (o : ObjRef) (n : Nat) : Part :=
  match c.resume with
  | some h => Part.mod fun dv => dv.modGroup c.g fun x => x.giveDue h.mark fun e => .value n (match e.op with | .due _ us => us | _ => [])
  | none => countTake c g o ss (.value n ss)

/-- What a take does in its turn (R279). -/
def takeAct (c : Issue) (g : Group) (la : Launch) (ss : List Slot) (o : ObjRef) (scope n : Nat) : Part := Part.seq [
  Part.mod (fun dv =>
    match dv.objHeads o 0 with
    | [] => dv
    | h :: hs => (dv.setObjHeads o 0 hs).acquire c.g scope [h]),
  objStore (some c.g) o 0 (leBytes 4 (n - 1)),
  takeCount c g ss o n,
  watchWord c la.job (o.padBytes 0 4)]

theorem execCstPut_eq : execCstPut a s = commit s (cstWord (.cstPut a) a false (fun _ _ _ => Part.none) (fun c _ la o scope n => putAct c la o scope n) s) := rfl

theorem execCstTake_eq : execCstTake d a s = commit s (cstWord (.cstTake d a) a true
    (fun c g o => countTake c g o (c.on.flatMap fun m => g.slots m d.toNat 1) (.due false (c.on.flatMap fun m => g.slots m d.toNat 1)))
    (fun c g la o scope n => takeAct c g la (c.on.flatMap fun m => g.slots m d.toNat 1) o scope n) s) := rfl

theorem State.cstReady_put (s : State) (o : ObjRef) : s.cstReady c g false o = true ↔
    s.nat o.store o.addr 4 < s.nat o.store (o.addr + 4) 4 ∧ g.objBusy o = false ∧ cstFirst s.dev g o false c = true := by
  simp [State.cstReady, and_assoc]

theorem State.cstReady_take (s : State) (o : ObjRef) : s.cstReady c g true o = true ↔
    0 < s.nat o.store o.addr 4 ∧ g.objBusy o = false ∧ cstFirst s.dev g o true c = true := by
  simp [State.cstReady, and_assoc]

theorem State.cstTurn_put (s : State) (code : Nat) (o : ObjRef) (n : Nat) :
    s.cstTurn c g (.cstPut a) false code o Part.none (putAct c la o (codeScope la g.key.block code) n) =
      if g.storesDone c = false then s.did (Part.when (c.resume.isNone = true) (holdLanes c (.cstPut a) c.lanes .retry 9 (.bar 0xFC (codeAddr code))))
      else match g.timedOut true with
        | some t => s.did (raiseDeferred c t)
        | none =>
          if s.nat o.store o.addr 4 < s.nat o.store (o.addr + 4) 4 ∧ g.objBusy o = false ∧ cstFirst s.dev g o false c = true then
            ((((s.did (releaseReads c.g)).withDev fun d => d.setObjHeads o 0 (d.objHeads o 0 ++ [d.releaseOf c.g (codeScope la g.key.block code)])).did
              (objStore (some c.g) o 0 (leBytes 4 (n + 1)))).did (watchWord c la.job (o.padBytes 0 4))).did (goOn c)
          else match c.resume.map Hold.kind with
            | some (.cst _ _ _ _) => s
            | _ => s.did (holdLanes c (.cstPut a) c.lanes (.cst false code s.dev.time (s.dev.now g)) 9 (.bar 0xFC (codeAddr code))) := by
  simp only [State.cstTurn, State.cstReady_put, putAct, State.did_seq_four, State.did_mod, State.did_none, Bool.not_false, Bool.true_and, Bool.not_eq_true',
    Bool.false_eq_true, if_false]

theorem State.cstTurn_take (s : State) (code : Nat) (o : ObjRef) (first : Part) (ss : List Slot) (n : Nat) :
    s.cstTurn c g (.cstTake d a) true code o first (takeAct c g la ss o (codeScope la g.key.block code) n) =
      if 0 < s.nat o.store o.addr 4 ∧ g.objBusy o = false ∧ cstFirst s.dev g o true c = true then
        ((((s.withDev fun dv => match dv.objHeads o 0 with
            | [] => dv
            | h :: hs => (dv.setObjHeads o 0 hs).acquire c.g (codeScope la g.key.block code) [h]).did (objStore (some c.g) o 0 (leBytes 4 (n - 1)))).did
          (takeCount c g ss o n)).did (watchWord c la.job (o.padBytes 0 4))).did (goOn c)
      else match c.resume.map Hold.kind with
        | some (.cst _ _ _ _) => s
        | _ => (s.did (holdLanes c (.cstTake d a) c.lanes (.cst true code s.dev.time (s.dev.now g)) 9 (.bar 0xFC (codeAddr code)))).did first := by
  simp only [State.cstTurn, State.cstReady_take, takeAct, State.did_seq_four, State.did_mod, Bool.not_true, Bool.false_and, Bool.false_eq_true, if_false,
    if_true]

end

/-- The leader's operand, as the statement writes it. -/
theorem uval_eq_leadV (s : State) (g : Group) (c : Issue) (ld : Nat) (r : Reg) : uval (srcV s.dev g c ld) r = leadV s g c ld r := rfl

/-! ### `obj.wait` and `obj.wait.st` as one word (R273) -/

/-- What an error of the object does to a wait: `obj.wait.st` raises none. -/
def waitFails (st : Bool) : State → Issue → ObjRef → Nat → Option FaultInfo := if st then fun _ _ _ _ => none else objError

/-- What a wait does once its phase is over: `obj.wait.st` lands the status. -/
def waitDone (st : Bool) (d : Reg) (c : Issue) (g : Group) (o : ObjRef) : Part := fun s =>
  if st then Part.seq [landSlots c.g (c.on.flatMap fun l => g.slots l d.toNat 2) (s.objStatus o), goOn c] s else goOn c s

theorem exec_objWait_eq (st : Bool) (d a b : Reg) (s : State) :
    exec (if st then .objWaitSt d a b else .objWait a b) s =
      commit s (objWaitWord (if st then .objWaitSt d a b else .objWait a b) a b (waitFails st) (waitDone st d) s) := by
  cases st <;> rfl

theorem waitFails_eq (st : Bool) (s : State) (c : Issue) (o : ObjRef) (code : Nat) : waitFails st s c o code =
    if st = false ∧ s.objErr o ≠ 0 then some (if codeListed (s.objErr o) = true then
      { code := .raw (s.objErr o), faddr := codeAddr code, cause := pcSlot c.loc, aux := s.objDetail o } else illegalValue c 2) else none := by
  cases st with
  | true => rfl
  | false =>
    show objError s c o code = _
    rw [objError, valueFault_eq c (by decide)]
    by_cases he : s.objErr o = 0
    · simp [he]
    · rw [if_neg he, ← apply_ite some]
      exact (if_pos ⟨rfl, he⟩).symm

theorem did_waitDone (st : Bool) (d : Reg) (s : State) (c : Issue) (g : Group) (o : ObjRef) : s.did (waitDone st d c g o) =
    (if st then s.did (landSlots c.g (c.on.flatMap fun l => g.slots l d.toNat 2) (s.objStatus o)) else s).did (goOn c) := by
  cases st with
  | true => exact State.did_seq_pair ..
  | false => rfl

theorem State.objStatus_withDev (s : State) (f : Dev → Dev) (o : ObjRef) : (s.withDev f).objStatus o = s.objStatus o := rfl

theorem objMet_wait (st : Bool) (d b : Reg) (s : State) (c : Issue) (g : Group) (la : Launch) (ld code : Nat) (o : ObjRef) :
    s.objMet c g la ld code b (waitFails st) (waitDone st d) o =
      let v := leadV s g c ld b % 2 ^ 16
      if v ≠ s.objPhase o ∧ g.objBusy o = false then
        if st = false ∧ s.objErr o ≠ 0 then some (s.faults c (if codeListed (s.objErr o) = true then
            { code := .raw (s.objErr o), faddr := codeAddr code, cause := pcSlot c.loc, aux := s.objDetail o }
          else illegalValue c 2))
        else
          let s2 := s.withDev fun dv => dv.acquire c.g (codeScope la g.key.block code) (dv.arrivers o v (s.objPhase o))
          let s3 := if st then s2.did (landSlots c.g (c.on.flatMap fun l => g.slots l d.toNat 2) (s.objStatus o)) else s2
          some (s3.did (goOn c))
      else none := by
  dsimp only
  rw [State.objMet, waitFails_eq]
  simp only [ne_comm (b := s.objPhase o)]
  split
  · split
    · rfl
    · rw [Option.elim_none, did_waitDone, State.objStatus_withDev]
  · rfl

/-- A put or a take, given what it does at its cistern. -/
theorem commit_cstWord_of_turn {s : State} {i : Instr} {c : Issue} {g : Group} {la : Launch} {ld : Nat} {a : Reg} {take : Bool}
    {first : Issue → Group → ObjRef → Part} {act : Issue → Group → Launch → ObjRef → Nat → Nat → Part} (h : Issues s i c g la)
    (hld : g.leader c.on = some ld) (turn : State → ObjRef → State)
    (hturn : ∀ (s1 : State) o, s1.nat = s.nat → s1.cstTurn c g i take (leadV s g c ld a) o (first c g o)
      (act c g la o (codeScope la g.key.block (leadV s g c ld a)) (s1.nat o.store o.addr 4)) = turn s1 o) :
    commit s (cstWord i a take first act s) = .next (
      if c.resume.isSome then (match objRefOf la g.key.block (leadV s g c ld a) with | some o => turn s o | none => s)
      else if (match objRefOf la g.key.block (leadV s g c ld a) with | some o => !s.cstOk o | none => false) then s.faults c (illegalValue c 2)
      else match objAccess s.dev g la ld (leadV s g c ld a) true with
        | .error f => s.faults c f
        | .ok x => turn (s.withDev fun d => d.touchRace g la x .other) ⟨x.store, x.off⟩) := by
  cases hr : c.resume with
  | some hd =>
    rw [commit_cstWord_held h hld hr]
    simp only [hturn s _ rfl]
    cases objRefOf la g.key.block (leadV s g c ld a) <;> rfl
  | none =>
    rw [commit_cstWord_new h hld hr]
    simp only [hturn (s.withDev _) _ rfl, Option.isSome_none, Bool.false_eq_true, if_false]
    cases objRefOf la g.key.block (leadV s g c ld a) <;> cases objAccess s.dev g la ld (leadV s g c ld a) true <;>
      simp only [Option.any_none, Option.any_some, State.reached]

/-- Settles O19: each word by what it does with its access, an object's bytes after an arrival as those from ARR on, and a put or a take by its turn. -/
theorem objectsAndCisterns : Obligations.ObjectsAndCisterns := by
  unfold Obligations.ObjectsAndCisterns
  refine ⟨⟨fun i s c g la hi h hv => exec_object_none hi h hv, fun a b s c g la ld h hld => ?_, fun a b s c g la ld h hld => exec_objArrive h hld,
      fun st d a b s c g la ld h hld => ⟨fun hr => ?_, fun hd code hr hk => ?_⟩, fun d a s c g la ld h hld => exec_objPoll h hld⟩,
    ⟨did_objArriveN, fun s o => rfl⟩,
    fun i s c g la hi h hv => exec_cistern_none hi h hv, fun a b s c g la ld h hld => ?_, fun a s c g la ld h hld => ?_, fun d a s c g la ld h hld => ?_⟩
  · rw [exec_objInit h hld]
    dsimp only
    rw [uval_eq_leadV, uval_eq_leadV]
    cases objRefOf la g.key.block (leadV s g c ld a) <;> cases objAccess s.dev g la ld (leadV s g c ld a) true <;> rfl
  · rw [exec_objWait_eq, commit_objWaitWord h hld hr]
    simp only [objMet_wait, uval_eq_leadV]
    cases objAccess s.dev g la ld (leadV s g c ld a) false <;> rfl
  · rw [exec_objWait_eq, commit_objWaitWord_held h hld hr hk]
    simp only [objMet_wait, uval_eq_leadV]
    cases objRefOf la g.key.block (leadV s g c ld a) <;> rfl
  · rw [exec_cstInit h hld]
    dsimp only
    rw [uval_eq_leadV, uval_eq_leadV]
    cases objRefOf la g.key.block (leadV s g c ld a) <;> cases objAccess s.dev g la ld (leadV s g c ld a) true <;>
      simp only [Option.any_none, Option.any_some, State.reached]
  · intro code turn
    refine (show exec (.cstPut a) s = _ from execCstPut_eq).trans ?_
    refine commit_cstWord_of_turn h hld turn fun s1 o hs => ?_
    rw [State.cstTurn_put, hs]
    rfl
  · intro code ss due turn
    refine (show exec (.cstTake d a) s = _ from execCstTake_eq).trans ?_
    refine commit_cstWord_of_turn h hld turn fun s1 o hs => ?_
    rw [State.cstTurn_take, hs]
    simp only [countTake, takeCount, hld, Option.getD_some, turn]
    cases c.resume <;> rfl

end Sys2Proof.Machine
end

