-- ==== Sys2Proof/Proofs/Watchdogs.lean ====
section
/-!
PROOF. The watchdogs of waits, of accesses and of engine operations (R175, R176, R259, R327, R363, R366).
-/

namespace Sys2Proof.Machine

-- One lemma after another, within the memory of the check.
set_option Elab.async false

/-! ### The barrier watchdog (R175, R176) -/

theorem Launch.dogNs_eq (l : Launch) : l.dogNs = 1000 * (if l.dogUs = 0 then 100000 else l.dogUs) := rfl

theorem exec_barTimeout_none {s : State} {k : GKey} {lane : Nat}
    (h : ∀ g la, s.dev.group? k = some g → s.dev.launch? k.launch = some la → s.dev.barWatch g la lane = none) : exec (.barTimeout k lane) s = .next s := by
  show execBarTimeout k lane s = _
  rw [execBarTimeout]
  cases hg : s.dev.group? k with
  | none => rfl
  | some g =>
    cases hl : s.dev.launch? k.launch with
    | none => rfl
    | some la =>
      simp only [h g la hg hl]
      rfl

theorem exec_barTimeout_watch {s : State} {k : GKey} {lane : Nat} {g : Group} {la : Launch} {w : BarWatch} (hg : s.dev.group? k = some g)
    (hl : s.dev.launch? k.launch = some la) (hw : s.dev.barWatch g la lane = some w) : exec (.barTimeout k lane) s = .next (
      if w.timer < la.dogNs ∨ g.counts = false ∨ g.run = .faulted ∨ g.run = .ended ∨ s.tiedBefore k la w.timer = true then s
      else (s.did (spareTimers k w.timer)).did (takeFault k (if g.xsaved.isSome then [] else g.heldWith lane) (g.lane lane).pc true
        { code := .barTimeout, cause := pcSlot (g.lane lane).pc + 256 * w.bar, aux := w.since % 2 ^ 32, extra := w.record })) := by
  show execBarTimeout k lane s = _
  rw [execBarTimeout]
  simp only [hg, hl, hw]
  split
  · rfl
  · exact congrArg Host.Outcome.next (State.did_seq_pair ..)

theorem mem_watchTimes {s : State} {h : Group} {la : Launch} {m t : Nat} : t ∈ s.watchTimes h la m ↔
    (∃ x, s.dev.barWatch h la m = some x ∧ x.timer = t) ∨ (∃ x, (h.lane m).hold = some x ∧ s.dev.starveWait x ≠ none ∧ x.timer = t) ∨
      ((h.lane m).hold = none ∧ s.cellWait h m = true ∧ (h.lane m).starve = t) := by
  rw [State.watchTimes, List.mem_append, Option.mem_toList, Option.map_eq_some_iff]
  refine or_congr_right ?_
  cases (h.lane m).hold with
  | none => by_cases hc : s.cellWait h m = true <;> simp [hc, @eq_comm _ t]
  | some x => cases hx : s.dev.starveWait x <;> simp [hx, @eq_comm _ t]

theorem tiedBefore_iff (s : State) (k : GKey) (la : Launch) (t : Nat) : s.tiedBefore k la t = true ↔
    ∃ h ∈ s.dev.groups, h.key.launch = k.launch ∧ h.counts = true ∧ (h.key.block < k.block ∨ h.key.block = k.block ∧ h.key.group < k.group) ∧
      ∃ m ∈ h.liveLanes, (∃ x, s.dev.barWatch h la m = some x ∧ x.timer = t) ∨
        (∃ x, (h.lane m).hold = some x ∧ s.dev.starveWait x ≠ none ∧ x.timer = t) ∨
        ((h.lane m).hold = none ∧ s.cellWait h m = true ∧ (h.lane m).starve = t) := by
  simp only [State.tiedBefore, List.any_eq_true, Bool.and_eq_true, Bool.or_eq_true, decide_eq_true_eq, List.contains_iff_mem, mem_watchTimes, and_assoc]

/-! ### The watchdogs that are spared (R175, R259) -/

/-- A lane whose watchdogs that have counted `t` raise nothing any more. -/
def Lane.spare (t : Nat) (x : Lane) : Lane := { x with
  starve := if x.hold.isNone ∧ x.starve = t then 0 else x.starve
  hold := x.hold.map fun h =>
    match h.dog with
    | .bar _ _ | .vt _ _ => if h.timer = t then { h with dog := .spent } else h
    | _ => h }

/-- A group after a fault of another at the watchdog's ns `t`. -/
def Group.spare (k : GKey) (t : Nat) (g : Group) : Group :=
  if g.key.launch ≠ k.launch ∨ g.key = k ∨ g.counts = false then g
  else if g.xsaved.isSome then { g with xwait := g.xwait.bind fun w => if w.timer = t then none else some w }
  else { g with lanes := g.lanes.map (Lane.spare t) }

theorem did_spareTimers (s : State) (k : GKey) (t : Nat) :
    s.did (spareTimers k t) = { s with dev := { s.dev with groups := s.dev.groups.map (Group.spare k t) } } := rfl

theorem Group.spare_self {k : GKey} {t : Nat} {g : Group} (h : g.key.launch ≠ k.launch ∨ g.key = k ∨ g.counts = false) : g.spare k t = g := if_pos h

/-- What a spared group keeps of a group: all but its lanes and its wait for the lock. -/
theorem Group.spare_keeps (k : GKey) (t : Nat) (g : Group) : ((g.spare k t).key, (g.spare k t).run, (g.spare k t).acc, (g.spare k t).gsr) =
    (g.key, g.run, g.acc, g.gsr) ∧ (g.spare k t).counts = g.counts ∧ (g.spare k t).xsaved = g.xsaved := by
  unfold Group.spare
  split_ifs <;> exact ⟨rfl, rfl, rfl⟩

theorem Lane.spare_empty {t : Nat} (ht : 0 < t) : Lane.empty.spare t = Lane.empty := by
  have : (0 : Nat) ≠ t := by omega
  simp [Lane.spare, Lane.empty, this]

theorem Group.lane_spare {k : GKey} {t : Nat} {g : Group} (ht : 0 < t) (hk : ¬ (g.key.launch ≠ k.launch ∨ g.key = k ∨ g.counts = false))
    (hx : g.xsaved = none) (n : Nat) : (g.spare k t).lane n = (g.lane n).spare t := by
  rw [Group.spare, if_neg hk, hx]
  show (g.lanes.map (Lane.spare t)).getD n Lane.empty = (g.lanes.getD n Lane.empty).spare t
  rw [← List.getD_map (f := Lane.spare t), Lane.spare_empty ht]

theorem Lane.spare_starve {t : Nat} {x : Lane} (ht : 0 < t) (h : (x.spare t).hold = none) : (x.spare t).starve ≠ t := by
  have hn : x.hold = none := by simpa [Lane.spare] using h
  simp only [Lane.spare, hn, Option.isNone_none, true_and]
  split_ifs with hs
  · exact ne_of_lt ht
  · exact hs

/-- A hold that is spared runs no watchdog of `t`. -/
theorem Lane.spare_hold {t : Nat} {x : Lane} {h : Hold} (hh : (x.spare t).hold = some h) :
    h.timer ≠ t ∨ ((∀ code st, h.dog ≠ .bar code st) ∧ ∀ code aux, h.dog ≠ .vt code aux) := by
  obtain ⟨h0, -, rfl⟩ := Option.map_eq_some_iff.1 hh
  cases hd : h0.dog with
  | none => simp [hd]
  | spent => simp [hd]
  | bar code st => by_cases ht : h0.timer = t <;> simp [ht]
  | vt code aux => by_cases ht : h0.timer = t <;> simp [ht]

theorem barWatch_saved {d : Dev} {g : Group} {la : Launch} {n : Nat} {w : BarWatch} (hx : g.xsaved.isSome = true) (hw : d.barWatch g la n = some w) :
    ∃ x, g.xwait = some x ∧ x.timer = w.timer := by
  rw [Dev.barWatch, if_pos hx] at hw
  split at hw
  · obtain ⟨x, hx, rfl⟩ := Option.map_eq_some_iff.1 hw
    exact ⟨x, hx, rfl⟩
  · cases hw

theorem barWatch_held {d : Dev} {g : Group} {la : Launch} {n : Nat} {w : BarWatch} (hx : g.xsaved = none) (hw : d.barWatch g la n = some w) :
    ∃ h code st, (g.lane n).hold = some h ∧ h.dog = .bar code st ∧
      w = ⟨h.timer, code, h.since, h.expiry.getD (barrierRecord d la g.key code (barState d g la n code st))⟩ := by
  simp only [Dev.barWatch, hx, Option.isSome_none, Bool.false_eq_true, if_false] at hw
  cases hh : (g.lane n).hold with
  | none => simp [hh] at hw
  | some h =>
    cases hd : h.dog with
    | bar code st => exact ⟨h, code, st, rfl, hd, by simpa [hh, hd] using hw.symm⟩
    | _ => simp [hh, hd] at hw

theorem starveWait_dog {d : Dev} {h : Hold} (hs : d.starveWait h ≠ none) : ∃ code aux, h.dog = .vt code aux := by
  cases hd : h.dog with
  | vt code aux => exact ⟨code, aux, rfl⟩
  | _ => exact absurd (by simp only [Dev.starveWait, hd]) hs

theorem Group.spare_unsaved {k : GKey} {t : Nat} {g : Group} (hk : ¬ (g.key.launch ≠ k.launch ∨ g.key = k ∨ g.counts = false))
    (hx : g.xsaved.isSome = true) : (g.spare k t).xwait = g.xwait.bind fun w => if w.timer = t then none else some w := by
  rw [Group.spare, if_neg hk, if_pos hx]

theorem spareTimers_spares (d : Dev) (k : GKey) {t : Nat} (g : Group) (la : Launch) (n : Nat) (ht : 0 < t)
    (hk : ¬ (g.key.launch ≠ k.launch ∨ g.key = k ∨ g.counts = false)) :
    (∀ w, d.barWatch (g.spare k t) la n = some w → w.timer ≠ t) ∧
    (∀ h, ((g.spare k t).lane n).hold = some h → d.starveWait h ≠ none → (g.spare k t).xsaved = none → h.timer ≠ t) ∧
    (((g.spare k t).lane n).hold = none → (g.spare k t).xsaved = none → ((g.spare k t).lane n).starve ≠ t) := by
  obtain ⟨-, -, hsaved⟩ := Group.spare_keeps k t g
  rw [hsaved]
  refine ⟨fun w hw => ?_, fun h hh hs hx => ?_, fun hh hx => ?_⟩
  · by_cases hx : g.xsaved.isSome = true
    · obtain ⟨x, hx', hxt⟩ := barWatch_saved (by rw [hsaved]; exact hx) hw
      rw [Group.spare_unsaved hk hx, Option.bind_eq_some_iff] at hx'
      obtain ⟨y, -, hy⟩ := hx'
      split at hy
      · cases hy
      · cases hy
        omega
    · have hx : g.xsaved = none := by simpa using hx
      obtain ⟨h, code, st, hh, hd, rfl⟩ := barWatch_held (hsaved.trans hx) hw
      rw [Group.lane_spare ht hk hx] at hh
      exact (Lane.spare_hold hh).resolve_right fun hn => hn.1 code st hd
  · rw [Group.lane_spare ht hk hx] at hh
    obtain ⟨code, aux, hd⟩ := starveWait_dog hs
    exact (Lane.spare_hold hh).resolve_right fun hn => hn.2 code aux hd
  · rw [Group.lane_spare ht hk hx] at hh ⊢
    exact Lane.spare_starve ht hh

theorem spareTimers_holds (s : State) (k : GKey) (t : Nat) : ∃ d, s.did (spareTimers k t) = { s with dev := d } ∧
    d.groups.map (fun g => (g.key, g.run, g.acc, g.gsr)) = s.dev.groups.map (fun g => (g.key, g.run, g.acc, g.gsr)) ∧
    (∀ g ∈ s.dev.groups, g.key.launch ≠ k.launch ∨ g.key = k ∨ g.counts = false → g ∈ d.groups) ∧
    ∀ g ∈ d.groups, g.key.launch = k.launch → g.key ≠ k → g.counts = true → ∀ la n, 0 < t →
      (∀ w, d.barWatch g la n = some w → w.timer ≠ t) ∧
      (∀ h, (g.lane n).hold = some h → d.starveWait h ≠ none → g.xsaved = none → h.timer ≠ t) ∧
      ((g.lane n).hold = none → g.xsaved = none → (g.lane n).starve ≠ t) := by
  refine ⟨_, did_spareTimers s k t, ?_, fun g hg hk => ?_, fun g hg hlaunch hkey hcounts la n ht => ?_⟩
  · rw [List.map_map]
    exact List.map_congr_left fun g _ => (Group.spare_keeps k t g).1
  · exact List.mem_map.2 ⟨g, hg, Group.spare_self hk⟩
  · obtain ⟨g0, -, rfl⟩ := List.mem_map.1 hg
    obtain ⟨hfields, hcounts0, -⟩ := Group.spare_keeps k t g0
    have hkey0 : (g0.spare k t).key = g0.key := congrArg Prod.fst hfields
    rw [hkey0] at hlaunch hkey
    rw [hcounts0] at hcounts
    exact spareTimers_spares _ k g0 la n ht (by simp [hlaunch, hkey, hcounts])

/-! ### What a barrier watchdog counts (R175, R176) -/

theorem barWatch_bar {d : Dev} {g : Group} {la : Launch} {lane : Nat} {h : Hold} {code st : Nat} (hx : g.xsaved = none)
    (hh : (g.lane lane).hold = some h) (hd : h.dog = .bar code st) : d.barWatch g la lane =
      some ⟨h.timer, code, h.since, h.expiry.getD (barrierRecord d la g.key code (barState d g la lane code st))⟩ := by
  simp only [Dev.barWatch, hx, hh, hd, Option.isSome_none, Bool.false_eq_true, if_false]

theorem passHold_bar {d : Dev} {g : Group} {la : Launch} {n lane : Nat} {h : Hold} {code st : Nat} (hl : d.launch? g.key.launch = some la)
    (hc : g.counts = true) (hp : d.holdPaused g.key h = false) (hd : h.dog = .bar code st) : d.passHold g n lane h =
      { h with
        timer := h.timer + n
        expiry := if h.expiry.isNone = true ∧ la.dogNs ≤ h.timer + n then some (barrierRecord d la g.key code (barState d g la lane code st))
          else h.expiry } := by
  simp only [Dev.passHold, hc, hp, hd, Dev.atExpiry, hl, Bool.true_eq_false, Bool.false_eq_true, or_self, if_false, Bool.and_eq_true, decide_eq_true_eq]

/-! ### The watchdog of vintage waits (R259) -/

section
variable {s : State} {k : GKey} {g : Group} {la : Launch} {n : Nat}

theorem exec_vtStarve_paused {access : Bool} (h : ∀ g, s.dev.group? k = some g → g.counts = false ∨ g.run = .faulted) :
    exec (.vtStarve k access n) s = .next s := by
  show execVtStarve k access n s = _
  rw [execVtStarve]
  cases hg : s.dev.group? k with
  | none => rfl
  | some g =>
    cases hl : s.dev.launch? k.launch with
    | none => rfl
    | some la =>
      simp only [if_pos (h g hg)]
      rfl

theorem exec_vtStarve_held {h : Hold} {code aux : Nat} (hg : s.dev.group? k = some g) (hl : s.dev.launch? k.launch = some la) (hc : g.counts = true)
    (hr : g.run ≠ .faulted) (hh : (g.lane n).hold = some h) (hs : s.dev.starveWait h = some (code, aux)) : exec (.vtStarve k false n) s = .next (
      if h.timer < la.dogNs ∨ s.tiedBefore k la h.timer = true then s
      else (s.did (spareTimers k h.timer)).did
        (takeFault k (g.heldWith n) (g.lane n).pc true { code := .vtStarve, cause := pcSlot (g.lane n).pc + 16 * code, aux := aux })) := by
  show execVtStarve k false n s = _
  rw [execVtStarve]
  simp only [hg, hl, hh, hs, hc, hr, Bool.true_eq_false, Bool.false_eq_true, or_self, if_false]
  split
  · rfl
  · exact congrArg Host.Outcome.next (State.did_seq_pair ..)

theorem exec_vtStarve_cell (hg : s.dev.group? k = some g) (hl : s.dev.launch? k.launch = some la) (hc : g.counts = true)
    (hr : g.run ≠ .faulted) (hh : (g.lane n).hold = none) : exec (.vtStarve k false n) s = .next (
      if la.dogNs ≤ (g.lane n).starve ∧ s.cellWait g n = true ∧ s.tiedBefore k la (g.lane n).starve = false then
        (s.did (spareTimers k (g.lane n).starve)).did (takeFault k (g.batchOf n) (s.starvedAt g la n) true
          { code := .vtStarve, cause := pcSlot (s.starvedAt g la n) + 16, aux := 0 })
      else s) := by
  show execVtStarve k false n s = _
  rw [execVtStarve]
  simp only [hg, hl, hh, hc, hr, Bool.true_eq_false, Bool.false_eq_true, or_self, if_false]
  split
  · exact congrArg Host.Outcome.next (State.did_seq_pair ..)
  · rfl

theorem exec_vtStarve_access {a : Access} {t : Nat} {w : Bool} {ss : List Slot} (hg : s.dev.group? k = some g) (hl : s.dev.launch? k.launch = some la)
    (hc : g.counts = true) (hr : g.run ≠ .faulted) (ha : (g.acc.find? fun x => decide (x.id = n)) = some a) (hop : a.op = .loadVt t w ss) :
    exec (.vtStarve k true n) s = .next (if la.dogNs ≤ a.timer ∧ s.vtWaits k.launch a = true then
      s.withGroup { g with acc := g.acc.filter fun x => decide (x.id ≠ n)
                           deferred := g.deferred ++ [⟨a.seq, a.lane, 0x25, a.faddr la, pcSlot a.loc + 48, t, false⟩] } else s) := by
  show execVtStarve k true n s = _
  rw [execVtStarve]
  simp only [hg, hl, ha, hop, hc, hr, Bool.true_eq_false, or_self, if_false, if_true]
  split <;> rfl

end

theorem starveWait_vt {d : Dev} {h : Hold} {code aux : Nat} (hd : h.dog = .vt code aux) :
    ((∀ t, h.kind ≠ .turn t) → d.starveWait h = some (code, aux)) ∧
    (∀ t, h.kind = .turn t → d.starveWait h = if d.mergeShort t then some (1, 0) else some (code, aux)) := by
  refine ⟨fun hk => ?_, fun t hk => ?_⟩
  · rw [Dev.starveWait, hd]
    cases hkind : h.kind with
    | turn t => exact absurd hkind (hk t)
    | _ => rfl
  · simp only [Dev.starveWait, hd, hk]

/-! ### Requests between dies (R327) -/

theorem exec_crossDieTimeout_access {s : State} {k : GKey} {id : Nat} {g : Group} {la : Launch} {a : Access} (hg : s.dev.group? k = some g)
    (hl : s.dev.launch? k.launch = some la) (ha : (g.acc.find? fun x => decide (x.id = id)) = some a) :
    exec (.crossDieTimeout (.access k id)) s = .next (
      if 50000 ≤ a.timer ∧ a.store = .pad ∧ padHome a.addr ≠ g.die ∧ a.isDue = false ∧ a.taken = false ∧ s.vtWaits k.launch a = false then
        if a.helper then
          ((s.withDev fun d => d.modGroup k fun g => g.dropAccess id).did (performOp k la { a with op := a.op.void })).did (settleWatch k)
        else s.withGroup { g with
          acc := g.acc.filter fun x => decide (x.id ≠ id)
          deferred := g.deferred ++ [⟨a.seq, a.lane, 0x34, a.faddr la, 0, 0, match a.op with | .store _ | .storeMask _ _ => true | _ => false⟩] }
      else s) := by
  show execCrossDieTimeout (.access k id) s = _
  rw [execCrossDieTimeout]
  simp only [hg, hl, ha]
  by_cases hdue : 50000 ≤ a.timer ∧ a.store = .pad ∧ padHome a.addr ≠ g.die ∧ a.isDue = false ∧ a.taken = false ∧ s.vtWaits k.launch a = false
  · rw [if_pos hdue]
    obtain ⟨htime, hpad, hdie, hkind, htaken, hwaits⟩ := hdue
    rw [if_neg (by simp [hpad, hdie, hkind, htaken, hwaits, htime])]
    split
    · exact congrArg Host.Outcome.next (State.did_seq_three ..)
    · rfl
  · rw [if_neg hdue, if_pos]
    · rfl
    · by_contra hn
      simp only [not_or, not_lt, not_not, Bool.not_eq_true] at hn
      exact hdue hn

theorem did_performOp_void (s : State) (k : GKey) (la : Launch) {a : Access} {ty : LdTy} {ss : List Slot} (h : a.op = .load ty ss) :
    s.did (performOp k la { a with op := a.op.void }) = s.did (landSlots k ss 0) := by
  rw [h]
  rfl

theorem exec_crossDieTimeout_engine {s : State} {op : Nat} {p : EngineOp} (hp : s.dev.op? op = some p) :
    exec (.crossDieTimeout (.engine op)) s = .next (match s.dev.job? p.job with
      | none => s
      | some j =>
        if s.opAsks p = true ∧ 50000 ≤ p.ask ∧ p.held = none ∧ s.dev.dumpHolds p.job = false then
          match p.kind with
          | .gat size => s.did (failLanes p size 0x34 0
              ((p.lanes.filter fun x => (decide (x.store = .pad) && decide (padHome x.dst ≠ p.die)) || s.asksDie j p.die x.va).map GatLane.lane))
          | _ => s.did (failOp p 0x34 0 p.done 0)
        else s) := by
  show execCrossDieTimeout (.engine op) s = _
  rw [execCrossDieTimeout]
  simp only [hp]
  cases s.dev.job? p.job with
  | none => rfl
  | some j =>
    by_cases hdue : s.opAsks p = true ∧ 50000 ≤ p.ask ∧ p.held = none ∧ s.dev.dumpHolds p.job = false
    · simp only [if_pos hdue]
      obtain ⟨hasks, htime, hheld, hdump⟩ := hdue
      rw [if_neg (by simp [hasks, htime, hheld, hdump])]
      cases p.kind <;> rfl
    · simp only [if_neg hdue]
      rw [if_pos]
      · rfl
      · by_contra hn
        simp only [not_or, not_lt, Bool.not_eq_true, Bool.not_eq_false, Option.isSome_eq_false_iff, Option.isNone_iff_eq_none] at hn
        exact hdue hn

theorem opAsks_holds (s : State) (p : EngineOp) : (s.opCrosses p = false → s.opAsks p = false) ∧
    (p.kind = .coll → s.opAsks p = (p.started && s.opCrosses p)) ∧
    (p.kind ≠ .coll → s.opAsks p = (p.link.isNone && (!p.kind.isRemote || p.sent) && !s.dev.opWaits p && !s.opStands p && s.opCrosses p)) := by
  refine ⟨fun h => ?_, fun h => ?_, fun h => ?_⟩
  · rw [State.opAsks, h, Bool.and_false]
  · simp only [State.opAsks, h]
  · rw [State.opAsks]
    cases hk : p.kind with
    | coll => exact absurd hk h
    | _ => rfl

theorem passOp_holds (s : State) (n : Nat) (p : EngineOp) :
    (p.held.isSome = true ∨ p.remoteHeld = true ∨ s.dev.dumpHolds p.job = true → s.passOp n p = p) ∧
    (p.held = none → p.remoteHeld = false → s.dev.dumpHolds p.job = false →
      (p.kind ≠ .coll → s.dev.opWaits p = true ∨ p.kind.isRemote = true ∧ p.sent = false → (s.passOp n p).timer = 0 ∧ (s.passOp n p).ask = 0) ∧
      (p.kind = .coll ∨ s.dev.opWaits p = false ∧ (p.kind.isRemote = false ∨ p.sent = true) →
        (s.passOp n p).ask = (if s.opAsks p = true then p.ask + n else 0) ∧
        (s.passOp n p).timer = if p.kind ≠ .coll ∧ s.opStands p = true then 0 else p.timer + n)) ∧
    (s.passOp n p).id = p.id ∧ (s.passOp n p).kind = p.kind ∧ (s.passOp n p).done = p.done ∧ (s.passOp n p).lanes = p.lanes := by
  refine ⟨fun h => ?_, fun hheld hremote hdump => ⟨fun hk hw => ?_, fun h => ?_⟩, ?_⟩
  · rw [State.passOp, if_pos (by simpa [or_assoc] using h)]
  · rw [State.passOp, if_neg (by simp [hheld, hremote, hdump]), if_pos ⟨hk, hw⟩]
    exact ⟨rfl, rfl⟩
  · rw [State.passOp, if_neg (by simp [hheld, hremote, hdump]), if_neg]
    · exact ⟨rfl, rfl⟩
    · rintro ⟨hk, hw⟩
      obtain ⟨hnone, hsent⟩ := h.resolve_left hk
      rcases hw with hw | ⟨hremoteKind, hunsent⟩
      · simp [hnone] at hw
      · exact hsent.elim (by simp [hremoteKind]) (by simp [hunsent])
  · unfold State.passOp
    split_ifs <;> exact ⟨rfl, rfl, rfl, rfl⟩

/-! ### Remote operations and collectives (R363, R366) -/

theorem exec_remoteTimeout {s : State} {op : Nat} {known : BitVec 2} {p : EngineOp} (hp : s.dev.op? op = some p) :
    exec (.remoteTimeout op known) s = .next (
      if p.kind.isRemote = true ∧ 200000 ≤ p.timer ∧ p.held = none ∧ p.remoteHeld = false then
        s.did (failOp p 0x34 0 (s.dev.remoteDetail p (known.toNat % 3)) 0)
      else s) := by
  show execRemoteTimeout op known s = _
  rw [execRemoteTimeout]
  simp only [hp]
  by_cases hdue : p.kind.isRemote = true ∧ 200000 ≤ p.timer ∧ p.held = none ∧ p.remoteHeld = false
  · rw [if_pos hdue]
    obtain ⟨hkind, htime, hheld, hremote⟩ := hdue
    rw [if_neg (by simp [hkind, htime, hheld, hremote])]
    rfl
  · rw [if_neg hdue, if_pos]
    · rfl
    · by_contra hn
      simp only [not_or, not_lt, Bool.not_eq_true, Bool.not_eq_false, Option.isSome_eq_false_iff, Option.isNone_iff_eq_none] at hn
      exact hdue hn

theorem remoteDetail_holds (d : Dev) (p : EngineOp) (known : Nat) : ((∀ x ord, p.kind ≠ .ratom x ord) → d.remoteDetail p known = p.done) ∧
    (∀ x ord, p.kind = .ratom x ord →
      (p.link = none ∨ p.sent = false → d.remoteDetail p known = 0) ∧
      (∀ n, p.link = some n → (∃ f ∈ (d.link n).waiting, f.msg = .request p.id) → d.remoteDetail p known = 0) ∧
      (∀ n, p.link = some n → p.sent = true → (∀ f ∈ (d.link n).waiting, f.msg ≠ .request p.id) → d.remoteDetail p known = known)) := by
  refine ⟨fun h => ?_, fun x ord hk => ⟨fun h => ?_, fun n hn hf => ?_, fun n hn hs hf => ?_⟩⟩
  · rw [Dev.remoteDetail]
    split
    · exact absurd ‹_› (h _ _)
    · rfl
  · simp only [Dev.remoteDetail, hk]
    cases hl : p.link with
    | none => rfl
    | some n =>
      have hs : p.sent = false := h.resolve_left (by simp [hl])
      simp [hs]
  · simp only [Dev.remoteDetail, hk, hn]
    rw [if_pos]
    simpa using Or.inr hf
  · simp only [Dev.remoteDetail, hk, hn]
    rw [if_neg]
    simpa [hs] using hf

theorem exec_collTimeout {s : State} {op : Nat} {p : EngineOp} {la : Launch} (hp : s.dev.op? op = some p) (hl : s.dev.launch? p.launch = some la) :
    exec (.collTimeout op) s = .next (
      if p.kind = .coll ∧ p.started = false ∧ p.held = none ∧ 1000 * (if la.dogUs = 0 then 100000 else la.dogUs) ≤ p.timer then
        s.did (failOp p 0x34 0 0 0)
      else s) := by
  show execCollTimeout op s = _
  rw [execCollTimeout]
  simp only [hp, hl]
  by_cases hdue : p.kind = .coll ∧ p.started = false ∧ p.held = none ∧ 1000 * (if la.dogUs = 0 then 100000 else la.dogUs) ≤ p.timer
  · rw [if_pos hdue]
    obtain ⟨hkind, hstarted, hheld, htime⟩ := hdue
    rw [if_neg (by simpa [hkind, hstarted, hheld] using htime)]
    rfl
  · rw [if_neg hdue, if_pos]
    · rfl
    · by_contra hn
      simp only [not_or, not_lt, not_not, Bool.not_eq_true, Option.isSome_eq_false_iff, Option.isNone_iff_eq_none] at hn
      exact hdue hn

theorem exec_opTimeouts_none {s : State} {op : Nat} (known : BitVec 2) (h : s.dev.op? op = none) :
    exec (.crossDieTimeout (.engine op)) s = .next s ∧ exec (.remoteTimeout op known) s = .next s ∧ exec (.collTimeout op) s = .next s := by
  refine ⟨?_, ?_, ?_⟩
  · show execCrossDieTimeout (.engine op) s = _
    simp only [execCrossDieTimeout, h]
    rfl
  · show execRemoteTimeout op known s = _
    simp only [execRemoteTimeout, h]
    rfl
  · show execCollTimeout op s = _
    simp only [execCollTimeout, h]
    rfl

/-- Settles O32: each watchdog by its own lemma, the counted time against its limit; the spared timers by what sparing does to a lane. -/
theorem watchdogs : Obligations.Watchdogs := by
  unfold Obligations.Watchdogs
  refine ⟨fun s k lane h => exec_barTimeout_none h, fun s k lane g la w hg hl hw => exec_barTimeout_watch hg hl hw, tiedBefore_iff, spareTimers_holds,
    fun d g la lane h code st hx hh hd => barWatch_bar hx hh hd, fun d g la n lane h code st hl hc hp hd => ?_,
    fun s k n h => ⟨exec_vtStarve_paused h, exec_vtStarve_paused h⟩, fun s k n g la h code aux hg hl hc hr hh hs => exec_vtStarve_held hg hl hc hr hh hs,
    fun d h code aux hd => starveWait_vt hd, fun s k n g la hg hl hc hr hh => exec_vtStarve_cell hg hl hc hr hh,
    fun s k n g la a hg hl hc hr ha t w ss hop => exec_vtStarve_access hg hl hc hr ha hop,
    fun s k id g la a hg hl ha => exec_crossDieTimeout_access hg hl ha, fun s k la a ty ss h => did_performOp_void s k la h,
    fun s op p hp => exec_crossDieTimeout_engine hp, opAsks_holds, passOp_holds, fun s op known p hp _ => exec_remoteTimeout hp, remoteDetail_holds,
    fun s op p la hp hl => exec_collTimeout hp hl, fun s op known h => exec_opTimeouts_none known h⟩
  dsimp only
  rw [passHold_bar hl hc hp hd, ← Launch.dogNs_eq]
  exact ⟨rfl, fun r hr => by simp [hr], fun hn => by simp [hn]⟩

end Sys2Proof.Machine
end

