-- ==== Sys2Proof/Proofs/JobEnds.lean ====
section
/-!
PROOF. The end of a job, and its fault records (R183, R331, R332, R382).
-/

namespace Sys2Proof.Machine

-- One lemma after another, within the memory of the check.
set_option Elab.async false

/-! ### The termination (R183, R332) -/

section
variable {s : State} {job : Nat} {j : Job}

theorem exec_jobTerminate_none (h : s.dev.job? job = none ∨ ∃ j, s.dev.job? job = some j ∧ j.ending = none) : exec (.jobTerminate job) s = .next s := by
  show execJobTerminate job s = _
  obtain h | ⟨j, h, he⟩ := h
  · simp only [execJobTerminate, h]
    rfl
  · simp only [execJobTerminate, h, he]
    rfl

theorem exec_jobTerminate_open (hj : s.dev.job? job = some j) (he : j.ending ≠ none) (hc : j.closing = false) :
    exec (.jobTerminate job) s = .next (((s.did (tellMembers job)).did (Part.mod fun d => d.endJob j)).did
      (Part.each ((s.dev.heldReqs.filter fun h => decide (h.req.job = job)).map HeldRequest.req) fun r => reply r [0x31, 2])) := by
  show execJobTerminate job s = _
  simp only [execJobTerminate, hj, if_neg (show ¬ j.ending.isNone = true by simpa using he), hc]
  exact congrArg Host.Outcome.next (State.did_seq_three ..)

theorem exec_jobTerminate_closing (hj : s.dev.job? job = some j) (he : j.ending ≠ none) (hc : j.closing = true) :
    exec (.jobTerminate job) s = .next (
      if j.records ≠ [] ∨ (∃ q ∈ s.dev.queues, q.job = job ∧ q.due ≠ []) then s
      else s.withDev fun d => { d with
        jobs := d.jobs.filter fun x => decide (x.id ≠ job)
        queues := d.queues.filter fun q => decide (q.job ≠ job)
        ended := upsert (fun e => decide (e.id = job)) ⟨job, j.code⟩ d.ended }) := by
  have hleft : (!j.records.isEmpty || s.dev.queues.any fun q => decide (q.job = job) && !q.due.isEmpty) = true ↔
      (j.records ≠ [] ∨ ∃ q ∈ s.dev.queues, q.job = job ∧ q.due ≠ []) := by simp
  show execJobTerminate job s = _
  simp only [execJobTerminate, hj, if_neg (show ¬ j.ending.isNone = true by simpa using he), hc, Bool.not_true, Bool.false_eq_true, if_false, hleft]
  split <;> rfl

end

/-! ### What leaves with a job's launches (R183, R246) -/

/-- What launches that leave do not touch. -/
theorem foldl_dropLaunch_rest (tags : List Nat) (d : Dev) : let e := tags.foldl Dev.dropLaunch d
    e.ops = d.ops ∧ e.tlb = d.tlb ∧ e.dump = d.dump ∧ e.abandoned = d.abandoned ∧ e.ended = d.ended ∧ e.time = d.time ∧ e.cycles = d.cycles ∧
    e.jobs = d.jobs ∧ e.clusters = d.clusters ∧ e.cuvOwner = d.cuvOwner := by
  induction tags generalizing d with
  | nil => exact ⟨rfl, rfl, rfl, rfl, rfl, rfl, rfl, rfl, rfl, rfl⟩
  | cons tag tags ih => exact ih (d.dropLaunch tag)

theorem mem_groups_foldl_dropLaunch (tags : List Nat) (d : Dev) (g : Group) :
    g ∈ (tags.foldl Dev.dropLaunch d).groups ↔ g ∈ d.groups ∧ g.key.launch ∉ tags := by
  induction tags generalizing d with
  | nil => simp
  | cons tag tags ih =>
    rw [List.foldl_cons, ih]
    simp [Dev.dropLaunch, and_assoc]

/-- A launch that stays has another tag; it loses at most the object that its end would reach. -/
theorem mem_launches_dropLaunch {d : Dev} {tag : Nat} {l : Launch} (hl : l ∈ (d.dropLaunch tag).launches) :
    ∃ l0 ∈ d.launches, l0.tag = l.tag ∧ l0.job = l.job ∧ l.tag ≠ tag := by
  obtain ⟨l0, hmem, rfl⟩ := List.mem_map.1 hl
  obtain ⟨hmem, htag⟩ := List.mem_filter.1 hmem
  have htag : l0.tag ≠ tag := by simpa using htag
  refine ⟨l0, hmem, ?_⟩
  split <;> exact ⟨rfl, rfl, htag⟩

theorem mem_launches_foldl_dropLaunch {tags : List Nat} {d : Dev} {l : Launch} (hl : l ∈ (tags.foldl Dev.dropLaunch d).launches) :
    ∃ l0 ∈ d.launches, l0.tag = l.tag ∧ l0.job = l.job ∧ l.tag ∉ tags := by
  induction tags generalizing d with
  | nil => exact ⟨l, hl, rfl, rfl, List.not_mem_nil⟩
  | cons tag tags ih =>
    obtain ⟨l1, hl1, ht1, hj1, hnot⟩ := ih hl
    obtain ⟨l0, hl0, ht0, hj0, hne⟩ := mem_launches_dropLaunch hl1
    exact ⟨l0, hl0, ht0.trans ht1, hj0.trans hj1, by simpa [← ht1, hne] using (ht1 ▸ hnot)⟩

/-! ### What leaves with a job (R183, R205) -/

/-- No entry of a job is left in a cluster that drops it. -/
theorem Cluster.all_dropJob {c : Cluster} {job : Nat} {tested : Bool} {x : Entry} (hx : x ∈ (c.dropJob job tested).all) : x.job ≠ job := by
  rw [Cluster.all, List.mem_append, List.mem_flatMap] at hx
  obtain hx | ⟨p, hp, hx⟩ := hx
  · simpa using (List.mem_filter.1 hx).2
  · obtain ⟨p0, -, rfl⟩ := List.mem_map.1 (List.mem_filter.1 hp).1
    simpa using (List.mem_filter.1 hx).2

/-- The tags of a job's launches. -/
def Dev.tagsOf (d : Dev) (job : Nat) : List Nat := (d.launches.filter fun l => decide (l.job = job)).map Launch.tag

theorem Dev.mem_tagsOf {d : Dev} {job t : Nat} : t ∈ d.tagsOf job ↔ ∃ l ∈ d.launches, l.job = job ∧ l.tag = t := by
  simp [Dev.tagsOf, and_assoc]

/-- The end of a job: what it owns directly leaves, then its launches, then its cuvée slots, and the job stands as closing. -/
theorem Dev.endJob_eq (d : Dev) (j : Job) : ∃ d1 : Dev,
    d.endJob j = (((d.tagsOf j.id).foldl Dev.dropLaunch d1).dropSlots j.id).setJob { j with closing := true } ∧
    d1.groups = d.groups ∧ d1.launches = d.launches ∧ d1.jobs = d.jobs ∧ d1.cuvOwner = d.cuvOwner ∧ d1.ended = d.ended ∧ d1.time = d.time ∧ d1.cycles = d.cycles ∧
    d1.ops = d.ops.filter (fun p => decide (p.job ≠ j.id)) ∧ d1.tlb = d.tlb.filter (fun t => decide (t.job ≠ j.id)) ∧
    d1.clusters = d.clusters.map (fun c => c.dropJob j.id (d.testsArray j.id c)) ∧
    d1.dump = d.dump.filter (fun x => decide (x.job ≠ j.id)) ∧
    d1.abandoned = ((d.dump.filter fun x => decide (x.job = j.id) && !x.complete).map fun x => (x.did, x.job)).toList ++ d.abandoned :=
  ⟨_, rfl, rfl, rfl, rfl, rfl, rfl, rfl, rfl, rfl, rfl, List.map_map, rfl, rfl⟩

/-- What the end of a job keeps of the lists that no launch owns, and of time. -/
theorem Dev.endJob_keeps (d : Dev) (j : Job) : let e := d.endJob j
    e.ops = d.ops.filter (fun p => decide (p.job ≠ j.id)) ∧ e.tlb = d.tlb.filter (fun t => decide (t.job ≠ j.id)) ∧
    e.dump = d.dump.filter (fun x => decide (x.job ≠ j.id)) ∧
    e.abandoned = ((d.dump.filter fun x => decide (x.job = j.id) && !x.complete).map fun x => (x.did, x.job)).toList ++ d.abandoned ∧
    e.ended = d.ended ∧ e.time = d.time ∧ e.cycles = d.cycles := by
  obtain ⟨d1, heq, -, -, -, -, hended, htime, hcycles, hops, htlb, -, hdump, habandoned⟩ := d.endJob_eq j
  obtain ⟨rops, rtlb, rdump, rabandoned, rended, rtime, rcycles, -, -, -⟩ := foldl_dropLaunch_rest (d.tagsOf j.id) d1
  rw [heq]
  exact ⟨rops.trans hops, rtlb.trans htlb, rdump.trans hdump, rabandoned.trans habandoned, rended.trans hended, rtime.trans htime, rcycles.trans hcycles⟩

theorem Dev.mem_groups_endJob (d : Dev) (j : Job) (g : Group) : g ∈ (d.endJob j).groups ↔
    g ∈ d.groups ∧ ∀ l ∈ d.launches, l.job = j.id → g.key.launch ≠ l.tag := by
  obtain ⟨d1, heq, hgroups, -⟩ := d.endJob_eq j
  have hmem := mem_groups_foldl_dropLaunch (d.tagsOf j.id) d1 g
  rw [hgroups, Dev.mem_tagsOf] at hmem
  rw [heq]
  refine hmem.trans (and_congr_right fun _ => ?_)
  simp [eq_comm]

theorem Dev.endJob_launches {d : Dev} {j : Job} {l : Launch} (hl : l ∈ (d.endJob j).launches) : l.job ≠ j.id := by
  obtain ⟨d1, heq, -, hlaunches, -⟩ := d.endJob_eq j
  rw [heq] at hl
  obtain ⟨l0, hl0, htag, hjob, hnot⟩ := mem_launches_foldl_dropLaunch (d := d1) hl
  exact fun h => hnot (Dev.mem_tagsOf.2 ⟨l0, hlaunches ▸ hl0, hjob.trans h, htag⟩)

theorem Dev.endJob_clusters {d : Dev} {j : Job} {c : Cluster} (hc : c ∈ (d.endJob j).clusters) {x : Entry} (hx : x ∈ c.all) : x.job ≠ j.id := by
  obtain ⟨d1, heq, -, -, -, -, -, -, -, -, -, hclusters, -⟩ := d.endJob_eq j
  obtain ⟨-, -, -, -, -, -, -, -, rclusters, -⟩ := foldl_dropLaunch_rest (d.tagsOf j.id) d1
  rw [heq] at hc
  obtain ⟨c0, hc0, rfl⟩ := List.mem_map.1 hc
  rw [rclusters, hclusters] at hc0
  obtain ⟨c1, -, rfl⟩ := List.mem_map.1 hc0
  exact Cluster.all_dropJob (c := c1) (tested := d.testsArray j.id c1) hx

theorem Dev.endJob_cuvOwner {d : Dev} {j : Job} {x : Nat × Nat} (hx : x ∈ (d.endJob j).cuvOwner) : x.2 ≠ j.id := by
  obtain ⟨d1, heq, -⟩ := d.endJob_eq j
  rw [heq] at hx
  simpa using (List.mem_filter.1 hx).2

theorem Dev.job?_endJob (d : Dev) (j : Job) : (d.endJob j).job? j.id = some { j with closing := true } := by
  obtain ⟨d1, heq, -⟩ := d.endJob_eq j
  rw [heq]
  exact Dev.job?_setJob_of rfl

theorem Dev.endJob_holds (d : Dev) (j : Job) : let e := d.endJob j
    (∀ l ∈ e.launches, l.job ≠ j.id) ∧ (∀ p ∈ e.ops, p.job ≠ j.id ∧ p ∈ d.ops) ∧ (∀ x ∈ e.cuvOwner, x.2 ≠ j.id) ∧ (∀ x ∈ e.tlb, x.job ≠ j.id) ∧
    (∀ g ∈ e.groups, g ∈ d.groups ∧ ∀ l ∈ d.launches, l.job = j.id → g.key.launch ≠ l.tag) ∧
    (∀ g ∈ d.groups, (∀ l ∈ d.launches, l.job = j.id → g.key.launch ≠ l.tag) → g ∈ e.groups) ∧
    (∀ c ∈ e.clusters, ∀ x ∈ c.all, x.job ≠ j.id) ∧
    (∀ x, e.dump = some x → x.job ≠ j.id) ∧
    (∀ x, d.dump = some x → x.job = j.id → x.complete = false → (x.did, x.job) ∈ e.abandoned) ∧ (∀ x ∈ d.abandoned, x ∈ e.abandoned) ∧
    e.ended = d.ended ∧
    e.job? j.id = some { j with closing := true } ∧ e.time = d.time ∧ e.cycles = d.cycles := by
  obtain ⟨hops, htlb, hdump, habandoned, hended, htime, hcycles⟩ := d.endJob_keeps j
  refine ⟨fun l hl => Dev.endJob_launches hl, fun p hp => ?_, fun x hx => Dev.endJob_cuvOwner hx, fun x hx => ?_,
    fun g hg => (d.mem_groups_endJob j g).1 hg, fun g hg hl => (d.mem_groups_endJob j g).2 ⟨hg, hl⟩, fun c hc x hx => Dev.endJob_clusters hc hx,
    fun x hx => ?_, fun x hx hjob hcomplete => ?_, fun x hx => ?_, hended, d.job?_endJob j, htime, hcycles⟩
  · rw [hops] at hp
    obtain ⟨hp, hne⟩ := List.mem_filter.1 hp
    exact ⟨by simpa using hne, hp⟩
  · rw [htlb] at hx
    simpa using (List.mem_filter.1 hx).2
  · rw [hdump] at hx
    simpa using (Option.filter_eq_some_iff.1 hx).2
  · rw [habandoned, hx]
    simp [hjob, hcomplete]
  · rw [habandoned]
    exact List.mem_append_right _ hx

theorem Queue.cut_holds (q : Queue) (code : Nat) (hq : q.num ≠ devQueue) : let r := q.cut code
    r.slot = none ∧ r.started = [] ∧ r.head = q.head ∧ r.due = ((countFrom 1 q.tail).filter fun n => !q.done.contains n).map fun n => ⟨n, code, 0, []⟩ :=
  ⟨rfl, rfl, rfl, if_neg hq⟩

/-! ### The watchpoints of a job (R382) -/

/-- A watchpoint of a job is disarmed. -/
def disarmCell (job : Nat) (w : Cells 64) (k : Nat) : Cells 64 :=
  if (cellGet w k).toNat / 2 ^ 32 = job then cellSet w k (BitVec.ofNat 64 ((cellGet w k).toNat - (cellGet w k).toNat % 2)) else w

theorem Regs.disarm_wpctl (r : Regs) (job : Nat) : (r.disarm job).wpctl = (countFrom 0 32).foldl (disarmCell job) r.wpctl := rfl

theorem disarmCell_wf {w : Cells 64} (job k : Nat) (h : cellsWf w = true) : cellsWf (disarmCell job w k) = true := by
  unfold disarmCell
  split
  · exact cellsWf_set _ _ h
  · exact h

theorem cellGet_disarmCell_ne {w : Cells 64} {job k n : Nat} (h : cellsWf w = true) (hn : n ≠ k) : cellGet (disarmCell job w k) n = cellGet w n := by
  unfold disarmCell
  split
  · exact cellGet_set_ne _ h hn
  · rfl

theorem cellGet_disarmCell_self {w : Cells 64} {job k : Nat} (h : cellsWf w = true) :
    cellGet (disarmCell job w k) k =
      if (cellGet w k).toNat / 2 ^ 32 = job then BitVec.ofNat 64 ((cellGet w k).toNat - (cellGet w k).toNat % 2) else cellGet w k := by
  unfold disarmCell
  split
  · exact cellGet_set_self _ _ h
  · rfl

theorem toNat_ofNat_even (x : BitVec 64) : (BitVec.ofNat 64 (x.toNat - x.toNat % 2)).toNat % 2 = 0 := by
  have hx : x.toNat < 2 ^ 64 := x.isLt
  have hlt : x.toNat - x.toNat % 2 < 2 ^ 64 := lt_of_le_of_lt (Nat.sub_le ..) hx
  rw [BitVec.toNat_ofNat, Nat.mod_eq_of_lt hlt]
  omega

/-- A watchpoint that is disarmed stays so. -/
theorem cellGet_foldl_disarmCell_even (job n : Nat) (ks : List Nat) {w : Cells 64} (h : cellsWf w = true) (hn : (cellGet w n).toNat % 2 = 0) :
    (cellGet (ks.foldl (disarmCell job) w) n).toNat % 2 = 0 := by
  induction ks generalizing w with
  | nil => exact hn
  | cons k ks ih =>
    refine ih (disarmCell_wf job k h) ?_
    by_cases hk : n = k
    · subst hk
      rw [cellGet_disarmCell_self h]
      split
      · exact toNat_ofNat_even _
      · exact hn
    · rwa [cellGet_disarmCell_ne h hk]

theorem cellGet_foldl_disarmCell {job n : Nat} {ks : List Nat} {w : Cells 64} (h : cellsWf w = true) (hmem : n ∈ ks)
    (hjob : (cellGet w n).toNat / 2 ^ 32 = job) : (cellGet (ks.foldl (disarmCell job) w) n).toNat % 2 = 0 := by
  induction ks generalizing w with
  | nil => cases hmem
  | cons k ks ih =>
    by_cases hk : n = k
    · subst hk
      refine cellGet_foldl_disarmCell_even job n ks (disarmCell_wf job n h) ?_
      rw [cellGet_disarmCell_self h, if_pos hjob]
      exact toNat_ofNat_even _
    · exact ih (disarmCell_wf job k h) ((List.mem_cons.1 hmem).resolve_left hk) (by rwa [cellGet_disarmCell_ne h hk])

/-! ### The fault records of a job (R183, R331) -/

theorem exec_faultRecordWrite_none {s : State} {job : Nat} (h : s.dev.job? job = none ∨ ∃ j, s.dev.job? job = some j ∧ j.records = []) :
    exec (.faultRecordWrite job) s = .next s := by
  show execFaultRecordWrite job s = _
  obtain h | ⟨j, h, hr⟩ := h
  · simp only [execFaultRecordWrite, h]
    rfl
  · simp only [execFaultRecordWrite, h, hr]
    rfl

theorem recordEarly_iff (d : Dev) (job : Nat) (r : FaultRec) : d.recordEarly job r = true ↔
    d.time ≤ r.time ∨ ∃ x ∈ d.reports, x.job = job ∧ (x.time < r.time ∨ x.time = r.time ∧ x.die * 2 ^ 12 < r.order) := by
  simp only [Dev.recordEarly, FaultRec.before, Bool.or_eq_true, Bool.and_eq_true, decide_eq_true_eq, List.any_eq_true]

/-- Stores in the host's memory, chunk by chunk, change nothing else. -/
theorem State.run_flatMap_storeBytes_host (s : State) (ks : List Nat) (a : Nat → Nat) (bs : Nat → List Byte) :
    ∃ h, s.run (ks.flatMap fun k => storeBytes .host (a k) (bs k)) = { s with host := h } := by
  induction ks generalizing s with
  | nil => exact ⟨s.host, rfl⟩
  | cons k ks ih =>
    obtain ⟨h, e⟩ := s.run_storeBytes_host (a k) (bs k)
    obtain ⟨h', e'⟩ := ih { s with host := h }
    exact ⟨h', by rw [List.flatMap_cons, State.run_append, e, e']⟩

theorem exec_faultRecordWrite {s : State} {job : Nat} {j : Job} {r : FaultRec} {rest : List FaultRec} (hj : s.dev.job? job = some j)
    (hr : nextRecord j.records = some (r, rest)) : exec (.faultRecordWrite job) s = .next (
      if j.fbsz < j.fbprod - j.fbcons + r.data.length / 64 ∨ s.dev.time ≤ r.time ∨
          (∃ x ∈ s.dev.reports, x.job = job ∧ (x.time < r.time ∨ x.time = r.time ∧ x.die * 2 ^ 12 < r.order)) then s
      else (s.did fun _ => j.bufferStores (r.bytes j.flagged)).withDev fun d =>
        d.setJob { j with records := rest, fbprod := j.fbprod + r.data.length / 64, flagged := j.flagged || r.ends }) := by
  show execFaultRecordWrite job s = _
  simp only [execFaultRecordWrite, hj, hr, recordEarly_iff]
  split
  · rfl
  · refine congrArg Host.Outcome.next ?_
    obtain ⟨h, e⟩ := s.run_flatMap_storeBytes_host (countFrom 0 ((r.bytes j.flagged).length / 64)) (fun k => j.fbuf + 64 * ((j.fbprod + k) % j.fbsz))
      (fun k => ((r.bytes j.flagged).drop (64 * k)).take 64)
    rw [State.run_append, State.did, Job.bufferStores, e]
    rfl

theorem FaultRec.bytes_holds (r : FaultRec) : r.bytes false = r.data ∧ (r.ends = false → r.bytes true = r.data) ∧
    (r.ends = true → ∀ k, (r.bytes true)[k]? = if k = 1 then (r.data[1]?).map (· &&& 0xFB) else r.data[k]?) := by
  refine ⟨by simp [FaultRec.bytes], fun h => by simp [FaultRec.bytes, h], fun h k => ?_⟩
  rw [FaultRec.bytes, if_pos ⟨h, rfl⟩]
  by_cases hk : k = 1
  · subst hk
    cases hd : r.data[1]? with
    | none => simpa using hd
    | some v =>
      obtain ⟨hlt, hval⟩ := List.getElem?_eq_some_iff.1 hd
      simp [hlt, hval]
  · simp [hk, List.getElem?_set_ne (Ne.symm hk)]

/-- A record may stand before another: it is not after it by time, and then not by its die, core and slot. -/
def FaultRec.NotAfter (a b : FaultRec) : Prop := a.time < b.time ∨ a.time = b.time ∧ a.order ≤ b.order

theorem FaultRec.NotAfter.trans {a b c : FaultRec} (hab : a.NotAfter b) (hbc : b.NotAfter c) : a.NotAfter c := by
  unfold FaultRec.NotAfter at *
  omega

theorem FaultRec.notAfter_of_before {a b : FaultRec} (h : a.before b = true) : a.NotAfter b := by
  simp only [FaultRec.before, Bool.or_eq_true, Bool.and_eq_true, decide_eq_true_eq] at h
  unfold FaultRec.NotAfter
  omega

theorem FaultRec.notAfter_of_not_before {a b : FaultRec} (h : ¬ a.before b = true) : b.NotAfter a := by
  simp only [FaultRec.before, Bool.or_eq_true, Bool.and_eq_true, decide_eq_true_eq] at h
  unfold FaultRec.NotAfter
  omega

theorem nextRecord_cons_ne_none (r : FaultRec) (rs : List FaultRec) : nextRecord (r :: rs) ≠ none := by
  rw [nextRecord]
  cases nextRecord rs with
  | none => exact Option.some_ne_none _
  | some p =>
    dsimp only
    split <;> exact Option.some_ne_none _

theorem nextRecord_eq_none {xs : List FaultRec} (h : nextRecord xs = none) : xs = [] := by
  cases xs with
  | nil => rfl
  | cons r rs => exact absurd h (nextRecord_cons_ne_none r rs)

theorem nextRecord_holds {xs : List FaultRec} {r : FaultRec} {rest : List FaultRec} (h : nextRecord xs = some (r, rest)) :
    (r :: rest).Perm xs ∧ ∀ x ∈ rest, r.NotAfter x := by
  induction xs generalizing r rest with
  | nil => cases h
  | cons a as ih =>
    rw [nextRecord] at h
    cases hn : nextRecord as with
    | none =>
      obtain ⟨rfl, rfl⟩ : a = r ∧ [] = rest := by simpa [hn] using h
      rw [nextRecord_eq_none hn]
      exact ⟨List.Perm.refl _, fun _ hx => by cases hx⟩
    | some p =>
      obtain ⟨y, ys⟩ := p
      obtain ⟨hperm, hmin⟩ := ih hn
      rw [hn] at h
      by_cases hb : y.before a = true
      · obtain ⟨rfl, rfl⟩ : y = r ∧ a :: ys = rest := by simpa [hb] using h
        refine ⟨(List.Perm.swap ..).trans (hperm.cons a), fun x hx => ?_⟩
        obtain rfl | hx := List.mem_cons.1 hx
        · exact FaultRec.notAfter_of_before hb
        · exact hmin x hx
      · obtain ⟨rfl, rfl⟩ : a = r ∧ as = rest := by simpa [hb] using h
        refine ⟨List.Perm.refl _, fun x hx => ?_⟩
        obtain rfl | hx := List.mem_cons.1 (hperm.mem_iff.2 hx)
        · exact FaultRec.notAfter_of_not_before hb
        · exact (FaultRec.notAfter_of_not_before hb).trans (hmin x hx)

theorem bufferStores_one (j : Job) {bs : List Byte} (h : bs.length = 64) :
    j.bufferStores bs = storeBytes .host (j.fbuf + 64 * (j.fbprod % j.fbsz)) bs := by
  rw [Job.bufferStores, h, show countFrom 0 (64 / 64) = [0] from rfl, List.flatMap_singleton, Nat.mul_zero, List.drop_zero, Nat.add_zero,
    List.take_of_length_le (by omega)]

/-- Settles O36: the launches of the job leave one by one, its watchpoints are disarmed cell by cell, and the next record is the least of the list. -/
theorem jobEnds : Obligations.JobEnds := by
  unfold Obligations.JobEnds
  refine ⟨fun s job h => exec_jobTerminate_none h, fun s job j hj he hc => exec_jobTerminate_open hj he hc,
    fun s job j hj he hc => exec_jobTerminate_closing hj he hc, fun d j _ => Dev.endJob_holds d j, Queue.cut_holds,
    fun r job n hn h hjob => ?_, fun s job h => exec_faultRecordWrite_none h, fun s job j r rest hj hr => exec_faultRecordWrite hj hr,
    FaultRec.bytes_holds, fun xs r rest h => nextRecord_holds h, fun s j bs n h hlen hn k v hv => ?_⟩
  · rw [Regs.disarm_wpctl]
    exact cellGet_foldl_disarmCell h (mem_countFrom.2 ⟨Nat.zero_le n, by omega⟩) hjob
  · rw [State.did, bufferStores_one j hlen, ← hn]
    exact State.run_storeBytes_host_cell h hv

end Sys2Proof.Machine
end

