-- ==== Sys2Proof/Proofs/RecordsAndSlots.lean ====
section
/-!
PROOF. Launches and records complete (R246, R281, R294, R318, R335, R340, R343), and queues take the hardware slots (R341, R342, R344).
-/

namespace Sys2Proof.Machine

-- One lemma after another, within the memory of the check.
set_option Elab.async false

/-! ### A launch completes (R281, R294, R340, R343) -/

section
variable {s : State} {tag : Nat} {la : Launch}

theorem exec_launchComplete_none (h : s.dev.launch? tag = none ∨ ∃ la, s.dev.launch? tag = some la ∧
    ((∀ j, s.dev.job? la.job = some j → j.ending ≠ none) ∨ s.dev.launchOver la = false)) : exec (.launchComplete tag) s = .next s := by
  show execLaunchComplete tag s = _
  obtain h | ⟨la, h, hstay⟩ := h
  · simp only [execLaunchComplete, h]
    rfl
  · simp only [execLaunchComplete, h]
    rw [if_pos]
    · rfl
    · refine hstay.imp_left fun hj => ?_
      cases hjob : s.dev.job? la.job with
      | none => rfl
      | some j => exact Option.isSome_iff_ne_none.2 (hj j hjob)

/-- What a launch that completes leaves with: its trace event is recorded, and all that it owned is gone. -/
theorem exec_launchComplete_queue {j : Job} {job q seq : Nat} (hl : s.dev.launch? tag = some la) (hj : s.dev.job? la.job = some j) (he : j.ending = none)
    (ho : s.dev.launchOver la = true) (hq : la.origin = .queue job q seq) : exec (.launchComplete tag) s = .next
      ((s.did (traceRec la.job s.dev.anyDie 2 0 la.id.toNat)).withDev fun d =>
        ({ d.dropLaunch la.tag with free := d.free + 1 } : Dev).addDue job q ⟨seq, 0, 0, if la.det = true then sha512 la.digest else []⟩) := by
  show execLaunchComplete tag s = _
  simp only [execLaunchComplete, hl, hj, he, ho, hq, Option.isSome_none, Bool.false_eq_true, Bool.true_eq_false, or_self, if_false]
  exact congrArg Host.Outcome.next (State.did_seq_three ..)

theorem exec_launchComplete_child {j : Job} {p : Nat} {o : Option ObjRef} (hl : s.dev.launch? tag = some la) (hj : s.dev.job? la.job = some j)
    (he : j.ending = none) (ho : s.dev.launchOver la = true) (hp : la.origin = .child p o) : exec (.launchComplete tag) s = .next
      ((match o with
        | some o => (s.did (traceRec la.job s.dev.anyDie 2 0 la.id.toNat)).did (childArrive la o)
        | none => s.did (traceRec la.job s.dev.anyDie 2 0 la.id.toNat)).withDev fun d =>
        (({ d.dropLaunch la.tag with free := d.free + 1 } : Dev).modQueue la.job devQueue fun q => { q with
          started := q.started.filter fun e => decide (e.seq ≠ la.id.toNat % 2 ^ 48)
          done := q.done ++ [la.id.toNat % 2 ^ 48] }).settleQueue la.job devQueue) := by
  show execLaunchComplete tag s = _
  simp only [execLaunchComplete, hl, hj, he, ho, hp, Option.isSome_none, Bool.false_eq_true, Bool.true_eq_false, or_self, if_false]
  refine congrArg Host.Outcome.next ((State.did_seq_four ..).trans ?_)
  cases o with
  | none => rw [State.did_none, State.did_mod, State.did_mod, State.withDev, State.withDev, State.withDev]
  | some o => rw [State.did_mod, State.did_mod, State.withDev, State.withDev, State.withDev]

theorem did_childArrive (s : State) (la : Launch) (o : ObjRef) :
    let hits := s.dev.watchHits la.job false padHome fun a =>
      decide (o.store = .pad) && decide (o.addr + 4 ≤ a) && decide (a < o.addr + (if s.completes o 1 = true then 16 else 8))
    ∃ who, s.did (childArrive la o) = (s.did (watchReport hits 1 who 1000 la.job s.dev.time none)).did
      (objArriveN (engineRelease (((s.dev.groups.filter fun g => decide (g.key.launch = la.tag)).flatMap Group.knows ++ la.knows).eraseDups)) o 1) := by
  intro hits
  refine ⟨s.dev.anyDie + 16 * ((Config.freeByte s.dev.free).toNat % 16), ?_⟩
  rw [State.did, childArrive]
  exact State.did_seq_pair ..

theorem launchOver_iff (d : Dev) (la : Launch) : d.launchOver la = true ↔
    la.ended = la.nblocks ∧ (∀ p ∈ d.ops, p.launch ≠ la.tag) ∧ (∀ w ∈ d.staged, w.launch ≠ la.tag) ∧
    (∀ c ∈ d.clusters, ∀ e ∈ c.all, e.g.launch ≠ la.tag) ∧ ∀ g ∈ d.groups, g.key.launch = la.tag → g.acc = [] := by
  simp [Dev.launchOver, and_assoc]

end

theorem XSet.drop_holder {x : XSet} {tag : Nat} {k : GKey} (h : (x.drop tag).holder = some k) : k.launch ≠ tag := by
  intro hk
  cases hx : x.holder with
  | none => simp [XSet.drop, hx] at h
  | some y =>
    by_cases hy : y.launch = tag
    · simp [XSet.drop, hx, hy] at h
    · obtain rfl : y = k := by simpa [XSet.drop, hx, hy] using h
      exact hy hk

theorem XSet.drop_queue {x : XSet} {tag : Nat} {y : GKey × Nat} (h : y ∈ (x.drop tag).queue) : y.1.launch ≠ tag := by
  simpa using (List.mem_filter.1 h).2

theorem Dev.dropLaunch_holds (d : Dev) (tag : Nat) : let e := d.dropLaunch tag
    e.groups = d.groups.filter (fun g => decide (g.key.launch ≠ tag)) ∧ e.blocks = d.blocks.filter (fun b => decide (b.launch ≠ tag)) ∧
    (∀ l ∈ e.launches, l.tag ≠ tag) ∧ (∀ v ∈ e.vintages, v.launch ≠ tag) ∧ (∀ c ∈ e.dataCells, c.launch ≠ tag) ∧ (∀ x ∈ e.mergeRecs, x.launch ≠ tag) ∧
    (∀ x ∈ e.xsets, (∀ k, x.holder = some k → k.launch ≠ tag) ∧ ∀ y ∈ x.queue, y.1.launch ≠ tag) ∧ e.jobs = d.jobs ∧ e.ops = d.ops ∧
    e.launches.length = (d.launches.filter fun l => decide (l.tag ≠ tag)).length := by
  refine ⟨rfl, rfl, fun l hl => ?_, fun v hv => by simpa using (List.mem_filter.1 hv).2, fun c hc => by simpa using (List.mem_filter.1 hc).2,
    fun x hx => by simpa using (List.mem_filter.1 hx).2, fun x hx => ?_, rfl, rfl, List.length_map ..⟩
  · obtain ⟨l0, -, htag, -, hne⟩ := mem_launches_dropLaunch hl
    exact hne
  · obtain ⟨x0, -, rfl⟩ := List.mem_map.1 hx
    exact ⟨fun k hk => XSet.drop_holder hk, fun y hy => XSet.drop_queue hy⟩

/-! ### An invalidation completes (R318) -/

theorem exec_invalidateComplete_none {s : State} {job n seq : Nat}
    (h : s.dev.queue? job n = none ∨ ∃ q, s.dev.queue? job n = some q ∧ ∀ e ∈ q.started, e.seq ≠ seq) : exec (.invalidateComplete job n seq) s = .next s := by
  show execInvalidateComplete job n seq s = _
  obtain h | ⟨q, h, hn⟩ := h
  · simp only [execInvalidateComplete, h]
    rfl
  · have hfind : (q.started.find? fun e => decide (e.seq = seq)) = none := List.find?_eq_none.2 fun e he => by simpa using hn e he
    simp only [execInvalidateComplete, h, hfind]
    rfl

theorem exec_invalidateComplete {s : State} {job n seq : Nat} {q : Queue} {e : Started} (hq : s.dev.queue? job n = some q)
    (he : (q.started.find? fun e => decide (e.seq = seq)) = some e) :
    let va := fieldAt e.raw 8 8
    let len := fieldAt e.raw 0x10 8
    exec (.invalidateComplete job n seq) s = .next (
      if fieldAt e.raw 0 1 ≠ 3 ∨ (∃ x ∈ q.due, x.seq = seq) ∨
          (∃ w ∈ s.dev.staged, s.dev.jobFor w.g = job ∧ ∃ r ∈ w.runs, r.1 < va + len ∧ va < r.1 + r.2.2.length) then s
      else s.withDev fun d => (d.dropTranslations job va len).addDue job n ⟨seq, 0, 0, []⟩) := by
  intro va len
  show execInvalidateComplete job n seq s = _
  simp only [execInvalidateComplete, hq, he, List.any_eq_true, Bool.and_eq_true, decide_eq_true_eq]
  split <;> rfl

/-- Whether a page has addresses in a range. -/
def pageMeets (page level va n : Nat) : Prop := page * pageSize level < va + n ∧ va < (page + 1) * pageSize level

theorem not_pageMeets {page level va n : Nat} (h : ¬ pageMeets page level va n) :
    (page + 1) * pageSize level ≤ va ∨ va + n ≤ page * pageSize level := by
  unfold pageMeets at h
  omega

theorem Dev.dropTranslations_holds (d : Dev) (job va n : Nat) : let e := d.dropTranslations job va n
    (∀ t ∈ e.tlb, t ∈ d.tlb ∧ (t.job = job → (t.page + 1) * pageSize t.level ≤ va ∨ va + n ≤ t.page * pageSize t.level)) ∧
    (∀ t ∈ d.tlb, t.job ≠ job → t ∈ e.tlb) ∧
    ∀ g ∈ e.groups, d.jobFor g.key = job → ∀ x ∈ g.lanes, ∀ p, x.lastPage = some p →
      (p.page + 1) * pageSize p.level ≤ va ∨ va + n ≤ p.page * pageSize p.level := by
  refine ⟨fun t ht => ?_, fun t ht hne => ?_, fun g hg hjob x hx p hp => ?_⟩
  · obtain ⟨ht, hkept⟩ := List.mem_filter.1 ht
    refine ⟨ht, fun hjob => not_pageMeets fun hm => ?_⟩
    simp [hjob, hm.1, hm.2] at hkept
  · exact List.mem_filter.2 ⟨ht, by simp [hne]⟩
  · obtain ⟨g0, -, rfl⟩ := List.mem_map.1 hg
    split at hjob
    · exact absurd hjob ‹_›
    · rename_i hmine
      rw [if_neg hmine] at hx
      obtain ⟨x0, -, rfl⟩ := List.mem_map.1 hx
      refine not_pageMeets fun hm => ?_
      split at hp
      · split at hp
        · cases hp
        · rename_i hlast hout
          rw [hlast] at hp
          cases hp
          exact hout hm
      · rename_i hlast
        rw [hlast] at hp
        cases hp

/-! ### Completion entries (R335, R340) -/

section
variable {s : State} {job n : Nat}

theorem exec_completionEntryWrite_none (h : s.dev.job? job = none ∨ s.dev.queue? job n = none ∨ ∃ q, s.dev.queue? job n = some q ∧ q.due = []) :
    exec (.completionEntryWrite job n) s = .next s := by
  show execCompletionEntryWrite job n s = _
  obtain h | h | ⟨q, h, hd⟩ := h
  · simp only [execCompletionEntryWrite, h]
    rfl
  · simp only [execCompletionEntryWrite, h]
    cases s.dev.job? job <;> rfl
  · simp only [execCompletionEntryWrite, h]
    cases s.dev.job? job with
    | none => rfl
    | some j =>
      simp only [hd]
      rfl

theorem exec_completionEntryWrite {j : Job} {q : Queue} {e : Completion} {rest : List Completion} (hj : s.dev.job? job = some j)
    (hq : s.dev.queue? job n = some q) (hd : q.due = e :: rest) : exec (.completionEntryWrite job n) s = .next (
      if q.csize ≤ q.cprod - q.ccons ∨ s.dev.dumpHolds job = true then s
      else
        let va := q.cring + 128 * (q.cprod % q.csize)
        match s.translate j va true with
        | .ok pa _ =>
          ((s.did (noteTranslation job va true)).did fun t => (entryBytes t.dev q e).zipIdx.map fun b => paStore (pa + b.2) b.1).withDev fun d =>
            (d.setQueue { q with
              due := rest
              cprod := q.cprod + 1
              started := q.started.filter fun x => decide (x.seq ≠ e.seq)
              done := q.done ++ [e.seq] }).settleQueue job n
        | _ => s) := by
  show execCompletionEntryWrite job n s = _
  simp only [execCompletionEntryWrite, hj, hq, hd]
  split
  · rfl
  · cases s.translate j (q.cring + 128 * (q.cprod % q.csize)) true with
    | ok pa p => exact congrArg Host.Outcome.next (State.did_seq_three ..)
    | _ => rfl

end

theorem entryBytes_holds (d : Dev) (q : Queue) (e : Completion) (h : e.digest = [] ∨ e.digest.length = 64) : let bs := entryBytes d q e
    bs.length = 128 ∧ leNat (bs.take 8) = (q.num * 2 ^ 48 + e.seq) % 2 ^ 64 ∧ leNat ((bs.drop 8).take 4) = e.status % 2 ^ 32 ∧
    leNat ((bs.drop 12).take 4) = e.detail % 2 ^ 32 ∧ leNat ((bs.drop 16).take 8) = d.timeFor q.job d.time % 2 ^ 64 ∧
    (e.digest.length = 64 → (bs.drop 32).take 64 = e.digest) ∧ ∀ b ∈ bs.drop 96, b = 0 := by
  have hlen : e.digest.length ≤ 64 := by
    obtain h | h := h
    · simp [h]
    · omega
  have hbs : entryBytes d q e = leBytes 8 (q.num * 2 ^ 48 + e.seq) ++ (leBytes 4 e.status ++ (leBytes 4 e.detail ++
      (leBytes 8 (d.timeFor q.job d.time) ++ (leBytes 8 0 ++ (e.digest ++ List.replicate (96 - e.digest.length) 0))))) := by
    simp only [entryBytes, List.append_assoc]
  dsimp only
  rw [hbs]
  refine ⟨?_, ?_, ?_, ?_, ?_, fun h64 => ?_, fun b hb => ?_⟩
  · simp
    omega
  · simp
  · simp
  · simp
  · simp
  · simp [h64]
  · have hdrop : (e.digest ++ List.replicate (96 - e.digest.length) (0 : Byte)).drop 64 =
        List.replicate (96 - 64) 0 := by
      rw [List.drop_append, List.drop_eq_nil_of_le hlen, List.nil_append, List.drop_replicate]
      congr 1
      omega
    simp only [drop_leBytes_append (show 8 ≤ 96 by decide), drop_leBytes_append (show 4 ≤ 88 by decide), drop_leBytes_append (show 4 ≤ 84 by decide),
      drop_leBytes_append (show 8 ≤ 80 by decide), drop_leBytes_append (show 8 ≤ 72 by decide), hdrop] at hb
    exact List.eq_of_mem_replicate hb

/-! ### Hardware queue slots (R341, R342, R344) -/

theorem exec_slotGrant (s : State) : exec .slotGrant s = .next (match s.dev.slotFree, s.dev.slotNext with
    | some k, some q => s.withDev fun d => d.giveSlot q k
    | _, _ => s) := by
  show execSlotGrant s = _
  rw [execSlotGrant]
  cases s.dev.slotFree <;> cases s.dev.slotNext <;> rfl

theorem slotFree_holds (d : Dev) : (d.slotFree = none ↔ ∀ k, k < 64 → ∃ q ∈ d.queues, q.slot = some k) ∧
    ∀ k, d.slotFree = some k → k < 64 ∧ ∀ q ∈ d.queues, q.slot ≠ some k := by
  refine ⟨?_, fun k hk => ⟨?_, fun q hq hs => ?_⟩⟩
  · simp [Dev.slotFree, slotCount, List.find?_eq_none]
  · have := mem_countFrom.1 (List.mem_of_find?_eq_some hk)
    exact this.2
  · have hfree := List.find?_some hk
    simp only [Bool.not_eq_true', List.any_eq_false, decide_eq_true_eq] at hfree
    exact hfree q hq hs

/-- A queue may be served before another: by PRIO, then by the longer wait, the lower job and the lower number. -/
def Dev.SlotNotAfter (d : Dev) (q x : Queue) : Prop := d.prio x < d.prio q ∨ d.prio x = d.prio q ∧ (q.since < x.since ∨ q.since = x.since ∧
  (q.job < x.job ∨ q.job = x.job ∧ q.num ≤ x.num))

theorem Dev.SlotNotAfter.trans {d : Dev} {a b c : Queue} (hab : d.SlotNotAfter a b) (hbc : d.SlotNotAfter b c) : d.SlotNotAfter a c := by
  unfold Dev.SlotNotAfter at *
  omega

theorem slotNotAfter_of_slotBefore {d : Dev} {a b : Queue} (h : d.slotBefore a b = true) : d.SlotNotAfter a b := by
  unfold Dev.slotBefore at h
  unfold Dev.SlotNotAfter
  split_ifs at h <;> simp only [decide_eq_true_eq] at h <;> omega

theorem slotNotAfter_of_not_slotBefore {d : Dev} {a b : Queue} (h : ¬ d.slotBefore a b = true) : d.SlotNotAfter b a := by
  unfold Dev.slotBefore at h
  unfold Dev.SlotNotAfter
  split_ifs at h <;> simp only [decide_eq_true_eq] at h <;> omega

theorem Dev.SlotNotAfter.refl (d : Dev) (q : Queue) : d.SlotNotAfter q q := .inr ⟨rfl, .inr ⟨rfl, .inr ⟨rfl, le_rfl⟩⟩⟩

theorem firstFor_eq_none {d : Dev} {qs : List Queue} : d.firstFor qs = none ↔ qs = [] := by
  cases qs with
  | nil => exact ⟨fun _ => rfl, fun _ => rfl⟩
  | cons q qs =>
    rw [Dev.firstFor]
    cases d.firstFor qs with
    | none => simp
    | some x => by_cases hb : d.slotBefore q x = true <;> simp [hb]

theorem firstFor_holds {d : Dev} {qs : List Queue} {q : Queue} (h : d.firstFor qs = some q) : q ∈ qs ∧ ∀ x ∈ qs, d.SlotNotAfter q x := by
  induction qs generalizing q with
  | nil => cases h
  | cons a qs ih =>
    rw [Dev.firstFor] at h
    cases hf : d.firstFor qs with
    | none =>
      obtain rfl : a = q := by simpa [hf] using h
      rw [firstFor_eq_none.1 hf]
      exact ⟨List.mem_singleton.2 rfl, fun x hx => List.mem_singleton.1 hx ▸ Dev.SlotNotAfter.refl d x⟩
    | some y =>
      obtain ⟨hy, hmin⟩ := ih hf
      rw [hf] at h
      by_cases hb : d.slotBefore a y = true
      · obtain rfl : a = q := by simpa [hb] using h
        refine ⟨List.mem_cons_self, fun x hx => ?_⟩
        obtain rfl | hx := List.mem_cons.1 hx
        · exact Dev.SlotNotAfter.refl d x
        · exact (slotNotAfter_of_slotBefore hb).trans (hmin x hx)
      · obtain rfl : y = q := by simpa [hb] using h
        refine ⟨List.mem_cons_of_mem _ hy, fun x hx => ?_⟩
        obtain rfl | hx := List.mem_cons.1 hx
        · exact slotNotAfter_of_not_slotBefore hb
        · exact hmin x hx

/-- The queues that a free slot can go to: ready, without a slot, of a job that goes on. -/
def Dev.slotWaiters (d : Dev) : List Queue :=
  d.queues.filter fun q => q.ready && q.slot.isNone && match d.job? q.job with | some j => j.ending.isNone | none => false

theorem mem_slotWaiters {d : Dev} {q : Queue} : q ∈ d.slotWaiters ↔
    q ∈ d.queues ∧ q.ready = true ∧ q.slot = none ∧ ∃ j, d.job? q.job = some j ∧ j.ending = none := by
  rw [Dev.slotWaiters, List.mem_filter]
  cases d.job? q.job <;> simp [and_assoc]

theorem slotNext_some {d : Dev} {q : Queue} (h : d.slotNext = some q) :
    (q ∈ d.queues ∧ q.ready = true ∧ q.slot = none ∧ ∃ j, d.job? q.job = some j ∧ j.ending = none) ∧
    ∀ x ∈ d.queues, x.ready = true → x.slot = none → (∃ j, d.job? x.job = some j ∧ j.ending = none) → d.SlotNotAfter q x := by
  obtain ⟨hq, hmin⟩ := firstFor_holds (qs := d.slotWaiters) h
  exact ⟨mem_slotWaiters.1 hq, fun x hx hr hs hj => hmin x (mem_slotWaiters.2 ⟨hx, hr, hs, hj⟩)⟩

theorem slotNext_none (d : Dev) : d.slotNext = none ↔
    ∀ x ∈ d.queues, x.ready = true → x.slot = none → ∀ j, d.job? x.job = some j → j.ending ≠ none := by
  refine (firstFor_eq_none (qs := d.slotWaiters)).trans (List.eq_nil_iff_forall_not_mem.trans ?_)
  simp only [mem_slotWaiters]
  refine ⟨fun h x hx hr hs j hj he => h x ⟨hx, hr, hs, j, hj, he⟩, ?_⟩
  rintro h x ⟨hx, hr, hs, j, hj, he⟩
  exact h x hx hr hs j hj he

theorem Dev.giveSlot_queues (d : Dev) (q : Queue) (k : Nat) : (d.giveSlot q k).queues = (d.setQueue { q with slot := some k, since := d.time }).queues := by
  unfold Dev.giveSlot
  cases d.job? q.job with
  | none => rfl
  | some j =>
    dsimp only
    split <;> rfl

theorem Dev.queue?_giveSlot (d : Dev) (q : Queue) (k : Nat) :
    (d.giveSlot q k).queue? q.job q.num = some { q with slot := some k, since := d.time } := by
  rw [Dev.queue?, Dev.giveSlot_queues]
  exact find?_upsert_self _ _ _ (by simp)

section
variable {s : State} {slot : Nat}

theorem exec_packageSliceExpiry_none (h : s.dev.slotNext = none ∨ ∀ q ∈ s.dev.queues, q.slot ≠ some slot) : exec (.packageSliceExpiry slot) s = .next s := by
  show execPackageSliceExpiry slot s = _
  rw [execPackageSliceExpiry]
  obtain h | h := h
  · simp only [h]
    cases s.dev.queues.find? fun q => decide (q.slot = some slot) <;> rfl
  · have hfind : (s.dev.queues.find? fun q => decide (q.slot = some slot)) = none := List.find?_eq_none.2 fun q hq => by simpa using h q hq
    simp only [hfind]
    rfl

theorem Regs.sliceNs_eq (r : Regs) : r.sliceNs = 1000 * (if r.sl = 0 then 10000 else r.sl.toNat) := by
  have hz : r.sl.toNat = 0 ↔ r.sl = 0 := BitVec.toNat_eq (y := 0) |>.symm
  simp only [Regs.sliceNs, hz]

theorem exec_packageSliceExpiry {q x : Queue} (hq : (s.dev.queues.find? fun q => decide (q.slot = some slot)) = some q) (hx : s.dev.slotNext = some x) :
    exec (.packageSliceExpiry slot) s = .next (
      if s.dev.slotFree ≠ none ∨ s.dev.time < q.since + 1000 * (if s.dev.regs.sl = 0 then 10000 else s.dev.regs.sl.toNat) then s
      else s.withDev fun d => ((d.haltQueue q).setQueue { q with slot := none, since := d.time }).giveSlot x slot) := by
  show execPackageSliceExpiry slot s = _
  rw [execPackageSliceExpiry, hq, hx, ← Regs.sliceNs_eq]
  simp only [Option.isSome_iff_ne_none]
  split <;> rfl

end

/-- Settles O39: the completions follow the model's own steps, and the next queue for a slot is the first in the order of R341. -/
theorem recordsAndSlots : Obligations.RecordsAndSlots := by
  unfold Obligations.RecordsAndSlots
  exact ⟨⟨fun s tag h => exec_launchComplete_none h,
      fun s tag la j hl hj he ho => ⟨fun job q seq hq => exec_launchComplete_queue hl hj he ho hq, fun p o hp => exec_launchComplete_child hl hj he ho hp⟩,
      did_childArrive, launchOver_iff, Dev.dropLaunch_holds, fun s job n seq h => exec_invalidateComplete_none h,
      fun s job n seq q e hq he => exec_invalidateComplete hq he, Dev.dropTranslations_holds, fun s job n h => exec_completionEntryWrite_none h,
      fun s job n j q e rest hj hq hd => exec_completionEntryWrite hj hq hd, entryBytes_holds⟩,
    exec_slotGrant, slotFree_holds, fun d q h => slotNext_some h, slotNext_none, fun d q k _ => d.queue?_giveSlot q k,
    fun s slot h => exec_packageSliceExpiry_none h, fun s slot q x hq hx => exec_packageSliceExpiry hq hx⟩

end Sys2Proof.Machine
end
